-- ==== Sys2Proof/Word.lean ====
section
/-! DEFINITION. The word types of the SLD3 model: what the manual treats as bits. -/

namespace Sys2Proof

/-- One byte of any memory (R9: multi-byte values are little-endian lists of these). -/
abbrev Byte := BitVec 8

/-- A 32-bit register or slot. -/
abbrev Word := BitVec 32

/-- A 64-bit register. -/
abbrev DWord := BitVec 64

/-- A 128-bit instruction word (R179). -/
abbrev IWord := BitVec 128

end Sys2Proof
end

