-- ==== Sys2Proof/Config.lean ====
section
/-! DEFINITION. What the manual leaves open, as constants with no body: a proof can lean on no value of them.
Each has a row in notes/assumptions. -/

namespace Sys2Proof

/-- Profiles of the four decode standards that Table 8.4 names. -/
inductive VideoProfile where
  | main
  | main422
  | high
  | high10
  | high422
  | main10
  | main42210
  | other
  deriving DecidableEq, Repr, Inhabited

/-- What a stream signals in its sequence header, parameter sets or sequence header OBU (R243, R250): `level` in tenths (for MPEG-2 Video
10 Low, 20 Main, 30 High 1440, 40 High), `chroma` 0 for 4:0:0, 1 for 4:2:0, 2 for 4:2:2, 3 for another. -/
structure StreamInfo where
  profile : VideoProfile
  level : Nat
  chroma : Nat
  depth : Nat
  /-- A scalable, multiview, multilayer or screen-content extension is in use. -/
  extended : Bool
  interlaced : Bool
  /-- Field coding that Table 8.4 does not list for the codec. -/
  otherInterlace : Bool
  matrix : Nat
  fullRange : Bool
  width : Nat
  height : Nat
  deriving DecidableEq, Repr, Inhabited

/-- The samples of one picture in raster order, after the conformance window: luma and the two chroma planes, empty for 4:0:0. -/
structure Planes where
  luma : List Nat
  cb : List Nat
  cr : List Nat
  deriving DecidableEq, Repr, Inhabited

/-- One picture in decoding order, as its headers say (R244 to R246); chroma width 0 for 4:0:0. -/
structure PictureHead where
  width : Nat
  height : Nat
  cwidth : Nat
  cheight : Nat
  /-- A top (true) or bottom field, or none for a frame; the picture that holds the other field of its pair. -/
  field : Option Bool
  mate : Option Nat
  /-- A progressive frame, and the signalled field order: top first. -/
  progressive : Bool
  topFirst : Option Bool
  /-- Place in output order, and whether the standard outputs it after the random-access point. -/
  order : Nat
  output : Bool
  /-- It is a random-access point. -/
  access : Bool
  /-- Decoding units in decoding order: slice or tile, and x, y, width and height in luma samples. -/
  units : List (Nat × Nat × Nat × Nat × Nat)
  /-- Pictures it predicts from, none for one that is missing, and pictures that the decoder holds for reference, by decoding order. -/
  refs : List (Option Nat)
  held : List Nat
  deriving DecidableEq, Repr, Inhabited

/-- A training record (R427): the unit, firmware's record format, the settings the unit trained to, the partner's identity, and the CRC-32C. -/
structure TrainRec where
  unit : Nat
  format : Nat
  /-- Equalisation of each lane, lanes, rate and link version. -/
  eq : List (BitVec 8)
  width : Nat
  rate : Nat
  version : Nat
  partner : List (BitVec 8)
  crc : BitVec 32
  deriving DecidableEq, Repr, Inhabited

namespace Config

/-- An undefined value (R4): the contents of cell `addr` of `w` bits that was made undefined as event number `epoch`. -/
opaque undef (w : Nat) (epoch addr : Nat) : BitVec w

/-- Clock periods for which the tile-memory banks keep an engine's read of tile memory waiting on core `core` at clock period `clk`,
gather and scatter conflicts apart (R108, R160): no rule says when a bank is not ready. -/
opaque bankWait (core clk : Nat) : Nat

/-- The 8-byte words of a core's accumulator memory and tile memory, and its tile-register slots, in which an error appears in clock
period `clk`, correctable or not (R122, R286): no rule says when. -/
opaque upsetAcc (uncorrectable : Bool) (core clk : Nat) : List Nat
opaque upsetTile (uncorrectable : Bool) (core clk : Nat) : List Nat
opaque upsetSlot (core clk : Nat) : List Nat

/-- The 8-byte words of staging memory, and of GDDR7 the 64-byte lines, or for correctable errors the 32-byte sectors, in which an error
appears in clock period `n`, correctable or not (R288, R292): no rule says when. -/
opaque upsetStaging (uncorrectable : Bool) (n : Nat) : List Nat
opaque upsetGddr (uncorrectable : Bool) (n : Nat) : List Nat

/-- The 8-byte words of staging memory that its scrubber reads in clock period `n` (R288): no rule orders them. -/
opaque stagingScrub (n : Nat) : List Nat

/-- Requests at a GDDR7 channel meet a read-write turnaround in clock period `n` (R293): no rule says when. -/
opaque turnaround (channel n : Nat) : Bool

/-- A GDDR7 device's on-die ECC error count at the end of scrub pass `n` of its channel (R293). -/
opaque onDieErrors (channel n : Nat) : Nat

/-- The event log that firmware reads from the expander of a Scree port (R296), at event `n`. -/
opaque expanderLog (port n : Nat) : List Byte

/-- The GDDR7 address bits [47:12] at which firmware places the host-table page of a level and index (R302). -/
opaque tablePage (level index : Nat) : BitVec 36

/-- What the flits carry that a packet fills, in order (R313): the manual gives no flit layout. -/
opaque flitBodies (packet : List Byte) : List (List Byte)

/-- The port on which a block came in (R326): it depends on routes that other devices chose. -/
opaque rxPort (origin opId index : Nat) : Fin 8

/-- The network cycles of clock period `n` in which a port has no credit left for data (R314): no rule gives credits' timing. -/
opaque creditWait (port n : Nat) : Nat

/-- The 8-byte accumulator word that the scrubber writes where the port of a column has capacity to spare in clock period `clk`, if it
does (R109): no rule orders the scrubber's words. -/
opaque idleScrub (core column clk : Nat) : Option Nat

/-- The order in which SCATADD.U's additions to one address happen (R189): elements run in ascending key. -/
opaque orderKey (epoch e : Nat) : Nat

/-- The pairs of one core that the race audit's trace region holds (R196): its size and layout are open. -/
opaque traceRoom : Nat

/-- The offset of a core's trace region in the firmware area, and its bytes: the records (two accesses as strand, code index, cycle, write,
first cell and cells, and the token operations between them as strand, counter, amount, wait and cycle) and the header's count (R196). -/
opaque tracePlace (core : Nat) : Nat
opaque traceImage (records : List (List Nat × List Nat × List (Nat × Nat × Int × Bool × Nat))) (lost : Nat) : List (BitVec 8)

/-- The rounded bits of a correctly rounded function whose rounding 600 * 2^23 fraction bits would not decide (R147). -/
opaque roundHard (op a b : Nat) : Nat

/-- SLH-DSA signature verification (R355, R416, R441): an external standard. -/
opaque sigOk (key msg sig : List Byte) : Bool

/-- SLH-DSA-SHA2-128f signature of the device's signing unit over a message (R447). -/
opaque signReport (msg : List Byte) : List Byte

/-- The headers of a stream as its codec's standard reads them: codec, init bytes, access units with whether each is damaged; none
when they cannot be parsed (R243). -/
opaque streamInfo (codec : Nat) (init : List Byte) (units : List (List Byte × Bool)) : Option StreamInfo

/-- The pictures of a stream in decoding order, as their headers say: codec, init bytes, access units. -/
opaque pictureHeads (codec : Nat) (init : List Byte) (units : List (List Byte × Bool)) : List PictureHead

/-- Picture `k` of a stream as its codec's standard decodes it, before the in-loop filters, from the samples of the pictures it predicts
from; and the decoding units in which an error is detected (R243, R245 step 1). -/
opaque decodePicture (codec : Nat) (init : List Byte) (units : List (List Byte × Bool)) (k : Nat) (refs : List Planes) : Planes × List Nat

/-- The in-loop filters of the codec's standard on picture `k`, but for every edge with a unit of `skip` on either side (R245 step 4). -/
opaque loopFilters (codec : Nat) (init : List Byte) (units : List (List Byte × Bool)) (k : Nat) (samples : Planes) (skip : List Nat) : Planes

/-- The contents of the expander after a part-line write to a poisoned line: whether the line stays poisoned (R296). -/
opaque partWriteKeepsPoison (line : Nat) : Bool

/-- The text that firmware logs at event `n` (R415, R438): the manual gives none. -/
opaque logText (n : Nat) : List Byte

/-- What the device summary record (R411) holds before and after its shed-level byte, built as event `n`: the manual names no other
field of it. -/
opaque summaryHead (n : Nat) : List Byte
opaque summaryTail (n : Nat) : List Byte

/-- The device at an F7 partner's address has at least two linked expanders, as it tells this one (R372). -/
opaque partnerHasSlots (addr : Nat) : Bool

/-- The VDD_CORE setpoint that firmware wants at event `n`, in steps of 5 mV above 650 mV (R455, R456): its policy is open. -/
opaque setpoint (n : Nat) : Nat

/-- What the twin sends in exchange `n` at a JOB_START (R276): its preimage with bytes 64-95 and 104-107 zero, and the length of its
rank table in bytes. -/
opaque twinIdentity (n : Nat) : List Byte × Nat

/-- The training-record format of a firmware build (R427). -/
opaque recordFormat (build : Word) : Nat

/-- What a unit trained to as event `n` finds it, with the fields that no register shows: equalisation, width, rate, version and partner. -/
opaque training (unit n : Nat) : TrainRec

/-- The place in the firmware area to which FW_STAGE reads a package (R443). -/
opaque stagePlace : Nat

/-! What one device was given at its test and delivery, and no rule of the manual fixes (log 15). -/

/-- The vendor key slots of the fuses: SHA-256 digests of public keys, none where unprogrammed (R440). -/
opaque keySlots : Vector (Option (List Byte)) 4

/-- The factory training record of a unit (R463). -/
opaque factoryRecord (unit : Nat) : TrainRec

/-- The serial number of the fuses (R394). -/
opaque serial : BitVec 64

/-- The identity public key of the signing unit (R446). -/
opaque identityKey : List Byte

/-- The identity certificate area of flash (R446). -/
opaque certificate : List Byte

/-- The firmware package in slot A of flash (R442). -/
opaque slotA : List Byte

end Config
end Sys2Proof
end

