-- ==== Sys2Proof/Syntax.lean ====
section
/-! DEFINITION. The commands of the SLD3: one constructor of `Instr` per row of spec/opcode_table.json, with the operands the
rule of that row gives it. An instruction row carries the issuing core and strand and bits [127:10] of the instruction word
(Table 6.1: the row itself fixes bits [9:0], the opcode). An event row carries what the world outside the state decides:
the unit concerned and, where the event reports one, its physical outcome. A UMP row names the mailbox whose held command
firmware takes. -/

namespace Sys2Proof

/-- The three kinds of array instruction that run one at a time and queue one more (R102, R125). -/
inductive MaKind where
  | pass
  | drain
  | load
  deriving DecidableEq, Repr

/-- What an error-correcting code reports about one read (R122, R286, R292). -/
inductive Ecc where
  | clean
  | corrected
  | uncorrectable
  deriving DecidableEq, Repr

/-- How a memory request ends: with its data or its write done, with an uncorrectable unit at an address (R216, cause 0x04),
or with a host or CXL link error (cause 0x06). -/
inductive ReqOutcome where
  | ok
  /-- The units at these addresses were corrected: 8-byte words of tile and staging memory, 32-byte sectors of GDDR7. -/
  | corrected (units : List Nat)
  | uncorrectable (addr : Nat)
  | linkError
  deriving DecidableEq, Repr

/-- Firmware's two parts in a run of the recheck routine (R345, R346): it starts the routine, whose instructions then issue as any, and
it takes the result once the routine has halted. -/
inductive RunPhase where
  | begins
  | ends
  deriving DecidableEq, Repr

/-- A look into the sample cache: the step slot that looks, and how the read of the line ends (R239, R256). -/
structure CacheLook where
  slot : Nat
  outcome : ReqOutcome
  deriving DecidableEq, Repr

/-- What a port's receiver finds of a flit: its CRC-64 and its uncorrectable codewords (R313, R315). -/
structure FlitCheck where
  crcOk : Bool
  codewords : Nat
  deriving DecidableEq, Repr

/-- The acknowledge of R324; a mismatch carries both check values (R325). -/
inductive AckOutcome where
  | written
  | mismatch (expected computed : Word)
  | badDestination
  deriving DecidableEq, Repr

/-- How a member forms its part of a collective (Table 11.4): the fields in which members may not differ (R329). -/
structure CollForm where
  op : Nat
  red : Nat
  ofmt : Nat
  m : Nat
  deriving DecidableEq, Repr, Inhabited

/-- What an arriving block or open belongs to: a SEND, or a collective of a group under a key's cid from a position, formed as the sender's
stage says (R327, R329, R334). -/
inductive BlockTarget where
  | send
  | coll (group cid position : Nat) (form : CollForm)
  deriving DecidableEq, Repr

/-- How a port's training or retraining ends (R316 to R318): lane groups that passed in both directions, and the far side's version range. -/
structure TrainResult where
  groups : BitVec 4
  peerMin : Nat
  peerMax : Nat
  full : Bool
  deriving DecidableEq, Repr

/-- How one CXL port trained in Instar 3 (R296): width x8 or x4, rate 32 or 16 GT/s, whether the expander has the capacity and roles R296 asks for. -/
structure CxlResult where
  up : Bool
  x4 : Bool
  gt16 : Bool
  expanderOk : Bool
  full : Bool
  deriving DecidableEq, Repr

/-- The outcome of link training in Instar 3 (R426): PCIe, the four CXL ports and the eight fabric ports. -/
structure LinkTraining where
  pcieUp : Bool
  pcieFull : Bool
  cxl : Vector CxlResult 4
  fabric : Vector TrainResult 8
  deriving DecidableEq, Repr

/-- How bring-up ends in Imago: the milliseconds it took, and the units whose new training record flash did not take (R428). -/
structure BringUpEnd where
  elapsedMs : Nat
  failed : BitVec 37
  deriving DecidableEq, Repr

/-- The flooding header of a control-plane message (R336): origin, message sequence and hops so far. -/
structure Ctl where
  origin : BitVec 15
  seq : Nat
  hops : Nat
  deriving DecidableEq, Repr

/-- How the copy of a checkpoint granule ends (R373, R378, R381). -/
inductive CopyOutcome where
  | acknowledged
  /-- Acknowledged, and the units at these addresses of the source were corrected. -/
  | corrected (units : List Nat)
  | sourceUncorrectable
  | badAcknowledge
  deriving DecidableEq, Repr

/-- What a restore's source streamed: the manifest's bytes and the shards in manifest order (R384). -/
structure RestoreSource where
  manifest : List Byte
  shards : List (List Byte)
  deriving DecidableEq, Repr

/-- The host link or one CXL link (R216). -/
inductive HostLink where
  | host
  | cxl (port : Fin 4)
  deriving DecidableEq, Repr

/-- The control spaces whose registers the manual lays out, and the PCIe configuration space. -/
inductive RegSpace where
  | core (p : Fin 20)
  | ingest
  | replay
  | memory
  | fabric
  | checkpoint
  | cairn
  | power
  /-- The PCIe configuration space (R391, R392). -/
  | pci
  deriving DecidableEq, Repr

/-- The commands, one per row of spec/opcode_table.json. -/
inductive Instr where
  /-- R168. Ends the issuing strand and frees its claims from the next cycle. -/
  | halt (core : Fin 20) (strand : Fin 128) (ops : BitVec 118)
  /-- R184. Sets the strand's program counter to the target when the condition on X[xsel] holds. -/
  | br (core : Fin 20) (strand : Fin 128) (ops : BitVec 118)
  /-- R184. Loads or decrements a loop counter and branches to the target while the remaining count is above zero. -/
  | loop (core : Fin 20) (strand : Fin 128) (ops : BitVec 118)
  /-- R184. Writes an immediate value to an index register. -/
  | xset (core : Fin 20) (strand : Fin 128) (ops : BitVec 118)
  /-- R184. Adds an immediate value to an index register, modulo 2^32. -/
  | xadd (core : Fin 20) (strand : Fin 128) (ops : BitVec 118)
  /-- R176. Increments the virtual core's step tag and marks its step boundary, or raises the step-tag overflow fault. -/
  | step (core : Fin 20) (strand : Fin 128) (ops : BitVec 118)
  /-- R197. The strand starts waiting at a MIGRATE point; differing points of all live strands raise fault 0x0C. -/
  | migrate (core : Fin 20) (strand : Fin 128) (ops : BitVec 118)
  /-- R169. The strand requests a set of engines and waits for the grant. -/
  | claim (core : Fin 20) (strand : Fin 128) (ops : BitVec 118)
  /-- R171. Frees claimed engines at the end of the cycle, or raises the engine-use fault for an engine not held. -/
  | release (core : Fin 20) (strand : Fin 128) (ops : BitVec 118)
  /-- R172. Adds a signed delta to a token counter, raising token overflow or underflow without changing it on a range violation. -/
  | tsig (core : Fin 20) (strand : Fin 128) (ops : BitVec 118)
  /-- R173. The strand starts testing a token counter against n each counted cycle. -/
  | twait (core : Fin 20) (strand : Fin 128) (ops : BitVec 118)
  /-- R100. Streams tokens through the matrix array against the active stationary set into an accumulator tile. -/
  | mpass (core : Fin 20) (strand : Fin 128) (ops : BitVec 118)
  /-- R118. A pass whose token count is read from tile memory at issue; a count of 0 writes nothing. -/
  | mpassP (core : Fin 20) (strand : Fin 128) (ops : BitVec 118)
  /-- R104. Starts filling the shadow stationary set one row per cycle while passes continue on the active set. -/
  | broadcastMload (core : Fin 20) (strand : Fin 128) (ops : BitVec 118)
  /-- R106. Arms the array so that the next pass carries new stationary vectors in behind the previous pass. -/
  | wavefrontMload (core : Fin 20) (strand : Fin 128) (ops : BitVec 118)
  /-- R105. Requests an exchange of the active and shadow stationary sets at the flip cycle. -/
  | mswap (core : Fin 20) (strand : Fin 128) (ops : BitVec 118)
  /-- R124. Reads an accumulator tile, converts each element under R94 and writes it to tile memory, optionally tapping the range checker. -/
  | mdrain (core : Fin 20) (strand : Fin 128) (ops : BitVec 118)
  /-- R133. Performs an element-wise vector operation over a tile sequence. -/
  | vop (core : Fin 20) (strand : Fin 128) (ops : BitVec 118)
  /-- R139. Converts elements between formats, including packed and MX formats in tile memory. -/
  | vcvt (core : Fin 20) (strand : Fin 128) (ops : BitVec 118)
  /-- R145. Computes a chunked Kogge-Stone prefix sum over a sequence, optionally segmented. -/
  | vscan (core : Fin 20) (strand : Fin 128) (ops : BitVec 118)
  /-- R140. Moves bits between tile memory, tile registers and mask registers without arithmetic. -/
  | vtrn (core : Fin 20) (strand : Fin 128) (ops : BitVec 118)
  /-- R141. Reads elements from tile memory at indexed addresses into a tile sequence. -/
  | vgath (core : Fin 20) (strand : Fin 128) (ops : BitVec 118)
  /-- R142. Writes tile-sequence elements to indexed tile-memory addresses in ascending element order. -/
  | vscat (core : Fin 20) (strand : Fin 128) (ops : BitVec 118)
  /-- R157. Sets mask bits from Philox outputs compared with a threshold. -/
  | rngmask (core : Fin 20) (strand : Fin 128) (ops : BitVec 118)
  /-- R150. Reduces a tile sequence along the group, lane or all axis. -/
  | red (core : Fin 20) (strand : Fin 128) (ops : BitVec 118)
  /-- R208. Submits a fused stream command record to the stream engine as a task. -/
  | scmd (core : Fin 20) (strand : Fin 128) (ops : BitVec 118)
  /-- R340. Writes a range-checker bound set from a record in tile memory. -/
  | chkset (core : Fin 20) (strand : Fin 128) (ops : BitVec 118)
  /-- R272. Opens a witness digest unit with an empty message, discarding any open message. -/
  | wtapStart (core : Fin 20) (strand : Fin 128) (ops : BitVec 118)
  /-- R272. Appends bytes from tile memory to a witness unit's message. -/
  | wtapFeed (core : Fin 20) (strand : Fin 128) (ops : BitVec 118)
  /-- R272. Closes a witness unit's message and starts computing its SHA-256. -/
  | wtapFinish (core : Fin 20) (strand : Fin 128) (ops : BitVec 118)
  /-- R189. Adds source elements into indexed tile-memory elements in undefined order. -/
  | scataddU (core : Fin 20) (strand : Fin 128) (ops : BitVec 118)
  /-- R189. Submits an arrival-order all-reduce sum to the collective engine. -/
  | csumU (core : Fin 20) (strand : Fin 128) (ops : BitVec 118)
  /-- R189. Writes a named counter register of the core to tile memory. -/
  | cntrdU (core : Fin 20) (strand : Fin 128) (ops : BitVec 118)
  /-- R180. An instruction with a reserved opcode, including the all-zero word, raises the illegal-encoding fault at issue. -/
  | reservedOpcode (core : Fin 20) (strand : Fin 128) (word : IWord)
  /-- R173. A waiting TWAIT finds its counter at least n and completes, consuming n when asked. -/
  | twaitComplete (core : Fin 20) (strand : Fin 128)
  /-- R170. A pending CLAIM is granted when all its engines are free, in ascending strand order. -/
  | claimGrant (core : Fin 20) (strand : Fin 128)
  /-- R197. All live strands wait at one point and the core is drained, so the point is reached and the core resumes or holds. -/
  | migratePointReached (core : Fin 20)
  /-- R198. Firmware writes mig_release and the held strands resume at the next counted cycle. -/
  | migRelease (core : Fin 20)
  /-- R174. The watchdog finds a wait longer than wdog_ms and raises the deadlock fault without completing the instruction. -/
  | deadlock (core : Fin 20) (strand : Fin 128) (waitedMs : Nat)
  /-- R102. A queued array instruction takes effect in the cycle after the running one has streamed its last token. -/
  | queuedPassStart (core : Fin 20) (kind : MaKind)
  /-- R159. A queued vector or reduction instruction takes effect after the running one has read its last block. -/
  | queuedVectorStart (core : Fin 20) (red : Bool)
  /-- R104. A broadcast MLOAD finishes writing the last row of the shadow set. -/
  | shadowSetComplete (core : Fin 20)
  /-- R105. At cycle f the active and shadow sets exchange in all rows with their states and modes. -/
  | mswapFlip (core : Fin 20)
  /-- R109. A column port without idle capacity for 65,536 cycles takes a forced scrub write. -/
  | forcedScrubWrite (core : Fin 20) (column : Fin 32) (ecc : Ecc)
  /-- R167. An instruction-buffer miss freezes the domain while a 1 KiB line is fetched. -/
  | lineFetch (core : Fin 20) (strand : Fin 128) (ecc : Ecc)
  /-- R343. The range checker's verdict on a unit falls 2,048 cycles after its last element, tripping or passing it. -/
  | checkerVerdict (core : Fin 20)
  /-- R345. After a recheckable trip drains the core, firmware runs the recheck routine with rotated columns. -/
  | recheckRun (core : Fin 20) (phase : RunPhase)
  /-- R346. Firmware runs the recheck routine a third time on an idle spare core and decides the arbitration outcome. -/
  | thirdRun (core : Fin 20) (phase : RunPhase)
  /-- R346. Firmware writes CORE_CHK_CTRL.resume and the core issues again from the next counted cycle. -/
  | chkResume (core : Fin 20)
  /-- R351. Firmware acts on a core fault or abort cause by its class: resubmit, rollback or fault event. -/
  | faultResubmission (core : Fin 20)
  /-- R347. At the next MIGRATE point firmware moves the virtual core to a spare and takes the physical core out of service. -/
  | quarantine (core : Fin 20)
  /-- R306. At a held point firmware saves the resident virtual core and loads its partner. -/
  | oversubscriptionSwap (core : Fin 20)
  /-- R199. Firmware saves a virtual core's state and restores it on a spare physical core. -/
  | moveToSpare (src dst : Fin 20)
  /-- R218. A write of a completion-record address re-runs the aborted or rejected task. -/
  | strmResubmit (core : Fin 20) (value : Word)
  /-- R73. A write sets the selected arithmetic flags of CORE_AFLAGS. -/
  | coreAflagsSet (core : Fin 20) (value : Word)
  /-- R201. Writing 1 to CORE_FAULT.valid clears every field of the recorded fault. -/
  | coreFaultClear (core : Fin 20)
  /-- R14. A write to a register without behaviour of its own sets or clears fields per its access code. -/
  | registerWrite (space : RegSpace) (offset : Nat) (value : DWord)
  /-- R212. A stage issues a memory request of up to 16 KiB, merging descriptors where allowed. -/
  | stageRequestIssue (core : Fin 20) (task : Nat) (stage : Fin 6)
  /-- R214. The stream engine fetches a run of 64 descriptors ahead of use. -/
  | descriptorRunFetch (core : Fin 20) (task : Nat) (stage : Fin 6)
  /-- R213. A memory request returns data or completes its write for its stage. -/
  | memoryRequestComplete (core : Fin 20) (task : Nat) (stage : Fin 6) (outcome : ReqOutcome)
  /-- R215. A task ends, writes its completion record and adds tinc to its token counter when complete. -/
  | taskEnd (core : Fin 20) (task : Nat)
  /-- R275. A witness unit finishes its digest and writes a witness record, or drops it on a full ring. -/
  | witnessRecord (unit : Fin 8)
  /-- R303. A fault unresolved within half of wdog_ms is declared unresolvable by firmware. -/
  | xlatFaultTimeout (entry : BitVec 8)
  /-- R303. A MEM_XLAT_RESP write with retry retries every request of the queue entry. -/
  | xlatRespRetry (entry : BitVec 8)
  /-- R303. A MEM_XLAT_RESP write with unresolvable aborts the waiting tasks with cause 0x05. -/
  | xlatRespUnresolvable (entry : BitVec 8)
  /-- R304. A MEM_TLB_INV write with all = 1 invalidates every TLB entry. -/
  | tlbInvalidateAll
  /-- R304. A MEM_TLB_INV write with all = 0 invalidates the entry of one device page. -/
  | tlbInvalidatePage (page : BitVec 36)
  /-- R293. A controller issues per-bank refresh at the temperature-dependent rate. -/
  | gddr7Refresh (channel : Fin 24)
  /-- R293. A controller reads every line of its channel once per 24 hours and corrects errors. -/
  | patrolScrub (channel : Fin 24) (line : Nat) (sectors : Fin 3) (ecc : Ecc)
  /-- R286. The scrubber reads every tile-memory word once in 2^24 cycles using idle bank cycles. -/
  | tileMemoryScrub (core : Fin 20) (word : Nat) (ecc : Ecc)
  /-- R234. The ingest front end reads the release word and starts slots of steps below release + D. -/
  | releaseWordPoll
  /-- R237. The front end reads a corpus index entry and accepts it or retries after the poll interval. -/
  | indexEntryRead (slot : Nat) (outcome : ReqOutcome)
  /-- R239. The front end checks the cache line tag and reads a hit or fetches and fills on a miss. -/
  | sampleCacheLookup (look : CacheLook)
  /-- R238. The front end reads a sample's src and init bytes from host memory or the Scree tier. -/
  | sampleFetch (slot : Nat) (outcome : ReqOutcome)
  /-- R242. A decode slice decodes one sample's video stream with fixed concealment and delivers pictures. -/
  | sampleDecode (slot : Nat) (slice : Fin 32)
  /-- R235. When a slot's blocks and record are visible, the front end adds its increment to the named token counter. -/
  | slotComplete (slot : Nat)
  /-- R313. A port accepts a flit or discards it and requests replay. -/
  | flitReceive (port : Fin 8) (seq : BitVec 12) (check : FlitCheck) (symbols : Nat)
  /-- R313. A sender replays kept flits in order and retrains after 64 replays of one flit. -/
  | replayRequest (port : Fin 8) (seq : BitVec 12)
  /-- R313. No flit accepted for 500 us while flits are pending starts a retrain. -/
  | flitAcceptTimeout (port : Fin 8)
  /-- R316. A port's training or retraining ends up at a width and version or marked down. -/
  | portTrained (port : Fin 8) (result : TrainResult)
  /-- R318. A write of FAB_PORT_n_CTRL.retrain starts a retrain of the port. -/
  | portRetrain (port : Fin 8)
  /-- R319. Setting FAB_PORT_n_CTRL.enable starts a full training of the port. -/
  | portEnable (port : Fin 8)
  /-- R319. Clearing FAB_PORT_n_CTRL.enable takes the port out of use. -/
  | portDisable (port : Fin 8)
  /-- R321. A device receives a packet and forwards, drops or delivers it. -/
  | packetReceive (port : Fin 8) (packet : List Byte)
  /-- R324. The receiver checks and writes a block and returns an acknowledge with its outcome. -/
  | blockReceive (origin : BitVec 15) (job opId index : Word) (target : BlockTarget) (block : List Byte) (flags : BitVec 3)
  /-- R327. A receiver takes the open packet of a SEND or exchange and acknowledges it. -/
  | openReceive (origin : BitVec 15) (job opId : Word) (target : BlockTarget) (params : List Byte)
  /-- R325. A sender receives an acknowledge and completes the block or aborts the task. -/
  | acknowledgeReceive (opId index : Word) (outcome : AckOutcome)
  /-- R325. No acknowledge within resend_us makes the sender resend with a fresh route or abort with cause 0x07. -/
  | resendTimeout (opId index : Word)
  /-- R331. When every member has contributed, the collective engine finishes the reduction and delivers outputs. -/
  | collectiveComplete (group step cid : Nat)
  /-- R335. The responder sends a heartbeat flit on each up port every 250 us. -/
  | heartbeatSend
  /-- R335. A valid heartbeat arrives and resets the port's missed count. -/
  | heartbeatReceive (port : Fin 8) (neighbour : BitVec 15) (state : BitVec 2) (count : Word)
  /-- R335. Eight silent periods declare the link failed, mark the port down and flood a notice. -/
  | heartbeatLoss (port : Fin 8)
  /-- R466. A device applies a link-state notice to its down map and forwards it. -/
  | linkStateNotice (port : Fin 6) (ctl : Ctl) (payload : List Byte)
  /-- R407. A control-plane pause, resume or abort is applied by epoch and forwarded. -/
  | jobControlMessage (port : Fin 6) (ctl : Ctl) (payload : List Byte)
  /-- R365. A kind 0x03 early-checkpoint request derives a boundary and keeps it pending. -/
  | earlyCheckpointRequest (port : Fin 6) (ctl : Ctl) (payload : List Byte)
  /-- R367. A kind 0x03 drain-and-replacement request derives a boundary for a set before replacement. -/
  | drainAndReplacementRequest (port : Fin 6) (ctl : Ctl) (payload : List Byte)
  /-- R364. A device assembles a field-test package chunk and verifies the package once complete. -/
  | fieldTestChunk (port : Fin 6) (ctl : Ctl) (payload : List Byte)
  /-- R364. A package not complete within 10 s of its first chunk is discarded. -/
  | packageAssemblyTimeout (package : DWord) (version : Word)
  /-- R422. A device in state C assembles relayed image chunks and loads the image. -/
  | imageRelay (port : Fin 6) (ctl : Ctl) (payload : List Byte)
  /-- R278. The compare unit matches a twin record by key and retires it or finds a mismatch. -/
  | twinRecordReceive (record : List Byte) (resubmitted : Bool)
  /-- R279. The twin's halt signal pauses the job and settles the formed records. -/
  | twinHaltSignal
  /-- R352. Every 1 ms each bucket adds its events, leaks, and updates warning and fail states. -/
  | cairnTick
  /-- R354. Firmware saves Cairn levels and the health record to flash every hour. -/
  | healthRecordSave
  /-- R357. A field test halts and passes or fails on its output digest. -/
  | fieldTestEnd (core : Fin 20)
  /-- R357. A field test not halted within its run-time bound fails. -/
  | fieldTestTimeout (core : Fin 20) (elapsedMs : Nat)
  /-- R359. A package past its deferral limit sets step_hold to force the test at the next step boundary. -/
  | forcedFieldTest (core : Fin 20)
  /-- R359. A virtual core held at STEP drains and holds as at a MIGRATE point. -/
  | stepHoldReached (core : Fin 20)
  /-- R368. A virtual core whose STEP reaches a pending boundary stops issue and holds once drained. -/
  | boundaryHold (core : Fin 20)
  /-- R369. With every virtual core held, the rank writes core-state records, arms the guard and releases the cores. -/
  | snapshotArm
  /-- R373. The checkpoint engine copies a covered granule to the buddy and releases the guard on it. -/
  | granuleCopy (granule : Nat) (outcome : CopyOutcome)
  /-- R378. A buddy writes a checkpoint block from its F7 partner to its slot and acknowledges it. -/
  | checkpointBlockReceive (slotB : Bool) (offset : Nat) (block : List Byte)
  /-- R378. After all shards are acknowledged, the engine writes the manifest and posts event 0x0D01. -/
  | manifestWrite (acknowledged : Bool)
  /-- R382. A slot drain to a host window finishes with the manifest last and posts 0x0D04. -/
  | drainComplete
  /-- R384. Restoring shards finishes, setting CKPT_COMMITTED and step tags, or fails, and posts 0x0D05. -/
  | restoreEnded (source : Option RestoreSource)
  /-- R399. A doorbell locks the command area, acknowledges the sequence, or sets overrun when busy. -/
  | mbxDoorbell (mbx : Fin 8)
  /-- R397. A sideband frame is checked and taken as a mailbox 8 command or discarded. -/
  | sidebandFrame (frame : List Byte)
  /-- R394. Returns the first 64 bytes of the identity block. -/
  | identify (mbx : Fin 9)
  /-- R402. Negotiates the UMP protocol version. -/
  | hello (mbx : Fin 9)
  /-- R405. Returns device capacities and unit counts. -/
  | caps (mbx : Fin 9)
  /-- R443. Reads, authenticates and writes a firmware package to the unselected slot. -/
  | fwStage (mbx : Fin 9)
  /-- R444. Selects a firmware slot in trial, optionally with a warm reset, or commits the security version. -/
  | fwActivate (mbx : Fin 9)
  /-- R447. Writes a signed attestation report to a host buffer. -/
  | attest (mbx : Fin 9)
  /-- R406. Creates a job with its parameters and moves the device to state C. -/
  | jobCreate (mbx : Fin 9)
  /-- R421. Checks, places, relocates and loads a program image, or rejects it with a reason. -/
  | jobLoad (mbx : Fin 9)
  /-- R409. Binds a host region, maps pages for a fault, or binds a drain window. -/
  | regionBind (mbx : Fin 9)
  /-- R406. Starts the loaded job after its checks and moves it to state R. -/
  | jobStart (mbx : Fin 9)
  /-- R407. Pauses every rank by flooding a kind 0x02 message. -/
  | jobPause (mbx : Fin 9)
  /-- R407. Resumes every rank by flooding a kind 0x02 message. -/
  | jobResume (mbx : Fin 9)
  /-- R408. Aborts the job on every rank, failing sets and aborting tasks with cause 0x0A. -/
  | jobAbort (mbx : Fin 9)
  /-- R365. Requests a checkpoint at a named boundary or in derive form. -/
  | ckptRequest (mbx : Fin 9)
  /-- R410. Queries buddy slots, commits a generation, or starts a slot drain. -/
  | ckptStatus (mbx : Fin 9)
  /-- R384. Starts restoring a generation from a buddy slot or host window. -/
  | restore (mbx : Fin 9)
  /-- R356. Delivers a field-test package, optionally flooding it. -/
  | testPush (mbx : Fin 9)
  /-- R405. Returns the accepted version and per-core test state of a package. -/
  | testStatus (mbx : Fin 9)
  /-- R411. Returns a telemetry record and may set the mirror sampling interval. -/
  | telemetry (mbx : Fin 9)
  /-- R405. Copies firmware log text to a host buffer. -/
  | logRead (mbx : Fin 9)
  /-- R439. Sets the power limit, throttle temperature and power options. -/
  | powerPolicy (mbx : Fin 9)
  /-- R405. Returns the status registers of the named links. -/
  | linkStatus (mbx : Fin 9)
  /-- R405. Takes a physical core out of service at its next MIGRATE point or at once. -/
  | coreRetire (mbx : Fin 9)
  /-- R405. Attaches or detaches the debug window to a held core of a debug job. -/
  | debugAttach (mbx : Fin 9)
  /-- R405. A reserved UMP opcode completes with status 0x03. -/
  | unknownOpcode (mbx : Fin 9)
  /-- R413. The host advances the tail and queued entries are written into the freed room. -/
  | evrTailWrite (value : BitVec 16)
  /-- R414. Enabling the event ring sets head and tail to 0 and routes events to the ring. -/
  | evrCtrlEnable (value : Word)
  /-- R412. The coalescing delay expires and the MSI-X vector is raised. -/
  | eventInterruptCoalesce
  /-- R415. Firmware measures its busy time per window and raises or lowers its shed level. -/
  | shedLevelWindow (busyPercent : Nat) (quiet100ms : Bool)
  /-- R415. Firmware rewrites the telemetry mirror at its sampling interval. -/
  | telemetryMirrorSample
  /-- R16. A host BAR0 access not naturally aligned or sized is discarded or answered with all ones. -/
  | bar0Access (write : Bool) (offset size : Nat) (value : DWord)
  /-- R396. A host read through BAR2 returns device memory, poisoned on uncorrectable lines. -/
  | bar2Read (offset len : Nat)
  /-- R396. A host write through BAR2 writes device memory or is discarded on a part-line uncorrectable target. -/
  | bar2Write (offset : Nat) (data : List Byte)
  /-- R395. A host access through the debug aperture reaches the held core's window. -/
  | debugWindowAccess (write : Bool) (offset size : Nat) (value : DWord)
  /-- R430. Return of power starts Instar 0 with all state except the Scree tier lost. -/
  | coldReset
  /-- R430. Sideband PERST schedules a warm reset 20 ms later while the health record is written. -/
  | perst
  /-- R430. Summit reboots from ROM and bring-up runs from Instar 1 with supplies up. -/
  | warmReset
  /-- R431. Resets PCIe-side state and holds host requests until Bus Master Enable is set. -/
  | functionLevelReset
  /-- R423. Rails stable for 10 ms end Instar 0 after fuses load and Summit boots. -/
  | instar0
  /-- R442. Firmware is authenticated from a slot, with fallback or recovery. -/
  | instar1
  /-- R423. GDDR7 channels train or map out and memory is zeroed. -/
  | instar2 (trained full : BitVec 24)
  /-- R426. PCIe, CXL and fabric ports train until each is up or down. -/
  | instar3 (links : LinkTraining)
  /-- R423. Microcode and records are loaded and the device enters Imago. -/
  | instar4 (result : BringUpEnd)
  /-- R444. A trial slot not reaching Imago in 300 s forces a warm reset into the other slot. -/
  | bringUpWatchdog
  /-- R436. Every 10 us the throttle updates global and per-core stretch levels. -/
  | throttleTick (estimateW : Nat) (temps : Vector Nat 32)
  /-- R438. A sensor at 108 C stops all clocks and powers off every switched domain. -/
  | thermalTrip (sensor : Fin 32) (temp : Nat)
  /-- R434. Writing req = 1 to PWR_DOM_n starts or queues a power-on sequence. -/
  | domainPowerOnRequest (domain : Fin 148)
  /-- R434. Writing req = 0 to PWR_DOM_n starts or queues a power-off sequence. -/
  | domainPowerOffRequest (domain : Fin 148)
  /-- R434. A domain's power sequence ends and any pending opposite sequence begins. -/
  | domainSequenceEnd (domain : Fin 148)
  /-- R434. Rail-good not arriving within 1 ms puts the domain in FAULT. -/
  | domainFault (domain : Fin 148)
  /-- R453. A laser input at or above 12 dBm for 1 ms counts as present. -/
  | laserPresent (input : Fin 22)
  /-- R453. A laser input below 11 dBm for 10 us counts as absent and its lanes go dark. -/
  | laserAbsent (input : Fin 22)
  /-- R457. A rail outside its window for more than 20 us resets the device as a cold reset. -/
  | railOutOfWindow
  /-- R455. Every 10 us the device sends a VDD_CORE setpoint frame on the regulator link. -/
  | regulatorFrame
  /-- R456. A reply frame reports the measured voltage and may release a held clock raise. -/
  | regulatorReply (valid : Bool) (seq : Byte) (mv : BitVec 10)
  /-- R216. A host PCIe or CXL link error during service aborts waiting tasks with cause 0x06, raises ingest event 0x03 and fails a host-target set with reason 0x05. -/
  | hostOrCxlLinkError (link : HostLink)
  /-- R351. The host or CXL link comes up again, and firmware resubmits once the tasks aborted with cause 0x06. -/
  | hostOrCxlLinkUp (link : HostLink)
  /-- R431. The host sets Bus Master Enable again after a function-level reset, and the held device requests to host memory proceed. -/
  | busMasterEnable
  /-- R392. The host moves the function between D0 and D3hot, and in D3hot the device completes no command. -/
  | pciePowerStateChange (d3hot : Bool)
  /-- R280. The twin's job ends, so the device posts a twin-lost divergence event and pauses under halt policy or runs on untwinned. -/
  | twinJobEnd
  deriving DecidableEq, Repr

end Sys2Proof
end

