-- ==== Sys2Proof/Machine/Bits.lean ====
section
/-! DEFINITION. Bit fields, byte order, CRC-32C, SHA-256 and Philox4x32-10: the plain functions every chapter uses. -/

namespace Sys2Proof.Machine

/-- Bits [lo + len - 1 : lo] of a number (R8). -/
def bitsAt (n lo len : Nat) : Nat := (n >>> lo) % 2 ^ len

/-- Bit `i` of a number. -/
def bitAt (n i : Nat) : Bool := (n >>> i) % 2 == 1

/-- A flag as a number. -/
def ofBool (b : Bool) : Nat := if b then 1 else 0

/-- Two's complement reading of the low `len` bits. -/
def signedOf (len n : Nat) : Int :=
  let m := n % 2 ^ len
  if m < 2 ^ (len - 1) then (m : Int) else (m : Int) - (2 : Int) ^ len

/-- The `len`-bit two's complement pattern of an integer. -/
def patternOf (len : Nat) (i : Int) : Nat := (i % (2 : Int) ^ len).toNat

/-- Clamp to the range of a signed `len`-bit integer (R49). -/
def clampSigned (len : Nat) (i : Int) : Int :=
  let hi : Int := (2 : Int) ^ (len - 1) - 1
  let lo : Int := - (2 : Int) ^ (len - 1)
  if i > hi then hi else if i < lo then lo else i

/-- The little-endian bytes of a number (R9). -/
def bytesOf : Nat → Nat → List Byte
  | 0, _ => []
  | n + 1, v => BitVec.ofNat 8 v :: bytesOf n (v / 256)

/-- The number that little-endian bytes spell (R9). -/
def natOf : List Byte → Nat
  | [] => 0
  | b :: bs => b.toNat + 256 * natOf bs

/-- `len` bytes at offset `off` of a byte string; bytes past its end are left out. -/
def sub (bs : List Byte) (off len : Nat) : List Byte := (bs.drop off).take len

/-- The little-endian number in bytes `off` to `off + len - 1`. -/
def natAt (bs : List Byte) (off len : Nat) : Nat := natOf (sub bs off len)

/-- `n` zero bytes. -/
def zeros (n : Nat) : List Byte := List.replicate n 0

/-- A byte string padded with zeros to `n` bytes, or cut there. -/
def padTo (n : Nat) (bs : List Byte) : List Byte := (bs ++ zeros (n - bs.length)).take n

/-- All of a byte string is zero. -/
def allZero (bs : List Byte) : Bool := bs.all (· == 0)

/-- The byte string with `new` written over it at `off`. -/
def splice (bs : List Byte) (off : Nat) (new : List Byte) : List Byte :=
  bs.take off ++ new ++ bs.drop (off + new.length)

/-- Cut a list into pieces of `k` elements, at most `fuel` of them. -/
def pieces {α : Type} : Nat → Nat → List α → List (List α)
  | 0, _, _ => []
  | _ + 1, _, [] => []
  | fuel + 1, k, xs => xs.take k :: pieces fuel k (xs.drop k)

/-- Cut a list into pieces of `k ≥ 1` elements. -/
def chunks {α : Type} (k : Nat) (xs : List α) : List (List α) := pieces xs.length k xs

/-- Ceiling division. -/
def cdiv (a b : Nat) : Nat := (a + b - 1) / b

/-- The number of bits of a number: 0 for 0, else floor(log2 n) + 1. -/
def bitLen (n : Nat) : Nat := if n = 0 then 0 else Nat.log2 n + 1

/-! ### CRC-32C, Castagnoli (R203, R9) -/

/-- One bit of the reflected CRC-32C register. -/
def crcBit (r : Nat) : Nat := if r % 2 = 1 then (r >>> 1) ^^^ 0x82F63B78 else r >>> 1

/-- Eight bits of the register. -/
def crcByte (r : Nat) (b : Byte) : Nat :=
  crcBit (crcBit (crcBit (crcBit (crcBit (crcBit (crcBit (crcBit (r ^^^ b.toNat))))))))

/-- The check value of R203: CRC-32C of a byte string. -/
def crc32c (bs : List Byte) : Word := BitVec.ofNat 32 ((bs.foldl crcByte 0xFFFFFFFF) ^^^ 0xFFFFFFFF)

/-! ### SHA-256 -/

/-- The eight 32-bit words of a 256-bit number, highest first. -/
def words8 (n : Nat) : List Nat := (List.range 8).map fun i => n / 2 ^ (32 * (7 - i)) % 4294967296

/-- The round constants, eight to a number. -/
def shaK : List Nat :=
  words8 0x428a2f9871374491b5c0fbcfe9b5dba53956c25b59f111f1923f82a4ab1c5ed5
  ++ words8 0xd807aa9812835b01243185be550c7dc372be5d7480deb1fe9bdc06a7c19bf174
  ++ words8 0xe49b69c1efbe47860fc19dc6240ca1cc2de92c6f4a7484aa5cb0a9dc76f988da
  ++ words8 0x983e5152a831c66db00327c8bf597fc7c6e00bf3d5a7914706ca635114292967
  ++ words8 0x27b70a852e1b21384d2c6dfc53380d13650a7354766a0abb81c2c92e92722c85
  ++ words8 0xa2bfe8a1a81a664bc24b8b70c76c51a3d192e819d6990624f40e3585106aa070
  ++ words8 0x19a4c1161e376c082748774c34b0bcb5391c0cb34ed8aa4a5b9cca4f682e6ff3
  ++ words8 0x748f82ee78a5636f84c878148cc7020890befffaa4506cebbef9a3f7c67178f2

/-- The chaining words at the start of a message. -/
def shaInit : List Nat := words8 0x6a09e667bb67ae853c6ef372a54ff53a510e527f9b05688c1f83d9ab5be0cd19

/-- Addition modulo 2^32. -/
def add32 (a b : Nat) : Nat := (a + b) % 4294967296

/-- A 32-bit number rotated right: a window of the number written twice. -/
def rotr32 (a n : Nat) : Nat := a * 4294967297 / 2 ^ n % 4294967296

/-- The exclusive or of a word rotated right by each amount. -/
def rotXor (a : Nat) (by_ : List Nat) : Nat := by_.foldl (fun x n => x ^^^ rotr32 a n) 0

/-- The message schedule, newest word first, extended by `n` words from those 16, 15, 7 and 2 places back. -/
def shaExtend : Nat → List Nat → List Nat
  | 0, w => w
  | n + 1, w =>
    let back (k : Nat) : Nat := w.getD (k - 1) 0
    let small (k r1 r2 shift : Nat) : Nat := rotXor (back k) [r1, r2] ^^^ back k / 2 ^ shift
    shaExtend n (([back 16, small 15 7 18 3, back 7, small 2 17 19 10].foldl add32 0) :: w)

/-- One compression round: the eight working words move on by one place, the first and the fifth taking new values. -/
def shaRound (v : List Nat) (kw : Nat × Nat) : List Nat :=
  let r (i : Nat) : Nat := v.getD i 0
  let choice := r 6 ^^^ (r 4 &&& (r 5 ^^^ r 6))
  let majority := (r 0 &&& (r 1 ||| r 2)) ||| (r 1 &&& r 2)
  let t := [r 7, rotXor (r 4) [6, 11, 25], choice, kw.1, kw.2].foldl add32 0
  let top := add32 t (add32 (rotXor (r 0) [2, 13, 22]) majority)
  top :: v.take 3 ++ add32 (r 3) t :: (v.drop 4).take 3

/-- A 32-bit big-endian word of four bytes. -/
def beNat (bs : List Byte) : Nat := bs.foldl (fun a b => a * 256 + b.toNat) 0

/-- The compression function on one 64-byte block. -/
def shaBlock (h : List Nat) (blk : List Byte) : List Nat :=
  let w := (shaExtend 48 ((chunks 4 blk).map beNat).reverse).reverse
  List.zipWith add32 h ((List.zip shaK w).foldl shaRound h)

/-- Big-endian bytes of a number. -/
def beBytes (n v : Nat) : List Byte := (bytesOf n v).reverse

/-- The message with its SHA-256 padding. -/
def shaPad (m : List Byte) : List Byte :=
  m ++ (0x80 :: zeros ((119 - m.length % 64) % 64)) ++ beBytes 8 (m.length * 8)

/-- SHA-256 of a byte string, 32 bytes in the order SHA-256 defines (R9). -/
def sha256 (m : List Byte) : List Byte :=
  ((chunks 64 (shaPad m)).foldl shaBlock shaInit).flatMap (beBytes 4)

/-- SHA-256 in progress (R274): the eight chaining words, the partial block and the byte count. -/
structure Sha where
  h : List Nat
  tail : List Byte
  count : Nat
  deriving DecidableEq, Repr, Inhabited

def Sha.init : Sha := ⟨shaInit, [], 0⟩

/-- Append bytes. -/
def Sha.feed (x : Sha) (bs : List Byte) : Sha :=
  let all := x.tail ++ bs
  let whole := all.length / 64 * 64
  ⟨(chunks 64 (all.take whole)).foldl shaBlock x.h, all.drop whole, x.count + bs.length⟩

/-- The digest of what was fed. -/
def Sha.digest (x : Sha) : List Byte :=
  let pad := x.tail ++ (0x80 :: zeros ((119 - x.count % 64) % 64)) ++ beBytes 8 (x.count * 8)
  ((chunks 64 pad).foldl shaBlock x.h).flatMap (beBytes 4)

/-! ### Philox4x32-10 (R155) -/

/-- The four counter words and the two key words of one evaluation. -/
structure Philox where
  c0 : Nat
  c1 : Nat
  c2 : Nat
  c3 : Nat
  k0 : Nat
  k1 : Nat
  deriving DecidableEq, Repr

/-- One round of R155. -/
def Philox.round (p : Philox) : Philox :=
  let m0 := 0xD2511F53 * p.c0
  let m1 := 0xCD9E8D57 * p.c2
  { c0 := (m1 / 4294967296) ^^^ p.c1 ^^^ p.k0, c1 := m1 % 4294967296,
    c2 := (m0 / 4294967296) ^^^ p.c3 ^^^ p.k1, c3 := m0 % 4294967296,
    k0 := (p.k0 + 0x9E3779B9) % 4294967296, k1 := (p.k1 + 0xBB67AE85) % 4294967296 }

def Philox.rounds : Nat → Philox → Philox
  | 0, p => p
  | n + 1, p => Philox.rounds n p.round

/-- The four 32-bit outputs x0 to x3 of one evaluation (R155). -/
def philox (k0 k1 c0 c1 c2 c3 : Nat) : List Nat :=
  let p := Philox.rounds 10 ⟨c0, c1, c2, c3, k0, k1⟩
  [p.c0, p.c1, p.c2, p.c3]

/-- The generator as the program uses it: job seed, 64-bit element index, step word, stream ID (R155, R156). -/
def philoxAt (seed elem step stream : Nat) : List Nat :=
  philox (seed % 4294967296) (seed / 4294967296 % 4294967296)
    (elem % 4294967296) (elem / 4294967296 % 4294967296) (step % 4294967296) (stream % 4294967296)

/-- The 16-bit random value r of element `e` for stochastic rounding (R53). -/
def stochR (seed e step stream : Nat) : Nat :=
  let x := philoxAt seed (e / 8) step stream
  let j := e % 8
  (x.getD (j / 2) 0) / 2 ^ (16 * (j % 2)) % 65536

/-- The 32-bit output that RNGMASK compares for element `e` (R157). -/
def maskR (seed e step stream : Nat) : Nat := (philoxAt seed (e / 4) step stream).getD (e % 4) 0

end Sys2Proof.Machine
end

