-- ==== Sys2Proof/Machine/Num.lean ====
section
/-! DEFINITION. Number formats, exact values, rounding, conversions and the aligned sums (chapters 2 and 3).
Every finite value is held exactly as a sign, a natural significand and a power of two; rounding happens only where a
rule names it (R18). -/

namespace Sys2Proof.Machine

/-- The four sticky arithmetic flags (R68, Table 2.10). -/
structure ArithFlags where
  ftz : Bool
  ovf : Bool
  isat : Bool
  inv : Bool
  deriving DecidableEq, Repr, Inhabited

def ArithFlags.none : ArithFlags := ⟨false, false, false, false⟩

/-- Flags only ever accumulate (R68: no flag is ever cleared by arithmetic). -/
def ArithFlags.or (a b : ArithFlags) : ArithFlags := ⟨a.ftz || b.ftz, a.ovf || b.ovf, a.isat || b.isat, a.inv || b.inv⟩

/-- CORE_AFLAGS[3:0] (Table 2.10). -/
def ArithFlags.bits (f : ArithFlags) : Nat := ofBool f.ftz + 2 * ofBool f.ovf + 4 * ofBool f.isat + 8 * ofBool f.inv

def ArithFlags.ofBits (n : Nat) : ArithFlags := ⟨bitAt n 0, bitAt n 1, bitAt n 2, bitAt n 3⟩

def ArithFlags.onlyFtz (b : Bool) : ArithFlags := ⟨b, false, false, false⟩
def ArithFlags.onlyOvf : ArithFlags := ⟨false, true, false, false⟩
def ArithFlags.onlyIsat (b : Bool) : ArithFlags := ⟨false, false, b, false⟩
def ArithFlags.onlyInv : ArithFlags := ⟨false, false, false, true⟩

/-! ### Exact values -/

/-- A value of a floating-point or integer element: NaN, an infinity, or (-1)^neg * m * 2^e exactly; m = 0 is a zero with
a sign (R41, R44). -/
inductive Val where
  | nan
  | inf (neg : Bool)
  | fin (neg : Bool) (m : Nat) (e : Int)
  deriving DecidableEq, Repr, Inhabited

namespace Val

def zero (neg : Bool) : Val := .fin neg 0 0
def one : Val := .fin false 1 0

/-- The exact value of an integer. -/
def ofInt (i : Int) : Val := .fin (decide (i < 0)) i.natAbs 0

def isNan : Val → Bool
  | .nan => true
  | _ => false

def isInf : Val → Bool
  | .inf _ => true
  | _ => false

def isZero : Val → Bool
  | .fin _ m _ => m == 0
  | _ => false

def sign : Val → Bool
  | .nan => false
  | .inf n => n
  | .fin n _ _ => n

def neg : Val → Val
  | .nan => .nan
  | .inf n => .inf (!n)
  | .fin n m e => .fin (!n) m e

def abs : Val → Val
  | .nan => .nan
  | .inf _ => .inf false
  | .fin _ m e => .fin false m e

/-- The signed integer m * 2^(e - base) for base at or below e. -/
def scaledInt (n : Bool) (m : Nat) (e base : Int) : Int :=
  let k : Int := (m <<< (e - base).toNat : Nat)
  if n then -k else k

/-- Exact sum; a zero sum of operands of opposite sign is +0 (R44); infinities of opposite sign give NaN. -/
def add : Val → Val → Val
  | .nan, _ => .nan
  | _, .nan => .nan
  | .inf a, .inf b => if a == b then .inf a else .nan
  | .inf a, .fin _ _ _ => .inf a
  | .fin _ _ _, .inf b => .inf b
  | .fin na ma ea, .fin nb mb eb =>
    let base := min ea eb
    let t := scaledInt na ma ea base + scaledInt nb mb eb base
    if t = 0 then .fin (na && nb) 0 0 else .fin (decide (t < 0)) t.natAbs base

def subv (a b : Val) : Val := a.add b.neg

/-- Exact product (R77): NaN first, then infinity times zero, then infinities, then zeros. -/
def mul : Val → Val → Val
  | .nan, _ => .nan
  | _, .nan => .nan
  | .inf a, .inf b => .inf (a != b)
  | .inf a, .fin nb mb _ => if mb = 0 then .nan else .inf (a != nb)
  | .fin na ma _, .inf b => if ma = 0 then .nan else .inf (na != b)
  | .fin na ma ea, .fin nb mb eb => if ma * mb = 0 then .fin (na != nb) 0 0 else .fin (na != nb) (ma * mb) (ea + eb)

/-- IEEE less-than on non-NaN values; -0 equals +0. -/
def lt : Val → Val → Bool
  | .nan, _ => false
  | _, .nan => false
  | .inf a, .inf b => a && !b
  | .inf a, .fin _ _ _ => a
  | .fin _ _ _, .inf b => !b
  | .fin na ma ea, .fin nb mb eb =>
    let base := min ea eb
    decide (scaledInt na ma ea base < scaledInt nb mb eb base)

/-- IEEE equality on values; NaN equals nothing. -/
def eqv (a b : Val) : Bool := !a.isNan && !b.isNan && !a.lt b && !b.lt a

/-- The exponent of the binade of a nonzero finite value: floor(log2 |v|). -/
def topExp (m : Nat) (e : Int) : Int := e + (bitLen m : Int) - 1

end Val

/-! ### Formats (Table 2.1, Table 2.2) -/

/-- What the all-ones exponent of a format holds (R41, R42). -/
inductive Specials where
  | ieee   -- infinities and NaNs
  | e4m3   -- one NaN pattern, no infinity
  | none   -- every encoding finite
  deriving DecidableEq, Repr

/-- A floating-point element layout (Table 2.2). -/
structure FloatFmt where
  ebits : Nat
  fbits : Nat
  bias : Nat
  special : Specials
  deriving DecidableEq, Repr

def fp32 : FloatFmt := ⟨8, 23, 127, .ieee⟩
def bf16 : FloatFmt := ⟨8, 7, 127, .ieee⟩
def fp16 : FloatFmt := ⟨5, 10, 15, .ieee⟩
def e4m3 : FloatFmt := ⟨4, 3, 7, .e4m3⟩
def e5m2 : FloatFmt := ⟨5, 2, 15, .ieee⟩
def e2m3 : FloatFmt := ⟨2, 3, 1, .none⟩
def e3m2 : FloatFmt := ⟨3, 2, 3, .none⟩
def e2m1 : FloatFmt := ⟨2, 1, 1, .none⟩

namespace FloatFmt

def width (f : FloatFmt) : Nat := 1 + f.ebits + f.fbits

/-- The value of an encoding (R41, R42). -/
def decode (f : FloatFmt) (n : Nat) : Val :=
  let s := bitAt n (f.ebits + f.fbits)
  let ex := bitsAt n f.fbits f.ebits
  let fr := bitsAt n 0 f.fbits
  let top := 2 ^ f.ebits - 1
  if f.special = .ieee && ex == top then (if fr = 0 then .inf s else .nan)
  else if f.special = .e4m3 && ex == top && fr == 2 ^ f.fbits - 1 then .nan
  else if ex = 0 then .fin s fr (1 - (f.bias : Int) - f.fbits)
  else .fin s (2 ^ f.fbits + fr) ((ex : Int) - f.bias - f.fbits)

/-- The canonical NaN (Table 2.3); the formats without NaN never ask for it. -/
def nanBits (f : FloatFmt) : Nat :=
  match f.special with
  | .ieee => (2 ^ f.ebits - 1) * 2 ^ f.fbits + 2 ^ (f.fbits - 1)
  | .e4m3 => 2 ^ (f.ebits + f.fbits) - 1
  | .none => 0

def signBit (f : FloatFmt) (s : Bool) : Nat := if s then 2 ^ (f.ebits + f.fbits) else 0

def infBits (f : FloatFmt) (s : Bool) : Nat := f.signBit s + (2 ^ f.ebits - 1) * 2 ^ f.fbits

/-- The magnitude bits of the largest finite value (Table 2.2). -/
def maxBits (f : FloatFmt) : Nat :=
  match f.special with
  | .ieee => (2 ^ f.ebits - 1) * 2 ^ f.fbits - 1
  | .e4m3 => 2 ^ (f.ebits + f.fbits) - 2
  | .none => 2 ^ (f.ebits + f.fbits) - 1

/-- Exponent of the smallest normal value. -/
def emin (f : FloatFmt) : Int := 1 - (f.bias : Int)

end FloatFmt

/-- The format codes of Table 2.1. -/
inductive Fmt where
  | fp32 | bf16 | fp16 | e4m3 | e5m2 | mx8e4 | mx8e5 | mx6e2 | mx6e3 | mx4 | int8 | int4 | int32 | pair | opaq | reserved
  deriving DecidableEq, Repr, Inhabited

def Fmt.ofCode (n : Nat) : Fmt :=
  match n with
  | 0 => .fp32 | 1 => .bf16 | 2 => .fp16 | 3 => .e4m3 | 4 => .e5m2 | 5 => .mx8e4 | 6 => .mx8e5 | 7 => .mx6e2
  | 8 => .mx6e3 | 9 => .mx4 | 10 => .int8 | 11 => .int4 | 12 => .int32 | 13 => .pair | 14 => .opaq | _ => .reserved

def Fmt.code : Fmt → Nat
  | .fp32 => 0 | .bf16 => 1 | .fp16 => 2 | .e4m3 => 3 | .e5m2 => 4 | .mx8e4 => 5 | .mx8e5 => 6 | .mx6e2 => 7
  | .mx6e3 => 8 | .mx4 => 9 | .int8 => 10 | .int4 => 11 | .int32 => 12 | .pair => 13 | .opaq => 14 | .reserved => 15

/-- The floating-point layout of a format's element, when it has one. -/
def Fmt.float : Fmt → Option FloatFmt
  | .fp32 => some Sys2Proof.Machine.fp32
  | .bf16 => some Sys2Proof.Machine.bf16
  | .fp16 => some Sys2Proof.Machine.fp16
  | .e4m3 | .mx8e4 => some Sys2Proof.Machine.e4m3
  | .e5m2 | .mx8e5 => some Sys2Proof.Machine.e5m2
  | .mx6e2 => some Sys2Proof.Machine.e2m3
  | .mx6e3 => some Sys2Proof.Machine.e3m2
  | .mx4 => some Sys2Proof.Machine.e2m1
  | _ => none

def Fmt.isMx : Fmt → Bool
  | .mx8e4 | .mx8e5 | .mx6e2 | .mx6e3 | .mx4 => true
  | _ => false

/-- Element width in bits (Table 2.1). -/
def Fmt.bits : Fmt → Nat
  | .fp32 | .int32 => 32
  | .bf16 | .fp16 => 16
  | .mx6e2 | .mx6e3 => 6
  | .mx4 | .int4 => 4
  | .pair => 64
  | _ => 8

/-- Bytes that `n` elements take when packed as R47 states. -/
def Fmt.packedLen (f : Fmt) (n : Nat) : Nat := cdiv (n * f.bits) 8

/-- Element `k` of a packed run (R47): a packed run is one little-endian bit string. -/
def Fmt.elem (f : Fmt) (packed : Nat) (k : Nat) : Nat := bitsAt packed (f.bits * k) f.bits

/-- The elements of packed bytes (R47); byte-sized elements are read one by one. -/
def Fmt.unpack (f : Fmt) (n : Nat) (bs : List Byte) : List Nat :=
  if f.bits % 8 = 0 then ((chunks (f.bits / 8) bs).map natOf).take n
  else
    let p := natOf bs
    (List.range n).map (f.elem p)

/-- Elements packed into bytes (R47). -/
def Fmt.pack (f : Fmt) (es : List Nat) : List Byte :=
  bytesOf (f.packedLen es.length) (es.foldr (fun e acc => e % 2 ^ f.bits + acc * 2 ^ f.bits) 0)

/-- The value of an element with no scale: floats by R41, INT8 and INT32 signed, INT4 as `signed4` says (R49). -/
def Fmt.value (f : Fmt) (signed : Bool) (n : Nat) : Val :=
  match f with
  | .int8 => if signed then .ofInt (signedOf 8 n) else .ofInt (bitsAt n 0 8 : Nat)
  | .int4 => if signed then .ofInt (signedOf 4 n) else .ofInt (bitsAt n 0 4 : Nat)
  | .int32 => .ofInt (signedOf 32 n)
  | f => match f.float with
    | some ff => ff.decode n
    | none => .nan

/-- An E8M0 scale (R45): 2^(S - 127), or NaN for 0xFF. -/
def scaleVal (s : Nat) : Val := if s = 255 then .nan else .fin false 1 ((s : Int) - 127)

/-- The value of an MX element under its block's scale (R45, R46). -/
def Fmt.mxValue (f : Fmt) (scale n : Nat) : Val := (scaleVal scale).mul (f.value true n)

/-! ### Rounding (R50 to R56, R60, R61) -/

/-- Rounding mode: to nearest ties to even, or stochastic with the 16-bit value r (Table 2.6). -/
inductive Rmode where
  | rne
  | stoch (r : Nat)
  deriving DecidableEq, Repr

/-- The magnitude m * 2^e in units of 2^q, rounded (R50, R52). -/
def roundUnits (mode : Rmode) (m : Nat) (e q : Int) : Nat :=
  if q ≤ e then m <<< (e - q).toNat
  else
    let k := (q - e).toNat
    match mode with
    | .rne =>
      let n := m >>> k
      let rest := m % 2 ^ k
      let half := 2 ^ (k - 1)
      if rest > half || (rest == half && n % 2 == 1) then n + 1 else n
    | .stoch r => (m * 65536 + r * 2 ^ k) / 2 ^ (k + 16)

/-- Result bits with the flags the rounding raised. -/
abbrev Rounded := Nat × ArithFlags

/-- A finite nonzero value rounded to a float format (R50, R52, R54, R60, R61): `sat` is the instruction's sat field and
`ftz` the output flush of the subnormal regime in force. -/
def FloatFmt.roundFin (f : FloatFmt) (mode : Rmode) (sat ftz : Bool) (neg : Bool) (m : Nat) (e : Int) : Rounded :=
  let q := max (Val.topExp m e) f.emin - f.fbits
  let n := roundUnits mode m e q
  if n = 0 then (f.signBit neg, .none)
  else
    let carry := decide (n ≥ 2 ^ (f.fbits + 1))
    let n' := if carry then n / 2 else n
    let q' := if carry then q + 1 else q
    if n' < 2 ^ f.fbits then
      if ftz then (f.signBit neg, .onlyFtz true) else (f.signBit neg + n', .none)
    else
      let ex := (q' + f.fbits + f.bias).toNat
      let mag := ex * 2 ^ f.fbits + (n' - 2 ^ f.fbits)
      if mag > f.maxBits then
        (if sat then f.signBit neg + f.maxBits
         else match f.special with
           | .ieee => f.infBits neg
           | .e4m3 => f.nanBits
           | .none => f.signBit neg + f.maxBits, .onlyOvf)
      else (f.signBit neg + mag, .none)

/-- A value converted to a float format (R54, R55, Table 2.7). -/
def FloatFmt.round (f : FloatFmt) (mode : Rmode) (sat ftz : Bool) : Val → Rounded
  | .nan => (f.nanBits, .none)
  | .inf s =>
    match f.special with
    | .ieee => (f.infBits s, .none)
    | .e4m3 => (if sat then f.signBit s + f.maxBits else f.nanBits, .onlyOvf)
    | .none => (f.signBit s + f.maxBits, .onlyOvf)
  | .fin s m e => if m = 0 then (f.signBit s, .none) else f.roundFin mode sat ftz s m e

/-- RNE in a format with no sat field (R87, R135): overflow becomes the infinity. -/
def FloatFmt.rne (f : FloatFmt) (ftz : Bool) (v : Val) : Rounded := f.round .rne false ftz v

/-- Limits of an integer target (R49, R139). -/
def intLimits (f : Fmt) (signed : Bool) : Int × Int :=
  match f with
  | .int8 => if signed then (-128, 127) else (0, 255)
  | .int4 => if signed then (-8, 7) else (0, 15)
  | _ => (-2147483648, 2147483647)

/-- A value converted to an integer target: rounding unit 1, saturation, NaN to 0 (R49, R55). -/
def roundInt (f : Fmt) (signed : Bool) (mode : Rmode) : Val → Rounded
  | .nan => (0, .onlyInv)
  | .inf s =>
    let l := intLimits f signed
    (patternOf f.bits (if s then l.1 else l.2), .onlyOvf)
  | .fin s m e =>
    let l := intLimits f signed
    let n : Int := roundUnits mode m e 0
    let i := if s then -n else n
    if i > l.2 then (patternOf f.bits l.2, .onlyOvf)
    else if i < l.1 then (patternOf f.bits l.1, .onlyOvf)
    else (patternOf f.bits i, .none)

/-- A value converted to a target format outside the MX family. -/
def convert (f : Fmt) (signed : Bool) (mode : Rmode) (sat ftz : Bool) (v : Val) : Rounded :=
  match f.float with
  | some ff => ff.round mode sat ftz v
  | none => roundInt f signed mode v

/-- Is a finite value nonzero and below 2^emin in magnitude? -/
def belowNormal (emin : Int) : Val → Bool
  | .fin _ m e => m != 0 && decide (Val.topExp m e < emin)
  | _ => false

/-- The input flush of R60 and R61 for a value judged subnormal at exponent `emin`. -/
def iflushAt (emin : Int) (ftz : Bool) (v : Val) : Val × ArithFlags :=
  if ftz && belowNormal emin v then (.zero v.sign, .onlyFtz true) else (v, .none)

/-- Input flush of an element of format `f`: MX elements and integers are never flushed (R62). -/
def Fmt.iflush (f : Fmt) (ftz : Bool) (v : Val) : Val × ArithFlags :=
  if f.isMx then (v, .none)
  else match f.float with
    | some ff => iflushAt ff.emin ftz v
    | none => (v, .none)

/-! ### Conversion to MX formats (R57, R58) -/

/-- emax_elem of R57. -/
def Fmt.emaxElem : Fmt → Int
  | .mx8e4 => 8 | .mx8e5 => 15 | .mx6e2 => 2 | .mx6e3 => 4 | _ => 2

/-- The largest magnitude of a list of finite values, as its value. -/
def maxAbs (vs : List Val) : Val :=
  vs.foldl (fun a v => if a.lt v.abs then v.abs else a) (.zero false)

/-- The block scale S of R57 for the participating values. -/
def mxScale (f : Fmt) (vs : List Val) : Nat :=
  if vs.any (fun v => v.isNan || v.isInf) then 255
  else match maxAbs vs with
    | .fin _ m e =>
      if m = 0 then 0
      else (min (max (Val.topExp m e - f.emaxElem + 127) 0) 254).toNat
    | _ => 255

/-- round_elem of R57: always saturating, no flag (R58), never flushed (R62). -/
def mxElem (f : Fmt) (mode : Rmode) (scale : Nat) (v : Val) : Nat :=
  if scale = 255 then 0
  else match f.float with
    | some ff => (ff.round mode true false (v.mul (.fin false 1 (127 - (scale : Int))))).1
    | none => 0

/-! ### Aligned sums (R76 to R92, R96) -/

/-- The result of one DPU group (Table 3.3). -/
inductive Group where
  | zero
  | val (v : Val)
  deriving DecidableEq, Repr

/-- The window term of R79: the product's value in units of 2^(emax - 24), truncated toward zero, with its sign. -/
def windowTerm (emax : Int) : Val → Int
  | .fin s m e =>
    let sh := e - emax + 24
    let w : Nat := if sh ≥ 0 then m <<< sh.toNat else m >>> (-sh).toNat
    if s then -(w : Int) else w
  | _ => 0

/-- A product with the exponent e_i of R77, the sum of its operands' exponents. -/
structure Prod where
  v : Val
  e : Int
  deriving DecidableEq, Repr

/-- prod of R96 with its exponent (R76, R77). -/
def prodOf (a b : Val) : Prod :=
  match a, b with
  | .fin _ ma ea, .fin _ mb eb => ⟨a.mul b, Val.topExp ma ea + Val.topExp mb eb⟩
  | _, _ => ⟨a.mul b, 0⟩

/-- group_sum of R96 for floating-point and MX passes. -/
def groupSum (ps : List Prod) : Group :=
  if ps.any (·.v.isNan) then .val .nan
  else
    let infs := ps.filter (·.v.isInf)
    if infs.any (fun p => p.v.sign) && infs.any (fun p => !p.v.sign) then .val .nan
    else match infs with
      | p :: _ => .val p.v
      | [] =>
        match ps.filter (fun p => !p.v.isZero) with
        | [] => .zero
        | p :: rest =>
          let emax := rest.foldl (fun a q => max a q.e) p.e
          let t := (p :: rest).foldl (fun a q => a + windowTerm emax q.v) 0
          .val (if t = 0 then .zero false else .fin (decide (t < 0)) t.natAbs (emax - 24))

/-- The exact integer group of an INT8 pass (R82). -/
def groupInt (ps : List (Int × Int)) : Int := ps.foldl (fun a p => a + p.1 * p.2) 0

/-- column_fp32 of R96: the accumulator bits and the flags. -/
def columnFp32 (acc ftz : Bool) (old : Nat) (gs : List Group) : Rounded :=
  let start : Rounded :=
    if acc then
      let (v, fl) := iflushAt fp32.emin ftz (fp32.decode old)
      if fl.ftz then (fp32.signBit v.sign, fl) else (old, fl)
    else (0, .none)
  gs.foldl (fun st g =>
    match g with
    | .zero => st
    | .val v =>
      let (b, fl) := fp32.rne ftz ((fp32.decode st.1).add v)
      (b, st.2.or fl)) start

/-- One row of the FP32-pair cascade (R90, R91). -/
def pairStep (ftz : Bool) (hi lo : Nat) (g : Val) : (Nat × Nat) × ArithFlags :=
  let s := ((fp32.decode hi).add (fp32.decode lo)).add g
  let (h, f1) := fp32.rne ftz s
  match fp32.decode h with
  | .fin n m e =>
    let (l, f2) := fp32.rne ftz (s.subv (.fin n m e))
    ((h, l), f1.or f2)
  | _ => ((h, 0), f1)

/-- column_pair of R96. -/
def columnPair (acc ftz : Bool) (oldHi oldLo : Nat) (gs : List Group) : (Nat × Nat) × ArithFlags :=
  let flush (b : Nat) : Rounded :=
    if acc then
      let (v, fl) := iflushAt fp32.emin ftz (fp32.decode b)
      if fl.ftz then (fp32.signBit v.sign, fl) else (b, fl)
    else (0, .none)
  let (h, f1) := flush oldHi
  let (l, f2) := flush oldLo
  gs.foldl (fun st g =>
    match g with
    | .zero => st
    | .val v =>
      let r := pairStep ftz st.1.1 st.1.2 v
      (r.1, st.2.or r.2)) ((h, l), f1.or f2)

/-- column_int32 of R96: saturating row by row (R92). -/
def columnInt (acc : Bool) (old : Nat) (gs : List Int) : Rounded :=
  let r := gs.foldl (fun (st : Int × Bool) g =>
    let t := st.1 + g
    let c := clampSigned 32 t
    (c, st.2 || c != t)) (if acc then signedOf 32 old else 0, false)
  (patternOf 32 r.1, .onlyIsat r.2)

end Sys2Proof.Machine
end

