-- ==== Sys2Proof/Machine/State.lean ====
section
/-! DEFINITION. The state of one SLD3 device: every register, memory, queue, engine and pin the manual names, as plain
data, grouped by the block that owns it; the closed types of fault and refusal reasons; and the state right after a cold
reset. Counters are natural numbers and read modulo 2^48 (R127, R162, R223). -/

namespace Sys2Proof.Machine

/-! ### Memories -/

/-- What an unlisted cell of a memory reads as: zero, or an undefined value (R4) made so as event number `epoch`. -/
inductive Fill where
  | zero
  | undef (epoch : Nat)
  /-- Undefined since event `epoch` in every 4 KiB granule whose number is `k` modulo `n`, else as `rest` (R289, R434). -/
  | stripe (n k epoch : Nat) (rest : Fill)
  deriving DecidableEq, Repr, Inhabited

/-- A memory of `w`-bit cells. An unlisted cell reads as the newest of `ranges` that holds it says, else as `base` says.
`cells` rises strictly in address and lists no zero where an unlisted cell reads as zero (`Mem.wf`). -/
structure Mem (w : Nat) where
  base : Fill
  /-- (first address, length, fill), newest first. -/
  ranges : List (Nat × Nat × Fill)
  cells : List (Nat × BitVec w)
  deriving DecidableEq, Repr, Inhabited

/-! ### Core: sequencer (R163 to R176, R197 to R201) -/

/-- What a strand waits for (R165, R169, R173, R197). -/
inductive Wait where
  | none
  | token (ctr : BitVec 8) (n : Nat) (consume : Bool)
  | claim (engines : BitVec 4)
  | migrate (point : BitVec 16)
  /-- For room in the stream tracker (R165, R213), with the opcode of the waiting SCMD or CSUM.U. -/
  | tracker (opcode : Nat)
  /-- A STEP held by step_hold or by a checkpoint boundary (R359, R368). -/
  | step
  deriving DecidableEq, Repr, Inhabited

/-- One strand (R163, R164). -/
structure Strand where
  live : Bool
  pc : BitVec 16
  /-- X1 to X7; X0 reads as 0. -/
  x : Vector Word 7
  /-- LC0 to LC3: idle, or active with a remaining count. -/
  lc : Vector (Option (BitVec 24)) 4
  /-- Engines held: bit 0 MA, 1 VE, 2 RU, 3 SQ. -/
  claims : BitVec 4
  wait : Wait
  /-- The counted cycle in which the wait began. -/
  since : Nat
  /-- Cycle of the previous issue or completion (R165). -/
  last : Option Nat
  /-- The previous instruction was a taken BR or LOOP (m = 3). -/
  taken : Bool
  /-- SCMD and CSUM.U issued with step tag `taskStep` (Table 9.3, task number). -/
  taskNo : Nat
  taskStep : Word
  /-- The counted cycle in which it last raised a fault; it does not issue again in that cycle. -/
  faulted : Option Nat
  deriving DecidableEq, Repr, Inhabited

/-- One entry of the tile region map (R182). -/
structure TileRegion where
  id : Nat
  base : Nat
  len : Nat
  rd : Bool
  wr : Bool
  ex : Bool
  deriving DecidableEq, Repr, Inhabited

/-- The format tag of an accumulator slot (R93, R120). -/
inductive AccTag where
  | unset
  | fp32
  | pair
  | int32
  deriving DecidableEq, Repr, Inhabited

/-- A checker bound set (Table 12.2). -/
structure Bounds where
  amax : Word
  nanMax : Nat
  infMax : Nat
  l2max : Word
  watch : Word
  boundId : Word
  enable : Bool
  deriving DecidableEq, Repr, Inhabited

/-- A bound set with the contents a CHKSET replaced, in force until cycle `since` (Table 6.6). -/
structure CheckSet where
  cur : Bounds
  prev : Bounds
  since : Nat
  deriving DecidableEq, Repr, Inhabited

/-- What one DPU holds of a stationary set: stored weights, MX scales and sparse metadata (R97, R99). -/
structure Dpu where
  ws : List Nat
  scales : List Nat
  sel : Nat
  deriving DecidableEq, Repr, Inhabited

/-- A stationary set (R464). -/
structure StatSet where
  loaded : Bool
  fmt : Fmt
  /-- 0 dense, 1 2:4, 2 1:4. -/
  sparse : Nat
  /-- 32 rows of 32 DPUs. -/
  rows : List (List Dpu)
  /-- The per-row NaN-and-infinity record (R89). -/
  nanInf : List Bool
  deriving DecidableEq, Repr, Inhabited

/-- The operands of an MLOAD with its addresses formed (Table 6.4). -/
structure LoadOp where
  fmt : Fmt
  sparse : Nat
  nrows : Nat
  ncols : Nat
  transpose : Bool
  xmode : Nat
  xcode : Bool
  xsigned : Bool
  xgrp : Nat
  ssel : Bool
  buf : Nat
  src : Nat
  mtab : Nat
  side : Nat
  deriving DecidableEq, Repr, Inhabited

/-- A stream-engine buffer: a ring in tile memory (R210). `wr` and `rd` count bytes written and read. -/
structure StreamBuf where
  base : Nat
  size : Nat
  wr : Nat
  rd : Nat
  deriving DecidableEq, Repr, Inhabited

/-- Everything that belongs to a virtual core and moves with it (R199). -/
structure VCore where
  num : Nat
  strands : Vector Strand 128
  tokens : Vector (BitVec 16) 256
  stepTag : Word
  flags : ArithFlags
  /-- VT0 to VT31: slot q of VTn at 1,024n + q (R128). -/
  vt : Mem 32
  /-- VM0 to VM7: bit e of VMn at 8,192n + e (R128). -/
  vm : Mem 1
  /-- The accumulator image in 4-byte words (R121). -/
  acc : Mem 32
  slotTags : Vector AccTag 512
  /-- 8-byte accumulator words with an uncorrectable and with a correctable error (R122). -/
  accBad : List Nat
  accSoft : List Nat
  /-- Tile memory, 20 MiB by byte address (R286). -/
  tile : Mem 8
  /-- 8-byte tile-memory words with an uncorrectable and with a correctable error (R286). -/
  tileBad : List Nat
  tileSoft : List Nat
  /-- Tile-register slots with an uncorrectable error (Table 6.7, code 0x0B). -/
  vtBad : List Nat
  regions : List TileRegion
  /-- Set 0 drain taps, set 1 vector taps (R340). -/
  bounds : Vector CheckSet 2
  active : StatSet
  shadow : StatSet
  armed : Option LoadOp
  buffers : Vector StreamBuf 16
  /-- Tile address and instruction count of the code section (R418). -/
  codeBase : Nat
  codeLen : Nat
  vIssued : Bool
  /-- While it rests in a save area: its shadow set was complete and not swapped (R199, R464). -/
  shadowOk : Bool
  /-- Witness units assigned: (unit, strand) (R188). -/
  witness : List (Nat × Nat)
  deriving DecidableEq, Repr, Inhabited

/-- An array, vector or reduction instruction with what it read at issue (R102, R126, R159, R185). -/
structure QInstr where
  strand : Fin 128
  pc : BitVec 16
  word : IWord
  x : Vector Word 7
  stepTag : Word
  /-- Bytes of its parameter record, or MPASS.P's count word. -/
  record : List Byte
  /-- MSWAPs issued before it whose flip is still to come (R105). -/
  swaps : Nat
  /-- The wavefront MLOAD that the pass took when it issued (R106). -/
  armed : Option LoadOp
  /-- The format tags of a drain's slots from abase on, as its issue finds them (R126). -/
  tags : List AccTag
  deriving DecidableEq, Repr, Inhabited

/-- What a running instruction does in one counted cycle (Tables 4.4, 4.6, 5.5, R125). -/
inductive Piece where
  /-- Row `r` of a wavefront load, or of a broadcast load, is read. -/
  | weights (r : Nat)
  | loadRow (r : Nat)
  /-- Token `t` of a pass at stream position `pos`: its streaming vector is read, its accumulator elements are read, and its last
  multiply in row 31 is done. -/
  | token (t pos : Nat)
  | accum (t pos : Nat)
  | result (t pos : Nat)
  /-- The absent block of `n` tokens from token `t` at stream position `pos` (R116). -/
  | clear (t n pos : Nat)
  /-- Row `k` of a drain is read. -/
  | drainRow (k : Nat)
  /-- Block `k` of a vector or reduction instruction is read. -/
  | block (k : Nat)
  /-- Unit `k` of a WTAP feed is read. -/
  | feed (k : Nat)
  deriving DecidableEq, Repr, Inhabited

/-- One engine's running slot and queue (R102, R159). -/
structure Lane where
  /-- A queued successor takes effect no earlier than this cycle: the running instruction's occupancy ends. -/
  freeAt : Nat
  /-- The running instructions have passed their last cycle of Table 6.6 from this cycle on. -/
  doneAt : Nat
  queued : Option QInstr
  /-- A pass that no running pass precedes and that a flip holds: it has the array, and the queue is free (R102, R105). -/
  held : Option QInstr
  deriving DecidableEq, Repr, Inhabited

/-- An MSWAP whose flip is still to come (R105). -/
structure Swap where
  issued : Nat
  deriving DecidableEq, Repr, Inhabited

/-- What the range checker knows of a unit whose verdict is due (R341 to R343). -/
structure Verdict where
  cycle : Nat
  /-- 0 drain tap, 1 vector tap. -/
  set : Nat
  /-- Trip reasons: bit 0 amax, 1 NaN, 2 Inf, 3 L2; 0 passes. -/
  reasons : Nat
  boundId : Word
  nans : Nat
  infs : Nat
  m : Word
  s : Word
  step : Word
  /-- Code index of the instruction. -/
  pc : Nat
  /-- chk = 0b10: the unit is recheckable. -/
  recheckable : Bool
  /-- Destination address and length of a drain's output. -/
  dst : Nat
  len : Nat
  /-- CRC-32C of what a unit that is not recheckable wrote: its one run's check value (R349, Table 12.9). -/
  crc : Nat
  deriving DecidableEq, Repr, Inhabited

/-- A part of core storage that an access touches (R195, R196). -/
inductive Space where
  | tile
  | treg
  | mask
  | acc
  | stepTag
  deriving DecidableEq, Repr, Inhabited

/-- One access of an instruction. A write stands here until its value is visible, with the earlier contents a reader before
that cycle receives (R103, R126, R161); both audits read it too (R195, R196). -/
structure Access where
  space : Space
  lo : Nat
  len : Nat
  write : Bool
  /-- Cycle of the access, and for a write the cycle in which the value is visible. -/
  cycle : Nat
  visible : Nat
  strand : Nat
  pc : Nat
  /-- A write of the reduction unit (R161). -/
  ru : Bool
  /-- A write's earlier cell values, one per cell from `lo` on. -/
  old : List Nat
  deriving DecidableEq, Repr, Inhabited

/-- An instruction in effect since cycle `t0` with what it still has to do. -/
structure Run where
  q : QInstr
  t0 : Nat
  /-- Sequences of pieces, each in rising order of the cycle that stands beside the piece. -/
  todo : List (List (Nat × Piece))
  /-- The event that left its destination undefined, and whether a fault of its own did. -/
  undef : Option Nat
  /-- The same of the stationary set that a pass carries in (R106). -/
  setUndef : Option Nat
  failed : Bool
  /-- What it has written so far. -/
  wrote : List Access
  /-- Tokens of a pass read so far: record bytes, and accumulator words. A scatter's (address, earlier bytes) so far. -/
  bytes : List (Nat × List Byte)
  words : List (Nat × List Nat)
  /-- A drain's per-column c and b, read at its start (R94). -/
  scales : List Nat
  biases : List Nat
  /-- The checker bounds in force at `t0` (Table 6.6), and the elements for the tap so far (R341): (register, bits, visible), or a
  drain's (scale, bits, 0). -/
  bounds : Bounds
  tap : List (Nat × Nat × Nat)
  /-- A scan's last inclusive output and exact sum (R145, R146). -/
  carry : Nat
  total : Int
  /-- Elements read so far that an instruction needs again: (element, bits). -/
  seen : List (Nat × Nat)
  deriving DecidableEq, Repr, Inhabited

/-- What a column's write port writes at a time (R109): a 4-byte element, an FP32-pair element, a block clear. -/
inductive PortItem where
  | word
  | pair
  | clear
  deriving DecidableEq, Repr, Inhabited

/-- The write port of a column's accumulator bank (R109). -/
structure ColPort where
  /-- The skid buffer, oldest entry first. -/
  skid : List PortItem
  /-- Correction write-backs requested, and a forced scrub write due. -/
  wants : Nat
  scrub : Bool
  /-- The last clock period in which the port had capacity to spare. -/
  idleAt : Nat
  deriving DecidableEq, Repr, Inhabited

/-- A change of a token counter that the present counted cycle's end brings (R173): a TSIG, with its strand and code index, or an external
increment. -/
structure TokenChange where
  ctr : Nat
  delta : Int
  signal : Option (Fin 128 × BitVec 16)
  deriving DecidableEq, Repr, Inhabited

/-- A token operation that the race audit keeps (R196): a TSIG's delta or a TWAIT's n, and its cycle. -/
structure TokenOp where
  strand : Nat
  ctr : Nat
  amount : Int
  wait : Bool
  cycle : Nat
  deriving DecidableEq, Repr, Inhabited

/-- One conflicting access pair of the race audit, with both strands' token operations between the accesses (R196). -/
structure RacePair where
  first : Access
  second : Access
  ops : List TokenOp
  deriving DecidableEq, Repr, Inhabited

/-! ### Core: stream engine (R202 to R228) -/

/-- A tensor block in transit with the fields of its header (Table 7.1). -/
structure Block where
  id : Nat
  step : Word
  region : Nat
  fmt : Fmt
  transposed : Bool
  concealed : Bool
  seq : Nat
  /-- Extent of dimension 0 of the source descriptor; it travels inside the chain only (R209). -/
  ext0 : Nat
  data : List Byte
  chk : Word
  deriving DecidableEq, Repr, Inhabited

/-- Stage kinds (Table 7.4). -/
inductive StageKind where
  | load
  | expand
  | epilogue
  | feed
  | store
  | send
  | dispatch
  | coll
  deriving DecidableEq, Repr, Inhabited

/-- A twin record (Table 9.5): key, block ID and check value. -/
structure TwinRec where
  step : Word
  source : Nat
  strand : Nat
  task : Nat
  stage : Nat
  desc : Nat
  blockId : Nat
  chk : Word
  deriving DecidableEq, Repr, Inhabited

/-- Bytes that a task writes to a region, and the descriptor index and block ID that a fault of the write names (R216, R217). -/
structure Put where
  desc : Nat
  blockId : Nat
  region : Nat
  off : Int
  bytes : List Byte
  deriving DecidableEq, Repr, Inhabited

/-- An access of EXPAND, DISPATCH or an exchange: a read of `len` bytes at the put's place (`write` false), or the write of the put. -/
structure Xfer where
  put : Put
  len : Nat
  write : Bool
  /-- Descriptors that a read brings to the descriptor cache (R214). -/
  places : Nat
  /-- The twin record of the block that a write ends (R277). -/
  twin : Option TwinRec
  deriving DecidableEq, Repr, Inhabited

/-- A memory request outstanding for a stage (R212, R213): descriptors `desc` to `last`, payload bytes `off` to `off + len - 1`
of the first (whole blocks when merged), its first byte's address, and the delay cause it carries (R224; 0 none). -/
structure Req where
  /-- Its place in the order of the task's requests, and the page-table entry that translated it (R304). -/
  no : Nat
  entry : Nat
  desc : Nat
  last : Nat
  off : Nat
  len : Nat
  addr : Nat
  tile : Bool
  write : Bool
  cause : Nat
  /-- Waiting in the translation unit (R303), on the guard (R221) or for the arming of a snapshot (R370), for the address. -/
  held : Bool
  waitAt : Nat
  /-- An access that no list of blocks makes: a side tensor's, a record's, a table's, a destination's. -/
  xfer : Option Xfer
  deriving DecidableEq, Repr, Inhabited

/-- One stage of a running task (Table 7.3). -/
structure Stage where
  kind : StageKind
  /-- The 32 bytes of its entry. -/
  raw : List Byte
  /-- Descriptors fetched so far, in list order (R214), and how many were dropped from the front after use. -/
  descs : List (List Byte)
  dropped : Nat
  /-- Next descriptor to request, and payload bytes of it already requested. -/
  next : Nat
  off : Nat
  /-- A LOAD's descriptors that its requests merged, for the STORE it feeds (R212). -/
  joined : List Nat
  reqs : List Req
  /-- Accesses of EXPAND, DISPATCH or an exchange that are still to be requested, and the bytes of those read so far. -/
  xfers : List Xfer
  record : List Byte
  /-- How far a stage with accesses of its own is. EXPAND: 1 its part of the side tensor is asked for. DISPATCH: 1 its record is read, 2 its
  operands and 3 its writes are asked for, 4 they are done. COLL: 1 and 2 the reads of an exchange are asked for, 3 it is ready, 4 its
  collective has completed, 5 its outputs are handed on. -/
  phase : Nat
  /-- Payload bytes that completed requests delivered for the current block. -/
  got : List Byte
  /-- Blocks handed over by the predecessor and not yet taken. -/
  inq : List Block
  /-- Blocks taken, and blocks finished and handed on. -/
  taken : Nat
  fin : Nat
  /-- Output elements so far (EPILOGUE's position, R209). -/
  elems : Nat
  /-- Format and length of the first block a COLL stage took (R329). -/
  first : Option (Fmt × Nat)
  /-- The predecessor has ended. -/
  ended : Bool
  deriving DecidableEq, Repr, Inhabited

/-- What an aborted task's completion record says (Table 7.6, R216). -/
structure AbortInfo where
  cause : Nat
  stage : Nat
  desc : Nat
  blockId : Nat
  expected : Word
  computed : Word
  addr : Nat
  deriving DecidableEq, Repr, Inhabited

/-- An accepted stream task (R208, R213, R215). -/
structure Task where
  id : Nat
  /-- The virtual core it was issued for. -/
  vcore : Nat
  strand : Nat
  step : Word
  cmd : Nat
  crec : Nat
  tok : Nat
  tinc : Nat
  /-- Code index of the issuing instruction, and its opcode. -/
  pc : Nat
  opcode : Nat
  taskNo : Nat
  resubmitted : Bool
  /-- CSUM.U: additions in order of arrival (R189). -/
  arrival : Bool
  stages : List Stage
  /-- Requests made so far. -/
  reqNo : Nat
  delivered : Nat
  merged : Nat
  spilled : Nat
  abort : Option AbortInfo
  /-- Check values and first block of what it stored into result regions (R269). -/
  provChks : List Word
  provBlock : Option Nat
  /-- The tile-memory bytes that it has accessed, and those that instructions have accessed since it was accepted (R211): (first, length,
  write). -/
  touched : List (Nat × Nat × Bool)
  met : List (Nat × Nat × Bool)
  deriving DecidableEq, Repr, Inhabited

/-! ### Core: checking (R338 to R361) -/

/-- Why a core's strands issue nothing besides a fault: each kind of hold (R198, R359, R368, R405). -/
inductive Hold where
  | none
  /-- At a MIGRATE point with mig_hold set (R198). -/
  | migrate
  /-- At a forced field test's STEP (R359). -/
  | stepTest
  /-- At a checkpoint boundary (R368). -/
  | boundary
  deriving DecidableEq, Repr, Inhabited

/-- A field test running on a core (R357 to R359). -/
structure FieldTest where
  package : DWord
  version : Word
  /-- The package's bytes. -/
  bytes : List Byte
  /-- A forced test: the core on which the virtual core it displaced is held, this one while it rests in a save area. -/
  home : Option Nat
  /-- No field test: the third run of a recheck routine, on this spare (R346). -/
  third : Bool
  deriving DecidableEq, Repr, Inhabited

/-- A fault behind the recorded one (R192): code, strand, opcode, code index and CORE_FAULT_INFO. -/
structure FaultRec where
  code : Nat
  strand : Nat
  opcode : Nat
  pc : Nat
  info : Nat
  deriving DecidableEq, Repr, Inhabited

/-- How a physical core stands (R33, R347). -/
inductive CoreKind where
  | disabled
  | active
  | spare
  /-- Quarantined or retired. -/
  | out
  deriving DecidableEq, Repr, Inhabited

/-- One physical core. -/
structure Core where
  kind : CoreKind
  /-- The resident virtual core, and its paired partner in its GDDR7 save area (R306). -/
  v : Option VCore
  partner : Option VCore
  /-- Counted cycles and arithmetic clock periods since job start (R12, R223). -/
  cycle : Nat
  clk : Nat
  /-- STRM_STALL_nn by code (R222). -/
  stalls : Vector Nat 15
  pass : Lane
  drain : Lane
  load : Lane
  ve : Lane
  ru : Lane
  swaps : List Swap
  /-- The instructions in effect that are not done, oldest first. -/
  runs : List Run
  /-- Earlier active sets with the start of the pass that brought in the next (R106), oldest first. -/
  oldSets : List (Nat × StatSet)
  /-- Cycle in which the broadcast MLOAD's fill completes, and whether the fill is still running (R104). -/
  fillAt : Nat
  filling : Bool
  /-- The shadow set is complete and not swapped. -/
  shadowValid : Bool
  /-- Last multiply in row 31 of the passes issued so far (R105). -/
  lastMultiply : Nat
  /-- The columns' write ports, and the results on their way to every port with their cycle (R101, R109). -/
  ports : Vector ColPort 32
  results : List (Nat × PortItem)
  /-- Engines released in the current counted cycle (R170). -/
  relNow : BitVec 4
  /-- Changes of token counters that the current counted cycle's end brings, oldest first (R173). -/
  sigNow : List TokenChange
  /-- Clock periods frozen so far before the next counted cycle (R32). -/
  frozen : Nat
  /-- Lines of the instruction buffer, oldest fetch first (R167). -/
  ibuf : List Nat
  verdicts : List Verdict
  accesses : List Access
  /-- Accesses of instructions issued, for the audit modes (R195, R196). -/
  tags : List Access
  tokenOps : List TokenOp
  /-- Conflicting pairs whose later access is still to come, without token operations yet, and the records formed (R196). -/
  raceDue : List RacePair
  races : List RacePair
  racesLost : Nat
  zskipEn : Bool
  zskip : Nat
  bskip : Nat
  colstall : Nat
  accfix : Nat
  tmCorr : Nat
  gconf : Nat
  migHold : Bool
  migPoint : BitVec 16
  hold : Hold
  /-- A hold that has stopped issue and waits for the core to drain (R359, R368). -/
  holdReq : Hold
  /-- While issue is stopped: the first counted cycle in which no strand issues (R192). -/
  stopAt : Nat
  /-- Held by DEBUG_ATTACH (R405), by a drained-out trip (R345), by a recorded fault (R192). -/
  debugHeld : Bool
  faultStop : Bool
  chkStop : Bool
  faultCode : Byte
  faultStrand : BitVec 7
  faultValid : Bool
  faultOpcode : BitVec 10
  faultPc : BitVec 16
  faultMore : Byte
  faultInfo : DWord
  /-- The faults that only raised `faultMore`, oldest first: firmware, interrupted by each, still acts on them (R351). -/
  later : List FaultRec
  /-- The one of them that firmware acts on, or acted on last. -/
  acted : Option FaultRec
  tasks : List Task
  nextTask : Nat
  /-- The latest issue for each completion record: (address, opcode, code index, task number), for R218. -/
  issuedFor : List (Nat × Nat × Nat × Nat)
  resubLost : Bool
  mergeCnt : Nat
  dfetchCnt : Nat
  xspillCnt : Nat
  rotate : Bool
  stepHold : Bool
  tripSet : Bool
  tripReasons : BitVec 4
  tripCnt : Nat
  falseCnt : Nat
  test : Option FieldTest
  /-- Firmware's answer to the fault it acts on (R351), as in event 0x0C06: 1 resubmitted, 3 rollback, 4 left paused; 0 while a
  resubmission waits for a link, 2 once one has repaired it. -/
  answer : Option Nat
  /-- A task resubmitted for the recorded fault is running: the abort cause it was resubmitted for. -/
  resubmitted : Option Nat
  /-- The virtual core that a forced field test displaced into a save area (R359). -/
  saved : Option VCore
  /-- While the recheck context runs: the strands of the resident virtual core, which it does not touch (R345). -/
  recheck : Option (Vector Strand 128)
  /-- An active core that has passed a field test while idle: it is in the spare pool too (R357, log 28). -/
  pooled : Bool
  /-- The last virtual core resident here, and its step tag when it left (Table 12.8). -/
  lastV : Option (Nat × Nat)
  /-- Marked to leave service at the next MIGRATE point: 1 arbitration, 2 field test, 3 Cairn fail, 4 CORE_RETIRE. -/
  leaving : Option Nat
  deriving DecidableEq, Repr, Inhabited

/-! ### Jobs (R404 to R422) -/

/-- A host buffer: its extents as (bus address, length) and its total length (R404). -/
structure HostBuf where
  extents : List (Nat × Nat)
  total : Nat
  deriving DecidableEq, Repr, Inhabited

/-- Job states (R405). -/
inductive JobState where
  | none
  | created
  | loaded
  | running
  | paused
  | ended
  deriving DecidableEq, Repr, Inhabited

/-- Region kinds (Table 10.3). -/
inductive RegionKind where
  | unbound
  | tile
  | staging
  | gddr
  | scree
  | host
  deriving DecidableEq, Repr, Inhabited

/-- A region table entry (Table 10.3) with its ID. -/
structure Region where
  id : Nat
  kind : RegionKind
  base : Nat
  size : Nat
  rd : Bool
  wr : Bool
  ex : Bool
  prov : Bool
  twinSkip : Bool
  vcore : Nat
  bound : Bool
  deriving DecidableEq, Repr, Inhabited

/-- A recheck entry of the image (R420). -/
structure Recheck where
  vcore : Nat
  pc : Nat
  first : Nat
  last : Nat
  scratch : Nat
  len : Nat
  inputs : List (Nat × Nat)
  deriving DecidableEq, Repr, Inhabited

/-- Image chunks received over the control plane (R422). -/
structure Chunks where
  count : Nat
  held : List (Nat × List Byte)
  deriving DecidableEq, Repr, Inhabited

/-- A ring in host memory that the device appends to: sequence number of the next record (R267, R275). -/
structure Ring where
  buf : HostBuf
  next : Nat
  deriving DecidableEq, Repr, Inhabited

/-- The device's job: parameters of Table 11 of chapter 14, what the loaded image says, and its progress. -/
structure Job where
  state : JobState
  id : Word
  n : Nat
  rank : Nat
  wdogMs : Nat
  seed : Nat
  ftz : Bool
  strict : Bool
  debug : Bool
  latAudit : Bool
  raceAudit : Bool
  twin : Bool
  twinContinue : Bool
  capture : Bool
  hostTarget : Bool
  rolling : Bool
  captureScree : Bool
  replay : Bool
  sigRequired : Bool
  leadLog2 : Nat
  replayRank : Nat
  weights : List Byte
  corpus : List Byte
  rankTable : List Nat
  prov : Ring
  wit : Ring
  capBuf : HostBuf
  /-- Capture in Scree: size in 2 MiB units; and device address once placed. -/
  capScree : Nat
  capBase : Nat
  capUsed : Nat
  capFirst : Nat
  capCount : Nat
  capIndex : List (Nat × Nat × Nat)
  firstStep : Nat
  digest : List Byte
  v : Nat
  oversubOk : Bool
  ckptEvery : Nat
  contract : Nat
  regions : List Region
  groups : List (List Nat)
  rechecks : List Recheck
  /-- Snapshot region and covered regions of the checkpoint list (R371). -/
  snapshot : Option Nat
  covered : List Nat
  drains : Vector (Option HostBuf) 4
  relay : Chunks
  /-- Highest control-plane epoch applied and the operation it carried (R407). -/
  epoch : Nat
  epochOp : Nat
  /-- Its strands have started (R164, R223). -/
  started : Bool
  vTainted : Bool
  /-- Increments held for virtual cores that are not resident: (virtual core, counter, increment) (R235, R327). -/
  heldIncs : List (Nat × Nat × Nat)
  /-- Fabric operation IDs counted per job (Table 11.2). -/
  nextOp : Nat
  restored : Bool
  restoreFailed : Bool
  deriving DecidableEq, Repr, Inhabited

/-! ### Memory system (R285 to R308) -/

/-- Source of a translation fault (Table 10.7). -/
inductive XlatSource where
  | stream (core : Nat)
  | ingest
  | collective
  | checkpoint
  deriving DecidableEq, Repr, Inhabited

/-- One entry of the translation fault queue (R303). -/
structure XlatFault where
  entry : Nat
  addr : Nat
  write : Bool
  source : XlatSource
  merged : Nat
  /-- The page request event has been posted (R409). -/
  posted : Bool
  deriving DecidableEq, Repr, Inhabited

/-- The die's memories and translation unit. -/
structure MemSys where
  gddr : Mem 8
  /-- 64-byte lines with an uncorrectable error, and 32-byte sectors with a correctable one (R292). -/
  gddrBad : List Nat
  gddrSoft : List Nat
  staging : Mem 8
  /-- The same of 8-byte words of staging memory (R288). -/
  stagingBad : List Nat
  stagingSoft : List Nat
  /-- The expanders' contents: DPA d of port p at p * 2^37 + d; outside the device (R298). -/
  scree : Mem 8
  screePoison : List Nat
  /-- Host memory by bus address; outside the device. -/
  host : Mem 8
  /-- Enabled channels (MEM_G7_MAP). -/
  channels : BitVec 24
  screeLinked : BitVec 4
  screeOut : BitVec 4
  screeX4 : BitVec 4
  screeGt16 : BitVec 4
  /-- CXL links that failed during service and are not up again (R216, R351). -/
  screeDown : BitVec 4
  /-- Page tables (Table 10.4): Scree page to entry, host page to level-3 entry. -/
  screePages : List (Nat × DWord)
  hostPages : List (Nat × DWord)
  /-- Entries of the host tree's levels 0 to 2: (level, index bits [46:39], [46:30] or [46:21] of the offset, entry). -/
  hostDirs : List (Nat × Nat × DWord)
  /-- Cached device pages, oldest first, at most 8,192 (R302). -/
  tlb : List Nat
  faults : List XlatFault
  nextEntry : Nat
  g7Corr : Nat
  g7Unc : Nat
  stgCorr : Nat
  screeUnc : Nat
  xlatFaults : Nat
  tlbMisses : Nat
  /-- On-die ECC error counts read during scrub, per channel, and the scrub passes done (R293). -/
  onDie : Vector Nat 24
  passes : Vector Nat 24
  /-- Refreshes issued per channel (R293). -/
  refreshes : Vector Nat 24
  deriving DecidableEq, Repr, Inhabited

/-! ### Ingest (R229 to R257) -/

/-- Where a slot of a step stands. -/
inductive SlotPhase where
  /-- Reading its index entry (R237). -/
  | entry
  /-- Entry accepted; the cache is asked (R239). -/
  | lookup
  /-- Fetching src and init (R238). -/
  | fetch
  /-- Bytes held; waiting for a slice (R242). -/
  | decode
  /-- Blocks and record written; increment due (R235). -/
  | done
  /-- Held by an event (R256). -/
  | held
  deriving DecidableEq, Repr, Inhabited

/-- One slot of one step in flight (R231, R234). -/
structure Slot where
  j : Nat
  step : Nat
  sample : Nat
  phase : SlotPhase
  /-- The accepted index entry. -/
  entry : List Byte
  src : List Byte
  init : List Byte
  /-- The bytes came from the sample cache. -/
  hit : Bool
  /-- Page key of a translation fault it waits for (R303). -/
  blocked : Option Nat
  /-- Blocks of its sample that are written (R278). -/
  written : Nat
  deriving DecidableEq, Repr, Inhabited

/-- The ingest front end, shuffle unit and frame shaper. -/
structure Ingest where
  /-- The plan's bytes (R229); empty without a plan. -/
  plan : List Byte
  release : Nat
  /-- First step whose slots have not all been started, per slot. -/
  nextStep : List Nat
  slots : List Slot
  /-- Accepted entries of each (step, slot), for the input digest (R270). -/
  accepted : List (Nat × Nat × List Byte)
  evCode : Byte
  evValid : Bool
  evSlot : BitVec 12
  evStep : Word
  samples : Nat
  pixels : Nat
  conceals : Nat
  hits : Nat
  misses : Nat
  bads : Nat
  polls : Nat
  deriving DecidableEq, Repr, Inhabited

/-! ### Replay (R258 to R284) -/

/-- What a WTAP instruction still has to do in its unit (R272). -/
inductive WitStep where
  | start
  /-- A feed issued at `t0`: bytes read that the message has not taken, and 64-byte units still to be read. -/
  | feed (t0 : Nat) (bytes : List Byte) (left : Nat)
  | finish (tag step : Word)
  deriving DecidableEq, Repr, Inhabited

/-- A witness digest unit (R272, R273). -/
structure Witness where
  isOpen : Bool
  /-- Virtual core and strand it is assigned to (R188). -/
  owner : Option (Nat × Nat)
  /-- The open message. -/
  msg : Sha
  /-- From the oldest feed on that is still being read: its strand's WTAP instructions, in issue order (R188). -/
  steps : List WitStep
  /-- Bytes in its queue at clock period `since` of its core, and fed after it (R273). -/
  queued : Nat
  since : Nat
  /-- A finish waits to write its record: tag, step tag and the closed message. -/
  finish : List (Word × Word × Sha)
  discards : Nat
  full : Nat
  deriving DecidableEq, Repr, Inhabited

/-- The replay block: twin compare, capture comparison and witness units. -/
structure Replay where
  enable : Bool
  cont : Bool
  linked : Bool
  settling : Bool
  /-- A halt has stopped both jobs: no block written after it forms a record (R279). -/
  halted : Bool
  /-- Own and received records that have found no partner, and keys retired with their check value. -/
  own : List TwinRec
  peer : List TwinRec
  retired : List TwinRec
  /-- Mismatches found while settling. -/
  mism : List (TwinRec × Word)
  /-- Divergence events posted per step under continue policy. -/
  posted : List (Word × Nat)
  cmp : Nat
  miss : Nat
  provLost : Nat
  witLost : Nat
  units : Vector Witness 8
  deriving DecidableEq, Repr, Inhabited

/-! ### Fabric (R309 to R337, R466) -/

/-- State of a port (FAB_PORT_n_STATUS). -/
inductive PortState where
  | off
  | training
  | up
  | retraining
  | down
  deriving DecidableEq, Repr, Inhabited

/-- A flit that a port's link layer keeps for replay: its sequence number, what it carries, and the CRC-32C over both (R313). -/
structure Flit where
  seq : BitVec 12
  body : List Byte
  crc : Word
  deriving DecidableEq, Repr, Inhabited

/-- A packet that waits in a port's send queues. -/
structure Waiting where
  packet : List Byte
  /-- A link of version 2 does not carry it (R317). -/
  v3 : Bool
  /-- The port on which a packet to be forwarded came in (R321). -/
  arrival : Option Nat
  deriving DecidableEq, Repr, Inhabited

/-- One optical port. -/
structure Port where
  enable : Bool
  maxWidth : BitVec 2
  v2Allow : Bool
  state : PortState
  width : BitVec 2
  v3 : Bool
  degraded : Bool
  reason : BitVec 4
  groups : BitVec 4
  neighbour : BitVec 15
  nstate : BitVec 2
  missed : Nat
  fec : Nat
  unc : Nat
  retry : Nat
  credit : Nat
  drop : Nat
  /-- Link layer: next sequence number expected, next to send, the last 4,096 flits sent, oldest first, and the flit replayed last with its
  replays (R313). -/
  rxSeq : BitVec 12
  txSeq : BitVec 12
  kept : List Flit
  replaySeq : BitVec 12
  replays : Nat
  /-- The port has asked for replay from `rxSeq`. -/
  asking : Bool
  /-- It has been up at some time, so heartbeats are monitored (R335). -/
  monitored : Bool
  /-- Packets waiting in its send queues, oldest first: during a retrain (R318), for light (R453), for a credit (R314). -/
  sendq : List Waiting
  /-- No credit is left for data on VC 1 and 2 (R314). -/
  starved : Bool
  deriving DecidableEq, Repr, Inhabited

/-- One block of a SEND or COLL on its way (R324, R325). -/
structure TxBlock where
  index : Nat
  /-- Its place in the order of the task's requests (R224). -/
  no : Nat
  block : Block
  sent : Bool
  acked : Bool
  resends : Nat
  deriving DecidableEq, Repr, Inhabited

/-- An operation this device sends (R325, R327): its owning core and task and its blocks. -/
structure TxOp where
  opId : Nat
  core : Nat
  task : Nat
  stage : Nat
  dest : Nat
  /-- Header bytes of the open (Table 11.3), and whether it is acknowledged. -/
  params : List Byte
  opened : Bool
  /-- The open's place in the order of the task's requests (R224). -/
  no : Nat
  target : BlockTarget
  blocks : List TxBlock
  openResends : Nat
  /-- Tree node of the contributions: the own position in a reduction (Table 11.2). -/
  node : Nat
  deriving DecidableEq, Repr

/-- An operation this device receives (R324, R327). -/
structure RxOp where
  origin : BitVec 15
  job : Word
  opId : Nat
  target : BlockTarget
  params : List Byte
  /-- Block indices written, and the acknowledge each got. -/
  written : List Nat
  signalled : Bool
  /-- A block waits in the port's buffers for the guard (R326). -/
  guarded : Bool
  deriving DecidableEq, Repr

/-- One contribution to a collective: position, block index, block (R329). -/
structure Contrib where
  position : Nat
  index : Nat
  block : Block
  flags : ArithFlags
  deriving DecidableEq, Repr, Inhabited

/-- An open collective (R329). -/
structure Coll where
  group : Nat
  step : Word
  cid : Nat
  core : Option Nat
  task : Nat
  stage : Nat
  /-- The 32 bytes of the stage entry. -/
  params : List Byte
  /-- The forms that blocks and opens from other members showed. -/
  forms : List CollForm
  arrival : Bool
  contribs : List Contrib
  /-- Rows each position announced (R334). -/
  opens : List (Nat × Nat)
  /-- The own contribution has ended. -/
  ownDone : Bool
  delivered : Nat
  /-- Its place in the order of the task's requests (R224). -/
  no : Nat
  deriving DecidableEq, Repr, Inhabited

/-- A block that waits in a port's receive buffer of a data channel (R314, R326): its operation, index, target and bytes, and the flags it
carried. -/
structure HeldRx where
  port : Nat
  vc : Nat
  origin : BitVec 15
  job : Word
  opId : Word
  index : Word
  target : BlockTarget
  bytes : List Byte
  flags : BitVec 3
  deriving DecidableEq, Repr

/-- The state the down map holds for a link (R323). -/
inductive LinkState where
  | down
  | v2
  | v3
  deriving DecidableEq, Repr, Inhabited

/-- The fabric controllers and the collective engine. -/
structure Fabric where
  topo : Word
  pair : Word
  e2e : Word
  ports : Vector Port 8
  resends : Nat
  noticeDrops : Nat
  /-- Links for which a notice was received: (origin, port) to state; every other link is up at version 3 (R466). -/
  downMap : List (Nat × Nat × LinkState)
  /-- The last 256 (origin, message sequence) pairs (R336). -/
  seen : List (Nat × Nat)
  nextMsg : Nat
  tx : List TxOp
  rx : List RxOp
  /-- Blocks that wait for the guard, oldest first (R326). -/
  rxBuf : List HeldRx
  colls : List Coll
  /-- Blocks and opens of collectives received: (source, operation ID, block index) (R324). -/
  collSeen : List (Nat × Nat × Nat)
  heartbeats : Nat
  deriving DecidableEq, Repr, Inhabited

/-! ### Checking at die level (R348, R352 to R364) -/

/-- One Cairn bucket with its registers (Table 12.11) and the events counted since the last tick. -/
structure Bucket where
  level : Word
  inc : Word
  inc2 : Word
  inc3 : Word
  leak : Word
  warn : Word
  fail : Word
  warning : Bool
  failed : Bool
  enable : Bool
  d1 : Nat
  d2 : Nat
  d3 : Nat
  deriving DecidableEq, Repr, Inhabited

/-- An accepted or assembling field-test package (R355, R364). -/
structure Package where
  id : DWord
  version : Word
  bytes : List Byte
  due : BitVec 20
  passed : BitVec 20
  failed : BitVec 20
  deriving DecidableEq, Repr, Inhabited

/-- Chunks of a package on the control plane (R364). -/
structure Assembly where
  id : DWord
  version : Word
  chunks : Chunks
  deriving DecidableEq, Repr, Inhabited

/-- A trip waiting for or in arbitration (R345 to R348). -/
structure Arb where
  core : Nat
  verdict : Verdict
  /-- Output bytes of run 1, and of run 2 once made. -/
  run1 : List Byte
  run2 : Option (List Byte)
  deriving DecidableEq, Repr, Inhabited

/-- Cairn counters, arbitration and field tests. -/
structure Checking where
  buckets : Vector Bucket 128
  arbs : List Arb
  packages : List Package
  rejected : List (DWord × Word)
  assemblies : List Assembly
  /-- Buckets whose drain-and-replacement request no written set has answered, each with the boundary its last request named (R367). -/
  drainWanted : List (Nat × Nat)
  deriving DecidableEq, Repr, Inhabited

/-! ### Checkpoints (R365 to R388) -/

/-- CKPT_STATE.phase. -/
inductive Phase where
  | idle
  | pending
  | holding
  | copying
  | manifest
  | restoring
  | draining
  deriving DecidableEq, Repr, Inhabited

/-- A 64 KiB unit of a shard of the set in progress: shard index, unit index, device address and length. -/
structure Granule where
  shard : Nat
  unit : Nat
  addr : Nat
  len : Nat
  copied : Bool
  digest : List Byte
  deriving DecidableEq, Repr, Inhabited

/-- A shard of the set in progress. -/
structure Shard where
  kind : Nat
  id : Nat
  offset : Nat
  len : Nat
  deriving DecidableEq, Repr, Inhabited

/-- The checkpoint engine. -/
structure Ckpt where
  phase : Phase
  pendingB : List Nat
  /-- Boundary of the set in progress, and the origin of a drain-and-replacement request for it. -/
  b : Nat
  armed : Bool
  granules : List Granule
  shards : List Shard
  gen : Nat
  committed : Nat
  /-- Newest generation whose event 0x0D01 this device has posted (R380), and its boundary. -/
  postedGen : Nat
  postedB : Nat
  /-- Units of the zeroed manifest area that the buddy has not acknowledged (R378 step 1), and the slots that the buddy drains (R369,
  R382): true for B. -/
  zeroing : List Nat
  buddyDrains : List Bool
  copied : Nat
  holds : Nat
  sets : Nat
  fails : Nat
  lastFail : Byte
  /-- Boundaries a drain-and-replacement request of this device named (R367). -/
  drainB : List Nat
  /-- A slot drain in progress: slot B, window, rate; and a restore in progress: generation, from the host, slot or window. -/
  drain : Option (Bool × Nat × Nat)
  restore : Option (Nat × Bool × Nat)
  deriving DecidableEq, Repr, Inhabited

/-! ### Host side (R389 to R415) -/

/-- A mailbox (Table 14.6, R398, R399). -/
structure Mailbox where
  cmd : List Byte
  resp : List Byte
  busy : Bool
  done : Bool
  overrun : Bool
  status : Byte
  rlen : Nat
  ack : Word
  /-- Place in the order of acknowledgement. -/
  order : Nat
  /-- The protocol minor in force when the command was acknowledged (R402). -/
  nego : Byte
  /-- Commands acknowledged before a function-level reset and not yet run (R431): place in the order, the minor, and the command. -/
  old : List (Nat × Byte × List Byte)
  deriving DecidableEq, Repr, Inhabited

/-- Everything the device hands to the world outside it, oldest first. -/
inductive OutMsg where
  /-- The packets of one block, open, acknowledge or message (R320), on their port; none: to this device itself. -/
  | packets (port : Option Nat) (packets : List (List Byte))
  | replayAsk (port : Nat) (seq : BitVec 12)
  | replaySend (port : Nat) (flits : List Flit)
  | heartbeat (port : Nat) (own : BitVec 15) (state : Nat) (count : Nat)
  | msix (vector : Nat)
  | hostData (data : List Byte) (poisoned : Bool)
  | aer (uncorrectableInternal : Bool)
  | sideband (frame : List Byte)
  | regulator (frame : List Byte)
  deriving DecidableEq, Repr

/-- The host attachment, mailboxes, event ring and telemetry mirror. -/
structure HostSide where
  boxes : Vector Mailbox 9
  nextOrder : Nat
  nego : Byte
  evBase : DWord
  evLog2 : BitVec 5
  evHead : BitVec 16
  evTail : BitVec 16
  evEnable : Bool
  evVector : BitVec 6
  evCoalesce : BitVec 16
  evLost : Nat
  /-- Entries waiting for room, or for the ring to be enabled (R413), with their irq flag and mailbox. -/
  evQueue : List (List Byte × Bool × Option Nat)
  evSeq : Nat
  evPhase : Bool
  /-- A delayed interrupt is due (R412). -/
  evDue : Bool
  msix : List (Nat × DWord)
  msixPending : BitVec 64
  bar2Win : DWord
  /-- log2 of the aperture size S (R396). -/
  bar2Log2 : Nat
  /-- The bus addresses that the host wrote to BAR0 and BAR2 (Table 14.1). -/
  bar0Addr : DWord
  bar2Addr : DWord
  dbgPage : BitVec 5
  pcieUp : Bool
  busMaster : Bool
  d3hot : Bool
  shed : Nat
  mirror : List Byte
  mirrorWord : Word
  /-- The sampling interval in milliseconds that TELEMETRY wrote (R411), and the clock period in which the mirror is due again. -/
  mirrorMs : Nat
  mirrorAt : Nat
  deriving DecidableEq, Repr, Inhabited

/-! ### Bring-up, flash and power (R423 to R448, R453 to R458) -/

/-- Bring-up stages (Table 15.1). -/
inductive Boot where
  | instar0
  | instar1
  | instar2
  | instar3
  | instar4
  | imago
  /-- No authentic package: the ROM's recovery (R442). -/
  | recovery
  /-- Thermal trip: stopped until a cold reset (R438). -/
  | tripped
  deriving DecidableEq, Repr, Inhabited

/-- States of a power domain (Table 15.5). -/
inductive DomState where
  | off
  | poweringOn
  | on
  | poweringOff
  | offPendingOn
  | onPendingOff
  | fault
  deriving DecidableEq, Repr, Inhabited

/-- OTP fuses (R33, R394, R440, R446). -/
structure Fuses where
  stepping : Byte
  grade : Byte
  cores : Vector CoreKind 20
  channels : BitVec 24
  slices : Word
  serial : DWord
  /-- The four vendor key slots: SHA-256 digests of public keys; none where unprogrammed. -/
  keySlots : Vector (Option (List Byte)) 4
  securityVersion : Nat
  identityKey : List Byte
  deriving DecidableEq, Repr, Inhabited

/-- Flash areas (Table 15.2). -/
structure Flash where
  slotA : List Byte
  slotB : List Byte
  /-- Selected slot (true B) and trial flag. -/
  selectedB : Bool
  trial : Bool
  /-- The slot FW_STAGE wrote last. -/
  stagedB : Option Bool
  certificate : List Byte
  /-- Training records, one for each unit at most: 24 GDDR7 channels, PCIe, 4 CXL ports, 8 fabric ports (R427). -/
  records : List TrainRec
  /-- Topology record: FAB_TOPO and FAB_PAIR values. -/
  topology : Option (Word × Word)
  health : List Word
  healthOut : List Nat
  healthChannels : BitVec 24
  /-- Cairn profile: per bucket inc, inc2, leak, warn, fail, inc3, enable. -/
  profile : Option (List (List Word))
  log : List Byte
  deriving DecidableEq, Repr, Inhabited

/-- Power, clocks, resets and bring-up. -/
structure Power where
  boot : Boot
  fuses : Fuses
  flash : Flash
  runningB : Bool
  runningTrial : Bool
  fwBuild : Word
  vendorKey : List Byte
  /-- Digests of the running package's components 1 to 3, and its security version. -/
  fwDigests : List Byte
  fwSecurity : Nat
  /-- The last reset was a warm reset. -/
  warm : Bool
  /-- PERST has been asserted and the warm reset is due (R430). -/
  perst : Bool
  /-- A warm reset follows FW_ACTIVATE 0b01 (R444). -/
  activateReset : Bool
  /-- Fallback to report after Imago: slot tried, reason, slot booted (R442, R444). -/
  fallback : Option (Nat × Nat × Nat)
  /-- Units fully trained, and mapped out or down, in this bring-up (Table 15.11). -/
  trained : BitVec 37
  out : BitVec 37
  domains : Vector DomState 148
  reqs : BitVec 148
  limitW : Nat
  tthrot : Nat
  spareWarm : Bool
  sliceIdleOff : Bool
  g : Nat
  gRose : Bool
  estW : Nat
  /-- Ticks of 10 microseconds until event 0x0F04 may be posted again: throttle entered, and left (R448). -/
  enterWait : Nat
  leaveWait : Nat
  h : Vector Nat 20
  temps : Vector Nat 32
  lasers : BitVec 22
  regLink : Bool
  setMv : Nat
  measMv : Nat
  regSeq : Byte
  /-- A frame has no reply yet (R455). -/
  regWaits : Bool
  /-- Cores whose clock is held stretched before a raise of its demand (R456): the frame with the new setpoint is sent, or not yet. -/
  raises : Vector (Option Bool) 20
  deriving DecidableEq, Repr, Inhabited

/-! ### The whole device -/

structure State where
  cores : Vector Core 20
  job : Job
  mem : MemSys
  ing : Ingest
  rep : Replay
  fab : Fabric
  chk : Checking
  ckpt : Ckpt
  host : HostSide
  pow : Power
  /-- The model's own: number of undefined values drawn so far. -/
  free : Nat
  /-- The model's own: clock periods that have passed while no command waited. -/
  ticks : Nat
  out : List OutMsg
  /-- The commands waiting, first in first out. -/
  pending : List Instr
  deriving DecidableEq, Repr

/-- No command of the SLD3 stops the model: a core's faults are recorded in CORE_FAULT (R192) and are next states. -/
inductive Fault where
  deriving DecidableEq, Repr

/-- Why a command has no meaning. -/
inductive Refusal where
  /-- Raised by the dispatcher for a command whose meaning is not written; safe: nothing can be proved of a next state. -/
  | notModelled (mnemonic : String)
  deriving DecidableEq, Repr

/-! ### Reset values -/

/-- A memory whose contents are undefined since event `epoch` (R4). -/
def Mem.undefined (w epoch : Nat) : Mem w := ⟨.undef epoch, [], []⟩

/-- A memory of zeros. -/
def Mem.zeroed (w : Nat) : Mem w := ⟨.zero, [], []⟩

/-- A lane with nothing running or queued. -/
def Lane.idle : Lane := ⟨0, 0, none, none⟩

/-- A strand that is not in use. -/
def Strand.idle : Strand :=
  { live := false, pc := 0, x := Vector.replicate 7 0, lc := Vector.replicate 4 none, claims := 0, wait := .none,
    since := 0, last := none, taken := false, taskNo := 0, taskStep := 0, faulted := none }

/-- A disabled bound set (R340). -/
def Bounds.off : Bounds := ⟨0, 0, 0, 0, 0, 0, false⟩

/-- An unloaded stationary set (R464). -/
def StatSet.unloaded : StatSet := ⟨false, .reserved, 0, [], []⟩

/-- A physical core after a cold or warm reset (R430): control space, tile state, sets and tags. -/
def Core.cleared (kind : CoreKind) : Core :=
  { kind, v := none, partner := none, cycle := 0, clk := 0, stalls := Vector.replicate 15 0,
    pass := .idle, drain := .idle, load := .idle, ve := .idle, ru := .idle, swaps := [], runs := [], oldSets := [], fillAt := 0, filling := false,
    shadowValid := false, lastMultiply := 0, ports := Vector.replicate 32 ⟨[], 0, false, 0⟩, results := [], relNow := 0, sigNow := [], frozen := 0, ibuf := [],
    verdicts := [], accesses := [], tags := [], tokenOps := [], raceDue := [], races := [], racesLost := 0, zskipEn := true, zskip := 0, bskip := 0, colstall := 0,
    accfix := 0, tmCorr := 0, gconf := 0, migHold := false, migPoint := 0, hold := .none, holdReq := .none, stopAt := 0, debugHeld := false,
    faultStop := false, chkStop := false, faultCode := 0, faultStrand := 0, faultValid := false, faultOpcode := 0,
    faultPc := 0, faultMore := 0, faultInfo := 0, later := [], acted := none, tasks := [], nextTask := 0, issuedFor := [], resubLost := false, mergeCnt := 0,
    dfetchCnt := 0, xspillCnt := 0, rotate := false, stepHold := false, tripSet := false,
    tripReasons := 0, tripCnt := 0, falseCnt := 0, test := none, answer := none, resubmitted := none, saved := none, recheck := none, pooled := false, lastV := none,
    leaving := none }

/-- A job or core reset on one core, which becomes `kind` (R432): the RW bits no chapter lists keep their values (R14), as does
what firmware notes of the core. It also clears the RW1C bits CORE_FAULT.valid and STRM_STATUS.resub_lost, which Table 0.1 gives
cold and warm resets alone and no chapter lists: they are taken for per-job state (Table 15.3; DESIGN CHOICE, log 70). -/
def Core.afterReset (c : Core) (kind : CoreKind) : Core :=
  { Core.cleared kind with zskipEn := c.zskipEn, migHold := c.migHold, rotate := c.rotate, stepHold := c.stepHold, lastV := c.lastV,
                           pooled := c.pooled, leaving := c.leaving }

/-- No job (R405, R430). -/
def Job.empty : Job :=
  { state := .none, id := 0, n := 0, rank := 0, wdogMs := 2000, seed := 0, ftz := false, strict := false, debug := false,
    latAudit := false, raceAudit := false, twin := false, twinContinue := false, capture := false, hostTarget := false,
    rolling := false, captureScree := false, replay := false, sigRequired := false, leadLog2 := 3, replayRank := 0,
    weights := [], corpus := [], rankTable := [], prov := ⟨⟨[], 0⟩, 0⟩, wit := ⟨⟨[], 0⟩, 0⟩, capBuf := ⟨[], 0⟩,
    capScree := 0, capBase := 0, capUsed := 0, capFirst := 0, capCount := 0, capIndex := [], firstStep := 0, digest := [],
    v := 0, oversubOk := false, ckptEvery := 0, contract := 0, regions := [], groups := [], rechecks := [],
    snapshot := none, covered := [], drains := Vector.replicate 4 none, relay := ⟨0, []⟩, epoch := 0, epochOp := 0, started := false,
    vTainted := false, heldIncs := [], nextOp := 0, restored := false, restoreFailed := false }

/-- The memory system after a cold reset: GDDR7 and staging undefined (R430), counters 0, no channel or expander in use. -/
def MemSys.cold (scree host : Mem 8) (poison : List Nat) (epoch : Nat) : MemSys :=
  { gddr := .undefined 8 epoch, gddrBad := [], gddrSoft := [], staging := .undefined 8 (epoch + 1), stagingBad := [], stagingSoft := [], scree, screePoison := poison, host,
    channels := 0, screeLinked := 0, screeOut := 0, screeX4 := 0, screeGt16 := 0, screeDown := 0, screePages := [], hostPages := [], hostDirs := [],
    tlb := [], faults := [], nextEntry := 0, g7Corr := 0, g7Unc := 0, stgCorr := 0, screeUnc := 0, xlatFaults := 0,
    tlbMisses := 0, onDie := Vector.replicate 24 0, passes := Vector.replicate 24 0, refreshes := Vector.replicate 24 0 }

def Ingest.idle : Ingest :=
  { plan := [], release := 0, nextStep := [], slots := [], accepted := [], evCode := 0, evValid := false, evSlot := 0,
    evStep := 0, samples := 0, pixels := 0, conceals := 0, hits := 0, misses := 0, bads := 0, polls := 0 }

def Witness.idle : Witness :=
  { isOpen := false, owner := none, msg := .init, steps := [], queued := 0, since := 0, finish := [], discards := 0, full := 0 }

def Replay.idle : Replay :=
  { enable := false, cont := false, linked := false, settling := false, halted := false, own := [], peer := [], retired := [], mism := [],
    posted := [], cmp := 0, miss := 0, provLost := 0, witLost := 0, units := Vector.replicate 8 .idle }

def Port.off : Port :=
  { enable := false, maxWidth := 0, v2Allow := true, state := .off, width := 0, v3 := false, degraded := false, reason := 0,
    groups := 0, neighbour := 0, nstate := 0, missed := 0, fec := 0, unc := 0, retry := 0, credit := 0, drop := 0,
    rxSeq := 0, txSeq := 0, kept := [], replaySeq := 0, replays := 0, asking := false, monitored := false, sendq := [], starved := false }

/-- FAB_E2E's reset: 1,000 microseconds and 8 resends (Table 11.9). -/
def Fabric.off : Fabric :=
  { topo := 0, pair := 0, e2e := 0x000803E8, ports := Vector.replicate 8 .off, resends := 0, noticeDrops := 0, downMap := [],
    seen := [], nextMsg := 0, tx := [], rx := [], rxBuf := [], colls := [], collSeen := [], heartbeats := 0 }

def Bucket.zero : Bucket :=
  { level := 0, inc := 0, inc2 := 0, inc3 := 0, leak := 0, warn := 0, fail := 0, warning := false, failed := false,
    enable := false, d1 := 0, d2 := 0, d3 := 0 }

def Checking.idle : Checking :=
  { buckets := Vector.replicate 128 .zero, arbs := [], packages := [], rejected := [], assemblies := [], drainWanted := [] }

def Ckpt.idle : Ckpt :=
  { phase := .idle, pendingB := [], b := 0, armed := false, granules := [], shards := [], gen := 0,
    committed := 0, postedGen := 0, postedB := 0, zeroing := [], buddyDrains := [], copied := 0, holds := 0, sets := 0, fails := 0, lastFail := 0,
    drainB := [], drain := none, restore := none }

def Mailbox.idle : Mailbox :=
  { cmd := [], resp := [], busy := false, done := false, overrun := false, status := 0, rlen := 0, ack := 0, order := 0,
    nego := 0xFF, old := [] }

/-- The host side after a reset: Table 14.5, 14.6 and 14.9's reset values; BAR2 of 1 GiB (R396). -/
def HostSide.off : HostSide :=
  { boxes := Vector.replicate 9 .idle, nextOrder := 0, nego := 0xFF, evBase := 0, evLog2 := 8, evHead := 0, evTail := 0,
    evEnable := false, evVector := 0, evCoalesce := 0, evLost := 0, evQueue := [], evSeq := 0, evPhase := true,
    evDue := false, msix := [], msixPending := 0, bar2Win := 0, bar2Log2 := 30, bar0Addr := 0, bar2Addr := 0, dbgPage := 0, pcieUp := false,
    busMaster := false, d3hot := false, shed := 0, mirror := [], mirrorWord := 0, mirrorMs := 1000,
    mirrorAt := 0 }

/-- The fuses of the device modelled: an SLD3-16A of stepping B0 with 16 active and 2 spare cores, all 24 channels and slices
0 to 29 (DESIGN CHOICE, log 15); its serial number and keys are free. -/
def Fuses.example16A : Fuses :=
  { stepping := 0x10, grade := 1,
    cores := Vector.ofFn fun p => if p.val < 16 then .active else if p.val < 18 then .spare else .disabled,
    channels := 0xFFFFFF, slices := 0x3FFFFFFF, serial := Config.serial, keySlots := Config.keySlots, securityVersion := 0,
    identityKey := Config.identityKey }

/-- Flash at delivery: every unit has its factory training record (R463); slot A and the certificate hold what they were given, which
is free; slot B, the other records and the profile are empty (DESIGN CHOICE, log 15). -/
def Flash.delivered : Flash :=
  { slotA := Config.slotA, slotB := [], selectedB := false, trial := false, stagedB := none, certificate := Config.certificate, records := (List.range 37).map Config.factoryRecord,
    topology := none, health := [], healthOut := [], healthChannels := 0, profile := none, log := [] }

/-- Power and bring-up right after a cold reset: Instar 0, every domain off, Table 15.7's and 16.6's reset values. -/
def Power.cold (fuses : Fuses) (flash : Flash) : Power :=
  { boot := .instar0, fuses, flash, runningB := false, runningTrial := false, fwBuild := 0, vendorKey := [], fwDigests := [], fwSecurity := 0, warm := false,
    perst := false, activateReset := false, fallback := none, trained := 0, out := 0, domains := Vector.replicate 148 .off,
    reqs := 0, limitW := 1400, tthrot := 97, spareWarm := true, sliceIdleOff := false, g := 0, gRose := false, estW := 0, enterWait := 0, leaveWait := 0,
    h := Vector.replicate 20 0, temps := Vector.replicate 32 0, lasers := 0, regLink := false, setMv := 800, measMv := 0,
    regSeq := 0, regWaits := false, raises := Vector.replicate 20 none }

/-- A device after a cold reset (R430): power has returned and Instar 0 is to run; only what lies outside the device or in
fuses and flash survives. -/
def State.cold (fuses : Fuses) (flash : Flash) (scree host : Mem 8) (poison : List Nat) (free : Nat) : State :=
  { cores := Vector.replicate 20 (Core.cleared .disabled), job := .empty, mem := .cold scree host poison free, ing := .idle,
    rep := .idle, fab := .off, chk := .idle, ckpt := .idle, host := .off, pow := .cold fuses flash, free := free + 2, ticks := 0, out := [],
    pending := [] }

/-- The device right after its first cold reset. The Scree tier's contents are undefined and host memory reads zero
(DESIGN CHOICE, log 15). -/
def State.reset : State :=
  State.cold .example16A .delivered (.undefined 8 0) (.zeroed 8) [] 1

end Sys2Proof.Machine
end

