-- ==== Sys2Proof/Machine/Ops.lean ====
section
/-! DEFINITION. The named operations every family uses: memories, undefined values, a core's registers and clock, raising a
core fault, tile memory, token counters, the event ring, flooding, and job control. -/

namespace Sys2Proof.Machine

/-! ### Memories -/

/-- What an unlisted cell `a` reads as under a fill. -/
def Fill.val (w : Nat) : Fill → Nat → BitVec w
  | .zero, _ => 0
  | .undef e, a => Config.undef w e a
  | .stripe n k e rest, a => if a / 4096 % n = k then Config.undef w e a else rest.val w a

/-- The fill that is in force at address `a` of a fill. -/
def Fill.here : Fill → Nat → Fill
  | .stripe n k e rest, a => if a / 4096 % n = k then .undef e else rest.here a
  | f, _ => f

/-- The fill in force at an address: the newest range that holds it, else the base. -/
def Mem.fillAt {w : Nat} (m : Mem w) (a : Nat) : Fill :=
  (((m.ranges.find? fun r => decide (r.1 ≤ a) && decide (a < r.1 + r.2.1)).map (·.2.2)).getD m.base).here a

/-- The listed value of a cell. -/
def lookupCell {w : Nat} (a : Nat) : List (Nat × BitVec w) → Option (BitVec w)
  | [] => none
  | c :: cs => if c.1 = a then some c.2 else lookupCell a cs

/-- Read one cell. -/
def Mem.get {w : Nat} (m : Mem w) (a : Nat) : BitVec w :=
  match lookupCell a m.cells with
  | some v => v
  | none => (m.fillAt a).val w a

/-- Read `n` cells from `a`. -/
def Mem.getRange {w : Nat} (m : Mem w) (a n : Nat) : List (BitVec w) := (List.range n).map fun i => m.get (a + i)

/-- Must a cell holding `v` be listed? -/
def Mem.keeps {w : Nat} (m : Mem w) (c : Nat × BitVec w) : Bool := !(m.fillAt c.1 == .zero && c.2 == 0)

/-- Cells to list for values written from `a` on. -/
def newCells {w : Nat} : Nat → List (BitVec w) → List (Nat × BitVec w)
  | _, [] => []
  | a, v :: vs => (a, v) :: newCells (a + 1) vs

/-- Write consecutive cells from `a`. -/
def Mem.setRange {w : Nat} (m : Mem w) (a : Nat) (vs : List (BitVec w)) : Mem w :=
  { m with cells := m.cells.filter (fun c => decide (c.1 < a)) ++ (newCells a vs).filter m.keeps
      ++ m.cells.filter (fun c => decide (a + vs.length ≤ c.1)) }

/-- Write one cell. -/
def Mem.set {w : Nat} (m : Mem w) (a : Nat) (v : BitVec w) : Mem w := m.setRange a [v]

/-- Give `len` cells from `lo` a new fill and forget what was listed there. -/
def Mem.refill {w : Nat} (m : Mem w) (lo len : Nat) (f : Fill) : Mem w :=
  { m with ranges := (lo, len, f) :: m.ranges,
           cells := m.cells.filter fun c => decide (c.1 < lo) || decide (lo + len ≤ c.1) }

/-- Every 4 KiB granule whose number is `k` modulo `n` has undefined contents since event `e`. -/
def Mem.stripe {w : Nat} (m : Mem w) (n k e : Nat) : Mem w :=
  { base := .stripe n k e m.base, ranges := m.ranges.map fun r => (r.1, r.2.1, .stripe n k e r.2.2),
    cells := m.cells.filter fun c => decide (c.1 / 4096 % n ≠ k) }

/-- The canonical form: addresses strictly rising, no zero listed where an unlisted cell reads as zero. -/
abbrev Mem.wf {w : Nat} (m : Mem w) : Prop :=
  m.cells.Pairwise (fun a b => a.1 < b.1) ∧ ∀ c ∈ m.cells, m.keeps c = true

/-- The next undefined-value event (R4). -/
def State.fresh (s : State) : Nat × State := (s.free, { s with free := s.free + 1 })

/-- `n` undefined values of one event. -/
def undefCells (w epoch n : Nat) : List (BitVec w) := (List.range n).map (Config.undef w epoch)

/-! ### Cores and the core clock -/

def State.core (s : State) (p : Fin 20) : Core := s.cores[p]

def State.setCore (s : State) (p : Fin 20) (c : Core) : State := { s with cores := s.cores.set p c }

def State.modCore (s : State) (p : Fin 20) (f : Core → Core) : State := s.setCore p (f (s.core p))

/-- Change every core. -/
def State.mapCores (s : State) (f : Core → Core) : State := { s with cores := s.cores.map f }

/-- All core numbers. -/
def coreNums : List (Fin 20) := List.finRange 20

/-- Add to a stall counter; code 0 has none (Table 7.8). -/
def Core.addStall (c : Core) (code n : Nat) : Core :=
  if code = 0 || n = 0 then c else { c with stalls := c.stalls.set! code (c.stalls[code]! + n) }

/-! ### Write ports of the accumulator banks (R109 to R112) -/

/-- The 4-byte halves of a port's cycle that an entry takes. -/
def PortItem.units : PortItem → Nat
  | .word => 1 | .pair => 2 | .clear => 2

/-- Entries in order, served while `cap` halves of the port are left: what stays, and the halves left. -/
def servePort : List PortItem → Nat → List PortItem × Nat
  | [], cap => ([], cap)
  | i :: rest, cap => if i.units ≤ cap then servePort rest (cap - i.units) else (i :: rest, cap)

/-- Nothing waits at the port. -/
def ColPort.quiet (k : ColPort) : Bool := k.skid.isEmpty && k.wants == 0 && !k.scrub

/-- One clock period of a port in the order of R109; `new` are the column's results of the period, its number is `clk`. -/
def ColPort.period (new : List PortItem) (clk : Nat) (k : ColPort) : ColPort :=
  if 0 < k.wants then { k with wants := k.wants - 1, skid := k.skid ++ new }
  else if k.scrub then { k with scrub := false, skid := k.skid ++ new }
  else
    let r := servePort (k.skid ++ new) 2
    { k with skid := r.1, idleAt := if r.2 = 0 then k.idleAt else clk }

/-- `n` clock periods from number `clk` on without a result: the port after them, and those in which an entry stayed (R112). -/
def ColPort.rest : Nat → Nat → ColPort → ColPort × Nat
  | 0, _, k => (k, 0)
  | n + 1, clk, k =>
    let k := k.period [] clk
    let r := ColPort.rest n (clk + 1) k
    (r.1, r.2 + ofBool (!k.skid.isEmpty))

/-- The same, at once for a port at which nothing waits. -/
def ColPort.idleFor (n clk : Nat) (k : ColPort) : ColPort × Nat :=
  if k.quiet then ({ k with idleAt := max k.idleAt (clk + n - 1) }, 0) else k.rest n clk

/-- `n` clock periods of every port without a result. -/
def Core.restPorts (c : Core) (n : Nat) : Core :=
  let r := c.ports.map (ColPort.idleFor n c.clk)
  { c with ports := r.map (·.1), colstall := c.colstall + (r.toList.map (·.2)).foldl (· + ·) 0 }

/-- `n` frozen clock periods counted under `code` (R12, R30, R222); the write ports keep working (R111). -/
def Core.freeze (c : Core) (code n : Nat) : Core :=
  let c := (c.addStall code n).restPorts n
  { c with clk := c.clk + n, frozen := c.frozen + n }

/-- No result is on its way to a port and nothing waits at one. -/
def Core.portsQuiet (c : Core) : Bool := c.results.isEmpty && c.ports.toList.all (·.quiet)

/-- The results that reach every column's port in the next counted cycle. -/
def Core.dueResults (c : Core) : List PortItem := (c.results.filter fun r => decide (r.1 ≤ c.cycle + 1)).map (·.2)

/-- A result due in the next counted cycle finds some column's skid buffer full, its port not free to write from it (R111). -/
def Core.portsFull (c : Core) : Bool := c.ports.toList.any fun k => decide (4 < (k.period c.dueResults c.clk).skid.length)

/-- The domain freezes under 0x07 until no column is full (R111). -/
def Core.unblock : Nat → Core → Core
  | 0, c => c
  | n + 1, c => if c.portsFull then Core.unblock n (c.freeze 7 1) else c

/-- Clock periods of core `p` are stretched: its level is above 0, or the raise of its clock waits for its voltage (R436, R437, R456). -/
def Power.stretched (w : Power) (p : Fin 20) : Bool := decide (max w.g w.h[p] > 0) || w.raises[p].isSome

/-- Clock periods per counted cycle: four in latency audit (R195). -/
def JobState.periods (latAudit : Bool) : Nat := if latAudit then 4 else 1

/-- Bytes of a unit's queue that wait at clock period `clk` of its core: a 64-byte block leaves every 16 network cycles, which are 20
arithmetic cycles (R11, R273). A core whose clock count was cleared has long compressed them. -/
def Witness.left (u : Witness) (clk : Nat) : Nat := if clk < u.since then 0 else u.queued - 16 * (clk - u.since) / 5

/-- Bytes a unit queues (R273). -/
def unitRoom : Nat := 262144

/-- Clock periods until 64 more bytes fit (R273). -/
def Witness.full64 (u : Witness) (clk : Nat) : Nat :=
  if u.left clk + 64 ≤ unitRoom then 0 else cdiv (5 * (u.queued + 64 - unitRoom)) 16 - (clk - u.since)

/-- A unit takes its strand's WTAP instructions in issue order, as far as the feeds among them have been read (R188, R272). A feed on an
idle unit opens it; a start on an open unit discards the message. -/
def Witness.absorb (u : Witness) : List WitStep → Witness
  | [] => { u with steps := [] }
  | .start :: rest =>
    Witness.absorb { u with isOpen := true, msg := .init, discards := if u.isOpen then min 255 (u.discards + 1) else u.discards } rest
  | .finish tag step :: rest =>
    Witness.absorb { u with isOpen := false, msg := .init, finish := u.finish ++ [(tag, step, if u.isOpen then u.msg else .init)] } rest
  | .feed t0 bytes left :: rest =>
    let u := { u with isOpen := true, msg := (if u.isOpen then u.msg else .init).feed bytes }
    if left = 0 then Witness.absorb u rest else { u with steps := .feed t0 [] left :: rest }

/-- A WTAP instruction comes to its unit. -/
def Witness.add (u : Witness) (x : WitStep) : Witness := u.absorb (u.steps ++ [x])

/-- The next bytes of the feed issued at `t0` are read in clock period `clk`. -/
def Witness.take (u : Witness) (t0 : Nat) (bytes : List Byte) (clk : Nat) : Witness :=
  let n := u.left clk
  { u with queued := (if n = 0 then 0 else u.queued) + bytes.length, since := if n = 0 then clk else u.since }.absorb
    (u.steps.map fun (x : WitStep) => match x with
      | .feed t bs left => if t = t0 then .feed t (bs ++ bytes) (left - 1) else x
      | x => x)

/-- Change a witness digest unit. -/
def State.modUnit (s : State) (u : Nat) (f : Witness → Witness) : State :=
  { s with rep := { s.rep with units := s.rep.units.set! u (f s.rep.units[u]!) } }

/-- Change the resident virtual core. -/
def Core.modV (c : Core) (f : VCore → VCore) : Core := { c with v := c.v.map f }

def State.modV (s : State) (p : Fin 20) (f : VCore → VCore) : State := s.modCore p fun c => c.modV f

def VCore.modStrand (v : VCore) (k : Fin 128) (f : Strand → Strand) : VCore :=
  { v with strands := v.strands.set k (f v.strands[k]) }

def State.modStrand (s : State) (p : Fin 20) (k : Fin 128) (f : Strand → Strand) : State :=
  s.modV p fun v => v.modStrand k f

/-- The numbers of the live strands. -/
def VCore.liveStrands (v : VCore) : List (Fin 128) := (List.finRange 128).filter fun k => v.strands[k].live

/-- Index register X[i]; X0 reads as 0 (R163). -/
def xreg (x : Vector Word 7) (i : Nat) : Word := if i = 0 then 0 else x[i - 1]!

/-- Write X[i]; a write to X0 has no register to go to. -/
def setXreg (x : Vector Word 7) (i : Nat) (v : Word) : Vector Word 7 := if i = 0 then x else x.set! (i - 1) v

/-- Issue of the resident virtual core is stopped (R192, R198, R345, R359, R368, R405); the recheck context issues during the stop of a trip. -/
def Core.stopped (c : Core) : Bool :=
  c.faultStop || (c.chkStop && c.recheck.isNone) || c.debugHeld || c.hold != .none || c.holdReq != .none

/-- Stop issue from the next counted cycle on (R192). -/
def Core.stop (c : Core) : Core := if c.stopped then c else { c with stopAt := c.cycle + 1 }

/-- The fault that CORE_FAULT and CORE_FAULT_INFO hold. -/
def Core.recorded (c : Core) : FaultRec :=
  ⟨c.faultCode.toNat, c.faultStrand.toNat, c.faultOpcode.toNat, c.faultPc.toNat, c.faultInfo.toNat⟩

/-- A core raises a fault (R192): the first is recorded, of the lowest strand when several fall in one cycle; later ones only
count, and wait for firmware's answer (R351); issue stops from the next counted cycle. A fault of no strand counts as strand 0 in that
order (DESIGN CHOICE, log 63). -/
def Core.raise (c : Core) (code strand opcode pc info : Nat) : Core :=
  let same := c.faultStop && c.answer.isNone && decide (c.stopAt = c.cycle + 1) && decide (strand < c.faultStrand.toNat)
  let more := if c.faultValid && c.faultMore.toNat < 255 then c.faultMore + 1 else c.faultMore
  let c := { c.stop with faultStop := true }
  let new : FaultRec := ⟨code, strand, opcode, pc, info⟩
  if c.faultValid && !same then { c with faultMore := more, later := c.later ++ [new] }
  else { c with later := if c.faultValid then c.recorded :: c.later else c.later, faultValid := true, faultCode := BitVec.ofNat 8 code, faultStrand := BitVec.ofNat 7 strand,
                faultOpcode := BitVec.ofNat 10 opcode, faultPc := BitVec.ofNat 16 pc, faultInfo := BitVec.ofNat 64 info,
                faultMore := more }

/-- The greatest of a list, 0 for none. -/
def maxOf (xs : List Nat) : Nat := xs.foldl max 0

/-! ### Token counters (R172, R173) -/

/-- One change of a token counter, against the value that everything before it left: a result out of range raises its fault and leaves
the counter (R172); a TSIG's strand then stands on it again. -/
def Core.changeToken (c : Core) (x : TokenChange) : Core :=
  match c.v with
  | none => c
  | some v =>
    let old := (v.tokens[x.ctr]!).toNat
    let new := (old : Int) + x.delta
    if 0 ≤ new && new ≤ 65535 then c.modV fun v => { v with tokens := v.tokens.set! x.ctr (BitVec.ofNat 16 new.toNat) }
    else
      let code := if new < 0 then 5 else 4
      match x.signal with
      | some (k, pc) => (c.raise code k.val 0x012 pc.toNat (x.ctr + 256 * old)).modV fun v => v.modStrand k fun st =>
          { st with pc, faulted := some c.cycle }
      | none => c.raise code 0 0 0 (x.ctr + 256 * old)

/-- A TSIG before those of higher strands and before every external increment (R173). -/
def TokenChange.place (x : TokenChange) : List TokenChange → List TokenChange
  | [] => [x]
  | y :: ys => match x.signal, y.signal with
    | some a, some b => if a.1 < b.1 then x :: y :: ys else y :: x.place ys
    | some _, none => x :: y :: ys
    | none, _ => y :: x.place ys

/-- The present counted cycle's changes of token counters happen, in the order of R173. -/
def Core.endTokens (c : Core) : Core := c.sigNow.foldl Core.changeToken { c with sigNow := [] }

/-- A change comes in the present counted cycle: TWAITs see it from the next (R173). -/
def Core.queueToken (c : Core) (x : TokenChange) : Core := { c with sigNow := x.place c.sigNow }

/-- An external increment of a token counter (R172). -/
def Core.addToken (c : Core) (ctr inc : Nat) : Core :=
  if inc = 0 || c.v.isNone then c else c.queueToken ⟨ctr, inc, none⟩

/-! ### Counted cycles (R12, R32, R175, R222) -/

/-- Conflicting pairs of the race audit whose accesses have both happened become records, with both strands' token operations between
them (R196). -/
def Core.settleRaces (c : Core) : Core :=
  if c.raceDue.isEmpty then c
  else
    let past (x : RacePair) : Bool := decide (max x.first.cycle x.second.cycle < c.cycle)
    let pairs := (c.raceDue.filter past).map fun x =>
      { x with ops := c.tokenOps.filter fun o => (o.strand == x.first.strand || o.strand == x.second.strand)
          && decide (min x.first.cycle x.second.cycle ≤ o.cycle) && decide (o.cycle ≤ max x.first.cycle x.second.cycle) }
    let room := Config.traceRoom - c.races.length
    { c with raceDue := c.raceDue.filter fun x => !past x, races := c.races ++ pairs.take room,
             racesLost := c.racesLost + (pairs.length - room) }

/-- The stall codes that ask for the counted cycles to come (R222), each with the first cycle it asks for. -/
abbrev CycleCodes := List (Nat × Nat)

/-- No cycle waits or is held: only a stretched one counts (R222). -/
def plainCodes (stretched : Bool) : CycleCodes := if stretched then [(5, 0)] else []

/-- The first cycle that a code of a kind asks for, at most `e`. -/
def CycleCodes.since (k : CycleCodes) (kind : Nat → Bool) (e : Nat) : Nat :=
  k.foldl (fun m x => if kind x.1 then min m x.2 else m) e

/-- Of the `n` counted cycles from cycle `t` on, those that count under a code: it asks for them and no lower one does (R32). -/
def CycleCodes.cycles (k : CycleCodes) (t n code : Nat) : Nat :=
  k.since (fun d => decide (d < code)) (t + n) - max t (k.since (fun d => d == code) (t + n))

/-- `n` counted cycles from the present one on count under their codes. -/
def CycleCodes.count (k : CycleCodes) (c : Core) (n : Nat) : Core :=
  (List.range 15).foldl (fun (d : Core) code => d.addStall code (k.cycles c.cycle n code)) c

/-- `n` counted cycles of `per` clock periods in which the ports have nothing to do (R12, R195, R223). -/
def Core.glide (c : Core) (k : CycleCodes) (per n : Nat) : Core :=
  let c := (k.count c.endTokens n).restPorts (per * n)
  { c with cycle := c.cycle + n, clk := c.clk + per * n, relNow := 0, frozen := 0 }.settleRaces

/-- The next counted cycle passes, with the results it brings to the ports. -/
def Core.nextCycle (c : Core) (k : CycleCodes) (per : Nat) : Core :=
  let c := Core.unblock (1 + (c.ports.toList.map fun k => k.wants + 1).foldl max 0) c.endTokens
  let ports := c.ports.map (ColPort.period c.dueResults c.clk)
  let stay := (ports.toList.filter fun k => !k.skid.isEmpty).length
  let c := { c with ports, colstall := c.colstall + stay, results := c.results.filter fun r => decide (c.cycle + 1 < r.1),
                    clk := c.clk + 1 }
  let c := k.count (c.restPorts (per - 1)) 1
  { c with cycle := c.cycle + 1, clk := c.clk + (per - 1), relNow := 0, frozen := 0 }.settleRaces

/-- `n` counted cycles pass. -/
def Core.passCycles (k : CycleCodes) (per : Nat) : Nat → Core → Core
  | 0, c => c
  | n + 1, c =>
    if c.portsQuiet then c.glide k per (n + 1)
    else Core.passCycles k per n (c.nextCycle k per)

/-- Counted cycles pass up to cycle `t`; what instructions do in them is the work of `State.advance`. -/
def Core.advanceTo (c : Core) (k : CycleCodes) (per t : Nat) : Core := Core.passCycles k per (t - c.cycle) c

/-- The core's clock goes on to counted cycle `t`. -/
def State.passTo (s : State) (p : Fin 20) (t : Nat) (k : CycleCodes) : State :=
  s.modCore p fun c => c.advanceTo k (JobState.periods s.job.latAudit) t

/-- The OR of new flags into the virtual core's sticky flags (R68). -/
def VCore.addFlags (v : VCore) (f : ArithFlags) : VCore := { v with flags := v.flags.or f }

/-! ### Tile memory (R182, R286) -/

/-- What an access needs of its region. -/
inductive Perm where
  | read
  | write
  | both
  deriving DecidableEq, Repr

def TileRegion.allows (r : TileRegion) : Perm → Bool
  | .read => r.rd
  | .write => r.wr
  | .both => r.rd && r.wr

def TileRegion.holds (r : TileRegion) (a : Int) : Bool := decide ((r.base : Int) ≤ a) && decide (a < r.base + r.len)

/-- The first offending byte address of an access of `len ≥ 1` bytes, or none when the access is within one region with the
permission it needs (R182). -/
def VCore.regionFault (v : VCore) (a : Int) (len : Nat) (need : Perm) : Option Int :=
  if len = 0 then none
  else match v.regions.find? (·.holds a) with
    | none => some a
    | some r =>
      if !r.allows need then some a
      else if a + len ≤ r.base + r.len then none
      else some (r.base + r.len : Nat)

def VCore.readTile (v : VCore) (a n : Nat) : List Byte := v.tile.getRange a n

/-- The address of the first uncorrectable 8-byte word that a read of `n` bytes at `a` touches (R286). -/
def badWord (bad : List Nat) (a n : Nat) : Option Nat :=
  match (bad.filter fun w => decide (w * 8 < a + n) && decide (a < w * 8 + 8)) with
  | [] => none
  | w :: ws => some (8 * ws.foldl min w)

/-- The address of the first uncorrectable word that a write of `n` bytes at `a` covers only in part. -/
def badPart (bad : List Nat) (a n : Nat) : Option Nat :=
  badWord (bad.filter fun w => decide (w * 8 < a) || decide (a + n < w * 8 + 8)) a n

/-- Words that a write of `n` bytes at `a` covers whole lose their uncorrectable state. -/
def clearBad (bad : List Nat) (a n : Nat) : List Nat :=
  bad.filter fun w => decide (w * 8 < a) || decide (a + n < w * 8 + 8)

/-- Bytes to write at `a`, cut into runs of (address, bytes) that leave out words that stay uncorrectable. -/
def writableRuns (bad : List Nat) (a : Nat) (bs : List Byte) : List (Nat × List Byte) :=
  match badPart bad a bs.length with
  | none => [(a, bs)]
  | some _ =>
    let keep := (List.range bs.length).filter fun i =>
      !(bad.any fun w => decide (w = (a + i) / 8) && (decide (w * 8 < a) || decide (a + bs.length < w * 8 + 8)))
    keep.map fun i => (a + i, (bs.drop i).take 1)

/-- Write tile memory (R286): a word written whole loses its uncorrectable state; a part write of an uncorrectable word
does not take place. -/
def VCore.writeTile (v : VCore) (a : Nat) (bs : List Byte) : VCore :=
  { v with tile := (writableRuns v.tileBad a bs).foldl (fun m r => m.setRange r.1 r.2) v.tile,
           tileBad := clearBad v.tileBad a bs.length, tileSoft := clearBad v.tileSoft a bs.length }

/-! ### Increments for virtual cores (R235, R327) -/

/-- The virtual core of the job that a physical core holds, or that a field test there displaced into a save area, as it stands apart from
the test or a recheck context. -/
def Core.own (c : Core) : Option VCore :=
  if c.test.isSome || c.v.isNone then c.saved
  else match c.recheck with
    | some strands => c.v.map fun v => { v with strands }
    | none => c.v

/-- The physical core on which a virtual core is resident. -/
def State.findV (s : State) (num : Nat) : Option (Fin 20) :=
  coreNums.find? fun p => match (s.core p).v with
    | some v => decide (v.num = num) && (s.core p).test.isNone
    | none => false

/-- An increment for a virtual core; firmware holds it while the virtual core is not resident (R235, R327). -/
def State.addTokenV (s : State) (num ctr inc : Nat) : State :=
  if inc = 0 then s
  else match s.findV num with
    | some p => s.modCore p fun c => c.addToken ctr inc
    | none => { s with job := { s.job with heldIncs := s.job.heldIncs ++ [(num, ctr, inc)] } }

/-- Apply the increments held for the virtual core now resident on `p`. -/
def State.applyHeld (s : State) (p : Fin 20) : State :=
  match (s.core p).v with
  | none => s
  | some v =>
    let mine := s.job.heldIncs.filter fun h => h.1 == v.num
    let s := { s with job := { s.job with heldIncs := s.job.heldIncs.filter fun h => h.1 != v.num } }
    mine.foldl (fun s h => s.modCore p fun c => c.addToken h.2.1 h.2.2) s

/-! ### Output and the event ring (R397, R412, R413) -/

def State.emit (s : State) (m : OutMsg) : State := { s with out := s.out ++ [m] }

/-- Input `i` of connector `k` has light (R451 to R453, Table 16.6). -/
def Power.lit (w : Power) (k i : Nat) : Bool := bitAt w.lasers.toNat (2 * k + i)

/-- The transmitters of the sideband and of the regulator link in H have light: either input alone is enough (R452). -/
def Power.hLit (w : Power) : Bool := w.lit 8 0 || w.lit 8 1

/-- The lane groups of a fabric port whose transmit lanes have light: input 0 feeds lanes 0 to 7, input 1 lanes 8 to 15 (R452). -/
def Power.litGroups (w : Power) (n : Nat) : BitVec 4 := (if w.lit n 0 then 3 else 0) ||| (if w.lit n 1 then 12 else 0)

/-- Every lane group that a port uses has light; otherwise none of its codewords reach the neighbour (R452, R453). -/
def State.shines (s : State) (n : Nat) : Bool := (s.fab.ports[n]!).groups &&& ~~~(s.pow.litGroups n) == 0

/-- What goes out on a port leaves it only with light on all its lanes. -/
def State.emitPort (s : State) (n : Nat) (m : OutMsg) : State := if s.shines n then s.emit m else s

/-- Send over a transmitter of H that either input feeds; without light nothing leaves (R452, R453). -/
def State.emitH (s : State) (m : OutMsg) : State := if s.pow.hLit then s.emit m else s

/-- Device requests to host memory can proceed: link up, Bus Master Enable set, not in D3hot (R392, R431). -/
def HostSide.dma (h : HostSide) : Bool := h.pcieUp && h.busMaster && !h.d3hot

/-- Write host memory at a bus address. -/
def State.hostWrite (s : State) (a : Nat) (bs : List Byte) : State :=
  { s with mem := { s.mem with host := s.mem.host.setRange a bs } }

/-- A sideband frame (R397): length, channel, payload, CRC-32C over all earlier bytes. -/
def sidebandFrame (channel : Nat) (payload : List Byte) : List Byte :=
  let head := bytesOf 2 payload.length ++ bytesOf 1 channel ++ payload
  head ++ bytesOf 4 (crc32c head).toNat

/-- Text for the console, in frames of channel 1 (R397). -/
def consoleFrames (text : List Byte) : List OutMsg :=
  (List.range ((text.length + 65534) / 65535)).map fun i => .sideband (sidebandFrame 1 ((text.drop (65535 * i)).take 65535))

/-- Is an MSI-X vector masked by its table entry (offset 16n + 12, bit 0)? Every vector is masked after a reset (log 35). -/
def HostSide.masked (h : HostSide) (vec : Nat) : Bool :=
  match h.msix.find? (fun e => e.1 == 16 * vec + 8) with
  | some e => bitAt e.2.toNat 32
  | none => true

/-- Raise an MSI-X vector, or set its pending bit while it is masked. -/
def State.raiseMsix (s : State) (vec : Nat) : State :=
  if s.host.masked vec then
    { s with host := { s.host with msixPending := s.host.msixPending ||| (1 <<< vec : BitVec 64) } }
  else s.emit (.msix vec)

/-- Entries of the ring (Table 14.9). -/
def HostSide.evSize (h : HostSide) : Nat := 2 ^ h.evLog2.toNat

/-- The ring is full when head + 1 equals tail modulo its size (R413). -/
def HostSide.evFull (h : HostSide) : Bool := (h.evHead.toNat + 1) % h.evSize == h.evTail.toNat % h.evSize

/-- Change a mailbox. -/
def State.modBox (s : State) (m : Nat) (f : Mailbox → Mailbox) : State :=
  { s with host := { s.host with boxes := s.host.boxes.set! m (f s.host.boxes[m]!) } }

/-- A completion whose entry is written frees its mailbox (R399 step 4, R413). -/
def State.freeBox (s : State) : Option Nat → State
  | none => s
  | some m => s.modBox m fun b => { b with busy := false }

/-- Write one entry at the head, advance the head and signal it (R412). -/
def State.putEntry (s : State) (e : List Byte) (irq : Bool) (box : Option Nat) : State :=
  let h := s.host
  let e := splice e 3 (bytesOf 1 (ofBool h.evPhase))
  let s := s.hostWrite (h.evBase.toNat + 128 * h.evHead.toNat) e
  let nh := (h.evHead.toNat + 1) % h.evSize
  let s := { s with host := { s.host with evHead := BitVec.ofNat 16 nh, evPhase := if nh = 0 then !h.evPhase else h.evPhase,
                                          evDue := s.host.evDue || !irq } }
  let s := if irq then s.raiseMsix h.evVector.toNat else s
  s.freeBox box

/-- Move queued entries into the ring while there is room. -/
def State.pumpEvents : Nat → State → State
  | 0, s => s
  | n + 1, s =>
    if s.host.evEnable && s.host.dma && !s.host.evFull then
      match s.host.evQueue with
      | [] => s
      | (e, irq, box) :: rest =>
        State.pumpEvents n (({ s with host := { s.host with evQueue := rest } }).putEntry e irq box)
    else s

def State.pump (s : State) : State := s.pumpEvents s.host.evQueue.length

/-- The 128 bytes of an entry (Table 14.13); the phase bit is set when it is written. -/
def eventEntry (code box seq status rlen : Nat) (cookie payload : List Byte) : List Byte :=
  bytesOf 2 code ++ bytesOf 1 box ++ bytesOf 1 0 ++ bytesOf 4 seq ++ bytesOf 1 status ++ zeros 3 ++ bytesOf 4 rlen
    ++ padTo 16 cookie ++ padTo 64 payload ++ zeros 32

/-- Post an event: to the ring or its queue while the ring is enabled or the queue still holds entries, else to mailbox 8
(R397, R412, R413). Firmware posts nothing before Instar 1 has loaded it. -/
def State.post (s : State) (code : Nat) (payload : List Byte) : State :=
  let e := eventEntry code 0xFF s.host.evSeq 0 0 [] payload
  let s := { s with host := { s.host with evSeq := (s.host.evSeq + 1) % 4294967296 } }
  if !s.host.evEnable && s.host.evQueue.isEmpty then s.emitH (.sideband (sidebandFrame 0 e))
  else if s.host.evQueue.length ≥ 4096 then
    { s with host := { s.host with evLost := min (s.host.evLost + 1) 4294967295 } }
  else ({ s with host := { s.host with evQueue := s.host.evQueue ++ [(e, false, none)] } }).pump

/-! ### Addresses and flooding (R309, R336) -/

/-- The device's own fabric address. -/
def State.ownAddr (s : State) : BitVec 15 := BitVec.ofNat 15 (bitsAt s.fab.topo.toNat 16 15)

/-- Ports F0 to F5 that are up. -/
def Fabric.upPorts (f : Fabric) : List Nat := (List.range 6).filter fun n => f.ports[n]!.state == .up

/-- Remember an (origin, sequence) pair in the table of the last 256 (R336). -/
def Fabric.remember (f : Fabric) (origin seq : Nat) : Fabric :=
  { f with seen := (f.seen ++ [(origin, seq)]).drop (f.seen.length + 1 - 256) }

/-! ### Packets (R309, R313, R314, R317, R320, Table 11.2) -/

/-- Dimension sizes Dx, Dy, Dz of FAB_TOPO. -/
def Fabric.dims (f : Fabric) : List Nat := [bitsAt f.topo.toNat 0 5 + 1, bitsAt f.topo.toNat 5 5 + 1, bitsAt f.topo.toNat 10 5 + 1]

/-- Coordinate `d` (0 x, 1 y, 2 z) of an address. -/
def coord (addr d : Nat) : Nat := bitsAt addr (5 * d) 5

def setCoord (addr d v : Nat) : Nat := addr - (coord addr d <<< (5 * d)) + (v <<< (5 * d))

/-- The neighbour of a device on a port F0 to F5 (Table 11.1). -/
def Fabric.neighbourOf (f : Fabric) (addr port : Nat) : Nat :=
  let d := port / 2
  let n := f.dims.getD d 1
  setCoord addr d (if port % 2 = 0 then (coord addr d + 1) % n else (coord addr d + n - 1) % n)

/-- Packet types of Table 11.2. -/
def pktData : Nat := 1
def pktAck : Nat := 2
def pktControl : Nat := 3
def pktCheckpoint : Nat := 4
def pktTwin : Nat := 5
def pktOpen : Nat := 6

/-- The 32-byte header of a packet. -/
def packetHeader (type vc order flags : Nat) (last : Bool) (dst src len job opId index off lo hi : Nat) : List Byte :=
  let h := bytesOf 1 (type + 16 * vc) ++ bytesOf 1 (order + 8 * flags + 64 * ofBool last) ++ bytesOf 2 dst ++ bytesOf 2 src
    ++ bytesOf 2 len ++ bytesOf 4 job ++ bytesOf 4 opId ++ bytesOf 4 index ++ bytesOf 4 off ++ bytesOf 4 (lo + 32768 * hi)
  h ++ bytesOf 4 (crc32c h).toNat

/-- The packets that carry a block's bytes, or the payload of an open or acknowledge, in offset order (R320). `node` is the
tree node of a reduction's contribution. -/
def State.packetsOf (s : State) (type vc order dst opId index node : Nat) (bytes : List Byte) : List (List Byte) :=
  let parts := if bytes.isEmpty then [[]] else chunks 4096 bytes
  parts.zipIdx.map fun c =>
    packetHeader type vc order 0 (c.2 + 1 == parts.length) dst s.ownAddr.toNat c.1.length s.job.id.toNat opId index (4096 * c.2)
      node node ++ c.1

/-- A packet with its header CRC formed anew. -/
def reseal (p : List Byte) : List Byte := p.take 28 ++ bytesOf 4 (crc32c (p.take 28)).toNat ++ p.drop 32

/-- The virtual channel of a data packet from `src` on its hop out of `addr` (R314): VC 2 once this hop or an earlier one of the
same ring has passed the dateline, which lies between the last coordinate and 0 (DESIGN CHOICE, log 65). -/
def Fabric.hopVc (f : Fabric) (src addr port : Nat) : Nat :=
  if 6 ≤ port then 1
  else
    let d := port / 2
    let n := coord (f.neighbourOf addr port) d
    if port % 2 = 0 then (if n < coord src d then 2 else 1) else if coord src d < n then 2 else 1

/-- A packet travels on a data channel, VC 1 or VC 2 (R314). -/
def onData (p : List Byte) : Bool := bitsAt (natAt p 0 1) 4 2 == 1 || bitsAt (natAt p 0 1) 4 2 == 2

/-- A data packet with the virtual channel of its hop. -/
def Fabric.onHop (f : Fabric) (addr port : Nat) (p : List Byte) : List Byte :=
  if onData p then
    reseal (bytesOf 1 (natAt p 0 1 % 16 + 16 * f.hopVc (natAt p 4 2) addr port) ++ p.drop 1)
  else p

/-- A packet as a link of version 2 carries it: no dimension order and no tree nodes (R317). -/
def asV2 (p : List Byte) : List Byte :=
  reseal (p.take 1 ++ bytesOf 1 (natAt p 1 1 / 8 * 8) ++ sub p 2 22 ++ zeros 4 ++ p.drop 28)

/-- The link layer of a port numbers flits, forms their CRCs and keeps the last 4,096 (R313). -/
def Port.number (q : Port) (bodies : List (List Byte)) : Port :=
  let fs := bodies.zipIdx.map fun x =>
    let seq := q.txSeq + BitVec.ofNat 12 x.2
    (⟨seq, x.1, crc32c (bytesOf 2 seq.toNat ++ x.1)⟩ : Flit)
  let kept := q.kept ++ fs
  { q with txSeq := q.txSeq + BitVec.ofNat 12 bodies.length, kept := kept.drop (kept.length - 4096) }

def State.modPort (s : State) (n : Nat) (f : Port → Port) : State :=
  { s with fab := { s.fab with ports := s.fab.ports.set! n (f s.fab.ports[n]!) } }

/-- Packets go out on a port in flits (R313). -/
def State.linkOut (s : State) (n : Nat) (ps : List (List Byte)) : State :=
  let ps := if (s.fab.ports[n]!).v3 then ps else ps.map asV2
  let t := s.modPort n fun q => q.number (ps.flatMap Config.flitBodies)
  { t with out := t.out ++ [.packets (some n) ps] }

/-- Packets for a port wait in its send queues while it retrains (R318) or a lane it uses is dark (R453). -/
def State.portWaits (s : State) (n : Nat) : Bool := (s.fab.ports[n]!).state == .retraining || !s.shines n

/-- A packet of checkpoint traffic (R311). -/
def isCheckpoint (p : List Byte) : Bool := natAt p 0 1 % 16 == pktCheckpoint

/-- Packets leave on their port, or wait in its send queues (R314, R318). `v3`: a link of version 2 does not carry them; `arrival`: the port
on which packets that are forwarded came in. -/
def State.sendPackets (s : State) (port : Option Nat) (v3 : Bool) (arrival : Option Nat) (ps : List (List Byte)) : State :=
  match port with
  | none => s.emit (.packets none ps)
  | some n =>
    if s.portWaits n || ((s.fab.ports[n]!).starved && ps.any onData) then
      s.modPort n fun q => { q with sendq := q.sendq ++ ps.map fun p => ⟨p, v3, arrival⟩ }
    else s.linkOut n ps

/-- What waits in a port's send queues and need not wait leaves, checkpoint traffic before all else (R311, R314, R318). -/
def State.flushPort (s : State) (n : Nat) : State :=
  let q := s.fab.ports[n]!
  let may (w : Waiting) : Bool := !(q.starved && onData w.packet)
  let go := (q.sendq.filter may).map (·.packet)
  if s.portWaits n || go.isEmpty then s
  else (s.modPort n fun q => { q with sendq := q.sendq.filter fun w => !may w }).linkOut n
    (go.filter isCheckpoint ++ go.filter fun p => !isCheckpoint p)

/-- Packets waiting at a port are dropped; a forwarded one counts at the port on which it came in (R321). -/
def State.dropWaiting (s : State) (n : Nat) (lost : Waiting → Bool) : State :=
  let gone := (s.fab.ports[n]!).sendq.filter lost
  let s := s.modPort n fun q => { q with sendq := q.sendq.filter fun w => !lost w }
  (gone.filterMap (·.arrival)).foldl (fun s a => s.modPort a fun q => { q with drop := q.drop + 1 }) s

/-- Data packets of this device leave on their port, each on the virtual channel of this hop (R314). -/
def State.sendData (s : State) (port : Option Nat) (v3 : Bool) (ps : List (List Byte)) : State :=
  s.sendPackets port v3 none (match port with
    | none => ps
    | some n => ps.map (s.fab.onHop s.ownAddr.toNat n))

/-- The packets of a control-plane message on a port: the message's kind, hops, origin and sequence, then its payload; the
manual gives no layout of these, nor of the header's other fields (log 25). -/
def State.controlPackets (s : State) (n kind : Nat) (ctl : Ctl) (payload : List Byte) : List (List Byte) :=
  s.packetsOf pktControl 0 0 (s.fab.neighbourOf s.ownAddr.toNat n) ctl.seq 0 0
    (bytesOf 1 kind ++ bytesOf 1 ctl.hops ++ bytesOf 2 ctl.origin.toNat ++ bytesOf 4 ctl.seq ++ payload)

/-- A control-plane message leaves on ports. -/
def State.sendControl (s : State) (ports : List Nat) (kind : Nat) (ctl : Ctl) (payload : List Byte) : State :=
  ports.foldl (fun (s : State) n => s.sendPackets (some n) false none (s.controlPackets n kind ctl payload)) s

/-- A message for the partner of F6 or F7 (R311): twin traffic (type 5) on F6, checkpoint traffic (type 4) on F7, both on VC 3. -/
def State.toPartner (s : State) (n type opId index : Nat) (bytes : List Byte) : State :=
  s.sendPackets (some n) true none (s.packetsOf type 3 0 (if n = 6 then bitsAt s.fab.pair.toNat 0 15 else bitsAt s.fab.pair.toNat 16 15) opId index 0 bytes)

/-! ### Floods (R336) -/

/-- Send a control-plane message as a new flood with this device as origin (R336). -/
def State.flood (s : State) (kind : Nat) (payload : List Byte) : State :=
  let ctl : Ctl := ⟨s.ownAddr, s.fab.nextMsg, 0⟩
  let s := s.sendControl s.fab.upPorts kind ctl payload
  { s with fab := { s.fab.remember s.ownAddr.toNat s.fab.nextMsg with nextMsg := s.fab.nextMsg + 1 } }

/-- Forward a message on every up port but the one it came in on, unless it has made 48 hops (R336). -/
def State.forward (s : State) (port kind : Nat) (ctl : Ctl) (payload : List Byte) : State :=
  if ctl.hops + 1 ≥ 48 then s
  else s.sendControl (s.fab.upPorts.filter (· != port)) kind { ctl with hops := ctl.hops + 1 } payload

/-! ### Jobs (R405 to R408) -/

/-- Job state code of event 0x0E01. -/
def JobState.code : JobState → Nat
  | .none => 0 | .created => 1 | .loaded => 2 | .running => 3 | .paused => 4 | .ended => 5

/-- Step tags of the resident and partner virtual cores of the job. -/
def State.stepTags (s : State) : List Nat :=
  coreNums.flatMap fun p =>
    let c := s.core p
    (c.own.toList ++ c.partner.toList).map fun v => v.stepTag.toNat

def minOf : List Nat → Nat
  | [] => 0
  | x :: xs => xs.foldl min x

/-- Event 0x0E01, posted at every change of state (R406). -/
def State.postJob (s : State) (reason : Nat) : State :=
  let digest := match s.job.state with
    | .loaded | .running | .paused | .ended => padTo 32 s.job.digest
    | _ => zeros 32
  s.post 0x0E01 (bytesOf 4 s.job.id.toNat ++ bytesOf 1 s.job.state.code ++ bytesOf 1 reason ++ zeros 2
    ++ bytesOf 4 (minOf s.stepTags) ++ zeros 4 ++ digest)

def State.setJobState (s : State) (st : JobState) (reason : Nat) : State :=
  ({ s with job := { s.job with state := st, started := s.job.started || st == JobState.running } }).postJob reason

/-- The payload of a kind 0x02 message (Table 14.12). -/
def jobMessage (id epoch op reason origin : Nat) : List Byte :=
  bytesOf 4 id ++ bytesOf 4 epoch ++ bytesOf 1 op ++ bytesOf 1 reason ++ bytesOf 2 origin ++ zeros 4

/-- Pause every rank on the device's own account (R192, R407): flood the pause at the highest applied epoch plus one and
apply it. A job that is not running stays as it is. -/
def State.pauseAll (s : State) (reason : Nat) : State :=
  if s.job.state = .running then
    let e := s.job.epoch + 1
    let s := s.flood 2 (jobMessage s.job.id.toNat e 1 reason s.ownAddr.toNat)
    ({ s with job := { s.job with epoch := e, epochOp := 1 } }).setJobState .paused reason
  else s

/-- Slots that an ingest event holds start again from their index entry when the job resumes (R256). -/
def Ingest.restart (i : Ingest) : Ingest :=
  { i with slots := i.slots.map fun x =>
      if x.phase = .held then { x with phase := .entry, entry := [], src := [], init := [], hit := false, blocked := none, written := 0 } else x }

/-- The job runs on, under a new epoch's operation (R256, R407). -/
def State.runOn (s : State) (reason : Nat) : State := 
  ({ s with ing := s.ing.restart, rep := { s.rep with settling := false, halted := false } }).setJobState .running reason

/-- Resume every rank (R351, R407). -/
def State.resumeAll (s : State) (reason : Nat) : State :=
  if s.job.state = .paused then
    let e := s.job.epoch + 1
    let s := s.flood 2 (jobMessage s.job.id.toNat e 2 reason s.ownAddr.toNat)
    ({ s with job := { s.job with epoch := e, epochOp := 2 } }).runOn reason
  else s

/-- Charge a Cairn bucket with events of each kind (R352). -/
def State.charge (s : State) (b d1 d2 d3 : Nat) : State :=
  let k := s.chk.buckets[b]!
  { s with chk := { s.chk with buckets := s.chk.buckets.set! b { k with d1 := k.d1 + d1, d2 := k.d2 + d2, d3 := k.d3 + d3 } } }

/-- Every accepted task of every core has ended and every virtual core's strands have halted (R168, R406). -/
def State.jobComplete (s : State) : Bool :=
  (coreNums.any fun p => (s.core p).own.isSome) &&
  coreNums.all fun p =>
    let c := s.core p
    (c.test.isSome || c.tasks.isEmpty) && (c.own.toList ++ c.partner.toList).all fun v => v.liveStrands.isEmpty

/-- Firmware reports a job whose every virtual core is complete (R168, R406), also one that is paused. -/
def State.checkComplete (s : State) : State :=
  if (s.job.state = .running || s.job.state = .paused) && s.jobComplete then s.setJobState .ended 6 else s

/-! ### Power domains (R433 to R435, Table 15.5) -/

/-- The fuse map disables the domain's unit (R433). -/
def Fuses.off (f : Fuses) (d : Nat) : Bool :=
  if d < 80 then f.cores[d / 4]! == .disabled
  else if d < 112 then !bitAt f.slices.toNat (d - 80)
  else if 120 ≤ d ∧ d < 144 then !bitAt f.channels.toNat (d - 120)
  else false

/-- Fin-valued domain of number d. -/
def dom (d : Nat) : Fin 148 := Fin.ofNat 148 d

/-- Set domains on, unless fused off or in FAULT. -/
def Power.powerUp (w : Power) (ds : List (Fin 148)) : Power :=
  ds.foldl (fun (w : Power) (d : Fin 148) =>
    if w.fuses.off d.val || w.domains[d] = .fault then w
    else { w with domains := w.domains.set d .on, reqs := w.reqs ||| BitVec.ofNat 148 (2 ^ d.val) }) w

/-- A domain that can be powered. -/
def Power.domainOk (w : Power) (d : Fin 148) : Bool := !w.fuses.off d.val && w.domains[d] != .fault

/-- State after a request of 1. -/
def DomState.reqOn : DomState → DomState
  | .off => .poweringOn
  | .poweringOff => .offPendingOn
  | .onPendingOff => .poweringOn
  | d => d

/-- State after a request of 0. -/
def DomState.reqOff : DomState → DomState
  | .poweringOn => .onPendingOff
  | .on => .poweringOff
  | .offPendingOn => .poweringOff
  | d => d

/-- State when the sequence in progress ends. -/
def DomState.seqEnd : DomState → DomState
  | .poweringOn => .on
  | .poweringOff => .off
  | .offPendingOn => .poweringOn
  | .onPendingOff => .poweringOff
  | d => d

def State.setDomain (s : State) (d : Fin 148) (x : DomState) : State :=
  { s with pow := { s.pow with domains := s.pow.domains.set d x } }

/-- A request at a domain, ignored by a fused-off one and by one in FAULT. -/
def Power.request (w : Power) (d : Fin 148) (on : Bool) : Power :=
  if !w.domainOk d then w
  else
    let bit := BitVec.ofNat 148 (2 ^ d.val)
    { w with reqs := if on then w.reqs ||| bit else w.reqs &&& ~~~bit,
             domains := w.domains.set d (if on then w.domains[d].reqOn else w.domains[d].reqOff) }

/-- Ask for domains, as the stage of bring-up that uses them begins. -/
def Power.ask (w : Power) (ds : List (Fin 148)) : Power := ds.foldl (fun (w : Power) d => w.request d true) w

/-- A domain holds state of the job (R435): a core's with a resident virtual core, an enabled GDDR7 channel's, a linked expander's, that of a
fabric port that is up. -/
def State.domainNeeded (s : State) (d : Nat) : Bool :=
  s.job.state != .none && s.job.state != .ended &&
    if d < 80 then let c := s.core (Fin.ofNat 20 (d / 4)); c.v.isSome && c.test.isNone
    else if d < 112 then false
    else if d < 120 then (s.fab.ports[d - 112]!).state == .up
    else if d < 144 then bitAt s.mem.channels.toNat (d - 120)
    else bitAt s.mem.screeLinked.toNat (d - 144)

/-- A request of firmware, which powers off no domain that holds state of the job. -/
def State.domainRequest (s : State) (d : Fin 148) (on : Bool) : State :=
  if !on && s.domainNeeded d.val then s else { s with pow := s.pow.request d on }

/-- Decode slices that are ON go off while no sample is assigned to them and idle ones are not kept on (R435). -/
def State.idleSlices (s : State) : State :=
  if s.pow.sliceIdleOff then (List.range 32).foldl (fun (s : State) n => s.domainRequest (dom (80 + n)) false) s else s

/-- Firmware powers a core's four domains before it first uses the core (R435). The sequence's time is timing only, so the domains are ON at
once (log 66). -/
def State.powerCore (s : State) (p : Fin 20) : State :=
  { s with pow := s.pow.powerUp ((List.range 4).map fun i => dom (4 * p.val + i)) }

end Sys2Proof.Machine
end

