-- ==== Sys2Proof/Machine/Operands.lean ====
section
/-! DEFINITION. Instruction words: fields, operand addresses (Tables 6.1, 6.2, 6.4), the checks of R180 to R182, and the engine
lanes (R102, R159). -/

namespace Sys2Proof.Machine

/-- The 128-bit word of an instruction row: the row's opcode below the operand bits [127:10] (Table 6.1). -/
def wordOf (ops : BitVec 118) (opcode : Nat) : IWord := ops ++ BitVec.ofNat 10 opcode

/-- A word with `len` bits at `lo` replaced. -/
def withBits (w : IWord) (lo len v : Nat) : IWord :=
  BitVec.ofNat 128 (w.toNat - (bitsAt w.toNat lo len <<< lo) + ((v % 2 ^ len) <<< lo))

/-- A field of a word. -/
def fld (w : IWord) (lo len : Nat) : Nat := bitsAt w.toNat lo len

def flag (w : IWord) (i : Nat) : Bool := bitAt w.toNat i

/-- One rule about an encoding: does it hold, and the lowest bit of the field it is about. -/
abbrev EncCheck := Bool × Nat

/-- The lowest bit position among the rules that fail (CORE_FAULT_INFO for 0x01). -/
def firstBad (cs : List EncCheck) : Option Nat :=
  match cs.filter fun c => !c.1 with
  | [] => none
  | c :: rest => some (rest.foldl (fun a d => min a d.2) c.2)

/-- Reserved bits [127:lo] hold zero. -/
def resvFrom (w : IWord) (lo : Nat) : EncCheck := (w.toNat >>> lo == 0, lo)

/-- The rules of Table 6.1: dclass is the opcode's class, bits [23:19] are zero. -/
def commonChecks (w : IWord) (classV : Bool) : List EncCheck := [(flag w 10 == classV, 10), (fld w 19 5 == 0, 19)]

/-- A byte address: unit times scale plus the signed X register (Table 6.2). -/
def addrOf (x : Vector Word 7) (unit scale xsel : Nat) : Int := (unit * scale : Nat) + (xreg x xsel).toInt

/-- TA operand at bit `lo`: 64-byte units. -/
def taAt (w : IWord) (x : Vector Word 7) (lo : Nat) : Int := addrOf x (fld w lo 19) 64 (fld w (lo + 19) 3)

/-- WA operand at bit `lo`: 8-byte units. -/
def waAt (w : IWord) (x : Vector Word 7) (lo : Nat) : Int := addrOf x (fld w lo 22) 8 (fld w (lo + 22) 3)

/-- PR operand at bit `lo`: 32-byte units. -/
def prAt (w : IWord) (x : Vector Word 7) (lo : Nat) : Int := addrOf x (fld w lo 20) 32 (fld w (lo + 20) 3)

/-- An address formed from an index register is aligned to its kind's unit (R181). -/
def alignedTo (a : Int) (unit : Nat) (lo : Nat) : EncCheck := (a % (unit : Int) == 0, lo)

/-! ### Engine lanes -/

/-- The running slots with queues of one: passes, drains and broadcast loads of the array, the vector engine, the reduction
unit (R102, R125, R159). -/
inductive LaneId where
  | pass
  | drain
  | load
  | ve
  | ru
  deriving DecidableEq, Repr

def Core.lane (c : Core) : LaneId → Lane
  | .pass => c.pass | .drain => c.drain | .load => c.load | .ve => c.ve | .ru => c.ru

def Core.setLane (c : Core) (l : LaneId) (x : Lane) : Core :=
  match l with
  | .pass => { c with pass := x } | .drain => { c with drain := x } | .load => { c with load := x }
  | .ve => { c with ve := x } | .ru => { c with ru := x }

/-- The lane an instruction takes; a wavefront MLOAD and MSWAP take none. -/
def laneOf (w : IWord) : Option LaneId :=
  let op := fld w 0 10
  if op = 0x020 || op = 0x021 then some .pass
  else if op = 0x022 then (if flag w 30 then none else some .load)
  else if op = 0x024 then some .drain
  else if (0x030 ≤ op && op ≤ 0x036) || op = 0x200 then some .ve
  else if op = 0x040 then some .ru
  else none

/-- The next instruction of a lane that is still to take effect. -/
def Lane.head (l : Lane) : Option QInstr := l.held.or l.queued

/-- The queued pass is held behind a flip, and nothing runs before it in cycle `t`: it has the array (R105). -/
def Lane.yields (l : Lane) (t : Nat) : Bool := l.held.isNone && decide (l.freeAt ≤ t) && match l.queued with
  | some q => q.swaps != 0
  | none => true

/-- A lane after its next instruction has taken effect. -/
def Lane.pop (l : Lane) : Lane := match l.held with
  | some _ => { l with held := none }
  | none => { l with queued := none }

/-- Instructions of a lane that have issued and are still to take effect, oldest first. -/
def Lane.pending (l : Lane) : List QInstr := l.held.toList ++ l.queued.toList

/-- The lane's running slot after an instruction that takes effect: free for a successor from one cycle, done from another. -/
def Core.occupy (c : Core) (l : LaneId) (free done : Nat) : Core :=
  let lane := c.lane l
  c.setLane l { lane with freeAt := free, doneAt := max lane.doneAt done }

/-- The cycle f of an MSWAP (R105). -/
def Core.flipCycle (c : Core) (sw : Swap) : Nat := max (sw.issued + 1) (max c.fillAt (c.lastMultiply + 1))

/-- A byte address as CORE_FAULT_INFO shows it. -/
def infoAddr (a : Int) : Nat := (a % (2 : Int) ^ 64).toNat

end Sys2Proof.Machine
end

