-- ==== Sys2Proof/Machine/Flags.lean ====
section
/-! DEFINITION. The arithmetic flag registers CORE_AFLAGS and CORE_AFLAGS_SET (R68 to R73). -/

namespace Sys2Proof.Machine

/-- CORE_AFLAGS as read (Table 2.10): the resident virtual core's flags and a copy of the job's ftz bit. -/
def State.aflags (s : State) (p : Fin 20) : Nat :=
  (match (s.core p).v with
    | some v => v.flags.bits
    | none => 0) + 256 * ofBool s.job.ftz

/-- Write 1 to clear (R72). -/
def ArithFlags.clear (f : ArithFlags) (n : Nat) : ArithFlags :=
  ⟨f.ftz && !bitAt n 0, f.ovf && !bitAt n 1, f.isat && !bitAt n 2, f.inv && !bitAt n 3⟩

/-- R73. Writing 1 to a bit of CORE_AFLAGS_SET sets the flag; 0 has no effect; bits [31:4] are ignored. -/
def execCoreAflagsSet (core : Fin 20) (value : Word) (s : State) : Host.Outcome State Fault Refusal :=
  .next (s.modV core fun v => v.addFlags (.ofBits value.toNat))

end Sys2Proof.Machine
end

