-- ==== Sys2Proof/Machine/Audit.lean ====
section
/-! DEFINITION. When a value is visible: reads before a write's visible cycle and writes out of order (R103, R126, R161), and
the two audit modes (R194 to R196). Core storage holds the value after every write issued so far; a write whose value is not
yet visible stands in `accesses` with the earlier contents. -/

namespace Sys2Proof.Machine

/-- The strand raises a fault at its current instruction. -/
def State.fault (s : State) (p : Fin 20) (k : Fin 128) (code opcode info : Nat) : State :=
  s.modCore p fun c =>
    let pc := match c.v with
      | some v => v.strands[k].pc.toNat
      | none => 0
    (c.raise code k.val opcode pc info).modV fun v => v.modStrand k fun st => { st with faulted := some c.cycle }

/-- An access of `len` cells of a space, in a cycle. -/
def Access.read (space : Space) (lo len cycle : Nat) (k : Fin 128) (pc : BitVec 16) : Access :=
  ⟨space, lo, len, false, cycle, cycle, k.val, pc.toNat, false, []⟩

def Access.put (space : Space) (lo len cycle visible : Nat) (k : Fin 128) (pc : BitVec 16) (ru : Bool := false) : Access :=
  ⟨space, lo, len, true, cycle, visible, k.val, pc.toNat, ru, []⟩

def Access.covers (a : Access) (space : Space) (x : Nat) : Bool :=
  a.space == space && decide (a.lo ≤ x) && decide (x < a.lo + a.len)

/-- The first write of cell `x` to become visible after cycle `r`. -/
def laterWrite (log : List Access) (space : Space) (x : Nat) (after : Access → Bool) : Option Access :=
  (log.filter fun a => a.write && a.covers space x && after a).foldl (fun best a => match best with
    | none => some a
    | some b => if a.visible < b.visible then some a else some b) none

/-- A cell as a reader in cycle `r` takes it: the earlier contents while a write is not visible (R161); a read in the cycle of
the write returns the old value, so `visible` is the first cycle that sees the new one. -/
def Mem.readAt {w : Nat} (m : Mem w) (log : List Access) (space : Space) (x r : Nat) : BitVec w :=
  match laterWrite log space x fun a => decide (r < a.visible) with
  | some a => BitVec.ofNat w (a.old[x - a.lo]?.getD 0)
  | none => m.get x

/-- `n` cells from `x` as a reader in cycle `r` takes them. -/
def Mem.readRange {w : Nat} (m : Mem w) (log : List Access) (space : Space) (x n r : Nat) : List (BitVec w) :=
  if log.any fun a => a.write && a.space == space && decide (r < a.visible) then
    (List.range n).map fun i => m.readAt log space (x + i) r
  else m.getRange x n

/-- Replace one earlier value in the log. -/
def patchOld (log : List Access) (a : Access) (x v : Nat) : List Access :=
  match log with
  | [] => []
  | b :: bs => if b == a then { b with old := b.old.set (x - b.lo) v } :: bs else b :: patchOld bs a x v

/-- Does a write already standing for the cell end up over the new one: it is visible later, or in the same cycle and is the
reduction unit's (R161)? -/
def Access.outlives (a b : Access) : Bool :=
  decide (b.visible < a.visible) || (decide (b.visible = a.visible) && a.ru && !b.ru)

/-- Write one cell as part of access `a`: the memory or, under a later visible write, that write's earlier contents. Answers
also the cell's value before. -/
def writeCell {w : Nat} (m : Mem w) (log : List Access) (a : Access) (x : Nat) (v : BitVec w) : Mem w × List Access × Nat :=
  match laterWrite log a.space x fun b => b.outlives a with
  | some b => (m, patchOld log b x v.toNat, b.old[x - b.lo]?.getD 0)
  | none => (m.set x v, log, (m.get x).toNat)

def writeCells {w : Nat} (a : Access) : List (BitVec w) → Nat → Mem w → List Access → Mem w × List Access × List Nat
  | [], _, m, log => (m, log, [])
  | v :: vs, x, m, log =>
    let (m, log, o) := writeCell m log a x v
    let (m, log, os) := writeCells a vs (x + 1) m log
    (m, log, o :: os)

/-- Write consecutive cells of access `a` and put it in the log with the contents before. -/
def Mem.writeAt {w : Nat} (m : Mem w) (log : List Access) (a : Access) (vs : List (BitVec w)) : Mem w × List Access :=
  if log.any fun b => b.write && b.space == a.space && b.outlives a then
    let (m, log, os) := writeCells a vs a.lo m log
    (m, log ++ [{ a with old := os }])
  else (m.setRange a.lo vs, log ++ [{ a with old := (m.getRange a.lo vs.length).map BitVec.toNat }])

/-- Records that no reader and no audit needs any more go; a stationary set that a wavefront load replaced stays until row 31 has
multiplied the last token of the pass before (R106). -/
def Core.pruneAccesses (c : Core) (race : Bool) : Core :=
  { c with accesses := c.accesses.filter fun a => decide (c.cycle < a.visible),
           oldSets := c.oldSets.filter fun o => decide (c.cycle < o.1 + 64),
           tags := c.tags.filter fun a => (a.write && decide (c.cycle < a.visible)) || (race && decide (c.cycle ≤ a.cycle + 4096)),
           tokenOps := if race then c.tokenOps.filter fun o => decide (c.cycle ≤ o.cycle + 4096) else [] }

/-- Cells of one audited unit: a 64-byte granule of tile memory, a mask register of 8,192 bits, one slot or element (R195). -/
def Space.grain : Space → Nat
  | .tile => 64
  | .mask => 8192
  | _ => 1

/-- Two accesses touch a common unit. -/
def Access.meets (a b : Access) (grain : Nat) : Bool :=
  a.space == b.space && decide (a.lo / grain ≤ (b.lo + b.len - 1) / grain) && decide (b.lo / grain ≤ (a.lo + a.len - 1) / grain)
    && decide (0 < a.len) && decide (0 < b.len)

/-- Latency audit: the first read that would take a value before its visible cycle, as CORE_FAULT_INFO (R195): the address at which the
read starts, a byte address of tile or accumulator memory, and the flat slot or bit number of a tile or mask register (DESIGN
CHOICE, log 70). -/
def Core.earlyRead (c : Core) (reads : List Access) : Option Nat :=
  reads.findSome? fun r =>
    match c.tags.find? fun w => w.write && w.meets r r.space.grain && decide (r.cycle < w.visible) with
    | some w => some ((if r.space == .acc then 4 * r.lo else r.lo) % 4294967296 + 4294967296 * (w.visible % 4294967296))
    | none => none

/-- The unit the race audit watches: a 64-byte granule or a tile register (R196). -/
def Space.raceGrain : Space → Nat
  | .tile => 64
  | .treg => 1024
  | _ => 1

def Access.races (a b : Access) : Bool :=
  (a.space == .tile || a.space == .treg || a.space == .stepTag) && a.meets b a.space.raceGrain
    && a.strand != b.strand && (a.write || b.write) && decide (a.cycle ≤ b.cycle + 4096) && decide (b.cycle ≤ a.cycle + 4096)

/-- Race audit: the pairs that new accesses form with those kept (R196); each becomes a record once both accesses have happened
(`Core.settleRaces`). -/
def Core.auditRaces (c : Core) (news : List Access) : Core :=
  news.foldl (fun c n =>
    { c with raceDue := c.raceDue ++ (c.tags.filter fun a => a.races n).map fun a => { first := a, second := n, ops := [] } }) c

/-- Accesses of an issued instruction or of a task are recorded while an audit mode is on: their conflicting pairs, and the
accesses themselves. -/
def State.noteAccesses (s : State) (p : Fin 20) (news : List Access) : State :=
  if s.job.latAudit || s.job.raceAudit then
    s.modCore p fun c =>
      let c := if s.job.raceAudit then c.auditRaces news else c
      { c with tags := c.tags ++ news }
  else s

/-- An instruction that would read and write so issues now: instead of issuing, the early-read fault of R195, or it goes on
and its accesses are recorded. -/
def State.audit (s : State) (p : Fin 20) (k : Fin 128) (opcode : Nat) (reads writes : List Access) (go : State → State) :
    State :=
  match (if s.job.latAudit then (s.core p).earlyRead reads else none) with
  | some info => s.fault p k 0x0A opcode info
  | none => go (s.noteAccesses p (reads ++ writes))

/-- A token operation for the race audit's records. -/
def State.noteToken (s : State) (p : Fin 20) (o : TokenOp) : State :=
  if s.job.raceAudit then s.modCore p fun c => { c with tokenOps := c.tokenOps ++ [o] } else s

/-! ### Reads and writes of core storage in a cycle -/

/-- The step tag as an instruction issued in cycle `r` reads it: a STEP is seen from the next cycle (R176). -/
def Core.stepTagAt (c : Core) (v : VCore) (r : Nat) : Nat :=
  match laterWrite c.accesses .stepTag 0 fun a => decide (r < a.visible) with
  | some a => a.old.headD 0
  | none => v.stepTag.toNat

/-- `n` bytes of tile memory as read in cycle `r`. -/
def Core.tileAt (c : Core) (v : VCore) (a n r : Nat) : List Byte := v.tile.readRange c.accesses .tile a n r

/-- Write tile memory with the value visible from a cycle on. -/
def Core.putTile (c : Core) (a : Nat) (bs : List Byte) (acc : Access) : Core :=
  match c.v with
  | none => c
  | some v =>
    (writableRuns v.tileBad a bs).foldl (fun c r => match c.v with
      | none => c
      | some v =>
        let (m, log) := v.tile.writeAt c.accesses { acc with lo := r.1, len := r.2.length } r.2
        { c with v := some { v with tile := m }, accesses := log })
      { c with v := some { v with tileBad := clearBad v.tileBad a bs.length, tileSoft := clearBad v.tileSoft a bs.length } }

/-- Write tile-register slots (1,024 per register, flat). -/
def Core.putSlots (c : Core) (lo : Nat) (vs : List Word) (acc : Access) : Core :=
  match c.v with
  | none => c
  | some v =>
    let (m, log) := v.vt.writeAt c.accesses { acc with lo := lo, len := vs.length } vs
    { c with v := some { v with vt := m, vtBad := v.vtBad.filter fun q => decide (q < lo) || decide (lo + vs.length ≤ q) },
             accesses := log }

/-- Write mask bits (8,192 per register, flat). -/
def Core.putMask (c : Core) (lo : Nat) (vs : List (BitVec 1)) (acc : Access) : Core :=
  match c.v with
  | none => c
  | some v =>
    let (m, log) := v.vm.writeAt c.accesses { acc with lo := lo, len := vs.length } vs
    { c with v := some { v with vm := m }, accesses := log }

/-- Write 4-byte accumulator words. An 8-byte word written whole loses its uncorrectable state (R122). -/
def Core.putAcc (c : Core) (lo : Nat) (vs : List Word) (acc : Access) : Core :=
  match c.v with
  | none => c
  | some v =>
    let (m, log) := v.acc.writeAt c.accesses { acc with lo := lo, len := vs.length } vs
    let keep (w : Nat) : Bool := !(decide (lo ≤ 2 * w) && decide (2 * w + 2 ≤ lo + vs.length))
    { c with v := some { v with acc := m, accBad := v.accBad.filter keep, accSoft := v.accSoft.filter keep }, accesses := log }

/-- Write cells of a space with an access's timing: bytes, slots, mask bits or accumulator words as naturals. -/
def Core.putCells (c : Core) (vals : List Nat) (acc : Access) : Core :=
  match acc.space with
  | .tile => c.putTile acc.lo (vals.map (BitVec.ofNat 8)) acc
  | .treg => c.putSlots acc.lo (vals.map (BitVec.ofNat 32)) acc
  | .mask => c.putMask acc.lo (vals.map (BitVec.ofNat 1)) acc
  | .acc => c.putAcc acc.lo (vals.map (BitVec.ofNat 32)) acc
  | .stepTag => c

/-- Bits of one cell of a space. -/
def Space.bits : Space → Nat
  | .tile => 8 | .treg => 32 | .mask => 1 | .acc => 32 | .stepTag => 32

/-- The cells of an access become undefined, by event `e`, with the access's timing. -/
def Core.undefineCells (c : Core) (e : Nat) (a : Access) : Core :=
  c.putCells ((List.range a.len).map fun i => (Config.undef a.space.bits e (a.lo + i)).toNat) { a with old := [] }

/-! ### Errors that a read meets (R122, R286, Table 6.7) -/

/-- The uncorrectable error that an access of core storage meets: fault code and CORE_FAULT_INFO. A tile-register slot is an error
unit of its own (log 64). -/
def VCore.badAccess (v : VCore) (a : Access) : Option (Nat × Nat) :=
  match a.space with
  | .tile => (if a.write then badPart v.tileBad a.lo a.len else badWord v.tileBad a.lo a.len).map fun x => (0x0B, x)
  | .treg => if a.write then none
    else (v.vtBad.find? fun q => decide (a.lo ≤ q) && decide (q < a.lo + a.len)).map fun q => (0x0B, 4 * q)
  | .acc => if a.write then none
    else (v.accBad.find? fun w => decide (a.lo ≤ 2 * w + 1) && decide (2 * w < a.lo + a.len)).map fun w => (9, 8 * w)
  | _ => none

/-- The column whose bank holds 8-byte word `w` of the accumulator image, in a tile of FP32 pairs or not (R121; DEDUCED, log 69). -/
def accColumn (pair : Bool) (w : Nat) : Nat := if pair then w % 32 else 2 * w % 32

/-- An uncorrectable read, or part write, of tile memory charges the core's SRAM bucket (Table 12.6). -/
def State.chargeTile (s : State) (p : Fin 20) : State := s.charge (24 + p.val) 0 1 0

/-- SEC-DED corrects the correctable errors that reads, and writes of part of a tile-memory word, meet: each counts, charges the core's SRAM-correction bucket and is written
back (R122, R286); an accumulator's write-back takes its column's port (R109). -/
def State.correct (s : State) (p : Fin 20) (pair : Bool) (accs : List Access) : State :=
  match (s.core p).v with
  | none => s
  | some v =>
    if accs.isEmpty || (v.tileSoft.isEmpty && v.accSoft.isEmpty) then s
    else
      let tile := v.tileSoft.filter fun w => accs.any fun a => a.space == .tile && decide (a.lo < 8 * w + 8) && decide (8 * w < a.lo + a.len)
        && (!a.write || decide (8 * w < a.lo) || decide (a.lo + a.len < 8 * w + 8))
      let acc := v.accSoft.filter fun w => accs.any fun a => a.space == .acc && !a.write && decide (a.lo ≤ 2 * w + 1) && decide (2 * w < a.lo + a.len)
      (s.modCore p fun c =>
        let c := c.modV fun v => { v with tileSoft := v.tileSoft.filter fun w => !tile.contains w,
                                          accSoft := v.accSoft.filter fun w => !acc.contains w }
        { c with tmCorr := c.tmCorr + tile.length, accfix := c.accfix + acc.length,
                 ports := acc.foldl (fun ps w => ps.set! (accColumn pair w)
                   { ps[accColumn pair w]! with wants := ps[accColumn pair w]!.wants + 1 }) c.ports }).charge
        (24 + p.val) (tile.length + acc.length) 0 0

/-! ### Overlaps of tasks' accesses that no token orders (R211) -/

/-- What the bytes `a` to `a + n - 1` of an access share with earlier accesses (first, length, write), one of each pair a write. -/
def crossing (write : Bool) (a n : Nat) (others : List (Nat × Nat × Bool)) : List (Nat × Nat) :=
  others.filterMap fun o =>
    let lo := max a o.1
    let hi := min (a + n) (o.1 + o.2.1)
    if (write || o.2.2) && decide (lo < hi) then some (lo, hi - lo) else none

/-- Bytes of tile memory take undefined values, as one event. -/
def State.blur (s : State) (p : Fin 20) (runs : List (Nat × Nat)) : State :=
  if runs.isEmpty then s
  else
    let (e, s) := s.fresh
    s.modV p fun v => { v with tile := runs.foldl (fun m r => m.refill r.1 r.2 (.undef e)) v.tile }

/-- Bytes of a stream-engine buffer, which FEED and the array share in the order of the ring (R210). -/
def VCore.inRing (v : VCore) (a n : Nat) : Bool := v.buffers.toList.any fun b => decide (b.base ≤ a) && decide (a + n ≤ b.base + b.size)

/-- The tile-memory accesses among `accs` to which R211 applies, while tasks are accepted. -/
def Core.tileAccs (c : Core) (accs : List Access) : List Access := match c.v with
  | none => []
  | some v => if c.tasks.isEmpty then [] else accs.filter fun a => a.space == .tile && a.len != 0 && !v.inRing a.lo a.len

/-- What instructions' accesses share with those of the accepted tasks. -/
def Core.crossings (c : Core) (accs : List Access) : List (Nat × Nat) :=
  (c.tileAccs accs).flatMap fun a => c.tasks.flatMap fun t => crossing a.write a.lo a.len t.touched

/-- Instructions access tile memory: no token orders that with a task from its issue to its end, so bytes that the task has written are
undefined to a read (R211; log 67). -/
def State.arrive (s : State) (p : Fin 20) (accs : List Access) : State :=
  let c := s.core p
  if (c.tileAccs accs).isEmpty then s
  else
    let seen := (c.tileAccs accs).map fun a => (a.lo, a.len, a.write)
    (s.modCore p fun c => { c with tasks := c.tasks.map fun t => { t with met := t.met ++ seen } }).blur p
      (c.crossings (accs.filter fun a => !a.write))

/-- An instruction has written: bytes that an accepted task has accessed are undefined (R211). -/
def State.leave (s : State) (p : Fin 20) (accs : List Access) : State := s.blur p ((s.core p).crossings accs)

/-- An instruction reads when it issues. -/
def State.readNow (s : State) (p : Fin 20) (accs : List Access) : State := (s.arrive p accs).correct p false accs

/-- The virtual core of a core as it stands now. -/
def State.vNow (s : State) (p : Fin 20) (v : VCore) : VCore := (s.core p).v.getD v

/-! ### Running instructions -/

/-- A running instruction of whose destination a read's uncorrectable error leaves nothing defined, or of which a write met one
(Table 6.7): its fault, once, and for a read its destination becomes undefined, what it has written already included. -/
def State.failRun (s : State) (p : Fin 20) (r : Run) (fault : Nat × Nat) (read : Bool) : State × Run :=
  let s := if r.failed then s
    else s.modCore p fun c => c.raise fault.1 r.q.strand.val (fld r.q.word 0 10) r.q.pc.toNat fault.2
  let r := { r with failed := true }
  if !read || r.undef.isSome then (s, r)
  else
    let (e, s) := s.fresh
    (s.modCore p fun c => r.wrote.foldl (fun (c : Core) a => c.undefineCells e { a with cycle := c.cycle, visible := c.cycle }) c,
     { r with undef := some e })

/-- What a running instruction accesses meets the errors that stand there. -/
def State.meetErrors (s : State) (p : Fin 20) (r : Run) (pair : Bool) (accs : List Access) : State × Run :=
  let s := s.correct p pair accs
  match (s.core p).v.bind fun v => accs.findSome? fun a => (v.badAccess a).map fun f => (f, a) with
  | none => (s, r)
  | some (f, a) => s.failRun p r f (!a.write)

/-- A running instruction accesses core storage in this cycle: tasks' overlaps (R211), then the errors. -/
def State.meet (s : State) (p : Fin 20) (r : Run) (pair : Bool) (accs : List Access) : State × Run := (s.arrive p accs).meetErrors p r pair accs

/-- A running instruction writes cells with an access's timing; its undefined destination takes undefined values. -/
def State.putRun (s : State) (p : Fin 20) (r : Run) (a : Access) (vals : List Nat) : State × Run :=
  let a := { a with len := vals.length }
  let (s, r) := s.meet p r false [a]
  ((s.modCore p fun c => match r.undef with
    | some e => c.undefineCells e a
    | none => c.putCells vals a).leave p [a], { r with wrote := a :: r.wrote })

/-- New flags of a running instruction; one whose destination is undefined leaves them. -/
def State.runFlags (s : State) (p : Fin 20) (r : Run) (f : ArithFlags) : State :=
  if r.undef.isSome then s else s.modV p fun v => v.addFlags f

/-- An instruction comes into effect at `t0`. -/
def Run.start (q : QInstr) (t0 : Nat) (todo : List (List (Nat × Piece))) : Run :=
  { q, t0, todo, undef := none, setUndef := none, failed := false, wrote := [], bytes := [], words := [], scales := [], biases := [],
    bounds := .off, tap := [], carry := 0, total := 0, seen := [] }

/-- A read, or a write, of running instruction `r`. -/
def Run.read (r : Run) (space : Space) (lo len cycle : Nat) : Access := .read space lo len cycle r.q.strand r.q.pc
def Run.put (r : Run) (space : Space) (lo cycle visible : Nat) : Access := .put space lo 0 cycle visible r.q.strand r.q.pc

end Sys2Proof.Machine
end

