-- ==== Sys2Proof/Machine/Tap.lean ====
section
/-! DEFINITION. The range checker's taps and the four quantities of a checked unit (R340 to R343). -/

namespace Sys2Proof.Machine

/-- The bounds in force for an instruction that issues, or effectively issues, in cycle `t` (Table 6.6). -/
def CheckSet.at (b : CheckSet) (t : Nat) : Bounds := if b.since ≤ t then b.cur else b.prev

/-- An element of a unit as the checker sees it: RNE32, subnormals to zero (R59, R342). -/
def tapBits (v : Val) : Nat := (fp32.rne true v).1

/-- Running quantities: nans, infs, m and s (R342). -/
structure Tap where
  nans : Nat
  infs : Nat
  m : Nat
  s : Nat
  deriving DecidableEq, Repr

def Tap.zero : Tap := ⟨0, 0, 0, 0⟩

def Tap.add (t : Tap) (v : Val) : Tap :=
  let b := tapBits v
  match fp32.decode b with
  | .nan => { t with nans := t.nans + 1 }
  | .inf _ => { t with infs := t.infs + 1 }
  | .fin n m e =>
    let a := b % 2147483648
    let sq := (fp32.rne true ((Val.fin n m e).mul (.fin n m e))).1
    { t with m := max t.m a, s := (fp32.rne true ((fp32.decode t.s).add (fp32.decode sq))).1 }

/-- The quantities of a unit, in unit order. -/
def tapUnit (vs : List Val) : Tap := vs.foldl Tap.add .zero

/-- The reasons for which a unit trips (R342): bit 0 amax, 1 NaN, 2 Inf, 3 L2. -/
def Tap.reasons (t : Tap) (b : Bounds) : Nat :=
  if !b.enable then 0
  else ofBool ((fp32.decode b.amax.toNat).lt (fp32.decode t.m)) + 2 * ofBool (decide (b.nanMax < t.nans))
    + 4 * ofBool (decide (b.infMax < t.infs)) + 8 * ofBool ((fp32.decode b.l2max.toNat).lt (fp32.decode t.s))

/-- A checked unit's verdict, due in a cycle (R343). -/
def Core.addVerdict (c : Core) (set : Nat) (b : Bounds) (t : Tap) (cycle : Nat) (step : Word) (pc : BitVec 16)
    (recheckable : Bool) (dst len crc : Nat) : Core :=
  let d : Verdict :=
    { cycle, set, reasons := t.reasons b, boundId := b.boundId, nans := t.nans, infs := t.infs, m := BitVec.ofNat 32 t.m,
      s := BitVec.ofNat 32 t.s, step, pc := pc.toNat, recheckable, dst, len, crc := if recheckable then 0 else crc }
  { c with verdicts := c.verdicts ++ [d] }

end Sys2Proof.Machine
end

