-- ==== Sys2Proof/Machine/Array.lean ====
section
/-! DEFINITION. What the matrix array's instructions do, cycle by cycle: stationary rows, tokens, accumulator results and drained
rows (chapters 3 and 4). -/

namespace Sys2Proof.Machine

/-! ### Modes (Table 3.1, Table 4.1) -/

/-- Stored weights of one DPU (R465). -/
def Fmt.stored (f : Fmt) : Nat := if f = .mx4 then 64 else 32

/-- Activations that one row takes per token (R186). -/
def rowActs (f : Fmt) (sparse : Nat) : Nat := if sparse = 2 then 128 else if sparse = 1 || f = .mx4 then 64 else 32

def Fmt.fp8 : Fmt → Bool
  | .e4m3 | .e5m2 => true
  | _ => false

def Fmt.mx68 : Fmt → Bool
  | .mx8e4 | .mx8e5 | .mx6e2 | .mx6e3 => true
  | _ => false

/-- A stationary format with its sparse mode (Table 3.1). -/
def stationaryOk (f : Fmt) (sparse : Nat) : Bool :=
  match f with
  | .e4m3 | .e5m2 | .int8 => decide (sparse ≤ 2)
  | .bf16 | .fp16 | .mx8e4 | .mx8e5 | .mx6e2 | .mx6e3 | .mx4 => decide (sparse = 0)
  | _ => false

/-- The operand pairs of Table 3.1. -/
def pairOk (st x : Fmt) : Bool :=
  (st.fp8 && x.fp8) || (st.mx68 && x.mx68)
    || (decide (st = x) && (decide (st = .bf16) || decide (st = .fp16) || decide (st = .mx4) || decide (st = .int8)))

/-- Accumulator formats of a pair: 0 FP32, 1 FP32 pair, 2 INT32. -/
def accOk (x : Fmt) (aformat : Nat) : Bool := if x = .int8 then decide (aformat = 2) else decide (aformat < 2)

def sixteen (f : Fmt) : Bool := f == .bf16 || f == .fp16

/-- Cycles per token, c of Table 4.1. -/
def Fmt.cpt (f : Fmt) : Nat := if sixteen f then 2 else 1

/-- Cycles by which MXFP4, sparse and 16-bit modes come later (Table 4.4). -/
def lateBy (f : Fmt) (sparse : Nat) : Nat := if sixteen f || f == .mx4 || sparse != 0 then 1 else 0

/-! ### Loads -/

/-- The operands of an MLOAD word (Table 6.4). -/
def LoadOp.ofWord (w : IWord) (x : Vector Word 7) : LoadOp :=
  { fmt := .ofCode (fld w 24 4), sparse := fld w 28 2, nrows := fld w 31 5 + 1, ncols := fld w 36 5 + 1,
    transpose := flag w 41, xmode := fld w 42 2, xcode := flag w 44, xsigned := flag w 45, xgrp := fld w 46 2,
    ssel := flag w 48, buf := fld w 49 4, src := (taAt w x 49).toNat, mtab := (taAt w x 71).toNat,
    side := (taAt w x 93).toNat }

/-- The format of the bytes stored: codes where the load expands (R64). -/
def LoadOp.stored (o : LoadOp) : Fmt := if o.xmode = 0 then o.fmt else if o.xcode then .int8 else .int4

/-- Ks of R465. -/
def LoadOp.ks (o : LoadOp) : Nat := o.nrows * o.fmt.stored

/-- Weights of a group along K (Table 2.9), and groups of one column (R65). -/
def LoadOp.group (o : LoadOp) : Nat := 32 * 2 ^ o.xgrp
def LoadOp.groups (o : LoadOp) : Nat := cdiv o.ks o.group

/-- Bytes of one group's parameters (R66, R67). -/
def LoadOp.paramLen (o : LoadOp) : Nat := if o.xmode = 1 then (if o.xcode then 256 else 16) * (o.fmt.bits / 8) else 8

/-- Bytes that one column takes in the side tensor. -/
def LoadOp.sideCol (o : LoadOp) : Nat :=
  if o.xmode ≠ 0 then o.groups * o.paramLen else if o.fmt.isMx then o.ks / 32 else 0

def LoadOp.metaLen (o : LoadOp) : Nat := if o.sparse = 1 then 8 else if o.sparse = 2 then 12 else 0

/-- Bytes from src to the last one of the operand. -/
def LoadOp.srcLen (o : LoadOp) : Nat :=
  if o.ssel then o.stored.packedLen (o.ks * 32)
  else o.stored.packedLen (if o.transpose then (o.ks / 32 - 1) * 1024 + (o.ncols - 1) * 32 + 32 else (o.ks - 1) * 32 + o.ncols)

/-- One weight of an expanding load (R66, R67): code, group parameters, to operand bits and flags. -/
def LoadOp.expand (o : LoadOp) (ftz : Bool) (params : List Byte) (code : Nat) : Rounded :=
  if o.xmode = 1 then (natAt params (code * (o.fmt.bits / 8)) (o.fmt.bits / 8), .none)
  else
    let (sc, f1) := iflushAt fp32.emin ftz (fp32.decode (natAt params 0 4))
    let q : Int := if o.xsigned then signedOf (if o.xcode then 8 else 4) code else code
    let d := q - signedOf 16 (natAt params 4 2)
    match o.fmt.float with
    | none => (0, f1)
    | some ff =>
      match sc.mul (.ofInt d) with
      | .inf n => (ff.signBit n + ff.maxBits, f1.or .onlyOvf)
      | v => let (b, f2) := ff.round .rne true ftz v; (b, f1.or f2)

/-- Row `r` of a set from its bytes: `raw` the row's stored elements, `mtab r c` and `side c off len` the other tensors. A column
from ncols on holds zero weights; in 2:4 and 1:4 modes they select position 0 of their windows, which R99 leaves open (DESIGN
CHOICE, log 63). -/
def LoadOp.row (o : LoadOp) (ftz : Bool) (r : Nat) (raw : List Nat) (mtab : Nat → Nat) (side : Nat → Nat → Nat → List Byte) :
    List Dpu × ArithFlags :=
  let ws := o.fmt.stored
  let cols := (List.range 32).map fun c =>
    if o.ncols ≤ c then ((⟨[], [], 0⟩ : Dpu), ArithFlags.none)
    else
      let codes := (List.range ws).map fun j => raw.getD (if o.transpose then c * 32 + j else j * 32 + c) 0
      if o.xmode = 0 then
        let scales := if o.fmt.isMx then (side c (r * (ws / 32)) (ws / 32)).map BitVec.toNat else []
        (⟨codes, scales, mtab c⟩, .none)
      else
        let rs := codes.zipIdx.map fun e =>
          o.expand ftz (side c ((r * ws + e.2) / o.group * o.paramLen) o.paramLen) e.1
        (⟨rs.map (·.1), [], mtab c⟩, rs.foldl (fun a e => a.or e.2) .none)
  (cols.map (·.1), cols.foldl (fun a e => a.or e.2) .none)

/-- Does a stationary vector hold a NaN or an infinity (R89)? -/
def Dpu.special (f : Fmt) (d : Dpu) : Bool :=
  d.scales.contains 255 || (match f.float with
    | some ff => d.ws.any fun b => (ff.decode b).isNan || (ff.decode b).isInf
    | none => false)

/-- A set whose contents an uncorrectable read left undefined (Table 6.7, code 0x0B), the per-row NaN-and-infinity record included. -/
def LoadOp.undefinedSet (o : LoadOp) (epoch : Nat) : StatSet :=
  let n := o.fmt.stored
  { loaded := true, fmt := o.fmt, sparse := o.sparse,
    rows := (List.range 32).map fun r => (List.range 32).map fun c =>
      ⟨(List.range n).map fun i => (Config.undef o.fmt.bits epoch (n * (32 * r + c) + i)).toNat,
       if o.fmt.isMx then (List.range (n / 32)).map fun i => (Config.undef 8 epoch (65536 + 2 * (32 * r + c) + i)).toNat else [],
       (Config.undef 96 epoch (131072 + 32 * r + c)).toNat⟩,
    nanInf := (List.range 32).map fun r => Config.undef 1 epoch (262144 + r) == 1 }

/-! ### Stream-engine buffers (R210) -/

/-- Bytes waiting in a buffer. -/
def StreamBuf.avail (b : StreamBuf) : Nat := b.wr - b.rd

/-- The ranges of tile memory in which the next `n` bytes of a buffer stand. -/
def StreamBuf.ranges (b : StreamBuf) (n : Nat) : List (Nat × Nat) :=
  let off := if b.size = 0 then 0 else b.rd % b.size
  if off + n ≤ b.size then [(b.base + off, n)] else [(b.base + off, b.size - off), (b.base, n - (b.size - off))]

/-- The next `n` bytes of a buffer, from its ring in tile memory. -/
def VCore.streamBytes (v : VCore) (buf n : Nat) : List Byte :=
  let b := v.buffers[buf]!
  (List.range n).map fun i => v.tile.get (b.base + (if b.size = 0 then 0 else (b.rd + i) % b.size))

def VCore.takeStream (v : VCore) (buf n : Nat) : VCore :=
  { v with buffers := v.buffers.set! buf { v.buffers[buf]! with rd := v.buffers[buf]!.rd + n } }

/-- The rows of a load with the cycles in which they are read, row 0 in cycle `at0` (R104, R106). -/
def LoadOp.rowCycles (o : LoadOp) (at0 stride : Nat) : List (Nat × Nat) := (List.range o.nrows).map fun r => (r, at0 + stride * r)

/-- Bytes of one row (R465). -/
def LoadOp.rowBytes (o : LoadOp) : Nat := o.stored.packedLen (o.fmt.stored * 32)

/-- The operands of MPASS, and of MPASS.P with the count read (Table 4.3). -/
structure PassOp where
  xfmt : Fmt
  sparse : Nat
  aformat : Nat
  abase : Nat
  ashape : Nat
  tokoff : Nat
  count : Nat
  acc : Bool
  krows : Nat
  ssel : Bool
  buf : Nat
  src : Nat
  transpose : Bool
  skip : Option Nat
  deriving DecidableEq, Repr

def PassOp.ofWord (w : IWord) (x : Vector Word 7) (counted : Option Nat) : PassOp :=
  { xfmt := .ofCode (fld w 24 4), sparse := fld w 28 2, aformat := fld w 30 2, abase := fld w 32 9, ashape := fld w 41 4,
    tokoff := fld w 45 14, count := counted.getD (fld w 59 14 + 1), acc := flag w 73, krows := fld w 74 5 + 1,
    ssel := flag w 79, buf := fld w 80 4, src := (taAt w x 80).toNat, transpose := flag w 102,
    skip := if counted.isNone && flag w 103 then some (taAt w x 104).toNat else none }

/-- T of the tile, its size in slots. -/
def tileTokens (ashape : Nat) : Nat := 32 * 2 ^ ashape
def tileSlots (ashape : Nat) (pair : Bool) : Nat := 2 ^ ashape * (if pair then 2 else 1)

def PassOp.tag (o : PassOp) : AccTag := if o.aformat = 1 then .pair else if o.aformat = 2 then .int32 else .fp32

/-- Activations of one token record. -/
def PassOp.width (o : PassOp) : Nat := o.krows * rowActs o.xfmt o.sparse

/-- Bytes of one token record (R186). -/
def PassOp.recLen (o : PassOp) : Nat := o.xfmt.packedLen o.width + (if o.xfmt.isMx then o.width / 32 else 0)

/-- Bytes of one strip of 32 tokens. -/
def PassOp.stripLen (o : PassOp) : Nat := o.width * 32 * (o.xfmt.bits / 8)

/-- Where a pass's tokens stand in its stream (R116, R117): every token's position, or none for an absent block's; the absent
blocks with first token, tokens and position; and the row-0 time. -/
def streamPlan (count cpt : Nat) (absent : Nat → Bool) : List (Nat × Nat) × List (Nat × Nat × Nat) × Nat :=
  (List.range (cdiv count 32)).foldl (fun st b =>
    let n := min 32 (count - 32 * b)
    if absent b then (st.1, st.2.1 ++ [(32 * b, n, st.2.2)], st.2.2 + 1)
    else (st.1 ++ (List.range n).map (fun i => (32 * b + i, st.2.2 + cpt * i)), st.2.1, st.2.2 + cpt * n)) ([], [], 0)

/-- The activations of a token that row `r` receives, and their MX scales; rows beyond krows receive zeros. -/
structure RowIn where
  xs : List Nat
  scales : List Nat
  deriving DecidableEq, Repr

def PassOp.rows (o : PassOp) (bytes : List Byte) : List RowIn :=
  let kr := rowActs o.xfmt o.sparse
  let xs := o.xfmt.unpack o.width bytes
  let sc := if o.xfmt.isMx then (sub bytes (o.xfmt.packedLen o.width) (o.width / 32)).map BitVec.toNat else []
  (List.range 32).map fun r =>
    if r < o.krows then ⟨(xs.drop (r * kr)).take kr, (sc.drop (r * (kr / 32))).take (kr / 32)⟩ else ⟨[], []⟩

/-- Element values with their flushes: MX elements take their block's scale (R45, R46, R60, R62). Missing elements are zeros. -/
def elemVals (f : Fmt) (ftz : Bool) (n : Nat) (xs scales : List Nat) : List (Val × Bool) :=
  (List.range n).map fun i =>
    match xs[i]? with
    | none => (.zero false, false)
    | some b =>
      if f.isMx then (f.mxValue (scales.getD (i / 32) 127) b, false)
      else
        let (v, fl) := f.iflush ftz (f.value true b)
        (v, fl.ftz)

/-- The position of the activation that stored weight `i` takes (R83, Table 4.2). -/
def Dpu.pick (d : Dpu) (sparse i : Nat) : Nat :=
  if sparse = 1 then 4 * (i / 2) + bitsAt d.sel (2 * i) 2 else if sparse = 2 then 4 * i + bitsAt d.sel (3 * i) 2 else i

/-- A DPU's group for one token, with the activation flush it meets (R78 to R83). -/
def Dpu.group (d : Dpu) (sparse : Nat) (wv : List (Val × Bool)) (av : List (Val × Bool)) : Group × Bool :=
  let sel := (List.range wv.length).map fun i => av.getD (d.pick sparse i) (.zero false, false)
  (groupSum (List.zipWith (fun a b => prodOf a.1 b.1) wv sel), sel.any (·.2))

/-- The groups of one row, for its 32 columns; `skip` is R89's dynamic skip. -/
def rowGroups (set : StatSet) (o : PassOp) (ftz : Bool) (wrow : List (Dpu × List (Val × Bool))) (skip : Bool) (inp : RowIn) :
    List Group × Bool :=
  if skip then (List.replicate 32 .zero, false)
  else
    let av := elemVals o.xfmt ftz (rowActs o.xfmt o.sparse) inp.xs inp.scales
    let gs := wrow.map fun d => d.1.group set.sparse d.2 av
    (gs.map (·.1), gs.any (·.2))

/-- All streaming activations of a row are zero and its stationary vectors hold no NaN or infinity (R89). -/
def skips (set : StatSet) (o : PassOp) (r : Nat) (inp : RowIn) : Bool :=
  !(set.nanInf.getD r false) && (inp.xs.all fun b => (o.xfmt.value true b).isZero) && !inp.scales.contains 255

def Dpu.ints (d : Dpu) (sparse : Nat) (xs : List Nat) : Int :=
  groupInt ((d.ws.zipIdx).map fun e => (signedOf 8 e.1, signedOf 8 (xs.getD (d.pick sparse e.2) 0)))

/-- The accumulator words of one token after the pass: 32 words, or hi and lo of 32 pairs, and the flags (R86 to R92). -/
def tokenColumns (set : StatSet) (o : PassOp) (ftz : Bool) (wvals : List (List (Dpu × List (Val × Bool)))) (inp : List RowIn)
    (old : List Nat) : List Nat × ArithFlags :=
  if o.xfmt = .int8 then
    let rs := (List.range 32).map fun c =>
      columnInt o.acc (old.getD c 0) ((List.range 32).map fun r =>
        ((set.rows.getD r []).getD c default).ints set.sparse ((inp.getD r ⟨[], []⟩).xs))
    (rs.map (·.1), rs.foldl (fun a e => a.or e.2) .none)
  else
    let rows := (List.range 32).map fun r =>
      let i := inp.getD r ⟨[], []⟩
      rowGroups set o ftz (wvals.getD r []) (skips set o r i) i
    let fl := ArithFlags.onlyFtz (rows.any (·.2))
    let col (c : Nat) : List Group := rows.map fun r => r.1.getD c .zero
    if o.aformat = 1 then
      let rs := (List.range 32).map fun c => columnPair o.acc ftz (old.getD (2 * c) 0) (old.getD (2 * c + 1) 0) (col c)
      (rs.flatMap fun e => [e.1.1, e.1.2], rs.foldl (fun a e => a.or e.2) fl)
    else
      let rs := (List.range 32).map fun c => columnFp32 o.acc ftz (old.getD c 0) (col c)
      (rs.map (·.1), rs.foldl (fun a e => a.or e.2) fl)

/-- Weight values of a set with their flushes. -/
def StatSet.vals (set : StatSet) (ftz : Bool) : List (List (Dpu × List (Val × Bool))) :=
  set.rows.map fun row => row.map fun d => (d, elemVals set.fmt ftz set.fmt.stored d.ws d.scales)

/-- Bytes of token `t` of a pass, as its row-0 read in cycle `r` finds them. -/
def PassOp.tokenBytes (o : PassOp) (c : Core) (v : VCore) (t r : Nat) : List Byte :=
  if o.transpose then
    let z := o.xfmt.bits / 8
    (List.range o.width).flatMap fun k => c.tileAt v (o.src + t / 32 * o.stripLen + (32 * k + t % 32) * z) z r
  else c.tileAt v (o.src + t * o.recLen) o.recLen r

/-- Ranges of tile memory that a pass reads for one token. -/
def PassOp.tokenRanges (o : PassOp) (t : Nat) : List (Nat × Nat) :=
  if o.ssel then []
  else if o.transpose then
    let z := o.xfmt.bits / 8
    (List.range o.width).map fun k => (o.src + t / 32 * o.stripLen + (32 * k + t % 32) * z, z)
  else [(o.src + t * o.recLen, o.recLen)]

/-- The first accumulator word of token `t` of a pass, and the words per token (R121). -/
def PassOp.words (o : PassOp) : Nat := if o.aformat = 1 then 64 else 32
def PassOp.wordAt (o : PassOp) (t : Nat) : Nat := o.abase * 1024 + (o.tokoff + t) * o.words

/-- The absent blocks that a skip list marks. -/
def VCore.absentBlocks (c : Core) (v : VCore) (skip : Option Nat) (r : Nat) (b : Nat) : Bool :=
  match skip with
  | none => false
  | some a => bitAt (natOf (c.tileAt v (a + b / 8) 1 r)) (b % 8)

/-- The plan of a pass's stream (R116, R117): present tokens as (index, position), absent blocks, the latency of token results,
and the row-0 time. -/
structure PassPlan where
  present : List (Nat × Nat)
  gaps : List (Nat × Nat × Nat)
  lat : Nat
  time : Nat

/-- The operands of a queued pass, with the count that MPASS.P read. -/
def QInstr.passOp (q : QInstr) : PassOp :=
  PassOp.ofWord q.word q.x (if fld q.word 0 10 = 0x021 then some (natOf q.record) else none)

/-! ### Drains -/

/-- The operands of an MDRAIN with its parameter record (Tables 4.10, 6.5). -/
structure DrainOp where
  abase : Nat
  ashape : Nat
  tokoff : Nat
  count : Nat
  tfmt : Fmt
  sat : Bool
  rmode : Nat
  transpose : Bool
  chk : Nat
  dst : Nat
  ebase : Nat
  rngstream : Nat
  c0 : Nat
  ncol : Nat
  scale : Option Nat
  bias : Option Nat
  mxAt : Nat
  deriving DecidableEq, Repr

def DrainOp.ofWord (w : IWord) (x : Vector Word 7) (rec : List Byte) : DrainOp :=
  let on := natAt rec 14 1
  { abase := fld w 24 9, ashape := fld w 33 4, tokoff := fld w 37 14, count := fld w 51 14 + 1, tfmt := .ofCode (fld w 65 4),
    sat := flag w 69, rmode := fld w 70 2, transpose := flag w 72, chk := fld w 73 2, dst := (taAt w x 75).toNat,
    ebase := natAt rec 0 8, rngstream := natAt rec 8 4, c0 := natAt rec 12 1, ncol := natAt rec 13 1,
    scale := if bitAt on 0 then some (natAt rec 16 4) else none, bias := if bitAt on 1 then some (natAt rec 20 4) else none,
    mxAt := natAt rec 24 4 }

/-- One accumulator element as the exact drain source value, its input flush, and whether it is an integer (Table 3.4, R94). -/
def drainSource (tag : AccTag) (ftz : Bool) (ws : List Nat) : Val × ArithFlags :=
  match tag with
  | .int32 => (.ofInt (signedOf 32 (ws.getD 0 0)), .none)
  | .pair => iflushAt fp32.emin ftz ((fp32.decode (ws.getD 0 0)).add (fp32.decode (ws.getD 1 0)))
  | _ => iflushAt fp32.emin ftz (fp32.decode (ws.getD 0 0))

/-- a × c + b exactly, with the input flushes (R94, R95). -/
def drainExact (ftz : Bool) (a : Val × ArithFlags) (c b : Option Nat) : Val × ArithFlags :=
  let f (x : Nat) := iflushAt fp32.emin ftz (fp32.decode x)
  let (v, fl) := match c with
    | some x => let y := f x; (a.1.mul y.1, a.2.or y.2)
    | none => a
  match b with
  | some x => let y := f x; (v.add y.1, fl.or y.2)
  | none => (v, fl)

/-- One drained row: element bits, the MX scale, and the flags (R94, R95, R57). R94 flushes a, c and b; an exact a × c + b below
2^-126 goes on to R57's conversion unflushed (DESIGN CHOICE, log 63). -/
def DrainOp.convertRow (o : DrainOp) (ftz : Bool) (mode : Nat → Rmode) (tag : AccTag) (ints : List Nat)
    (vals : List (Val × ArithFlags)) : List Nat × Nat × ArithFlags :=
  let fl := vals.foldl (fun a v => a.or v.2) .none
  if o.tfmt.isMx then
    let sc := mxScale o.tfmt (vals.map (·.1))
    ((vals.zipIdx).map fun v => mxElem o.tfmt (mode v.2) sc v.1.1, sc, fl)
  else if tag = .int32 && o.tfmt = .int32 && o.scale.isNone && o.bias.isNone then (ints, 0, .none)
  else
    let rs := (vals.zipIdx).map fun v => convert o.tfmt true (mode v.2) o.sat ftz v.1.1
    (rs.map (·.1), 0, rs.foldl (fun a r => a.or r.2) fl)

/-- The checker's view of drained elements (R342). -/
def tapVals (f : Fmt) (scale : Nat) (bits : List Nat) : List Val :=
  bits.map fun b => if f.isMx then f.mxValue scale b else f.value true b


/-! ### Stationary rows in their cycles (R104, R106, R465) -/

/-- The ranges of tile memory that row `r` of a load reads: elements of its columns alone. -/
def LoadOp.rowRanges (o : LoadOp) (r : Nat) : List (Nat × Nat) :=
  let ws := o.fmt.stored
  let src : List (Nat × Nat) :=
    if o.ssel then []
    else if o.transpose || o.ncols = 32 then [(o.src + r * o.rowBytes, o.stored.packedLen (if o.transpose then o.ncols * 32 else ws * 32))]
    else (List.range ws).map fun j => (o.src + r * o.rowBytes + j * 32 * o.stored.bits / 8, o.stored.packedLen o.ncols)
  let side : List (Nat × Nat) :=
    if o.xmode ≠ 0 then
      let g := r * ws / o.group
      (List.range o.ncols).map fun c => (o.side + c * o.sideCol + g * o.paramLen, ((r * ws + ws - 1) / o.group + 1 - g) * o.paramLen)
    else if o.fmt.isMx then (List.range o.ncols).map fun c => (o.side + c * o.sideCol + r * (ws / 32), ws / 32)
    else []
  src ++ (if o.sparse = 0 then [] else [(o.mtab + o.metaLen * (32 * r), o.metaLen * o.ncols)]) ++ side

/-- Cycles per row of a broadcast load (Table 4.6). -/
def LoadOp.stride (o : LoadOp) : Nat := if sixteen o.fmt then 2 else 1

/-- A set in the mode of a load with no row in it yet; rows from nrows on hold zero weights (R104, R464). -/
def LoadOp.emptySet (o : LoadOp) : StatSet :=
  { loaded := true, fmt := o.fmt, sparse := o.sparse, rows := List.replicate 32 (List.replicate 32 ⟨[], [], 0⟩),
    nanInf := List.replicate 32 false }

/-- Row `r` comes into a set, whose mode stays. -/
def StatSet.putRow (x : StatSet) (r : Nat) (f : Fmt) (ds : List Dpu) : StatSet :=
  { x with rows := x.rows.set r ds, nanInf := x.nanInf.set r (ds.any (Dpu.special f)) }

/-- Bytes that a stream-engine buffer delivers to a running instruction (R210). -/
def State.takeBuffer (s : State) (p : Fin 20) (r : Run) (buf n : Nat) : List Byte × State × Run :=
  match (s.core p).v with
  | none => ([], s, r)
  | some v =>
    let (s, r) := s.meet p r false (((v.buffers[buf]!).ranges n).map fun x => r.read .tile x.1 x.2 (s.core p).cycle)
    (v.streamBytes buf n, s.modV p fun v => v.takeStream buf n, r)

/-- Row `k` of a load is read in this cycle and comes into the active set (a wavefront) or the shadow set. An uncorrectable word
leaves the whole set undefined. -/
def State.loadRowPiece (s : State) (p : Fin 20) (r : Run) (o : LoadOp) (wave : Bool) (k : Nat) : State × Run :=
  let n := (s.core p).cycle
  let (raw, s, r) := if o.ssel then s.takeBuffer p r o.buf o.rowBytes else ([], s, r)
  let (s, r) := s.meet p r false ((o.rowRanges k).map fun x => r.read .tile x.1 x.2 n)
  let c := s.core p
  match c.v with
  | none => (s, r)
  | some v =>
    let bytes := if o.ssel then raw else c.tileAt v (o.src + k * o.rowBytes) o.rowBytes n
    let (ds, fl) := o.row s.job.ftz k (o.stored.unpack (o.fmt.stored * 32) bytes)
      (fun col => natOf (c.tileAt v (o.mtab + o.metaLen * (32 * k + col)) o.metaLen n))
      (fun col off len => c.tileAt v (o.side + col * o.sideCol + off) len n)
    let put (x : StatSet) : StatSet := match r.undef with
      | some e => { o.undefinedSet e with fmt := x.fmt, sparse := x.sparse }
      | none => x.putRow k o.fmt ds
    ((s.runFlags p r fl).modV p fun v => if wave then { v with active := put v.active } else { v with shadow := put v.shadow }, r)

/-- Row `k` of a load. A wavefront's rows are read by the pass that carries them in: an error in them leaves the set undefined, and one
in what the pass itself reads leaves its tile undefined (R106, Table 6.7). -/
def State.loadPiece (s : State) (p : Fin 20) (r : Run) (o : LoadOp) (wave : Bool) (k : Nat) : State × Run :=
  if wave then
    let x := s.loadRowPiece p { r with undef := r.setUndef, wrote := [] } o true k
    (x.1, { x.2 with undef := r.undef, setUndef := x.2.undef, wrote := r.wrote })
  else s.loadRowPiece p r o false k

/-! ### Tokens in their cycles (Table 4.4) -/

/-- The plan of a pass's stream as its skip list stands in cycle `t0` (R116, R117). -/
def PassOp.plan (o : PassOp) (c : Core) (v : VCore) (t0 : Nat) : PassPlan :=
  let (present, gaps, time) := streamPlan o.count o.xfmt.cpt (VCore.absentBlocks c v o.skip t0)
  ⟨present, gaps, 40 + lateBy o.xfmt o.sparse, time⟩

/-- Bytes of a pass's skip list. -/
def PassOp.skipLen (o : PassOp) : Nat := cdiv (cdiv o.count 32) 8

/-- The cycle of the last multiply in row 31 of the token at `pos` of a pass in effect since `t0` (Table 4.4). -/
def PassOp.lastRow (o : PassOp) (t0 pos : Nat) : Nat := t0 + 35 + pos + (if sixteen o.xfmt then 1 else 0)

/-- The stationary set that the token at position `pos` of a pass in effect since `t0` meets in every row (R106): a pass that
starts later and brings in another has not reached a row before it. -/
def Core.setFor (c : Core) (v : VCore) (at0 : Nat) : StatSet :=
  match c.oldSets.find? fun o => decide (at0 < o.1) with
  | some o => o.2
  | none => v.active

def PassOp.item (o : PassOp) : PortItem := if o.aformat = 1 then .pair else .word

/-- The row-0 read of a token. -/
def State.tokenPiece (s : State) (p : Fin 20) (r : Run) (t : Nat) : State × Run :=
  let o := r.q.passOp
  let n := (s.core p).cycle
  if o.ssel then
    let (bs, s, r) := s.takeBuffer p r o.buf o.recLen
    (s, { r with bytes := r.bytes ++ [(t, bs)] })
  else
    let (s, r) := s.meet p r false ((o.tokenRanges t).map fun x => r.read .tile x.1 x.2 n)
    let c := s.core p
    match c.v with
    | none => (s, r)
    | some v => (s, { r with bytes := r.bytes ++ [(t, o.tokenBytes c v t n)] })

/-- The accumulator read of a token of an accumulating pass (R103). -/
def State.accumPiece (s : State) (p : Fin 20) (r : Run) (t : Nat) : State × Run :=
  let o := r.q.passOp
  let n := (s.core p).cycle
  let (s, r) := s.meet p r (o.aformat == 1) [r.read .acc (o.wordAt t) o.words n]
  let c := s.core p
  match c.v with
  | none => (s, r)
  | some v =>
    (s, { r with words := r.words ++ [(t, (v.acc.readRange c.accesses .acc (o.wordAt t) o.words n).map BitVec.toNat)] })

/-- A token's sums are formed: its results are on their way to the ports, and visible in the cycle of Table 4.4 (R86 to R92). -/
def State.resultPiece (s : State) (p : Fin 20) (r : Run) (t pos : Nat) : State × Run :=
  let o := r.q.passOp
  let c := s.core p
  match c.v with
  | none => (s, r)
  | some v =>
    let set := c.setFor v (r.t0 + pos)
    let bytes := ((r.bytes.find? fun x => x.1 == t).map (·.2)).getD []
    let old := ((r.words.find? fun x => x.1 == t).map (·.2)).getD []
    let r := { r with bytes := r.bytes.filter fun x => x.1 != t, words := r.words.filter fun x => x.1 != t }
    let inp := o.rows bytes
    let wvals := set.vals s.job.ftz
    let (ws, fl) := tokenColumns set o s.job.ftz wvals inp old
    let wfl := o.xfmt != .int8 && wvals.any fun row => row.any fun d => d.2.any (·.2)
    let skipped := ((List.range 32).filter fun i => skips set o i (inp.getD i ⟨[], []⟩)).length
    let late := lateBy o.xfmt o.sparse
    let s := (s.runFlags p r (fl.or (.onlyFtz wfl))).modCore p fun c =>
      { c with zskip := c.zskip + (if c.zskipEn then 32 * skipped else 0),
               results := c.results ++ [(r.t0 + 39 + late + pos, o.item)] }
    s.putRun p r (r.put .acc (o.wordAt t) (r.t0 + 39 + late + pos) (r.t0 + 40 + late + pos)) ws

/-- An absent block passes: with acc = 0 every column receives one block clear (R116, R117). -/
def State.clearPiece (s : State) (p : Fin 20) (r : Run) (t n pos : Nat) : State × Run :=
  let o := r.q.passOp
  let late := lateBy o.xfmt o.sparse
  let s := s.modCore p fun c => { c with bskip := c.bskip + 1 }
  if o.acc then (s, r)
  else
    (s.modCore p fun c => { c with results := c.results ++ [(r.t0 + 39 + late + pos, .clear)] }).putRun p r
      (r.put .acc (o.wordAt t) (r.t0 + 39 + late + pos) (r.t0 + 40 + late + pos)) (List.replicate (n * o.words) 0)

/-- The pieces of a pass in effect from `t0` on (Table 4.4). -/
def PassOp.pieces (o : PassOp) (plan : PassPlan) (armed : Option LoadOp) (t0 : Nat) : List (List (Nat × Piece)) :=
  let late := lateBy o.xfmt o.sparse
  [(match armed with
     | some l => (l.rowCycles (t0 + 1) 1).map fun x => (x.2, Piece.weights x.1)
     | none => []),
   plan.present.map fun x => (t0 + 1 + x.2, .token x.1 x.2),
   if o.acc then plan.present.map fun x => (t0 + 6 + late + x.2, .accum x.1 x.2) else [],
   plan.present.map fun x => (o.lastRow t0 x.2, .result x.1 x.2),
   plan.gaps.map fun x => (o.lastRow t0 x.2.2, .clear x.1 x.2.1 x.2.2)]

/-- The running slot and the flip's bound after a pass that takes effect at `t0` (R101, R102, R105, R117). -/
def Core.passLane (c : Core) (o : PassOp) (t0 : Nat) (plan : PassPlan) : Core :=
  let lastToken := (plan.present.map (·.2)).foldl max 0
  let last := max lastToken ((plan.gaps.map (·.2.2)).foldl max 0)
  if o.count = 0 then c.occupy .pass (t0 + 1) (t0 + 1)
  else
    { c.occupy .pass (t0 + plan.time) (t0 + plan.lat + last) with
        lastMultiply := if plan.present.isEmpty then c.lastMultiply else max c.lastMultiply (o.lastRow t0 lastToken) }

/-- A pass takes effect at `t` (R100 to R103, R106, R115 to R118); expansion of an armed load delays it by 2 (R107). -/
def State.startPass (s : State) (p : Fin 20) (q : QInstr) (t : Nat) : State :=
  let c := s.core p
  match c.v with
  | none => s
  | some v =>
    let o := q.passOp
    let t0 := match q.armed with
      | some l => if l.xmode = 0 then t else t + 2
      | none => t
    let s := s.arrive p (o.skip.toList.map fun a => Access.read .tile a o.skipLen t q.strand q.pc)
    let plan := o.plan (s.core p) (s.vNow p v) t
    let r := Run.start q t0 (o.pieces plan q.armed t0)
    let (s, r) := s.meetErrors p r false (o.skip.toList.map fun a => r.read .tile a o.skipLen t)
    let s := match q.armed with
      | some l => (s.modCore p fun c => { c with oldSets := c.oldSets ++ [(t0, v.active)] }).modV p fun v => { v with active := l.emptySet }
      | none => s
    s.modCore p fun c => { c.passLane o t0 plan with runs := c.runs ++ [r] }

/-- A broadcast load takes effect at `t0` (R104, Table 4.6). The manual gives the cycles in which its rows are written; row `r` is read whole
in cycle t0 + 1 + stride * r, under expansion as well (DESIGN CHOICE, log 70). -/
def State.startLoad (s : State) (p : Fin 20) (q : QInstr) (t0 : Nat) : State :=
  let o := LoadOp.ofWord q.word q.x
  let done := t0 + (if sixteen o.fmt then 68 else 36) + (if o.xmode = 0 then 0 else 2)
  let s := s.modV p fun v => { v with shadow := { o.emptySet with fmt := v.shadow.fmt, sparse := v.shadow.sparse } }
  s.modCore p fun c =>
    { c.occupy .load (t0 + 32 * o.stride) done with
        fillAt := done, filling := true, shadowValid := false,
        runs := c.runs ++ [.start q t0 [(o.rowCycles (t0 + 1) o.stride).map fun x => (x.2, .loadRow x.1)]] }

/-! ### Drained rows in their cycles (R125, R126) -/

/-- The format in which a drain reads its tile: the tag of slot abase at issue, FP32 when it is unset (R126; DEDUCED, log 69). -/
def QInstr.sourceTag (q : QInstr) : AccTag := match q.tags.headD .unset with
  | .unset => .fp32
  | t => t

/-- Accumulator words per element, and the word of column j of drained row k. -/
def QInstr.perElem (q : QInstr) : Nat := if q.sourceTag == .pair then 2 else 1
def DrainOp.wordAt (o : DrainOp) (per k j : Nat) : Nat := o.abase * 1024 + (32 * (o.tokoff + k) + o.c0 + j) * per

/-- Bytes of the drained output, and of one row of it. -/
def DrainOp.outLen (o : DrainOp) : Nat := o.tfmt.packedLen (o.count * o.ncol)
def DrainOp.rowLen (o : DrainOp) : Nat := o.tfmt.packedLen o.ncol

/-- The first byte and length of each run that row `k` is written to (R114, R186). -/
def DrainOp.rowRuns (o : DrainOp) (k : Nat) : List (Nat × Nat) :=
  let z := o.tfmt.bits / 8
  if o.transpose then (List.range o.ncol).map fun j => (o.dst + (j * o.count + k) * z, z)
  else [(o.dst + k * o.rowLen, o.rowLen)]

/-- Consecutive runs of bytes, written in turn. -/
def State.putRuns (s : State) (p : Fin 20) (r : Run) (cycle visible : Nat) : List (Nat × Nat) → List Nat → State × Run
  | [], _ => (s, r)
  | x :: xs, vals =>
    let (s, r) := s.putRun p r (r.put .tile x.1 cycle visible) (vals.take x.2)
    s.putRuns p r cycle visible xs (vals.drop x.2)

/-- Row `k` of a drain: read in this cycle, written 9 cycles later. Element (k, j) of a stochastic drain has index
ebase + k × ncol + j, with transpose = 1 as well (DESIGN CHOICE, log 63). The last row completes the checked unit (R342). -/
def State.drainPiece (s : State) (p : Fin 20) (r : Run) (k : Nat) : State × Run :=
  let q := r.q
  let o := DrainOp.ofWord q.word q.x q.record
  let tag := q.sourceTag
  let per := q.perElem
  let n := (s.core p).cycle
  let (s, r) := s.meet p r (tag == .pair) [r.read .acc (o.wordAt per k 0) (o.ncol * per) n]
  let (e, s) := s.fresh
  let c := s.core p
  match c.v with
  | none => (s, r)
  | some v =>
    let ftz := s.job.ftz
    let mode (j : Nat) : Rmode :=
      if o.rmode = 1 then .stoch (stochR s.job.seed (o.ebase + k * o.ncol + j) q.stepTag.toNat o.rngstream) else .rne
    let words := (List.range o.ncol).map fun j =>
      let a := o.wordAt per k j
      if q.tags.getD (a / 1024 - o.abase) .unset == .unset then (List.range per).map fun i => (Config.undef 32 e (a + i)).toNat
      else (v.acc.readRange c.accesses .acc a per n).map BitVec.toNat
    let vals := words.zipIdx.map fun w => drainExact ftz (drainSource tag ftz w.1) (r.scales[o.c0 + w.2]?) (r.biases[o.c0 + w.2]?)
    let (bits, sc, fl) := o.convertRow ftz mode tag (words.map (·.headD 0)) vals
    let s := s.runFlags p r fl
    let (s, r) := s.putRuns p r (r.t0 + 10 + k) (r.t0 + 11 + k) (o.rowRuns k) ((o.tfmt.pack bits).map BitVec.toNat)
    let (s, r) := if o.tfmt.isMx then s.putRun p r (r.put .tile (o.mxAt + k) (r.t0 + 10 + k) (r.t0 + 11 + k)) [sc] else (s, r)
    if o.chk = 0 then (s, r)
    else
      let bits : List Nat := match r.undef with
        | some e => (List.range bits.length).map fun j => (Config.undef o.tfmt.bits e (k * 32 + j)).toNat
        | none => bits
      let r := { r with tap := r.tap ++ bits.map fun b => (sc, b, 0) }
      if k + 1 < o.count then (s, r)
      else
        let unit := r.tap.flatMap fun x => tapVals o.tfmt x.1 [x.2.1]
        (s.modCore p fun c => c.addVerdict 0 r.bounds (tapUnit unit) (r.t0 + 2057 + o.count) q.stepTag q.pc (decide (o.chk = 2))
          o.dst o.outLen (crc32c (((s.core p).v.map fun v => v.readTile o.dst o.outLen).getD [])).toNat, { r with tap := [] })

/-- Ranges that a drain reads for its c and b (R94). -/
def DrainOp.tables (o : DrainOp) : List (Nat × Nat) := (o.scale.toList ++ o.bias.toList).map fun a => (a, 128)

/-- A drain takes effect at `t0` (R125, R126). -/
def State.startDrain (s : State) (p : Fin 20) (q : QInstr) (t0 : Nat) : State :=
  let c := s.core p
  match c.v with
  | none => s
  | some v =>
    let o := DrainOp.ofWord q.word q.x q.record
    let s := s.arrive p (o.tables.map fun x => Access.read .tile x.1 x.2 t0 q.strand q.pc)
    let c := s.core p
    let v := s.vNow p v
    let table (a : Option Nat) : List Nat := match a with
      | some a => ((chunks 4 (c.tileAt v a 128 t0)).map natOf)
      | none => []
    let r := { Run.start q t0 [(List.range o.count).map fun k => (t0 + 1 + k, .drainRow k)] with
      scales := table o.scale, biases := table o.bias, bounds := (v.bounds[0]).at t0 }
    let (s, r) := s.meetErrors p r false (o.tables.map fun x => r.read .tile x.1 x.2 t0)
    s.modCore p fun c => { c.occupy .drain (t0 + o.count) (t0 + 10 + o.count) with runs := c.runs ++ [r] }

/-! ### What the array's instructions access, for the audit modes (R195, R196) -/

/-- The rows of a load, read from cycle `at0` on. -/
def LoadOp.accesses (o : LoadOp) (q : QInstr) (at0 stride : Nat) : List Access :=
  (o.rowCycles at0 stride).flatMap fun x => (o.rowRanges x.1).map fun y => Access.read .tile y.1 y.2 x.2 q.strand q.pc

/-- Reads and writes of a pass that takes effect at `t`, by the skip list as it stands. -/
def PassOp.accesses (o : PassOp) (c : Core) (v : VCore) (q : QInstr) (t : Nat) : List Access × List Access :=
  let t0 := match q.armed with
    | some l => if l.xmode = 0 then t else t + 2
    | none => t
  let plan := o.plan c v t
  let late := lateBy o.xfmt o.sparse
  ((o.skip.toList.map fun a => Access.read .tile a o.skipLen t q.strand q.pc)
    ++ (match q.armed with
        | some l => l.accesses q (t0 + 1) 1
        | none => [])
    ++ plan.present.flatMap fun x =>
      (if o.ssel then [] else (o.tokenRanges x.1).map fun y => Access.read .tile y.1 y.2 (t0 + 1 + x.2) q.strand q.pc)
        ++ if o.acc then [Access.read .acc (o.wordAt x.1) o.words (t0 + 6 + late + x.2) q.strand q.pc] else [],
   (plan.present.map fun x => Access.put .acc (o.wordAt x.1) o.words (t0 + 39 + late + x.2) (t0 + 40 + late + x.2) q.strand q.pc)
    ++ if o.acc then [] else plan.gaps.map fun x =>
      Access.put .acc (o.wordAt x.1) (x.2.1 * o.words) (t0 + 39 + late + x.2.2) (t0 + 40 + late + x.2.2) q.strand q.pc)

/-- Reads and writes of a drain that takes effect at `t0`, its record and step tag apart. -/
def DrainOp.accesses (o : DrainOp) (q : QInstr) (t0 : Nat) : List Access × List Access :=
  let ks := List.range o.count
  ((o.tables.map fun x => Access.read .tile x.1 x.2 t0 q.strand q.pc)
    ++ ks.map fun k => Access.read .acc (o.wordAt q.perElem k 0) (o.ncol * q.perElem) (t0 + 1 + k) q.strand q.pc,
   ks.flatMap fun k =>
    (o.rowRuns k ++ if o.tfmt.isMx then [(o.mxAt + k, 1)] else []).map fun (x : Nat × Nat) =>
      Access.put .tile x.1 x.2 (t0 + 10 + k) (t0 + 11 + k) q.strand q.pc)

end Sys2Proof.Machine
end

