-- ==== Sys2Proof/Machine/Fun.lean ====
section
/-! DEFINITION. The correctly rounded functions of the vector engine (R147 to R149, Table 5.4). Algebraic functions are
rounded from an exact quotient or root with a sticky bit. The others are enclosed between two fixed-point bounds; both bounds
are rounded, and where they round alike that is the rounding of the exact value between them. Where they do not, the function
is enclosed again in twice the fraction bits. -/

namespace Sys2Proof.Machine

/-- Fixed-point evaluation in `bits` fraction bits: the constants in units of 2^-bits, and the units that bound the accumulated
truncation error of one series, and of the error function's. -/
structure Prec where
  bits : Nat
  ln2 : Nat
  twoOverRootPi : Nat
  rootHalf : Nat
  slack : Nat
  erfSlack : Nat

/-- One. -/
def Prec.one (q : Prec) : Nat := 2 ^ q.bits

/-- Integer square root by bits, high bit first: `b` further bits below the root so far. -/
def isqrtBits (n : Nat) : Nat → Nat → Nat
  | 0, r => r
  | b + 1, r =>
    let t := r + 2 ^ b
    isqrtBits n b (if t * t ≤ n then t else r)

/-- floor(sqrt n). -/
def isqrt (n : Nat) : Nat := isqrtBits n (bitLen n / 2 + 1) 0

/-- Sum of z^(2i+1) / (2i+1), or with alternating signs: `t` is z^(2i+1), `z2` is z squared, `one` the unit. -/
def oddSeries (alternate : Bool) (one z2 : Nat) : Nat → Nat → Nat → Int → Int
  | 0, _, _, acc => acc
  | n + 1, i, t, acc =>
    oddSeries alternate one z2 n (i + 1) (t * z2 / one)
      (if alternate && i % 2 == 1 then acc - (t / (2 * i + 1) : Nat) else acc + (t / (2 * i + 1) : Nat))

/-- atanh, or atan, of 1 / n in units of 1 / one. -/
def oddInverse (alternate : Bool) (one bits n : Nat) : Nat :=
  (oddSeries alternate one (one / (n * n)) bits 0 (one / n) 0).toNat

/-- pi by Machin's formula. -/
def piFix (one bits : Nat) : Nat := 16 * oddInverse true one bits 5 - 4 * oddInverse true one bits 239

/-- 600 fraction bits, with the constants within a unit. -/
def Prec.first : Prec :=
  { bits := 600,
    ln2 :=
      0xb17217f7d1cf79abc9e3b39803f2f6af40f343267298b62d8a0d175b8baafa2be7b876206debac98559552fb4afa1b10ed2eae35c138214427573b291169b8253e96ca16224ae8c51acbda,
    twoOverRootPi :=
      0x120dd750429b6d11ae3a914fed7fd8688281341d7587cea2e7342b06199cc416180eb39f0b24e1e2281806c12d98f35d77a3e9ddc91c394f0e9eedf0efffd84a2a4ac3b98489b8cbd3845e9,
    rootHalf :=
      0xb504f333f9de6484597d89b3754abe9f1d6f60ba893ba84ced17ac85833399154afc83043ab8a2c3a8b1fe6fdc83db390f74a85e439c7b4a780487363dfa2768d2202e8742af1f4e53059c,
    slack := 2 ^ 20, erfSlack := 2 ^ 240 }

/-- The k-th precision: 600 * 2^k fraction bits. -/
def Prec.nth : Nat → Prec
  | 0 => .first
  | k + 1 =>
    let bits := 600 * 2 ^ (k + 1)
    let one := 2 ^ bits
    { bits, ln2 := 2 * oddInverse false one bits 3, twoOverRootPi := isqrt (4 * one * one * one / piFix one bits),
      rootHalf := isqrt (one * one / 2), slack := 2 ^ 80, erfSlack := 2 ^ 320 }

/-- What a function evaluation yields: an exact value, or a sign and two magnitudes in units of 2^e around it. -/
inductive Enc where
  | exact (v : Val)
  | within (neg : Bool) (lo hi : Nat) (e : Int)
  deriving DecidableEq, Repr

/-- The floor of a dyadic value in fixed point. -/
def Prec.toFix (q : Prec) (neg : Bool) (m : Nat) (e : Int) : Int :=
  let sh := e + q.bits
  let k : Int := if sh ≥ 0 then (m <<< sh.toNat : Nat) else (m >>> (-sh).toNat : Nat)
  if neg then -k else k

/-- Sum of r^i / i! for i below the term count, in fixed point: `t` is the current term, `i` its index. -/
def expSeries (one r : Nat) : Nat → Nat → Nat → Nat → Nat
  | 0, _, _, acc => acc
  | n + 1, i, t, acc => expSeries one r n (i + 1) (t * r / one / (i + 1)) (acc + t)

/-- e^r for a fixed-point r in [0, ln 2], within `slack` units. -/
def Prec.expFrac (q : Prec) (r : Nat) : Nat := expSeries q.one r (q.bits / 4) 0 q.one 0

/-- e^x for |x| < 2^12: the pair (y, k) with e^x within `slack` units of y * 2^k. -/
def Prec.expParts (q : Prec) (neg : Bool) (m : Nat) (e : Int) : Nat × Int :=
  let x := q.toFix neg m e
  let k := x / (q.ln2 : Int)
  (q.expFrac (x - k * q.ln2).toNat, k)

/-- A positive value too small for any format. -/
def encTiny (neg : Bool) : Enc := .within neg 1 (2 ^ 4000) (-5000)

/-- e^x of a finite nonzero x (R147). -/
def Prec.encExp (q : Prec) (neg : Bool) (m : Nat) (e : Int) : Enc :=
  if Val.topExp m e ≥ 12 then (if neg then encTiny false else .exact (.fin false 1 5000))
  else
    let p := q.expParts neg m e
    .within false (p.1 - q.slack) (p.1 + q.slack) (p.2 - q.bits)

/-- 2^x of a finite nonzero x; exact at integers. -/
def Prec.encExp2 (q : Prec) (neg : Bool) (m : Nat) (e : Int) : Enc :=
  if Val.topExp m e ≥ 12 then (if neg then encTiny false else .exact (.fin false 1 5000))
  else
    let x := q.toFix neg m e
    let k := x / (q.one : Int)
    let f := (x - k * q.one).toNat
    if f = 0 && e ≥ -(q.bits : Int) then .exact (.fin false 1 k)
    else
      let y := q.expFrac (f * q.ln2 / q.one)
      .within false (y - q.slack) (y + q.slack) (k - q.bits)

/-- ln of a positive dyadic in fixed point, within `slack` units. -/
def Prec.lnFix (q : Prec) (m : Nat) (e : Int) : Int :=
  let n := bitLen m
  let big := m * 2 ^ (q.bits + 1) / 2 ^ (n - 1)
  let k0 := e + (n : Int) - 1
  -- big / 2^(bits + 1) is in [1, 2); values above 1.5 are halved
  let hiHalf := decide (big > 3 * q.one)
  let mant := if hiHalf then big / 4 else big / 2
  let k := if hiHalf then k0 + 1 else k0
  let low := decide (mant < q.one)
  let d := if low then q.one - mant else mant - q.one
  let z := d * q.one / (mant + q.one)
  let s := 2 * oddSeries false q.one (z * z / q.one) (q.bits / 4) 0 z 0
  (if low then -s else s) + k * q.ln2

/-- A signed fixed-point value with an error bound as an enclosure. -/
def Prec.encOfFix (q : Prec) (c : Int) (err : Nat) : Enc := .within (decide (c < 0)) (c.natAbs - err) (c.natAbs + err) (-(q.bits : Int))

/-- ln x of a positive finite x; ln 1 = +0. -/
def Prec.encLog (q : Prec) (m : Nat) (e : Int) : Enc :=
  if (Val.fin false m e).eqv Val.one then .exact (.zero false)
  else q.encOfFix (q.lnFix m e) q.slack

/-- log2 x of a positive finite x; exact at powers of two. -/
def Prec.encLog2 (q : Prec) (m : Nat) (e : Int) : Enc :=
  if m = 2 ^ (bitLen m - 1) then .exact (.ofInt (Val.topExp m e))
  else q.encOfFix (q.lnFix m e * q.one / q.ln2) (8 * q.slack)

/-- One minus a positive amount at most 2^-200. -/
def encNearOne (neg : Bool) : Enc := .within neg (2 ^ 200 - 1) (2 ^ 200) (-200)

/-- tanh x of a finite nonzero x. -/
def Prec.encTanh (q : Prec) (neg : Bool) (m : Nat) (e : Int) : Enc :=
  if Val.topExp m e ≥ 9 then encNearOne neg
  else if Val.topExp m e < -100 then .within neg (m * 2 ^ 198 - m) (m * 2 ^ 198) (e - 198)
  else
    let p := q.expParts false m (e + 1)
    let a := p.1 * 2 ^ p.2.toNat
    let slack := q.slack * 2 ^ p.2.toNat
    let at_ (y : Nat) : Nat := (y - q.one) * 2 ^ (q.bits + 100) / (y + q.one)
    .within neg (at_ (a - slack)) (at_ (a + slack) + 1) (-(q.bits + 100 : Int))

/-- 1 / (1 + e^-x) of a finite nonzero x. -/
def Prec.encSigm (q : Prec) (neg : Bool) (m : Nat) (e : Int) : Enc :=
  if Val.topExp m e ≥ 11 then (if neg then encTiny false else encNearOne false)
  else
    let p := q.expParts (!neg) m e
    let kp := p.2.toNat
    let kn := (-p.2).toNat
    let unit := q.one * 2 ^ kn
    let at_ (y : Nat) : Nat := unit * 2 ^ (q.bits + 100 + kp) / (unit + y * 2 ^ kp)
    .within false (at_ (p.1 + q.slack)) (at_ (p.1 - q.slack) + 1) (-(q.bits + 100 + kp : Int))

/-- Sum of (2u)^i / (1 * 3 * ... * (2i + 1)) in fixed point. -/
def erfSeries (one u2 : Nat) : Nat → Nat → Nat → Nat → Nat
  | 0, _, _, acc => acc
  | n + 1, i, t, acc => erfSeries one u2 n (i + 1) (t * u2 / one / (2 * i + 3)) (acc + t)

/-- coef * |x| * e^-u * S(u) in fixed point, within `erfSlack` units: erf t with u = t^2 and coef * |x| = 2 t / sqrt(pi), for u below 144. -/
def Prec.erfFix (q : Prec) (coef m : Nat) (e : Int) (um : Nat) (ue : Int) : Nat :=
  let u2 := (q.toFix false um (ue + 1)).toNat
  let s := erfSeries q.one u2 (q.bits + 40) 0 q.one 0
  let p := q.expParts true um ue
  let lead := coef * s / q.one * p.1 / q.one
  -- lead * 2^k * |x|
  let sh := p.2 + e
  if sh ≥ 0 then lead * m * 2 ^ sh.toNat else lead * m / 2 ^ (-sh).toNat

/-- erf x of a finite nonzero x. -/
def Prec.encErf (q : Prec) (neg : Bool) (m : Nat) (e : Int) : Enc :=
  if !(Val.fin false m e).lt (.fin false 12 0) then encNearOne neg
  else if Val.topExp m e < -150 then
    .within neg (m * (q.twoOverRootPi - q.one / 2 ^ 298)) (m * (q.twoOverRootPi + q.slack)) (e - q.bits)
  else
    let c := q.erfFix q.twoOverRootPi m e (m * m) (2 * e)
    .within neg (c - q.erfSlack) (c + q.erfSlack) (-(q.bits : Int))

/-- GELU of a finite nonzero x. -/
def Prec.encGelu (q : Prec) (neg : Bool) (m : Nat) (e : Int) : Enc :=
  if !(Val.fin false m e).lt (.fin false 16 0) then
    (if neg then encTiny true else .within false (m * (2 ^ 180 - 1)) (m * 2 ^ 180) (e - 180))
  else
    let c := q.erfFix (q.twoOverRootPi * q.rootHalf / q.one) m e (m * m) (2 * e - 1)
    if neg then .within true (m * (q.one - c - q.erfSlack)) (m * (q.one - c + q.erfSlack)) (e - q.bits - 1)
    else .within false (m * (q.one + c - q.erfSlack)) (m * (q.one + c + q.erfSlack)) (e - q.bits - 1)

/-- A truncated magnitude q in units of 2^e with a sticky bit for what was cut off. -/
def sticky (neg : Bool) (q : Nat) (inexact : Bool) (e : Int) : Val := .fin neg (2 * q + ofBool inexact) (e - 1)

/-- Square root of a positive finite value, exact or truncated with a sticky bit (R147). -/
def sqrtVal (m : Nat) (e : Int) : Val :=
  let odd := e % 2 != 0
  let m' := if odd then 2 * m else m
  let e' := if odd then e - 1 else e
  let big := m' * 2 ^ 256
  let q := isqrt big
  sticky false q (q * q != big) (e' / 2 - 128)

/-- Reciprocal of a nonzero finite value. -/
def rcpVal (neg : Bool) (m : Nat) (e : Int) : Val :=
  let k := 128 + bitLen m
  let q := 2 ^ k / m
  sticky neg q (q * m != 2 ^ k) (-e - k)

/-- 1 / sqrt of a positive finite value. -/
def rsqrtVal (m : Nat) (e : Int) : Val :=
  let odd := e % 2 != 0
  let m' := if odd then 2 * m else m
  let e' := if odd then e - 1 else e
  let k := 128 + bitLen m'
  let num := 2 ^ (2 * k)
  let q := isqrt (num / m')
  sticky false q (q * q * m' != num) (-(e' / 2) - k)

/-- The functions of Table 5.3 from 0x20 on, on one exact argument (Table 5.4). -/
def Prec.encFun (q : Prec) (op : Nat) (v : Val) : Enc :=
  match op, v with
  | _, .nan => .exact .nan
  -- EXP and EXP2 (and EXPDIFF, whose argument is the exact difference)
  | 0x20, .inf s | 0x21, .inf s | 0x2B, .inf s => .exact (if s then .zero false else .inf false)
  | 0x20, .fin s m e | 0x2B, .fin s m e => if m = 0 then .exact .one else q.encExp s m e
  | 0x21, .fin s m e => if m = 0 then .exact .one else q.encExp2 s m e
  | 0x22, .inf s | 0x23, .inf s => .exact (if s then .nan else .inf false)
  | 0x22, .fin s m e => if m = 0 then .exact (.inf true) else if s then .exact .nan else q.encLog m e
  | 0x23, .fin s m e => if m = 0 then .exact (.inf true) else if s then .exact .nan else q.encLog2 m e
  | 0x24, .inf s => .exact (if s then .nan else .inf false)
  | 0x24, .fin s m e => if m = 0 then .exact (.zero s) else if s then .exact .nan else .exact (sqrtVal m e)
  | 0x25, .inf s | 0x2C, .inf s => .exact (if s then .nan else .zero false)
  | 0x25, .fin s m e | 0x2C, .fin s m e =>
    if m = 0 then .exact (.inf s) else if s then .exact .nan else .exact (rsqrtVal m e)
  | 0x26, .inf s => .exact (.zero s)
  | 0x26, .fin s m e => if m = 0 then .exact (.inf s) else .exact (rcpVal s m e)
  | 0x27, .inf s | 0x29, .inf s => .exact (.fin s 1 0)
  | 0x27, .fin s m e => if m = 0 then .exact (.zero s) else q.encTanh s m e
  | 0x28, .inf s => .exact (if s then .zero false else .one)
  | 0x28, .fin s m e => if m = 0 then .exact (.fin false 1 (-1)) else q.encSigm s m e
  | 0x29, .fin s m e => if m = 0 then .exact (.zero s) else q.encErf s m e
  | 0x2A, .inf s => .exact (if s then .zero true else .inf false)
  | 0x2A, .fin s m e => if m = 0 then .exact (.zero s) else q.encGelu s m e
  | _, v => .exact v

/-- The rounding of an enclosed value to a float format, where the enclosure decides it. -/
def Enc.round (f : FloatFmt) (ftz : Bool) : Enc → Option Rounded
  | .exact v => some (f.rne ftz v)
  | .within neg lo hi e =>
    let r := f.rne ftz (.fin neg lo e)
    if r = f.rne ftz (.fin neg hi e) then some r else none

/-- A function of Table 5.3 rounded once (R147), from the k-th precision on, through at most `n` of them. -/
def roundFrom (f : FloatFmt) (ftz : Bool) (op : Nat) (arg : Val) (free : Nat) : Nat → Nat → Rounded
  | 0, _ => (free % 2 ^ f.width, if (f.decode (free % 2 ^ f.width)).isInf then .onlyOvf else .none)
  | n + 1, k => match ((Prec.nth k).encFun op arg).round f ftz with
    | some r => r
    | none => roundFrom f ftz op arg free n (k + 1)

/-- The exact value of a function of Table 5.3 rounded once (R147). It is exact or irrational, so some precision decides it; the
search ends after 600 * 2^23 fraction bits, beyond which the result is the free value `Config.roundHard` (log 6). -/
def roundFun (f : FloatFmt) (ftz : Bool) (op a b : Nat) (arg : Val) : Rounded :=
  roundFrom f ftz op arg (Config.roundHard op a b) 24 0

end Sys2Proof.Machine
end

