-- ==== Sys2Proof/Machine/Blocks.lean ====
section
/-! DEFINITION. What the vector engine and the reduction unit do, block by block (chapter 5), and SCATADD.U (R189): each block
reads in its cycle and is visible in its cycle (Table 5.5). -/

namespace Sys2Proof.Machine

/-! ### Sequences and predicates (R129 to R131) -/

/-- The slot of element `e` of the sequence that starts at VT`n`, flat over all registers. -/
def slotOf (n e : Nat) (tr : Bool) : Nat :=
  let q := e % 1024
  (n + e / 1024) * 1024 + (if tr then (q % 32) * 32 + q / 32 else q)

/-- A sequence of `count` elements from VT`n` stays within VT31. -/
def seqOk (n count : Nat) : Bool := decide (n + cdiv count 1024 ≤ 32)

def mkOk (mk : Nat) : Bool := mk = 0 || decide (8 ≤ mk)

/-- The formats of tile-register elements. -/
def Fmt.inReg : Fmt → Bool
  | .fp32 | .bf16 | .fp16 | .int32 => true
  | _ => false

/-- Is element `e` computed, as the predicate reads in cycle `r`? -/
def Core.onAt (c : Core) (v : VCore) (mk e r : Nat) : Bool :=
  mk = 0 || v.vm.readAt c.accesses .mask ((mk - 8) * 8192 + e) r == 1

/-- An element's bits as read in cycle `r`; a 16-bit element is the low half of its slot (R48). -/
def Core.elemAt (c : Core) (v : VCore) (n e : Nat) (tr : Bool) (f : Fmt) (r : Nat) : Nat :=
  (v.vt.readAt c.accesses .treg (slotOf n e tr) r).toNat % 2 ^ (if f.bits = 16 then 16 else 32)

/-- Runs of consecutive keys. -/
def runsOf {α : Type} (xs : List (Nat × α)) : List (Nat × List α) :=
  xs.foldr (fun x acc => match acc with
    | (k, vs) :: rest => if k = x.1 + 1 then (x.1, x.2 :: vs) :: rest else (x.1, [x.2]) :: acc
    | [] => [(x.1, [x.2])]) []

/-- Write cells under their keys, consecutive ones together; `ru` marks the reduction unit's writes (R161). -/
def State.putKeyed (s : State) (p : Fin 20) (r : Run) (space : Space) (cycle visible : Nat) (ru : Bool) :
    List (Nat × List Nat) → State × Run
  | [] => (s, r)
  | x :: xs =>
    let (s, r) := s.putRun p r { r.put space x.1 cycle visible with ru } x.2
    s.putKeyed p r space cycle visible ru xs

/-- Write elements of a sequence, (element, bits), and note them for the vector tap (R341). -/
def State.putElems (s : State) (p : Fin 20) (r : Run) (n : Nat) (tr : Bool) (visible : Nat) (ru tapped : Bool) (es : List (Nat × Nat)) :
    State × Run :=
  let (s, r) := s.putKeyed p r .treg (s.core p).cycle visible ru (runsOf (es.map fun e => (slotOf n e.1 tr, e.2)))
  let seen (e : Nat × Nat) : Nat := match r.undef with
    | some ev => (Config.undef 32 ev (slotOf n e.1 tr)).toNat
    | none => e.2
  (s, if tapped then { r with tap := r.tap ++ es.map fun e => (n + e.1 / 1024, seen e, visible) } else r)

/-- Write bits of a mask register. -/
def State.putBits (s : State) (p : Fin 20) (r : Run) (m visible : Nat) (es : List (Nat × Nat)) : State × Run :=
  s.putKeyed p r .mask (s.core p).cycle visible false (runsOf (es.map fun e => (m * 8192 + e.1, e.2)))

/-- Write bytes of tile memory: (address, byte). -/
def State.putBytes (s : State) (p : Fin 20) (r : Run) (visible : Nat) (es : List (Nat × Nat)) : State × Run :=
  s.putKeyed p r .tile (s.core p).cycle visible false (runsOf es)

/-- The elements of block `k` of `b` elements. -/
def blockElems (count b k : Nat) : List Nat := (List.range (min b (count - b * k))).map (b * k + ·)

/-- An access to each run of consecutive cells. -/
def runAccesses (space : Space) (keys : List Nat) (r : Nat) (k : Fin 128) (pc : BitVec 16) : List Access :=
  (runsOf (keys.map fun x => (x, ()))).map fun x => .read space x.1 x.2.length r k pc

/-- The accesses of a sequence operand's elements in a cycle. -/
def seqReads (n : Nat) (es : List Nat) (tr : Bool) (r : Nat) (k : Fin 128) (pc : BitVec 16) : List Access :=
  runAccesses .treg (es.map fun e => slotOf n e tr) r k pc

/-- Predicate reads of a block. -/
def maskReads (mk lo n r : Nat) (k : Fin 128) (pc : BitVec 16) : List Access :=
  if mk = 0 then [] else [.read .mask ((mk - 8) * 8192 + lo) n r k pc]

/-- The same accesses as writes, visible from a cycle on. -/
def asWrites (accs : List Access) (visible : Nat) (ru : Bool := false) : List Access :=
  accs.map fun a => { a with write := true, visible, ru }

/-- The vector tap's unit is complete: the elements in registers that set 1 watches, if there are any (R341). The check value of such a
run is the CRC-32C of the unit's elements, each in whole bytes (log 55). -/
def State.checkVector (s : State) (p : Fin 20) (r : Run) (f : Fmt) : State :=
  let unit := r.tap.filter fun e => bitAt r.bounds.watch.toNat e.1
  if !r.bounds.enable || unit.isEmpty then s
  else s.modCore p fun c => c.addVerdict 1 r.bounds (tapUnit (unit.map fun e => f.value true (e.2.1 % 2 ^ f.bits)))
    (maxOf (unit.map (·.2.2)) + 2048) r.q.stepTag r.q.pc false 0 0
    (crc32c (unit.flatMap fun e => bytesOf (cdiv f.bits 8) (e.2.1 % 2 ^ f.bits))).toNat

/-- A vector or reduction instruction of `n` blocks takes effect at `t0`: its run, and its lane until its last cycle. -/
def State.startBlocks (s : State) (p : Fin 20) (l : LaneId) (q : QInstr) (t0 n done : Nat) (undef : Option Nat) : State :=
  let bounds := match (s.core p).v with
    | some v => (v.bounds[1]).at t0
    | none => .off
  s.modCore p fun c => { c.occupy l (t0 + n) done with
    runs := c.runs ++ [{ Run.start q t0 [(List.range n).map fun k => (t0 + 1 + k, .block k)] with undef, bounds }] }

/-! ### VOP (R133 to R138, R147 to R149) -/

/-- Sources an op uses: b, c as a sequence. -/
def vopUsesB (op : Nat) : Bool := decide (op ≤ 6) || (decide (9 ≤ op) && decide (op ≤ 0x15)) || op == 0x2B || op == 0x2C
def vopUsesC (op : Nat) : Bool := op == 3 || op == 4
def vopCompare (op : Nat) : Bool := decide (0x0A ≤ op) && decide (op ≤ 0x0E)

/-- Formats an op allows (Table 5.3). -/
def vopFmtOk (op : Nat) (f : Fmt) : Bool :=
  if op ≤ 0x0D then f.inReg
  else if op = 0x0E then f.inReg && f != .int32
  else if 0x10 ≤ op && op ≤ 0x15 then f == .int32
  else if 0x20 ≤ op && op ≤ 0x2C then f == .fp32 || f == .bf16
  else true

def vopKnown (op : Nat) : Bool :=
  decide (op ≤ 0x0E) || (decide (0x10 ≤ op) && decide (op ≤ 0x15)) || (decide (0x20 ≤ op) && decide (op ≤ 0x2C))

/-- MIN and MAX order: −0 below +0 (R136). -/
def below (a b : Val) : Bool := a.lt b || (a.isZero && b.isZero && a.sign && !b.sign)

/-- A floating-point op on element bits (R135 to R137, R147 to R149): result bits or mask bit, and flags. -/
def vopFloat (ff : FloatFmt) (ftz : Bool) (op a b c : Nat) : Rounded :=
  let fa := iflushAt ff.emin ftz (ff.decode a)
  let fb := if vopUsesB op then iflushAt ff.emin ftz (ff.decode b) else (.zero false, .none)
  let fc := if vopUsesC op then iflushAt ff.emin ftz (ff.decode c) else (.zero false, .none)
  let fl := (fa.2.or fb.2).or fc.2
  let x := fa.1
  let y := fb.1
  let z := fc.1
  let bit (t : Bool) : Rounded := (ofBool t, fl)
  let arith (v : Val) : Rounded := let r := ff.rne ftz v; (r.1, fl.or r.2)
  let pick (t : Bool) : Rounded := if x.isNan || y.isNan then (ff.nanBits, fl) else arith (if t then x else y)
  match op with
  | 0x00 => arith (x.add y)
  | 0x01 => arith (x.subv y)
  | 0x02 => arith (x.mul y)
  | 0x03 => arith ((x.mul y).add z)
  | 0x04 => arith (z.subv (x.mul y))
  | 0x05 => pick (!below y x)
  | 0x06 => pick (!below x y)
  | 0x07 => arith x.abs
  | 0x08 => arith x.neg
  | 0x0A => bit (x.eqv y)
  | 0x0B => bit (!x.eqv y)
  | 0x0C => bit (x.lt y)
  | 0x0D => bit (x.lt y || x.eqv y)
  | 0x0E => bit (x.isNan || y.isNan)
  | _ =>
    let arg := if op = 0x2B then x.subv y else if op = 0x2C then x.add y else x
    let r := roundFun ff ftz op a b arg
    (r.1, fl.or r.2)

/-- An INT32 op on element bits (R138): result bits or mask bit, and flags. -/
def vopInt (op a b c : Nat) : Rounded :=
  let x := signedOf 32 a
  let y := signedOf 32 b
  let z := signedOf 32 c
  let sat (i : Int) : Rounded := (patternOf 32 (clampSigned 32 i), .onlyIsat (clampSigned 32 i != i))
  let bit (t : Bool) : Rounded := (ofBool t, .none)
  let n := b % 32
  match op with
  | 0x00 => sat (x + y)
  | 0x01 => sat (x - y)
  | 0x02 => sat (x * y)
  | 0x03 => sat (x * y + z)
  | 0x04 => sat (z - x * y)
  | 0x05 => sat (min x y)
  | 0x06 => sat (max x y)
  | 0x07 => sat x.natAbs
  | 0x08 => sat (-x)
  | 0x0A => bit (x == y)
  | 0x0B => bit (x != y)
  | 0x0C => bit (x < y)
  | 0x0D => bit (x ≤ y)
  | 0x10 => (a &&& b, .none)
  | 0x11 => (a ||| b, .none)
  | 0x12 => (a ^^^ b, .none)
  | 0x13 => sat (x * 2 ^ n)
  | 0x14 => (patternOf 32 (x / 2 ^ n), .none)
  | _ => (a >>> n, .none)

/-- One element's result. -/
def vopElem (f : Fmt) (ftz : Bool) (op a b c : Nat) : Rounded :=
  match f.float with
  | some ff => vopFloat ff ftz op a b c
  | none => vopInt op a b c

/-- The element of an operand that element `e` reads under a mode (R133). -/
def modeElem (mode e : Nat) : Nat := if mode = 0 then e else if mode = 1 then 0 else if mode = 2 then e / 32 else e % 32

/-- Elements of an operand that an instruction of `count` elements reads. -/
def modeCount (mode count : Nat) : Nat := if mode = 0 then count else if mode = 1 then 1 else if mode = 2 then cdiv count 32 else min 32 count

/-- The operands of VOP (Table 5.2). -/
structure VopOp where
  op : Nat
  fmt : Fmt
  dst : Nat
  a : Nat
  b : Nat
  bmode : Nat
  c : Nat
  cmode : Nat
  count : Nat
  tr : Bool
  pred : Nat
  deriving DecidableEq, Repr

def VopOp.ofWord (w : IWord) : VopOp :=
  { op := fld w 24 6, fmt := .ofCode (fld w 30 4), dst := fld w 34 5, a := fld w 39 5, b := fld w 44 5, bmode := fld w 49 2,
    c := fld w 51 5, cmode := fld w 56 2, count := fld w 58 13 + 1, tr := flag w 71, pred := fld w 72 4 }

def VopOp.block (o : VopOp) : Nat := if 0x20 ≤ o.op then 64 else if o.fmt.bits = 16 then 1024 else 512

/-- A scalar or broadcast operand overlaps the destination (R134). -/
def VopOp.overlaps (o : VopOp) : Bool :=
  let dst := (List.range o.count).map fun e => slotOf o.dst e o.tr
  let hit (used : Bool) (mode n : Nat) : Bool :=
    used && mode != 0 && (List.range (modeCount mode o.count)).any fun e => dst.contains (slotOf n e o.tr)
  !vopCompare o.op && (hit (vopUsesB o.op) o.bmode o.b || hit (vopUsesC o.op) o.cmode o.c)

/-- Register and mask reads for elements `es` of a block in cycle `r`. -/
def VopOp.reads (o : VopOp) (es : List Nat) (r : Nat) (q : QInstr) : List Access :=
  seqReads o.a es o.tr r q.strand q.pc
    ++ (if vopUsesB o.op then seqReads o.b (es.map (modeElem o.bmode)) o.tr r q.strand q.pc else [])
    ++ (if vopUsesC o.op then seqReads o.c (es.map (modeElem o.cmode)) o.tr r q.strand q.pc else [])
    ++ (if o.op = 9 then runAccesses .mask (es.map fun e => o.c % 8 * 8192 + e) r q.strand q.pc else [])

/-- Where elements `es` of a block go. -/
def VopOp.writes (o : VopOp) (es : List Nat) (r visible : Nat) (q : QInstr) : List Access :=
  asWrites (if vopCompare o.op then runAccesses .mask (es.map fun e => o.dst % 8 * 8192 + e) r q.strand q.pc
    else seqReads o.dst es o.tr r q.strand q.pc) visible

/-- Cycles from a block's read number to its visible cycle (Table 5.5). -/
def VopOp.latency (o : VopOp) : Nat := if 0x20 ≤ o.op then 19 else 7

def VopOp.blocks (o : VopOp) : Nat := cdiv o.count o.block

/-- One block of a VOP. -/
def State.vopPiece (s : State) (p : Fin 20) (r : Run) (k : Nat) : State × Run :=
  let o := VopOp.ofWord r.q.word
  let n := (s.core p).cycle
  match (s.core p).v with
  | none => (s, r)
  | some v =>
    let c := s.core p
    let es := (blockElems o.count o.block k).filter fun e => c.onAt v o.pred e n
    let (s, r) := s.meet p r false (o.reads es n r.q)
    let get (m e : Nat) : Nat := c.elemAt v m e o.tr o.fmt n
    let rs : List (Nat × Rounded) := es.map fun e =>
      let a := get o.a e
      let b := if vopUsesB o.op then get o.b (modeElem o.bmode e) else 0
      let x := if vopUsesC o.op then get o.c (modeElem o.cmode e) else 0
      (e, if o.op = 9 then (if v.vm.readAt c.accesses .mask (o.c % 8 * 8192 + e) n == 1 then a else b, ArithFlags.none)
        else vopElem o.fmt s.job.ftz o.op a b x)
    let s := s.runFlags p r (rs.foldl (fun a e => a.or e.2.2) .none)
    let outs := rs.map fun e => (e.1, e.2.1)
    let vis := r.t0 + o.latency + k
    let (s, r) := if vopCompare o.op then s.putBits p r (o.dst % 8) vis outs else s.putElems p r o.dst o.tr vis false true outs
    (if k + 1 < o.blocks then s else s.checkVector p r o.fmt, r)

/-- A VOP takes effect; with an operand that overlaps its destination its results are undefined (R134). -/
def State.startVop (s : State) (p : Fin 20) (q : QInstr) (t0 : Nat) : State :=
  let o := VopOp.ofWord q.word
  let (undef, s) := if o.overlaps then ((some s.free : Option Nat), s.fresh.2) else (none, s)
  s.startBlocks p .ve q t0 o.blocks (t0 + o.blocks + o.latency - 1) undef

/-! ### VCVT (R139, R185) -/

/-- The operands of VCVT. -/
structure CvtOp where
  sfmt : Fmt
  tfmt : Fmt
  /-- The tile register is the destination. -/
  toReg : Bool
  msel : Bool
  treg : Nat
  oreg : Nat
  mem : Nat
  sat : Bool
  rmode : Nat
  xsigned : Bool
  count : Nat
  tr : Bool
  pred : Nat
  ebase : Nat
  rngstream : Nat
  mxAt : Nat
  deriving DecidableEq, Repr

def CvtOp.ofWord (w : IWord) (x : Vector Word 7) (rec : List Byte) : CvtOp :=
  { sfmt := .ofCode (fld w 24 4), tfmt := .ofCode (fld w 28 4), toReg := flag w 32, msel := flag w 33, treg := fld w 34 5,
    oreg := fld w 39 5, mem := (taAt w x 39).toNat, sat := flag w 61, rmode := fld w 62 2, xsigned := flag w 64,
    count := fld w 65 13 + 1, tr := flag w 78, pred := fld w 79 4, ebase := natAt rec 0 8, rngstream := natAt rec 8 4,
    mxAt := natAt rec 12 4 }

/-- The format of the side that is not `treg`. -/
def CvtOp.other (o : CvtOp) : Fmt := if o.toReg then o.sfmt else o.tfmt

/-- VCVT reads its record (R185). -/
def CvtOp.usesRecord (o : CvtOp) : Bool := o.rmode == 1 || o.sfmt.isMx || o.tfmt.isMx

def CvtOp.block (o : CvtOp) : Nat := if o.sfmt.bits = 32 || o.tfmt.bits = 32 then 512 else 1024

/-- Converted elements of a block: (element, bits) for the elements computed, MX scales as (block, scale), flags. -/
def CvtOp.convertBlock (o : CvtOp) (ftz : Bool) (seed step : Nat) (on : Nat → Bool) (es : List Nat)
    (vals : List (Val × ArithFlags)) : List (Nat × Nat) × List (Nat × Nat) × ArithFlags :=
  let mode (e : Nat) : Rmode := if o.rmode = 1 then .stoch (stochR seed (o.ebase + e) step o.rngstream) else .rne
  let live := (es.zip vals).filter fun e => on e.1
  let fl := live.foldl (fun a e => a.or e.2.2) .none
  if o.tfmt.isMx then
    let groups := (chunks 32 es).map fun g => (g.headD 0 / 32, live.filter fun e => g.contains e.1)
    let done := (groups.filter fun g => !g.2.isEmpty).map fun g =>
      let sc := mxScale o.tfmt (g.2.map (·.2.1))
      (g.1, sc, g.2.map fun e => (e.1, mxElem o.tfmt (mode e.1) sc e.2.1))
    (done.flatMap (·.2.2), done.map (fun d => (d.1, d.2.1)), fl)
  else
    let rs := live.map fun e => (e.1, convert o.tfmt o.xsigned (mode e.1) o.sat ftz e.2.1)
    (rs.map (fun e => (e.1, e.2.1)), [], rs.foldl (fun a e => a.or e.2.2) fl)

/-- Bytes of packed elements written among kept ones: `old` the present bytes of the block's run, the unwritten half of a last
byte included. -/
def mergePacked (f : Fmt) (old : List Byte) (lo : Nat) (outs : List (Nat × Nat)) : List Byte :=
  let bits := f.unpack (8 * old.length / f.bits) old
  f.pack (bits.zipIdx.map fun b => match outs.find? fun o => o.1 = lo + b.2 with
    | some o => o.2
    | none => b.1)

/-- Source values of a block's elements, flushed (R60, R62). -/
def CvtOp.sources (o : CvtOp) (c : Core) (v : VCore) (ftz : Bool) (r : Nat) (es : List Nat) : List (Val × ArithFlags) :=
  let lo := es.headD 0
  let bits : List Nat :=
    if o.toReg && o.msel then
      o.sfmt.unpack es.length (c.tileAt v (o.mem + lo * o.sfmt.bits / 8) (o.sfmt.packedLen es.length) r)
    else es.map fun e => c.elemAt v (if o.toReg then o.oreg else o.treg) e o.tr o.sfmt r
  if o.sfmt.isMx then
    let sc := c.tileAt v (o.mxAt + lo / 32) (es.length / 32) r
    bits.zipIdx.map fun b => (o.sfmt.mxValue (sc.getD (b.2 / 32) 127).toNat b.1, .none)
  else bits.map fun b => o.sfmt.iflush ftz (o.sfmt.value true b)

/-- Bytes of element `e` packed from address `a` on: first byte and length. -/
def packedAt (f : Fmt) (a e : Nat) : Nat × Nat := (a + e * f.bits / 8, ((e + 1) * f.bits + 7) / 8 - e * f.bits / 8)

/-- The bytes of elements `es`, packed from address `a` on. -/
def packedKeys (f : Fmt) (a : Nat) (es : List Nat) : List Nat :=
  (es.flatMap fun e => let x := packedAt f a e; (List.range x.2).map (x.1 + ·)).eraseDups

/-- The scales' addresses of the MX blocks that elements `es` belong to. -/
def CvtOp.scaleKeys (o : CvtOp) (es : List Nat) : List Nat := (es.map fun e => o.mxAt + e / 32).eraseDups

/-- Reads for elements `es` of a block in cycle `r`. -/
def CvtOp.reads (o : CvtOp) (es : List Nat) (r : Nat) (q : QInstr) : List Access :=
  if o.toReg && o.msel then
    runAccesses .tile (packedKeys o.sfmt o.mem es) r q.strand q.pc
      ++ if o.sfmt.isMx then runAccesses .tile (o.scaleKeys es) r q.strand q.pc else []
  else seqReads (if o.toReg then o.oreg else o.treg) es o.tr r q.strand q.pc

/-- Where elements `es` of a block go. -/
def CvtOp.writes (o : CvtOp) (es : List Nat) (r visible : Nat) (q : QInstr) : List Access :=
  asWrites (if o.toReg || !o.msel then seqReads (if o.toReg then o.treg else o.oreg) es o.tr r q.strand q.pc
    else runAccesses .tile (packedKeys o.tfmt o.mem es) r q.strand q.pc
      ++ if o.tfmt.isMx then runAccesses .tile (o.scaleKeys es) r q.strand q.pc else []) visible

def CvtOp.blocks (o : CvtOp) : Nat := cdiv o.count o.block

/-- One block of a VCVT. -/
def State.cvtPiece (s : State) (p : Fin 20) (r : Run) (k : Nat) : State × Run :=
  let o := CvtOp.ofWord r.q.word r.q.x r.q.record
  let n := (s.core p).cycle
  let c := s.core p
  match c.v with
  | none => (s, r)
  | some v =>
    let es := blockElems o.count o.block k
    let on := es.filter fun e => c.onAt v o.pred e n
    let (s, r) := s.meet p r false (o.reads on n r.q)
    let c := s.core p
    let v := s.vNow p v
    let (outs, scales, fl) := o.convertBlock s.job.ftz s.job.seed r.q.stepTag.toNat on.contains es (o.sources c v s.job.ftz n es)
    let s := s.runFlags p r fl
    let vis := r.t0 + 8 + k
    let (s, r) :=
      if o.toReg || !o.msel then s.putElems p r (if o.toReg then o.treg else o.oreg) o.tr vis false true outs
      else
        let lo := es.headD 0
        let at0 := o.mem + lo * o.tfmt.bits / 8
        let new := mergePacked o.tfmt (c.tileAt v at0 (o.tfmt.packedLen es.length) n) lo outs
        let (s, r) := s.putBytes p r vis ((packedKeys o.tfmt o.mem on).map fun a => (a, (new.getD (a - at0) 0).toNat))
        s.putBytes p r vis (scales.map fun x => (o.mxAt + x.1, x.2))
    (if k + 1 < o.blocks then s else s.checkVector p r o.tfmt, r)

def State.startVcvt (s : State) (p : Fin 20) (q : QInstr) (t0 : Nat) : State :=
  let o := CvtOp.ofWord q.word q.x q.record
  s.startBlocks p .ve q t0 o.blocks (t0 + 7 + o.blocks) none

/-! ### VTRN (R140) -/

/-- The operands of VTRN. -/
structure TrnOp where
  mode : Nat
  half : Bool
  treg : Nat
  oreg : Nat
  mem : Nat
  count : Nat
  tr : Bool
  pred : Nat
  deriving DecidableEq, Repr

def TrnOp.ofWord (w : IWord) (x : Vector Word 7) : TrnOp :=
  { mode := fld w 24 3, half := flag w 27, treg := fld w 28 5, oreg := fld w 33 5, mem := (taAt w x 38).toNat,
    count := fld w 60 13 + 1, tr := flag w 73, pred := fld w 74 4 }

def TrnOp.bytes (o : TrnOp) : Nat := if o.half then 2 else 4
def TrnOp.block (o : TrnOp) : Nat := if o.mode ≥ 3 then 8192 else if o.half then 1024 else 512

def TrnOp.memLen (o : TrnOp) : Nat := if o.mode = 2 then 0 else if o.mode ≥ 3 then cdiv o.count 8 else o.count * o.bytes

def TrnOp.stores (o : TrnOp) : Bool := o.mode = 1 || o.mode = 4

def TrnOp.blocks (o : TrnOp) : Nat := cdiv o.count o.block

/-- The bytes of tile memory that elements `es` take. -/
def TrnOp.memKeys (o : TrnOp) (es : List Nat) : List Nat :=
  if o.mode ≥ 3 then (es.map fun e => o.mem + e / 8).eraseDups
  else es.flatMap fun e => (List.range o.bytes).map (o.mem + e * o.bytes + ·)

def TrnOp.maskKeys (o : TrnOp) (es : List Nat) : List Nat := es.map fun e => o.treg % 8 * 8192 + e

/-- Reads for elements `es` of a block in cycle `r`. -/
def TrnOp.reads (o : TrnOp) (es : List Nat) (r : Nat) (q : QInstr) : List Access :=
  match o.mode with
  | 0 | 3 => runAccesses .tile (o.memKeys es) r q.strand q.pc
  | 4 => runAccesses .mask (o.maskKeys es) r q.strand q.pc
  | _ => seqReads o.treg es o.tr r q.strand q.pc

/-- Where elements `es` of a block go. -/
def TrnOp.writes (o : TrnOp) (es : List Nat) (r visible : Nat) (q : QInstr) : List Access :=
  asWrites (match o.mode with
    | 1 | 4 => runAccesses .tile (o.memKeys es) r q.strand q.pc
    | 3 => runAccesses .mask (o.maskKeys es) r q.strand q.pc
    | 2 => seqReads o.oreg es o.tr r q.strand q.pc
    | _ => seqReads o.treg es o.tr r q.strand q.pc) visible

/-- One block of a VTRN. A move onto slots it still reads is undefined there (R140). -/
def State.trnPiece (s : State) (p : Fin 20) (r : Run) (k : Nat) : State × Run :=
  let o := TrnOp.ofWord r.q.word r.q.x
  let n := (s.core p).cycle
  let c := s.core p
  match c.v with
  | none => (s, r)
  | some v =>
    let es := (blockElems o.count o.block k).filter fun e => c.onAt v o.pred e n
    let (s, r) := s.meet p r false (o.reads es n r.q)
    let c := s.core p
    let v := s.vNow p v
    let vis := r.t0 + 6 + k
    let width := 8 * o.bytes
    let slot (e : Nat) : Nat := (v.vt.readAt c.accesses .treg (slotOf o.treg e o.tr) n).toNat
    match o.mode with
    | 0 => s.putElems p r o.treg o.tr vis false false (es.map fun e => (e, natOf (c.tileAt v (o.mem + e * o.bytes) o.bytes n)))
    | 1 => s.putBytes p r vis (es.flatMap fun e => (bytesOf o.bytes (slot e)).zipIdx.map fun b => (o.mem + e * o.bytes + b.2, b.1.toNat))
    | 2 =>
      let (ev, s) := if o.oreg = o.treg then (0, s) else s.fresh
      let src := (List.range o.count).map fun e => slotOf o.treg e o.tr
      s.putElems p r o.oreg o.tr vis false false (es.map fun e =>
        (e, if o.oreg != o.treg && src.contains (slotOf o.oreg e o.tr) then (Config.undef width ev e).toNat else slot e % 2 ^ width))
    | 3 => s.putBits p r (o.treg % 8) vis (es.map fun e => (e, ofBool (bitAt (natOf (c.tileAt v (o.mem + e / 8) 1 n)) (e % 8))))
    | _ =>
      let byte (a : Nat) : Nat := (List.range 8).foldl (fun x i =>
        let e := 8 * (a - o.mem) + i
        let bit := if es.contains e then (v.vm.readAt c.accesses .mask (o.treg % 8 * 8192 + e) n).toNat
          else bitsAt (natOf (c.tileAt v a 1 n)) i 1
        x + bit * 2 ^ i) 0
      s.putBytes p r vis ((o.memKeys es).map fun a => (a, byte a))

def State.startVtrn (s : State) (p : Fin 20) (q : QInstr) (t0 : Nat) : State :=
  let o := TrnOp.ofWord q.word q.x
  s.startBlocks p .ve q t0 o.blocks (t0 + 5 + o.blocks) none

/-! ### VGATH, VSCAT, SCATADD.U (R141 to R143, R189) -/

/-- The operands of the indexed instructions. -/
structure GathOp where
  fmt : Fmt
  data : Nat
  index : Nat
  count : Nat
  tr : Bool
  pred : Nat
  deriving DecidableEq, Repr

def GathOp.ofWord (w : IWord) : GathOp :=
  { fmt := .ofCode (fld w 24 4), data := fld w 28 5, index := fld w 33 5, count := fld w 60 13 + 1, tr := flag w 73,
    pred := fld w 74 4 }

def GathOp.z (o : GathOp) : Nat := if o.fmt.bits = 16 then 2 else 4

/-- The bank of a tile address for elements of `z` bytes (R113), its block being one of those that follow one another from tile address 0 on
(DESIGN CHOICE, log 70). -/
def bankOf (a z : Nat) : Nat := let e := a / z % 1024; (e / 32 + e % 32) % 32

/-- Accesses beyond one to the busiest bank (R143). -/
def bankExtra (as : List Nat) (z : Nat) : Nat :=
  (List.range 32).foldl (fun m b => max m ((as.filter fun a => bankOf a z == b).length)) 1 - 1

def GathOp.blocks (o : GathOp) : Nat := cdiv o.count 32

/-- What the indexed instruction does with the elements it addresses. -/
inductive Indexed where
  | gather
  | scatter
  | add
  deriving DecidableEq, Repr

def indexedOf (opcode : Nat) : Indexed := if opcode = 0x034 then .gather else if opcode = 0x035 then .scatter else .add

def Indexed.perm : Indexed → Perm
  | .gather => .read | .scatter => .write | .add => .both

/-- Elements `es` with the addresses their indices name in cycle `r`. -/
def GathOp.targets (o : GathOp) (base : Int) (c : Core) (v : VCore) (es : List Nat) (r : Nat) : List (Nat × Int) :=
  es.map fun e => (e, base + signedOf 32 (c.elemAt v o.index e o.tr .int32 r) * (o.z : Int))

/-- An address lies outside the instruction's region, the one that holds its base address, or that region lacks the permission
(R141; DEDUCED, log 22). -/
def GathOp.outside (o : GathOp) (v : VCore) (base : Int) (need : Perm) (a : Int) : Bool :=
  match v.regions.find? (·.holds base) with
  | none => true
  | some g => !(g.allows need && decide ((g.base : Int) ≤ a) && decide (a + o.z ≤ g.base + g.len))

/-- The addresses of targets as accesses of tile memory. -/
def GathOp.memReads (o : GathOp) (ts : List (Nat × Int)) (r : Nat) (q : QInstr) : List Access :=
  ts.map fun x => .read .tile x.2.toNat o.z r q.strand q.pc

/-- Reads of registers for elements `es` of a block in cycle `r`. -/
def GathOp.reads (o : GathOp) (kind : Indexed) (es : List Nat) (r : Nat) (q : QInstr) : List Access :=
  seqReads o.index es o.tr r q.strand q.pc ++ if kind = .gather then [] else seqReads o.data es o.tr r q.strand q.pc

/-- Insert by key. -/
def insertBy (key : Nat → Nat) (x : Nat × Nat × Nat) : List (Nat × Nat × Nat) → List (Nat × Nat × Nat)
  | [] => [x]
  | y :: ys => if key x.1 < key y.1 then x :: y :: ys else y :: insertBy key x ys

/-- One addition of SCATADD.U (R189): RNE in the format, or INT32 saturation. -/
def scatAdd (f : Fmt) (ftz : Bool) (old new : Nat) : Rounded := vopElem f ftz 0 old new 0

/-- The sum at address `a` of elements (element, address, bits) so far, in an order that nothing fixes (`Config.orderKey`). -/
def GathOp.sumAt (o : GathOp) (ftz : Bool) (ev old a : Nat) (xs : List (Nat × Nat × Nat)) : Rounded :=
  ((xs.filter fun x => x.2.1 == a).foldl (fun l x => insertBy (Config.orderKey ev) x l) []).foldl (fun (st : Rounded) x =>
    let r := scatAdd o.fmt ftz st.1 x.2.2
    (r.1, st.2.or r.2)) (old, .none)

/-- The first contents of an address that a scatter has written before, else what stands there now. -/
def Run.earlier (r : Run) (a : Nat) (now : List Byte) : List Byte := match r.bytes.find? fun x => x.1 == a with
  | some x => x.2
  | none => now

/-- An indexed instruction after a region fault or an uncorrectable read in the present block (R141, Table 6.7): a gather's
destination elements are undefined; a location that an in-region index of a scatter names holds its earlier value or one that
some element would write there; one that a scatter-add names is undefined. No further block follows. -/
def State.failIndexed (s : State) (p : Fin 20) (r : Run) (o : GathOp) (kind : Indexed) (base : Int) (fault : Nat × Nat) : State × Run :=
  let n := (s.core p).cycle
  let (s, r) := s.failRun p r fault (kind != .scatter)
  let c := s.core p
  let r := { r with todo := [] }
  match c.v with
  | none => (s, r)
  | some v =>
    let es := (List.range o.count).filter fun e => c.onAt v o.pred e n
    let ts := ((o.targets base c v es n).filter fun x => !o.outside v base kind.perm x.2).map fun x => (x.1, x.2.toNat)
    match kind with
    | .gather => s.putElems p r o.data o.tr n false false ((List.range o.count).map fun e => (e, 0))
    | .scatter =>
      let (ev, s) := s.fresh
      let val (e : Nat) : List Byte := bytesOf o.z (v.vt.readAt c.accesses .treg (slotOf o.data e o.tr) n).toNat
      let all := ts.map (fun x => (x.2, val x.1)) ++ r.seen.map fun x => (x.1, bytesOf o.z x.2)
      all.foldl (fun st x =>
        let cands := r.earlier x.1 (v.readTile x.1 o.z) :: (all.filter fun y => y.1 == x.1).map (·.2)
        State.putRun st.1 p st.2 (st.2.put .tile x.1 n n)
          ((cands.getD ((Config.undef 16 ev x.1).toNat % cands.length) []).map BitVec.toNat)) (s, r)
    | .add => ts.foldl (fun st x => State.putRun st.1 p st.2 (st.2.put .tile x.2 n n) (List.replicate o.z 0)) (s, r)

/-- Clock periods for which the accesses beyond one to the busiest bank freeze block `k` in cycle `n` (R143); an access outside its region
ends the instruction instead. -/
def Core.conflicts (c : Core) (q : QInstr) (k n : Nat) : Nat :=
  match c.v with
  | none => 0
  | some v =>
    let o := GathOp.ofWord q.word
    let base := taAt q.word q.x 38
    let ts := o.targets base c v ((blockElems o.count 32 k).filter fun e => c.onAt v o.pred e n) n
    if ts.any fun x => o.outside v base (indexedOf (fld q.word 0 10)).perm x.2 then 0 else bankExtra (ts.map fun x => x.2.toNat) o.z

/-- One block of VGATH, VSCAT or SCATADD.U: indices are read, each address is checked, accesses beyond one to the busiest bank have
frozen the domain (R143), and the elements move. -/
def State.indexPiece (s : State) (p : Fin 20) (r : Run) (k : Nat) : State × Run :=
  let o := GathOp.ofWord r.q.word
  let kind := indexedOf (fld r.q.word 0 10)
  let base := taAt r.q.word r.q.x 38
  let n := (s.core p).cycle
  let c := s.core p
  match c.v with
  | none => (s, r)
  | some v =>
    let es := (blockElems o.count 32 k).filter fun e => c.onAt v o.pred e n
    let (s, r) := s.meet p r false (o.reads kind es n r.q)
    let c := s.core p
    let v := s.vNow p v
    let ts := o.targets base c v es n
    match ts.find? fun x => o.outside v base kind.perm x.2 with
    | some x => s.failIndexed p r o kind base (2, infoAddr x.2)
    | none =>
      let extra := bankExtra (ts.map fun x => x.2.toNat) o.z
      let s := s.modCore p fun c => { c with gconf := c.gconf + extra }
      let s := if kind = .scatter then s else s.readNow p (o.memReads ts n r.q)
      let c := s.core p
      let v := s.vNow p v
      match (if kind = .scatter then none else (o.memReads ts n r.q).findSome? v.badAccess) with
      | some f => s.failIndexed p r o kind base f
      | none =>
        let vis := r.t0 + 9 + k
        match kind with
        | .gather => s.putElems p r o.data o.tr vis false false (ts.map fun x => (x.1, natOf (c.tileAt v x.2.toNat o.z n)))
        | .scatter =>
          ts.foldl (fun st x =>
            let val := (v.vt.readAt c.accesses .treg (slotOf o.data x.1 o.tr) n).toNat
            let a := x.2.toNat
            let r : Run := st.2
            let r := { r with bytes := if r.bytes.any fun y => y.1 == a then r.bytes else r.bytes ++ [(a, c.tileAt v a o.z n)],
                              seen := r.seen ++ [(a, val)] }
            State.putRun st.1 p r (r.put .tile a n vis) ((bytesOf o.z val).map BitVec.toNat)) (s, r)
        | .add =>
          let (ev, s) := if r.carry = 0 then ((s.free : Nat), s.fresh.2) else (r.carry - 1, s)
          let as := (ts.map fun x => x.2.toNat).eraseDups
          let r := { r with carry := ev + 1,
                            words := r.words ++ ts.map fun x => (x.1, [x.2.toNat, c.elemAt v o.data x.1 o.tr o.fmt n]),
                            bytes := as.foldl (fun b a => if b.any fun y => y.1 == a then b else b ++ [(a, c.tileAt v a o.z n)]) r.bytes }
          let xs := r.words.map fun x => (x.1, x.2.getD 0 0, x.2.getD 1 0)
          let sum (a : Nat) : Rounded := o.sumAt s.job.ftz ev (natOf (r.earlier a [])) a xs
          let s := if k + 1 < o.blocks then s else s.runFlags p r (r.bytes.foldl (fun f b => f.or (sum b.1).2) .none)
          as.foldl (fun st a => State.putRun st.1 p st.2 (st.2.put .tile a n vis) ((bytesOf o.z (sum a).1).map BitVec.toNat)) (s, r)

def State.startIndexed (s : State) (p : Fin 20) (q : QInstr) (t0 : Nat) : State :=
  let o := GathOp.ofWord q.word
  s.startBlocks p .ve q t0 o.blocks (t0 + 8 + o.blocks) none

/-! ### VSCAN (R144 to R146) -/

/-- The operands of VSCAN. -/
structure ScanOp where
  fmt : Fmt
  src : Nat
  dst : Nat
  excl : Bool
  seg : Bool
  vms : Nat
  count : Nat
  tr : Bool
  deriving DecidableEq, Repr

def ScanOp.ofWord (w : IWord) : ScanOp :=
  { fmt := .ofCode (fld w 24 4), src := fld w 28 5, dst := fld w 33 5, excl := flag w 38, seg := flag w 39, vms := fld w 40 3,
    count := fld w 43 13 + 1, tr := flag w 56 }

/-- A scanned value with its flags: a float sum RNE in fmt. -/
def addRne (ff : FloatFmt) (ftz : Bool) (a b : Nat) : Rounded := ff.rne ftz ((ff.decode a).add (ff.decode b))

/-- One Kogge–Stone level at distance `d` on (value, flag) pairs (R145). -/
def scanLevel (ff : FloatFmt) (ftz : Bool) (st : List (Nat × Bool) × ArithFlags) (d : Nat) : List (Nat × Bool) × ArithFlags :=
  let ys := st.1
  let rs : List ((Nat × Bool) × ArithFlags) := ys.zipIdx.map fun y =>
    let j := y.2
    if j < d then (y.1, .none)
    else
      let p := ys.getD (j - d) (0, false)
      let g := y.1.2 || p.2
      if y.1.2 then ((y.1.1, g), .none)
      else let r := addRne ff ftz p.1 y.1.1; ((r.1, g), r.2)
  (rs.map (·.1), rs.foldl (fun a r => a.or r.2) st.2)

/-- One chunk of a float scan: outputs, the carry out and flags; `first` chunk takes no carry (R145). -/
def scanChunk (ff : FloatFmt) (ftz first : Bool) (carry : Nat) (xs : List (Nat × Bool)) : List Nat × ArithFlags :=
  let (ys, fl) := [1, 2, 4, 8, 16].foldl (scanLevel ff ftz) (xs, .none)
  let rs := ys.map fun y => if !first && !y.2 then addRne ff ftz carry y.1 else (y.1, .none)
  (rs.map (·.1), rs.foldl (fun a r => a.or r.2) fl)

/-- One chunk of an INT32 scan: the exact inclusive sum at each element, `carry` before it (R146). -/
def scanChunkInt : Int → List (Nat × Bool) → List Int
  | _, [] => []
  | carry, x :: xs =>
    let t := (if x.2 then 0 else carry) + signedOf 32 x.1
    t :: scanChunkInt t xs

/-- An element of a scan as it enters: flushed, and a NaN in the canonical form that every result has (R42, R60). -/
def scanIn (f : Fmt) (ftz : Bool) (b : Nat) : Nat × ArithFlags :=
  match f.float with
  | none => (b, .none)
  | some ff =>
    let (val, fl) := iflushAt ff.emin ftz (ff.decode b)
    (if fl.ftz then ff.signBit val.sign else if val.isNan then ff.nanBits else b, fl)

def ScanOp.blocks (o : ScanOp) : Nat := cdiv o.count 32

def ScanOp.reads (o : ScanOp) (es : List Nat) (r : Nat) (q : QInstr) : List Access :=
  seqReads o.src es o.tr r q.strand q.pc
    ++ if o.seg then runAccesses .mask (es.map fun e => o.vms * 8192 + e) r q.strand q.pc else []

/-- One chunk of a VSCAN. An exclusive output is 0 at element 0 and at a segment start, else the inclusive sum one element
before; INT32 sets isat where an output is clamped. -/
def State.scanPiece (s : State) (p : Fin 20) (r : Run) (k : Nat) : State × Run :=
  let o := ScanOp.ofWord r.q.word
  let c := s.core p
  let n := c.cycle
  match c.v with
  | none => (s, r)
  | some v =>
    let es := blockElems o.count 32 k
    let (s, r) := s.meet p r false (o.reads es n r.q)
    let ins := es.map fun e => scanIn o.fmt s.job.ftz (c.elemAt v o.src e o.tr o.fmt n)
    let flag (e : Nat) : Bool := o.seg && v.vm.readAt c.accesses .mask (o.vms * 8192 + e) n == 1
    let xs := (ins.map (·.1)).zip (es.map flag)
    let fin := ins.foldl (fun a x => a.or x.2) ArithFlags.none
    let start (j : Nat) : Bool := (k == 0 && j == 0) || (xs.getD j (0, false)).2
    let (shown, fl, r) : List Nat × ArithFlags × Run := match o.fmt.float with
      | some ff =>
        let (ys, f) := scanChunk ff s.job.ftz (k == 0) r.carry xs
        (if o.excl then (List.range ys.length).map fun j =>
            if start j then 0 else if j = 0 then r.carry else ys.getD (j - 1) 0
          else ys, f, { r with carry := ys.getLastD 0 })
      | none =>
        let ts := scanChunkInt r.total xs
        let outs : List Int := if o.excl then (List.range ts.length).map fun j =>
            if start j then 0 else if j = 0 then r.total else ts.getD (j - 1) 0
          else ts
        (outs.map fun t => patternOf 32 (clampSigned 32 t), .onlyIsat (outs.any fun t => clampSigned 32 t != t),
          { r with total := ts.getLastD 0 })
    let s := s.runFlags p r (fin.or fl)
    let (s, r) := s.putElems p r o.dst o.tr (r.t0 + 10 + k) false true (es.zip shown)
    (if k + 1 < o.blocks then s else s.checkVector p r o.fmt, r)

def State.startVscan (s : State) (p : Fin 20) (q : QInstr) (t0 : Nat) : State :=
  let o := ScanOp.ofWord q.word
  s.startBlocks p .ve q t0 o.blocks (t0 + 9 + o.blocks) none

/-! ### RNGMASK (R157) -/

/-- The operands of RNGMASK with the two words it names, read at issue. -/
structure RngOp where
  dst : Nat
  rngstream : Nat
  count : Nat
  pred : Nat
  ebase : Nat
  thr : Nat
  deriving DecidableEq, Repr

def RngOp.ofWord (w : IWord) (rec : List Byte) : RngOp :=
  { dst := fld w 24 3, rngstream := fld w 27 32, count := fld w 109 13 + 1, pred := fld w 122 4, ebase := natAt rec 0 8,
    thr := min (natAt rec 8 8) 4294967296 }

def RngOp.blocks (o : RngOp) : Nat := cdiv o.count 512

/-- One block of an RNGMASK. -/
def State.rngPiece (s : State) (p : Fin 20) (r : Run) (k : Nat) : State × Run :=
  let o := RngOp.ofWord r.q.word r.q.record
  let c := s.core p
  match c.v with
  | none => (s, r)
  | some v =>
    let es := (blockElems o.count 512 k).filter fun e => c.onAt v o.pred e c.cycle
    s.putBits p r o.dst (r.t0 + 16 + k) (es.map fun e =>
      (e, ofBool (decide (maskR s.job.seed (o.ebase + e) r.q.stepTag.toNat o.rngstream < o.thr))))

def State.startRngmask (s : State) (p : Fin 20) (q : QInstr) (t0 : Nat) : State :=
  let o := RngOp.ofWord q.word q.record
  s.startBlocks p .ve q t0 o.blocks (t0 + 15 + o.blocks) none

/-! ### RED (R150 to R154) -/

/-- The operands of RED. -/
structure RedOp where
  op : Nat
  fmt : Fmt
  src : Nat
  count : Nat
  tr : Bool
  axis : Nat
  dst : Nat
  idx : Nat
  pred : Nat
  deriving DecidableEq, Repr

def RedOp.ofWord (w : IWord) : RedOp :=
  { op := fld w 24 3, fmt := .ofCode (fld w 27 4), src := fld w 31 5, count := fld w 36 13 + 1, tr := flag w 49, axis := fld w 50 2,
    dst := fld w 52 5, idx := fld w 57 5, pred := fld w 62 4 }

/-- Results of a RED: one per group, 32 per tile, or one. -/
def RedOp.results (o : RedOp) : Nat := if o.axis = 0 then o.count / 32 else if o.axis = 1 then 32 * cdiv o.count 1024 else 1

/-- Element numbers of result `g`'s set, in set order. -/
def RedOp.set (o : RedOp) (g : Nat) : List Nat :=
  if o.axis = 0 then (List.range 32).map (32 * g + ·)
  else if o.axis = 1 then
    let tile := g / 32
    (List.range (min 32 ((o.count - 1024 * tile) / 32))).map fun i => 1024 * tile + 32 * i + g % 32
  else List.range o.count

/-- A member of a reduction: absent, or its value bits as FP32. -/
abbrev Member := Option Nat

/-- Pairs of one level, an odd last member passing unchanged (R151, R152). -/
def pairUp (f : Nat → Nat → Rounded) : List Member → List Member × ArithFlags
  | a :: b :: rest =>
    let (xs, fl) := pairUp f rest
    match a, b with
    | some x, some y => let r := f x y; (some r.1 :: xs, fl.or r.2)
    | some x, none => (some x :: xs, fl)
    | none, m => (m :: xs, fl)
  | xs => (xs, .none)

/-- The pairwise tree over at most 32 members. -/
def treeUp (f : Nat → Nat → Rounded) : Nat → List Member × ArithFlags → List Member × ArithFlags
  | 0, st => st
  | n + 1, st => if st.1.length ≤ 1 then st else let r := pairUp f st.1; treeUp f n (r.1, st.2.or r.2)

/-- The first level of sum of squares: two exact squares rounded once, or one square rounded (R152). -/
def squareUp (ftz : Bool) : List Member → List Member × ArithFlags
  | [] => ([], .none)
  | [a] => match a with
    | some x => let r := fp32.rne ftz ((fp32.decode x).mul (fp32.decode x)); ([some r.1], r.2)
    | none => ([none], .none)
  | a :: b :: rest =>
    let (xs, fl) := squareUp ftz rest
    let sq (m : Member) : Val := match m with
      | some x => (fp32.decode x).mul (fp32.decode x)
      | none => .zero false
    match a, b with
    | none, none => (none :: xs, fl)
    | _, _ => let r := fp32.rne ftz ((sq a).add (sq b)); (some r.1 :: xs, fl.or r.2)

/-- A floating-point sum, or sum of squares, of a set (R152): chunks of 32, joined left to right. -/
def redFloat (ftz squares : Bool) (ms : List Member) : Rounded :=
  let one (c : List Member) : List Member × ArithFlags :=
    let st := if squares then squareUp ftz c else (c, .none)
    treeUp (addRne fp32 ftz) 6 st
  let cs := (chunks 32 ms).map one
  let fl := cs.foldl (fun a c => a.or c.2) .none
  let join := cs.foldl (fun (st : Member × ArithFlags) c => match st.1, c.1.headD none with
    | none, m => (m, st.2)
    | some x, none => (some x, st.2)
    | some x, some y => let r := addRne fp32 ftz x y; (some r.1, st.2.or r.2)) (none, fl)
  (join.1.getD 0, join.2)

/-- An INT32 total clamped once (R153). -/
def redInt (squares : Bool) (xs : List Int) : Rounded :=
  let t := xs.foldl (fun a x => a + (if squares then x * x else x)) 0
  (patternOf 32 (clampSigned 32 t), .onlyIsat (clampSigned 32 t != t))

/-- Max or min of the participating (position, value): the winner's position and value (R154). -/
def redBest (isMax : Bool) (xs : List (Nat × Val)) : Option (Nat × Val) :=
  match xs.find? fun x => x.2.isNan with
  | some x => some x
  | none => xs.foldl (fun best x => match best with
    | none => some x
    | some b => if (if isMax then below b.2 x.2 else below x.2 b.2) then some x else some b) none

/-- The result of one set: (dst bits, index bits) or none to leave the slots, and the flags. `xs` are the participating
(position, element bits) of the set, `len` its length. -/
def RedOp.reduce (o : RedOp) (ftz : Bool) (len : Nat) (xs : List (Nat × Nat)) : Option (Nat × Nat) × ArithFlags :=
  match o.fmt.float with
  | some ff =>
    let vs := xs.map fun x => (x.1, iflushAt ff.emin ftz (ff.decode x.2))
    let fl := vs.foldl (fun a v => a.or v.2.2) .none
    let bits := vs.map fun v => (v.1, (fp32.rne false v.2.1).1)
    let members : List Member := (List.range len).map fun i => (bits.find? fun b => b.1 == i).map (·.2)
    match o.op with
    | 0 => let r := redFloat ftz false members; (some (r.1, 0), fl.or r.2)
    | 1 => let r := redFloat ftz true members; (some (r.1, 0), fl.or r.2)
    | 4 => (some ((vs.filter fun v => !v.2.1.isZero).length, 0), fl)
    | _ => match redBest (o.op == 2) (vs.map fun v => (v.1, v.2.1)) with
      | none => (none, fl)
      | some w => (some ((ff.rne false w.2).1, w.1), fl)
  | none =>
    let is := xs.map fun x => (x.1, signedOf 32 x.2)
    match o.op with
    | 0 => let r := redInt false (is.map (·.2)); (some (r.1, 0), r.2)
    | 1 => let r := redInt true (is.map (·.2)); (some (r.1, 0), r.2)
    | 4 => (some ((is.filter fun i => i.2 != 0).length, 0), .none)
    | _ => match redBest (o.op == 2) (is.map fun i => (i.1, Val.ofInt i.2)) with
      | none => (none, .none)
      | some w => (some (match is.find? fun i => i.1 == w.1 with
          | some i => patternOf 32 i.2
          | none => 0, w.1), .none)

/-- The format of the results (R152 to R154). -/
def RedOp.outFmt (o : RedOp) : Fmt := if o.op = 4 || o.fmt = .int32 then .int32 else if o.op ≤ 1 then .fp32 else o.fmt

/-- The block whose end completes result `g`. -/
def RedOp.block (o : RedOp) (g : Nat) : Nat :=
  if o.axis = 0 then (32 * g + 31) / 512
  else if o.axis = 1 then (min o.count (1024 * (g / 32 + 1)) - 1) / 512
  else cdiv o.count 512 - 1

def RedOp.blocks (o : RedOp) : Nat := cdiv o.count 512

/-- The cycle in which the results of block `k` are visible (Table 5.5). -/
def RedOp.visible (o : RedOp) (t0 k : Nat) : Nat := if o.axis = 2 then t0 + 10 + o.blocks + cdiv o.count 32 else t0 + 10 + k

/-- The results that block `k` completes. -/
def RedOp.done (o : RedOp) (k : Nat) : List Nat := (List.range o.results).filter fun g => o.block g == k

/-- Where the results of block `k` go. -/
def RedOp.writes (o : RedOp) (k r visible : Nat) (q : QInstr) : List Access :=
  asWrites (seqReads o.dst (o.done k) false r q.strand q.pc
    ++ if o.op = 2 || o.op = 3 then seqReads o.idx (o.done k) false r q.strand q.pc else []) visible true

/-- One block of a RED: its elements are read, and the sets it completes are reduced. -/
def State.redPiece (s : State) (p : Fin 20) (r : Run) (k : Nat) : State × Run :=
  let o := RedOp.ofWord r.q.word
  let c := s.core p
  let n := c.cycle
  match c.v with
  | none => (s, r)
  | some v =>
    let es := (blockElems o.count 512 k).filter fun e => c.onAt v o.pred e n
    let (s, r) := s.meet p r false (seqReads o.src es o.tr n r.q.strand r.q.pc)
    let r := { r with seen := r.seen ++ es.map fun e => (e, c.elemAt v o.src e o.tr o.fmt n) }
    let outs := (o.done k).map fun g =>
      let set := o.set g
      (g, o.reduce s.job.ftz set.length (set.zipIdx.filterMap fun e => (r.seen.find? fun y => y.1 == e.1).map fun y => (e.2, y.2)))
    let s := s.runFlags p r (outs.foldl (fun a u => a.or u.2.2) .none)
    let vis := o.visible r.t0 k
    let (s, r) := s.putElems p r o.dst false vis true true (outs.filterMap fun u => u.2.1.map fun y => (u.1, y.1))
    let (s, r) := if o.op = 2 || o.op = 3 then
        s.putElems p r o.idx false vis true false (outs.filterMap fun u => u.2.1.map fun y => (u.1, y.2))
      else (s, r)
    (if k + 1 < o.blocks then s else s.checkVector p r o.outFmt, r)

def State.startRed (s : State) (p : Fin 20) (q : QInstr) (t0 : Nat) : State :=
  let o := RedOp.ofWord q.word
  s.startBlocks p .ru q t0 o.blocks (if o.axis = 2 then t0 + 10 + o.blocks + cdiv o.count 32 else t0 + 9 + o.blocks) none

/-! ### What vector and reduction instructions access, for the audit modes (R195, R196) -/

/-- Reads and writes of a vector or reduction instruction that takes effect at `t0`, by the predicate and the indices as they
stand; its record and step tag apart. -/
def QInstr.blockAccesses (q : QInstr) (c : Core) (v : VCore) (t0 : Nat) : List Access × List Access :=
  let op := fld q.word 0 10
  let join (n b count mk : Nat) (f : Nat → List Nat → Nat → List Access × List Access) : List Access × List Access :=
    let each := (List.range n).map fun k =>
      let es := (blockElems count b k).filter fun e => c.onAt v mk e (t0 + 1 + k)
      let x := f k es (t0 + 1 + k)
      (maskReads mk (b * k) (min b (count - b * k)) (t0 + 1 + k) q.strand q.pc ++ x.1, x.2)
    (each.flatMap (·.1), each.flatMap (·.2))
  if op = 0x030 then
    let o := VopOp.ofWord q.word
    join o.blocks o.block o.count o.pred fun k es r => (o.reads es r q, o.writes es r (t0 + o.latency + k) q)
  else if op = 0x031 then
    let o := CvtOp.ofWord q.word q.x q.record
    join o.blocks o.block o.count o.pred fun k es r => (o.reads es r q, o.writes es r (t0 + 8 + k) q)
  else if op = 0x032 then
    let o := ScanOp.ofWord q.word
    join o.blocks 32 o.count 0 fun k es r => (o.reads es r q, asWrites (seqReads o.dst es o.tr r q.strand q.pc) (t0 + 10 + k))
  else if op = 0x033 then
    let o := TrnOp.ofWord q.word q.x
    join o.blocks o.block o.count o.pred fun k es r => (o.reads es r q, o.writes es r (t0 + 6 + k) q)
  else if op = 0x036 then
    let o := RngOp.ofWord q.word q.record
    join o.blocks 512 o.count o.pred fun k es r =>
      ([], asWrites (runAccesses .mask (es.map fun e => o.dst * 8192 + e) r q.strand q.pc) (t0 + 16 + k))
  else if op = 0x040 then
    let o := RedOp.ofWord q.word
    join o.blocks 512 o.count o.pred fun k es r => (seqReads o.src es o.tr r q.strand q.pc, o.writes k r (o.visible t0 k) q)
  else
    let o := GathOp.ofWord q.word
    let kind := indexedOf op
    let base := taAt q.word q.x 38
    join o.blocks 32 o.count o.pred fun k es r =>
      let ts := (o.targets base c v es r).filter fun x => !o.outside v base kind.perm x.2
      let mem := o.memReads ts r q
      (o.reads kind es r q ++ (if kind = .scatter then [] else mem),
       if kind = .gather then asWrites (seqReads o.data es o.tr r q.strand q.pc) (t0 + 9 + k) else asWrites mem (t0 + 9 + k))

end Sys2Proof.Machine
end

