-- ==== Sys2Proof/Machine/Advance.lean ====
section
/-! DEFINITION. The core's clock with what the running instructions do in each counted cycle (R12, R101, R108, R160), when a queued
instruction takes effect (R102, R105, R159), and what a core still has to do. -/

namespace Sys2Proof.Machine

/-! ### Pieces -/

/-- A piece of an indexed or other vector or reduction instruction. -/
def State.blockPiece (s : State) (p : Fin 20) (r : Run) (k : Nat) : State × Run :=
  let op := fld r.q.word 0 10
  if op = 0x030 then s.vopPiece p r k
  else if op = 0x031 then s.cvtPiece p r k
  else if op = 0x032 then s.scanPiece p r k
  else if op = 0x033 then s.trnPiece p r k
  else if op = 0x036 then s.rngPiece p r k
  else if op = 0x040 then s.redPiece p r k
  else s.indexPiece p r k

/-- Unit `k` of a WTAP feed is read and goes to the digest unit (R272, R273), whose queue has room for it. -/
def State.feedPiece (s : State) (p : Fin 20) (r : Run) (k : Nat) : State × Run :=
  let u := fld r.q.word 24 3
  let a := (taAt r.q.word r.q.x 29).toNat + 64 * k
  let (s, r) := s.meet p r false [r.read .tile a 64 (r.t0 + 1 + k)]
  let c := s.core p
  let bytes := match r.undef, c.v with
    | none, some v => c.tileAt v a 64 (r.t0 + 1 + k)
    | e, _ => (List.range 64).map fun i => Config.undef 8 (e.getD 0) (a + i)
  (s.modUnit u fun y => y.take r.t0 bytes c.clk, r)

/-- A piece uses the banks of tile memory for a feed of the array, or for VTRN, VCVT, VGATH, VSCAT or SCATADD.U (R108, R160): one that
stores uses them in the cycle in which its block is read (DESIGN CHOICE, log 70). -/
def Run.readsTile (r : Run) : Piece → Bool
  | .token _ _ => !r.q.passOp.ssel
  | .weights _ => match r.q.armed with
    | some l => !l.ssel
    | none => false
  | .block _ =>
    let op := fld r.q.word 0 10
    (op == 0x033 && (TrnOp.ofWord r.q.word r.q.x).mode != 2) || op == 0x034 || op == 0x035 || op == 0x200
      || (op == 0x031 && (CvtOp.ofWord r.q.word r.q.x r.q.record).msel)
  | _ => false

/-- One piece of a running instruction, in its cycle. -/
def State.piece (s : State) (p : Fin 20) (r : Run) (x : Piece) : State × Run :=
  match x with
  | .weights k => match r.q.armed with
    | some l => s.loadPiece p r l true k
    | none => (s, r)
  | .loadRow k => s.loadPiece p r (.ofWord r.q.word r.q.x) false k
  | .token t _ => s.tokenPiece p r t
  | .accum t _ => s.accumPiece p r t
  | .result t pos => s.resultPiece p r t pos
  | .clear t n pos => s.clearPiece p r t n pos
  | .drainRow k => s.drainPiece p r k
  | .block k => s.blockPiece p r k
  | .feed k => s.feedPiece p r k

/-! ### Cycles -/

/-- The least of the cycles that start a run's sequences. -/
def leastCycle : List (List (Nat × Piece)) → Option Nat
  | [] => none
  | [] :: qs => leastCycle qs
  | (x :: _) :: qs => some (match leastCycle qs with
    | some n => min x.1 n
    | none => x.1)

/-- The next cycle in which a running instruction does something. -/
def Core.due (c : Core) : Option Nat := leastCycle (c.runs.flatMap (·.todo))

/-- Pieces that are still to come. -/
def Core.pieces (c : Core) : Nat := (c.runs.map fun r => (r.todo.map List.length).foldl (· + ·) 0).foldl (· + ·) 0

/-- The pieces of a run that fall in cycle `n` or earlier at the head of its sequences, and the sequences after them. -/
def takeDue (n : Nat) : List (List (Nat × Piece)) → List Piece × List (List (Nat × Piece))
  | [] => ([], [])
  | q :: qs =>
    let r := takeDue n qs
    match q with
    | [] => (r.1, [] :: r.2)
    | x :: rest => if x.1 ≤ n then (x.2 :: r.1, rest :: r.2) else (r.1, q :: r.2)

/-- The pieces that a run has in cycle `n`. -/
def State.runStep (s : State) (p : Fin 20) (r : Run) (n : Nat) : State × Run :=
  let d := takeDue n r.todo
  d.1.foldl (fun st x => State.piece st.1 p st.2 x) (s, { r with todo := d.2 })

/-- Cycle `n` for runs in turn, oldest first. -/
def State.stepRuns (s : State) (p : Fin 20) (n : Nat) : List Run → State × List Run
  | [] => (s, [])
  | r :: rs =>
    let (s, r) := s.runStep p r n
    let (s, rs) := s.stepRuns p n rs
    (s, r :: rs)

/-- What every running instruction of a core does in cycle `n`; one with nothing left is done. -/
def State.sweep (s : State) (p : Fin 20) (n : Nat) : State :=
  let (s, rs) := s.stepRuns p n (s.core p).runs
  s.modCore p fun c => ({ c with runs := rs.filter fun r => r.todo.any fun q => !q.isEmpty }).pruneAccesses s.job.raceAudit

/-! ### Freezes under 0x01 (R32, R108, R143, R160, R273) -/

/-- Clock periods for which piece `x` of cycle `n` holds the domain back under 0x01, counted from the first in which the cycle could have
come: tile-memory banks not ready (`Config.bankWait`), and conflicts of indices. -/
def Core.pieceWait (c : Core) (p : Fin 20) (r : Run) (n : Nat) (x : Piece) : Nat :=
  max (if r.readsTile x then Config.bankWait p.val (c.clk - c.frozen) else 0)
    (match x with
     | .block k => if laneOf r.q.word == some .ve && [0x034, 0x035, 0x200].contains (fld r.q.word 0 10) then c.conflicts r.q k n else 0
     | _ => 0)

/-- The pieces that fall in cycle `n` or before, each with its run. -/
def Core.piecesDue (c : Core) (n : Nat) : List (Run × Piece) :=
  c.runs.flatMap fun r => (takeDue n r.todo).1.map fun x => (r, x)

/-- Clock periods for which the queue of the unit that feed piece `x` goes to has no room for it (R273). -/
def State.feedWait (s : State) (clk : Nat) (x : Run × Piece) : Nat := match x.2 with
  | .feed _ => (s.rep.units[fld x.1.q.word 24 3]!).full64 clk
  | _ => 0

/-- Clock periods for which cycle `n` still waits under 0x01. Causes of one cycle wait together (R32). -/
def State.bankDemand (s : State) (p : Fin 20) (n : Nat) : Nat :=
  let c := s.core p
  maxOf ((c.piecesDue n).map fun x => max (c.pieceWait p x.1 n x.2 - c.frozen) (s.feedWait c.clk x))

/-- `k` clock periods before cycle `n` are frozen under `code`; those in which a witness queue has no room count in its unit (R273). -/
def State.freezeFor (s : State) (p : Fin 20) (n code k : Nat) : State :=
  let c := s.core p
  ((c.piecesDue n).foldl (fun (s : State) x => match x.2 with
    | .feed _ => s.modUnit (fld x.1.q.word 24 3) fun u => { u with full := u.full + min k (s.feedWait c.clk x) }
    | _ => s) s).modCore p fun c => c.freeze code k

/-- The core goes on to counted cycle `n`, in which pieces fall: first what holds it back under 0x01. -/
def State.reach (s : State) (p : Fin 20) (n : Nat) (codes : State → CycleCodes) : State :=
  let s := s.passTo p (n - 1) (codes s)
  let wait := if (s.core p).cycle < n then s.bankDemand p n else 0
  let s := if wait = 0 then s else s.freezeFor p n 1 wait
  s.passTo p n (codes s)

/-- The core goes on to counted cycle `t`, through at most `fuel` cycles in which an instruction does something; `codes` are those under
which its cycles count. -/
def State.advanceFor (codes : State → CycleCodes) : Nat → State → Fin 20 → Nat → State
  | 0, s, p, t => s.passTo p t (codes s)
  | fuel + 1, s, p, t =>
    match (s.core p).due with
    | some n => if n ≤ t then State.advanceFor codes fuel ((s.reach p n codes).sweep p n) p t else s.passTo p t (codes s)
    | none => s.passTo p t (codes s)

/-- The core goes on to counted cycle `t`; its running instructions do what falls in the cycles on the way. No cycle of it waits: an
instruction issues at `t`, or one that runs or is queued acts there. In the recheck context every cycle belongs to the stop of a trip
(R346). -/
def State.advance (s : State) (p : Fin 20) (t : Nat) : State :=
  State.advanceFor (fun s => plainCodes (s.pow.stretched p) ++ if (s.core p).recheck.isSome then [(0x0B, 0)] else [])
    (s.core p).pieces s p t

/-! ### Feeds that run dry (R108) -/

/-- The buffer that a piece takes bytes from, and how many (R210). -/
def Run.takes (r : Run) : Piece → Option (Nat × Nat)
  | .token _ _ => let o := r.q.passOp; if o.ssel then some (o.buf, o.recLen) else none
  | .weights _ => r.q.armed.bind fun l => if l.ssel then some (l.buf, l.rowBytes) else none
  | .loadRow _ => let l := LoadOp.ofWord r.q.word r.q.x; if l.ssel then some (l.buf, l.rowBytes) else none
  | _ => none

/-- What a run takes from buffers in cycles up to `t`. -/
def Run.needs (r : Run) (t : Nat) : List (Nat × Nat) :=
  r.todo.flatMap fun q => (q.takeWhile fun x => decide (x.1 ≤ t)).filterMap fun x => r.takes x.2

/-- A feed runs dry before counted cycle `t` can come: its buffer lacks bytes due in it or earlier (R108). -/
def Core.dryBefore (c : Core) (t : Nat) : Bool :=
  match c.v with
  | none => false
  | some v =>
    let needs := c.runs.flatMap (·.needs t)
    (List.range 16).any fun b =>
      decide ((v.buffers[b]!).avail < ((needs.filter fun x => x.1 == b).map (·.2)).foldl (· + ·) 0)

/-! ### Queued instructions and other events of the core itself -/

/-- An instruction of a lane takes effect at `t0`. -/
def State.start (s : State) (p : Fin 20) (l : LaneId) (q : QInstr) (t0 : Nat) : State :=
  match l with
  | .pass => s.startPass p q t0
  | .drain => s.startDrain p q t0
  | .load => s.startLoad p q t0
  | .ru => s.startRed p q t0
  | .ve =>
    let op := fld q.word 0 10
    if op = 0x030 then s.startVop p q t0
    else if op = 0x031 then s.startVcvt p q t0
    else if op = 0x032 then s.startVscan p q t0
    else if op = 0x033 then s.startVtrn p q t0
    else if op = 0x036 then s.startRngmask p q t0
    else s.startIndexed p q t0

/-- The oldest MSWAP whose flip can come now: no fill and no pass issued before it is still to start or complete. -/
def Core.flipDue (c : Core) : Option Nat :=
  match c.swaps with
  | [] => none
  | sw :: _ =>
    if (c.pass.pending.any fun q => q.swaps == 0) || c.filling || c.load.queued.isSome || c.dryBefore (c.flipCycle sw) then none
    else some (c.flipCycle sw)

/-- The cycle in which a lane's next instruction takes effect (R102, R159), once the flips before it have come (R105). -/
def Core.startDue (c : Core) (l : LaneId) : Option Nat :=
  match (c.lane l).head with
  | some q => if q.swaps = 0 && !c.dryBefore (c.lane l).freeAt then some (c.lane l).freeAt else none
  | none => none

/-- The cycle in which the fill that runs has written its last row (R104). -/
def Core.fillDue (c : Core) : Option Nat := if c.filling && !c.dryBefore c.fillAt then some c.fillAt else none

/-- The token counters as the present counted cycle's end leaves them, as far as is known (R173). -/
def Core.tokensNext (c : Core) (v : VCore) : Vector (BitVec 16) 256 :=
  if c.sigNow.isEmpty then v.tokens else (c.endTokens.v.map (·.tokens)).getD v.tokens

/-- Strand `j` waits at a TWAIT on counter `ctr` that a value of the counters satisfies. -/
def VCore.tokenReady (v : VCore) (tokens : Vector (BitVec 16) 256) (ctr : BitVec 8) (j : Fin 128) : Bool :=
  v.strands[j].live && match v.strands[j].wait with
    | .token d n _ => d == ctr && decide (n ≤ (tokens[d.toNat]!).toNat)
    | _ => false

/-- The cycle in which strand `k`'s waiting TWAIT completes, as its counter stands: it sees the value left at the end of the cycle before,
and lower strands on the same counter come first (R173). -/
def Core.tokenDue (c : Core) (v : VCore) (k : Fin 128) : Option Nat :=
  match v.strands[k].wait with
  | .token ctr _ _ =>
    let first (tokens : Vector (BitVec 16) 256) : Bool :=
      v.tokenReady tokens ctr k && !(v.liveStrands.any fun j => decide (j < k) && v.tokenReady tokens ctr j)
    if first v.tokens then some c.cycle
    else if (v.liveStrands.any fun j => decide (j ≤ k) && v.tokenReady v.tokens ctr j) || !first (c.tokensNext v) then none
    else some (c.cycle + 1)
  | _ => none

/-- Engines held by other strands than `k`, or freed in this cycle by another strand, are none of `e` (R170). -/
def Core.claimable (c : Core) (v : VCore) (k : Fin 128) (e : BitVec 4) : Bool :=
  let others := (v.liveStrands.filter (· != k)).foldl (fun a j => a ||| v.strands[j].claims) (0 : BitVec 4)
  (e &&& (others ||| (c.relNow &&& ~~~v.strands[k].claims))) == 0

/-- The cycle in which strand `k`'s pending CLAIM is granted, as claims stand: no lower strand's can be granted over it, and an
engine freed in this cycle is free from the next (R170). -/
def Core.claimDue (c : Core) (v : VCore) (k : Fin 128) : Option Nat :=
  match v.strands[k].wait with
  | .claim e =>
    let now := c.claimable v k e
    let c1 := if now then c else { c with relNow := 0 }
    let lower := v.liveStrands.any fun j => decide (j < k) && match v.strands[j].wait with
      | .claim d => c1.claimable v j d && (d &&& e) != 0
      | _ => false
    if !v.strands[k].live || lower || !c1.claimable v k e then none else some (if now then c.cycle else c.cycle + 1)
  | _ => none

/-- An end of a TWAIT or a grant of a CLAIM falls before cycle `t` (R170, R173). A core whose issue has stopped ends no wait. -/
def Core.waitDue (c : Core) (t : Nat) : Bool :=
  match c.v with
  | none => false
  | some v => v.liveStrands.any fun k => match (c.tokenDue v k).or (c.claimDue v k) with
    | some d => decide (d < t) && !(c.stopped && decide (c.stopAt ≤ d))
    | none => false

/-- Something of the core itself falls before cycle `t` and has not come: a queued start, a fill's end, a flip, a verdict, the end
of a wait. An instruction issued at `t` comes after it. While a feed is dry, cycle `t` itself does not come (R108). -/
def Core.overdue (c : Core) (t : Nat) : Bool :=
  c.dryBefore t || ([LaneId.pass, .drain, .load, .ve, .ru].any fun l => match c.startDue l with
    | some d => decide (d < t)
    | none => false)
  || (match c.fillDue with
      | some d => decide (d < t)
      | none => false)
  || (match c.flipDue with
      | some f => decide (f < t)
      | none => false)
  || c.waitDue t
  || c.verdicts.any fun d => decide (d.cycle < t)

/-! ### When an instruction will take effect, for the latency audit (R195)

A frozen cycle is no counted cycle, so the cycle in which an instruction takes effect follows from what has issued before it. -/

/-- The fill's end once a queued broadcast load has run too. -/
def Core.fillEnd (c : Core) : Nat := match c.load.queued with
  | some q =>
    let o := LoadOp.ofWord q.word q.x
    c.load.freeAt + (if sixteen o.fmt then 68 else 36) + (if o.xmode = 0 then 0 else 2)
  | none => c.fillAt

/-- The start of a pass behind `st`, (free cycle, last multiply in row 31, flips that have come), and the same after it. -/
def Core.passAfter (c : Core) (v : VCore) (t : Nat) (st : Nat × Nat × Nat) (q : QInstr) : Nat × (Nat × Nat × Nat) :=
  let news := (c.swaps.take q.swaps).drop st.2.2
  let flip := news.foldl (fun f sw => max f (max (sw.issued + 1) (max c.fillEnd (st.2.1 + 1)) + 1)) 0
  let t0 := max (max st.1 t) flip
  let o := q.passOp
  let at0 := match q.armed with
    | some l => if l.xmode = 0 then t0 else t0 + 2
    | none => t0
  let plan := o.plan c v t0
  (t0, (if o.count = 0 then t0 + 1 else at0 + plan.time,
        if plan.present.isEmpty then st.2.1 else max st.2.1 (o.lastRow at0 ((plan.present.map (·.2)).foldl max 0)), max st.2.2 q.swaps))

/-- The cycle in which an instruction issued at `t` into lane `l` takes effect. -/
def Core.startOf (c : Core) (v : VCore) (l : LaneId) (q : QInstr) (t : Nat) : Nat :=
  match l with
  | .pass =>
    let st := c.pass.pending.foldl (fun st x => (c.passAfter v 0 st x).2) (c.pass.freeAt, c.lastMultiply, 0)
    (c.passAfter v t st q).1
  | _ => max t (c.lane l).freeAt

/-- What an instruction issued at `t` into lane `l` reads and writes, by all that is known then (R195, R196). -/
def Core.accessesOf (c : Core) (v : VCore) (l : LaneId) (q : QInstr) (t : Nat) : List Access × List Access :=
  let t0 := c.startOf v l q t
  match l with
  | .pass => q.passOp.accesses c v q t0
  | .drain => (DrainOp.ofWord q.word q.x q.record).accesses q t0
  | .load => let o := LoadOp.ofWord q.word q.x; (o.accesses q (t0 + 1) o.stride, [])
  | _ => q.blockAccesses c v t0

/-- The accesses of an instruction issued at `t` into lane `l` that the audits see: none while no audit mode is on. -/
def State.laneAccesses (s : State) (p : Fin 20) (l : LaneId) (q : QInstr) (t : Nat) : List Access × List Access :=
  match (s.core p).v with
  | some v => if s.job.latAudit || s.job.raceAudit then (s.core p).accessesOf v l q t else ([], [])
  | none => ([], [])

/-- An issued instruction reaches its lane in cycle `t`: it takes effect at once where the lane is free and no flip is due first,
else it waits in the queue (R102, R105, R159). -/
def State.enqueue (s : State) (p : Fin 20) (l : LaneId) (q : QInstr) (t : Nat) : State :=
  let lane := (s.core p).lane l
  if decide (lane.freeAt ≤ t) && q.swaps == 0 then s.start p l q t
  else s.modCore p fun c => c.setLane l (if lane.yields t then
      { lane with held := lane.queued.or (some q), queued := lane.queued.map fun _ => q }
    else { lane with queued := some q })

/-- An instruction issues into its lane in cycle `t`, with `reads` of its issue cycle besides: the audit first (R195), then `go`,
which is what issue itself does, and the lane. -/
def State.toLane (s : State) (p : Fin 20) (l : LaneId) (q : QInstr) (t : Nat) (reads : List Access) (go : State → State) : State :=
  let accs := s.laneAccesses p l q t
  s.audit p q.strand (fld q.word 0 10) (reads ++ accs.1) accs.2 fun s => (go s).enqueue p l q t

end Sys2Proof.Machine
end

