-- ==== Sys2Proof/Machine/Issue.lean ====
section
/-! DEFINITION. Issue of one instruction (R163 to R165, R169, R180, R184). -/

namespace Sys2Proof.Machine

/-- Engines by claim bit (Table 6.4): 0 MA, 1 VE, 2 RU, 3 SQ. -/
inductive Engine where
  | none
  | ma
  | ve
  | ru
  | sq
  deriving DecidableEq, Repr

def Engine.mask : Engine → Nat
  | .none => 0 | .ma => 1 | .ve => 2 | .ru => 4 | .sq => 8

/-- The program on core `p` may issue: the job runs, or a field test or a recheck context does. -/
def State.running (s : State) (p : Fin 20) : Bool :=
  s.pow.boot == .imago && (s.job.state == .running || (s.core p).test.isSome || (s.core p).recheck.isSome)

/-- The clock of core `p` runs: from the start of a job, through its pauses and after its end, and in a field test (R223). -/
def State.clocked (s : State) (p : Fin 20) : Bool :=
  s.pow.boot == .imago && ((s.core p).test.isSome || s.job.state == .running || s.job.state == .paused
    || (s.job.state == .ended && s.job.started))

/-- What keeps a strand from issuing now, apart from its gap: it is not live, it waits, its core has stopped in an earlier
cycle, or its code line is not in the instruction buffer (R164, R167, R192). -/
def State.ready (s : State) (p : Fin 20) (k : Fin 128) : Bool :=
  let c := s.core p
  match c.v with
  | none => false
  | some v =>
    let st := v.strands[k]
    s.running p && st.live
      && (match st.wait with
          | .none => true
          | .tracker _ => decide (c.tasks.length < 64)
          | _ => false)
      && (!c.stopped || decide (c.cycle < c.stopAt))
      && (decide (v.codeLen ≤ st.pc.toNat) || c.ibuf.contains (st.pc.toNat / 64))

/-- The first counted cycle that meets the gap of R165. -/
def issueCycle (c : Core) (st : Strand) (gap : Nat) : Nat :=
  match st.last with
  | none => c.cycle
  | some l => max c.cycle (l + max gap (if st.taken then 3 else 1))

/-- The instruction has issued in cycle `t`: the program counter moves on (R165). -/
def Strand.issued (st : Strand) (t : Nat) : Strand :=
  { st with pc := st.pc + 1, last := some t, taken := false, wait := .none }

def State.commit (s : State) (p : Fin 20) (k : Fin 128) (t : Nat) : State := s.modStrand p k fun st => st.issued t

/-- The issuing virtual core has issued a class V instruction (R190, R266). -/
def State.noteClassV (s : State) (p : Fin 20) : State :=
  let s := s.modV p fun v => { v with vIssued := true }
  { s with job := { s.job with vTainted := true } }

/-- The first offending address of operand ranges that need a permission (R182). -/
def VCore.rangeFault (v : VCore) (rs : List (Int × Nat)) (need : Perm) : Option Int :=
  rs.findSome? fun r => v.regionFault r.1 r.2 need

/-- The first uncorrectable word among ranges read (R286). -/
def VCore.eccFault (v : VCore) (rs : List (Nat × Nat)) : Option Nat := rs.findSome? fun r => badWord v.tileBad r.1 r.2

/-- A record that an instruction reads at issue has an uncorrectable word: the fault, and its destination, as far as the word and the
state name it, becomes undefined (Table 6.7; DESIGN CHOICE, log 70). -/
def State.failIssue (s : State) (p : Fin 20) (k : Fin 128) (fault : Nat × Nat) (opcode t : Nat) (dst : List Access) : State :=
  let (e, s) := (s.fault p k fault.1 opcode fault.2).fresh
  (s.modCore p fun c => dst.foldl (fun c a => c.undefineCells e a) c).commit p k t

/-- The virtual core as it stands in cycle `t`, all that runs having gone on to it. -/
def State.vcoreAt (s : State) (p : Fin 20) (v : VCore) (t : Nat) : VCore := ((s.advance p t).core p).v.getD v

/-- Issue of one instruction (R165, R169, R180, R184). Where the strand cannot issue now the command finds no event to make
and the state stays as it is (log 3). Faults of fetch, encoding and engine use come in this order; `body` gets the state in
the issue cycle, the virtual core and the strand as they stand there, and the cycle. -/
def State.issue (s : State) (p : Fin 20) (k : Fin 128) (w : IWord) (classV : Bool) (engine : Engine)
    (checks : Core → VCore → Strand → List EncCheck) (body : State → VCore → Strand → Nat → State) :
    Host.Outcome State Fault Refusal :=
  let c := s.core p
  match c.v with
  | none => .next s
  | some v =>
    let st := v.strands[k]
    let t := issueCycle c st (fld w 11 8)
    let full := match laneOf w with
      | some l => (c.lane l).queued.isSome && !(c.lane l).yields t
      | none => false
    let on := s.advance p t
    -- a fault that a running instruction raises before cycle t stops issue too (R192)
    let stopped (c : Core) : Bool := c.stopped && decide (c.stopAt ≤ t)
    if !s.ready p k || stopped c || full || c.overdue t || stopped (on.core p) || st.faulted == some t then .next s
    else
      let v := s.vcoreAt p v t
      let s := on
      let op := fld w 0 10
      if v.codeLen ≤ st.pc.toNat then .next (s.fault p k 2 0 (v.codeBase + 16 * st.pc.toNat))
      else match firstBad (commonChecks w classV ++ checks (s.core p) v st) with
        | some pos => .next (s.fault p k 1 op pos)
        | none =>
          if engine.mask &&& st.claims.toNat != engine.mask then .next (s.fault p k 3 op engine.mask)
          else .next (body s v st t)

end Sys2Proof.Machine
end

