-- ==== Sys2Proof/Machine/Control.lean ====
section
/-! DEFINITION. Strand control, claims, token counters and MIGRATE points (R163 to R176, R184, R192, R197,
R198). -/

namespace Sys2Proof.Machine

/-! ### Shared pieces -/

/-- Every live strand waits at a MIGRATE. -/
def VCore.allMigrate (v : VCore) : Bool :=
  !v.liveStrands.isEmpty && v.liveStrands.all fun k => match v.strands[k].wait with
    | .migrate _ => true
    | _ => false

/-- The MIGRATE points of the live strands, in strand order. -/
def VCore.points (v : VCore) : List (BitVec 16) := v.liveStrands.filterMap fun k => match v.strands[k].wait with
  | .migrate q => some q
  | _ => none

/-- Fault 0x0C when every live strand waits at a MIGRATE and their points differ (R197): the arriving strand's point and the
first that differs from it. `k` and `pc` are those of the instruction after which no strand runs on. -/
def State.checkPoints (s : State) (p : Fin 20) (k : Fin 128) (opcode : Nat) (pc : BitVec 16) : State :=
  match (s.core p).v with
  | none => s
  | some v =>
    if !v.allMigrate then s
    else
      let mine := match v.strands[k].wait with
        | .migrate q => q
        | _ => v.points.headD 0
      match v.points.find? (· != mine) with
      | some q => s.modCore p fun c => c.raise 0x0C k.val opcode pc.toNat (mine.toNat + 65536 * q.toNat)
      | none => s

/-- Ask for a checkpoint at boundary `b` (R366): merge with a pending one, miss it, or keep it pending. -/
def State.requestBoundary (s : State) (b origin : Nat) : State :=
  let missed (cause : Nat) := s.post 0x0D03 (bytesOf 4 b ++ bytesOf 4 (maxOf s.stepTags) ++ bytesOf 2 origin ++ bytesOf 1 cause)
  if s.ckpt.pendingB.contains b then s
  else if s.stepTags.any (fun t => decide (b ≤ t)) then missed 1
  else if s.ckpt.pendingB.length ≥ 4 then missed 2
  else { s with ckpt := { s.ckpt with pendingB := s.ckpt.pendingB ++ [b],
                                      phase := if s.ckpt.phase = .idle then .pending else s.ckpt.phase } }

/-- A virtual core whose issue is being stopped by a STEP (R359, R368). -/
def State.holdAtStep (s : State) (p : Fin 20) (k : Fin 128) (t : Nat) (h : Hold) : State :=
  let s := s.modStrand p k fun st => { st with wait := .step, since := t }
  s.modCore p fun c => { c.stop with holdReq := h }

/-- The engines no strand may take now: held ones, and those freed in this very cycle (R170). -/
def Core.busyEngines (c : Core) (v : VCore) : BitVec 4 :=
  v.liveStrands.foldl (fun a k => a ||| v.strands[k].claims) c.relNow

/-! ### Instructions -/

/-- R168. The strand ends; its claims are free from the next cycle; a virtual core with no live strand and no task is
complete. -/
def execHalt (core : Fin 20) (strand : Fin 128) (ops : BitVec 118) (s : State) : Host.Outcome State Fault Refusal :=
  let w := wordOf ops 0x001
  s.issue core strand w false .none (fun _ _ _ => [resvFrom w 24]) fun s _ st t =>
    let s := s.modCore core fun c => { c with relNow := c.relNow ||| st.claims }
    let s := s.modStrand core strand fun st => { st.issued t with live := false, claims := 0 }
    (s.checkPoints core strand 0x001 st.pc).checkComplete

/-- R184. Set the program counter to the target when the condition holds. -/
def execBr (core : Fin 20) (strand : Fin 128) (ops : BitVec 118) (s : State) : Host.Outcome State Fault Refusal :=
  let w := wordOf ops 0x002
  let cond := fld w 24 2
  s.issue core strand w false .none
    (fun _ _ _ => [(cond != 3, 24), (cond != 0 || fld w 26 3 == 0, 26), resvFrom w 45]) fun s _ st t =>
    let zero := xreg st.x (fld w 26 3) == 0
    let taken := cond == 0 || (cond == 1 && zero) || (cond == 2 && !zero)
    s.modStrand core strand fun st =>
      if taken then { st.issued t with pc := BitVec.ofNat 16 (fld w 29 16), taken := true } else st.issued t

/-- R184. Load an idle counter, take one off it, and branch while something remains. -/
def execLoop (core : Fin 20) (strand : Fin 128) (ops : BitVec 118) (s : State) : Host.Outcome State Fault Refusal :=
  let w := wordOf ops 0x003
  let lc := fld w 24 2
  s.issue core strand w false .none (fun _ _ _ => [resvFrom w 66]) fun s _ st t =>
    let r := (match st.lc[lc]! with
      | some r => r.toNat
      | none => fld w 26 24 + 1) - 1
    s.modStrand core strand fun st =>
      if r > 0 then
        { st.issued t with pc := BitVec.ofNat 16 (fld w 50 16), taken := true, lc := st.lc.set! lc (some (BitVec.ofNat 24 r)) }
      else { st.issued t with lc := st.lc.set! lc none }

/-- R184. X[xd] takes the immediate. -/
def execXset (core : Fin 20) (strand : Fin 128) (ops : BitVec 118) (s : State) : Host.Outcome State Fault Refusal :=
  let w := wordOf ops 0x004
  s.issue core strand w false .none (fun _ _ _ => [(fld w 24 3 != 0, 24), resvFrom w 59]) fun s _ _ t =>
    s.modStrand core strand fun st => { st.issued t with x := setXreg st.x (fld w 24 3) (BitVec.ofNat 32 (fld w 27 32)) }

/-- R184. X[xd] grows by the immediate, modulo 2^32. -/
def execXadd (core : Fin 20) (strand : Fin 128) (ops : BitVec 118) (s : State) : Host.Outcome State Fault Refusal :=
  let w := wordOf ops 0x005
  s.issue core strand w false .none (fun _ _ _ => [(fld w 24 3 != 0, 24), resvFrom w 59]) fun s _ _ t =>
    s.modStrand core strand fun st =>
      { st.issued t with x := setXreg st.x (fld w 24 3) (xreg st.x (fld w 24 3) + BitVec.ofNat 32 (fld w 27 32)) }

/-- R176. The step tag grows by 1, or fault 0x0E; a pending boundary or a forced field test holds the virtual core there
(R359, R365, R368). -/
def execStep (core : Fin 20) (strand : Fin 128) (ops : BitVec 118) (s : State) : Host.Outcome State Fault Refusal :=
  let w := wordOf ops 0x006
  s.issue core strand w false .none (fun _ _ _ => [resvFrom w 24]) fun s v _ t =>
    if v.stepTag = 0xFFFFFFFF then s.fault core strand 0x0E 0x006 0
    else
      let b := v.stepTag.toNat + 1
      let test := (s.core core).test.isSome
      let due := !test && decide (0 < s.job.ckptEvery) && b % s.job.ckptEvery == 0 && decide (s.job.firstStep < b)
      let s := if due && !s.stepTags.any (fun t => decide (b ≤ t)) then s.requestBoundary b s.ownAddr.toNat else s
      let wr := Access.put .stepTag 0 1 t (t + 1) strand v.strands[strand].pc
      let s := s.audit core strand 0x006 [] [wr] fun s =>
        s.modCore core fun c =>
          let c := c.pruneAccesses s.job.raceAudit
          { c with accesses := c.accesses ++ [{ wr with old := [v.stepTag.toNat] }] }
      let s := s.modV core fun v => { v with stepTag := v.stepTag + 1 }
      if !test && s.ckpt.pendingB.contains b then s.holdAtStep core strand t .boundary
      else if !test && (s.core core).stepHold then s.holdAtStep core strand t .stepTest
      else s.commit core strand t

/-- R197. The strand waits at point p; differing points of all live strands raise fault 0x0C. -/
def execMigrate (core : Fin 20) (strand : Fin 128) (ops : BitVec 118) (s : State) : Host.Outcome State Fault Refusal :=
  let w := wordOf ops 0x007
  s.issue core strand w false .none (fun _ _ _ => [resvFrom w 40]) fun s _ st t =>
    let s := s.modStrand core strand fun st => { st with wait := .migrate (BitVec.ofNat 16 (fld w 24 16)), since := t }
    s.checkPoints core strand 0x007 st.pc

/-- R169. The strand waits for a set of engines. -/
def execClaim (core : Fin 20) (strand : Fin 128) (ops : BitVec 118) (s : State) : Host.Outcome State Fault Refusal :=
  let w := wordOf ops 0x010
  s.issue core strand w false .none (fun _ _ _ => [(fld w 24 4 != 0, 24), resvFrom w 28]) fun s _ _ t =>
    s.modStrand core strand fun st => { st with wait := .claim (BitVec.ofNat 4 (fld w 24 4)), since := t }

/-- R171. Free held engines at the end of the cycle; an engine not held raises fault 0x03 and frees none. -/
def execRelease (core : Fin 20) (strand : Fin 128) (ops : BitVec 118) (s : State) : Host.Outcome State Fault Refusal :=
  let w := wordOf ops 0x011
  let e : BitVec 4 := BitVec.ofNat 4 (fld w 24 4)
  s.issue core strand w false .none (fun _ _ _ => [(fld w 24 4 != 0, 24), resvFrom w 28]) fun s _ st t =>
    if e &&& ~~~st.claims != 0 then s.fault core strand 3 0x011 (e &&& ~~~st.claims).toNat
    else
      let s := s.modCore core fun c => { c with relNow := c.relNow ||| e }
      s.modStrand core strand fun st => { st.issued t with claims := st.claims &&& ~~~e }

/-- R172, R173. A signed delta for a counter, which the cycle's end adds (`Core.changeToken`): a result outside 0 to 65,535 raises fault
0x04 or 0x05 and leaves it. -/
def execTsig (core : Fin 20) (strand : Fin 128) (ops : BitVec 118) (s : State) : Host.Outcome State Fault Refusal :=
  let w := wordOf ops 0x012
  let ctr := fld w 24 8
  let delta := signedOf 13 (fld w 32 13)
  s.issue core strand w false .none (fun _ _ _ => [(fld w 32 13 != 0, 32), resvFrom w 45]) fun s _ st t =>
    ((s.noteToken core ⟨strand.val, ctr, delta, false, t⟩).modCore core fun c =>
      c.queueToken ⟨ctr, delta, some (strand, st.pc)⟩).commit core strand t

/-- R173. The strand starts testing a counter against n. -/
def execTwait (core : Fin 20) (strand : Fin 128) (ops : BitVec 118) (s : State) : Host.Outcome State Fault Refusal :=
  let w := wordOf ops 0x013
  s.issue core strand w false .none (fun _ _ _ => [(fld w 32 16 != 0, 32), resvFrom w 49]) fun s _ _ t =>
    s.modStrand core strand fun st =>
      { st with wait := .token (BitVec.ofNat 8 (fld w 24 8)) (fld w 32 16) (flag w 48), since := t }

/-- R180. A reserved opcode, or WTAP's reserved wop, raises fault 0x01; the all-zero word has opcode 0. -/
def execReservedOpcode (core : Fin 20) (strand : Fin 128) (word : IWord) (s : State) : Host.Outcome State Fault Refusal :=
  let wtap := fld word 0 10 == 0x061 && fld word 27 2 == 3
  let known := [0x001, 0x002, 0x003, 0x004, 0x005, 0x006, 0x007, 0x010, 0x011, 0x012, 0x013, 0x020, 0x021, 0x022, 0x023,
    0x024, 0x030, 0x031, 0x032, 0x033, 0x034, 0x035, 0x036, 0x040, 0x050, 0x060, 0x061, 0x200, 0x201, 0x202].contains (fld word 0 10)
  if known && !wtap then .next s
  else s.issue core strand word (flag word 10 && !wtap) .none (fun _ _ _ => [(false, if wtap then 27 else 0)]) fun s _ _ _ => s

/-! ### Rest and resumption -/

/-- The counted cycle from which every instruction of MA, VE and RU has passed its last cycle of Table 6.6 (R175, R197). -/
def Core.quietAt (c : Core) : Nat :=
  let runs := c.runs.flatMap fun r => if fld r.q.word 0 10 = 0x061 then [] else r.todo.filterMap fun q => q.getLast?.map (·.1)
  max (maxOf runs) (max (max c.pass.doneAt c.drain.doneAt) (max (max c.load.doneAt c.ve.doneAt) c.ru.doneAt))

/-- No instruction of MA, VE or RU is queued, and no flip is to come (R175). -/
def Core.unqueued (c : Core) : Bool :=
  c.pass.head.isNone && c.drain.queued.isNone && c.load.queued.isNone && c.ve.queued.isNone && c.ru.queued.isNone && c.swaps.isEmpty

/-- Nothing of the core is queued or due: lanes, flips, verdicts, stream tracker (R197, R359, R368). -/
def Core.drained (c : Core) : Bool :=
  c.unqueued && !c.filling && c.verdicts.isEmpty && c.tasks.isEmpty && !c.dryBefore (max c.cycle c.quietAt)

/-- Strands that wait at a MIGRATE resume at cycle `r` or later (R198). -/
def VCore.resumeMigrate (v : VCore) (r : Nat) : VCore :=
  { v with strands := v.strands.map fun st => match st.wait with
      | .migrate _ => { st with pc := st.pc + 1, wait := .none, last := some r, taken := false }
      | _ => st }

/-- A strand held at STEP completes it when the hold ends (R165, R359, R368). -/
def VCore.resumeStep (v : VCore) (r : Nat) : VCore :=
  { v with strands := v.strands.map fun st => match st.wait with
      | .step => { st with pc := st.pc + 1, wait := .none, last := some r, taken := false }
      | _ => st }

/-- The first counted cycle in which strands resume after a hold that stopped issue at `stopAt` (R198). -/
def Core.resumeAt (c : Core) : Nat := max c.cycle c.stopAt

/-- The core belongs to the spare pool: a spare, or an idle active core that has passed a field test (R357, log 28). -/
def Core.pool (c : Core) : Bool :=
  (c.kind == .spare || (c.kind == .active && c.pooled)) && c.saved.isNone && c.leaving.isNone && (c.v.isNone || c.test.isSome)

/-- A spare with nothing on it. -/
def Core.idleSpare (c : Core) : Bool := c.pool && c.test.isNone

/-- The lowest-numbered idle spare (R346, R348). -/
def State.idleSpare (s : State) : Option (Fin 20) := coreNums.find? fun p => (s.core p).idleSpare

/-- A field test is due on the core and an idle spare exists, so firmware holds its MIGRATE point (R358), unless an arbitration comes first
(R348). -/
def State.testWaits (s : State) (p : Fin 20) : Bool :=
  s.idleSpare.isSome && s.chk.arbs.isEmpty && (s.core p).test.isNone && s.chk.packages.any fun k => k.due[p]

/-- R198. mig_release resumes a core held at a MIGRATE point. -/
def execMigRelease (core : Fin 20) (s : State) : Host.Outcome State Fault Refusal :=
  let c := s.core core
  if c.hold = .migrate then
    .next (s.modCore core fun c => { c with hold := .none }.modV fun v => v.resumeMigrate c.resumeAt)
  else .next s

/-- R167. A miss freezes the domain for 8 clock periods under 0x01 while the line of the strand's next instruction is
fetched. The oldest of 64 lines makes room (log 18). -/
def execLineFetch (core : Fin 20) (strand : Fin 128) (ecc : Ecc) (s : State) : Host.Outcome State Fault Refusal :=
  let c := s.core core
  match c.v with
  | none => .next s
  | some v =>
    let st := v.strands[strand]
    let line := st.pc.toNat / 64
    let addr := v.codeBase + 1024 * line
    if !s.running core || !st.live || st.wait != .none || c.stopped || c.ibuf.contains line || decide (v.codeLen ≤ st.pc.toNat)
    then .next s
    else
      let s := (s.freezeFor core (c.cycle + 1) 1 8).readNow core [.read .tile addr 1024 c.cycle strand st.pc]
      let v := s.vNow core v
      let ok := v.regions.any fun r => r.ex && r.holds (v.codeBase + 16 * st.pc.toNat : Nat)
      let bad := match badWord v.tileBad addr 1024 with
        | some a => some a
        | none => if ecc == Ecc.uncorrectable then some addr else none
      if !ok then .next (s.fault core strand 2 0 (v.codeBase + 16 * st.pc.toNat))
      else match bad with
        | some a => .next (s.fault core strand 0x0B 0 a)
        | none => .next ((s.charge (24 + core.val) (ofBool (ecc == Ecc.corrected)) 0 0).modCore core fun c =>
            { c with ibuf := (c.ibuf ++ [line]).drop (c.ibuf.length + 1 - 64),
                     tmCorr := c.tmCorr + (if ecc == Ecc.corrected then 1 else 0) })

end Sys2Proof.Machine
end

