-- ==== Sys2Proof/Machine/Memory.lean ====
section
/-! DEFINITION. The memory tiers below tile memory: the device address map, error protection, translation, scrubs (chapter 10). -/

namespace Sys2Proof.Machine

/-! ### Address map (Table 10.1, R289, R290, R297) -/

/-- Where a device address leads: an address within GDDR7, staging, an expander (port × 2^37 + DPA) or host memory. -/
inductive Place where
  | gddr (a : Nat)
  | staging (a : Nat)
  | scree (a : Nat)
  | host (a : Nat)
  | hole
  deriving DecidableEq, Repr

/-- Enabled channels in ascending order (R289). -/
def MemSys.channelList (m : MemSys) : List Nat := (List.range 24).filter fun c => bitAt m.channels.toNat c

def MemSys.channelCount (m : MemSys) : Nat := m.channelList.length

/-- Bytes of usable GDDR7 (R290). -/
def MemSys.usable (m : MemSys) : Nat := 0xF8000000 * m.channelCount

def stagingBase : Nat := 0x002000000000
def stagingSize : Nat := 0x03000000
def screeBase : Nat := 0x010000000000
def hostBase : Nat := 0x080000000000

def inStaging (a : Nat) : Bool := decide (stagingBase ≤ a) && decide (a < stagingBase + stagingSize)
def inScree (a : Nat) : Bool := decide (screeBase ≤ a) && decide (a < 0x018000000000)
def inHost (a : Nat) : Bool := decide (hostBase ≤ a) && decide (a < 0x880000000000)

/-- Linked expanders in ascending port order. -/
def MemSys.linkedPorts (m : MemSys) : List Nat := (List.range 4).filter fun p => bitAt m.screeLinked.toNat p

/-- Look an entry up in a table; 0 (not present) where none is written. -/
def entryAt (t : List (Nat × DWord)) (i : Nat) : Nat := match t.find? fun e => e.1 == i with
  | some e => e.2.toNat
  | none => 0

/-- The page-table entry that serves an address (R302): Scree page, or level-3 host entry. -/
def MemSys.entryOf (m : MemSys) (a : Nat) : Nat :=
  if inScree a then entryAt m.screePages ((a - screeBase) / 2097152) else entryAt m.hostPages ((a - hostBase) / 4096)

/-- The entry of a level 0 to 2 of the host tree on the way to page `i` (R302). -/
def MemSys.dirOf (m : MemSys) (level i : Nat) : Nat :=
  match m.hostDirs.find? fun e => e.1 == level && e.2.1 == i / 2 ^ (27 - 9 * level) with
  | some e => e.2.2.toNat
  | none => 0

/-- The walk passes levels 0 to 2 of the host tree: each entry is present and has no reserved bit set (Table 10.4). -/
def MemSys.walks (m : MemSys) (a : Nat) : Bool :=
  inScree a || (List.range 3).all fun level =>
    let e := m.dirOf level ((a - hostBase) / 4096)
    bitAt e 0 && bitsAt e 1 11 == 0 && bitsAt e 48 16 == 0

/-- Where the entry `e` of its page leads an address, unless it faults (R302, R303, Table 10.4). -/
def entryPlace (e a : Nat) (write : Bool) : Option Place :=
  if !bitAt e 0 || (write && !bitAt e 1) then none
  else if inScree a then
    if bitsAt e 4 17 != 0 || bitsAt e 37 27 != 0 then none
    else some (.scree (bitsAt e 2 2 * 2 ^ 37 + bitsAt e 21 16 * 2097152 + a % 2097152))
  else if bitsAt e 2 10 != 0 then none
  else some (.host (bitsAt e 12 52 * 4096 + a % 4096))

/-- Translation of one address: none is a translation fault. -/
def MemSys.translate (m : MemSys) (a : Nat) (write : Bool) : Option Place :=
  if m.walks a then entryPlace (m.entryOf a) a write else none

/-- The levels 0 to 2 above host pages `first` to `first + n - 1`, as firmware writes them. -/
def MemSys.addDirs (m : MemSys) (first n : Nat) : MemSys :=
  let missing := (List.range 3).flatMap fun level =>
    let lo := first / 2 ^ (27 - 9 * level)
    let hi := (first + n - 1) / 2 ^ (27 - 9 * level)
    ((List.range (hi + 1 - lo)).filter fun i => m.hostDirs.all fun e => !(e.1 == level && e.2.1 == lo + i)).map fun i =>
      (level, lo + i, BitVec.ofNat 64 (1 + 4096 * (Config.tablePage (level + 1) (lo + i)).toNat))
  if n = 0 then m else { m with hostDirs := m.hostDirs ++ missing }

/-- Is an address translated? -/
def translated (a : Nat) : Bool := inScree a || inHost a

/-- Where an address leads, permissions apart. -/
def MemSys.place (m : MemSys) (a : Nat) : Place :=
  if a < m.usable then .gddr a
  else if inStaging a then .staging (a - stagingBase)
  else if translated a then (m.translate a false).getD .hole
  else .hole

/-- The tables with the page of an address as entry `e` mapped it (R304). -/
def MemSys.asTranslated (m : MemSys) (a e : Nat) : MemSys :=
  let put (t : List (Nat × DWord)) (i : Nat) : List (Nat × DWord) := (i, BitVec.ofNat 64 e) :: t
  if inScree a then { m with screePages := put m.screePages ((a - screeBase) / 2097152) }
  else { (m.addDirs ((a - hostBase) / 4096) 1) with hostPages := put m.hostPages ((a - hostBase) / 4096) }

/-- The tables of `m` with everything else as in `n`. -/
def MemSys.withTables (n m : MemSys) : MemSys :=
  { n with screePages := m.screePages, hostPages := m.hostPages, hostDirs := m.hostDirs }

/-- The page an address lies on, as bits [47:12] of the page's first address (MEM_TLB_INV). -/
def pageKey (a : Nat) : Nat := if inScree a then a / 2097152 * 512 else a / 4096

/-! ### Reading and writing with error protection (R286, R288, R292, R296) -/

/-- Bytes of one protection unit, the memory's cells, and its uncorrectable units. -/
def Place.unit : Place → Nat
  | .staging _ => 8
  | _ => 64

def Place.addr : Place → Nat
  | .gddr a | .staging a | .scree a | .host a => a
  | .hole => 0

def MemSys.cellsOf (m : MemSys) : Place → Mem 8
  | .gddr _ => m.gddr
  | .staging _ => m.staging
  | .scree _ => m.scree
  | .host _ => m.host
  | .hole => .zeroed 8

def MemSys.badOf (m : MemSys) : Place → List Nat
  | .gddr _ => m.gddrBad
  | .staging _ => m.stagingBad
  | .scree _ => m.screePoison
  | _ => []

/-- The first unit of `bad` that a run of `n` bytes at `x` touches. -/
def firstUnit (unit : Nat) (bad : List Nat) (x n : Nat) : Option Nat :=
  match bad.filter fun u => decide (u * unit < x + n) && decide (x < (u + 1) * unit) with
  | [] => none
  | u :: us => some (us.foldl min u)

/-- A unit that a run touches only in part. -/
def partUnit (unit x n u : Nat) : Bool := decide (u * unit < x) || decide (x + n < (u + 1) * unit)

/-- Runs of bytes that lie on one 4 KiB page: (address, length). -/
def pageRuns (a n : Nat) : List (Nat × Nat) :=
  if n = 0 then []
  else (List.range ((a + n - 1) / 4096 - a / 4096 + 1)).map fun i =>
    let lo := if i = 0 then a else (a / 4096 + i) * 4096
    (lo, min (a + n) ((a / 4096 + i + 1) * 4096) - lo)

/-- Read `n` bytes at a device address: the bytes and the device address of the first uncorrectable unit. -/
def MemSys.readDev (m : MemSys) (a n : Nat) : List Byte × Option Nat :=
  let rs := (pageRuns a n).map fun r =>
    let p := m.place r.1
    ((m.cellsOf p).getRange p.addr r.2,
      (firstUnit p.unit (m.badOf p) p.addr r.2).map fun u => r.1 + u * p.unit - p.addr)
  (rs.flatMap (·.1), rs.findSome? (·.2))

/-- Store a run in one memory. A GDDR7 line or staging word written in part while uncorrectable keeps its contents and state;
one written whole is good again. A poisoned Scree line takes the write; whether a part write leaves it poisoned is the
expander's choice. -/
def MemSys.writeRun (m : MemSys) (p : Place) (bs : List Byte) : MemSys × Option Nat :=
  let x := p.addr
  let n := bs.length
  let u := p.unit
  let part := (m.badOf p).filter fun b => decide (b * u < x + n) && decide (x < (b + 1) * u) && partUnit u x n b
  let good := (m.badOf p).filter fun b => !(decide (x ≤ b * u) && decide ((b + 1) * u ≤ x + n))
  let keep (c : Mem 8) : Mem 8 :=
    if part.isEmpty then c.setRange x bs
    else (bs.zipIdx).foldl (fun c b => if part.contains ((x + b.2) / u) then c else c.set (x + b.2) b.1) c
  match p with
  | .gddr _ => ({ m with gddr := keep m.gddr, gddrBad := good }, firstUnit u part x n)
  | .staging _ => ({ m with staging := keep m.staging, stagingBad := good }, firstUnit u part x n)
  | .scree _ => ({ m with scree := m.scree.setRange x bs,
                          screePoison := good.filter fun b => !part.contains b || Config.partWriteKeepsPoison b }, none)
  | .host _ => ({ m with host := m.host.setRange x bs }, none)
  | .hole => (m, none)

/-- Write bytes at a device address: the device address of the first unit that did not take its write. -/
def MemSys.writeDev (m : MemSys) (a : Nat) (bs : List Byte) : MemSys × Option Nat :=
  (pageRuns a bs.length).foldl (fun (st : MemSys × Option Nat) r =>
    let p := st.1.place r.1
    let (m, bad) := st.1.writeRun p (sub bs (r.1 - a) r.2)
    (m, st.2.or (bad.map fun u => r.1 + u * p.unit - p.addr))) (m, none)

def State.modMem (s : State) (f : MemSys → MemSys) : State := { s with mem := f s.mem }

/-- Count an uncorrectable read and, at GDDR7 and staging, charge its Cairn bucket (R292, R296, Table 12.6). -/
def State.countUnc (s : State) (a : Nat) : State :=
  match s.mem.place a with
  | .gddr x =>
    let s := s.modMem fun m => { m with g7Unc := m.g7Unc + 1 }
    s.charge (s.mem.channelList.getD (x / 4096 % s.mem.channelCount) 0) 0 1 0
  | .staging x => s.charge (44 + x / 12582912) 0 1 0
  | .scree _ => s.modMem fun m => { m with screeUnc := m.screeUnc + 1 }
  | _ => s

/-- Corrected units that a read of these device addresses met: 32-byte sectors of GDDR7 and 8-byte words of staging memory count
and charge their bucket (R288, R292). -/
def State.correctDev (s : State) (units : List Nat) : State :=
  units.foldl (fun (s : State) a => match s.mem.place a with
    | .gddr x => (s.modMem fun m => { m with g7Corr := m.g7Corr + 1 }).charge
        (s.mem.channelList.getD (x / 4096 % s.mem.channelCount) 0) 1 0 0
    | .staging x => (s.modMem fun m => { m with stgCorr := m.stgCorr + 1 }).charge (44 + x / 12582912) 1 0 0
    | _ => s) s

/-- Correctable errors appear in the units at device addresses: 32-byte sectors of GDDR7, 8-byte words of staging memory. -/
def State.soften (s : State) (units : List Nat) : State :=
  let add (l : List Nat) (u : Nat) : List Nat := if l.contains u then l else l ++ [u]
  units.foldl (fun (s : State) a => match s.mem.place a with
    | .gddr x => s.modMem fun m => if m.gddrBad.contains (x / 64) then m else { m with gddrSoft := add m.gddrSoft (x / 32) }
    | .staging x => s.modMem fun m => if m.stagingBad.contains (x / 8) then m else { m with stagingSoft := add m.stagingSoft (x / 8) }
    | _ => s) s

/-- An access of bytes `x` to `x + n - 1` reaches part of the `k`-byte units that begin at `u * k`, and reads it: a read, or a write of part
of the unit. -/
def reachesUnit (k x n u : Nat) : Bool := decide (u * k < x + n) && decide (x < (u + 1) * k)

/-- SEC-DED corrects what an access at a device address reads: every unit of a read, and of a write the units, or GDDR7 lines, that it
covers in part; each corrected sector or word counts and is written back. A unit written whole loses its error uncounted (R286, R288,
R292). -/
def State.meetDev (s : State) (write : Bool) (a n : Nat) : State :=
  (pageRuns a n).foldl (fun (s : State) r => match s.mem.place r.1 with
    | .gddr x =>
      let hit := s.mem.gddrSoft.filter fun u => if write then reachesUnit 64 x r.2 (u / 2) else reachesUnit 32 x r.2 u
      if hit.isEmpty then s
      else (s.modMem fun m => { m with gddrSoft := m.gddrSoft.filter fun u => !hit.contains u }).correctDev
        ((hit.filter fun u => !write || partUnit 64 x r.2 (u / 2)).map (32 * ·))
    | .staging x =>
      let hit := s.mem.stagingSoft.filter fun u => reachesUnit 8 x r.2 u
      if hit.isEmpty then s
      else (s.modMem fun m => { m with stagingSoft := m.stagingSoft.filter fun u => !hit.contains u }).correctDev
        ((hit.filter fun u => !write || partUnit 8 x r.2 u).map fun u => stagingBase + 8 * u)
    | _ => s) s

/-- The unit at an address turns out uncorrectable: it stays so until it is written whole. -/
def State.spoil (s : State) (a : Nat) : State :=
  let add (l : List Nat) (u : Nat) : List Nat := if l.contains u then l else l ++ [u]
  (match s.mem.place a with
    | .gddr x => s.modMem fun m => { m with gddrBad := add m.gddrBad (x / 64), gddrSoft := m.gddrSoft.filter fun u => u / 2 != x / 64 }
    | .staging x => s.modMem fun m => { m with stagingBad := add m.stagingBad (x / 8), stagingSoft := m.stagingSoft.filter (· != x / 8) }
    | .scree x => s.modMem fun m => { m with screePoison := add m.screePoison (x / 64) }
    | _ => s)

/-- Read `n` bytes at a device address: corrected units count, and so does the first uncorrectable one, whose address is answered
(R288, R292, R296). -/
def State.readMem (s : State) (a n : Nat) : State × List Byte × Option Nat :=
  let s := s.meetDev false a n
  let (bs, bad) := s.mem.readDev a n
  (match bad with
    | some u => s.countUnc u
    | none => s, bs, bad)

/-- Write bytes at a device address, under the same rules. -/
def State.writeMem (s : State) (a : Nat) (bs : List Byte) : State × Option Nat :=
  let s := s.meetDev true a bs.length
  let (m, bad) := s.mem.writeDev a bs
  (match bad with
    | some u => ({ s with mem := m } : State).countUnc u
    | none => { s with mem := m }, bad)

/-! ### Regions (R299, R301) -/

def Job.region (j : Job) (id : Nat) : Option Region := j.regions.find? fun r => r.id == id

/-- The first byte offset outside a region for an access, or one it does not permit (R301). -/
def Region.refuses (r : Region) (off : Int) (len : Nat) (write : Bool) : Option Int :=
  if !r.bound || r.kind == .unbound || (if write then !r.wr else !r.rd) then some off
  else if off < 0 || (r.size : Int) ≤ off then some off
  else if off + len ≤ r.size then none
  else some (r.size : Int)

/-! ### Translation faults (R302, R303) -/

/-- Record a TLB look-up (R302): a miss counts and, where the entry is present, loads the oldest place of 8,192. -/
def State.tlbLook (s : State) (a : Nat) : State :=
  if s.mem.tlb.contains (pageKey a) then s
  else s.modMem fun m =>
    { m with tlbMisses := m.tlbMisses + 1,
             tlb := if (m.translate a false).isSome then (m.tlb ++ [pageKey a]).drop (m.tlb.length + 1 - 8192) else m.tlb }

/-- The region that holds a device address, for event 0x0A01. -/
def Job.regionAt (j : Job) (a : Nat) : Option Region :=
  j.regions.find? fun r => r.bound && r.kind != .tile && decide (r.base ≤ a) && decide (a < r.base + r.size)

/-- Every page of an access of `n` bytes is looked up (R302). -/
def State.tlbRange (s : State) (a n : Nat) : State :=
  (pageRuns a n).foldl (fun (s : State) r => if translated r.1 then s.tlbLook r.1 else s) s

/-- Queue a translation fault (R303): join the entry of its page, or take one of 256 entries; a host page's first fault asks
the runtime for it (R409). With the queue full the request waits outside it. -/
def State.queueFault (s : State) (a : Nat) (write : Bool) (source : XlatSource) : State :=
  match s.mem.faults.find? fun f => pageKey f.addr == pageKey a with
  | some f =>
    s.modMem fun m => { m with faults := m.faults.map fun g => if g.entry = f.entry then { g with merged := min 65535 (g.merged + 1) } else g }
  | none =>
    if 256 ≤ s.mem.faults.length then s
    else
      let free := ((List.range 256).map fun i => (s.mem.nextEntry + i) % 256).find? fun e => s.mem.faults.all fun f => f.entry != e
      let e := free.getD 0
      let s := s.modMem fun m =>
        { m with faults := m.faults ++ [⟨e, a, write, source, 0, true⟩], nextEntry := (e + 1) % 256, xlatFaults := m.xlatFaults + 1 }
      if inHost a then
        let r := s.job.regionAt a
        s.post 0x0A01 (bytesOf 8 a ++ bytesOf 1 (ofBool write) ++ zeros 1 ++ bytesOf 2 (match r with
          | some r => r.id
          | none => 0) ++ zeros 4 ++ bytesOf 8 (match r with
          | some r => a - r.base
          | none => 0))
      else s

/-- Does an access of `n` bytes at `a` translate, in full? The first page that does not. -/
def MemSys.faultPage (m : MemSys) (a n : Nat) (write : Bool) : Option Nat :=
  (pageRuns a n).findSome? fun r => if translated r.1 && (m.translate r.1 write).isNone then some r.1 else none

/-! ### Aborting tasks (R216, R217) -/

/-- A stage of an aborted task issues no more: held requests go, issued ones stay to complete. -/
def Stage.cease (st : Stage) : Stage := { st with xfers := [], reqs := st.reqs.filter fun r => !r.held }

/-- A fault of a task: only the first counts; held requests go, issued ones stay to complete. -/
def Core.abortTask (c : Core) (id : Nat) (info : AbortInfo) : Core :=
  { c with tasks := c.tasks.map fun t =>
      if t.id = id && t.abort.isNone then { t with abort := some info, stages := t.stages.map Stage.cease } else t }

/-- Record an ingest event and hold the slot; firmware pauses every rank (R256). Only the first event stays recorded. -/
def State.ingestEvent (s : State) (code j step : Nat) : State :=
  let i := s.ing
  let s := { s with ing := { i with
    slots := i.slots.map fun (x : Slot) => if x.j = j && x.step = step then { x with phase := .held, blocked := none } else x,
    evCode := if i.evValid then i.evCode else BitVec.ofNat 8 code, evSlot := if i.evValid then i.evSlot else BitVec.ofNat 12 j,
    evStep := if i.evValid then i.evStep else BitVec.ofNat 32 step, evValid := true } }
  s.pauseAll 2

/-- Requests of stream tasks that wait on a page. -/
def Req.waitsOn (r : Req) (key : Nat) : Bool := r.held && r.cause == 0x0A && !r.tile && pageKey r.waitAt == key

/-- Whose requests a stage makes (Table 10.7). -/
def Stage.source (st : Stage) (p : Nat) : XlatSource := if st.kind = .coll then .collective else .stream p

/-- Everything that waits on a page: its address, whether it writes, and whose it is. -/
def State.xlatWaits (s : State) : List (Nat × Bool × XlatSource) :=
  (s.cores.toList.zipIdx.flatMap fun c => c.1.tasks.flatMap fun t => t.stages.flatMap fun st =>
    (st.reqs.filter fun r => r.held && r.cause == 0x0A && !r.tile).map fun r => (r.waitAt, r.write, st.source c.2))
    ++ s.ing.slots.filterMap fun (x : Slot) => x.blocked.map fun key => (4096 * key, false, .ingest)

/-- Requests that wait in the unit because the queue was full take the places that are free now (R303). -/
def State.refillFaults (s : State) : State :=
  let known (a : Nat) : Bool := s.mem.faults.any fun f => pageKey f.addr == pageKey a
  (s.xlatWaits.filter fun w => !known w.1).foldl (fun (s : State) w => s.queueFault w.1 w.2.1 w.2.2) s

/-- Take an entry out of the queue. -/
def State.dropFault (s : State) (entry : Nat) : State :=
  s.modMem fun m => { m with faults := m.faults.filter fun f => f.entry != entry }

/-- What the abort of a task by one of its requests records: the block that the request's descriptor names (R216). -/
def Stage.abortAt (st : Stage) (index desc cause addr : Nat) : AbortInfo :=
  ⟨cause, index, desc, natAt (st.descs.getD (desc - st.dropped) []) 48 8, 0, 0, addr⟩

/-- The tasks that wait on a page, each with the record of its abort by cause 0x05. -/
def Core.waitingOn (c : Core) (key page : Nat) : List (Nat × AbortInfo) :=
  c.tasks.flatMap fun t => t.stages.zipIdx.flatMap fun st =>
    (st.1.reqs.filter fun r => r.waitsOn key).map fun r => (t.id, st.1.abortAt st.2 r.desc 5 page)

/-- Change every outstanding request of a core. -/
def Core.mapReqs (c : Core) (f : Req → Req) : Core :=
  { c with tasks := c.tasks.map fun t => { t with stages := t.stages.map fun st => { st with reqs := st.reqs.map f } } }

/-- The entry is answered unresolvable: every task waiting on its page aborts with cause 0x05, and an ingest slot waiting on
it raises event 0x01 (R303). -/
def State.failPage (s : State) (f : XlatFault) : State :=
  let key := pageKey f.addr
  let page := key * 4096
  let s := s.dropFault f.entry
  let s := s.mapCores fun c => (c.waitingOn key page).foldl (fun c a => c.abortTask a.1 a.2) c
  ((s.ing.slots.filter fun x => x.blocked == some key).foldl (fun s x => s.ingestEvent 1 x.j x.step) s).refillFaults

/-! ### Commands -/

/-- R303. A fault that the host has not resolved within half of wdog_ms is declared unresolvable. -/
def execXlatFaultTimeout (entry : BitVec 8) (s : State) : Host.Outcome State Fault Refusal :=
  match s.mem.faults.find? fun f => f.entry == entry.toNat with
  | some f => .next (s.failPage f)
  | none => .next s

/-- Firmware answers retry to a queue entry: every request of it is translated again; one that faults again goes back to the
queue (R303). -/
def State.retryPage (s : State) (f : XlatFault) : State :=
  let key := pageKey f.addr
  let s := s.dropFault f.entry
  let again := s.cores.toList.zipIdx.flatMap fun c => c.1.tasks.flatMap fun t => t.stages.flatMap fun st =>
    (st.reqs.filter fun r => r.waitsOn key && (s.mem.faultPage r.waitAt 1 r.write).isSome).map fun r => (r, st.source c.2)
  let m := s.mem
  let free (r : Req) : Req :=
    if r.waitsOn key && (m.faultPage r.waitAt 1 r.write).isNone then
      { r with held := false, cause := if inScree r.addr then 9 else 0, entry := m.entryOf r.addr }
    else r
  let slots := s.ing.slots.map fun (x : Slot) => if x.blocked == some key then { x with blocked := none } else x
  let s := (({ s with ing := { s.ing with slots := slots } } : State)).mapCores fun c => c.mapReqs free
  (again.foldl (fun (s : State) x => s.queueFault x.1.waitAt x.1.write x.2) s).refillFaults

/-- R303. Retry. -/
def execXlatRespRetry (entry : BitVec 8) (s : State) : Host.Outcome State Fault Refusal :=
  match s.mem.faults.find? fun f => f.entry == entry.toNat with
  | none => .next s
  | some f => .next (s.retryPage f)

/-- R303. Unresolvable. -/
def execXlatRespUnresolvable (entry : BitVec 8) (s : State) : Host.Outcome State Fault Refusal :=
  match s.mem.faults.find? fun f => f.entry == entry.toNat with
  | some f => .next (s.failPage f)
  | none => .next s

/-- R304. MEM_TLB_INV with all = 1. -/
def execTlbInvalidateAll (s : State) : Host.Outcome State Fault Refusal := .next (s.modMem fun m => { m with tlb := [] })

/-- R304. MEM_TLB_INV with all = 0: the entry of one device page. -/
def execTlbInvalidatePage (page : BitVec 36) (s : State) : Host.Outcome State Fault Refusal :=
  .next (s.modMem fun m => { m with tlb := m.tlb.filter fun k => k != pageKey (page.toNat * 4096) })

/-- Requests that wait at a channel carry delay cause 0x03 (R224): they have met a refreshing bank or a read-write turnaround (R293). -/
def State.channelBusy (s : State) (channel : Nat) : State :=
  let m := s.mem
  let hits (r : Req) : Bool := !r.tile && !r.held && r.cause == 0 && decide (r.addr < m.usable)
    && m.channelList.getD (r.addr / 4096 % m.channelCount) 24 == channel
  s.mapCores fun c => c.mapReqs fun r => if hits r then { r with cause := 3 } else r

/-- R293. A refresh. -/
def execGddr7Refresh (channel : Fin 24) (s : State) : Host.Outcome State Fault Refusal :=
  if !bitAt s.mem.channels.toNat channel.val then .next s
  else .next ((s.modMem fun m => { m with refreshes := m.refreshes.set channel (m.refreshes[channel] + 1) }).channelBusy channel.val)

/-- The turnarounds of clock period `n` (R293). -/
def State.turnarounds (s : State) (n : Nat) : State :=
  s.mem.channelList.foldl (fun (s : State) c => if Config.turnaround c n then s.channelBusy c else s) s

/-- The device address of line `line` of a channel (R289). -/
def MemSys.lineAddr (m : MemSys) (channel line : Nat) : Option Nat :=
  let k := m.channelList.findIdx (· == channel)
  if m.channelCount ≤ k || 0xF8000000 ≤ 64 * line then none
  else some ((64 * line / 4096 * m.channelCount + k) * 4096 + 64 * line % 4096)

/-- The scrubber has read a channel's last line: the device's on-die ECC error count is read out (R293). -/
def State.scrubPass (s : State) (channel : Fin 24) (line : Nat) : State :=
  if line + 1 = 0x3E00000 then
    s.modMem fun m =>
      { m with onDie := m.onDie.set channel (Config.onDieErrors channel.val m.passes[channel]), passes := m.passes.set channel (m.passes[channel] + 1) }
  else s

/-- R293. The patrol scrub reads a line, in `sectors` sectors of which, or in the whole of which, an error stands: corrected sectors count and
charge the channel's bucket; an uncorrectable one counts and stays (R292). -/
def execPatrolScrub (channel : Fin 24) (line : Nat) (sectors : Fin 3) (ecc : Ecc) (s : State) : Host.Outcome State Fault Refusal :=
  match s.mem.lineAddr channel.val line with
  | none => .next s
  | some a =>
    let bad := s.mem.gddrBad.contains (a / 64)
    let s := s.scrubPass channel line
    if bad || ecc == Ecc.uncorrectable then .next ((s.spoil a).countUnc a)
    else .next ((if ecc == Ecc.corrected then s.soften ((List.range sectors.val).map fun i => a + 32 * i) else s).meetDev false a 64)

/-- R286. The tile-memory scrubber reads one word. -/
def execTileMemoryScrub (core : Fin 20) (word : Nat) (ecc : Ecc) (s : State) : Host.Outcome State Fault Refusal :=
  match (s.core core).v with
  | none => .next s
  | some v =>
    if 2621440 ≤ word then .next s
    else if v.tileBad.contains word then .next (s.chargeTile core)
    else if ecc == Ecc.uncorrectable then
      .next ((s.modV core fun v => { v with tileBad := v.tileBad ++ [word], tileSoft := v.tileSoft.filter (· != word) }).chargeTile core)
    else if ecc == Ecc.corrected || v.tileSoft.contains word then
      .next (((s.modV core fun v => { v with tileSoft := v.tileSoft.filter (· != word) }).modCore core fun c => { c with tmCorr := c.tmCorr + 1 }).charge
        (24 + core.val) 1 0 0)
    else .next s

/-- Errors that appear in staging memory and GDDR7 in clock period `n`, and what the staging scrubber reads in it: a correctable word is
corrected (R288, R292). -/
def State.memoryUpsets (s : State) (n : Nat) : State :=
  let staging (ws : List Nat) : List Nat := (ws.filter fun w => decide (w < 6291456)).map fun w => stagingBase + 8 * w
  let gddr (unit : Nat) (us : List Nat) : List Nat := (us.filter fun u => decide (unit * u < s.mem.usable)).map (unit * ·)
  let s := (staging (Config.upsetStaging true n) ++ gddr 64 (Config.upsetGddr true n)).foldl (fun (s : State) a => s.spoil a) s
  let s := s.soften (staging (Config.upsetStaging false n) ++ gddr 32 (Config.upsetGddr false n))
  (staging (Config.stagingScrub n)).foldl (fun (s : State) a => (s.readMem a 8).1) s

end Sys2Proof.Machine
end

