-- ==== Sys2Proof/Machine/Shared.lean ====
section
/-! DEFINITION. Operations that several blocks share: host buffers, accesses through the region table, the copy-before-write
guard (R221, R370), twin records (R277 to R280), provenance records (R267 to R271) and capture (R281). -/

namespace Sys2Proof.Machine

/-! ### Host buffers (R404) -/

/-- Runs (bus address, length) of bytes `off` to `off + n - 1` of a list of extents. -/
def extentRuns : List (Nat × Nat) → Nat → Nat → List (Nat × Nat)
  | [], _, _ => []
  | (a, len) :: es, off, n =>
    if n = 0 then []
    else if len ≤ off then extentRuns es (off - len) n
    else (a + off, min n (len - off)) :: extentRuns es 0 (n - min n (len - off))

/-- Write bytes into a host buffer at an offset. -/
def State.writeBuf (s : State) (b : HostBuf) (off : Nat) (bs : List Byte) : State :=
  ((extentRuns b.extents off bs.length).foldl (fun (st : State × List Byte) r =>
    (st.1.hostWrite r.1 (st.2.take r.2), st.2.drop r.2)) (s, bs)).1

/-- Read bytes of a host buffer. -/
def State.readBuf (s : State) (b : HostBuf) (off n : Nat) : List Byte :=
  (extentRuns b.extents off n).flatMap fun r => s.mem.host.getRange r.1 r.2

/-! ### Accesses of engines through the region table (R287, R301) -/

/-- How an access ends: with its bytes, with an abort cause and fault address (R216), or waiting for a page. -/
inductive MemRes where
  | ok (bs : List Byte)
  | bad (cause addr : Nat)
  | wait (page : Nat)
  deriving DecidableEq, Repr

/-- The region an access of a task of virtual core `num` uses, or the fault address (R301, R287). -/
def Job.checkRegion (j : Job) (num rid : Nat) (off : Int) (len : Nat) (write : Bool) : Region ⊕ Nat :=
  match j.region rid with
  | none => .inr (infoAddr off)
  | some r =>
    match r.refuses off len write with
    | some o => .inr (infoAddr (r.base + o))
    | none => if r.kind = .tile && r.vcore != num then .inr (infoAddr (r.base + off)) else .inl r

/-- Read bytes of a region. -/
def State.regionRead (s : State) (p : Fin 20) (num rid : Nat) (off : Int) (n : Nat) : MemRes :=
  match s.job.checkRegion num rid off n false with
  | .inr a => .bad 2 a
  | .inl r =>
    let a := (r.base + off).toNat
    if r.kind = .tile then
      match (s.core p).v with
      | none => .bad 2 a
      | some v => match badWord v.tileBad a n with
        | some w => .bad 4 w
        | none => .ok (v.readTile a n)
    else match s.mem.faultPage a n false with
      | some g => .wait g
      | none => match s.mem.readDev a n with
        | (bs, none) => .ok bs
        | (_, some u) => .bad 4 u

/-- Write bytes of a region: the state, and how it ends. A unit that stays uncorrectable does not take its part write. -/
def State.regionWrite (s : State) (p : Fin 20) (num rid : Nat) (off : Int) (bs : List Byte) : State × MemRes :=
  match s.job.checkRegion num rid off bs.length true with
  | .inr a => (s, .bad 2 a)
  | .inl r =>
    let a := (r.base + off).toNat
    if r.kind = .tile then
      match (s.core p).v with
      | none => (s, .bad 2 a)
      | some v => match badPart v.tileBad a bs.length with
        | some w => (s, .bad 4 w)
        | none => (s.modV p fun v => v.writeTile a bs, .ok [])
    else match s.mem.faultPage a bs.length true with
      | some g => (s, .wait g)
      | none =>
        let (m, u) := s.mem.writeDev a bs
        match u with
        | some x => ({ s with mem := m }, .bad 4 x)
        | none => ({ s with mem := m }, .ok [])

/-- The device address of a region offset, and whether it is tile memory. -/
def State.placeOf (s : State) (rid : Nat) (off : Int) : Bool × Int :=
  match s.job.region rid with
  | some r => (r.kind == .tile, r.base + off)
  | none => (false, off)

/-- An uncorrectable read, in tile memory or below it, counts and charges the bucket of its memory (R292, Table 12.6). -/
def State.countRead (s : State) (p : Fin 20) (tile : Bool) (addr : Nat) : State := if tile then s.chargeTile p else s.countUnc addr

/-- An access of `n` bytes of a region looks up its pages, unless its request has its translation already (`done`), and meets the correctable
errors that stand there (R286, R288, R292, R302). -/
def State.regionMeet (s : State) (p : Fin 20) (rid : Nat) (off : Int) (n : Nat) (write done : Bool) : State :=
  let q := s.placeOf rid off
  if q.1 then s.correct p false [⟨.tile, q.2.toNat, n, write, 0, 0, 0, 0, false, []⟩]
  else (if done then s else s.tlbRange q.2.toNat n).meetDev write q.2.toNat n

/-- Read bytes of a region as the hardware does: with what the access looks up, corrects and counts. -/
def State.regionGet (s : State) (p : Fin 20) (num rid : Nat) (off : Int) (n : Nat) (done : Bool := false) : State × MemRes :=
  match s.regionRead p num rid off n with
  | .ok bs => (s.regionMeet p rid off n false done, .ok bs)
  | .bad c a => (if c = 4 then (s.regionMeet p rid off n false done).countRead p (s.placeOf rid off).1 a else s, .bad c a)
  | .wait g => (s, .wait g)

/-- Write bytes of a region likewise. -/
def State.regionPut (s : State) (p : Fin 20) (num rid : Nat) (off : Int) (bs : List Byte) (done : Bool := false) : State × MemRes :=
  match (s.regionWrite p num rid off bs).2 with
  | .ok _ => (((s.regionMeet p rid off bs.length true done).regionWrite p num rid off bs).1, .ok [])
  | .bad c a =>
    (if c = 4 then (((s.regionMeet p rid off bs.length true done).regionWrite p num rid off bs).1).countRead p (s.placeOf rid off).1 a else s,
      .bad c a)
  | .wait g => (s, .wait g)

/-- Bytes at device addresses take undefined values (R4). -/
def State.undefDev (s : State) (a n : Nat) : State :=
  let (e, s) := s.fresh
  (pageRuns a n).foldl (fun (s : State) r => s.modMem fun m => match m.place r.1 with
    | .gddr x => { m with gddr := m.gddr.refill x r.2 (.undef e) }
    | .staging x => { m with staging := m.staging.refill x r.2 (.undef e) }
    | .scree x => { m with scree := m.scree.refill x r.2 (.undef e) }
    | .host x => { m with host := m.host.refill x r.2 (.undef e) }
    | .hole => m) s

/-- Bytes of a region take undefined values (R4, R216). -/
def State.regionUndef (s : State) (p : Fin 20) (num rid : Nat) (off : Int) (n : Nat) : State :=
  match s.job.checkRegion num rid off n true with
  | .inr _ => s
  | .inl r =>
    let a := (r.base + off).toNat
    if r.kind = .tile then
      let (e, s) := s.fresh
      s.modV p fun v => { v with tile := v.tile.refill a n (.undef e) }
    else s.undefDev a n

/-! ### Copy-before-write guard (R221, R370, R373, R381) -/

/-- A device address lies in a covered region. -/
def State.covered (s : State) (a : Nat) : Bool :=
  s.job.covered.any fun id => match s.job.region id with
    | some r => decide (r.base ≤ a) && decide (a < r.base + r.size)
    | none => false

/-- A boundary at or below a step tag that the rank has still to arm (R365, R366, R370): a pending one, or a multiple of ckpt_every that no
virtual core of the rank has reached. -/
def State.unarmed (s : State) (tag : Nat) : Bool :=
  (s.ckpt.pendingB.any fun b => decide (b ≤ tag))
    || (decide (0 < s.job.ckptEvery) && decide (max (maxOf s.stepTags) s.job.firstStep < tag / s.job.ckptEvery * s.job.ckptEvery))

/-- A write with a step tag at a device address is held: its granule waits for its copy, or a boundary at or below its tag is not armed
yet. -/
def State.guardHolds (s : State) (tag a : Nat) : Bool :=
  s.covered a &&
    ((s.ckpt.armed && decide (s.ckpt.b ≤ tag) && s.ckpt.granules.any fun g => !g.copied && g.addr == 65536 * (a / 65536))
      || s.unarmed tag)

/-- The first address among the `n` bytes at `a` that is held: in the first of their granules that is. -/
def State.guardHeld (s : State) (tag a n : Nat) : Option Nat :=
  if n = 0 then none
  else ((List.range ((a + n - 1) / 65536 - a / 65536 + 1)).map fun i => max a ((a / 65536 + i) * 65536)).find? fun x => s.guardHolds tag x

/-- Writes held for the guard go on once nothing holds them. -/
def State.releaseGuard (s : State) : State :=
  s.mapCores fun c => { c with tasks := c.tasks.map fun t => { t with stages := t.stages.map fun st =>
    { st with reqs := st.reqs.map fun r =>
        if r.held && r.cause == 6 && !s.guardHolds t.step.toNat r.waitAt then { r with held := false, cause := 0 } else r } } }

/-- What CKPT_STATE.phase shows while no set is being copied (Table 13.8): a restore, a virtual core held at a boundary, a drain, a pending
boundary. Where several hold, the first of these shows (DESIGN CHOICE, log 32). -/
def State.restPhase (s : State) : Phase :=
  if s.ckpt.restore.isSome then .restoring
  else if coreNums.any fun p => (s.core p).hold == .boundary then .holding
  else if s.ckpt.drain.isSome then .draining
  else if s.ckpt.pendingB.isEmpty then .idle else .pending

/-- A set is being copied, or its manifest is to be written. -/
def Ckpt.busy (c : Ckpt) : Bool := c.phase == .copying || c.phase == .manifest

/-- The phase follows what the device does besides a set in progress. -/
def State.showPhase (s : State) : State :=
  if s.ckpt.busy then s else { s with ckpt := { s.ckpt with phase := s.restPhase } }

/-- The set in progress fails (R381): event 0x0D02, the guard disarms. A failed set that a drain-and-replacement request of
this device named is asked for again (R367). -/
def State.failSet (s : State) (reason : Nat) : State :=
  if s.ckpt.busy then
    let c := s.ckpt
    let s := { s with ckpt := { c with phase := s.restPhase, armed := false, granules := [], shards := [], zeroing := [],
                                       fails := c.fails + 1, lastFail := BitVec.ofNat 8 reason,
                                       drainB := c.drainB.filter fun b => b != c.b } }
    (s.releaseGuard).post 0x0D02 (bytesOf 8 c.gen ++ bytesOf 4 c.b ++ bytesOf 4 s.job.rank ++ bytesOf 1 reason)
  else s

/-- A write with an older step tag than the armed boundary fails the set (R370). -/
def State.lateWrite (s : State) (tag a : Nat) : State :=
  if s.ckpt.armed && decide (tag < s.ckpt.b) && s.covered a then s.failSet 2 else s

/-- Count a write that the guard holds (CKPT_HOLD_CNT). -/
def State.countHold (s : State) : State := { s with ckpt := { s.ckpt with holds := s.ckpt.holds + 1 } }

/-! ### Twin records (R277 to R280) -/

/-- The 32 bytes of Table 9.5. -/
def TwinRec.bytes (r : TwinRec) : List Byte :=
  bytesOf 4 r.step.toNat ++ bytesOf 2 r.source ++ bytesOf 1 r.strand ++ bytesOf 1 r.stage ++ bytesOf 4 r.task
    ++ bytesOf 4 r.desc ++ bytesOf 8 r.blockId ++ bytesOf 4 r.chk.toNat ++ zeros 4

def TwinRec.ofBytes (b : List Byte) : TwinRec :=
  { step := BitVec.ofNat 32 (natAt b 0 4), source := natAt b 4 2, strand := natAt b 6 1, stage := natAt b 7 1 % 8,
    task := natAt b 8 4, desc := natAt b 12 4, blockId := natAt b 16 8, chk := BitVec.ofNat 32 (natAt b 24 4) }

/-- The key in block-sequence order (R277). -/
def TwinRec.key (r : TwinRec) : List Nat := [r.step.toNat, r.source, r.strand, r.task, r.stage, r.desc]

def TwinRec.same (a b : TwinRec) : Bool := a.key == b.key

def TwinRec.before (a b : TwinRec) : Bool := decide (a.key < b.key)

/-- Divergence event (Table 9.6). -/
def State.postDivergence (s : State) (r : List Byte) (peerChk : Nat) (halted lost : Bool) : State :=
  s.post 0x0903 (padTo 32 r ++ bytesOf 4 peerChk ++ bytesOf 4 s.rep.miss ++ bytesOf 1 (ofBool halted + 2 * ofBool lost))

/-- The lowest-keyed of a list of records. -/
def lowestRec (rs : List TwinRec) : Option TwinRec :=
  rs.foldl (fun best r => match best with
    | none => some r
    | some b => if r.before b then some r else some b) none

/-- The signal that halts the twin (R279): a twin packet without a record (log 25). -/
def State.sendHalt (s : State) : State := s.toPartner 6 pktTwin 0 0xFFFFFFFF []

/-- A mismatch (R279): counted; under halt policy the first pauses the job and signals the twin, and the event waits until
every record already formed is compared. -/
def State.twinMismatch (s : State) (own : TwinRec) (peerChk : Word) : State :=
  let s := { s with rep := { s.rep with miss := s.rep.miss + 1 } }
  if s.rep.cont then
    let n := (s.rep.posted.filter fun e => e.1 == own.step).length
    let again := s.rep.mism.any fun m => m.1.same own
    let s := { s with rep := { s.rep with mism := s.rep.mism ++ [(own, peerChk)] } }
    if 256 ≤ n || again then s
    else
      let s := { s with rep := { s.rep with posted := s.rep.posted ++ [(own.step, n)] } }
      s.postDivergence own.bytes peerChk.toNat false false
  else
    let first := !s.rep.halted
    let s := { s with rep := { s.rep with mism := s.rep.mism ++ [(own, peerChk)] } }
    if first then ({ s with rep := { s.rep with settling := true, halted := true } }.pauseAll 4).sendHalt else s

/-- The twin comparison runs. -/
def State.twinned (s : State) : Bool := s.rep.enable && s.rep.linked

/-- A record enters the compare unit from this device (`mine`) or from the twin (R278). What writes blocks leaves room for its record
(`twinRoom`, `twinSpace`). -/
def State.compareTwin (s : State) (mine : Bool) (r : TwinRec) (resubmitted : Bool) : State :=
  let y := s.rep
  match y.retired.find? fun x => x.same r with
  | some x => if x.chk = r.chk then s else if mine then s.twinMismatch r x.chk else s.twinMismatch x r.chk
  | none =>
    let other := if mine then y.peer else y.own
    match other.find? fun x => x.same r with
    | some x =>
      let own := if mine then r else x
      let s := { s with rep := { y with own := y.own.filter fun z => !z.same r, peer := y.peer.filter fun z => !z.same r,
                                        retired := y.retired ++ [own] } }
      if x.chk = r.chk then { s with rep := { s.rep with cmp := s.rep.cmp + 1 } }
      else s.twinMismatch own (if mine then x.chk else r.chk)
    | none =>
      let put (l : List TwinRec) : List TwinRec :=
        if resubmitted && l.any (fun z => z.same r) then l.map fun z => if z.same r then r else z else l ++ [r]
      { s with rep := if mine then { y with own := (put y.own).take 32768 } else { y with peer := put y.peer } }

/-- This device writes a block that forms a twin record (R277): it is sent to the twin and compared. A block written after a halt forms
none (R279; log 66). -/
def State.noteTwin (s : State) (r : TwinRec) (resubmitted : Bool) : State :=
  if s.twinned && !s.rep.halted then (s.toPartner 6 pktTwin 0 0 r.bytes).compareTwin true r resubmitted else s

/-- There is room for `n` more unmatched records; without it, no further block that would form one completes (R278). -/
def State.twinRoom (s : State) (n : Nat) : Bool := !s.twinned || s.rep.halted || n == 0 || decide (s.rep.own.length + n ≤ 32768)

/-- How many of `n` blocks that form twin records may complete now (R278). -/
def State.twinSpace (s : State) (n : Nat) : Nat := if !s.twinned || s.rep.halted then n else min n (32768 - s.rep.own.length)

/-- Blocks written to this region form twin records. -/
def Job.twinRegion (j : Job) (rid : Nat) : Bool := match j.region rid with
  | some r => !r.twinSkip
  | none => true

/-! ### Provenance (R267 to R271) -/

/-- The accepted entries of a step in slot order. -/
def Ingest.entriesOf (i : Ingest) (step : Nat) : List Byte :=
  let mine := i.accepted.filter fun a => a.1 == step
  (List.range (maxOf (mine.map (·.2.1)) + 1)).flatMap fun j => match mine.find? fun a => a.2.1 == j with
    | some a => padTo 64 a.2.2
    | none => []

/-- The input digest of a step (R270). -/
def State.inputDigest (s : State) (step : Nat) : List Byte := sha256 (padTo 32 s.job.corpus ++ s.ing.entriesOf step)

/-- The 128 bytes of Table 9.2. -/
def State.preimage (s : State) (step : Nat) : List Byte :=
  let j := s.job
  padTo 32 j.digest ++ padTo 32 j.weights ++ s.inputDigest step ++ bytesOf 8 j.seed ++ bytesOf 4 step ++ bytesOf 2 j.v
    ++ bytesOf 2 j.n ++ bytesOf 2 j.contract ++ bytesOf 1 (ofBool j.ftz + 2 * ofBool j.strict) ++ zeros 1 ++ bytesOf 4 j.rank
    ++ zeros 8

/-- Append a record of `size` bytes to a ring, or lose it when the buffer has no room for one more. -/
def Ring.room (r : Ring) (size : Nat) : Bool := decide ((r.next + 1) * size ≤ r.buf.total)

/-- A completed task that stored into result regions appends its record, or loses it (R267, R271). -/
def State.provenance (s : State) (t : Task) : State :=
  match t.provBlock with
  | none => s
  | some first =>
    let ring := s.job.prov
    if ring.room 192 then
      let pre := s.preimage t.step.toNat
      let rec_ := pre ++ sha256 pre ++ bytesOf 2 t.vcore ++ bytesOf 1 t.strand ++ bytesOf 1 (ofBool t.resubmitted)
        ++ bytesOf 4 t.taskNo ++ bytesOf 8 first ++ bytesOf 4 t.provChks.length
        ++ bytesOf 4 (crc32c (t.provChks.flatMap fun c => bytesOf 4 c.toNat)).toNat ++ bytesOf 4 ring.next ++ zeros 4
      let s := s.writeBuf ring.buf (192 * ring.next) rec_
      { s with job := { s.job with prov := { ring with next := ring.next + 1 } } }
    else
      let s := { s with rep := { s.rep with provLost := s.rep.provLost + 1 } }
      s.post 0x0902 (bytesOf 4 t.step.toNat ++ bytesOf 2 t.vcore ++ bytesOf 1 t.strand)

/-- The job runs on this device, started and not ended. -/
def State.jobLive (s : State) : Bool := s.job.state == .running || s.job.state == .paused

/-! ### Reports of core faults (R350, R351) -/

/-- CORE_FAULT as it shows a fault with `more` further ones (Table 6.12). -/
def FaultRec.reg (f : FaultRec) (valid : Bool) (more : Nat) : Nat :=
  f.code + 256 * f.strand + 32768 * ofBool valid + 65536 * f.opcode + 4294967296 * f.pc + 2 ^ 48 * more

/-- CORE_FAULT (Table 6.12). -/
def Core.faultReg (c : Core) : Nat := c.recorded.reg c.faultValid c.faultMore.toNat

/-- Clearing CORE_FAULT.valid clears every field; the core may issue again (R192, R351). -/
def Core.clearFault (c : Core) : Core :=
  { c with faultStop := false, faultCode := 0, faultStrand := 0, faultValid := false, faultOpcode := 0, faultPc := 0,
           faultMore := 0, faultInfo := 0, later := [], acted := none, answer := none }

/-- The fault form of Table 12.8's payloads, for a value of CORE_FAULT and of CORE_FAULT_INFO. -/
def Core.faultForm (c : Core) (reg info : Nat) : List Byte :=
  let (step, num) := match c.own with
    | some v => (v.stepTag.toNat, v.num)
    | none => (0, 0)
  bytesOf 8 reg ++ bytesOf 8 info ++ bytesOf 4 step ++ bytesOf 2 num

/-- The fault that firmware acts on: the recorded one, or one that came behind it, whose turn it is (log 45). -/
def Core.current (c : Core) : FaultRec := c.acted.getD c.recorded

/-- The same of the fault that firmware acts on. -/
def State.faultReport (s : State) (p : Fin 20) : List Byte :=
  let c := s.core p
  c.faultForm (c.current.reg c.faultValid c.faultMore.toNat) c.current.info

/-- Classes of Table 12.4. -/
inductive ErrClass where
  | c
  | r
  | j
  | p
  | d
  deriving DecidableEq, Repr

/-- The class as event 0x0C06 carries it: its letter in ASCII (log 27). -/
def ErrClass.code : ErrClass → Nat
  | .c => 0x43 | .r => 0x52 | .j => 0x4A | .p => 0x50 | .d => 0x44

/-- Class of an abort cause (Table 12.5). -/
def abortClass (cause : Nat) : ErrClass :=
  if cause = 1 || cause = 6 then .r else if cause = 4 || cause = 7 then .j else .p

/-- Class of a core fault (Table 12.5); `cause` is its task's abort cause, for fault 0x0D. -/
def faultClass (code cause : Nat) : ErrClass :=
  if code = 7 then .r else if code = 9 || code = 0xB then .j else if code = 0xD then abortClass cause else .p

/-- Event 0x0C06 (Table 12.8). -/
def State.postFault (s : State) (p : Fin 20) (k : ErrClass) (action : Nat) : State :=
  s.post 0x0C06 (padTo 24 (s.faultReport p) ++ bytesOf 1 k.code ++ bytesOf 1 action)

/-- Table 12.5's Cairn increment of a core fault: a check mismatch in the core's checker alarms, an uncorrectable accumulator or tile word in
its SRAM bucket. -/
def State.chargeFault (s : State) (p : Fin 20) (code : Nat) : State :=
  if code = 7 then s.charge (64 + p.val) 0 1 0 else if code = 9 || code = 0xB then s.charge (24 + p.val) 0 1 0 else s

/-- Rollback for a core's fault (R349): pause every rank and ask the runtime. -/
def State.rollbackFault (s : State) (p : Fin 20) : State := (s.pauseAll 3).post 0x0C02 (s.faultReport p)

/-! ### The firmware area of GDDR7 (R305) -/

/-- The bytes of save areas that the loader's pairs take (R305, R306). -/
def State.saveAreas (s : State) : Nat := 25165824 * (2 * (coreNums.filter fun p => (s.core p).partner.isSome).length)

/-- First byte of the firmware area: the top of usable GDDR7 (R305); 0 without any (R295). -/
def State.fwBase (s : State) : Nat := s.mem.usable - 268435456 - s.saveAreas

/-- Firmware or hardware writes in the 256 MiB of the firmware area, at an offset within them; what does not fit stays unwritten. -/
def State.writeFw (s : State) (off : Nat) (bs : List Byte) : State :=
  (s.writeMem (s.fwBase + off) (bs.take (min (268435456 - off) (s.mem.usable - s.fwBase - off)))).1

/-- What the trace region keeps of an access: strand, code index, cycle, and where it stands. -/
def Access.trace (a : Access) : List Nat := [a.strand, a.pc, a.cycle, ofBool a.write, a.lo, a.len]

/-- The race audit's records and the count in the trace header stand in the core's trace region (R196). Where the loader binds the region
and how it lays records out is open (`Config.tracePlace`, `Config.traceImage`, log 20). -/
def State.writeTrace (s : State) (p : Fin 20) : State :=
  let c := s.core p
  if c.races.isEmpty && c.racesLost == 0 then s
  else s.writeFw (Config.tracePlace p.val)
    (Config.traceImage (c.races.map fun r => (r.first.trace, r.second.trace, r.ops.map fun o => (o.strand, o.ctr, o.amount, o.wait, o.cycle))) c.racesLost)

/-! ### Capture (R281) -/

/-- Bytes of a captured entry: its key (Table 9.5), whether it is a received block, the length, header and payload.
The layout is the model's own (log 24). -/
def capEntry (key : TwinRec) (received : Bool) (header payload : List Byte) : List Byte :=
  key.bytes ++ bytesOf 4 (ofBool received) ++ bytesOf 4 payload.length ++ padTo 40 header ++ payload

/-- Bytes of an entry before its payload. -/
def capHead : Nat := 80

/-- Steps that the job captures. -/
def Job.captures (j : Job) (step : Nat) : Bool :=
  j.capture && (j.rolling || (decide (j.capFirst ≤ step) && decide (step < j.capFirst + j.capCount)))

/-- Size of the capture region in bytes. -/
def Job.capSize (j : Job) : Nat := if j.captureScree then 2097152 * j.capScree else j.capBuf.total

/-- Write entries in the capture region from an offset on, and behind them an end mark of zeros where it fits (log 24). -/
def State.writeCapture (s : State) (off : Nat) (bs : List Byte) : State :=
  let j := s.job
  let e := bs ++ zeros (min capHead (j.capSize - (off + bs.length)))
  if j.captureScree then ((s.tlbRange (j.capBase + off) e.length).writeMem (j.capBase + off) e).1 else s.writeBuf j.capBuf off e

/-- Append an entry to the capture region; a full region pauses the job and posts event 0x0904 (R281). -/
def State.captureBlock (s : State) (key : TwinRec) (received : Bool) (header payload : List Byte) : State :=
  let j := s.job
  if !j.captures key.step.toNat then s
  else
    let e := capEntry key received header payload
    if j.capSize < j.capUsed + e.length then (s.pauseAll 5).post 0x0904 (bytesOf 4 key.step.toNat)
    else
      let s := s.writeCapture j.capUsed e
      { s with job := { s.job with capUsed := j.capUsed + e.length,
                                   capIndex := j.capIndex ++ [(key.step.toNat, j.capUsed, e.length)] } }

/-- Read bytes of the capture region: the bytes, and the address of a poisoned line (R296). -/
def State.readCapture (s : State) (off n : Nat) : State × List Byte × Option Nat :=
  if s.job.captureScree then (s.tlbRange (s.job.capBase + off) n).readMem (s.job.capBase + off) n else (s, s.readBuf s.job.capBuf off n, none)

/-- An entry of the capture region as it is read back: its key, whether it is a received block, its header and payload, and the address of a
poisoned line. -/
structure Captured where
  key : TwinRec
  received : Bool
  header : List Byte
  payload : List Byte
  bad : Option Nat
  deriving DecidableEq, Repr

/-- The entries of the capture region of a step (log 24). -/
def State.captured (s : State) (step : Nat) : State × List Captured :=
  (s.job.capIndex.filter fun e => e.1 == step).foldl (fun (st : State × List Captured) e =>
    let (s, b, bad) := st.1.readCapture e.2.1 e.2.2
    (s, st.2 ++ [⟨TwinRec.ofBytes b, natAt b 32 4 == 1, sub b 40 40, sub b capHead (natAt b 36 4), bad⟩])) (s, [])

end Sys2Proof.Machine
end

