-- ==== Sys2Proof/Machine/Route.lean ====
section
/-! DEFINITION. Fabric packets (R320, Table 11.2), the down map and the choice of a route (R309 to R311, R317, R322, R323). -/

namespace Sys2Proof.Machine

/-! ### The down map (R323) -/

/-- A link by its + end: (device, even port). -/
def Fabric.linkKey (f : Fabric) (addr port : Nat) : Nat × Nat :=
  if port % 2 = 0 then (addr, port) else (f.neighbourOf addr port, port - 1)

/-- What the down map holds of the link on a device's port; a link of no notice is up at version 3 (R466). -/
def Fabric.linkState (f : Fabric) (addr port : Nat) : LinkState :=
  let k := f.linkKey addr port
  match f.downMap.find? fun e => e.1 == k.1 && e.2.1 == k.2 with
  | some e => e.2.2
  | none => .v3

/-- Change the down map's entry of a link. -/
def Fabric.setLink (f : Fabric) (addr port : Nat) (st : LinkState) : Fabric :=
  let k := f.linkKey addr port
  { f with downMap := (f.downMap.filter fun e => !(e.1 == k.1 && e.2.1 == k.2)) ++ [(k.1, k.2, st)] }

/-- May traffic use a link? `v3` for what R317 keeps off version 2 links. A device's own ports speak for themselves (R323). -/
def State.linkClear (s : State) (addr port : Nat) (v3 : Bool) : Bool :=
  (match s.fab.linkState addr port with
    | .down => false
    | .v2 => !v3
    | .v3 => true)
  && (addr != s.ownAddr.toNat ||
      let q := s.fab.ports[port]!
      q.enable && (q.state == .up || q.state == .retraining) && (q.v3 || !v3))

/-- Dimension orders 0 XYZ to 5 ZYX (R322). -/
def orderDims (order : Nat) : List Nat :=
  match order with
  | 0 => [0, 1, 2] | 1 => [0, 2, 1] | 2 => [1, 0, 2] | 3 => [1, 2, 0] | 4 => [2, 0, 1] | _ => [2, 1, 0]

/-- The port by which a packet moves in one dimension, and how many hops (R322). -/
def Fabric.move (f : Fabric) (addr dst d : Nat) : Nat × Nat :=
  let n := f.dims.getD d 1
  let k := (coord dst d + n - coord addr d) % n
  if k ≤ n - k then (2 * d, k) else (2 * d + 1, n - k)

/-- Hops in one direction: the links used and the address reached. -/
def Fabric.walk (f : Fabric) (port : Nat) : Nat → Nat → List (Nat × Nat) × Nat
  | 0, addr => ([], addr)
  | n + 1, addr => let r := f.walk port n (f.neighbourOf addr port); ((addr, port) :: r.1, r.2)

/-- The links of a whole path under one order. -/
def Fabric.path (f : Fabric) (src dst order : Nat) : List (Nat × Nat) :=
  ((orderDims order).foldl (fun (st : List (Nat × Nat) × Nat) d =>
    let m := f.move st.2 dst d
    let r := f.walk m.1 m.2 st.2
    (st.1 ++ r.1, r.2)) ([], src)).1

/-- The port an intermediate device sends a packet on under the order its header names. -/
def Fabric.nextPort (f : Fabric) (addr dst order : Nat) : Option Nat := ((f.path addr dst order).head?).map (·.2)

/-- F6 and F7 lead straight to their partner (R311): F6 not while twin mode holds it. -/
def State.partnerPort (s : State) (dst : Nat) (v3 : Bool) : Option Nat :=
  let ok (n : Nat) (partner : Nat) : Bool :=
    let q := s.fab.ports[n]!
    partner == dst && q.enable && (q.state == .up || q.state == .retraining) && (q.v3 || !v3)
  if !s.rep.enable && ok 6 (bitsAt s.fab.pair.toNat 0 15) then some 6
  else if ok 7 (bitsAt s.fab.pair.toNat 16 15) then some 7
  else none

/-- The first port and the order of a route, or none when the destination is unreachable (R322). A packet to this device
itself needs no port. -/
def State.route (s : State) (dst : Nat) (v3 : Bool) : Option (Option Nat × Nat) :=
  let src := s.ownAddr.toNat
  if dst = src then some (none, 0)
  else match s.partnerPort dst v3 with
    | some n => some (some n, 0)
    | none =>
      match (List.range 6).find? fun o => (s.fab.path src dst o).all fun l => s.linkClear l.1 l.2 v3 with
      | some o => some (s.fab.nextPort src dst o, o)
      | none => none

/-! ### Packets (R320) -/

/-- The 32-byte header of a block (Table 7.1). -/
def Block.header (b : Block) : List Byte :=
  bytesOf 8 b.id ++ bytesOf 4 b.step.toNat ++ bytesOf 2 (b.region + 4096 * b.fmt.code)
    ++ bytesOf 2 (ofBool b.transposed + 2 * ofBool b.concealed) ++ bytesOf 4 b.seq ++ bytesOf 4 b.data.length ++ zeros 4
    ++ bytesOf 4 b.chk.toNat

/-- A block from its bytes on the way; the extent of dimension 0 does not travel. -/
def Block.ofBytes (bs : List Byte) : Block :=
  { id := natAt bs 0 8, step := BitVec.ofNat 32 (natAt bs 8 4), region := natAt bs 12 2 % 4096,
    fmt := Fmt.ofCode (natAt bs 12 2 / 4096), transposed := bitAt (natAt bs 14 2) 0, concealed := bitAt (natAt bs 14 2) 1,
    seq := natAt bs 16 4, ext0 := 1, data := sub bs 32 (natAt bs 20 4), chk := BitVec.ofNat 32 (natAt bs 28 4) }

/-- Send one block of an operation (R322, R325): none when the destination is unreachable. -/
def State.sendBlock (s : State) (dst opId index node : Nat) (v3 : Bool) (b : Block) : Option State :=
  (s.route dst v3).map fun r => s.sendData r.1 v3 (s.packetsOf pktData 1 r.2 dst opId index node (b.header ++ b.data))

/-- Send an open (R327, R334). -/
def State.sendOpen (s : State) (dst opId : Nat) (v3 : Bool) (params : List Byte) : Option State :=
  (s.route dst v3).map fun r => s.sendData r.1 v3 (s.packetsOf pktOpen 1 r.2 dst opId 0xFFFFFFFF 0 params)

/-- Return an acknowledge with its outcome and, for a mismatch, both check values (R324); the layout of its payload is the
model's own (log 25). -/
def State.sendAck (s : State) (dst opId index outcome : Nat) (expected computed : Word) : State :=
  match s.route dst false with
  | some r => s.sendData r.1 false (s.packetsOf pktAck 1 r.2 dst opId index 0
      (bytesOf 1 outcome ++ zeros 3 ++ bytesOf 4 expected.toNat ++ bytesOf 4 computed.toNat))
  | none => s

/-- The address of a job rank (R264). -/
def Job.addrOf (j : Job) (rank : Nat) : Nat := j.rankTable.getD rank 0

/-- Members of a group; group 0 is every rank in order (R328). -/
def Job.members (j : Job) (group : Nat) : Option (List Nat) :=
  if group = 0 then some (List.range j.n) else j.groups[group]?

end Sys2Proof.Machine
end

