-- ==== Sys2Proof/Machine/Streams.lean ====
section
/-! DEFINITION. The stream engine: descriptors, command records, stages, requests, completion and abort (chapter 7), and the
SEND and COLL stages' own side (R325, R327, R329, R330, R334). -/

namespace Sys2Proof.Machine

/-! ### Block descriptors (R205, R206, Table 7.2) -/

structure Desc where
  offset : Nat
  region : Nat
  ext : List Nat
  stride : List Int
  fmt : Fmt
  transpose : Bool
  merge : Bool
  gen : Bool
  chk : Word
  sofs : Int
  id : Nat
  seq : Nat
  deriving DecidableEq, Repr

def Desc.e (d : Desc) (i : Nat) : Nat := d.ext.getD i 1
def Desc.st (d : Desc) (i : Nat) : Int := d.stride.getD i 0

def Desc.count (d : Desc) : Nat := d.ext.foldl (· * ·) 1

/-- Payload length in bytes: elements, then MX scales (R205). -/
def Desc.len (d : Desc) : Nat := d.fmt.packedLen d.count + (if d.fmt.isMx then d.count / 32 else 0)

/-- A descriptor from its 64 bytes, or none when it is invalid (R206). -/
def Desc.parse (b : List Byte) : Option Desc :=
  let w := natAt b 0 8
  let f := natAt b 36 1
  let fmt := Fmt.ofCode (f % 16)
  let ext := (List.range 4).map fun i => natAt b (8 + 4 * i) 4
  let d : Desc :=
    { offset := bitsAt w 0 48, region := bitsAt w 48 12, ext, stride := (List.range 3).map fun i => signedOf 32 (natAt b (24 + 4 * i) 4),
      fmt, transpose := bitAt f 4, merge := bitAt f 5, gen := bitAt f 6, chk := BitVec.ofNat 32 (natAt b 40 4),
      sofs := signedOf 32 (natAt b 44 4), id := natAt b 48 8, seq := natAt b 56 4 }
  if bitsAt w 60 4 != 0 || bitAt f 7 || !allZero (sub b 37 3) || !allZero (sub b 60 4) || fmt == .pair || fmt == .reserved
      || ext.contains 0 || b.length != 64 then none
  else if d.transpose && (d.e 0 % 32 != 0 || d.e 1 % 32 != 0 || fmt.isMx || fmt == .int4) then none
  else if (fmt.isMx && d.e 0 % 32 != 0) || (fmt == .int4 && d.e 0 % 2 != 0) then none
  else if 1048576 < d.len then none
  else some d

/-- Adjacent runs joined. -/
def joinRuns : List (Int × Nat) → List (Int × Nat)
  | [] => []
  | r :: rs => match joinRuns rs with
    | q :: t => if r.1 + r.2 = q.1 then (r.1, r.2 + q.2) :: t else r :: q :: t
    | [] => [r]

/-- The bytes of a block as runs (offset in the region, length) in payload order (R206). With transpose = 1 ext0 and ext1 bound the payload's
indices (DESIGN CHOICE, log 70). -/
def Desc.runs (d : Desc) : List (Int × Nat) :=
  let z := d.fmt.bits / 8
  let rows := (List.range (d.e 3)).flatMap fun (i3 : Nat) => (List.range (d.e 2)).flatMap fun (i2 : Nat) => (List.range (d.e 1)).flatMap fun (i1 : Nat) =>
    let base : Int := (d.offset : Int) + (i2 : Int) * d.st 1 + (i3 : Int) * d.st 2
    if d.transpose then (List.range (d.e 0)).map fun (i0 : Nat) => (base + (i1 * z : Nat) + (i0 : Int) * d.st 0, z)
    else [(base + (i1 : Int) * d.st 0, d.fmt.packedLen (d.e 0))]
  joinRuns (rows ++ if d.fmt.isMx then [(d.offset + d.sofs, d.count / 32)] else [])

/-- The runs from payload byte `off` on. -/
def dropRuns : Nat → List (Int × Nat) → List (Int × Nat)
  | _, [] => []
  | off, r :: rs => if r.2 ≤ off then dropRuns (off - r.2) rs else (r.1 + off, r.2 - off) :: rs

/-- The first `n` bytes of runs. -/
def takeRuns : Nat → List (Int × Nat) → List (Int × Nat)
  | _, [] => []
  | n, r :: rs => if n = 0 then [] else if r.2 ≤ n then r :: takeRuns (n - r.2) rs else [(r.1, n)]

def runsLen (rs : List (Int × Nat)) : Nat := rs.foldl (fun a r => a + r.2) 0

/-- Payload bytes that one request can carry: at most `room`, within one granule of `gran` bytes (R212). -/
def requestLen (base : Int) (gran : Nat) : Nat → Option Int → List (Int × Nat) → Nat
  | _, _, [] => 0
  | room, key, r :: rs =>
    let a := base + r.1
    let g := a / (gran : Int)
    if room = 0 || key.any (· != g) then 0
    else
      let m := min (min r.2 room) (((g + 1) * gran - a).toNat)
      if m = r.2 then m + requestLen base gran (room - m) (some g) rs else m

/-! ### Tasks and stages -/

def State.task (s : State) (p : Fin 20) (id : Nat) : Option Task := (s.core p).tasks.find? fun t => t.id == id

def Core.putTask (c : Core) (t : Task) : Core := { c with tasks := c.tasks.map fun u => if u.id = t.id then t else u }

/-- A run over one task: the device, the core, the task as it stands. -/
structure TaskRun where
  s : State
  p : Fin 20
  t : Task

/-- Write the task back. -/
def TaskRun.done (r : TaskRun) : State := r.s.modCore r.p fun c => c.putTask r.t

def TaskRun.stage (r : TaskRun) (i : Nat) : Stage := r.t.stages.getD i default

def TaskRun.modStage (r : TaskRun) (i : Nat) (f : Stage → Stage) : TaskRun :=
  { r with t := { r.t with stages := r.t.stages.modify i f } }

/-- The task fails (R216, R217): only the first fault counts; it issues nothing more. -/
def TaskRun.fail (r : TaskRun) (stage desc blockId cause : Nat) (addr : Nat := 0) (expected computed : Word := 0) : TaskRun :=
  if r.t.abort.isSome then r
  else { r with t := { r.t with
    abort := some ⟨cause, stage, desc, blockId, expected, computed, if cause = 2 || cause = 4 || cause = 5 then addr else 0⟩,
    stages := r.t.stages.map Stage.cease } }

/-- No descriptor is concerned (Table 7.6). -/
def noDesc : Nat := 0xFFFFFFFF

def TaskRun.isLast (r : TaskRun) (i : Nat) : Bool := i + 1 == r.t.stages.length

/-- A block's check value, formed again by the stage that takes it, is the header's (R204). -/
def Block.sound (b : Block) : Bool := b.chk == crc32c b.data

/-- Hand a block on; the last stage has then completed it (R209, R216). -/
def TaskRun.push (r : TaskRun) (i : Nat) (b : Block) : TaskRun :=
  if r.isLast i then { r with t := { r.t with delivered := r.t.delivered + 1 } }
  else r.modStage (i + 1) fun st => { st with inq := st.inq ++ [b] }

/-- The predecessor of the next stage has ended. -/
def TaskRun.endStage (r : TaskRun) (i : Nat) : TaskRun :=
  if r.isLast i then r else r.modStage (i + 1) fun st => { st with ended := true }

/-- What tile-memory bytes of this task's access share with other tasks' accesses and with instructions', one of each pair a write: no
token orders these, and the bytes are undefined (R211; log 67). -/
def TaskRun.crossing (r : TaskRun) (a n : Nat) (write : Bool) : List (Nat × Nat) :=
  if ((r.s.core r.p).v.map fun v => v.inRing a n).getD true then []
  else (r.t.met ++ (((r.s.core r.p).tasks.filter fun t => t.id != r.t.id).flatMap Task.touched)) |> Machine.crossing write a n

/-- A task accesses tile memory: the race audit counts the access as its strand's (R211), and correctable words it reads are
corrected (R286). A read finds bytes that R211 leaves undefined so. -/
def TaskRun.touch (r : TaskRun) (a n : Nat) (write : Bool) : TaskRun :=
  let c := r.s.core r.p
  let x : Access := ⟨.tile, a, n, write, c.cycle, c.cycle, r.t.strand, r.t.pc, false, []⟩
  let s := (r.s.noteAccesses r.p [x]).correct r.p false [x]
  { r with s := if write then s else s.blur r.p (r.crossing a n false), t := { r.t with touched := r.t.touched ++ [(a, n, write)] } }

/-- It has written: bytes that R211 leaves undefined become so. -/
def TaskRun.wrote (r : TaskRun) (a n : Nat) : TaskRun := { r with s := r.s.blur r.p (r.crossing a n true) }

/-- A task reads bytes of a region; `done`: by a request that has its translation (R304). -/
def TaskRun.get (r : TaskRun) (rid : Nat) (off : Int) (n : Nat) (done : Bool := false) : TaskRun × MemRes :=
  let q := r.s.placeOf rid off
  let r := match r.s.regionRead r.p r.t.vcore rid off n with
    | .ok _ | .bad 4 _ => if q.1 then r.touch q.2.toNat n false else r
    | _ => r
  let x := r.s.regionGet r.p r.t.vcore rid off n done
  ({ r with s := x.1 }, x.2)

/-- A task writes bytes of a region. -/
def TaskRun.put (r : TaskRun) (rid : Nat) (off : Int) (bs : List Byte) (done : Bool := false) : TaskRun × MemRes :=
  let q := r.s.placeOf rid off
  let tile := q.1 && (match (r.s.regionWrite r.p r.t.vcore rid off bs).2 with
    | .ok _ | .bad 4 _ => true
    | _ => false)
  let r := if tile then r.touch q.2.toNat bs.length true else r
  let x := r.s.regionPut r.p r.t.vcore rid off bs done
  let r := { r with s := x.1 }
  (if tile then r.wrote q.2.toNat bs.length else r, x.2)

/-- Requests outstanding on a core (R213). -/
def Core.outstanding (c : Core) : Nat := c.tasks.foldl (fun a t => t.stages.foldl (fun a st => a + st.reqs.length) a) 0

/-- Fewer than 1,024 requests are outstanding, this task's as it stands counted (R213). -/
def TaskRun.room (r : TaskRun) : Bool :=
  let others := { r.s.core r.p with tasks := (r.s.core r.p).tasks.filter fun t => t.id != r.t.id }
  decide (others.outstanding + r.t.stages.foldl (fun a st => a + st.reqs.length) 0 < 1024)

/-- A stage issues a request, to write the bytes of `runs` (device addresses) or to read: it is translated (R302, R303), and a write that the
guard holds waits at the first byte held (R221, R370). -/
def TaskRun.send (r : TaskRun) (i : Nat) (q : Req) (runs : List (Nat × Nat)) : TaskRun :=
  let far := !q.tile && translated q.addr
  let s := if far then r.s.tlbLook q.addr else r.s
  let wait : Option (Nat × Nat) :=
    if far && (s.mem.translate q.addr q.write).isNone then some (0x0A, q.addr)
    else if q.write && !q.tile then (runs.findSome? fun x => s.guardHeld r.t.step.toNat x.1 x.2).map fun a => (6, a)
    else none
  let s := match wait with
    | some (0x0A, a) => s.queueFault a q.write ((r.stage i).source r.p)
    | some _ => s.countHold
    | none => s
  let q := { q with no := r.t.reqNo, entry := if far then s.mem.entryOf q.addr else 0,
                    cause := (wait.map (·.1)).getD (if !q.tile && inScree q.addr then 9 else 0), held := wait.isSome,
                    waitAt := (wait.map (·.2)).getD q.addr }
  let r := { r with s }.modStage i fun st => { st with reqs := st.reqs ++ [q] }
  { r with t := { r.t with reqNo := r.t.reqNo + 1 } }

/-! ### Stage entries (Tables 7.3, 7.5, 11.3, 11.4) -/

def StageKind.ofCode : Nat → Option StageKind
  | 1 => some .load | 2 => some .expand | 3 => some .epilogue | 4 => some .feed | 5 => some .store | 6 => some .send
  | 7 => some .dispatch | 8 => some .coll | _ => none

/-- Region and offset of a location field. -/
def locOf (b : List Byte) (off : Nat) : Nat × Nat := (bitsAt (natAt b off 8) 48 12, bitsAt (natAt b off 8) 0 48)

def locOk (b : List Byte) (off : Nat) : Bool := bitsAt (natAt b off 8) 60 4 == 0

/-- COLL parameters (Table 11.4). -/
structure CollParams where
  op : Nat
  red : Nat
  sat : Bool
  ofmt : Fmt
  group : Nat
  m : Nat
  cid : Nat
  deriving DecidableEq, Repr

def CollParams.of (raw : List Byte) : CollParams :=
  { op := natAt raw 4 1 % 16, red := natAt raw 5 1 % 4, sat := bitAt (natAt raw 5 1) 2, ofmt := Fmt.ofCode (natAt raw 6 1 % 16),
    group := natAt raw 8 2, m := natAt raw 10 2, cid := natAt raw 12 4 }

/-- The fields in which members may not differ (R329). -/
def CollParams.form (c : CollParams) : CollForm := ⟨c.op, c.red, c.ofmt.code, c.m⟩

/-- Group size of a COLL stage; 0 for a group that the image does not have. -/
def Job.groupSize (j : Job) (group : Nat) : Nat := match j.members group with
  | some g => g.length
  | none => 0

/-- Blocks that a member contributes (Table 11.5); for an exchange the T of its record, `rows`. -/
def Job.collIn (j : Job) (c : CollParams) (rows : Nat) : Nat :=
  if c.op = 4 then rows else if c.op = 0 || c.op = 2 then c.m else j.groupSize c.group * c.m

/-- Blocks that a member receives as output (Table 11.5). -/
def Job.collOut (j : Job) (c : CollParams) : Nat := if c.op ≤ 1 then c.m else j.groupSize c.group * c.m

/-- The rows T of the exchange record that a COLL stage has read; 0 until then (Table 11.6). -/
def Stage.rows (st : Stage) : Nat := if st.phase < 2 then 0 else natAt st.record 8 4

/-- A COLL stage's collective has completed, and it writes its outputs through its output list (R329). -/
def Stage.outputs (st : Stage) : Bool := st.kind == .coll && st.phase == 4 && (CollParams.of st.raw).op != 4

/-- The list a stage works through: region, offset, length. -/
def TaskRun.list (r : TaskRun) (i : Nat) : Option (Nat × Nat × Nat) :=
  let st := r.stage i
  match st.kind with
  | .load | .store => let l := locOf st.raw 4; some (l.1, l.2, natAt st.raw 12 4)
  | .coll =>
    let c := CollParams.of st.raw
    if st.outputs then let l := locOf st.raw 24; some (l.1, l.2, r.s.job.collOut c)
    else if i ≠ 0 then none
    else let l := locOf st.raw 16; some (l.1, l.2, r.s.job.collIn c st.rows)
  | _ => none

/-- Does a stage read blocks from memory, or write them? -/
def Stage.reads (st : Stage) (i : Nat) : Bool := st.kind == .load || (st.kind == .coll && i == 0 && decide (st.phase < 4))
def Stage.writes (st : Stage) : Bool := st.kind == .store || st.outputs

/-! ### Command records (R208, Table 7.4) -/

def expandFmtOk (xmode : Nat) (f : Fmt) : Bool :=
  [Fmt.bf16, .fp16, .e4m3, .e5m2].contains f || (xmode = 1 && f == .int8)

def epilogueFmtOk (f : Fmt) : Bool :=
  f.isMx || [Fmt.fp32, .bf16, .fp16, .e4m3, .e5m2, .int8, .int32].contains f

/-- Rules about the parameters of stage `i` of `n`, with bit positions in the entry. -/
def stageChecks (v : VCore) (ranks : Nat) (i n : Nat) (k : StageKind) (e : List Byte) : List EncCheck :=
  let b (j : Nat) : Nat := natAt e j 1
  let zero (j m : Nat) : Bool := allZero (sub e j m)
  let last := i + 1 == n
  match k with
  | .load | .store =>
    [(locOk e 4, 92), (decide (1 ≤ natAt e 12 4) && decide (natAt e 12 4 ≤ 1048576), 96), (locOk e 16, 188), (zero 30 2, 240)]
  | .expand =>
    [(locOk e 4, 92), (b 12 % 4 == 1 || b 12 % 4 == 2, 96), (bitsAt (b 12) 4 2 != 3, 100), (bitsAt (b 12) 6 2 == 0, 102),
     (expandFmtOk (b 12 % 4) (Fmt.ofCode (b 13 % 16)), 104), (b 13 / 16 == 0, 108), (zero 14 18, 112)]
  | .epilogue =>
    [(epilogueFmtOk (Fmt.ofCode (b 24 % 16)), 192), (decide (bitsAt (b 24) 5 2 ≤ 1), 197), (!bitAt (b 24) 7, 199),
     (b 25 / 4 == 0, 202), (zero 26 6, 208)]
  | .feed => [((v.buffers[b 4 % 16]!).size != 0, 32), (b 4 / 16 == 0, 36), (zero 5 27, 40)]
  | .send =>
    [(decide (natAt e 4 2 < ranks), 32), (b 9 == 0, 72), (decide (natAt e 10 2 ≤ 4095), 80),
     (decide (1 ≤ natAt e 12 4) && decide (natAt e 12 4 ≤ 1048576), 96), (locOk e 16, 188), (zero 24 8, 192)]
  | .dispatch => [(zero 8 24, 64)]
  | .coll =>
    [(decide (b 4 % 16 ≤ 4), 32), (b 4 / 16 == 0, 36), (b 5 % 4 != 3, 40), (b 5 / 8 == 0, 43),
     (let f := Fmt.ofCode (b 6 % 16); f != .reserved && f != .pair, 48), (b 6 / 16 == 0, 52), (b 7 == 0, 56),
     (decide (natAt e 8 2 ≤ 1023), 64), (natAt e 10 2 != 0, 80), (i == 0 || zero 16 8, 128), (locOk e 16, 188),
     (last || zero 24 8, 192), (locOk e 24, 252)]

/-- May a kind stand at place `i` of `n` (Table 7.4)? -/
def StageKind.placeOk (k : StageKind) (i n : Nat) : Bool :=
  match k with
  | .load => i == 0
  | .coll => true
  | .feed | .send | .dispatch => i != 0 && i + 1 == n
  | _ => i != 0

/-- The lowest offending bit of a command record, in bit order. -/
def commandFault (v : VCore) (ranks : Nat) (csum : Bool) (raw : List Byte) : Option Nat :=
  let n := natAt raw 0 1 % 8
  let head : List EncCheck := [(decide (1 ≤ n) && decide (n ≤ 6), 0), (natAt raw 0 1 / 8 == 0, 3), (allZero (sub raw 1 15), 8)]
  let one (i : Nat) : List EncCheck :=
    let e := sub raw (16 + 32 * i) 32
    let at0 := 8 * (16 + 32 * i)
    let common : List EncCheck := [(natAt e 0 1 / 16 == 0, at0 + 4), (allZero (sub e 1 3), at0 + 8)]
    match StageKind.ofCode (natAt e 0 1 % 16) with
    | none => (false, at0) :: common
    | some k => ((k.placeOk i n, at0) :: common) ++ (stageChecks v ranks i n k e).map fun c => (c.1, at0 + c.2)
  let colls := (List.range n).filter fun i => natAt raw (16 + 32 * i) 1 % 16 == 8
  let sums : List EncCheck :=
    if !csum then []
    else match colls with
      | [] => [(false, 128)]
      | [i] => [(natAt raw (16 + 32 * i + 4) 1 % 16 == 0, 8 * (16 + 32 * i) + 32), (natAt raw (16 + 32 * i + 5) 1 % 4 == 0, 8 * (16 + 32 * i) + 40)]
      | _ :: j :: _ => [(false, 8 * (16 + 32 * j))]
  firstBad (if decide (1 ≤ n) && decide (n ≤ 6) then head ++ (List.range n).flatMap one ++ sums else head)

/-- The stages of a command record. -/
def stagesOf (raw : List Byte) : List Stage :=
  (List.range (natAt raw 0 1 % 8)).map fun i =>
    let e := sub raw (16 + 32 * i) 32
    { kind := (StageKind.ofCode (natAt e 0 1 % 16)).getD .load, raw := e, descs := [], dropped := 0, next := 0, off := 0,
      joined := [], reqs := [], xfers := [], record := [], phase := 0, got := [], inq := [], taken := 0, fin := 0, elems := 0, first := none, ended := i == 0 }

/-! ### The restartable rule (R219) -/

/-- Bytes of a region as (is tile, first, end). -/
abbrev Span := Bool × Nat × Nat

def Job.span (j : Job) (rid lo hi : Nat) : List Span := match j.region rid with
  | some r => [(r.kind == .tile, r.base + lo, r.base + hi)]
  | none => []

def Span.meets (a b : Span) : Bool := a.1 == b.1 && decide (a.2.1 < b.2.2) && decide (b.2.1 < a.2.2)

def RegionKind.translated (k : RegionKind) : Bool := k == .host || k == .scree

def Job.regionTranslated (j : Job) (rid : Nat) : Bool := match j.region rid with
  | some r => r.kind.translated
  | none => false

/-- The STORE envelopes of a command. -/
def Job.storeSpans (j : Job) (sts : List Stage) : List Span :=
  (sts.filter fun st => st.kind == .store).flatMap fun st => j.span (locOf st.raw 16).1 (locOf st.raw 16).2 (bitsAt (natAt st.raw 24 8) 0 48)

/-- Everything the task reads, lists included (R219). -/
def Job.inputSpans (j : Job) (sts : List Stage) : List Span :=
  sts.zipIdx.flatMap fun x =>
    let st := x.1
    let l := locOf st.raw 4
    match st.kind with
    | .load => j.span (locOf st.raw 16).1 (locOf st.raw 16).2 (bitsAt (natAt st.raw 24 8) 0 48)
        ++ j.span l.1 l.2 (l.2 + 64 * natAt st.raw 12 4)
    | .store => j.span l.1 l.2 (l.2 + 64 * natAt st.raw 12 4)
    | .expand => j.span l.1 l.2 (match j.region l.1 with
        | some r => r.size
        | none => 0)
    | .epilogue =>
      let at0 (o : Nat) : Span := (true, natAt st.raw o 4, natAt st.raw o 4 + 128)
      (if bitAt (natAt st.raw 25 1) 0 then [at0 16] else []) ++ (if bitAt (natAt st.raw 25 1) 1 then [at0 20] else [])
    | .coll =>
      let c := CollParams.of st.raw
      let i := locOf st.raw 16
      let o := locOf st.raw 24
      (if x.2 = 0 then j.span i.1 i.2 (i.2 + 64 * j.collIn c c.m) else [])
        ++ (if x.2 + 1 = sts.length && c.op ≠ 4 then j.span o.1 o.2 (o.2 + 64 * j.collOut c) else [])
    | _ => []

/-- A STORE envelope overlaps an input of the task. -/
def Job.overlapsInput (j : Job) (sts : List Stage) : Bool :=
  (j.storeSpans sts).any fun a => (j.inputSpans sts).any fun b => a.meets b

/-- A translated task that R219 rejects. -/
def Job.rejects (j : Job) (sts : List Stage) : Bool :=
  let env (st : Stage) : Nat := (locOf st.raw 16).1
  let mem := sts.filter fun st => st.kind == .load || st.kind == .store
  let spans := mem.any fun st => st.kind == .store && match j.region (env st) with
    | some r => decide (r.size < bitsAt (natAt st.raw 24 8) 0 48)
    | none => false
  mem.any (fun st => j.regionTranslated (env st)) &&
    (j.overlapsInput sts || spans || sts.any fun st => st.kind == .dispatch)

/-! ### Completion records (R215, Table 7.6) -/

/-- The 64 bytes of a completion record. A rejected task's cause byte is 0, like a complete one's (DESIGN CHOICE, log 70). -/
def Task.record (t : Task) (status : Nat) : List Byte :=
  let a := t.abort.getD ⟨0, 0, noDesc, 0, 0, 0, 0⟩
  bytesOf 4 (status + 256 * a.cause + 65536 * a.stage) ++ bytesOf 4 a.desc ++ bytesOf 8 a.blockId ++ bytesOf 4 a.expected.toNat
    ++ bytesOf 4 a.computed.toNat ++ bytesOf 4 t.delivered ++ bytesOf 4 t.step.toNat ++ bytesOf 4 t.merged ++ bytesOf 4 t.spilled
    ++ bytesOf 8 a.addr ++ bytesOf 8 (t.tok + 256 * t.tinc + 2 ^ 20 * t.strand + 2 ^ 27 * ofBool t.resubmitted)
    ++ bytesOf 4 t.cmd ++ zeros 4

/-- The record write covers whole words and always takes place (R215); it is the task's access (R211). -/
def State.writeRecord (s : State) (p : Fin 20) (t : Task) (status : Nat) : State :=
  let r := { s, p, t : TaskRun }.touch t.crec 64 true
  ({ r with s := r.s.modV p fun v => v.writeTile t.crec (t.record status) }.wrote t.crec 64).s

/-! ### Accesses of EXPAND, DISPATCH and an exchange (R212 to R214) -/

/-- Granule that a request does not cross (R212). -/
def RegionKind.granule (k : RegionKind) : Nat := if k = .host then 4096 else 65536

def Job.granule (j : Job) (rid : Nat) : Nat := match j.region rid with
  | some r => r.kind.granule
  | none => 65536

/-- An access cut into requests of at most 16 KiB within one granule of `gran` bytes, its region at `base` (R212): what it brings to the
descriptor cache goes with the first, the block it ends with the last. `fuel` bounds the requests. -/
def Xfer.cut (base : Int) (gran : Nat) : Nat → Xfer → List Xfer
  | 0, _ => []
  | fuel + 1, x =>
    let a := base + x.put.off
    let n := min (min x.len 16384) (((a / (gran : Int) + 1) * gran - a).toNat)
    if x.len ≤ n then [x]
    else { x with put := { x.put with bytes := x.put.bytes.take n }, len := n, twin := none }
      :: Xfer.cut base gran fuel { x with put := { x.put with off := x.put.off + n, bytes := x.put.bytes.drop n }, len := x.len - n, places := 0 }

/-- The requests of an access. -/
def State.cutXfer (s : State) (x : Xfer) : List Xfer :=
  let gran := s.job.granule x.put.region
  if x.len = 0 then [] else x.cut (s.placeOf x.put.region 0).2 gran (cdiv x.len 4096 + cdiv x.len 16384 + 2)

/-- The read of `n` bytes at a location, for a fault of which the record names descriptor `desc` and block `blockId`. -/
def State.readXfers (s : State) (desc blockId : Nat) (l : Nat × Nat) (n : Nat) : List Xfer :=
  s.cutXfer ⟨⟨desc, blockId, l.1, (l.2 : Int), []⟩, n, false, 0, none⟩

/-- The read of descriptors `0` to `n - 1` of a list, in runs of 64 (R214). -/
def State.listXfers (s : State) (l : Nat × Nat) (n : Nat) : List Xfer :=
  (List.range (cdiv n 64)).flatMap fun k =>
    let m := min 64 (n - 64 * k)
    s.cutXfer ⟨⟨64 * k, 0, l.1, ((l.2 + 4096 * k : Nat) : Int), []⟩, 64 * m, false, m, none⟩

/-- The writes of a plan. -/
def State.writeXfers (s : State) (ws : List (Put × Option TwinRec)) : List Xfer :=
  ws.flatMap fun w => s.cutXfer ⟨w.1, w.1.bytes.length, true, 0, w.2⟩

/-- A stage's next accesses. -/
def TaskRun.ask (r : TaskRun) (i phase : Nat) (xs : List Xfer) : TaskRun := r.modStage i fun st => { st with xfers := st.xfers ++ xs, phase }

/-- None of a stage's accesses of this kind is still to come or outstanding. -/
def Stage.quiet (st : Stage) : Bool := st.xfers.isEmpty && st.reqs.all fun q => q.xfer.isNone

/-- Descriptors held by all tasks of a core, those that are being read included (R214). -/
def Core.cached (c : Core) : Nat :=
  c.tasks.foldl (fun a t => t.stages.foldl (fun a st => a + st.descs.length + (st.reqs.filterMap (·.xfer)).foldl (fun b x => b + x.places) 0) a) 0

/-- A stage issues the next of its accesses, once fewer than 1,024 requests are outstanding and the descriptor cache has room for what it
brings (R213, R214). Each run of descriptors that comes from GDDR7 counts. -/
def TaskRun.issueXfer (r : TaskRun) (i : Nat) : TaskRun :=
  match (r.stage i).xfers with
  | [] => r
  | x :: xs =>
    if x.places ≠ 0 && decide (4096 < (r.done.core r.p).cached + x.places) then r
    else match r.s.job.checkRegion r.t.vcore x.put.region x.put.off x.len x.write with
      | .inr a => r.fail i x.put.desc x.put.blockId 2 a
      | .inl q =>
        let a := (q.base + x.put.off).toNat
        let r := r.modStage i fun st => { st with xfers := xs }
        let r := if x.places ≠ 0 && q.kind == .gddr then { r with s := r.s.modCore r.p fun c => { c with dfetchCnt := c.dfetchCnt + 1 } } else r
        r.send i { (default : Req) with desc := x.put.desc, last := x.put.desc, len := x.len, addr := a, tile := q.kind == .tile, write := x.write,
                                        xfer := some x } [(a, x.len)]

/-! ### EXPAND and EPILOGUE (R209, R64 to R67, R94, R95) -/

/-- Flags of the issuing virtual core (R68, R209). -/
def TaskRun.flags (r : TaskRun) (f : ArithFlags) : TaskRun := { r with s := r.s.modV r.p fun v => v.addFlags f }

/-- The expansion fields of an EXPAND entry. -/
def expandOp (raw : List Byte) : LoadOp :=
  let x := natAt raw 12 1
  { (default : LoadOp) with fmt := Fmt.ofCode (natAt raw 13 1 % 16), xmode := x % 4, xcode := bitAt x 2, xsigned := bitAt x 3, xgrp := bitsAt x 4 2 }

/-- One expanded block: dimension 0 counts K and the other dimensions count columns (DEDUCED, log 21). -/
def expandBlock (o : LoadOp) (ftz : Bool) (side : List Byte) (b : Block) : Block × ArithFlags :=
  let f : Fmt := if o.xcode then .int8 else .int4
  let n := b.data.length * 8 / f.bits
  let kg := cdiv b.ext0 o.group
  let rs := (f.unpack n b.data).zipIdx.map fun c =>
    o.expand ftz (sub side ((c.2 / b.ext0 * kg + c.2 % b.ext0 / o.group) * o.paramLen) o.paramLen) c.1
  let data := o.fmt.pack (rs.map (·.1))
  ({ b with fmt := o.fmt, data, chk := crc32c data }, rs.foldl (fun a x => a.or x.2) .none)

/-- EXPAND takes its oldest block, once it has read the block's part of the side tensor. -/
def TaskRun.expandOne (r : TaskRun) (i : Nat) (b : Block) : TaskRun :=
  let st := r.stage i
  let o := expandOp st.raw
  if b.fmt ≠ (if o.xcode then .int8 else .int4) then r.fail i st.taken b.id 3
  else
    let need := b.data.length * 8 / b.fmt.bits / b.ext0 * cdiv b.ext0 o.group * o.paramLen
    if st.phase = 0 && need ≠ 0 then r.ask i 1 (r.s.readXfers st.taken b.id (locOf st.raw 4) need)
    else if !st.quiet then r
    else
      let (out, fl) := expandBlock o r.s.job.ftz st.record b
      ((r.flags fl).modStage i fun st =>
        { st with inq := st.inq.drop 1, taken := st.taken + 1, fin := st.fin + 1, phase := 0, record := [] }).push i out

/-- A stage reads bytes at a tile address of its own, as it works: the bytes, or the fault (R209, R182, R286). It does so at once, while
requests may be issued (DESIGN CHOICE, log 66). -/
def TaskRun.getTile (r : TaskRun) (a n : Nat) : TaskRun × MemRes :=
  match (r.s.core r.p).v.bind fun v => v.regionFault a n .read with
  | some x => (r, .bad 2 (infoAddr x))
  | none =>
    let r := r.touch a n false
    match (r.s.core r.p).v with
    | none => (r, .ok [])
    | some v => match badWord v.tileBad a n with
      | some w => ({ r with s := r.s.chargeTile r.p }, .bad 4 w)
      | none => (r, .ok (v.readTile a n))

/-- 32 FP32 values that an EPILOGUE entry asks for, or not. -/
def TaskRun.getVec (r : TaskRun) (on : Bool) (a : Nat) : TaskRun × MemRes := if on then r.getTile a 128 else (r, .ok [])

/-- One block through the epilogue: the block, its flags, or none where an MX target gets no whole blocks of 32. -/
def epilogueBlock (raw : List Byte) (ftz : Bool) (seed step elems : Nat) (sc bi : List Byte) (b : Block) :
    Option (Block × ArithFlags) :=
  let tf := Fmt.ofCode (natAt raw 24 1 % 16)
  let sat := bitAt (natAt raw 24 1) 4
  let stoch := bitsAt (natAt raw 24 1) 5 2 == 1
  let bits := b.fmt.unpack (b.data.length * 8 / b.fmt.bits) b.data
  let pick (on : Bool) (vec : List Byte) (j : Nat) : Option Nat := if on then some (natAt vec (4 * (j % b.ext0 % 32)) 4) else none
  let vals := bits.zipIdx.map fun x =>
    drainExact ftz (b.fmt.iflush ftz (b.fmt.value true x.1)) (pick (bitAt (natAt raw 25 1) 0) sc x.2) (pick (bitAt (natAt raw 25 1) 1) bi x.2)
  let mode (j : Nat) : Rmode := if stoch then .stoch (stochR seed (natAt raw 8 8 + elems + j) step (natAt raw 4 4)) else .rne
  let fl := vals.foldl (fun a v => a.or v.2) .none
  if tf.isMx then
    if vals.length % 32 ≠ 0 then none
    else
      let groups := (chunks 32 vals.zipIdx).map fun g =>
        let sc := mxScale tf (g.map (·.1.1))
        (sc, g.map fun x => mxElem tf (mode x.2) sc x.1.1)
      let data := tf.pack (groups.flatMap (·.2)) ++ groups.map fun g => BitVec.ofNat 8 g.1
      some ({ b with fmt := tf, data, chk := crc32c data }, fl)
  else
    let rs := vals.zipIdx.map fun x => convert tf true (mode x.2) sat ftz x.1.1
    let data := tf.pack (rs.map (·.1))
    some ({ b with fmt := tf, data, chk := crc32c data }, rs.foldl (fun a x => a.or x.2) fl)

/-- EPILOGUE takes its oldest block. Elements that do not fill whole blocks of 32 for an MX target abort the task with cause 0x03 (DESIGN
CHOICE, log 70). -/
def TaskRun.epilogueOne (r : TaskRun) (i : Nat) (b : Block) : TaskRun :=
  let st := r.stage i
  let idx := st.taken
  if !r.room then r
  else if !([Fmt.fp32, .bf16, .fp16, .int32].contains b.fmt) then r.fail i idx b.id 3
  else match r.getVec (bitAt (natAt st.raw 25 1) 0) (natAt st.raw 16 4) with
    | (r, .ok sc) => match r.getVec (bitAt (natAt st.raw 25 1) 1) (natAt st.raw 20 4) with
      | (r, .ok bi) => match epilogueBlock st.raw r.s.job.ftz r.s.job.seed r.t.step.toNat st.elems sc bi b with
        | none => r.fail i idx b.id 3
        | some (out, fl) =>
          ((r.flags fl).modStage i fun st =>
            { st with inq := st.inq.drop 1, taken := st.taken + 1, fin := st.fin + 1, elems := st.elems + b.data.length * 8 / b.fmt.bits }).push i out
      | (r, .bad c a) => r.fail i idx b.id c a
      | (r, .wait _) => r
    | (r, .bad c a) => r.fail i idx b.id c a
    | (r, .wait _) => r

/-! ### FEED (R210) -/

/-- FEED writes as much of its oldest block as its buffer has room for; `off` counts bytes of it written. -/
def TaskRun.feedOne (r : TaskRun) (i : Nat) (b : Block) : TaskRun :=
  let st := r.stage i
  let buf := natAt st.raw 4 1 % 16
  match (r.s.core r.p).v with
  | none => r
  | some v =>
    let q := v.buffers[buf]!
    if q.size = 0 || !r.room then r
    else
      let n := min (q.size - q.avail) (b.data.length - st.off)
      let at0 := q.wr % q.size
      let bs := sub b.data st.off n
      let n1 := min n (q.size - at0)
      match (badPart v.tileBad (q.base + at0) n1).or (badPart v.tileBad q.base (n - n1)) with
      | some w => { r with s := r.s.chargeTile r.p }.fail i st.taken b.id 4 w
      | none =>
      let r := r.touch (q.base + at0) n1 true
      let r := if n1 < n then r.touch q.base (n - n1) true else r
      let r := { r with s := r.s.modV r.p fun v =>
        let v := (v.writeTile (q.base + at0) (bs.take n1)).writeTile q.base (bs.drop n1)
        { v with buffers := v.buffers.set! buf { q with wr := q.wr + n } } }
      if st.off + n < b.data.length then r.modStage i fun st => { st with off := st.off + n }
      else (r.modStage i fun st => { st with inq := st.inq.drop 1, taken := st.taken + 1, fin := st.fin + 1, off := 0 }).push i b

/-! ### SEND (R325, R327) -/

/-- The operation a stage sends, for one destination. -/
def State.txOf (s : State) (p : Fin 20) (task stage : Nat) : Option TxOp :=
  s.fab.tx.find? fun o => o.core == p.val && o.task == task && o.stage == stage

def State.modTx (s : State) (opId : Nat) (f : TxOp → TxOp) : State :=
  { s with fab := { s.fab with tx := s.fab.tx.map fun o => if o.opId = opId then f o else o } }

/-- Start an operation of a stage to one device with the next operation ID. -/
def TaskRun.newTx (r : TaskRun) (stage dest : Nat) (params : List Byte) (opened : Bool) (target : BlockTarget) (node : Nat) : Nat × TaskRun :=
  let s := r.s
  let op := s.job.nextOp
  let o : TxOp := { opId := op, core := r.p.val, task := r.t.id, stage, dest, params, opened, no := r.t.reqNo, target, blocks := [], openResends := 0, node }
  (op, { r with s := { s with job := { s.job with nextOp := op + 1 }, fab := { s.fab with tx := s.fab.tx ++ [o] } }
                t := { r.t with reqNo := r.t.reqNo + 1 } })

/-- An operation waits no longer for the acknowledge of a block. -/
def TxOp.drop (o : TxOp) (index : Nat) : TxOp :=
  { o with blocks := o.blocks.map fun b => if b.index = index then { b with sent := false } else b }

/-- A block of an operation still awaits its acknowledge. -/
def TxOp.awaits (o : TxOp) : Bool := o.blocks.any fun b => b.sent && !b.acked

/-- Hand a block to an operation and send it; false when the destination is unreachable. -/
def TaskRun.txSend (r : TaskRun) (opId dest index node : Nat) (v3 : Bool) (b : Block) : TaskRun × Bool :=
  let s := r.s.modTx opId fun o => { o with blocks := o.blocks ++ [⟨index, r.t.reqNo, b, true, false, 0⟩] }
  let r := { r with t := { r.t with reqNo := r.t.reqNo + 1 } }
  match s.sendBlock dest opId index node v3 b with
  | some s => ({ r with s }, true)
  | none => ({ r with s := s.modTx opId fun o => o.drop index }, false)

/-- SEND sends its open first (R327). In a replay job, which reads no fabric port (R282), it sends nothing. -/
def TaskRun.sendStart (r : TaskRun) (i : Nat) : TaskRun :=
  let st := r.stage i
  if r.s.job.replay then r
  else match r.s.txOf r.p r.t.id i with
  | some _ => r
  | none =>
    let dest := r.s.job.addrOf (natAt st.raw 4 2)
    let (op, r) := r.newTx i dest (sub st.raw 4 28) false .send 0
    match r.s.sendOpen dest op false (sub st.raw 4 28) with
    | some s => { r with s }
    | none => r.fail i noDesc 0 7

/-- SEND sends its oldest block once the open is acknowledged; a block beyond the list aborts before it is sent. In a replay job a block
counts as delivered without being sent (DESIGN CHOICE, log 24). -/
def TaskRun.sendOne (r : TaskRun) (i : Nat) (b : Block) : TaskRun :=
  let st := r.stage i
  if r.s.job.replay then
    if natAt st.raw 12 4 ≤ st.taken then r.fail i st.taken b.id 3
    else (r.modStage i fun st => { st with inq := st.inq.drop 1, taken := st.taken + 1 }).push i b
  else match r.s.txOf r.p r.t.id i with
  | none => r
  | some o =>
    if !o.opened then r
    else if natAt st.raw 12 4 ≤ st.taken then r.fail i st.taken b.id 3
    else
      let (r, ok) := r.txSend o.opId o.dest st.taken 0 false b
      let r := r.modStage i fun st => { st with inq := st.inq.drop 1, taken := st.taken + 1 }
      if ok then r else r.fail i st.taken b.id 7

/-! ### DISPATCH (R225 to R227) -/

/-- The dispatch record (Table 7.9). -/
structure DispatchRec where
  routing : Nat × Nat
  t : Nat
  e : Nat
  k : Nat
  c : Nat
  experts : Nat × Nat
  overflow : Nat × Nat
  counts : Nat × Nat
  index : Nat × Nat
  deriving DecidableEq, Repr

def DispatchRec.parse (b : List Byte) : Option DispatchRec :=
  let d : DispatchRec :=
    { routing := locOf b 0, t := natAt b 8 4, e := natAt b 12 2, k := natAt b 14 1, c := natAt b 16 4, experts := locOf b 20,
      overflow := locOf b 28, counts := locOf b 40, index := locOf b 48 }
  if locOk b 0 && locOk b 20 && locOk b 28 && locOk b 40 && locOk b 48 && natAt b 15 1 == 0 && allZero (sub b 36 4)
      && allZero (sub b 56 8) && decide (1 ≤ d.t) && decide (d.t ≤ 1048576) && decide (1 ≤ d.e) && decide (d.e ≤ 4096)
      && decide (1 ≤ d.k) && decide (d.k ≤ 8) && decide (d.c ≤ 1048575) then some d else none

/-- Insert by an ascending key. -/
def insertKey (x : List Nat) : List (List Nat) → List (List Nat)
  | [] => [x]
  | y :: ys => if x < y then x :: y :: ys else y :: insertKey x ys

/-- Keys in ascending order (R226, R334). -/
def sortKeys (xs : List (List Nat)) : List (List Nat) := xs.foldr insertKey []

/-- The placement of R226: rows of each expert in key order, spilled rows in key order. Rows are (e, t, j). -/
def placeRows (e c : Nat) (keys : List (List Nat)) : List (List (List Nat)) × List (List Nat) :=
  let per := (List.range e).map fun x => keys.filter fun k => k.headD 0 == x
  (per.map (·.take c), per.flatMap (·.drop c))

/-- What a stage that places rows does with them: an abort, or its writes with the twin record of the block that each ends, and the rows
delivered and spilled. -/
inductive Placed where
  | fail (desc cause addr : Nat) (expected computed : Word)
  | go (writes : List (Put × Option TwinRec)) (delivered spilled : Nat)

/-- Write in order; the first fault ends it. `done`: the request was translated when it was issued (R304). -/
def TaskRun.writeAll (r : TaskRun) (i : Nat) (done : Bool) : List Put → TaskRun
  | [] => r
  | w :: ws =>
    match r.put w.region w.off w.bytes done with
    | (r, .ok _) =>
      let q := r.s.placeOf w.region w.off
      TaskRun.writeAll { r with s := if q.1 then r.s else r.s.lateWrite r.t.step.toNat q.2.toNat } i done ws
    | (r, .bad c a) => r.fail i w.desc w.blockId c a
    | (r, .wait g) => r.fail i w.desc w.blockId 2 g

/-- Payload bytes laid over runs of a region. -/
def splitRuns (desc blockId region : Nat) : List (Int × Nat) → List Byte → List Put
  | [], _ => []
  | x :: xs, bs => ⟨desc, blockId, region, x.1, bs.take x.2⟩ :: splitRuns desc blockId region xs (bs.drop x.2)

/-- The check value that a descriptor's list gets (R207). -/
def chkPut (desc blockId : Nat) (list : Nat × Nat) (c : Word) : Put := ⟨desc, blockId, list.1, ((list.2 + 40 : Nat) : Int), bytesOf 4 c.toNat⟩

/-- The writes of a block through descriptor `k` at a list place: its runs, then the check value when `gen` or always for `force`
(R207). -/
def Desc.writes (d : Desc) (k blockId : Nat) (list : Nat × Nat) (data : List Byte) (force : Bool) : List Put :=
  splitRuns k blockId d.region d.runs data ++ (if d.gen || force then [chkPut k blockId list (crc32c data)] else [])

/-- The first untranslated-only location that lies in a translated region: its region's base (R227, R329). -/
def Job.mustBeLocal (j : Job) (ids : List Nat) : Option Nat := ids.findSome? fun id => match j.region id with
  | some r => if r.kind.translated then some r.base else none
  | none => none

/-- A destination of the writes that the guard holds (R221), check values included. -/
def State.guardedWrite (s : State) (tag : Nat) (ws : List Put) : Option Nat :=
  ws.findSome? fun w =>
    let q := s.placeOf w.region w.off
    if q.1 then none else s.guardHeld tag q.2.toNat w.bytes.length

/-- What DISPATCH does with all its rows (R225, R226), from the bytes it has read: the record, the routing tensor, the overflow descriptor and
the experts'. A destination in a translated region, which R227 excludes without a cause, aborts the task with cause 0x02 (DESIGN CHOICE,
log 70). -/
def TaskRun.dispatchPlan (r : TaskRun) (i : Nat) (d : DispatchRec) (read : List Byte) (rows : List Block) : Placed :=
  let s := r.s
  let bad (desc cause addr : Nat) : Placed := .fail desc cause addr 0 0
  let ids := (List.range (d.t * d.k)).map fun x => signedOf 32 (natAt read (64 + 4 * x) 4)
  let raws := chunks 64 (read.drop (64 + 4 * d.t * d.k))
  let experts := (raws.drop 1).map Desc.parse
  if ids.any fun x => decide (x < -1) || decide ((d.e : Int) ≤ x) then bad noDesc 9 0
  else match s.job.mustBeLocal ([d.overflow.1, d.counts.1, d.index.1] ++ if d.c = 0 then [] else [d.experts.1]) with
    | some b => bad noDesc 2 b
    | none => match experts.findIdx? Option.isNone, Desc.parse (raws.headD []) with
      | some k, _ => bad k 3 0
      | _, none => bad d.e 3 0
      | none, some od =>
        let ex := experts.filterMap id
        let len := od.fmt.packedLen (od.e 0)
        let q := od.e 1
        let exOk (x : Desc) : Bool := x.fmt.packedLen (x.e 0) == len && x.e 1 == d.c && x.e 2 == 1 && x.e 3 == 1
        if od.e 2 ≠ 1 || od.e 3 ≠ 1 || !ex.all exOk then bad noDesc 3 0
        else match s.job.mustBeLocal (od.region :: ex.map (·.region)) with
          | some b => bad noDesc 2 b
          | none =>
            match rows.findIdx? fun b => b.data.length != len with
            | some t => bad t 3 0
            | none =>
              let keys := sortKeys ((ids.zipIdx.filter fun x => decide (0 ≤ x.1)).map fun x => [x.1.toNat, x.2 / d.k, x.2 % d.k])
              let (placed, spill) := placeRows d.e d.c keys
              if q < spill.length then bad noDesc 8 0
              else
                let row (k : List Nat) : List Byte := (rows.getD (k.getD 1 0) default).data
                let fill (ks : List (List Nat)) (n : Nat) : List Byte := ks.flatMap row ++ zeros (len * (n - ks.length))
                let entry (k : List Nat) : List Byte := bytesOf 4 (k.getD 1 0 * 8 + k.getD 2 0)
                let bufs := ex.zipIdx.map fun x => (x.1, x.2, fill (placed.getD x.2 []) d.c)
                let od' := fill spill q
                let plain (l : Nat × Nat) (at_ : Nat) (bs : List Byte) : Put × Option TwinRec := (⟨noDesc, 0, l.1, ((l.2 + at_ : Nat) : Int), bs⟩, none)
                let twin (dd : Desc) (n : Nat) (data : List Byte) : Option TwinRec :=
                  if r.t.opcode ≠ 0x201 && s.job.twinRegion dd.region then
                    some ⟨r.t.step, r.t.vcore, r.t.strand, r.t.taskNo, i, n, dd.id, crc32c data⟩ else none
                let block (dd : Desc) (n : Nat) (list : Nat × Nat) (data : List Byte) : List (Put × Option TwinRec) :=
                  let ws := dd.writes n dd.id list data true
                  ws.zipIdx.map fun w => (w.1, if w.2 + 1 = ws.length then twin dd n data else none)
                if bufs.any (fun b => b.1.len != b.2.2.length) || od.len != od'.length then bad noDesc 3 0
                else
                  .go (bufs.flatMap (fun b => block b.1 b.2.1 (d.experts.1, d.experts.2 + 64 * b.2.1) b.2.2)
                    ++ block od d.e d.overflow od'
                    ++ (placed.zipIdx.flatMap fun e => e.1.zipIdx.map fun k => plain d.index (4 * (e.2 * d.c + k.2)) (entry k.1))
                    ++ (spill.zipIdx.map fun k => plain d.index (4 * (d.e * d.c + k.2)) (entry k.1))
                    ++ [plain d.counts 0 (placed.flatMap (fun x => bytesOf 4 x.length)
                          ++ (List.range d.e).flatMap fun e => bytesOf 4 (spill.filter fun k => k.headD 0 == e).length)]) keys.length spill.length

/-- DISPATCH reads its record when it starts. -/
def TaskRun.dispatchHead (r : TaskRun) (i : Nat) : TaskRun :=
  match r.getTile (natAt (r.stage i).raw 4 4) 64 with
  | (r, .ok bs) => if (DispatchRec.parse bs).isNone then r.fail i noDesc 0 3 else r.modStage i fun st => { st with record := bs, phase := 1 }
  | (r, .bad c a) => r.fail i noDesc 0 c a
  | (r, .wait _) => r

/-- DISPATCH works once its predecessor has ended, or a block T has arrived (R225); its rows are checked first (R204). It reads its
operands, then writes its outputs (R226). -/
def TaskRun.dispatchStep (r : TaskRun) (i : Nat) : TaskRun :=
  let r := if (r.stage i).phase = 0 then (if r.room then r.dispatchHead i else r) else r
  let st := r.stage i
  match DispatchRec.parse (st.record.take 64) with
  | none => r
  | some d =>
    let plan (_ : Unit) : Placed := r.dispatchPlan i d st.record st.inq
    if r.t.abort.isSome || !st.quiet then r
    else match st.phase with
      | 1 =>
        if d.t < st.inq.length then r.fail i d.t ((st.inq.getD d.t default).id) 3
        else if !st.ended then r
        else if st.inq.length < d.t then r.fail i noDesc 0 3
        else match st.inq.findIdx? fun b => !b.sound with
          | some t => r.fail i t (st.inq.getD t default).id 1 0 (st.inq.getD t default).chk (crc32c (st.inq.getD t default).data)
          | none => r.ask i 2 (r.s.readXfers noDesc 0 d.routing (4 * d.t * d.k) ++ r.s.listXfers d.overflow 1
              ++ if d.c = 0 then [] else r.s.listXfers d.experts d.e)
      | 2 => match plan () with
        | .fail k c x e g => r.fail i k (if k = noDesc then 0 else (st.inq.getD k default).id) c x e g
        | .go ws _ _ => r.ask i 3 (r.s.writeXfers ws)
      | 3 => match plan () with
        | .fail _ _ _ _ _ => r
        | .go _ n spilled => { r with t := { r.t with delivered := n, spilled } }.modStage i fun st => { st with phase := 4, inq := [] }
      | _ => r

/-! ### COLL: a member's own side (R329, R330, R334) -/

/-- The exchange record (Table 11.6). -/
structure ExchangeRec where
  dest : Nat × Nat
  t : Nat
  k : Nat
  cap : Nat
  area : Nat × Nat
  counts : Nat × Nat
  index : Nat × Nat
  deriving DecidableEq, Repr

def ExchangeRec.parse (b : List Byte) : Option ExchangeRec :=
  let d : ExchangeRec :=
    { dest := locOf b 0, t := natAt b 8 4, k := natAt b 12 1, cap := natAt b 16 4, area := locOf b 20, counts := locOf b 28,
      index := locOf b 36 }
  if locOk b 0 && locOk b 20 && locOk b 28 && locOk b 36 && allZero (sub b 13 3) && allZero (sub b 44 4) && decide (1 ≤ d.t)
      && decide (d.t ≤ 1048576) && decide (1 ≤ d.k) && decide (d.k ≤ 8) && decide (d.cap ≤ 1048575) then some d else none

/-- The exchange record that a stage has read and its destination positions. -/
def Stage.exchange (st : Stage) : Option (ExchangeRec × List Int) :=
  (ExchangeRec.parse (st.record.take 48)).map fun d => (d, (List.range (d.t * d.k)).map fun x => signedOf 32 (natAt st.record (48 + 4 * x) 4))

/-- An exchange reads its record, then the destination tensor and the receive descriptor (R334); any other COLL reads neither. Phase 3: the
stage is ready. -/
def TaskRun.collRecord (r : TaskRun) (i : Nat) : TaskRun :=
  let st := r.stage i
  let c := CollParams.of st.raw
  let ready (r : TaskRun) : TaskRun := r.modStage i fun st => { st with phase := 3 }
  if 3 ≤ st.phase || !st.quiet then r
  else if c.op ≠ 4 then ready r
  else if st.phase = 0 then r.ask i 1 (r.s.readXfers noDesc 0 (locOf st.raw 24) 48)
  else match st.exchange with
    | none => r.fail i noDesc 0 3
    | some (d, ps) =>
      if st.phase = 1 then r.ask i 2 (r.s.readXfers noDesc 0 d.dest (4 * d.t * d.k) ++ if d.cap = 0 then [] else r.s.listXfers d.area 1)
      else if ps.any fun x => decide (x < -1) || decide ((r.s.job.groupSize c.group : Int) ≤ x) then r.fail i noDesc 0 9
      else ready r

def State.coll (s : State) (group step cid : Nat) : Option Coll :=
  s.fab.colls.find? fun c => c.group == group && c.step.toNat == step && c.cid == cid

def State.modColl (s : State) (group step cid : Nat) (f : Coll → Coll) : State :=
  { s with fab := { s.fab with colls := s.fab.colls.map fun c =>
      if c.group = group && c.step.toNat = step && c.cid = cid then f c else c } }

def State.dropColl (s : State) (group step cid : Nat) : State :=
  { s with fab := { s.fab with colls := s.fab.colls.filter fun c =>
      !(c.group = group && c.step.toNat = step && c.cid = cid) } }

/-- Collectives that stages of this device hold open (R329). -/
def Fabric.openColls (f : Fabric) : Nat := (f.colls.filter fun c => c.core.isSome).length

/-- The rank's position in a group. -/
def Job.position (j : Job) (group : Nat) : Option Nat := (j.members group).bind fun g => g.findIdx? (· == j.rank)

/-- The operations to the other members, with the opens of an exchange. -/
def TaskRun.collOpens (r : TaskRun) (i : Nat) (c : CollParams) (g : List Nat) (pos : Nat) : TaskRun :=
  let target : BlockTarget := .coll c.group c.cid pos c.form
  let others := (g.zipIdx.filter fun x => x.2 != pos).map fun x => (r.s.job.addrOf x.1, x.2)
  if r.s.job.replay then r
  else if c.op ≠ 4 then
    others.foldl (fun r x => (r.newTx i x.1 [] true target (if c.op ≤ 1 then pos else 0)).2) r
  else
    let ps := ((r.stage i).exchange.map (·.2)).getD []
    others.foldl (fun r x =>
      if r.t.abort.isSome then r
      else
        let n := (ps.filter fun q => q == (x.2 : Int)).length
        let params := bytesOf 4 n ++ bytesOf 4 r.t.step.toNat
        let (op, r) := r.newTx i x.1 params false target 0
        match r.s.sendOpen x.1 op true params with
        | some s => { r with s }
        | none => r.fail i noDesc 0 7) r

/-- A COLL stage opens its key; an exchange announces its rows to every other member (R329, R334). A block or open that shows another form
of the collective aborts the task (R329). A replay job sends nothing (R282). -/
def TaskRun.collStart (r : TaskRun) (i : Nat) : TaskRun :=
  let raw := (r.stage i).raw
  let c := CollParams.of raw
  match r.s.job.members c.group, r.s.job.position c.group with
  | some g, some pos =>
    match r.s.coll c.group r.t.step.toNat c.cid with
    | some o =>
      if o.core = some r.p.val && o.task = r.t.id && o.stage = i then r
      else if o.core.isSome then r.fail i noDesc 0 3
      else if 256 ≤ r.s.fab.openColls then r
      else if o.forms.any (· != c.form) then r.fail i noDesc 0 3
      else
        let s := r.s.modColl c.group r.t.step.toNat c.cid fun o =>
          { o with core := some r.p.val, task := r.t.id, stage := i, params := raw, arrival := r.t.arrival, no := r.t.reqNo }
        { r with s, t := { r.t with reqNo := r.t.reqNo + 1 } }.collOpens i c g pos
    | none =>
      if 256 ≤ r.s.fab.openColls then r
      else
        let o : Coll := { group := c.group, step := r.t.step, cid := c.cid, core := some r.p.val, task := r.t.id, stage := i, params := raw,
                          forms := [], arrival := r.t.arrival, contribs := [], opens := [], ownDone := false, delivered := 0, no := r.t.reqNo }
        { r with s := { r.s with fab := { r.s.fab with colls := r.s.fab.colls ++ [o] } }, t := { r.t with reqNo := r.t.reqNo + 1 } }.collOpens i c g pos
  | _, _ => r.fail i noDesc 0 3

/-- The collective of a stage is open for it. -/
def TaskRun.collMine (r : TaskRun) (i : Nat) : Bool :=
  let c := CollParams.of (r.stage i).raw
  match r.s.coll c.group r.t.step.toNat c.cid with
  | some o => o.core == some r.p.val && o.task == r.t.id && o.stage == i
  | none => false

/-- Does an input format allow the out format (R330)? -/
def CollParams.fmtOk (c : CollParams) (f : Fmt) : Bool :=
  if c.op ≤ 1 then
    if f = .int32 then c.ofmt == .int32 else [Fmt.fp32, .bf16, .fp16].contains f && [Fmt.fp32, .bf16, .fp16].contains c.ofmt
  else c.ofmt == f

/-- The key of a contributed block in Table 9.5's form (R281, R282). -/
def TaskRun.collKey (r : TaskRun) (i index : Nat) (b : Block) : TwinRec :=
  ⟨r.t.step, r.t.vcore, r.t.strand, r.t.taskNo, i, index, b.id, b.chk⟩

/-- A replay job compares a contributed block with the capture (R282); one that a captured step does not hold differs from it. -/
def TaskRun.replayCheck (r : TaskRun) (key : TwinRec) : TaskRun :=
  let (s, step) := r.s.captured key.step.toNat
  let differs (chk : Nat) : TaskRun := { r with s := s.postDivergence key.bytes chk false false }
  match step.find? fun e => !e.received && e.key.same key with
  | some e => if e.key.chk = key.chk then { r with s } else differs e.key.chk.toNat
  | none => if step.isEmpty then { r with s } else differs 0

/-- COLL takes its oldest block: checked against R329 and R330, contributed here and sent to the members that need it. -/
def TaskRun.collOne (r : TaskRun) (i : Nat) (b : Block) : TaskRun :=
  let st := r.stage i
  let c := CollParams.of st.raw
  let idx := st.taken
  let n := r.s.job.collIn c st.rows
  let pos := (r.s.job.position c.group).getD 0
  let (first, len0) := st.first.getD (b.fmt, b.data.length)
  if n ≤ idx || b.fmt ≠ first || !c.fmtOk b.fmt || (c.op = 4 && b.data.length ≠ len0) then r.fail i idx b.id 3
  else
    let key := r.collKey i idx b
    let r := if r.s.job.replay then r.replayCheck key else { r with s := r.s.captureBlock key false b.header [] }
    let add (r : TaskRun) (position index : Nat) : TaskRun :=
      { r with s := r.s.modColl c.group r.t.step.toNat c.cid fun o => { o with contribs := o.contribs ++ [⟨position, index, b, .none⟩] } }
    let step (r : TaskRun) : TaskRun := r.modStage i fun st => { st with inq := st.inq.drop 1, taken := st.taken + 1, first := some (first, len0) }
    let toMember (r : TaskRun) (q index : Nat) : TaskRun :=
      if r.s.job.replay || r.t.abort.isSome then r
      else
        let dest := r.s.job.addrOf (((r.s.job.members c.group).getD []).getD q 0)
        match r.s.fab.tx.find? fun x => x.core == r.p.val && x.task == r.t.id && x.stage == i && x.dest == dest with
        | none => r
        | some x =>
          let (r, ok) := r.txSend x.opId dest index x.node true b
          if ok then r else r.fail i idx b.id 7
    let all := List.range (r.s.job.groupSize c.group)
    if c.op = 4 then
      match st.exchange with
      | none => r
      | some (d, ps) =>
        let js := (List.range d.k).map fun j => (ps.getD (idx * d.k + j) (-1), idx * 8 + j)
        -- the block itself stands under its own index for the format rule; placed rows under t * 8 + j
        let r := js.foldl (fun r x => if x.1 < 0 then r else if x.1.toNat = pos then add r pos x.2 else toMember r x.1.toNat x.2) r
        step r
    else
      let r := add r pos idx
      let needs (q : Nat) : Bool := q != pos && (c.op == 0 || c.op == 2 || idx / c.m == q)
      step ((all.filter needs).foldl (fun r q => toMember r q idx) r)

/-- The input of a COLL stage has ended (a first stage's own list has been read): its count is checked and its contribution is
complete (R329). -/
def TaskRun.collEnd (r : TaskRun) (i : Nat) : TaskRun :=
  let st := r.stage i
  let c := CollParams.of st.raw
  let n := r.s.job.collIn c st.rows
  if !st.ended || !st.inq.isEmpty || !st.reqs.isEmpty || (i = 0 && st.dropped < n) then r
  else if st.taken < n then r.fail i noDesc 0 3
  else { r with s := r.s.modColl c.group r.t.step.toNat c.cid fun o => { o with ownDone := true } }

/-! ### The chain (R209) -/

/-- Take every block that has reached a stage that works on blocks as they come. -/
def TaskRun.drain (one : TaskRun → Nat → Block → TaskRun) (i : Nat) : Nat → TaskRun → TaskRun
  | 0, r => r
  | n + 1, r =>
    if r.t.abort.isSome then r
    else match (r.stage i).inq with
      | [] => r
      | b :: rest =>
        if !b.sound then r.fail i (r.stage i).taken b.id 1 0 b.chk (crc32c b.data)
        else
        let r' := one r i b
        if (r'.stage i).inq.length ≤ rest.length then TaskRun.drain one i n r' else r'

/-- A COLL stage whose collective has completed has written its outputs (R329, R334). -/
def TaskRun.collOutput (r : TaskRun) (i : Nat) : TaskRun :=
  let st := r.stage i
  let done (r : TaskRun) : TaskRun := (r.modStage i fun st => { st with phase := 5 }).endStage i
  if st.outputs then (if st.fin = r.s.job.collOut (CollParams.of st.raw) then done r else r)
  else if st.quiet then done { r with t := { r.t with delivered := st.fin } }
  else r

/-- Everything a stage can do now without a memory request of its own, and whether it has ended. -/
def TaskRun.work (r : TaskRun) (i : Nat) : TaskRun :=
  let st := r.stage i
  let n := st.inq.length
  let closing (r : TaskRun) : TaskRun :=
    let st := r.stage i
    if r.t.abort.isNone && st.ended && st.inq.isEmpty && st.reqs.isEmpty then r.endStage i else r
  match st.kind with
  | .load => match r.list i with
    | some l => if st.fin = l.2.2 then r.endStage i else r
    | none => r
  | .expand => closing (r.drain expandOne i n)
  | .epilogue => closing (r.drain epilogueOne i n)
  | .feed => closing (r.drain feedOne i n)
  | .store =>
    let len := natAt st.raw 12 4
    if st.fin = len && !st.inq.isEmpty then r.fail i len ((st.inq.getD 0 default).id) 3
    else if st.ended && st.inq.isEmpty && st.reqs.isEmpty then
      if st.fin < len then r.fail i noDesc 0 3 else r.endStage i
    else r
  | .send =>
    let r := (r.sendStart i).drain sendOne i n
    let st := r.stage i
    if r.t.abort.isNone && st.ended && st.inq.isEmpty && st.taken < natAt st.raw 12 4 && (match r.s.txOf r.p r.t.id i with
        | some o => o.opened
        | none => r.s.job.replay) then r.fail i noDesc 0 3 else r
  | .dispatch => r.dispatchStep i
  | .coll =>
    if st.phase = 4 then r.collOutput i
    else
      let r := r.collRecord i
      if r.t.abort.isSome || (r.stage i).phase ≠ 3 then r
      else
        let r := r.collStart i
        if r.t.abort.isNone && r.collMine i then (r.drain collOne i n).collEnd i else r

/-- Run the stages from `i` on. -/
def TaskRun.pump : Nat → Nat → TaskRun → TaskRun
  | 0, _, r => r
  | n + 1, i, r => if r.t.abort.isSome then r else TaskRun.pump n (i + 1) (r.work i)

/-- Run the chain from stage `i`. -/
def TaskRun.chain (r : TaskRun) (i : Nat) : State := (r.pump (r.t.stages.length - i) i).done

/-- Everything a task's last stage still owes is done (R215); a SEND also awaits every acknowledge (R327). -/
def TaskRun.complete (r : TaskRun) : Bool :=
  let i := r.t.stages.length - 1
  let st := r.stage i
  let quiet := r.t.stages.all fun st => st.reqs.isEmpty
  let acked := (r.s.fab.tx.filter fun o => o.core == r.p.val && o.task == r.t.id && o.target == .send).all fun o => o.opened && o.blocks.all (·.acked)
  quiet && acked && (match st.kind with
    | .load => match r.list i with
      | some l => st.fin == l.2.2
      | none => false
    | .store => st.ended && st.fin == natAt st.raw 12 4
    | .send => st.ended && st.inq.isEmpty && st.taken == natAt st.raw 12 4
    | .dispatch => st.phase == 4
    | .coll => st.phase == 5
    | _ => st.ended && st.inq.isEmpty)

/-! ### Issue of SCMD and CSUM.U (R208, R213, R215, R219) -/

/-- Accept a task and start its chain. -/
def State.launch (s : State) (p : Fin 20) (t : Task) : State :=
  let s := s.modCore p fun c => { c with tasks := c.tasks ++ [t], nextTask := c.nextTask + 1 }
  ({ s, p, t : TaskRun }).chain 0

/-- SCMD and CSUM.U, with `live` for what else issuing does (R190). A rejected task's fault 0x08 has the completion record's
address in CORE_FAULT_INFO, for which Table 6.13 gives no content (DESIGN CHOICE, log 66). -/
def State.issueTask (s : State) (p : Fin 20) (k : Fin 128) (w : IWord) (csum : Bool) (v : VCore) (st : Strand) (t : Nat)
    (live : State → State) : State :=
  let op := fld w 0 10
  let cmd := taAt w st.x 24
  let crec := taAt w st.x 66
  if 64 ≤ (s.core p).tasks.length then
    s.modStrand p k fun st => { st with wait := .tracker op, since := match st.wait with
      | .tracker _ => st.since
      | _ => t }
  else match (v.rangeFault [(cmd, 208)] .read).or (v.rangeFault [(crec, 64)] .write) with
    | some a => s.fault p k 2 op (infoAddr a)
    | none => match v.eccFault [(cmd.toNat, 208)] with
      | some a => s.fault p k 0x0B op a
      | none =>
        let go (v : VCore) (s : State) : State :=
        let raw := (s.core p).tileAt v cmd.toNat 208 t
        match commandFault v s.job.n csum raw with
        | some b => s.fault p k 1 op (65536 + b)
        | none =>
          let step := BitVec.ofNat 32 ((s.core p).stepTagAt v t)
          let no := if st.taskStep = step then st.taskNo else 0
          let task : Task :=
            { id := (s.core p).nextTask, vcore := v.num, strand := k.val, step, cmd := cmd.toNat, crec := crec.toNat, tok := fld w 46 8,
              tinc := fld w 54 12, pc := st.pc.toNat, opcode := op, taskNo := no, resubmitted := false, arrival := csum,
              stages := stagesOf raw, reqNo := 0, delivered := 0, merged := 0, spilled := 0, abort := none, provChks := [], provBlock := none, touched := [], met := [] }
          let s := s.modStrand p k fun st => { st with taskNo := no + 1, taskStep := step }
          let s := s.modCore p fun c =>
            { c with issuedFor := (crec.toNat, op, st.pc.toNat, no) :: c.issuedFor.filter fun e => e.1 != crec.toNat }
          if s.job.rejects task.stages then
            (s.writeRecord p task 3).fault p k 8 op crec.toNat
          else ((live s).commit p k t).launch p task
        let v := (s.readNow p [Access.read .tile cmd.toNat 208 t k st.pc]).vNow p v
        (s.readNow p [Access.read .tile cmd.toNat 208 t k st.pc]).audit p k op [Access.read .tile cmd.toNat 208 t k st.pc] [] (go v)

/-- R208. Submit a command record as a task. -/
def execScmd (core : Fin 20) (strand : Fin 128) (ops : BitVec 118) (s : State) : Host.Outcome State Fault Refusal :=
  let w := wordOf ops 0x050
  s.issue core strand w false .sq (fun _ _ st => [alignedTo (taAt w st.x 24) 64 24, alignedTo (taAt w st.x 66) 64 66, resvFrom w 88])
    fun s v st t => s.issueTask core strand w false v st t fun s => s

/-- R189, R333. An arrival-order sum across ranks. -/
def execCsumU (core : Fin 20) (strand : Fin 128) (ops : BitVec 118) (s : State) : Host.Outcome State Fault Refusal :=
  let w := wordOf ops 0x201
  s.issue core strand w true .sq (fun _ _ st => [alignedTo (taAt w st.x 24) 64 24, alignedTo (taAt w st.x 66) 64 66, resvFrom w 88])
    fun s v st t => s.issueTask core strand w true v st t fun s => s.noteClassV core

end Sys2Proof.Machine
end

