-- ==== Sys2Proof/Machine/Requests.lean ====
section
/-! DEFINITION. What the stream engine does on its own: descriptor runs, memory requests, the end of a task, resubmission
(R206, R207, R211 to R218, R220, R221). -/

namespace Sys2Proof.Machine

/-! ### Descriptor runs (R214) -/

/-- The next run of a stage's list is read, where the cache has room for it. -/
def TaskRun.fetchRun (r : TaskRun) (i : Nat) : TaskRun :=
  match r.list i with
  | none => r
  | some (rid, off, len) =>
    let st := r.stage i
    let have_ := st.dropped + st.descs.length
    let n := min 64 (len - have_)
    if n = 0 || 4096 < (r.s.core r.p).cached + n then r
    else match r.get rid (off + 64 * have_ : Nat) (64 * n) with
      | (r, .bad c a) => r.fail i have_ 0 c a
      | (r, .wait g) => r.fail i have_ 0 2 g
      | (r, .ok bs) =>
        let gddr := (r.s.job.region rid).any fun q => q.kind == .gddr
        let r := r.modStage i fun st => { st with descs := st.descs ++ chunks 64 bs }
        if gddr then { r with s := r.s.modCore r.p fun c => { c with dfetchCnt := c.dfetchCnt + 1 } } else r

/-- R214. The stream engine reads a run of 64 descriptors ahead of use. -/
def execDescriptorRunFetch (core : Fin 20) (task : Nat) (stage : Fin 6) (s : State) : Host.Outcome State Fault Refusal :=
  match s.task core task with
  | none => .next s
  | some t =>
    if t.abort.isSome || t.stages.length ≤ stage.val then .next s
    else .next (({ s, p := core, t : TaskRun }).fetchRun stage.val).done

/-! ### Requests (R212, R213, R220, R221) -/

/-- The first byte of a block outside its envelope or region (R216, R220, R301): none when every byte may be accessed. -/
def TaskRun.outside (r : TaskRun) (env : Option (Nat × Nat × Nat)) (d : Desc) (write : Bool) : Option Nat :=
  let base : Int := (r.s.placeOf d.region 0).2
  let envBad : Option Nat := match env with
    | none => none
    | some (rid, lo, hi) => d.runs.findSome? fun x =>
        if d.region ≠ rid || decide (x.1 < (lo : Int)) then some (infoAddr (base + x.1))
        else if x.1 + x.2 ≤ (hi : Int) then none
        else some (infoAddr (base + max x.1 (hi : Int)))
  match envBad with
  | some a => some a
  | none => d.runs.findSome? fun x => match r.s.job.checkRegion r.t.vcore d.region x.1 x.2 write with
    | .inr a => some a
    | .inl _ => none

/-- The envelope of a LOAD or STORE stage: region, low and high offsets. -/
def Stage.envelope (st : Stage) : Option (Nat × Nat × Nat) :=
  if st.kind = .load || st.kind = .store then
    some ((locOf st.raw 16).1, (locOf st.raw 16).2, bitsAt (natAt st.raw 24 8) 0 48)
  else none

/-- Insert a run by ascending offset. -/
def insertRun (x : Int × Nat) : List (Int × Nat) → List (Int × Nat)
  | [] => [x]
  | y :: ys => if x.1 ≤ y.1 then x :: y :: ys else y :: insertRun x ys

/-- The bytes of a block where they are one contiguous range (R212): its first offset and length. -/
def Desc.range (d : Desc) : Option (Int × Nat) := match d.runs with
  | [x] => some x
  | xs => match joinRuns (xs.foldr insertRun []) with
    | [x] => some x
    | _ => none

/-- How many descriptors after `first`, which begins at `lo`, one request carries as well (R212): the range so far ends at `fin_`, in a region
at `base` with granules of `gran` bytes. -/
def mergeRun (base : Int) (gran : Nat) (first : Desc) (lo fin_ : Int) : List (List Byte) → Nat
  | [] => 0
  | b :: bs => match (Desc.parse b).bind fun d => d.range.map fun x => (d, x) with
    | none => 0
    | some (d, a, n) =>
      if d.merge && a == fin_ && d.region == first.region && d.fmt == first.fmt && d.transpose == first.transpose
          && (base + lo) / (gran : Int) == (base + a + n - 1) / (gran : Int) && decide (a + n - lo ≤ 16384)
      then 1 + mergeRun base gran first lo (a + n) bs else 0

/-- Descriptors that can join the one at place `k` of a LOAD's or STORE's fetched list. -/
def TaskRun.mergeable (r : TaskRun) (i k : Nat) : Nat :=
  let st := r.stage i
  if st.kind = .coll then 0
  else match (Desc.parse (st.descs.getD k [])).bind fun d => d.range.map fun x => (d, x) with
    | none => 0
    | some (d, a, n) =>
      if d.merge && decide (n ≤ 16384) then
        mergeRun (r.s.placeOf d.region 0).2 (r.s.job.granule d.region) d a (a + n) (st.descs.drop (k + 1))
      else 0

/-- Whether descriptor `k` of those a stage holds may join descriptors that the next run brings: the stage then issues nothing
before that run is read. A run that finds no room in the cache is not waited for (R214). -/
def TaskRun.awaitsRun (r : TaskRun) (i k : Nat) : Bool :=
  let st := r.stage i
  match r.list i with
  | none => false
  | some (_, _, len) =>
    let have_ := st.dropped + st.descs.length
    let open_ := match Desc.parse (st.descs.getD k []) with
      | some d => d.merge && st.descs.length ≤ k + 1 + r.mergeable i k
      | none => st.descs.length ≤ k
    open_ && st.kind != .coll && decide (have_ < len) && decide ((r.s.core r.p).cached + min 64 (len - have_) ≤ 4096)

/-- A stage's next request over descriptor `k` of those it holds, for a block of `d`; `room` bounds how many further ones may
join. -/
def TaskRun.request (r : TaskRun) (i k : Nat) (d : Desc) (write : Bool) (room : Nat) : TaskRun :=
  let st := r.stage i
  let idx := st.dropped + k
  let base := (r.s.placeOf d.region 0).2
  let rest := dropRuns st.off d.runs
  let n := requestLen base (r.s.job.granule d.region) 16384 none rest
  let more := if st.off = 0 && n = d.len then min room (r.mergeable i k) else 0
  let joined := ((st.descs.drop (k + 1)).take more).filterMap Desc.parse
  let runs := (takeRuns n rest ++ joined.flatMap Desc.runs).map fun x => ((base + x.1).toNat, x.2)
  let addr := (runs.drop 1).foldl (fun a x => min a x.1) (runs.headD (0, 0)).1
  let q : Req := { (default : Req) with desc := idx, last := idx + more, off := st.off, len := n + joined.foldl (fun a x => a + x.len) 0, addr,
                                        tile := (r.s.placeOf d.region 0).1, write }
  let end_ := st.off + n = d.len
  let before := if write && 0 < i && (r.stage (i - 1)).kind == .load then (r.stage (i - 1)).joined else []
  let merged := (List.range more).map fun k => idx + 1 + k
  let counted := (merged.filter fun k => !before.contains k).length
  let feeds := !write && st.kind == .load && (r.stage (i + 1)).kind == .store
  let r := (r.send i q runs).modStage i fun st =>
    { st with next := if end_ then idx + more + 1 else idx, off := if end_ then 0 else st.off + n,
              joined := if feeds then st.joined ++ merged else st.joined }
  let r := if write && 0 < i then r.modStage (i - 1) fun p => { p with joined := p.joined.filter fun k => decide (idx + more < k) } else r
  { r with t := { r.t with merged := r.t.merged + counted },
           s := r.s.modCore r.p fun c => { c with mergeCnt := c.mergeCnt + counted } }

/-- A reading stage issues its next request. -/
def TaskRun.issueRead (r : TaskRun) (i : Nat) : TaskRun :=
  let st := r.stage i
  match r.list i with
  | none => r
  | some (_, _, len) =>
    let k := st.next - st.dropped
    if len ≤ st.next || st.descs.length ≤ k then r
    else match Desc.parse (st.descs.getD k []) with
      | none => r.fail i st.next 0 3
      | some d =>
        match (if st.off = 0 then r.outside st.envelope d false else none) with
        | some a => r.fail i st.next d.id 2 a
        | none =>
          -- where a LOAD feeds a STORE directly both lists must allow the merge
          let q := r.stage (i + 1)
          let direct := (st.kind = .load && q.kind = .store && i + 1 < r.t.stages.length : Bool)
          if st.kind = .load && st.off = 0 && (r.awaitsRun i k || direct && d.merge && q.dropped ≤ st.next && r.awaitsRun (i + 1) (st.next - q.dropped)) then r
          else
            let both := if st.kind ≠ .load then 0 else if !direct then len else if st.next < q.dropped then 0 else r.mergeable (i + 1) (st.next - q.dropped)
            -- a descriptor that leaves its envelope joins no request and faults in its turn (R220)
            let inside := (st.descs.drop (k + 1)).takeWhile fun b => match Desc.parse b with
              | some y => (r.outside st.envelope y false).isNone
              | none => false
            r.request i k d false (min both inside.length)

/-- A STORE, or a COLL stage with its outputs, issues its next request: the block is checked against its destination descriptor first
(R207, R220, R329). -/
def TaskRun.issueWrite (r : TaskRun) (i : Nat) : TaskRun :=
  let st := r.stage i
  let k := st.next - st.dropped
  match st.inq[k]? with
  | none => r
  | some b =>
    if ((r.list i).map (·.2.2)).getD 0 ≤ st.next || st.descs.length ≤ k then r
    else match Desc.parse (st.descs.getD k []) with
      | none => r.fail i st.next b.id 3
      | some d =>
        if !b.sound then r.fail i st.next b.id 1 0 b.chk (crc32c b.data)
        else if st.off ≠ 0 then r.request i k d true 0
        else if d.len ≠ b.data.length then r.fail i st.next b.id 3
        else if !d.gen && d.chk ≠ b.chk then r.fail i st.next b.id 1 0 d.chk b.chk
        else match (r.outside st.envelope d true).or (if st.kind = .coll then r.s.job.mustBeLocal [d.region] else none) with
          | some a => r.fail i st.next b.id 2 a
          | none =>
            -- later blocks join only once they have arrived and fit their own descriptors
            let fits := ((st.inq.drop (k + 1)).zip (st.descs.drop (k + 1))).takeWhile fun x => match Desc.parse x.2 with
              | some y => x.1.sound && y.len == x.1.data.length && (y.gen || y.chk == x.1.chk) && (r.outside st.envelope y true).isNone
              | none => false
            let more := !st.ended && st.inq.length ≤ k + 1 + fits.length
            if r.awaitsRun i k || more && fits.length < r.mergeable i k then r else r.request i k d true fits.length

/-- R212. A stage issues a memory request of up to 16 KiB; a stage that works without requests goes on with what it can do. -/
def execStageRequestIssue (core : Fin 20) (task : Nat) (stage : Fin 6) (s : State) : Host.Outcome State Fault Refusal :=
  match s.task core task with
  | none => .next s
  | some t =>
    let r : TaskRun := { s, p := core, t }
    let st := r.stage stage.val
    if t.abort.isSome || t.stages.length ≤ stage.val then .next s
    else if !st.xfers.isEmpty then
      if !r.room then .next s else .next (r.issueXfer stage.val).done
    else if st.reads stage.val then
      if !r.room then .next s
      else
        -- a COLL stage that waits for room among the open collectives tries again
        let r := if st.kind = .coll then { r with s := (r.pump (t.stages.length - stage.val) stage.val).done } else r
        match r.s.task core task with
        | none => .next r.s
        | some t => .next (({ r with t }).issueRead stage.val).done
    else if st.writes then
      if !r.room then .next s else .next (r.issueWrite stage.val).done
    else .next (r.chain stage.val)

/-! ### Completion of requests (R204, R207, R216, R217) -/

/-- The runs of a request with the index of the block each belongs to. -/
def TaskRun.reqRuns (r : TaskRun) (i : Nat) (q : Req) : List (Nat × Nat × Int × Nat) :=
  let st := r.stage i
  match q.xfer with
  | some x => [(x.put.desc, x.put.region, x.put.off, x.len)]
  | none =>
  let one (idx : Nat) : List (Nat × Nat × Int × Nat) := match Desc.parse (st.descs.getD (idx - st.dropped) []) with
    | none => []
    | some d =>
      (if q.last = q.desc then takeRuns q.len (dropRuns q.off d.runs) else d.runs).map fun x => (idx, d.region, x.1, x.2)
  (List.range (q.last + 1 - q.desc)).flatMap fun k => one (q.desc + k)

/-- The block ID a request's descriptor names. -/
def TaskRun.idAt (r : TaskRun) (i idx : Nat) : Nat :=
  let st := r.stage i
  if st.writes then (st.inq.getD (idx - st.dropped) default).id else natAt (st.descs.getD (idx - st.dropped) []) 48 8

/-- An uncorrectable unit that a read meets now stays so (R286, R288, R292, R296). -/
def TaskRun.spoilAt (r : TaskRun) (i : Nat) (q : Req) (addr : Nat) : TaskRun :=
  let hit := (r.reqRuns i q).any fun x =>
    let w := r.s.placeOf x.2.1 x.2.2.1
    decide (w.2 ≤ (addr : Int)) && decide ((addr : Int) < w.2 + x.2.2.2)
  if !hit then r
  else if q.tile then { r with s := r.s.modV r.p fun v => { v with tileBad := if v.tileBad.contains (addr / 8) then v.tileBad else v.tileBad ++ [addr / 8] } }
  else { r with s := r.s.spoil addr }

/-- The block ID that a request's fault names. -/
def TaskRun.reqId (r : TaskRun) (i : Nat) (q : Req) : Nat := match q.xfer with
  | some x => x.put.blockId
  | none => r.idAt i q.desc

/-- Read a request's bytes; the first fault names the lowest block that it touches. -/
def TaskRun.readRuns (r : TaskRun) (i : Nat) : List (Nat × Nat × Int × Nat) → TaskRun × List Byte
  | [] => (r, [])
  | x :: xs => match r.get x.2.1 x.2.2.1 x.2.2.2 true with
    | (r, .ok bs) =>
      let (r, rest) := TaskRun.readRuns r i xs
      (r, bs ++ rest)
    | (r, .bad c a) => (r.fail i x.1 (r.idAt i x.1) c a, [])
    | (r, .wait _) => (r, [])

/-- Finish the blocks that a reading stage now holds in full (R204, R207). -/
def TaskRun.finishReads (i : Nat) : Nat → TaskRun → TaskRun
  | 0, r => r
  | n + 1, r =>
    let st := r.stage i
    match st.descs with
    | [] => r
    | raw :: _ => match Desc.parse raw with
      | none => r
      | some d =>
        if st.next ≤ st.dropped || st.got.length < d.len then r
        else
          let data := st.got.take d.len
          let c := crc32c data
          let idx := st.dropped
          if !d.gen && d.chk ≠ c then r.fail i idx d.id 1 0 d.chk c
          else
            let l := (r.list i).getD (0, 0, 0)
            let r := if d.gen then r.writeAll i false [chkPut idx d.id (l.1, l.2.1 + 64 * idx) c] else r
            if r.t.abort.isSome then r else
            let b : Block := { id := d.id, step := r.t.step, region := d.region, fmt := d.fmt, transposed := d.transpose,
                               concealed := false, seq := d.seq, ext0 := d.e 0, data, chk := c }
            let coll := st.kind = .coll
            let r := r.modStage i fun st =>
              { st with got := st.got.drop d.len, descs := st.descs.drop 1, dropped := st.dropped + 1,
                        fin := if coll then st.fin else st.fin + 1, inq := if coll then st.inq ++ [b] else st.inq }
            TaskRun.finishReads i n (if coll then r else r.push i b)

/-- The block at the head of a writing stage is written: the generated check value, a STORE's twin record and provenance, and on to the
successor. -/
def TaskRun.finishWrite (r : TaskRun) (i : Nat) : TaskRun :=
  let st := r.stage i
  match st.descs, st.inq with
  | raw :: _, b :: _ => match Desc.parse raw with
    | none => r
    | some d =>
      let idx := st.dropped
      let l := (r.list i).getD (0, 0, 0)
      let r := if d.gen then r.writeAll i false [chkPut idx b.id (l.1, l.2.1 + 64 * idx) b.chk] else r
      if r.t.abort.isSome then r else
      let rec_ : TwinRec := ⟨r.t.step, r.t.vcore, r.t.strand, r.t.taskNo, i, idx, b.id, b.chk⟩
      let store := st.kind = .store
      let r := if store && r.t.opcode ≠ 0x201 && r.s.job.twinRegion d.region then { r with s := r.s.noteTwin rec_ r.t.resubmitted } else r
      let prov := store && (r.s.job.region d.region).any fun q => q.prov
      let r := if prov then
          { r with t := { r.t with provChks := r.t.provChks ++ [b.chk], provBlock := r.t.provBlock.or (some b.id) } } else r
      (r.modStage i fun st =>
        { st with descs := st.descs.drop 1, dropped := st.dropped + 1, inq := st.inq.drop 1, fin := st.fin + 1 }).push i b
  | _, _ => r

/-- A write of this request ends its last block. -/
def TaskRun.endsBlock (r : TaskRun) (i : Nat) (q : Req) : Bool :=
  if q.last ≠ q.desc then true
  else match Desc.parse ((r.stage i).descs.getD (q.desc - (r.stage i).dropped) []) with
    | some d => q.off + q.len == d.len
    | none => false

/-- The bytes a write request carries. -/
def TaskRun.writeBytes (r : TaskRun) (i : Nat) (q : Req) : List Byte :=
  let st := r.stage i
  let blk (k : Nat) : List Byte := (st.inq.getD (q.desc + k - st.dropped) default).data
  if q.last = q.desc then sub (blk 0) q.off q.len else (List.range (q.last + 1 - q.desc)).flatMap blk

/-- Cut bytes along the runs of a request. -/
def TaskRun.cutRuns (r : TaskRun) (i : Nat) : List (Nat × Nat × Int × Nat) → List Byte → List Put
  | [], _ => []
  | x :: xs, bs => ⟨x.1, r.idAt i x.1, x.2.1, x.2.2.1, bs.take x.2.2.2⟩ :: r.cutRuns i xs (bs.drop x.2.2.2)

/-- The check values that the end of a request's blocks writes back (R207): those of its descriptors with gen = 1. -/
def TaskRun.chkPuts (r : TaskRun) (i : Nat) (q : Req) : List Put :=
  let st := r.stage i
  let l := (r.list i).getD (0, 0, 0)
  (List.range (q.last + 1 - q.desc)).filterMap fun k => match Desc.parse (st.descs.getD (q.desc + k - st.dropped) []) with
    | some d => if d.gen then some (chkPut (q.desc + k) 0 (l.1, l.2.1 + 64 * (q.desc + k)) 0) else none
    | none => none

/-- The first block of a write request forms a twin record (R277). -/
def TaskRun.formsTwin (r : TaskRun) (i : Nat) (q : Req) : Bool :=
  let st := r.stage i
  st.kind == .store && r.t.opcode != 0x201 && (match Desc.parse (st.descs.getD (q.desc - st.dropped) []) with
    | some d => r.s.job.twinRegion d.region
    | none => false)

/-- Units that a request's outcome says were corrected, or found bad, where the request touches them: every unit it reads, and the
units it writes in part (R286, R288, R292). -/
def TaskRun.eccUnits (r : TaskRun) (i : Nat) (q : Req) (units : List Nat) : List Nat :=
  units.filter fun a => (r.reqRuns i q).any fun x =>
    let w := r.s.placeOf x.2.1 x.2.2.1
    let n := if q.tile || inStaging a then 8 else if q.write then 64 else 32
    let lo : Int := ((a / n * n : Nat) : Int)
    decide (w.2 < lo + n) && decide (lo < w.2 + x.2.2.2) && (!q.write || decide (lo < w.2) || decide (w.2 + x.2.2.2 < lo + n))

/-- The errors that an outcome reports stand before the access, which meets them. -/
def TaskRun.meetEcc (r : TaskRun) (i : Nat) (q : Req) (outcome : ReqOutcome) : TaskRun :=
  match outcome with
  | .corrected units =>
    let us := r.eccUnits i q units
    if q.tile then { r with s := r.s.modV r.p fun v =>
      { v with tileSoft := (us.map (· / 8)).foldl (fun l w => if v.tileBad.contains w || l.contains w then l else l ++ [w]) v.tileSoft } }
    else { r with s := r.s.soften us }
  | .uncorrectable a => if (r.eccUnits i q [a]).isEmpty then r else r.spoilAt i q a
  | _ => r

/-- The request at the head of a stage waits, for a page or the guard. -/
def TaskRun.rehold (r : TaskRun) (i : Nat) (q : Req) (cause addr : Nat) : TaskRun :=
  let r := r.modStage i fun st => { st with reqs := { q with held := true, cause, waitAt := addr } :: st.reqs.drop 1 }
  { r with s := if cause = 6 then r.s.countHold else r.s.queueFault addr q.write ((r.stage i).source r.p) }

/-- What the request at the head of a stage still waits for before it can end: a page, or the guard on its bytes or on a check
value written back (R221, R303). -/
def TaskRun.blockedEnd (r : TaskRun) (i : Nat) (q : Req) : Option (Nat × Nat) :=
  let runs := r.reqRuns i q
  let puts := match q.xfer with
    | some x => if x.write then [x.put] else []
    | none => (if q.write then r.cutRuns i runs (r.writeBytes i q) else []) ++ (if r.t.abort.isNone && r.endsBlock i q then r.chkPuts i q else [])
  let page := runs.findSome? fun x =>
    let w := r.s.placeOf x.2.1 x.2.2.1
    if w.1 then none else (r.s.mem.faultPage w.2.toNat x.2.2.2 q.write).map fun g => (0x0A, g)
  page.or ((r.s.guardedWrite r.t.step.toNat puts).map fun a => (6, a))

/-- The blocks of a write request are written and finished in order; its first `n` blocks are `q.desc` on. A block that would form a twin
record while none has room stays, and what follows it, at the head of the stage with cause 0x04 (R278). -/
def TaskRun.endWrites (i : Nat) : Nat → Req → TaskRun → TaskRun
  | 0, _, r => r
  | n + 1, q, r =>
    let len := if q.last = q.desc then q.len else ((r.stage i).inq.getD (q.desc - (r.stage i).dropped) default).data.length
    let one : Req := { q with last := q.desc, len }
    let ends := r.endsBlock i one
    if r.t.abort.isNone && ends && r.formsTwin i q && !r.s.twinRoom 1 then
      r.modStage i fun st => { st with reqs := { q with cause := 4 } :: st.reqs }
    else
      let r := r.writeAll i true (r.cutRuns i (r.reqRuns i one) (r.writeBytes i one))
      let aborted := r.t.abort.isSome
      let r := if aborted || !ends then r else r.finishWrite i
      if q.last = q.desc then r
      else TaskRun.endWrites i n { q with desc := q.desc + 1, off := 0, len := q.len - len, addr := q.addr + len } r

/-- An access of EXPAND, DISPATCH or an exchange ends: what it read joins the stage's record; the write that ends a block forms its twin
record, and waits with cause 0x04 while none has room (R277, R278). -/
def TaskRun.endXfer (r : TaskRun) (i : Nat) (q : Req) (x : Xfer) : TaskRun :=
  let drop (r : TaskRun) : TaskRun := r.modStage i fun st => { st with reqs := st.reqs.drop 1 }
  if x.write then
    if r.t.abort.isNone && x.twin.isSome && !r.s.twinRoom 1 then r.modStage i fun st => { st with reqs := { q with cause := 4 } :: st.reqs.drop 1 }
    else
      let r := (drop r).writeAll i true [x.put]
      match x.twin with
      | some k => if r.t.abort.isSome then r else { r with s := r.s.noteTwin k r.t.resubmitted }
      | none => r
  else match (drop r).get x.put.region x.put.off x.len true with
    | (r, .ok bs) => r.modStage i fun st => { st with record := st.record ++ bs }
    | (r, .bad c a) => r.fail i x.put.desc x.put.blockId c a
    | (r, .wait _) => r

/-- The oldest request of a stage ends, with the tables as they translated it (R304). -/
def TaskRun.endRequest (r : TaskRun) (i : Nat) (q : Req) (outcome : ReqOutcome) : TaskRun :=
  let drop (r : TaskRun) : TaskRun := r.modStage i fun st => { st with reqs := st.reqs.drop 1 }
  let link := !q.tile && translated q.addr
  match outcome with
  | .linkError => if link then (drop r).fail i q.desc (r.reqId i q) 6 else r
  | _ =>
    let tables := r.s.mem
    let back (r : TaskRun) : TaskRun := if link then { r with s := r.s.modMem fun m => m.withTables tables } else r
    let r := if link then { r with s := r.s.modMem fun m => m.asTranslated q.addr q.entry } else r
    let r := r.meetEcc i q outcome
    back (match r.blockedEnd i q, q.xfer with
      | some (cause, a), _ => if cause = 0x0A && r.t.abort.isSome then drop r else r.rehold i q cause a
      | none, some x => r.endXfer i q x
      | none, none =>
        if q.write then TaskRun.endWrites i (q.last + 1 - q.desc) q (drop r)
        else
          let (r, bs) := r.readRuns i (r.reqRuns i q)
          let r := drop r
          if r.t.abort.isSome then r
          else (r.modStage i fun st => { st with got := st.got ++ bs }).finishReads i (q.last + 1 - q.desc))

/-- R213. The oldest request of a stage returns its data or completes its write, and the chain goes on; requests of one stage
are not reordered. Host memory answers only while the device's requests can proceed (R392, R431). -/
def execMemoryRequestComplete (core : Fin 20) (task : Nat) (stage : Fin 6) (outcome : ReqOutcome) (s : State) :
    Host.Outcome State Fault Refusal :=
  match s.task core task with
  | none => .next s
  | some t =>
    let r : TaskRun := { s, p := core, t }
    match (r.stage stage.val).reqs with
    | [] => .next s
    | q :: _ =>
      if q.held || (!q.tile && inHost q.addr && !s.host.dma && outcome != .linkError) then .next s
      else
        let r := r.endRequest stage.val q outcome
        .next (if r.t.abort.isSome then r.done else r.chain stage.val)

/-! ### The end of a task (R215, R216, R218, R351) -/

/-- The block of descriptor `k` of a list takes undefined values, and so does the check value there where the task would have generated it
(`force`: whatever the descriptor says). A descriptor that is not valid names no block. -/
def TaskRun.undefineBlock (r : TaskRun) (list : Nat × Nat) (force : Bool) (k : Nat) : TaskRun :=
  match r.s.regionRead r.p r.t.vcore list.1 (list.2 + 64 * k : Nat) 64 with
  | .ok b => match Desc.parse b with
    | none => r
    | some d =>
      let s := d.runs.foldl (fun s x => s.regionUndef r.p r.t.vcore d.region x.1 x.2) r.s
      { r with s := if d.gen || force then s.regionUndef r.p r.t.vcore list.1 (list.2 + 64 * k + 40 : Nat) 4 else s }
  | _ => r

/-- Blocks `from_` to `n - 1` of a list. -/
def TaskRun.undefineList (r : TaskRun) (list : Nat × Nat) (force : Bool) (from_ n : Nat) : TaskRun :=
  (List.range (n - from_)).foldl (fun (r : TaskRun) k => r.undefineBlock list force (from_ + k)) r

/-- The record that a stage works by: as read, or as it stands where the task ended before reading it. -/
def TaskRun.stageRecord (r : TaskRun) (i : Nat) : List Byte :=
  let st := r.stage i
  if !st.record.isEmpty then st.record
  else if st.kind = .dispatch then (((r.s.core r.p).v.map fun v => v.readTile (natAt st.raw 4 4) 64).getD [])
  else match r.s.regionRead r.p r.t.vcore (locOf st.raw 24).1 (locOf st.raw 24).2 48 with
    | .ok b => b
    | _ => []

/-- Undefined outputs of one stage of an aborted task: what no delivered block covers (R216). -/
def TaskRun.undefineStage (r : TaskRun) (i : Nat) : TaskRun :=
  let st := r.stage i
  let region (r : TaskRun) (l : Nat × Nat) (n : Nat) : TaskRun := { r with s := r.s.regionUndef r.p r.t.vcore l.1 l.2 n }
  match st.kind with
  | .store => match r.list i with
    | none => r
    | some (rid, off, len) => r.undefineList (rid, off) false (if r.isLast i then r.t.delivered else 0) len
  | .feed => match (r.s.core r.p).v with
    | none => r
    | some v =>
      -- the part of the block that did not complete
      let q := v.buffers[natAt st.raw 4 1 % 16]!
      let at0 := (q.wr - st.off) % q.size
      let n1 := min st.off (q.size - at0)
      if q.size = 0 || st.off = 0 then r else { r with s := r.s.blur r.p ([(q.base + at0, n1)] ++ if n1 < st.off then [(q.base, st.off - n1)] else []) }
  | .dispatch => match DispatchRec.parse ((r.stageRecord i).take 64) with
    | none => r
    | some d =>
      let r := (r.undefineList d.experts true 0 (if d.c = 0 then 0 else d.e)).undefineList d.overflow true 0 1
      let q := match r.s.regionRead r.p r.t.vcore d.overflow.1 d.overflow.2 64 with
        | .ok b => ((Desc.parse b).map fun o => o.e 1).getD 0
        | _ => 0
      region (region r d.counts (8 * d.e)) d.index (4 * (d.e * d.c + q))
  | .coll =>
    let c := CollParams.of st.raw
    if !r.isLast i then r
    else if c.op = 4 then match ExchangeRec.parse ((r.stageRecord i).take 48) with
      | none => r
      | some d =>
        let r := region (if d.cap = 0 then r else r.undefineList d.area true 0 1) d.counts (4 * r.s.job.groupSize c.group)
        if d.cap = 0 then r else region r d.index (8 * d.cap)
    else r.undefineList (locOf st.raw 24) false r.t.delivered (r.s.job.collOut c)
  | _ => r

def TaskRun.undefineOutputs (r : TaskRun) : TaskRun :=
  (List.range r.t.stages.length).foldl TaskRun.undefineStage r

/-- Operations and collectives of a task that has ended are closed; contributed blocks stay until they are acknowledged (R325,
R329). -/
def State.closeTask (s : State) (p : Fin 20) (id : Nat) : State :=
  { s with fab := { s.fab with tx := s.fab.tx.filter fun o => !(o.core == p.val && o.task == id) || o.target != .send && (!o.opened || o.awaits),
                               colls := s.fab.colls.filter fun c => !(c.core == some p.val && c.task == id) } }

/-- Take a task out of the tracker. -/
def State.dropTask (s : State) (p : Fin 20) (id : Nat) : State :=
  (s.closeTask p id).modCore p fun c => { c with tasks := c.tasks.filter fun t => t.id != id }

/-- The core fault of an abort cause (Table 7.7); 0x0A raises none. -/
def abortFault (cause : Nat) : Option Nat := if cause = 0x0A then none else if cause = 1 then some 7 else some 0x0D

/-- A resubmitted task has ended (R351): complete, it has repaired its fault, and once firmware has no other fault to act on, CORE_FAULT is
cleared and every rank resumes; with the same cause again, firmware rolls back; another cause is answered by its own class. A second
check mismatch charges the core's checker alarms again (Table 12.5). The fault that the task raised is so answered too. -/
def State.resubmissionEnded (s : State) (p : Fin 20) (t : Task) : State :=
  match (s.core p).resubmitted with
  | none => s
  | some cause =>
    let s := s.modCore p fun c => { c with resubmitted := none, answer := some 2 }
    match t.abort with
    | none =>
      if !(s.core p).later.isEmpty then s
      else
        let s := s.modCore p Core.clearFault
        if coreNums.any fun q => (s.core q).faultValid && (s.core q).test.isNone then s else s.resumeAll 2
    | some a =>
      let raised (f : FaultRec) : Bool := f.info == t.crec && some f.code == abortFault a.cause
      let s := (s.modCore p fun c => { c with later := c.later.reverse.eraseP raised |>.reverse }).chargeFault p ((abortFault a.cause).getD 0)
      if a.cause ≠ cause && abortClass a.cause = .p then (s.modCore p fun c => { c with answer := some 4 }).postFault p .p 4
      else ((s.modCore p fun c => { c with answer := some 3 }).postFault p (abortClass a.cause) 3).rollbackFault p

/-- The end of a task: the record first, then the increment or the fault (R215, R216). -/
def TaskRun.finish (r : TaskRun) : State :=
  match r.t.abort with
  | none =>
    let s := (r.s.writeRecord r.p r.t 1).dropTask r.p r.t.id
    let s := s.modCore r.p fun c => { c with xspillCnt := c.xspillCnt + r.t.spilled }
    let s := (s.provenance r.t).modCore r.p fun c => c.addToken r.t.tok r.t.tinc
    let s := if r.t.resubmitted then s.resubmissionEnded r.p r.t else s
    s.checkComplete
  | some a =>
    let r := r.undefineOutputs
    let s := (r.s.writeRecord r.p r.t 2).dropTask r.p r.t.id
    let s := match abortFault a.cause with
      | some f => s.modCore r.p fun c => c.raise f 0 0 0 r.t.crec
      | none => s
    let s := if r.t.resubmitted then s.resubmissionEnded r.p r.t else s
    s.checkComplete

/-- R215. A task ends once its last stage has completed everything, or, aborted, once its issued requests have completed and
its sent blocks are answered. A provenance record waits until the device may write host memory (R431). -/
def execTaskEnd (core : Fin 20) (task : Nat) (s : State) : Host.Outcome State Fault Refusal :=
  match s.task core task with
  | none => .next s
  | some t =>
    let r : TaskRun := { s, p := core, t }
    if t.abort.isSome then
      let sends := s.fab.tx.any fun o => o.core == core.val && o.task == task && o.target == .send && o.awaits
      if (t.stages.all fun st => st.reqs.isEmpty) && !sends then .next r.finish else .next s
    else if r.complete && (t.provBlock.isNone || s.host.dma) then .next r.finish
    else .next s

/-! ### Resubmission (R218) -/

/-- Re-run the task of a completion record, as firmware and a write to STRM_RESUBMIT do. -/
def State.resubmit (s : State) (p : Fin 20) (crec : Nat) : State :=
  let c := s.core p
  match c.v with
  | none => s.modCore p fun c => { c with resubLost := true }
  | some v =>
    if 64 ≤ c.tasks.length || (v.regionFault crec 64 .write).isSome then s.modCore p fun c => { c with resubLost := true }
    else
      let s := s.correct p false [⟨.tile, crec, 64, false, 0, 0, 0, 0, false, []⟩]
      let rec_ := v.readTile crec 64
      let info := natAt rec_ 48 8
      let cmd := natAt rec_ 56 4
      let (op, pc, no) := match c.issuedFor.find? fun e => e.1 == crec with
        | some e => e.2
        | none => (0x050, 0, 0)
      let s := if (v.regionFault cmd 208 .read).isSome then s else s.correct p false [⟨.tile, cmd, 208, false, 0, 0, 0, 0, false, []⟩]
      let raw := v.readTile cmd 208
      let bad : Option (Nat × Nat) := match v.regionFault cmd 208 .read with
        | some a => some (2, infoAddr a)
        | none => match badWord v.tileBad cmd 208 with
          | some a => some (4, a)
          | none => if (commandFault v s.job.n (op == 0x201) raw).isSome then some (3, 0) else none
      let t : Task :=
        { id := c.nextTask, vcore := v.num, strand := bitsAt info 20 7, step := BitVec.ofNat 32 (natAt rec_ 28 4), cmd, crec, tok := bitsAt info 0 8,
          tinc := bitsAt info 8 12, pc, opcode := op, taskNo := no, resubmitted := true, arrival := op == 0x201, stages := [], reqNo := 0,
          delivered := 0, merged := 0, spilled := 0, abort := none, provChks := [], provBlock := none, touched := [], met := [] }
      match bad with
      | some (cause, a) =>
        let s := if cause = 4 then s.chargeTile p else s
        let t := { t with abort := some ⟨cause, 0, noDesc, 0, 0, 0, a⟩ }
        let s := (s.writeRecord p t 2).modCore p fun c => c.raise 0x0D 0 0 0 crec
        s.resubmissionEnded p t
      | none =>
        let t := { t with stages := stagesOf raw }
        if s.job.rejects t.stages then (s.writeRecord p t 3).modCore p fun c => c.raise 8 0 0 0 crec
        else s.launch p t

/-- R218. A write to STRM_RESUBMIT: bits [21:0] are the record's address in 64-byte units. -/
def execStrmResubmit (core : Fin 20) (value : Word) (s : State) : Host.Outcome State Fault Refusal :=
  .next (s.resubmit core (64 * bitsAt value.toNat 0 22))

end Sys2Proof.Machine
end

