-- ==== Sys2Proof/Machine/Matrix.lean ====
section
/-! DEFINITION. The matrix array's instructions: their operand checks and their issue, and the events of its queues, its sets and its
write ports (chapter 4). -/

namespace Sys2Proof.Machine

/-! ### Loads -/

def mloadChecks (w : IWord) (v : VCore) (x : Vector Word 7) : List EncCheck :=
  let o := LoadOp.ofWord w x
  let wave := flag w 30
  let xok := match o.xmode with
    | 0 => true
    | 1 => [Fmt.bf16, .fp16, .e4m3, .e5m2, .int8].contains o.fmt
    | 2 => [Fmt.bf16, .fp16, .e4m3, .e5m2].contains o.fmt
    | _ => false
  [(stationaryOk o.fmt 0 && !(wave && sixteen o.fmt), 24), (stationaryOk o.fmt o.sparse || !stationaryOk o.fmt 0, 28),
   (!(o.transpose && (o.fmt.isMx || (o.stored == .int4 && o.xmode != 3) || o.ssel)), 41), (xok, 42),
   (o.xgrp != 3, 46),
   (!o.ssel || (v.buffers[o.buf]!).size != 0, 49), if o.ssel then (fld w 53 18 == 0, 53) else alignedTo (taAt w x 49) 64 49,
   alignedTo (if o.sparse = 0 then 0 else taAt w x 71) 64 71,
   alignedTo (if o.xmode = 0 && !o.fmt.isMx then 0 else taAt w x 93) 64 93, resvFrom w 115]

/-- The regions an MLOAD reads: (address, bytes). -/
def LoadOp.ranges (o : LoadOp) (w : IWord) (x : Vector Word 7) : List (Int × Nat) :=
  (if o.ssel then [] else [(taAt w x 49, o.srcLen)])
    ++ (if o.sparse = 0 then [] else [(taAt w x 71, o.metaLen * (32 * (o.nrows - 1) + o.ncols))])
    ++ (if o.sideCol = 0 then [] else [(taAt w x 93, o.sideCol * o.ncols)])

/-! ### Operand checks shared by the engines -/

/-- An instruction as it leaves the sequencer. -/
def QInstr.of (st : Strand) (k : Fin 128) (w : IWord) (step : Word) (record : List Byte) (swaps : Nat) (armed : Option LoadOp)
    (tags : List AccTag := []) : QInstr := ⟨k, st.pc, w, st.x, step, record, swaps, armed, tags⟩

/-- MLOAD, both mechanisms. A broadcast load fills the set that is the shadow set when its row is read: issued while an MSWAP is
pending, the set that the flip makes active (DESIGN CHOICE, log 63). That set gets its mode at issue (R464). -/
def State.issueLoad (s : State) (p : Fin 20) (k : Fin 128) (w : IWord) (v : VCore) (st : Strand) (t : Nat) : State :=
  let o := LoadOp.ofWord w st.x
  match v.rangeFault (o.ranges w st.x) .read with
  | some a => s.fault p k 2 0x022 (infoAddr a)
  | none =>
    if flag w 30 then (s.modV p fun v => { v with armed := some o }).commit p k t
    else
      s.toLane p .load (.of st k w v.stepTag [] 0 none) t [] fun s =>
        (s.modV p fun v => { v with shadow := { v.shadow with loaded := true, fmt := o.fmt, sparse := o.sparse } }).commit p k t

/-- R104. Broadcast MLOAD. -/
def execBroadcastMload (core : Fin 20) (strand : Fin 128) (ops : BitVec 118) (s : State) : Host.Outcome State Fault Refusal :=
  let w := withBits (wordOf ops 0x022) 30 1 0
  s.issue core strand w false .ma (fun _ v st => mloadChecks w v st.x) fun s v st t => s.issueLoad core strand w v st t

/-- R106. Wavefront MLOAD. -/
def execWavefrontMload (core : Fin 20) (strand : Fin 128) (ops : BitVec 118) (s : State) : Host.Outcome State Fault Refusal :=
  let w := withBits (wordOf ops 0x022) 30 1 1
  s.issue core strand w false .ma (fun _ v st => mloadChecks w v st.x) fun s v st t => s.issueLoad core strand w v st t

/-! ### MSWAP and the shadow set -/

/-- R105. MSWAP: the flip is to come. -/
def execMswap (core : Fin 20) (strand : Fin 128) (ops : BitVec 118) (s : State) : Host.Outcome State Fault Refusal :=
  let w := wordOf ops 0x023
  s.issue core strand w false .ma (fun _ _ _ => [resvFrom w 24]) fun s _ _ t =>
    (s.modCore core fun c => { c with swaps := c.swaps ++ [⟨t⟩] }).commit core strand t

/-- R105. At f the two sets exchange with their states and modes; a queued pass proceeds from f + 1. -/
def execMswapFlip (core : Fin 20) (s : State) : Host.Outcome State Fault Refusal :=
  match (s.core core).flipDue with
  | none => .next s
  | some f =>
    let s := s.advance core f
    let s := s.modV core fun v => { v with active := v.shadow, shadow := v.active }
    let on (q : QInstr) : QInstr := { q with swaps := q.swaps - 1 }
    .next (s.modCore core fun c =>
      { c with swaps := c.swaps.drop 1, shadowValid := false,
               pass := { c.pass with freeAt := max c.pass.freeAt (f + 1), queued := c.pass.queued.map on, held := c.pass.held.map on } })

/-- R104. The broadcast load has written its last row: the shadow set is complete. -/
def execShadowSetComplete (core : Fin 20) (s : State) : Host.Outcome State Fault Refusal :=
  match (s.core core).fillDue with
  | none => .next s
  | some d => .next ((s.advance core d).modCore core fun c => { c with filling := false, shadowValid := true })

/-! ### Passes -/

/-- Bytes from src to the last one of the operand. -/
def PassOp.srcLen (o : PassOp) : Nat :=
  if o.transpose then
    (o.count - 1) / 32 * o.stripLen + ((o.width - 1) * 32 + (o.count - 1) % 32 + 1) * (o.xfmt.bits / 8)
  else o.count * o.recLen

/-- The modes of the two sets, (loaded, format, sparse), once every MSWAP and queued pass before now has had its effect:
first the active set (R464). -/
def modesAhead (c : Core) (v : VCore) : Bool × Fmt × Nat :=
  let modeOf (x : StatSet) := (x.loaded, x.fmt, x.sparse)
  let byLoad (o : LoadOp) := (true, o.fmt, o.sparse)
  let flips (n : Nat) (m : (Bool × Fmt × Nat) × (Bool × Fmt × Nat)) := if n % 2 = 0 then m else (m.2, m.1)
  let st := c.pass.pending.foldl (fun (st : Nat × (Bool × Fmt × Nat) × (Bool × Fmt × Nat)) q =>
    (q.swaps, match q.armed with
      | some o => (byLoad o, (flips (q.swaps - st.1) st.2).2)
      | none => flips (q.swaps - st.1) st.2)) (0, modeOf v.active, modeOf v.shadow)
  match v.armed with
  | some o => byLoad o
  | none => (flips (c.swaps.length - st.1) st.2).1

def passChecks (w : IWord) (counted : Bool) (c : Core) (v : VCore) (st : Strand) : List EncCheck :=
  let o := PassOp.ofWord w st.x none
  let m := modesAhead c v
  let slots := tileSlots o.ashape (o.aformat == 1)
  let shapeOk := decide (o.ashape ≤ 9) && !(o.ashape == 9 && o.aformat == 1)
  -- a reserved shape has no extent that abase could break
  let baseOk := !shapeOk || (o.abase % slots == 0 && decide (o.abase + slots ≤ 512))
  let tagOk := !o.acc || !shapeOk || !baseOk || (List.range slots).all fun i =>
    let t := v.slotTags[o.abase + i]!
    t == .unset || t == o.tag
  [(m.1 && pairOk m.2.1 o.xfmt, 24), (!m.1 || (decide (o.sparse = m.2.2) && decide (o.sparse < 3)), 28),
   (accOk o.xfmt o.aformat && decide (o.aformat < 3) && tagOk, 30), (baseOk, 32), (shapeOk, 41),
   (decide (o.tokoff < tileTokens o.ashape), 45),
   if counted then (fld w 59 14 == 0, 59) else (decide (o.tokoff + o.count ≤ tileTokens o.ashape), 59),
   (!(o.ssel && o.transpose), 79),
   (!o.ssel || (v.buffers[o.buf]!).size != 0, 80), if o.ssel then (fld w 84 18 == 0, 84) else alignedTo (taAt w st.x 80) 64 80,
   (!(o.transpose && o.xfmt.isMx), 102),
   if counted then alignedTo (waAt w st.x 103) 8 103
   else alignedTo (if flag w 103 then taAt w st.x 104 else 0) 64 104,
   if counted then (true, 126) else resvFrom w 126]

/-- The slots of a pass's tile take its accumulator format as their tag (R120). -/
def PassOp.tagTile (o : PassOp) (v : VCore) : VCore :=
  { v with slotTags := (List.range (tileSlots o.ashape (o.aformat == 1))).foldl (fun g i => g.set! (o.abase + i) o.tag) v.slotTags }

/-- Issue of a pass: operand ranges, the count of MPASS.P, tags of the tile, then its lane (R100, R118, R120). A count above
T − tokoff is reported at the count word's address (DESIGN CHOICE, log 63). An uncorrectable count leaves every token from tokoff
on undefined (log 70). -/
def State.issuePass (s : State) (p : Fin 20) (k : Fin 128) (w : IWord) (counted : Bool) (v : VCore) (st : Strand) (t : Nat) :
    State :=
  let opcode := fld w 0 10
  let cntAt := waAt w st.x 103
  match (if counted then v.regionFault cntAt 4 .read else none) with
  | some a => s.fault p k 2 opcode (infoAddr a)
  | none =>
    let reads := if counted then [Access.read .tile cntAt.toNat 4 t k st.pc] else []
    let s := s.readNow p reads
    let v := s.vNow p v
    match reads.findSome? v.badAccess with
    | some f =>
      let o := PassOp.ofWord w st.x none
      (s.modV p fun v => o.tagTile v).failIssue p k f opcode t
        [.put .acc (o.wordAt 0) ((tileTokens o.ashape - o.tokoff) * o.words) t t k st.pc]
    | none =>
      let c := s.core p
      let record := if counted then c.tileAt v cntAt.toNat 4 t else []
      let o := PassOp.ofWord w st.x (if counted then some (natOf record) else none)
      if counted && decide (tileTokens o.ashape - o.tokoff < o.count) then s.fault p k 2 opcode (infoAddr cntAt)
      else
        let ranges := (if o.ssel || o.count == 0 then [] else [(taAt w st.x 80, o.srcLen)])
          ++ (o.skip.toList.map fun _ => (taAt w st.x 104, o.skipLen))
        match v.rangeFault ranges .read with
        | some a => s.fault p k 2 opcode (infoAddr a)
        | none =>
          let q := QInstr.of st k w v.stepTag record c.swaps.length (if o.count = 0 then none else v.armed)
          s.toLane p .pass q t reads fun s =>
            (if o.count = 0 then s
             else s.modV p fun v => { o.tagTile v with armed := none }).commit p k t

/-- R100. MPASS. -/
def execMpass (core : Fin 20) (strand : Fin 128) (ops : BitVec 118) (s : State) : Host.Outcome State Fault Refusal :=
  let w := wordOf ops 0x020
  s.issue core strand w false .ma (passChecks w false) fun s v st t => s.issuePass core strand w false v st t

/-- R118. MPASS.P: the count comes from tile memory. -/
def execMpassP (core : Fin 20) (strand : Fin 128) (ops : BitVec 118) (s : State) : Host.Outcome State Fault Refusal :=
  let w := wordOf ops 0x021
  s.issue core strand w false .ma (passChecks w true) fun s v st t => s.issuePass core strand w true v st t

/-! ### Drains -/

def drainChecks (w : IWord) (st : Strand) : List EncCheck :=
  let o := DrainOp.ofWord w st.x []
  let target := [Fmt.fp32, .bf16, .fp16, .e4m3, .e5m2, .mx8e4, .mx8e5, .mx6e2, .mx6e3, .mx4, .int8, .int32].contains o.tfmt
  [(decide (9 < o.ashape) || (decide (o.abase % 2 ^ o.ashape = 0) && decide (o.abase + 2 ^ o.ashape ≤ 512)), 24), (decide (o.ashape ≤ 9), 33),
   (decide (o.tokoff < tileTokens o.ashape), 37), (decide (o.tokoff + o.count ≤ tileTokens o.ashape), 51), (target, 65),
   (decide (o.rmode < 2), 70), (!(o.transpose && o.tfmt.isMx), 72), (decide (o.chk < 3), 73),
   alignedTo (taAt w st.x 75) 64 75, alignedTo (prAt w st.x 97) 32 97, resvFrom w 120]

/-- The rules about the record, as bit positions in it. -/
def drainRecordChecks (o : DrainOp) (rec : List Byte) : List EncCheck :=
  [(decide (o.c0 < 32) && !(o.tfmt.isMx && o.c0 != 0), 96),
   (decide (1 ≤ o.ncol) && decide (o.c0 + o.ncol ≤ 32) && !(o.tfmt.isMx && o.ncol != 32), 104),
   (decide (natAt rec 14 1 < 4), 114), (natAt rec 15 1 == 0, 120), (natAt rec 28 4 == 0, 224)]

/-- The format tags of the slots of `n` tokens' extents from abase on, as they stand now. -/
def DrainOp.tagsNow (o : DrainOp) (v : VCore) (n : Nat) : List AccTag := (List.range n).map fun i => v.slotTags[o.abase + i]!

/-- The slots of the tile by the tag of slot abase; FP32 when that is unset (R126). -/
def DrainOp.extent (o : DrainOp) (v : VCore) : Nat := tileSlots o.ashape (v.slotTags[o.abase]! == .pair)

/-- Slots of the extent carry the source tag or none, and the extent is aligned and inside the memory (R119, R126). -/
def DrainOp.tagsOk (o : DrainOp) (v : VCore) : Bool :=
  let n := o.extent v
  let t := match v.slotTags[o.abase]! with
    | .unset => AccTag.fp32
    | t => t
  decide (o.abase % n = 0) && decide (o.abase + n ≤ 512) && (o.tagsNow v n).all fun u => u == .unset || u == t

/-- Ranges the drain reads and writes besides its record. -/
def DrainOp.readRanges (o : DrainOp) : List (Int × Nat) :=
  (o.scale.toList.map fun (a : Nat) => ((a : Int), 128)) ++ (o.bias.toList.map fun (a : Nat) => ((a : Int), 128))

def DrainOp.writeRanges (o : DrainOp) : List (Int × Nat) :=
  ((o.dst : Int), o.outLen) :: (if o.tfmt.isMx then [((o.mxAt : Int), o.count)] else [])

/-- What a drain whose record cannot be read may write: from dst on as far as 32 columns reach within the region (log 70). -/
def DrainOp.reach (o : DrainOp) (v : VCore) (t : Nat) (k : Fin 128) (pc : BitVec 16) : List Access :=
  match v.regions.find? fun g => g.wr && g.holds (o.dst : Int) with
  | some g => [.put .tile o.dst (min (o.tfmt.packedLen (o.count * 32)) (g.base + g.len - o.dst)) t t k pc]
  | none => []

/-- R124. MDRAIN: its record is read and checked at issue (R185), and the tags of its tile decide the format in which it reads
(R126). -/
def execMdrain (core : Fin 20) (strand : Fin 128) (ops : BitVec 118) (s : State) : Host.Outcome State Fault Refusal :=
  let w := wordOf ops 0x024
  s.issue core strand w false .ma (fun _ _ st => drainChecks w st) fun s v st t =>
    let prm := prAt w st.x 97
    match v.regionFault prm 32 .read with
    | some a => s.fault core strand 2 0x024 (infoAddr a)
    | none =>
      let rd := Access.read .tile prm.toNat 32 t strand st.pc
      let s := s.readNow core [rd]
      let v := s.vNow core v
      match v.badAccess rd with
      | some f => s.failIssue core strand f 0x024 t ((DrainOp.ofWord w st.x []).reach v t strand st.pc)
      | none =>
        let c := s.core core
        let rec_ := c.tileAt v prm.toNat 32 t
        let o := DrainOp.ofWord w st.x rec_
        match firstBad (drainRecordChecks o rec_) with
        | some pos => s.fault core strand 1 0x024 (pos + 65536)
        | none =>
          if !o.tagsOk v then s.fault core strand 1 0x024 (if o.ashape = 9 && v.slotTags[o.abase]! == .pair then 33 else 24)
          else match (v.rangeFault o.readRanges .read).or (v.rangeFault o.writeRanges .write) with
            | some a => s.fault core strand 2 0x024 (infoAddr a)
            | none =>
              let q := QInstr.of st strand w (BitVec.ofNat 32 (c.stepTagAt v t)) rec_ 0 none (o.tagsNow v (o.extent v))
              s.toLane core .drain q t (rd :: if o.rmode = 1 then [.read .stepTag 0 1 t strand st.pc] else []) fun s =>
                s.commit core strand t

/-! ### Queued starts and scrubs -/

/-- A lane's next instruction takes effect, its turn having come. -/
def State.startNext (s : State) (p : Fin 20) (l : LaneId) : State :=
  match ((s.core p).lane l).head, (s.core p).startDue l with
  | some q, some t0 => ((s.advance p t0).modCore p fun c => c.setLane l (c.lane l).pop).start p l q t0
  | _, _ => s

/-- R102. A queued pass, drain or load takes effect as if issued in the cycle after the running one's occupancy (for a pass,
and one behind a flip: the cycle after the flip, R105). -/
def execQueuedPassStart (core : Fin 20) (kind : MaKind) (s : State) : Host.Outcome State Fault Refusal :=
  .next (s.startNext core (match kind with
    | .pass => .pass
    | .drain => .drain
    | .load => .load))

/-- Clock periods without idle capacity after which the scrubber forces a write (R109). -/
def scrubForce : Nat := 65536

/-- R109. Where the column's port has had no idle capacity for 65,536 cycles, the scrubber takes it for a whole cycle: the next one
that no correction write-back takes. A correction that its read makes counts; an uncorrectable word, at an address the row leaves
open, stays so until it is written (R122). -/
def execForcedScrubWrite (core : Fin 20) (column : Fin 32) (ecc : Ecc) (s : State) : Host.Outcome State Fault Refusal :=
  let c := s.core core
  if c.v.isNone || c.ports[column].scrub || decide (c.clk < c.ports[column].idleAt + scrubForce) then .next s
  else
    let s := s.modCore core fun c => { c with ports := c.ports.set column { c.ports[column] with scrub := true } }
    match ecc with
    | .clean => .next s
    | .corrected => .next ((s.charge (24 + core.val) 1 0 0).modCore core fun c => { c with accfix := c.accfix + 1 })
    | .uncorrectable =>
      let (e, s) := s.fresh
      let a := (Config.undef 21 e 0).toNat
      .next (s.modCore core fun c => (c.modV fun v => { v with accBad := v.accBad ++ [a / 8] }).raise 9 0 0 0 a)

end Sys2Proof.Machine
end

