-- ==== Sys2Proof/Machine/Vector.lean ====
section
/-! DEFINITION. The instructions of the vector engine and the reduction unit: their operand checks and their issue (chapter 5), and
SCATADD.U (R189). -/

namespace Sys2Proof.Machine

/-! ### Operand checks -/

/-- A scalar or broadcast operand must lie in VT0 to VT31 as far as its mode reads it, and an operand that the op does not use is not
checked (DESIGN CHOICE, log 63). -/
def vopChecks (w : IWord) : List EncCheck :=
  let o := VopOp.ofWord w
  [(vopKnown o.op, 24), (o.fmt.inReg && vopFmtOk o.op o.fmt, 30), (vopCompare o.op || seqOk o.dst o.count, 34),
   (!vopCompare o.op || fld w 37 2 == 0, 37), (seqOk o.a o.count, 39),
   (!vopUsesB o.op || seqOk o.b (modeCount o.bmode o.count), 44),
   (!vopUsesC o.op || seqOk o.c (modeCount o.cmode o.count), 51), (o.op != 9 || fld w 54 2 == 0, 54), (mkOk o.pred, 72),
   resvFrom w 76]

def cvtChecks (w : IWord) (st : Strand) : List EncCheck :=
  let o := CvtOp.ofWord w st.x []
  let real (f : Fmt) : Bool := f != .pair && f != .opaq && f != .reserved
  let sok := real o.sfmt && (if o.toReg then o.msel || o.sfmt.inReg else o.sfmt.inReg)
  let tok := real o.tfmt && (if o.toReg then o.tfmt.inReg else o.msel || o.tfmt.inReg) && o.sfmt != o.tfmt
  [(sok, 24), (tok, 28), (seqOk o.treg o.count, 34),
   if o.msel then alignedTo (taAt w st.x 39) 64 39 else (seqOk o.oreg o.count, 39), (o.msel || fld w 44 17 == 0, 44),
   (decide (o.rmode < 2), 62), (!o.xsigned || o.tfmt == .int4 || o.tfmt == .int8, 64),
   (!((o.sfmt.isMx || o.tfmt.isMx) && o.count % 32 != 0), 65), (mkOk o.pred, 79),
   alignedTo (if o.usesRecord then prAt w st.x 83 else 0) 32 83, resvFrom w 106]

/-- Ranges VCVT reads and writes in tile memory besides its record. -/
def CvtOp.memRange (o : CvtOp) (w : IWord) (x : Vector Word 7) : List (Int × Nat) :=
  (if o.msel then [(taAt w x 39, o.other.packedLen o.count)] else [])
    ++ if o.other.isMx then [((o.mxAt : Int), o.count / 32)] else []

def trnChecks (w : IWord) (st : Strand) : List EncCheck :=
  let o := TrnOp.ofWord w st.x
  [(decide (o.mode < 5), 24), (decide (3 ≤ o.mode) || seqOk o.treg o.count, 28), (decide (o.mode < 3) || fld w 31 2 == 0, 31),
   (o.mode != 2 || seqOk o.oreg o.count, 33), alignedTo (if o.mode = 2 then 0 else taAt w st.x 38) 64 38, (mkOk o.pred, 74),
   resvFrom w 78]

def gathChecks (w : IWord) (st : Strand) : List EncCheck :=
  let o := GathOp.ofWord w
  [(o.fmt.inReg, 24), (seqOk o.data o.count, 28), (seqOk o.index o.count, 33), alignedTo (taAt w st.x 38) 64 38, (mkOk o.pred, 74),
   resvFrom w 78]

def scanChecks (w : IWord) : List EncCheck :=
  let o := ScanOp.ofWord w
  [(o.fmt.inReg, 24), (seqOk o.src o.count, 28), (seqOk o.dst o.count, 33), (fld w 57 4 == 0, 57), resvFrom w 61]

def rngChecks (w : IWord) (st : Strand) : List EncCheck :=
  [alignedTo (waAt w st.x 59) 8 59, alignedTo (waAt w st.x 84) 8 84, (mkOk (fld w 122 4), 122), resvFrom w 126]

def redChecks (w : IWord) : List EncCheck :=
  let o := RedOp.ofWord w
  [(decide (o.op < 5), 24), (o.fmt.inReg, 27), (seqOk o.src o.count, 31), (o.axis ≥ 2 || o.count % 32 == 0, 36),
   (decide (o.axis < 3), 50), (seqOk o.dst o.results, 52), (!(o.op == 2 || o.op == 3) || seqOk o.idx o.results, 57),
   (mkOk o.pred, 62), resvFrom w 66]

/-! ### Issue -/

/-- R133. VOP. -/
def execVop (core : Fin 20) (strand : Fin 128) (ops : BitVec 118) (s : State) : Host.Outcome State Fault Refusal :=
  let w := wordOf ops 0x030
  s.issue core strand w false .ve (fun _ _ _ => vopChecks w) fun s v st t =>
    s.toLane core .ve (.of st strand w v.stepTag [] 0 none) t [] fun s => s.commit core strand t

/-- What a VCVT whose record cannot be read writes: the elements that its predicate selects; an MX target's scales lie where the record
would say (log 70). -/
def CvtOp.reach (o : CvtOp) (c : Core) (v : VCore) (w : IWord) (st : Strand) (t : Nat) (k : Fin 128) : List Access :=
  let es := (List.range o.count).filter fun e => c.onAt v o.pred e t
  asWrites (if o.toReg || !o.msel then seqReads (if o.toReg then o.treg else o.oreg) es o.tr t k st.pc
    else if (v.rangeFault [(taAt w st.x 39, o.tfmt.packedLen o.count)] .write).isNone then runAccesses .tile (packedKeys o.tfmt o.mem es) t k st.pc
    else []) t

/-- R139. VCVT: its record is read and checked at issue where an option uses it. -/
def execVcvt (core : Fin 20) (strand : Fin 128) (ops : BitVec 118) (s : State) : Host.Outcome State Fault Refusal :=
  let w := wordOf ops 0x031
  s.issue core strand w false .ve (fun _ _ st => cvtChecks w st) fun s v st t =>
    let uses := (CvtOp.ofWord w st.x []).usesRecord
    let prm := prAt w st.x 83
    match (if uses then v.regionFault prm 16 .read else none) with
    | some a => s.fault core strand 2 0x031 (infoAddr a)
    | none =>
      let rd := if uses then [Access.read .tile prm.toNat 16 t strand st.pc] else []
      let s := s.readNow core rd
      let v := s.vNow core v
      match rd.findSome? v.badAccess with
      | some f => s.failIssue core strand f 0x031 t ((CvtOp.ofWord w st.x []).reach (s.core core) v w st t strand)
      | none =>
        let c := s.core core
        let rec_ := if uses then c.tileAt v prm.toNat 16 t else []
        let o := CvtOp.ofWord w st.x rec_
        if (o.sfmt.isMx || o.tfmt.isMx) && decide (2 ^ 25 ≤ o.mxAt) then s.fault core strand 1 0x031 (121 + 65536)
        else match v.rangeFault (o.memRange w st.x) (if o.toReg then .read else .write) with
          | some a => s.fault core strand 2 0x031 (infoAddr a)
          | none =>
            s.toLane core .ve (.of st strand w (BitVec.ofNat 32 (c.stepTagAt v t)) rec_ 0 none) t
              (rd ++ if o.rmode = 1 then [.read .stepTag 0 1 t strand st.pc] else []) fun s => s.commit core strand t

/-- R140. VTRN. -/
def execVtrn (core : Fin 20) (strand : Fin 128) (ops : BitVec 118) (s : State) : Host.Outcome State Fault Refusal :=
  let w := wordOf ops 0x033
  s.issue core strand w false .ve (fun _ _ st => trnChecks w st) fun s v st t =>
    let o := TrnOp.ofWord w st.x
    match (if o.mode = 2 then none else v.regionFault (taAt w st.x 38) o.memLen (if o.stores then .write else .read)) with
    | some a => s.fault core strand 2 0x033 (infoAddr a)
    | none => s.toLane core .ve (.of st strand w v.stepTag [] 0 none) t [] fun s => s.commit core strand t

/-- R141. VGATH. -/
def execVgath (core : Fin 20) (strand : Fin 128) (ops : BitVec 118) (s : State) : Host.Outcome State Fault Refusal :=
  let w := wordOf ops 0x034
  s.issue core strand w false .ve (fun _ _ st => gathChecks w st) fun s v st t =>
    s.toLane core .ve (.of st strand w v.stepTag [] 0 none) t [] fun s => s.commit core strand t

/-- R142. VSCAT. -/
def execVscat (core : Fin 20) (strand : Fin 128) (ops : BitVec 118) (s : State) : Host.Outcome State Fault Refusal :=
  let w := wordOf ops 0x035
  s.issue core strand w false .ve (fun _ _ st => gathChecks w st) fun s v st t =>
    s.toLane core .ve (.of st strand w v.stepTag [] 0 none) t [] fun s => s.commit core strand t

/-- R189. SCATADD.U. -/
def execScataddU (core : Fin 20) (strand : Fin 128) (ops : BitVec 118) (s : State) : Host.Outcome State Fault Refusal :=
  let w := wordOf ops 0x200
  s.issue core strand w true .ve (fun _ _ st => gathChecks w st) fun s v st t =>
    s.toLane core .ve (.of st strand w v.stepTag [] 0 none) t [] fun s => (s.noteClassV core).commit core strand t

/-- R144. VSCAN. -/
def execVscan (core : Fin 20) (strand : Fin 128) (ops : BitVec 118) (s : State) : Host.Outcome State Fault Refusal :=
  let w := wordOf ops 0x032
  s.issue core strand w false .ve (fun _ _ _ => scanChecks w) fun s v st t =>
    s.toLane core .ve (.of st strand w v.stepTag [] 0 none) t [] fun s => s.commit core strand t

/-- R157. RNGMASK: ebase and thr are read at issue. An uncorrectable word of theirs raises 0x0B, as Table 6.7 states for every
uncorrectable read; Table 6.6's row for RNGMASK does not list it (DESIGN CHOICE, log 63). -/
def execRngmask (core : Fin 20) (strand : Fin 128) (ops : BitVec 118) (s : State) : Host.Outcome State Fault Refusal :=
  let w := wordOf ops 0x036
  s.issue core strand w false .ve (fun _ _ st => rngChecks w st) fun s v st t =>
    let ea := waAt w st.x 59
    let ta := waAt w st.x 84
    match v.rangeFault [(ea, 8), (ta, 8)] .read with
    | some a => s.fault core strand 2 0x036 (infoAddr a)
    | none =>
      let rd := [Access.read .tile ea.toNat 8 t strand st.pc, .read .tile ta.toNat 8 t strand st.pc]
      let s := s.readNow core rd
      let v := s.vNow core v
      match rd.findSome? v.badAccess with
      | some f =>
        let o := RngOp.ofWord w []
        s.failIssue core strand f 0x036 t (asWrites (runAccesses .mask
          (((List.range o.count).filter fun e => (s.core core).onAt v o.pred e t).map fun e => o.dst * 8192 + e) t strand st.pc) t)
      | none =>
        let c := s.core core
        let rec_ := c.tileAt v ea.toNat 8 t ++ c.tileAt v ta.toNat 8 t
        s.toLane core .ve (.of st strand w (BitVec.ofNat 32 (c.stepTagAt v t)) rec_ 0 none) t
          (rd ++ [.read .stepTag 0 1 t strand st.pc]) fun s => s.commit core strand t

/-- R150. RED. -/
def execRed (core : Fin 20) (strand : Fin 128) (ops : BitVec 118) (s : State) : Host.Outcome State Fault Refusal :=
  let w := wordOf ops 0x040
  s.issue core strand w false .ru (fun _ _ _ => redChecks w) fun s v st t =>
    s.toLane core .ru (.of st strand w v.stepTag [] 0 none) t [] fun s => s.commit core strand t

/-- R159. A queued vector or reduction instruction takes effect when the running one has read its last block. -/
def execQueuedVectorStart (core : Fin 20) (red : Bool) (s : State) : Host.Outcome State Fault Refusal :=
  .next (s.startNext core (if red then .ru else .ve))

end Sys2Proof.Machine
end

