-- ==== Sys2Proof/Machine/Fabric.lean ====
section
/-! DEFINITION. The optical fabric: link layer, training, heartbeat and link-state notices, packets, blocks and opens on
arrival, acknowledges and resends, and the completion of collectives (chapter 11). -/

namespace Sys2Proof.Machine

/-! ### Ports (R313, R316 to R319, R335, R466) -/

def State.port (s : State) (n : Nat) : Port := s.fab.ports[n]!

def PortState.code : PortState → Nat
  | .off => 0 | .training => 1 | .up => 2 | .retraining => 3 | .down => 4

/-- The port carries traffic or retrains. -/
def Port.live (q : Port) : Bool := q.state == .up || q.state == .retraining

/-- Event 0x0B01. -/
def State.postPort (s : State) (n : Nat) : State :=
  let q := s.port n
  s.post 0x0B01 (bytesOf 1 n ++ bytesOf 1 q.state.code ++ bytesOf 1 q.reason.toNat ++ bytesOf 1 q.width.toNat)

/-- Flood a link-state notice about an own port F0 to F5 (Table 11.12). -/
def State.notice (s : State) (n : Nat) : State :=
  if 6 ≤ n then s
  else
    let q := s.port n
    let up := q.state == .up
    let st := if !up then 1 else if q.v3 then 2 else 3
    let link : LinkState := if !up then .down else if q.v3 then .v3 else .v2
    let own := s.ownAddr.toNat
    let s := { s with fab := s.fab.setLink own n link }
    s.flood 1 (bytesOf 2 own ++ bytesOf 1 n ++ bytesOf 1 st ++ bytesOf 2 (s.fab.neighbourOf own n)
      ++ bytesOf 1 (if up then 0 else q.reason.toNat) ++ bytesOf 1 (if up then q.width.toNat else 0) ++ zeros 8)

/-- The twin is lost (R280). -/
def State.twinLost (s : State) : State :=
  if !s.twinned then s
  else
    let low := lowestRec s.rep.own
    let s := s.postDivergence ((low.map TwinRec.bytes).getD []) 0 false true
    let s := { s with rep := { s.rep with linked := false, settling := false } }
    if s.rep.cont then s else s.pauseAll 4

/-- Waiting collectives with a member that has become unreachable abort with cause 0x07 (R329). -/
def State.checkReach (s : State) : State :=
  s.fab.colls.foldl (fun (s : State) c =>
    match c.core with
    | none => s
    | some p =>
      let g := (s.job.members c.group).getD []
      let lost := g.any fun q => q != s.job.rank && (s.route (s.job.addrOf q) true).isNone
      let core := Fin.ofNat 20 p
      if lost && !s.job.replay then
        match s.task core c.task with
        | some t => ({ s, p := core, t : TaskRun }.fail c.stage noDesc 0 7).done
        | none => s
      else s) s

/-- Mark a port down (R316, R317, R318, R335, R319): what waits there is dropped (Table 11.8), the device floods a notice (R466) and posts
the port's event. -/
def State.markDown (s : State) (n reason : Nat) : State :=
  let s := (s.dropWaiting n fun _ => true).modPort n fun q =>
    { q with state := .down, reason := BitVec.ofNat 4 reason, groups := 0, asking := false, replays := 0, starved := false }
  let s := (s.notice n).postPort n
  let s := if n = 7 && !s.job.hostTarget then s.failSet 1 else s
  let s := if n = 6 then s.twinLost else s
  s.checkReach

/-- Start a retrain of a port that is up (R313, R318); it is charged to the port's link-retry bucket (Table 12.6). -/
def State.retrain (s : State) (n : Nat) : State :=
  if (s.port n).state = .up then
    (s.modPort n fun q => { q with state := .retraining, asking := false, replays := 0 }).charge (56 + n) 0 1 0
  else s

/-- R313. A flit arrives: its corrected symbols and uncorrectable codewords count; a good flit in order is accepted, any other is
discarded. A bad flit where the next one is due asks for replay from there each time it comes; what follows a discarded flit asks
once. -/
def execFlitReceive (port : Fin 8) (seq : BitVec 12) (check : FlitCheck) (symbols : Nat) (s : State) : Host.Outcome State Fault Refusal :=
  let n := port.val
  if (s.port n).state ≠ .up then .next s
  else
    let s := (s.modPort n fun q => { q with fec := q.fec + symbols, unc := q.unc + check.codewords }).charge (48 + n) symbols check.codewords 0
    let q := s.port n
    let good := check.crcOk && check.codewords == 0
    if good && seq = q.rxSeq then .next (s.modPort n fun q => { q with rxSeq := q.rxSeq + 1, asking := false })
    else if q.asking && (good || seq != q.rxSeq) then .next s
    else .next ((s.modPort n fun q => { q with asking := true }).emitPort n (.replayAsk n q.rxSeq))

/-- R313. The far side asks for replay from a flit: the kept flits from there on go again in order; the 64th replay of one flit starts a
retrain. -/
def execReplayRequest (port : Fin 8) (seq : BitVec 12) (s : State) : Host.Outcome State Fault Refusal :=
  let n := port.val
  if (s.port n).state ≠ .up then .next s
  else
    let again := if (s.port n).replays ≠ 0 && (s.port n).replaySeq = seq then (s.port n).replays + 1 else 1
    let s := (s.modPort n fun q => { q with retry := q.retry + 1, replaySeq := seq, replays := again }).charge (56 + n) 1 0 0
    let s := s.emitPort n (.replaySend n ((s.port n).kept.dropWhile fun f => f.seq != seq))
    .next (if 64 ≤ again then s.retrain n else s)

/-- R313. No flit was accepted for 500 microseconds while flits were pending. -/
def execFlitAcceptTimeout (port : Fin 8) (s : State) : Host.Outcome State Fault Refusal := .next (s.retrain port.val)

/-- The first `k` groups of a mask, in ascending order. -/
def firstGroups (groups k : Nat) : Nat :=
  (((List.range 4).filter fun g => bitAt groups g).take k).foldl (fun a g => a + 2 ^ g) 0

/-- What a training reaches: lane groups and version, or the reason for which the port goes down (R316, R317). -/
def Port.trainOutcome (q : Port) (t : TrainResult) : (Nat × Bool) ⊕ Nat :=
  let n := ((List.range 4).filter fun g => bitAt t.groups.toNat g).length
  let k := min n (4 - q.maxWidth.toNat)
  let lo := max t.peerMin (if q.v2Allow then 2 else 3)
  let hi := min t.peerMax 3
  if k = 0 then .inr (if q.state = .retraining then 4 else 1)
  else if hi < lo then .inr 2
  else .inl (firstGroups t.groups.toNat k, hi == 3)

/-- Packets of another device that a version 2 link does not carry (R317): checkpoint and twin traffic, and what of a collective its header
shows: contributions with a tree node, and the opens of an exchange, which are 8 bytes long. -/
def needsV3 (p : List Byte) : Bool :=
  let type := natAt p 0 1 % 16
  type == pktCheckpoint || type == pktTwin || (type == pktData && natAt p 24 4 != 0) || (type == pktOpen && p.length == 40)

/-- A port comes up or is marked down as its training ends; a group without light does not train (R453). What waited leaves, but for what a
version 2 link does not carry (R317, R318, R321); the device floods a notice (R466) and posts the port's event. -/
def State.trainPort (s : State) (n : Nat) (t : TrainResult) : State :=
  match (s.port n).trainOutcome { t with groups := t.groups &&& s.pow.litGroups n } with
  | .inr reason => s.markDown n reason
  | .inl (groups, v3) =>
    let k := ((List.range 4).filter fun g => bitAt groups g).length
    let s := s.modPort n fun q =>
      { q with state := .up, width := BitVec.ofNat 2 (4 - k), v3, degraded := decide (k < 4), reason := 0,
               groups := BitVec.ofNat 4 groups, rxSeq := 0, txSeq := 0, kept := [], replaySeq := 0, asking := false, replays := 0,
               missed := if q.monitored then q.missed else 0, monitored := true, starved := false }
    let s := (s.dropWaiting n fun w => !v3 && w.v3).flushPort n
    ((s.notice n).postPort n).checkReach

/-- R316 to R318. The training or retraining of a port ends. -/
def execPortTrained (port : Fin 8) (result : TrainResult) (s : State) : Host.Outcome State Fault Refusal :=
  let n := port.val
  if (s.port n).state = .training || (s.port n).state = .retraining then .next (s.trainPort n result) else .next s

/-- R318. A write of FAB_PORT_n_CTRL.retrain during Imago. -/
def execPortRetrain (port : Fin 8) (s : State) : Host.Outcome State Fault Refusal :=
  if s.pow.boot = .imago then .next (s.retrain port.val) else .next s

/-- A dimension of size 1 leaves both its ports untrained (R310). -/
def Fabric.usesPort (f : Fabric) (n : Nat) : Bool := decide (6 ≤ n) || decide (1 < f.dims.getD (n / 2) 1)

/-- The device that a port reaches as its neighbour. -/
def Fabric.reaches (f : Fabric) (own n : Nat) : Nat :=
  if n = 6 then bitsAt f.pair.toNat 0 15 else if n = 7 then bitsAt f.pair.toNat 16 15 else f.neighbourOf own n

/-- The device's job lists the rank that a port reaches as a neighbour (R319); a job lasts until it ends or is aborted (R19). -/
def State.jobReaches (s : State) (n : Nat) : Bool :=
  s.job.state != .none && s.job.state != .ended && s.job.rankTable.contains (s.fab.reaches s.ownAddr.toNat n)

/-- R319. Setting enable starts a full training; firmware brings a port that is down back only while no job on the device lists the
rank that it reaches. -/
def execPortEnable (port : Fin 8) (s : State) : Host.Outcome State Fault Refusal :=
  let n := port.val
  if (s.port n).enable || ((s.port n).state = .down && s.pow.boot = .imago && s.jobReaches n) then .next s
  else
    let train := s.fab.usesPort n && ((s.port n).state = .off || (s.port n).state = .down)
    .next (s.modPort n fun q =>
      { q with enable := true, state := if train then .training else q.state, reason := if train then 0 else q.reason, monitored := false })

/-- R319. Clearing enable takes the port out of use with reason "disabled". -/
def execPortDisable (port : Fin 8) (s : State) : Host.Outcome State Fault Refusal :=
  let n := port.val
  if !(s.port n).enable then .next s
  else
    let s := s.modPort n fun q => { q with enable := false }
    .next (if (s.port n).state = .off || (s.port n).state = .down then s else s.markDown n 5)

/-! ### Heartbeats (R335) -/

/-- The state a heartbeat carries. -/
def State.beatState (s : State) : Nat :=
  if s.pow.boot ≠ .imago then 0 else match s.job.state with
    | .running => 2
    | .paused => 3
    | _ => 1

/-- What a heartbeat flit carries: the sender's address, its state and the count; their order is the model's own (log 65). -/
def beatBody (own state count : Nat) : List Byte := bytesOf 2 own ++ bytesOf 1 state ++ bytesOf 4 count

/-- R335. Every 250 microseconds each up port sends a heartbeat flit, which its link layer numbers and keeps as any other (R313), and each
monitored port counts one more period without one. -/
def execHeartbeatSend (s : State) : Host.Outcome State Fault Refusal :=
  let ups := (List.range 8).filter fun n => (s.port n).state == .up && s.shines n
  let body := beatBody s.ownAddr.toNat s.beatState (s.fab.heartbeats % 4294967296)
  let s := { s with out := s.out ++ ups.map fun n => OutMsg.heartbeat n s.ownAddr s.beatState (s.fab.heartbeats % 4294967296) }
  let s := ups.foldl (fun (s : State) n => s.modPort n fun q => q.number [body]) s
  let count (q : Port) : Port := if q.monitored && q.live then { q with missed := min 8 (q.missed + 1) } else q
  .next { s with fab := { s.fab with heartbeats := s.fab.heartbeats + 1, ports := s.fab.ports.map count } }

/-- R335. A valid heartbeat resets the port's missed count; a retraining port receives none. -/
def execHeartbeatReceive (port : Fin 8) (neighbour : BitVec 15) (state : BitVec 2) (count : Word) (s : State) :
    Host.Outcome State Fault Refusal :=
  let _ := count
  if (s.port port.val).state ≠ .up then .next s
  else .next (s.modPort port.val fun q => { q with neighbour, nstate := state, missed := 0 })

/-- R335. Eight silent periods: the link has failed. -/
def execHeartbeatLoss (port : Fin 8) (s : State) : Host.Outcome State Fault Refusal :=
  let q := s.port port.val
  if q.monitored && q.live && decide (8 ≤ q.missed) then .next (s.markDown port.val 3) else .next s

/-! ### Control plane (R336, R466) -/

/-- A control-plane message on a port is new: the port is up and its (origin, sequence) pair is not in the table. -/
def State.freshCtl (s : State) (port : Nat) (ctl : Ctl) : Bool :=
  (s.port port).state == .up && !s.fab.seen.contains (ctl.origin.toNat, ctl.seq) && decide (ctl.hops < 48)

/-- Remember a message and send it on (R336). -/
def State.relayCtl (s : State) (port kind : Nat) (ctl : Ctl) (payload : List Byte) : State :=
  ({ s with fab := s.fab.remember ctl.origin.toNat ctl.seq }).forward port kind ctl payload

/-- R466. A link-state notice updates the down map, then goes on. -/
def execLinkStateNotice (port : Fin 6) (ctl : Ctl) (payload : List Byte) (s : State) : Host.Outcome State Fault Refusal :=
  if !s.freshCtl port.val ctl then .next s
  else
    let n := natAt payload 2 1
    let link : Option LinkState := match natAt payload 3 1 with
      | 1 => some .down
      | 2 => some .v3
      | 3 => some .v2
      | _ => none
    match link with
    | none =>
      .next { s with fab := { s.fab.remember ctl.origin.toNat ctl.seq with noticeDrops := s.fab.noticeDrops + 1 } }
    | some l =>
      let s := if n < 6 then { s with fab := s.fab.setLink (natAt payload 0 2 % 32768) n l } else s
      .next ((s.relayCtl port.val 1 ctl payload).checkReach)

/-! ### Packets on arrival (R321) -/

/-- A packet header that R321 lets pass. -/
def headerOk (p : List Byte) : Bool :=
  let type := natAt p 0 1 % 16
  decide (32 ≤ p.length) && natAt p 28 4 == (crc32c (sub p 0 28)).toNat && decide (1 ≤ type) && decide (type ≤ 6)
    && natAt p 0 1 / 64 == 0 && decide (natAt p 1 1 % 8 < 6) && !bitAt (natAt p 1 1) 7 && !bitAt (natAt p 2 2) 15
    && !bitAt (natAt p 4 2) 15 && decide (natAt p 6 2 ≤ 4096) && p.length == 32 + natAt p 6 2 && natAt p 24 4 / 2 ^ 30 == 0

/-- The channel's receive buffer at a port has room (R314): 512 KiB each for VC 1 and VC 2. What VC 0 and VC 3 bring is used at once. -/
def Fabric.rxRoom (f : Fabric) (port vc : Nat) : Bool :=
  decide ((f.rxBuf.filter fun h => h.port == port && h.vc == vc).foldl (fun a h => a + h.bytes.length) 0 < 524288)

/-- The flooding header of a control-plane message, as `State.controlPackets` lays it out. -/
def ctlOf (payload : List Byte) : Ctl := ⟨BitVec.ofNat 15 (natAt payload 2 2), natAt payload 4 4, natAt payload 1 1⟩

/-- R321. A packet arrives: it is dropped and counted, forwarded on its next hop, or meant for this device; what it carries
then takes effect with the block, open, acknowledge or message it completes. A control-plane message of a reserved kind is dropped and
counted (R336); no data arrives where the channel's buffer is full, since the port has returned no credits (R326). -/
def execPacketReceive (port : Fin 8) (packet : List Byte) (s : State) : Host.Outcome State Fault Refusal :=
  let n := port.val
  let drop : State := s.modPort n fun q => { q with drop := q.drop + 1 }
  let dst := natAt packet 2 2
  let type := natAt packet 0 1 % 16
  let own := s.ownAddr.toNat
  let runs := (s.job.state = .running || s.job.state = .paused) && natAt packet 8 4 == s.job.id.toNat
  if (s.port n).state ≠ .up || (onData packet && !s.fab.rxRoom n (bitsAt (natAt packet 0 1) 4 2)) then .next s
  else if !headerOk packet then .next drop
  -- the control plane, and a partner's checkpoint blocks, come whatever job runs here (R336, R378)
  else if !runs && type != pktControl && type != pktCheckpoint then .next drop
  else if type = pktControl && (natAt packet 32 1 == 0 || decide (6 ≤ natAt packet 32 1)) then
    let ctl := ctlOf (packet.drop 32)
    .next (if s.freshCtl n ctl then
        { s with fab := { s.fab.remember ctl.origin.toNat ctl.seq with noticeDrops := s.fab.noticeDrops + 1 } }
      else s)
  else if dst = own then .next s
  else
    match s.fab.nextPort own dst (natAt packet 1 1 % 8) with
    | none => .next drop
    | some next =>
      if (s.port next).live && (!needsV3 packet || (s.port next).v3) then
        .next (s.sendPackets (some next) (needsV3 packet) (some n) [s.fab.onHop own next packet])
      else .next drop

/-! ### Receiving a SEND (R324, R327) -/

/-- The device takes packets of a job: it runs here (R321). -/
def State.takes (s : State) (job : Word) : Bool :=
  s.pow.boot == .imago && s.job.id == job && (s.job.state == .running || s.job.state == .paused)

def State.modRx (s : State) (origin : BitVec 15) (opId : Nat) (f : RxOp → RxOp) : State :=
  { s with fab := { s.fab with rx := s.fab.rx.map fun o => if o.origin = origin && o.opId = opId then f o else o } }

/-- How the write of a received block ends. -/
inductive Received where
  | written
  | mismatch (expected computed : Word)
  | bad
  /-- For the guard, or for its virtual core to become resident. -/
  | wait (guard : Bool)

/-- Write block `index` of a SEND through its destination list (R327, R207). Params are bytes 4 to 31 of the stage entry. -/
def State.receiveBlock (s : State) (params : List Byte) (index : Nat) (b : Block) : State × Received :=
  let num := natAt params 2 2
  let list := locOf params 12
  if crc32c b.data ≠ b.chk then (s, .mismatch b.chk (crc32c b.data))
  else if natAt params 8 4 ≤ index then (s, .bad)
  else
    let p := (s.findV num).getD 0
    let needsCore (rid : Nat) : Bool := (s.placeOf rid 0).1 && (s.findV num).isNone
    if needsCore list.1 then (s, .wait false)
    else match s.regionGet p num list.1 (list.2 + 64 * index : Nat) 64 with
      | (s, .ok raw) => match Desc.parse raw with
        | none => (s, .bad)
        | some d =>
          let kindOk := (s.job.region d.region).any fun r => r.kind == .tile || r.kind == .staging || r.kind == .gddr
          if !kindOk || d.len ≠ b.data.length then (s, .bad)
          else if needsCore d.region then (s, .wait false)
          else if !d.gen && d.chk ≠ b.chk then (s, .mismatch d.chk b.chk)
          else
            let ws := d.writes index b.id (list.1, list.2 + 64 * index) b.data false
            if (s.guardedWrite b.step.toNat ws).isSome then (s, .wait true)
            else
              let r := ws.foldl (fun (st : State × Bool) w =>
                if !st.2 then st
                else match st.1.regionPut p num w.region w.off w.bytes with
                  | (s, .ok _) =>
                    let q := s.placeOf w.region w.off
                    (if q.1 then s else s.lateWrite b.step.toNat q.2.toNat, true)
                  | (s, _) => (s, false)) (s, true)
              (r.1, if r.2 then .written else .bad)
      | (s, _) => (s, .bad)

/-- An open collective with a key, made when nothing of it is known yet. -/
def State.openColl (s : State) (group cid : Nat) (step : Word) : State := match s.coll group step.toNat cid with
  | some _ => s
  | none =>
    let c : Coll := { group, step, cid, core := none, task := 0, stage := 0, params := [], forms := [], arrival := false, contribs := [], opens := [],
                      ownDone := false, delivered := 0, no := 0 }
    { s with fab := { s.fab with colls := s.fab.colls ++ [c] } }

/-- Another member's block or open shows a form of the collective (R329): a member whose own stage says otherwise detects the difference, and
its task aborts. -/
def State.showForm (s : State) (group step cid : Nat) (form : CollForm) : State :=
  let s := s.modColl group step cid fun c => { c with forms := if c.forms.contains form then c.forms else c.forms ++ [form] }
  match s.coll group step cid with
  | none => s
  | some c => match c.core with
    | none => s
    | some p => match s.task (Fin.ofNat 20 p) c.task with
      | some t =>
        if form = (CollParams.of c.params).form || t.abort.isSome then s
        else ({ s, p := Fin.ofNat 20 p, t : TaskRun }.fail c.stage noDesc 0 3).done
      | none => s

/-- A block for a collective of this rank: held as the contribution of a position (R329). -/
def State.receiveContrib (s : State) (group cid position index : Nat) (form : CollForm) (b : Block) (flags : BitVec 3) : State :=
  let fl : ArithFlags := ⟨flags[0], flags[1], flags[2], false⟩
  ((s.openColl group cid b.step).modColl group b.step.toNat cid fun c => { c with contribs := c.contribs ++ [⟨position, index, b, fl⟩] }).showForm
    group b.step.toNat cid form

/-- The virtual channel by which a block from `origin` came in on a port (R314): the neighbour chose it for this hop. -/
def State.rxVc (s : State) (origin port : Nat) : Nat :=
  if 6 ≤ port then 1 else s.fab.hopVc origin (s.fab.neighbourOf s.ownAddr.toNat port) (if port % 2 = 0 then port + 1 else port - 1)

/-- The receive buffer that a block is in. -/
def State.rxPlace (s : State) (origin opId index : Nat) : Nat × Nat :=
  let port := (Config.rxPort origin opId index).val
  (port, s.rxVc origin port)

/-- A block that the guard holds stays in the port's receive buffer of its channel (R326). The hold counts when it begins. -/
def State.keepRx (s : State) (h : HeldRx) (first : Bool) : State :=
  if s.fab.rxBuf.any (fun g => g.origin == h.origin && g.opId == h.opId && g.index == h.index) then s
  else
    let s := { s with fab := { s.fab with rxBuf := s.fab.rxBuf ++ [h] } }
    if first then s.countHold else s

/-- A block of a SEND is written, or answered, or waits (R324, R326, R327). -/
def State.takeBlock (s : State) (h : HeldRx) (first : Bool) : State :=
  let b := Block.ofBytes h.bytes
  let ack (s : State) (outcome : Nat) (x y : Word) : State := s.sendAck h.origin.toNat h.opId.toNat h.index.toNat outcome x y
  match s.fab.rx.find? fun o => o.origin == h.origin && o.opId == h.opId.toNat with
  | none => ack s 3 0 0
  | some o =>
    if o.written.contains h.index.toNat then ack s 1 0 0
    else match s.receiveBlock o.params h.index.toNat b with
      | (s, .wait guard) => if guard then (s.modRx h.origin h.opId.toNat fun o => { o with guarded := true }).keepRx h first else s
      | (s, .bad) => ack s 3 0 0
      | (s, .mismatch x y) => ack s 2 x y
      | (s, .written) =>
        let all := o.written.length + 1 == natAt o.params 8 4
        let s := s.modRx h.origin h.opId.toNat fun o => { o with written := o.written ++ [h.index.toNat], signalled := all, guarded := s.fab.rxBuf.any fun g => g.origin == h.origin && g.opId == h.opId }
        let s := ack s 1 0 0
        if all then s.addTokenV (natAt o.params 2 2) (natAt o.params 4 1) (natAt o.params 6 2) else s

/-- Blocks that wait in the receive buffers are tried again (R326); those of a job that runs here no longer are dropped, packet by packet
(R321). -/
def State.retryRx (s : State) : State :=
  let waiting := s.fab.rxBuf
  waiting.foldl (fun (s : State) h =>
    if s.takes h.job then s.takeBlock h false
    else s.modPort h.port fun q => { q with drop := q.drop + (h.bytes.length + 4095) / 4096 }) { s with fab := { s.fab with rxBuf := [] } }

/-- R324, R327, R329. A whole block arrives: checked, written or held for its collective, and acknowledged. A block known
already is acknowledged again and not written again. While the guard holds its granule it waits in the port's buffer, and with
that full nothing more comes in on its channel (R326). -/
def execBlockReceive (origin : BitVec 15) (job opId index : Word) (target : BlockTarget) (block : List Byte) (flags : BitVec 3)
    (s : State) : Host.Outcome State Fault Refusal :=
  let b := Block.ofBytes block
  let ack (s : State) (outcome : Nat) (x y : Word) : State := s.sendAck origin.toNat opId.toNat index.toNat outcome x y
  let (port, vc) := s.rxPlace origin.toNat opId.toNat index.toNat
  if !s.takes job || s.job.replay || !s.fab.rxRoom port vc then .next s
  else match target with
    | .send => .next (s.takeBlock ⟨port, vc, origin, job, opId, index, target, block, flags⟩ true)
    | .coll group cid position form =>
      let member := ((s.job.members group).getD []).getD position 65536
      let key := (origin.toNat, opId.toNat, index.toNat)
      if s.fab.collSeen.contains key then .next (ack s 1 0 0)
      else if crc32c b.data ≠ b.chk then .next (ack s 2 b.chk (crc32c b.data))
      else if s.job.addrOf member ≠ origin.toNat || s.job.position group = none then .next (ack s 3 0 0)
      else
        let s := { s with fab := { s.fab with collSeen := s.fab.collSeen ++ [key] } }
        .next (ack (s.receiveContrib group cid position index.toNat form b flags) 1 0 0)

/-- R327, R334. The open of a SEND or of an exchange arrives and is acknowledged. -/
def execOpenReceive (origin : BitVec 15) (job opId : Word) (target : BlockTarget) (params : List Byte) (s : State) :
    Host.Outcome State Fault Refusal :=
  if !s.takes job || s.job.replay then .next s
  else
    let ack (s : State) : State := s.sendAck origin.toNat opId.toNat 0xFFFFFFFF 1 0 0
    match target with
    | .send =>
      if s.fab.rx.any fun o => o.origin == origin && o.opId == opId.toNat then .next (ack s)
      else
        let o : RxOp := { origin, job, opId := opId.toNat, target, params, written := [], signalled := false, guarded := false }
        .next (ack { s with fab := { s.fab with rx := s.fab.rx ++ [o] } })
    | .coll group cid position form =>
      let step := natAt params 4 4
      let rows := natAt params 0 4
      let key := (origin.toNat, opId.toNat, 0xFFFFFFFF)
      if s.fab.collSeen.contains key then .next (ack s)
      else
        let s := { s with fab := { s.fab with collSeen := s.fab.collSeen ++ [key] } }.openColl group cid (BitVec.ofNat 32 step)
        .next (ack ((s.modColl group step cid fun c =>
          if c.opens.any fun o => o.1 == position then c else { c with opens := c.opens ++ [(position, rows)] }).showForm group step cid form))

/-! ### Acknowledges and resends (R324, R325) -/

/-- The run over the task that an operation belongs to. -/
def State.txRun (s : State) (o : TxOp) : Option TaskRun :=
  let p := Fin.ofNat 20 o.core
  (s.task p o.task).map fun t => { s, p, t }

/-- The task of an operation aborts, where it is still accepted and has not aborted. -/
def State.txFail (s : State) (o : TxOp) (desc id cause : Nat) (own got : Word) : State := match s.txRun o with
  | some r => (r.fail o.stage desc id cause 0 own got).done
  | none => s

/-- An operation whose task has ended is over once nothing of it awaits an acknowledge. -/
def State.sweepTx (s : State) : State :=
  { s with fab := { s.fab with tx := s.fab.tx.filter fun o => (s.txRun o).isSome || !o.opened || o.awaits } }

/-- R325. An acknowledge completes a block or an open, or aborts the task. A replay job reads no port (R282). -/
def execAcknowledgeReceive (opId index : Word) (outcome : AckOutcome) (s : State) : Host.Outcome State Fault Refusal :=
  match (s.fab.tx.find? fun o => o.opId == opId.toNat).filter fun _ => !s.job.replay with
  | none => .next s
  | some o =>
    let isOpen := index = 0xFFFFFFFF
    let id := match o.blocks.find? fun b => b.index == index.toNat with
      | some b => b.block.id
      | none => 0
    let desc := if isOpen then noDesc else index.toNat
    let settled := s.modTx opId.toNat fun o => o.drop index.toNat
    match outcome with
    | .badDestination => .next (settled.txFail o desc id 2 0 0).sweepTx
    | .mismatch x y => .next (settled.txFail o desc id 1 x y).sweepTx
    | .written =>
      if isOpen then
        let s := s.modTx opId.toNat fun o => { o with opened := true }
        match s.txRun o with
        | none => .next s.sweepTx
        | some r => if r.t.abort.isSome then .next s else .next (r.chain o.stage)
      else
        let o' : TxOp := { o with blocks := o.blocks.map fun b => if b.index = index.toNat then { b with acked := true } else b }
        let s := s.modTx opId.toNat fun _ => o'
        -- the blocks that a SEND delivered count in list order (R216, R327)
        match o.target, s.txRun o with
        | .send, some r => .next { r with t := { r.t with delivered := (o'.blocks.takeWhile fun (b : TxBlock) => b.acked).length } }.done
        | _, _ => .next s.sweepTx

/-- Resends before the task aborts (FAB_E2E). -/
def Fabric.maxResends (f : Fabric) : Nat := bitsAt f.e2e.toNat 16 4

/-- R325. Nothing came within resend_us: resend by a fresh route, or abort with cause 0x07. An aborted SEND issues nothing more
and waits no longer for that block (R216); contributed blocks stand, whatever became of their task (R329). -/
def execResendTimeout (opId index : Word) (s : State) : Host.Outcome State Fault Refusal :=
  match s.fab.tx.find? fun o => o.opId == opId.toNat with
  | none => .next s
  | some o =>
    let aborted := (s.txRun o).any fun r => r.t.abort.isSome
    let v3 := match o.target with
      | .send => false
      | .coll _ _ _ _ => true
    let counted (s : State) : State := { s with fab := { s.fab with resends := s.fab.resends + 1 } }
    if index = 0xFFFFFFFF then
      let lost := s.modTx opId.toNat fun o => { o with opened := true }
      if o.opened || aborted && !v3 then .next s
      else if s.fab.maxResends ≤ o.openResends then .next (lost.txFail o noDesc 0 7 0 0).sweepTx
      else
        let s := s.modTx opId.toNat fun o => { o with openResends := o.openResends + 1 }
        match s.sendOpen o.dest o.opId v3 o.params with
        | some s => .next (counted s)
        | none => .next (lost.txFail o noDesc 0 7 0 0).sweepTx
    else match o.blocks.find? fun b => b.index == index.toNat && b.sent && !b.acked with
      | none => .next s
      | some b =>
        let lost (s : State) : State := s.modTx opId.toNat fun o => o.drop index.toNat
        if aborted && !v3 then .next (lost s)
        else if s.fab.maxResends ≤ b.resends then .next ((lost s).txFail o index.toNat b.block.id 7 0 0).sweepTx
        else
          let s := s.modTx opId.toNat fun o =>
            { o with blocks := o.blocks.map fun x => if x.index = b.index then { x with resends := x.resends + 1 } else x }
          match s.sendBlock o.dest o.opId b.index o.node v3 b.block with
          | some s => .next (counted s)
          | none => .next ((lost s).txFail o index.toNat b.block.id 7 0 0).sweepTx

/-! ### Reductions (R331 to R333) -/

/-- Tree of R331 over contributions in position order: the left part takes ceil(n / 2). -/
def treeFold {α : Type} (combine : α → α → α) : Nat → List α → Option α
  | 0, xs => xs.head?
  | fuel + 1, xs => match xs with
    | [] => none
    | [x] => some x
    | xs =>
      let k := (xs.length + 1) / 2
      match treeFold combine fuel (xs.take k), treeFold combine fuel (xs.drop k) with
      | some a, some b => some (combine a b)
      | a, b => a.or b

/-- A node of the tree over one element: an FP32 pattern or an exact integer, with the flags of its subtree. -/
abbrev Node := (Nat ⊕ Int) × ArithFlags

/-- leaf of R331. -/
def leafNode (f : Fmt) (ftz : Bool) (bits : Nat) : Node :=
  if f = .int32 then (.inr (signedOf 32 bits), .none)
  else
    let v := f.iflush ftz (f.value true bits)
    (.inl (fp32.rne false v.1).1, v.2)

/-- combine of R331. -/
def combineNode (red : Nat) (ftz : Bool) (a b : Node) : Node :=
  match a.1, b.1 with
  | .inr x, .inr y => (.inr (if red = 0 then x + y else if red = 1 then max x y else min x y), a.2.or b.2)
  | .inl x, .inl y =>
    if red = 0 then let r := addRne fp32 ftz x y; (.inl r.1, (a.2.or b.2).or r.2)
    else
      let vx := fp32.decode x
      let vy := fp32.decode y
      let takeY := !vx.isNan && (vy.isNan || if red = 1 then below vx vy else below vy vx)
      (.inl (if takeY then y else x), a.2.or b.2)
  | _, _ => (a.1, a.2.or b.2)

/-- finish of R331: bits in the out format. -/
def finishNode (ofmt : Fmt) (sat ftz : Bool) (n : Node) : Rounded :=
  match n.1 with
  | .inr x => (patternOf 32 (clampSigned 32 x), n.2.or (.onlyIsat (clampSigned 32 x != x)))
  | .inl x =>
    let r := convert ofmt true .rne sat ftz (fp32.decode x)
    (r.1, n.2.or r.2)

/-- One reduced block from the contributions in position order, or in arrival order for CSUM.U (R333); each is judged in its own format
(R331). -/
def reduceBlock (c : CollParams) (arrival ftz : Bool) (cs : List Contrib) : List Byte × ArithFlags :=
  let n := match cs with
    | x :: _ => x.block.data.length * 8 / x.block.fmt.bits
    | [] => 0
  let cols := cs.map fun x => (x.block.fmt.unpack n x.block.data).map (leafNode x.block.fmt ftz)
  let one (e : Nat) : Rounded :=
    let xs := cols.map fun col => col.getD e (.inr 0, .none)
    let node := if arrival then (match xs with
        | [] => none
        | x :: rest => some (rest.foldl (combineNode c.red ftz) x))
      else treeFold (combineNode c.red ftz) xs.length xs
    finishNode c.ofmt c.sat ftz (node.getD (.inr 0, .none))
  let rs := (List.range n).map one
  let fl := cs.foldl (fun (a : ArithFlags) x => a.or x.flags) .none
  (c.ofmt.pack (rs.map (·.1)), rs.foldl (fun a r => a.or r.2) fl)

/-- Insert a contribution by ascending (position, index). -/
def insertContrib (x : Contrib) : List Contrib → List Contrib
  | [] => [x]
  | y :: ys => if x.position < y.position || (x.position = y.position && x.index < y.index) then x :: y :: ys else y :: insertContrib x ys

/-- Contributions in (position, index) order. -/
def sortContribs (xs : List Contrib) : List Contrib := xs.foldr insertContrib []

/-- The key of a block that this rank receives for a task's COLL stage (R281, Table 9.5); the descriptor index is the block's. -/
def Task.rxKey (t : Task) (stage : Nat) (x : Contrib) : TwinRec :=
  ⟨t.step, t.vcore, t.strand, t.taskNo, stage, x.index, x.block.id, x.block.chk⟩

/-- The blocks received for a collective go to the capture region, each with its header and its sender's position (R281). -/
def TaskRun.captureRx (r : TaskRun) (c : Coll) (pos : Nat) : TaskRun :=
  if r.s.job.replay then r
  else { r with s := (c.contribs.filter fun x => x.position != pos).foldl (fun (s : State) x =>
    s.captureBlock (r.t.rxKey c.stage x) true (x.block.header ++ bytesOf 2 x.position ++ bytesOf 1 x.flags.bits) x.block.data) r.s }

/-- Contributions of a replay job: its own, and the captured received blocks of the same key (R282), with the address of a poisoned line
among these. -/
def State.replayContribs (s : State) (t : Task) (c : Coll) : State × List Contrib × Option Nat :=
  let (s, step) := s.captured c.step.toNat
  let mine := step.filter fun e => e.received && e.key.source == t.vcore && e.key.strand == t.strand && e.key.task == t.taskNo && e.key.stage == c.stage
  (s, c.contribs ++ mine.map fun e =>
      { position := natAt e.header 32 2, index := e.key.desc, block := Block.ofBytes (e.header.take 32 ++ e.payload),
        flags := .ofBits (natAt e.header 34 1) },
    mine.findSome? (·.bad))

/-- Rows that position `q` announced (R334). -/
def Coll.announced (c : Coll) (q : Nat) : Nat := ((c.opens.find? fun o => o.1 == q).map (·.2)).getD 0

/-- Is contribution `x` part of this member's output? -/
def CollParams.mine (c : CollParams) (pos : Nat) (x : Contrib) : Bool :=
  if c.op = 1 || c.op = 3 then x.index / c.m == pos else true

/-- Every member's contribution is here (R329). -/
def Coll.ready (c : Coll) (prm : CollParams) (g pos : Nat) (replay : Bool) (cs : List Contrib) : Bool :=
  c.ownDone && (List.range g).all fun q =>
    let have_ := (cs.filter fun x => x.position == q && prm.mine pos x).length
    q == pos || (if prm.op = 4 then (replay || (c.opens.any (·.1 == q))) && decide (c.announced q ≤ have_)
      else decide (prm.m ≤ have_))

/-- A collective's blocks go to the next stage, or the stage begins to write them through its output list (R207, R329). -/
def TaskRun.deliverColl (r : TaskRun) (i : Nat) (outs : List Block) : TaskRun :=
  if !r.isLast i then
    ((outs.foldl (fun r b => r.push i b) r).modStage i fun st => { st with phase := 5 }).endStage i
  else match r.s.job.mustBeLocal [(locOf (r.stage i).raw 24).1] with
    | some a => r.fail i noDesc 0 2 a
    | none => r.modStage i fun st =>
        { st with phase := 4, inq := outs, ended := true, descs := [], dropped := 0, next := 0, off := 0, got := [], fin := 0 }

/-- The outputs of a data-moving or reducing collective, or none when members differ (R329, R330). -/
def collOutputs (c : CollParams) (arrival ftz : Bool) (g pos : Nat) (step : Word) (cs : List Contrib) : Option (List Block × ArithFlags) :=
  let own := cs.filter fun x => x.position == pos
  let at_ (q k : Nat) : Option Contrib := cs.find? fun x => x.position == q && x.index == k
  -- a difference that shows here: a block's length, an index beyond m, and a format that no common op and out format allows
  let same (k : Nat) (x : Contrib) : Bool := match own.find? fun o => o.index == k with
    | some o => o.block.data.length == x.block.data.length && (o.block.fmt == x.block.fmt
        || (decide (c.op ≤ 1) && o.block.fmt.bits == x.block.fmt.bits && o.block.fmt != .int32 && c.fmtOk x.block.fmt))
    | none => false
  let limit := if c.op = 0 || c.op = 2 then c.m else g * c.m
  if cs.any fun x => decide (limit ≤ x.index) || (c.mine pos x && !same x.index x) then none
  else if c.op ≤ 1 then
    let first := if c.op = 0 then 0 else pos * c.m
    let outs := (List.range c.m).map fun j =>
      let k := first + j
      let group := if arrival then cs.filter fun x => x.index == k else (List.range g).filterMap fun q => at_ q k
      let base := ((at_ pos k).map (·.block)).getD default
      let (data, fl) := reduceBlock c arrival ftz group
      ({ base with fmt := c.ofmt, step, data, chk := crc32c data }, fl)
    some (outs.map (·.1), outs.foldl (fun a o => a.or o.2) .none)
  else
    let ext (k : Nat) : Nat := ((at_ pos k).map (·.block.ext0)).getD 1
    some ((List.range g).flatMap fun q => (List.range c.m).map fun j =>
      let k := if c.op = 2 then j else pos * c.m + j
      { ((at_ q k).map (·.block)).getD default with ext0 := ext k, step }, .none)

/-- The writes of an exchange's receive side and its rows, or its abort (R334), by the record and the receive descriptor it has read. -/
def TaskRun.exchangePlan (r : TaskRun) (i g : Nat) (cs : List Contrib) : (List Put × Nat) ⊕ (Nat × Nat) :=
  let st := r.stage i
  match st.exchange with
  | none => .inr (3, 0)
  | some (d, _) =>
    let rows := sortContribs cs
    let counts : Put := ⟨noDesc, 0, d.counts.1, (d.counts.2 : Int), (List.range g).flatMap fun q => bytesOf 4 (rows.filter fun x => x.position == q).length⟩
    match r.s.job.mustBeLocal ([d.counts.1] ++ if d.cap = 0 then [] else [d.area.1, d.index.1]) with
    | some a => .inr (2, a)
    | none =>
      if d.cap < rows.length then .inr (8, 0)
      else if d.cap = 0 then .inl ([counts], 0)
      else match Desc.parse (sub st.record (48 + 4 * d.t * d.k) 64) with
        | none => .inr (3, 0)
        | some a =>
          let len := a.fmt.packedLen (a.e 0)
          let own := (st.first.map (·.2)).getD len
          let data := rows.flatMap (fun x => x.block.data) ++ zeros (len * (d.cap - rows.length))
          if a.e 1 ≠ d.cap || a.e 2 ≠ 1 || a.e 3 ≠ 1 || own ≠ len || rows.any (fun x => x.block.data.length != len) || data.length ≠ a.len then .inr (3, 0)
          else match r.s.job.mustBeLocal [a.region] with
            | some b => .inr (2, b)
            | none =>
              let index := rows.zipIdx.map fun x =>
                (⟨noDesc, 0, d.index.1, ((d.index.2 + 8 * x.2 : Nat) : Int), bytesOf 4 x.1.position ++ bytesOf 4 x.1.index⟩ : Put)
              .inl (a.writes 0 a.id d.area data true ++ index ++ [counts], rows.length)

/-- A contribution whose check value its bytes do not have, as a consumer of it recomputes it (R204). -/
def unsound (cs : List Contrib) : Option Contrib := cs.find? fun x => !x.block.sound

/-- R331, R334. Every member has contributed: the engine finishes the collective and delivers this rank's part. -/
def execCollectiveComplete (group step cid : Nat) (s : State) : Host.Outcome State Fault Refusal :=
  match s.coll group step cid with
  | none => .next s
  | some c => match c.core with
    | none => .next s
    | some pn =>
      let p := Fin.ofNat 20 pn
      match s.task p c.task, s.job.position group with
      | some t, some pos =>
        let prm := CollParams.of c.params
        let g := s.job.groupSize group
        let (s', cs, poisoned) := if s.job.replay then s.replayContribs t c else (s, c.contribs, none)
        let r : TaskRun := { s := s', p, t }
        if t.abort.isSome || (r.stage c.stage).phase ≠ 3 || !c.ready prm g pos s.job.replay cs then .next s
        else match poisoned, unsound cs with
        | some a, _ => .next (r.fail c.stage noDesc 0 4 a).done
        | none, some x => .next (r.fail c.stage x.index x.block.id 1 0 x.block.chk (crc32c x.block.data)).done
        | none, none =>
          let r := { r with s := r.s.dropColl group step cid }
          if prm.op = 4 then match r.exchangePlan c.stage g cs with
            | .inr e => .next (r.fail c.stage noDesc 0 e.1 e.2).done
            | .inl (ws, n) => .next ((r.captureRx c pos).modStage c.stage fun st =>
                { st with phase := 4, fin := n, xfers := s.writeXfers (ws.map fun w => (w, none)) }).done
          else match collOutputs prm c.arrival s.job.ftz g pos t.step cs with
            | none => .next (r.fail c.stage noDesc 0 3).done
            | some (outs, fl) =>
              let r := ((r.captureRx c pos).flags fl).deliverColl c.stage outs
              .next (if r.t.abort.isSome then r.done else r.chain (c.stage + 1))
      | _, _ => .next s

end Sys2Proof.Machine
end

