-- ==== Sys2Proof/Machine/Container.lean ====
section
/-! DEFINITION. The parts of the two container standards that the ingest front end supports (R240, R241): MPEG-2 Transport Stream
packets and PES packets (ISO/IEC 13818-1), and boxes, fragments and sample entries of the ISO Base Media File Format (ISO/IEC
14496-12). -/

namespace Sys2Proof.Machine

/-- An access unit as it leaves a container; a damaged one ends where the damage was met. -/
structure AccessUnit where
  bytes : List Byte
  damaged : Bool
  deriving DecidableEq, Repr, Inhabited

/-- A big-endian number of `n` bytes at `off`, as both container standards store numbers. -/
def beAt (b : List Byte) (off n : Nat) : Nat := (sub b off n).foldl (fun a x => 256 * a + x.toNat) 0

/-! ### MPEG-2 Transport Stream -/

/-- What the reassembly of one PID holds: the counter of the last packet, the PES packet in progress and whether it is damaged, and
the units finished, newest first. -/
structure PesState where
  counter : Option Nat
  pes : Option (List Byte)
  hurt : Bool
  units : List AccessUnit
  deriving DecidableEq, Repr

/-- The payload of a PES packet that begins with a packet_start_code_prefix, and whether its length field agrees. -/
def pesPayload (p : List Byte) : Option (List Byte × Bool) :=
  if beAt p 0 3 ≠ 1 || p.length < 9 then none
  else
    let len := beAt p 4 2
    let body := p.drop (9 + beAt p 8 1)
    let fits := len = 0 || p.length = 6 + len
    some (if len = 0 then body else body.take (6 + len - 9 - beAt p 8 1), fits)

/-- The PES packet in progress ends, whole or at a damage. -/
def PesState.flush (st : PesState) (damage : Bool) : PesState :=
  match st.pes with
  | none => { st with hurt := false }
  | some p => match pesPayload p with
    | none => { st with pes := none, hurt := false }
    | some (body, fits) => { st with pes := none, hurt := false, units := ⟨body, st.hurt || damage || !fits⟩ :: st.units }

/-- One 188-byte packet of the PID. A continuity gap ends the unit in progress at the damage. -/
def PesState.packet (st : PesState) (q : List Byte) : PesState :=
  let afc := bitsAt (beAt q 3 1) 4 2
  let cc := beAt q 3 1 % 16
  let body := if afc = 1 then q.drop 4 else if afc = 3 then q.drop (5 + beAt q 4 1) else []
  let start := bitAt (beAt q 1 1) 6
  if afc % 2 = 0 then st
  else if st.counter = some cc then st
  else
    let gap := st.counter.any fun c => cc != (c + 1) % 16
    let st := if gap then st.flush true else st
    let st := { st with counter := some cc }
    if start then { st.flush false with pes := some body }
    else { st with pes := st.pes.map fun p => p ++ body }

/-- The packets of a stream of bytes; one without its sync byte is damage to every PID. After it the packets go on in the same steps of 188
bytes: the front end searches for no sync byte (DESIGN CHOICE, log 30). -/
def tsPackets (src : List Byte) : List (Option (List Byte)) :=
  (chunks 188 src).map fun q => if q.length = 188 && beAt q 0 1 = 0x47 then some q else none

/-- The PES payloads of one PID in stream order (R240). -/
def tsUnits (src : List Byte) (pid : Nat) : List AccessUnit :=
  let st := (tsPackets src).foldl (fun (st : PesState) q => match q with
    | none => st.flush true
    | some q => if beAt q 1 2 % 8192 = pid then st.packet q else st) ⟨none, none, false, []⟩
  (st.flush false).units.reverse

/-! ### ISO Base Media File Format -/

/-- A box: type, and its contents' place (offset from the start of the file part, bytes). -/
structure Box where
  kind : Nat
  start : Nat
  offset : Nat
  body : List Byte
  deriving DecidableEq, Repr

/-- The boxes of a run of bytes that begins at `at_`, and whether parsing reached its end without a box error. -/
def boxesOf : Nat → Nat → List Byte → List Box × Bool
  | 0, _, b => ([], b.isEmpty)
  | fuel + 1, at_, b =>
    if b.isEmpty then ([], true)
    else
      let s32 := beAt b 0 4
      let (head, size) := if s32 = 1 then (16, beAt b 8 8) else if s32 = 0 then (8, b.length) else (8, s32)
      if b.length < 8 || size < head || b.length < size then ([], false)
      else
        let rest := boxesOf fuel (at_ + size) (b.drop size)
        (⟨beAt b 4 4, at_, at_ + head, sub b head (size - head)⟩ :: rest.1, rest.2)

/-- Boxes inside a box, up to the first box error, and whether there is none. -/
def Box.boxes (b : Box) : List Box × Bool := boxesOf b.body.length b.offset b.body

/-- Boxes inside a box. -/
def Box.inside (b : Box) : List Box := b.boxes.1

def Box.find (b : Box) (kind : Nat) : Option Box := b.inside.find? fun x => x.kind == kind

/-- Four-character codes. -/
def fourcc (a b c d : Char) : Nat := ((a.toNat * 256 + b.toNat) * 256 + c.toNat) * 256 + d.toNat

/-- The moov box of an init range, and its trak box of a track. -/
def moovOf (init : List Byte) : Option Box := (boxesOf init.length 0 init).1.find? fun b => b.kind == fourcc 'm' 'o' 'o' 'v'

def trakOf (init : List Byte) (track : Nat) : Option Box := (moovOf init).bind fun m => m.inside.find? fun b =>
  b.kind == fourcc 't' 'r' 'a' 'k' && (b.find (fourcc 't' 'k' 'h' 'd')).any fun h => beAt h.body (if beAt h.body 0 1 = 1 then 20 else 12) 4 == track

/-- The sample entry box of a track: the first in its stsd. -/
def sampleEntry (init : List Byte) (track : Nat) : Option Box :=
  ((((((trakOf init track).bind (·.find (fourcc 'm' 'd' 'i' 'a'))).bind (·.find (fourcc 'm' 'i' 'n' 'f'))).bind (·.find (fourcc 's' 't' 'b' 'l'))).bind
    (·.find (fourcc 's' 't' 's' 'd'))).bind fun b => ((boxesOf b.body.length (b.offset + 8) (b.body.drop 8)).1).head?)

/-- A sample entry that R240 supports for a codec; encv is not. -/
def entryFits (codec kind : Nat) : Bool :=
  match codec with
  | 0 => kind == fourcc 'm' 'p' '2' 'v'
  | 1 => kind == fourcc 'a' 'v' 'c' '1' || kind == fourcc 'a' 'v' 'c' '3'
  | 2 => kind == fourcc 'h' 'v' 'c' '1' || kind == fourcc 'h' 'e' 'v' '1'
  | _ => kind == fourcc 'a' 'v' '0' '1'

/-- The default sample size of a track in moov's mvex. -/
def defaultSize (init : List Byte) (track : Nat) : Nat :=
  ((((moovOf init).bind (·.find (fourcc 'm' 'v' 'e' 'x'))).bind fun x => x.inside.find? fun b =>
    b.kind == fourcc 't' 'r' 'e' 'x' && beAt b.body 4 4 == track).map fun b => beAt b.body 16 4).getD 0

/-- The sizes of the samples of a trun box, and its data offset. -/
def trunSizes (b : List Byte) (dflt : Nat) : List Nat × Option Nat :=
  let fl := beAt b 1 3
  let n := beAt b 4 4
  let has (i : Nat) : Nat := if bitAt fl i then 4 else 0
  let head := 8 + has 0 + has 2
  let step := has 8 + has 9 + has 10 + has 11
  ((List.range n).map fun k => if bitAt fl 9 then beAt b (head + step * k + has 8) 4 else dflt,
   if bitAt fl 0 then some (beAt b 8 4) else none)

/-- The bytes of samples laid end to end from a place; one that its source does not hold whole ends the run. -/
def cutSamples (src : List Byte) : Nat → List Nat → List AccessUnit
  | _, [] => []
  | at_, n :: ns => if src.length < at_ + n then [] else ⟨sub src at_ n, false⟩ :: cutSamples src (at_ + n) ns

/-- What parsing a src range holds: the units of the track so far, where the data of the next fragment without a place of its own begins,
and whether no box error has ended it. -/
structure FragState where
  units : List AccessUnit
  next : Nat
  ok : Bool
  deriving DecidableEq, Repr

/-- A run of samples of a track fragment: its data offset is from `base`, or it follows the run before. Its table must lie in the box. -/
def FragState.run (st : FragState) (src : List Byte) (base size : Nat) (mine : Bool) (b : Box) : FragState :=
  let (sizes, off) := trunSizes b.body size
  let fl := beAt b.body 1 3
  let has (i : Nat) : Nat := if bitAt fl i then 4 else 0
  if !st.ok || b.body.length < 8 + has 0 + has 2 + sizes.length * (has 8 + has 9 + has 10 + has 11) then { st with ok := false }
  else
    let at_ := match off with
      | some o => (base + o) % 2 ^ 32
      | none => st.next
    { st with units := st.units ++ (if mine then cutSamples src at_ sizes else []), next := at_ + sizes.foldl (· + ·) 0 }

/-- One track fragment, up to a box error in it: its base is a place of its own, or the start of its moof where it says so, or where the data
of the fragment before it ends. -/
def FragState.traf (init src : List Byte) (moof : Box) (track : Nat) (st : FragState) (t : Box) : FragState :=
  let (bs, ok) := t.boxes
  match bs.find? fun b => b.kind == fourcc 't' 'f' 'h' 'd' with
  | none => { st with ok := false }
  | some h =>
    if !st.ok then st
    else
      let fl := beAt h.body 1 3
      let has (i n : Nat) : Nat := if bitAt fl i then n else 0
      let id := beAt h.body 4 4
      let base := if bitAt fl 0 then beAt h.body 8 8 else if bitAt fl 17 then moof.start else st.next
      let size := if bitAt fl 4 then beAt h.body (8 + has 0 8 + has 1 4 + has 3 4) 4 else defaultSize init id
      let st := (bs.filter fun b => b.kind == fourcc 't' 'r' 'u' 'n').foldl (fun (st : FragState) b => st.run src base size (id == track) b)
        { st with next := base }
      { st with ok := st.ok && ok }

/-- One movie fragment, up to a box error in it. -/
def FragState.moof (init src : List Byte) (track : Nat) (st : FragState) (m : Box) : FragState :=
  if !st.ok then st
  else
    let (bs, ok) := m.boxes
    let st := (bs.filter fun b => b.kind == fourcc 't' 'r' 'a' 'f').foldl (FragState.traf init src m track) { st with next := m.start }
    { st with ok := st.ok && ok }

/-- The samples of a track in the fragments of a src range; the first box error, at whatever level, ends parsing (R240). Samples that lie whole
in the range are received, though the mdat box around them be cut short (DESIGN CHOICE, log 30). -/
def bmffUnits (init src : List Byte) (track : Nat) : List AccessUnit :=
  (((boxesOf src.length 0 src).1.filter fun b => b.kind == fourcc 'm' 'o' 'o' 'f').foldl (FragState.moof init src track) ⟨[], 0, true⟩).units

/-! ### The two together -/

/-- Access units of a stream: PES payloads of its PID, or samples of its track. -/
def unitsOfStream (container stream : Nat) (init src : List Byte) : List AccessUnit :=
  if container = 0 then tsUnits src (stream % 8192) else bmffUnits init src stream

/-- Container and sample entry are ones that R240 supports for the codec. -/
def containerOk (codec container stream : Nat) (init : List Byte) : Bool :=
  if container = 0 then codec != 3 else (sampleEntry init stream).any fun b => entryFits codec b.kind

end Sys2Proof.Machine
end

