-- ==== Sys2Proof/Machine/Clip.lean ====
section
/-! DEFINITION. What a decode slice delivers of a sample: the profile and level test of Table 8.4, R245's concealment, the pictures
output from the random-access point on (R244) and the interlace modes (R246). The standards' own decoding is free (log 6). -/

namespace Sys2Proof.Machine

/-- A picture as the frame shaper takes it: the luma window's size after the conformance window, planes in raster order, the bit depth
and the concealed flag. -/
structure Picture where
  width : Nat
  height : Nat
  /-- Chroma plane width; 0 for a 4:0:0 stream before R243's fill. -/
  cwidth : Nat
  cheight : Nat
  depth : Nat
  luma : List Nat
  cb : List Nat
  cr : List Nat
  concealed : Bool
  deriving DecidableEq, Repr, Inhabited

/-- What decoding one sample yields (R240 to R246). -/
structure Clip where
  supported : Bool
  pictures : List Picture
  matrix : Nat
  fullRange : Bool
  tenBit : Bool
  interlaced : Bool
  width : Nat
  height : Nat
  /-- Luma samples decoded, discarded pictures included (R242). -/
  pixels : Nat
  /-- Audio access units of the named audio stream in stream order (R241). -/
  audio : List (List Byte)
  deriving DecidableEq, Repr, Inhabited

/-- Table 8.4: codec 0 MPEG-2 Video, 1 H.264, 2 H.265, 3 AV1. -/
def decodeSupported (codec : Nat) (i : StreamInfo) : Bool :=
  let among (ps : List VideoProfile) (top : Nat) (chromas depths : List Nat) : Bool :=
    ps.contains i.profile && decide (i.level ≤ top) && chromas.contains i.chroma && depths.contains i.depth
  !i.extended && !i.otherInterlace && match codec with
    | 0 => among [.main, .main422] 40 [1, 2] [8]
    | 1 => among [.high, .high10, .high422] 52 [0, 1, 2] [8, 10]
    | 2 => among [.main, .main10, .main42210] 61 [0, 1, 2] [8, 10]
    | _ => among [.main] 60 [0, 1] [8, 10] && !i.interlaced

/-! ### Concealment (R245) -/

/-- The units concealed, by number: from each unit with an error to the end of its slice or tile. -/
def concealedUnits (q : PictureHead) (errors : List Nat) : List Nat :=
  (List.range q.units.length).filter fun k => errors.any fun e => decide (e ≤ k) && (q.units[e]?).map (·.1) == (q.units[k]?).map (·.1)

/-- A picture decoded and concealed. -/
structure DonePicture where
  head : PictureHead
  planes : Planes
  concealed : Bool
  deriving DecidableEq, Repr

/-- The concealment source: the picture held for reference that precedes the present one most closely in output order; for a field, one of
the same parity, or a frame, which holds the lines of both. -/
def concealmentSource (q : PictureHead) (done : List DonePicture) : Option DonePicture :=
  (q.held.filterMap fun k => done[k]?).foldl (fun best x =>
    if x.head.order < q.order && (q.field.isNone || x.head.field.isNone || x.head.field == q.field)
        && best.all (fun b : DonePicture => decide (b.head.order < x.head.order)) then some x else best) none

/-- The rows of a plane of width `w`. -/
def rowsOf (w : Nat) (plane : List Nat) : List (List Nat) := if w = 0 then [] else chunks w plane

/-- Rows of two fields woven, the first on even lines. -/
def weaveRows : List (List Nat) → List (List Nat) → List (List Nat)
  | t :: ts, b :: bs => t :: b :: weaveRows ts bs
  | ts, bs => ts ++ bs

/-- Every second row, from row 0 or 1. -/
def fieldRows (odd : Bool) (rows : List (List Nat)) : List (List Nat) :=
  (rows.zipIdx.filter fun r => decide (r.2 % 2 = ofBool odd)).map (·.1)

/-- Something done to each plane, with its width. -/
def DonePicture.mapPlanes (d : DonePicture) (f : Nat → List Nat → List Nat) : Planes :=
  ⟨f d.head.width d.planes.luma, f d.head.cwidth d.planes.cb, f d.head.cwidth d.planes.cr⟩

/-- The lines of one parity of a frame. -/
def DonePicture.parity (d : DonePicture) (odd : Bool) : Planes := d.mapPlanes fun w x => (fieldRows odd (rowsOf w x)).flatten

/-- Two fields woven, the top one on even lines. -/
def wovenPlanes (t b : DonePicture) : Planes :=
  let w (n : Nat) (x y : List Nat) : List Nat := (weaveRows (rowsOf n x) (rowsOf n y)).flatten
  ⟨w t.head.width t.planes.luma b.planes.luma, w t.head.cwidth t.planes.cb b.planes.cb, w t.head.cwidth t.planes.cr b.planes.cr⟩

/-- A field and the other field of its pair, or itself where it has none, the top one first. -/
def DonePicture.pair (d : DonePicture) (all : List DonePicture) : DonePicture × DonePicture :=
  let m := (d.head.mate.bind fun k => all[k]?).getD d
  if d.head.field == some false then (m, d) else (d, m)

/-- A plane of mid-grey samples. -/
def greyPlane (w h depth : Nat) : List Nat := List.replicate (w * h) (2 ^ (depth - 1))

/-- The samples that stand for a missing reference of a picture, and for its concealed units (R245 steps 2 and 3): the concealment source's,
as a frame or a field as the picture is one, or mid-grey. -/
def sourcePlanes (q : PictureHead) (depth : Nat) (done : List DonePicture) : Planes :=
  match concealmentSource q done with
  | none => ⟨greyPlane q.width q.height depth, greyPlane q.cwidth q.cheight depth, greyPlane q.cwidth q.cheight depth⟩
  | some d => match q.field, d.head.field with
    | some top, none => d.parity (!top)
    | none, some _ => let (t, b) := d.pair done; wovenPlanes t b
    | _, _ => d.planes

/-- One plane with its concealed samples taken from the source. -/
def concealPlane (w : Nat) (rects : List (Nat × Nat × Nat × Nat × Nat)) (sx sy depth : Nat) (src plane : List Nat) : List Nat :=
  if rects.isEmpty then plane
  else
    let from_ := src.toArray
    plane.zipIdx.map fun v =>
      let x := v.2 % w * sx
      let y := v.2 / w * sy
      if rects.any fun u => decide (u.2.1 ≤ x) && decide (x < u.2.1 + u.2.2.2.1) && decide (u.2.2.1 ≤ y) && decide (y < u.2.2.1 + u.2.2.2.2) then
        from_.getD v.2 (2 ^ (depth - 1))
      else v.1

/-- What decodes a stream: codec, init bytes, access units, and the depth its headers signal. -/
structure Coded where
  codec : Nat
  init : List Byte
  units : List (List Byte × Bool)
  depth : Nat

/-- Decode and conceal one picture (R245): its missing references are replaced by the concealment source, its decoded units filtered, its
concealed samples written after that. It is flagged for its own concealed units, or for a flagged picture that it predicts from, except at a
random-access point. -/
def Coded.next (c : Coded) (done : List DonePicture) (q : PictureHead) : List DonePicture :=
  let k := done.length
  let src := sourcePlanes q c.depth done
  let refs := q.refs.map fun r => ((r.bind fun i => done[i]?).map (·.planes)).getD src
  let (raw, errors) := Config.decodePicture c.codec c.init c.units k refs
  let hidden := concealedUnits q errors
  let rects := hidden.filterMap fun i => q.units[i]?
  let f := Config.loopFilters c.codec c.init c.units k raw hidden
  let sx := if q.cwidth = 0 then 1 else q.width / q.cwidth
  let sy := if q.cheight = 0 then 1 else q.height / q.cheight
  let planes : Planes := ⟨concealPlane q.width rects 1 1 c.depth src.luma f.luma, concealPlane q.cwidth rects sx sy c.depth src.cb f.cb,
    concealPlane q.cwidth rects sx sy c.depth src.cr f.cr⟩
  let inherited := !q.access && q.refs.any fun r => (r.bind fun i => done[i]?).any fun d => d.concealed
  done ++ [⟨q, planes, !hidden.isEmpty || inherited⟩]

/-- The pictures of a stream in decoding order. -/
def Coded.pictures (c : Coded) : List DonePicture := (Config.pictureHeads c.codec c.init c.units).foldl c.next []

/-! ### Output and interlace (R244, R246) -/

/-- Insert by ascending place in output order. -/
def insertOutput (x : DonePicture) : List DonePicture → List DonePicture
  | [] => [x]
  | y :: ys => if x.head.order ≤ y.head.order then x :: y :: ys else y :: insertOutput x ys

/-- A picture for the shaper, of the size of `d` with its height times `num` over `den`. -/
def DonePicture.picture (d : DonePicture) (depth num den : Nat) (p : Planes) (concealed : Bool) : Picture :=
  ⟨d.head.width, d.head.height * num / den, d.head.cwidth, d.head.cheight * num / den, depth, p.luma, p.cb, p.cr, concealed⟩

def DonePicture.frame (d : DonePicture) (depth : Nat) : Picture := d.picture depth 1 1 d.planes d.concealed

/-- A frame woven from a top and a bottom field. -/
def wovenFrame (depth : Nat) (t b : DonePicture) : Picture := t.picture depth 2 1 (wovenPlanes t b) (t.concealed || b.concealed)

/-- One field of a frame. -/
def fieldOf (odd : Bool) (depth : Nat) (d : DonePicture) : Picture := d.picture depth 1 2 (d.parity odd) d.concealed

/-- What one picture of the output order delivers; of a field pair, the field that comes first in it delivers both. A progressive frame is
split top field first, whatever its stream signals. -/
def DonePicture.deliver (d : DonePicture) (fields : Bool) (depth : Nat) (all : List DonePicture) : List Picture :=
  let topFirst := d.head.topFirst.getD true || (d.head.field.isNone && d.head.progressive)
  let inOrder (t b : Picture) : List Picture := if topFirst then [t, b] else [b, t]
  match d.head.field with
  | none => if fields then inOrder (fieldOf false depth d) (fieldOf true depth d) else [d.frame depth]
  | some _ => match d.head.mate.bind fun k => all[k]? with
    | none => if fields then [d.frame depth] else [wovenFrame depth d d]
    | some m =>
      let (t, b) := d.pair all
      if m.head.order < d.head.order then []
      else if fields then inOrder (t.frame depth) (b.frame depth) else [wovenFrame depth t b]

/-- The pictures of a stream in output order and interlace mode. -/
def outputPictures (fields : Bool) (c : Coded) : List Picture :=
  let done := c.pictures
  ((done.filter fun d => d.head.output).foldr insertOutput []).flatMap fun d => d.deliver fields c.depth done

/-- Decode one sample: codec, container, video and audio stream, interlace mode, init and src bytes. The luma samples counted are those inside
the conformance window (DESIGN CHOICE, log 30). -/
def decodeClip (codec container stream audio : Nat) (fields : Bool) (init src : List Byte) : Clip :=
  let units := (unitsOfStream container stream init src).map fun u => (u.bytes, u.damaged)
  let sound := if audio = 0xFFFFFFFF then [] else (unitsOfStream container audio init src).map (·.bytes)
  let none_ : Clip := { (default : Clip) with supported := false, audio := sound }
  if !containerOk codec container stream init then none_
  else match Config.streamInfo codec init units with
    | none => none_
    | some i =>
      if !decodeSupported codec i then none_
      else
        let qs := Config.pictureHeads codec init units
        { supported := true, pictures := outputPictures fields ⟨codec, init, units, i.depth⟩, matrix := i.matrix, fullRange := i.fullRange, tenBit := i.depth == 10,
          interlaced := i.interlaced, width := i.width, height := i.height, pixels := qs.foldl (fun a q => a + q.width * q.height) 0, audio := sound }

end Sys2Proof.Machine
end

