-- ==== Sys2Proof/Machine/Shaper.lean ====
section
/-! DEFINITION. The frame shaper: crop, resize, colour conversion, scale and offset, conversion and patchification (R247 to
R253). -/

namespace Sys2Proof.Machine

/-- Table 8.5, from its 64 bytes. -/
structure Profile where
  ofmt : Fmt
  /-- 0 RGB, 1 YCbCr, 2 Y only. -/
  colour : Nat
  interlace : Bool
  matrix : Nat
  range : Nat
  crop : Nat
  t : Nat
  p : Nat
  wo : Nat
  ho : Nat
  nframes : Nat
  fixed : List Nat
  ms : List Int
  offs : List Int
  es : List Nat
  deriving DecidableEq, Repr

def Profile.parse (b : List Byte) : Profile :=
  let x := natAt b 0 1
  let y := natAt b 1 1
  { ofmt := if x % 4 = 0 then .bf16 else if x % 4 = 1 then .e4m3 else if x % 4 = 2 then .e5m2 else .reserved,
    colour := bitsAt x 2 2, interlace := bitAt x 4, matrix := bitsAt y 0 2, range := bitsAt y 2 2, crop := bitsAt y 4 2,
    t := natAt b 2 1, p := natAt b 3 1, wo := natAt b 4 2, ho := natAt b 6 2, nframes := natAt b 8 2,
    fixed := (List.range 4).map fun i => natAt b (12 + 2 * i) 2, ms := (List.range 3).map fun i => signedOf 16 (natAt b (20 + 2 * i) 2),
    offs := (List.range 3).map fun i => signedOf 32 (natAt b (28 + 4 * i) 4), es := (List.range 3).map fun i => natAt b (40 + i) 1 }

/-- Channels. -/
def Profile.c (f : Profile) : Nat := if f.colour = 2 then 1 else 3

/-- Bytes of an output element. -/
def Profile.z (f : Profile) : Nat := if f.ofmt = .bf16 then 2 else 1

/-- Values and ranges of Table 8.5. -/
def Profile.ok (f : Profile) (b : List Byte) : Bool :=
  f.ofmt != .reserved && f.colour != 3 && natAt b 0 1 / 32 == 0 && f.range != 3 && f.crop != 3 && natAt b 1 1 / 64 == 0
    && decide (1 ≤ f.t) && decide (f.t ≤ 4) && decide (8 ≤ f.p) && decide (f.p ≤ 32) && f.wo % f.p == 0 && decide (16 ≤ f.wo)
    && decide (f.wo ≤ 4096) && f.ho % f.p == 0 && decide (16 ≤ f.ho) && decide (f.ho ≤ 4096) && f.nframes % f.t == 0
    && decide (f.t ≤ f.nframes) && decide (f.nframes ≤ 256) && allZero (sub b 10 2) && allZero (sub b 26 2)
    && f.es.all (fun e => decide (e ≤ 63)) && allZero (sub b 43 21) && decide (f.t * f.p * f.c * f.wo * f.z ≤ 1048576)

/-- Blocks of a sample, and where the payloads start (R253). -/
def Profile.blocks (f : Profile) : Nat := f.nframes / f.t * (f.ho / f.p)
def Profile.payloads (f : Profile) : Nat := 65536 * cdiv (64 + 64 * f.blocks) 65536

/-- Bytes of one block, and of one aligned block. -/
def Profile.blockLen (f : Profile) : Nat := f.t * f.p * f.c * f.wo * f.z
def Profile.blockStep (f : Profile) : Nat := cdiv f.blockLen 64 * 64

/-- Space that a ring entry takes (R230, R253). -/
def Profile.space (f : Profile) : Nat := f.payloads + f.blocks * f.blockStep

/-! ### Crop (R247) -/

/-- The luma window of a picture: x, y, width, height. -/
def Profile.window (f : Profile) (q : Picture) : Nat × Nat × Nat × Nat :=
  let w := q.width
  let h := q.height
  let full := (0, 0, w, h)
  let (x, y, wc, hc) :=
    if f.crop = 1 then
      if w * f.ho > h * f.wo then let wc := h * f.wo / f.ho; ((w - wc) / 2, 0, wc, h)
      else let hc := w * f.ho / f.wo; (0, (h - hc) / 2, w, hc)
    else if f.crop = 2 then
      let fx := f.fixed.getD 0 0
      let fy := f.fixed.getD 1 0
      let x1 := min w (fx + f.fixed.getD 2 0)
      let y1 := min h (fy + f.fixed.getD 3 0)
      if x1 ≤ fx || y1 ≤ fy then full else (fx, fy, x1 - fx, y1 - fy)
    else full
  let sx := q.cwidth != 0 && decide (q.cwidth < w)
  let sy := q.cheight != 0 && decide (q.cheight < h)
  (if sx then x / 2 * 2 else x, if sy then y / 2 * 2 else y, if sx then wc / 2 * 2 else wc, if sy then hc / 2 * 2 else hc)

/-! ### Resize (R248, R249) -/

/-- Table 8.6, phases 0 to 32. -/
def filterRows : List (List Int) :=
  [[0, 0, 0, 128, 0, 0, 0, 0],
   [0, 0, -1, 128, 2, -1, 0, 0],
   [0, 1, -3, 127, 4, -1, 0, 0],
   [0, 1, -4, 127, 6, -2, 0, 0],
   [0, 2, -6, 126, 8, -3, 1, 0],
   [-1, 3, -7, 126, 10, -4, 1, 0],
   [-1, 3, -9, 126, 12, -4, 1, 0],
   [-1, 4, -11, 125, 14, -5, 2, 0],
   [-1, 4, -12, 125, 16, -6, 2, 0],
   [-1, 4, -13, 124, 19, -7, 2, 0],
   [-1, 5, -14, 122, 21, -7, 2, 0]] ++
  [[-1, 5, -15, 121, 23, -8, 3, 0],
   [-2, 6, -16, 120, 26, -9, 3, 0],
   [-2, 6, -16, 118, 29, -10, 3, 0],
   [-2, 6, -17, 117, 31, -10, 3, 0],
   [-2, 7, -18, 115, 33, -11, 4, 0],
   [-2, 7, -19, 114, 36, -12, 4, 0],
   [-2, 7, -19, 112, 39, -13, 4, 0],
   [-2, 7, -20, 110, 41, -13, 5, 0],
   [-2, 7, -20, 108, 44, -14, 5, 0],
   [-2, 8, -21, 106, 47, -15, 5, 0],
   [-2, 8, -21, 104, 50, -15, 5, -1]] ++
  [[-2, 8, -21, 102, 52, -16, 6, -1],
   [-2, 8, -22, 100, 55, -16, 6, -1],
   [-2, 8, -22, 98, 58, -17, 6, -1],
   [-2, 8, -22, 96, 61, -18, 6, -1],
   [-2, 8, -22, 93, 63, -18, 7, -1],
   [-2, 8, -22, 91, 66, -19, 7, -1],
   [-2, 8, -22, 89, 68, -19, 7, -1],
   [-2, 8, -21, 86, 72, -20, 7, -2],
   [-2, 8, -21, 84, 74, -20, 7, -2],
   [-2, 8, -21, 81, 77, -21, 8, -2],
   [-2, 8, -21, 79, 79, -21, 8, -2]]

/-- Coefficients of a phase (R249). -/
def filterOf (ph : Nat) : List Int :=
  if ph ≤ 32 then filterRows.getD ph [] else (filterRows.getD (64 - ph) []).reverse

/-- The filtered sum of output sample j over an input of si samples (R248). -/
def filterSum (input : Nat → Int) (si so j : Nat) : Int :=
  let pos : Int := ((2 * j + 1) * si * 65536 : Nat) / ((2 * so : Nat) : Int) - 32768
  let i : Int := pos / 65536
  let ph := (pos % 65536).toNat / 1024
  let at_ (k : Nat) : Int := input (min (max (i - 3 + (k : Int)) 0) ((si : Int) - 1)).toNat
  ((filterOf ph).zipIdx).foldl (fun a ck => a + ck.1 * at_ ck.2) 0

/-- Resize a window (x, y, w, h) of a plane of a given row length to wo by ho: rows of values with 4 fraction bits. -/
def resizePlane (plane : Array Nat) (pitch x y w h wo ho depth : Nat) : Array (Array Int) :=
  let rows := (Array.range h).map fun r =>
    (Array.range wo).map fun j => (filterSum (fun c => ((plane.getD ((y + r) * pitch + x + c) 0 : Nat) : Int)) w wo j + 4) / 8
  let top : Int := ((2 ^ depth - 1) * 16 : Nat)
  (Array.range ho).map fun i => (Array.range wo).map fun j =>
    min (max ((filterSum (fun r => (rows.getD r #[]).getD j 0) h ho i + 64) / 128) 0) top

/-! ### Colour (R250) -/

/-- kY, kRv, kGu, kGv, kBu for a matrix (1 BT.601, 2 BT.709, 3 BT.2020) and range (Table 8.7). -/
def colourConsts (matrix : Nat) (full : Bool) : List Int :=
  match matrix, full with
  | 1, false => [9539, 13075, 3209, 6660, 16525]
  | 2, false => [9539, 14686, 1747, 4366, 17305]
  | _, false => [9539, 13752, 1535, 5328, 17545]
  | 1, true => [8192, 11485, 2819, 5850, 14516]
  | 2, true => [8192, 12901, 1535, 3835, 15201]
  | _, true => [8192, 12080, 1348, 4681, 15412]

/-- The matrix in force for a picture. -/
def Profile.matrixFor (f : Profile) (signalled lines : Nat) : Nat :=
  if f.matrix ≠ 0 then f.matrix
  else if signalled = 1 then 2 else if signalled = 5 || signalled = 6 then 1 else if signalled = 9 then 3
  else if 720 ≤ lines then 2 else 1

/-- The channel values of one pixel, with 4 fraction bits. -/
def Profile.channels (f : Profile) (signalled lines depth : Nat) (full : Bool) (y cb cr : Int) : List Int :=
  if f.colour = 1 then [y, cb, cr]
  else if f.colour = 2 then [y]
  else
    let isFull := if f.range = 0 then full else f.range == 2
    let k := colourConsts (f.matrixFor signalled lines) isFull
    let kk (i : Nat) : Int := k.getD i 0
    let unit : Int := ((2 ^ (depth - 8) * 16 : Nat) : Int)
    let yy := y - (if isFull then 0 else 16 * unit)
    let u := cb - 128 * unit
    let v := cr - 128 * unit
    let top : Int := ((2 ^ depth - 1) * 16 : Nat)
    let fit (x : Int) : Int := min (max ((x + 4096) / 8192) 0) top
    [fit (kk 0 * yy + kk 1 * v), fit (kk 0 * yy - kk 2 * u - kk 3 * v), fit (kk 0 * yy + kk 4 * u)]

/-- Scale, offset and conversion of channel c (R251). -/
def Profile.element (f : Profile) (c : Nat) (value : Int) : Nat :=
  let x := value * f.ms.getD c 0 + f.offs.getD c 0
  (convert f.ofmt true .rne true true (.fin (decide (x < 0)) x.natAbs (-((f.es.getD c 0 : Nat) : Int)))).1

/-- One picture: element bits by row, column and channel. -/
def Profile.shape (f : Profile) (q : Picture) (signalled : Nat) (full : Bool) : Array (Array (List Nat)) :=
  let (x, y, w, h) := f.window q
  let grey : Int := ((2 ^ (q.depth - 1) * 16 : Nat) : Int)
  let sx := q.cwidth != 0 && decide (q.cwidth < q.width)
  let sy := q.cheight != 0 && decide (q.cheight < q.height)
  let half (b : Bool) (n : Nat) : Nat := if b then n / 2 else n
  let luma := resizePlane q.luma.toArray q.width x y w h f.wo f.ho q.depth
  let chroma (plane : List Nat) : Array (Array Int) :=
    if q.cwidth = 0 then (Array.range f.ho).map fun _ => (Array.range f.wo).map fun _ => grey
    else resizePlane plane.toArray q.cwidth (half sx x) (half sy y) (half sx w) (half sy h) f.wo f.ho q.depth
  let cb := chroma q.cb
  let cr := chroma q.cr
  (Array.range f.ho).map fun r => (Array.range f.wo).map fun c =>
    let at_ (m : Array (Array Int)) : Int := (m.getD r #[]).getD c 0
    ((f.channels signalled q.height q.depth full (at_ luma) (at_ cb) (at_ cr)).zipIdx).map fun v => f.element v.2 v.1

/-! ### Patchification (R252) -/

/-- The block of group g and patch row `row`, from the shaped pictures. -/
def Profile.block (f : Profile) (pics : Array (Array (Array (List Nat)))) (g row : Nat) : List Byte :=
  let elems := (List.range (f.wo / f.p)).flatMap fun col => (List.range f.t).flatMap fun ti => (List.range f.p).flatMap fun yi =>
    (List.range f.p).flatMap fun xi => ((pics.getD (f.t * g + ti) #[]).getD (row * f.p + yi) #[]).getD (col * f.p + xi) []
  f.ofmt.pack elems

end Sys2Proof.Machine
end

