-- ==== Sys2Proof/Machine/Ingest.lean ====
section
/-! DEFINITION. The video ingest path: the plan, the shuffle, the release word, index entries, the sample cache, fetch, decode
into token blocks, and slot completion (R229 to R245, R253 to R256). -/

namespace Sys2Proof.Machine

/-! ### The plan (R229, R230, R233, R236) -/

/-- A location: region and offset, from 8 bytes with [47:0] offset and [59:48] region. -/
def placeAt (b : List Byte) (off : Nat) : Nat × Nat := (bitsAt (natAt b off 8) 48 12, bitsAt (natAt b off 8) 0 48)

/-- Bits [63:60] of a location are reserved. -/
def placeClean (b : List Byte) (off : Nat) : Bool := bitsAt (natAt b off 8) 60 4 == 0

structure Plan where
  raw : List Byte
  deriving DecidableEq, Repr

namespace Plan

def samples (p : Plan) : Nat := natAt p.raw 0 8
def perStep (p : Plan) : Nat := natAt p.raw 8 4
def nslots (p : Plan) : Nat := natAt p.raw 12 2
def rgroup (p : Plan) : Nat := natAt p.raw 14 2
def depth (p : Plan) : Nat := natAt p.raw 16 1
def nlists (p : Plan) : Nat := natAt p.raw 17 1
def nprof (p : Plan) : Nat := natAt p.raw 18 1
def releaseWord (p : Plan) : Nat × Nat := placeAt p.raw 24
def cache (p : Plan) : Nat × Nat := placeAt p.raw 32
def lines (p : Plan) : Nat := natAt p.raw 40 4
def lineSize (p : Plan) : Nat := natAt p.raw 44 4
/-- Index-list record l, profile i and slot entry j. -/
def list (p : Plan) (l : Nat) : List Byte := sub p.raw (64 + 32 * l) 32
def profileBytes (p : Plan) (i : Nat) : List Byte := sub p.raw (64 + 32 * p.nlists + 64 * i) 64
def slot (p : Plan) (j : Nat) : List Byte := sub p.raw (64 + 32 * p.nlists + 64 * p.nprof + 32 * j) 32
def profile (p : Plan) (j : Nat) : Profile := Profile.parse (p.profileBytes (natAt (p.slot j) 0 1))

end Plan

/-- First sample and count of an index list. -/
def listRange (r : List Byte) : Nat × Nat := (bitsAt (natAt r 8 8) 0 40, natAt r 16 8)

/-- The index-list ranges are disjoint and together cover [0, S) (R236). -/
def listsCover (rs : List (Nat × Nat)) (s : Nat) : Bool :=
  let step (at_ : Nat) : Nat := match rs.find? fun r => r.1 == at_ && decide (0 < r.2) with
    | some r => at_ + r.2
    | none => at_
  let nonempty := rs.filter fun r => decide (0 < r.2)
  (List.range rs.length).foldl (fun a _ => step a) 0 == s && (nonempty.map (·.2)).foldl (· + ·) 0 == s

/-- A plan that the loader accepts in a job of n ranks and v virtual cores; `kind` gives each region's kind and size (R229, R230,
R233). An address outside its region is an ingest event later (R256). -/
def Plan.ok (p : Plan) (n v : Nat) (kind : Nat → Option (RegionKind × Nat)) : Bool :=
  let k (id : Nat) : Option RegionKind := (kind id).map (·.1)
  let lists := (List.range p.nlists).map p.list
  p.raw.length == 64 + 32 * p.nlists + 64 * p.nprof + 32 * p.nslots
    && decide (1 ≤ natAt p.raw 0 8) && decide (natAt p.raw 0 8 ≤ 2 ^ 40) && decide (1 ≤ p.perStep) && decide (p.perStep ≤ 2 ^ 24)
    && decide (1 ≤ p.nslots) && decide (p.nslots ≤ 4096) && decide (1 ≤ p.rgroup) && n % p.rgroup == 0 && decide (p.rgroup ≤ n)
    && decide (1 ≤ p.depth) && decide (p.depth ≤ 8) && decide (1 ≤ p.nlists) && decide (p.nlists ≤ 16) && decide (1 ≤ p.nprof)
    && decide (p.nprof ≤ 8) && natAt p.raw 19 1 == 0 && decide (1 ≤ natAt p.raw 20 4) && decide (natAt p.raw 20 4 ≤ 1000)
    && placeClean p.raw 24 && placeClean p.raw 32 && decide (p.lines ≤ 2 ^ 20) && allZero (sub p.raw 48 16)
    && p.nslots * (n / p.rgroup) == p.perStep
    && k p.releaseWord.1 == some .staging
    && p.lineSize % 65536 == 0 && decide (p.lineSize ≤ 268435456)
    && (p.lines == 0 || (k p.cache.1 == some .scree && decide (0 < p.lineSize)))
    && lists.all (fun r => placeClean r 0 && k (placeAt r 0).1 == some .host && bitsAt (natAt r 8 8) 40 24 == 0 && natAt r 24 4 != 0
          && allZero (sub r 28 4))
    && listsCover (lists.map listRange) (natAt p.raw 0 8)
    && (List.range p.nprof).all (fun i => (Profile.parse (p.profileBytes i)).ok (p.profileBytes i))
    && (List.range p.nslots).all fun j =>
      let e := p.slot j
      let buf := placeAt e 8
      let aud := placeAt e 20
      decide (natAt e 0 1 < p.nprof) && natAt e 1 1 / 2 == 0 && decide (natAt e 2 2 < v) && natAt e 5 1 == 0 && decide (1 ≤ natAt e 6 2)
        && decide (natAt e 6 2 ≤ 4095) && placeClean e 8 && (k buf.1 == some .staging || k buf.1 == some .gddr)
        && natAt e 16 4 % 65536 == 0 && decide ((p.profile j).space ≤ natAt e 16 4)
        && (!bitAt (natAt e 1 1) 0 || (placeClean e 20 && (k aud.1 == some .staging || k aud.1 == some .gddr) && natAt e 28 4 % 65536 == 0
              && decide (65536 ≤ natAt e 28 4)))

/-- Regions that hold a slot buffer, the release word or the cache (R371). -/
def Plan.regions (p : Plan) : List Nat :=
  p.releaseWord.1 :: ((if p.lines = 0 then [] else [p.cache.1]) ++ (List.range p.nslots).flatMap fun j =>
    (placeAt (p.slot j) 8).1 :: (if bitAt (natAt (p.slot j) 1 1) 0 then [(placeAt (p.slot j) 20).1] else []))

/-! ### The shuffle (R231, R232) -/

/-- One pass of the Feistel network. -/
def feistel (k0 k1 h y : Nat) : Nat :=
  let f (lr : Nat × Nat) (i : Nat) : Nat × Nat :=
    (lr.2, lr.1 ^^^ ((philox k0 k1 lr.2 0 i 0).headD 0 % 2 ^ h))
  let lr := (List.range 6).foldl f (y / 2 ^ h, y % 2 ^ h)
  lr.1 * 2 ^ h + lr.2

/-- Walk the cycle until the output lies below s; a permutation of 2^m values needs at most 2^m passes. -/
def cycleWalk (k0 k1 h s : Nat) : Nat → Nat → Nat
  | 0, y => y
  | fuel + 1, y => if y < s then y else cycleWalk k0 k1 h s fuel (feistel k0 k1 h y)

/-- π_e(x) over s samples. -/
def shuffle (seed s e x : Nat) : Nat :=
  if s ≤ 1 then 0
  else
    let bits := max 2 (bitLen (s - 1))
    let m := bits + bits % 2
    let q := philox ((seed % 2 ^ 32) ^^^ 0x53485546) (seed / 2 ^ 32 % 2 ^ 32) (e % 2 ^ 32) (e / 2 ^ 32 % 2 ^ 32) 0 0
    let k0 := q.getD 0 0
    let k1 := q.getD 1 0
    cycleWalk k0 k1 (m / 2) s (2 ^ m) (feistel k0 k1 (m / 2) x)

/-- The sample of slot j of step s on this rank (R231). -/
def Job.sampleOf (j : Job) (p : Plan) (step slot : Nat) : Nat :=
  let g := step * p.perStep + j.rank / p.rgroup * p.nslots + slot
  shuffle j.seed p.samples (g / p.samples) (g % p.samples)

/-! ### Slots in flight -/

def State.plan (s : State) : Plan := ⟨s.ing.plan⟩

/-- Ingest works: a plan is loaded and the job is started and not ended (Table 8.9). -/
def State.ingesting (s : State) : Bool :=
  s.pow.boot == .imago && !s.ing.plan.isEmpty && (s.job.state == .running || s.job.state == .paused)

/-- The oldest step in flight of slot j in a phase, that waits for no page. -/
def Ingest.oldest (i : Ingest) (j : Nat) (phase : SlotPhase) : Option Slot :=
  (i.slots.filter fun x => x.j == j && x.phase == phase && x.blocked.isNone).foldl (fun best x => match best with
    | none => some x
    | some b => if x.step < b.step then some x else some b) none

def State.putSlot (s : State) (x : Slot) : State :=
  { s with ing := { s.ing with slots := s.ing.slots.map fun y => if y.j = x.j && y.step = x.step then x else y } }

/-- A slot waits for a page (R238, R303). -/
def State.blockSlot (s : State) (x : Slot) (a : Nat) : State :=
  (s.queueFault a false .ingest).putSlot { x with blocked := some (pageKey a) }

/-- The device address of an access to a location, unless its region refuses it (R301): unbound, outside it, or not permitted. -/
def State.locAddr (s : State) (l : Nat × Nat) (off len : Nat) (write : Bool) : Option Nat :=
  (s.job.region l.1).bind fun r => if (r.refuses ((l.2 + off : Nat) : Int) len write).isNone then some (r.base + l.2 + off) else none

/-- Bytes at a device address of which some lie in a reserved range or the GDDR7 reserve (R285). -/
def State.unmapped (s : State) (a n : Nat) : Bool :=
  (pageRuns a n).any fun r => !(decide (r.1 < s.mem.usable) || inStaging r.1 || translated r.1)

/-- R234. Read the release word; it never counts back. Slots of steps below release + D start. -/
def execReleaseWordPoll (s : State) : Host.Outcome State Fault Refusal :=
  if !s.ingesting then .next s
  else
    let p := s.plan
    match s.locAddr p.releaseWord 0 4 false with
    | none => .next (s.ingestEvent 4 0 s.ing.release)
    | some a => match s.readMem a 4 with
      | (s, _, some _) => .next (s.ingestEvent 2 0 s.ing.release)
      | (s, bs, none) =>
        let release := max s.ing.release (natAt bs 0 4)
        let starts := (List.range p.nslots).map fun j =>
          let from_ := s.ing.nextStep.getD j release
          (List.range (release + p.depth - from_)).map fun k =>
            { j, step := from_ + k, sample := s.job.sampleOf p (from_ + k) j, phase := .entry, entry := [], src := [], init := [],
              hit := false, blocked := none, written := 0 : Slot }
        .next { s with ing := { s.ing with release, slots := s.ing.slots ++ starts.flatMap id,
                                           nextStep := (List.range p.nslots).map fun j => max (s.ing.nextStep.getD j release) (release + p.depth) } }

/-! ### Index entries (R236, R237) -/

/-- An accepted entry from which no bytes are read, so that its sample is unsupported and has no audio: a length of src outside its range, a
source in GDDR7 or staging memory, which Table 8.3 does not name (both DESIGN CHOICE, log 30), or a reserved container. -/
def entryUnreadable (usable : Nat) (e : List Byte) : Bool :=
  let src := natAt e 0 8
  let init := natAt e 16 8
  let n := natAt e 8 4
  decide (n = 0) || decide (268435456 < n) || decide (src < usable) || inStaging src
    || (natAt e 12 4 != 0 && (decide (init < usable) || inStaging init)) || decide (1 < natAt e 24 1)

/-- An accepted entry whose sample is unsupported (R237, R240, R243): one with a value the manual reserves, AV1 in MPEG-2 TS, and as the
model's choice (DESIGN CHOICE, log 30) one with an init_len or a PID that Table 8.3 does not allow for TS. Its audio units are copied
wherever its container can be read (R241). -/
def entryReserved (usable : Nat) (e : List Byte) : Bool :=
  entryUnreadable usable e
    || decide (3 < natAt e 25 1) || !allZero (sub e 26 2) || !allZero (sub e 36 4) || !allZero (sub e 44 12)
    || (natAt e 24 1 == 0 && (natAt e 25 1 == 3 || natAt e 12 4 != 0 || decide (8191 < natAt e 28 4)))

/-- The index list of a sample. -/
def Plan.listOf (p : Plan) (n : Nat) : List Byte :=
  ((List.range p.nlists).map p.list).find? (fun r => decide ((listRange r).1 ≤ n) && decide (n < (listRange r).1 + (listRange r).2)) |>.getD []

/-- R237. Read a slot's index entry: accept it, or count a poll and read it again later. -/
def execIndexEntryRead (slot : Nat) (outcome : ReqOutcome) (s : State) : Host.Outcome State Fault Refusal :=
  match s.ing.oldest slot .entry with
  | none => .next s
  | some x =>
    if !s.ingesting || !s.host.dma && outcome != .linkError then .next s
    else
      let r := s.plan.listOf x.sample
      match outcome, s.locAddr (placeAt r 0) (64 * (x.sample - (listRange r).1)) 64 false with
      | .linkError, _ => .next (s.ingestEvent 3 x.j x.step)
      | _, none => .next (s.ingestEvent 4 x.j x.step)
      | _, some a => match s.mem.faultPage a 64 false with
        | some g => .next (s.blockSlot x g)
        | none =>
          let e := (s.mem.readDev a 64).1
          let s := s.tlbRange a 64
          if natAt e 56 4 = natAt r 24 4 && natAt e 60 4 = (crc32c (e.take 60)).toNat then
            let mine (a : Nat × Nat × List Byte) : Bool := a.1 == x.step && a.2.1 == x.j
            let phase : SlotPhase := if entryUnreadable s.mem.usable e then .decode else .lookup
            let s := { s with ing := { s.ing with accepted := s.ing.accepted.filter (fun a => !mine a) ++ [(x.step, x.j, e)] } }
            .next (s.putSlot { x with entry := e, phase })
          else .next { s with ing := { s.ing with polls := s.ing.polls + 1 } }

/-! ### The sample cache and fetch (R238, R239) -/

/-- The tag of a cache line: sample, generation, entry CRC, length and CRC of the bytes (R239; the layout is log 30). -/
def cacheTag (sample gen : Nat) (e src : List Byte) : List Byte :=
  padTo 64 (bytesOf 8 sample ++ bytesOf 4 gen ++ sub e 60 4 ++ sub e 8 4 ++ bytesOf 4 (crc32c src).toNat)

/-- The address of a sample's cache line. -/
def State.lineAddr (s : State) (sample : Nat) : Option Nat :=
  let p := s.plan
  s.locAddr p.cache (sample % p.lines * p.lineSize) p.lineSize false

/-- R239. Look for a sample in its cache line: a hit, a line whose bytes fail their CRC, or a miss. -/
def execSampleCacheLookup (look : CacheLook) (s : State) : Host.Outcome State Fault Refusal :=
  match s.ing.oldest look.slot .lookup with
  | none => .next s
  | some x =>
    let p := s.plan
    let n := natAt x.entry 8 4
    if !s.ingesting then .next s
    else if p.lines = 0 then .next (s.putSlot { x with phase := .fetch })
    else match s.lineAddr x.sample with
      | none => .next (s.ingestEvent 4 x.j x.step)
      | some a =>
        if look.outcome = .linkError then .next (s.ingestEvent 3 x.j x.step)
        else
        let s := (match look.outcome with
          | .uncorrectable u => if decide (a ≤ u) && decide (u < a + 64 + n) then s.spoil u else s
          | _ => s).tlbRange a (64 + n)
        match s.readMem a 64 with
        | (s, _, some _) => .next (s.ingestEvent 2 x.j x.step)
        | (s, tag, none) =>
          let gen := natAt (p.listOf x.sample) 24 4
          let named := tag.take 20 == (cacheTag x.sample gen x.entry []).take 20 && decide (64 + n ≤ p.lineSize)
          let miss (s : State) : State := { s with ing := { s.ing with misses := s.ing.misses + 1 } }.putSlot { x with phase := .fetch }
          if !named then .next (miss s)
          else match s.readMem (a + 64) n with
            | (s, _, some _) => .next (s.ingestEvent 2 x.j x.step)
            | (s, bs, none) =>
              if natAt tag 20 4 = (crc32c bs).toNat then
                .next ({ s with ing := { s.ing with hits := s.ing.hits + 1 } }.putSlot { x with src := bs, hit := true, phase := .fetch })
              else .next (miss { s with ing := { s.ing with bads := s.ing.bads + 1 } })

/-- Fill the cache line of a sample: tag invalid, bytes, tag; or the ingest event that the fill raises (R256). -/
def State.fillLine (s : State) (x : Slot) (src : List Byte) : State × Option Nat :=
  let p := s.plan
  if p.lines = 0 || p.lineSize < 64 + src.length then (s, none)
  else match s.locAddr p.cache (x.sample % p.lines * p.lineSize) p.lineSize true with
    | none => (s, some 4)
    | some a =>
      let s := s.tlbRange a (64 + src.length)
      let (s, u) := s.writeMem a (cacheTag x.sample (natAt (p.listOf x.sample) 24 4) x.entry src ++ src)
      (s, u.map fun _ => 2)

/-- R238. Read a sample's src and init bytes; a miss fills its cache line. -/
def execSampleFetch (slot : Nat) (outcome : ReqOutcome) (s : State) : Host.Outcome State Fault Refusal :=
  match s.ing.oldest slot .fetch with
  | none => .next s
  | some x =>
    let src := natAt x.entry 0 8
    let init := natAt x.entry 16 8
    let n := if x.hit then 0 else natAt x.entry 8 4
    let k := natAt x.entry 12 4
    let toHost := (n != 0 && inHost src) || (k != 0 && inHost init)
    let s := match outcome with
      | .uncorrectable a => if inScree a && ((decide (src ≤ a) && decide (a < src + n)) || (decide (init ≤ a) && decide (a < init + k)))
          then s.spoil a else s
      | _ => s
    if !s.ingesting || (toHost && !s.host.dma && outcome != .linkError) then .next s
    else if outcome = .linkError then .next (s.ingestEvent 3 x.j x.step)
    else if (n != 0 && s.unmapped src n) || (k != 0 && s.unmapped init k) then .next (s.ingestEvent 1 x.j x.step)
    else match (if n = 0 then none else s.mem.faultPage src n false).or (if k = 0 then none else s.mem.faultPage init k false) with
      | some g => .next (s.blockSlot x g)
      | none =>
        let (s, a, ua) := (s.tlbRange src n).readMem src n
        let (s, b, ub) := (s.tlbRange init k).readMem init k
        if ua.isSome || ub.isSome then .next (s.ingestEvent 2 x.j x.step)
        else
          let bytes := if x.hit then x.src else a
          let (s, u) := if x.hit then (s, none) else s.fillLine x bytes
          match u with
          | some code => .next (s.ingestEvent code x.j x.step)
          | none => .next (s.putSlot { x with src := bytes, init := b, phase := .decode })

/-! ### Decode, shape and write (R240 to R245, R253, R254) -/

/-- What a slice delivers for a slot: the clip, its nframes pictures, and whether it is short (R243, R244). -/
def Slot.deliver (x : Slot) (usable : Nat) (f : Profile) : Clip × List Picture × Bool :=
  let e := x.entry
  let grey (depth : Nat) : Picture :=
    { width := f.wo, height := f.ho, cwidth := 0, cheight := 0, depth, luma := List.replicate (f.wo * f.ho) (2 ^ (depth - 1)), cb := [], cr := [],
      concealed := true }
  let clip : Clip := if entryReserved usable e then
      { (default : Clip) with
        supported := false
        audio := if entryUnreadable usable e || natAt e 40 4 = 0xFFFFFFFF then []
          else (unitsOfStream (natAt e 24 1) (natAt e 40 4) x.init x.src).map (·.bytes) }
    else decodeClip (natAt e 25 1) (natAt e 24 1) (natAt e 28 4) (natAt e 40 4) f.interlace x.init x.src
  if !clip.supported then (clip, List.replicate f.nframes (grey 8), false)
  else
    let have_ := (clip.pictures.drop (natAt e 32 4)).take f.nframes
    let missing : Picture := match have_.getLast? with
      | some q => { q with concealed := true }
      | none => grey (if clip.tenBit then 10 else 8)
    (clip, have_ ++ List.replicate (f.nframes - have_.length) missing, decide (have_.length < f.nframes))

/-- A descriptor of one block of `ext0` by `ext1` elements (Table 7.2, R253). -/
def descBytes (region offset ext0 ext1 stride1 : Nat) (fmt : Fmt) (chk : Word) (id seq : Nat) : List Byte :=
  bytesOf 8 (offset + region * 2 ^ 48) ++ bytesOf 4 ext0 ++ bytesOf 4 ext1 ++ bytesOf 4 1 ++ bytesOf 4 1 ++ bytesOf 4 stride1 ++ zeros 8
    ++ bytesOf 1 (fmt.code + 32) ++ zeros 3 ++ bytesOf 4 chk.toNat ++ zeros 4 ++ bytesOf 8 id ++ bytesOf 4 seq ++ zeros 4

/-- The sample record (Table 8.8). -/
def sampleRecord (x : Slot) (f : Profile) (clip : Clip) (pics : List Picture) (short truncated : Bool) (audio : Nat) : List Byte :=
  let supported := clip.supported
  let bits := pics.zipIdx.foldl (fun a q => if q.1.concealed then a + 2 ^ q.2 else a) 0
  let n := (pics.filter (·.concealed)).length
  bytesOf 8 x.sample ++ bytesOf 4 x.step ++ bytesOf 2 x.j
    ++ bytesOf 1 (1 + 2 * ofBool (n != 0) + 4 * ofBool (!supported) + 8 * ofBool short + 16 * ofBool truncated)
    ++ bytesOf 1 (natAt x.entry 25 1 % 8 + 8 * ofBool clip.tenBit + 16 * ofBool clip.interlaced) ++ bytesOf 2 clip.width ++ bytesOf 2 clip.height
    ++ bytesOf 2 f.nframes ++ bytesOf 2 n ++ bytesOf 4 audio ++ zeros 4 ++ bytesOf 32 bits

/-- Lay audio units out in a ring entry of `size` bytes: descriptors and payloads with their offsets from its start (R241). -/
def layAudio (region base size sample seq : Nat) : List (List Byte) → Nat → Nat → List (Nat × List Byte)
  | [], _, _ => []
  | u :: us, k, off =>
    if 1024 ≤ k || size < off + u.length then []
    else (64 * k, descBytes region (base + off) u.length 1 u.length .opaq (crc32c u) (sample * 2 ^ 24 + k) seq) :: (off, u)
      :: layAudio region base size sample seq us (k + 1) (off + cdiv u.length 64 * 64)

/-- Write runs (location offset, bytes) into a region: the state, or the ingest event to raise. -/
def State.ingestWrite (s : State) (rid : Nat) : List (Nat × List Byte) → State ⊕ (State × Nat)
  | [] => .inl s
  | (off, bs) :: ws => match s.regionPut 0 0 rid (off : Nat) bs with
    | (s, .ok _) => State.ingestWrite s rid ws
    | (s, .bad 4 _) => .inr (s, 2)
    | (s, _) => .inr (s, 4)

/-- What a slice delivers and the shaper makes of a slot. -/
structure Shaped where
  clip : Clip
  pics : List Picture
  /-- The token blocks in order, with the headers they carry from the shaper (R202, R254). -/
  blocks : List Block
  /-- Runs (location offset, bytes) in the order of their writes: the blocks' payloads, the audio buffer, and last the slot buffer's
  descriptors and record. -/
  payloads : List (Nat × List Byte)
  audioRuns : List (Nat × List Byte)
  runs : List (Nat × List Byte)
  deriving DecidableEq, Repr

/-- The ID of block i of a sample (R253). -/
def Profile.blockId (f : Profile) (sample i : Nat) : Nat :=
  sample * 2 ^ 24 + (i / (f.ho / f.p)) * 2 ^ 12 + i % (f.ho / f.p)

/-- Decode and shape a slot (R242 to R254): the payloads of its blocks, then their descriptors, then the sample record. -/
def Plan.shapeSlot (p : Plan) (usable : Nat) (x : Slot) : Shaped :=
  let f := p.profile x.j
  let e := p.slot x.j
  let buf := placeAt e 8
  let (clip, pics, short) := x.deliver usable f
  let shaped := (pics.map fun q => f.shape q clip.matrix (clip.fullRange && natAt x.entry 25 1 != 0)).toArray
  let rows := f.ho / f.p
  let entry := buf.2 + x.step % p.depth * natAt e 16 4
  let hidden (g : Nat) : Bool := ((pics.drop (f.t * g)).take f.t).any (·.concealed)
  let blocks : List Block := (List.range f.blocks).map fun i =>
    let data := f.block shaped (i / rows) (i % rows)
    { id := f.blockId x.sample i, step := BitVec.ofNat 32 x.step, region := buf.1, fmt := f.ofmt, transposed := false, concealed := hidden (i / rows),
      seq := x.j, ext0 := f.t * f.p * f.p * f.c, data, chk := crc32c data }
  let place (i : Nat) : Nat := entry + f.payloads + i * f.blockStep
  let ext0 := f.t * f.p * f.p * f.c
  let payloads := blocks.zipIdx.map fun b => (place b.2, b.1.data)
  let descs := blocks.zipIdx.map fun b =>
    (entry + 64 + 64 * b.2, descBytes buf.1 (place b.2) ext0 (f.wo / f.p) (ext0 * f.z) f.ofmt b.1.chk b.1.id x.j)
  let wantAudio := bitAt (natAt e 1 1) 0 && natAt x.entry 40 4 != 0xFFFFFFFF
  let abuf := placeAt e 20
  let abase := abuf.2 + x.step % p.depth * natAt e 28 4
  let laid := if wantAudio then layAudio abuf.1 abase (natAt e 28 4) x.sample x.j clip.audio 0 65536 else []
  let naudio := laid.length / 2
  let truncated := wantAudio && decide (naudio < clip.audio.length)
  { clip, pics, blocks, payloads, audioRuns := laid.map fun w => (abase + w.1, w.2),
    runs := descs ++ [(entry, sampleRecord x f clip pics short truncated naudio)] }

/-- Blocks `first` to `first + n - 1` of a slot are written: they form twin records (R277), which replace unmatched ones of a slot that has
started again (R256, R278). -/
def State.slotBlocks (s : State) (x : Slot) (r : Shaped) (twin : Bool) (n : Nat) : State :=
  let s := if twin then ((r.blocks.zipIdx.drop x.written).take n).foldl (fun s b =>
      s.noteTwin ⟨b.1.step, 0xFFFF, 0, x.j, 0, b.2, b.1.id, b.1.chk⟩ true) s else s
  s.putSlot { x with written := x.written + n }

/-- Everything of a slot is written: the counters count, and the slot is done. -/
def State.slotWritten (s : State) (x : Slot) (r : Shaped) : State :=
  let s := { s with ing := { s.ing with
    samples := s.ing.samples + 1, pixels := s.ing.pixels + r.clip.pixels,
    conceals := s.ing.conceals + (r.pics.filter fun (q : Picture) => q.concealed).length } }
  s.putSlot { x with phase := .done, src := [], init := [], written := r.blocks.length }

/-- R242. A slice in state ON (R435) decodes a slot's sample; the shaper writes its blocks, then its audio blocks and record. While this
device holds 32,768 unmatched twin records, no block that forms one completes (R278): the slot goes on from there. A slice that idles off is
asked for first, and goes off again after the sample (R435). -/
def execSampleDecode (slot : Nat) (slice : Fin 32) (s : State) : Host.Outcome State Fault Refusal :=
  match s.ing.oldest slot .decode with
  | none => .next s
  | some x =>
    let e := s.plan.slot x.j
    let twin := s.job.twinRegion (placeAt e 8).1
    if !s.ingesting then .next s
    else if s.pow.domains[80 + slice.val] != .on then .next (if s.pow.sliceIdleOff then s.domainRequest (dom (80 + slice.val)) true else s)
    else
      let r := s.plan.shapeSlot s.mem.usable x
      let left := r.blocks.length - x.written
      let n := if twin then s.twinSpace left else left
      match s.ingestWrite (placeAt e 8).1 ((r.payloads.drop x.written).take n) with
      | .inr (s, code) => .next (s.ingestEvent code x.j x.step)
      | .inl s =>
        let s := s.slotBlocks x r twin n
        if n < left then .next s
        else match s.ingestWrite (placeAt e 20).1 r.audioRuns with
          | .inr (s, code) => .next (s.ingestEvent code x.j x.step)
          | .inl s => match s.ingestWrite (placeAt e 8).1 r.runs with
            | .inr (s, code) => .next (s.ingestEvent code x.j x.step)
            | .inl s => .next (s.slotWritten x r).idleSlices

/-- R235. The blocks and record of a slot are visible: its increment goes to the token counter, in step order. -/
def execSlotComplete (slot : Nat) (s : State) : Host.Outcome State Fault Refusal :=
  match s.ing.oldest slot .done with
  | none => .next s
  | some x =>
    if !s.ingesting || (s.ing.slots.any fun y => y.j == x.j && decide (y.step < x.step)) then .next s
    else
      let e := s.plan.slot x.j
      let s := { s with ing := { s.ing with slots := s.ing.slots.filter fun y => !(y.j == x.j && y.step == x.step) } }
      .next (s.addTokenV (natAt e 2 2) (natAt e 4 1) (natAt e 6 2))

/-! ### Delay causes (R255) -/

/-- (token counter, cause) of the ingest completions a virtual core may wait for. -/
def State.ingestCauses (s : State) (num : Nat) : List (Nat × Nat) :=
  if !s.ingesting then []
  else
    let p := s.plan
    (List.range p.nslots).filterMap fun j =>
      let e := p.slot j
      if natAt e 2 2 ≠ num then none
      else
        let first := (s.ing.slots.filter fun x => x.j == j).foldl (fun best x => match best with
          | none => some x
          | some (b : Slot) => if x.step < b.step then some x else some b) none
        let cause := match first with
          | none => 0x0D
          | some x =>
            if x.blocked.isSome then 0x0A
            else if x.phase = .decode && s.job.twinRegion (placeAt e 8).1 && !s.twinRoom 1 then 4
            else if (x.phase = .lookup && p.lines != 0) || (x.phase = .fetch && inScree (natAt x.entry (if x.hit then 16 else 0) 8)
                && (!x.hit || natAt x.entry 12 4 != 0)) then 9
            else 0x0D
        some (natAt e 4 1, cause)

end Sys2Proof.Machine
end

