-- ==== Sys2Proof/Machine/Watch.lean ====
section
/-! DEFINITION. What a core waits for: the delay causes of the operations that can end a wait (R224, R255, R326), the cycles that count
under them (R175, R222), the ends of waits (R170, R173), MIGRATE points (R197), and the watchdog (R174). -/

namespace Sys2Proof.Machine

/-- The lowest of a list of delay causes, 0 when there is none. -/
def lowestCause : List Nat → Nat
  | [] => 0
  | c :: cs => let r := lowestCause cs; if c = 0 then r else if r = 0 then c else min c r

/-- A task's waiting memory requests: the place of each in the order of the task's requests, and its delay cause (R224). -/
def Task.waits (t : Task) : List (Nat × Nat) :=
  t.stages.flatMap fun st => (st.reqs.filter fun r => r.cause != 0).map fun r => (r.no, r.cause)

/-- A waiting strand's counter is one that the task increments. -/
def VCore.awaits (v : VCore) (ctr : Nat) : Bool := v.liveStrands.any fun k => match v.strands[k].wait with
  | .token c _ _ => decide (c.toNat = ctr)
  | _ => false

/-- A packet of an operation's open or block waits in a send queue: for a retrain, for light or for a credit (R314, R318). -/
def State.txQueued (s : State) (opId index : Nat) : Bool :=
  s.fab.ports.any fun q => q.sendq.any fun w =>
    natAt w.packet 4 2 == s.ownAddr.toNat && natAt w.packet 12 4 == opId && natAt w.packet 16 4 == index

/-- The open and the sent blocks of an operation that wait for a resend, or for a replay or a credit of their port (R314, R325). -/
def State.txWaits (s : State) (o : TxOp) : List (Nat × Nat) :=
  let v3 := match o.target with
    | .send => false
    | .coll _ _ _ _ => true
  let replaying := match s.route o.dest v3 with
    | some (some n, _) => s.fab.ports[n]!.replays != 0 || s.fab.ports[n]!.state == .retraining
    | _ => false
  let late (index resends : Nat) : Bool := decide (0 < resends) || replaying || s.txQueued o.opId index
  (if !o.opened && late 0xFFFFFFFF o.openResends then [(o.no, 4)] else [])
    ++ (o.blocks.filter fun b => b.sent && !b.acked && late b.index b.resends).map fun b => (b.no, 4)

/-- What a task waits for, each with its place in the order of the task's requests and its cause (R224): memory requests, sends, and the
contributions due from peers. -/
def State.taskWaits (s : State) (p : Fin 20) (t : Task) : List (Nat × Nat) :=
  t.waits ++ ((s.fab.tx.filter fun o => o.core == p.val && o.task == t.id).flatMap s.txWaits)
    ++ (s.fab.colls.filter fun c => c.core == some p.val && c.task == t.id && c.ownDone).map fun c => (c.no, 0x0E)

/-- The delay cause of a task: that of the oldest of its requests that wait, 0 for none (R224). -/
def State.taskCause (s : State) (p : Fin 20) (t : Task) : Nat :=
  ((s.taskWaits p t).foldl (fun (best : Option (Nat × Nat)) w => match best with
    | none => some w
    | some b => if w.1 < b.1 then some w else some b) none).elim 0 (·.2)

/-- The delay causes among the operations that increment a counter for which `awaits` holds (R224, R255, R326). -/
def State.causesFor (s : State) (p : Fin 20) (num : Nat) (awaits : Nat → Bool) : List Nat :=
  let own := ((s.core p).tasks.filter fun t => decide (0 < t.tinc) && awaits t.tok).map (s.taskCause p)
  let ing := ((s.ingestCauses num).filter fun o => awaits o.1).map (·.2)
  let rx := (s.fab.rx.filter fun o => o.guarded && natAt o.params 2 2 == num && awaits (natAt o.params 4 1)).map fun _ => 6
  own ++ ing ++ rx

/-- The delay causes among the operations that increment a counter on which a strand of a virtual core waits (R224). -/
def State.delayCauses (s : State) (p : Fin 20) (v : VCore) : List Nat := s.causesFor p v.num v.awaits

/-- From its quiet cycle on every counted cycle of the core is one of R175: no instruction of MA, VE or RU is queued and every live strand
waits at a TWAIT or CLAIM or for the tracker, or every one waits at a MIGRATE. -/
def Core.allWait (c : Core) (v : VCore) : Bool :=
  let each (f : Wait → Bool) : Bool := v.liveStrands.all fun k => f v.strands[k].wait
  c.unqueued && !v.liveStrands.isEmpty
    && (v.allMigrate || each fun w => match w with
          | .token _ _ _ | .claim _ => true
          | .tracker _ => decide (64 ≤ c.tasks.length)
          | _ => false)

/-- The code a waiting cycle counts under (R175, R224): the lowest delay cause, else 0x08. -/
def waitCode (causes : List Nat) : Nat := let r := lowestCause causes; if r = 0 then 8 else r

/-- The codes of a stop of issue (Table 7.8): a checkpoint boundary hold and any other hold once the core is drained, a stop for a fault, for
arbitration and for Summit from the stop on (R346, R351, R405). -/
def Core.stopCodes (c : Core) : CycleCodes :=
  let held := max c.stopAt c.quietAt
  (if c.unqueued && (c.hold == .boundary || c.holdReq == .boundary) then [(6, held)] else [])
    ++ (if c.unqueued && ((c.hold != .none && c.hold != .boundary) || (c.holdReq != .none && c.holdReq != .boundary)) then [(0x0B, held)] else [])
    ++ (if c.faultStop || c.chkStop then [(0x0B, c.stopAt)] else []) ++ if c.debugHeld then [(0x0C, c.stopAt)] else []

/-- The codes of the counted cycles to come of core `p` (R32, R175, R222, R224): a stretched cycle, a paused job, a stop of issue, and from
its quiet cycle on a wait. -/
def State.cycleCodes (s : State) (p : Fin 20) : CycleCodes :=
  let c := s.core p
  plainCodes (s.pow.stretched p) ++ match c.v with
    | none => []
    | some v => (if s.job.state == .paused && c.test.isNone then [(0x0B, 0)] else []) ++ (if c.allWait v then [(waitCode (s.delayCauses p v), c.quietAt)] else [])
        ++ c.stopCodes

/-- The core goes on to counted cycle `t`; its running instructions do what falls in the cycles on the way, and each counts under its code. -/
def State.advanceWaiting (s : State) (p : Fin 20) (t : Nat) : State :=
  State.advanceFor (fun s => s.cycleCodes p) (s.core p).pieces s p t

/-! ### Ends of waits -/

/-- R173. A waiting TWAIT completes, lower strands on the same counter first; with consume it takes n. A counter raised in this cycle
is seen from the next. -/
def execTwaitComplete (core : Fin 20) (strand : Fin 128) (s : State) : Host.Outcome State Fault Refusal :=
  let c := s.core core
  match c.v with
  | none => .next s
  | some v =>
    match v.strands[strand].wait, c.tokenDue v strand with
    | .token ctr n consume, some t =>
      if !s.running core || (c.stopped && decide (c.stopAt ≤ t)) || c.dryBefore t then .next s
      else
        let s := (s.advanceWaiting core t).noteToken core ⟨strand.val, ctr.toNat, n, true, t⟩
        let s := s.modV core fun v =>
          if consume then { v with tokens := v.tokens.set! ctr.toNat (v.tokens[ctr.toNat]! - BitVec.ofNat 16 n) } else v
        .next (s.commit core strand t)
    | _, _ => .next s

/-- R170. A pending CLAIM is granted when its engines are free and no lower strand's pending CLAIM can be granted. An engine
freed in this cycle is free from the next. -/
def execClaimGrant (core : Fin 20) (strand : Fin 128) (s : State) : Host.Outcome State Fault Refusal :=
  let c := s.core core
  match c.v with
  | none => .next s
  | some v =>
    match v.strands[strand].wait, c.claimDue v strand with
    | .claim e, some t =>
      if !s.running core || (c.stopped && decide (c.stopAt ≤ t)) || c.dryBefore t then .next s
      else .next ((s.advanceWaiting core t).modStrand core strand fun st => { st.issued t with claims := st.claims ||| e })
    | _, _ => .next s

/-! ### A drained core and its MIGRATE points -/

/-- The counted cycle from which every instruction, of whatever kind, has passed its last cycle of Table 6.6 (R345, R359, R368). -/
def Core.settledAt (c : Core) : Nat :=
  let runs := c.runs.flatMap fun r => r.todo.filterMap fun q => q.getLast?.map (·.1)
  let writes := (c.accesses.filter fun a => a.write).map (·.visible)
  let bounds := match c.v with
    | some v => v.bounds.toList.map (·.since)
    | none => []
  max (maxOf (runs ++ writes ++ bounds)) c.quietAt

/-- Counted cycles pass, at most `n`, until nothing waits at a write port (R123, R197). -/
def Core.settle (k : CycleCodes) (per : Nat) : Nat → Core → Core
  | 0, c => c
  | n + 1, c => if c.portsQuiet then c else Core.settle k per n (c.nextCycle k per)

/-- The core has drained by cycle `quiet`, and every witness unit of its virtual core has an empty queue (R274): it goes on to that cycle,
and until its skid buffers are empty. What the present cycle changes of the token counters is done. -/
def State.drainedBy (s : State) (p : Fin 20) (quiet : Nat) : Option State :=
  let c := s.core p
  if !c.drained || decide (c.cycle < quiet && c.dryBefore quiet) then none
  else
    let s := s.advanceWaiting p (max c.cycle quiet)
    let s := s.modCore p fun c =>
      (c.settle (s.cycleCodes p) (JobState.periods s.job.latAudit)
        ((c.ports.toList.map fun k => k.skid.length + k.wants + 1).foldl max 0)).endTokens
    let empty := match (s.core p).v with
      | some v => v.witness.all fun u => (s.rep.units[u.1]!).steps.isEmpty && (s.rep.units[u.1]!).left (s.core p).clk == 0
      | none => true
    if empty then some s else none

/-- Every instruction of MA, VE and RU has passed its last cycle: the core stands at the first cycle of R197. -/
def State.atPoint (s : State) (p : Fin 20) : Option State := s.drainedBy p (s.core p).quietAt

/-- Every instruction issued has passed its last cycle, as a hold at a STEP or a recheck waits for it (R345, R359, R368). -/
def State.quiesced (s : State) (p : Fin 20) : Option State := s.drainedBy p (s.core p).settledAt

/-- R197, R198. Every live strand waits at one point and the core has drained: the point is reached. Without mig_hold the
strands resume in the next counted cycle; with it the core holds and Summit is interrupted. -/
def execMigratePointReached (core : Fin 20) (s : State) : Host.Outcome State Fault Refusal :=
  let c := s.core core
  match c.v with
  | none => .next s
  | some v =>
    match v.points with
    | [] => .next s
    | q :: qs =>
      if !s.running core || c.stopped || !v.allMigrate || !qs.all (· == q) then .next s
      else match s.atPoint core with
        | none => .next s
        | some s =>
          let s := s.modCore core fun c => { c with migPoint := q }
          if c.migHold || s.testWaits core then .next (s.modCore core fun c => { c.stop with hold := .migrate })
          else .next (s.modCore core fun c => c.modV fun v => v.resumeMigrate (c.cycle + 1))

/-! ### The watchdog (R174) -/

/-- An operation that can end the wait carries cause 0x0A: the watchdog does not advance. -/
def State.waitsOnFault (s : State) (p : Fin 20) (v : VCore) (wait : Wait) : Bool :=
  match wait with
  | .token ctr _ _ => (s.causesFor p v.num fun c => c == ctr.toNat).contains 0x0A
  | .migrate _ | .tracker _ => (s.core p).tasks.any fun t => s.taskCause p t == 0x0A
  | _ => false

/-- R174. A wait longer than wdog_ms raises fault 0x06; the instruction does not complete and is issued again. -/
def execDeadlock (core : Fin 20) (strand : Fin 128) (waitedMs : Nat) (s : State) : Host.Outcome State Fault Refusal :=
  let c := s.core core
  match c.v with
  | none => .next s
  | some v =>
    let st := v.strands[strand]
    let held := s.host.pcieUp && !s.host.busMaster
    if s.pow.boot != .imago || s.job.state != .running || c.test.isSome || c.stopped || !st.live
        || decide (waitedMs ≤ s.job.wdogMs) || s.waitsOnFault core v st.wait || held then .next s
    else
      let go (opcode info : Nat) : State :=
        (s.fault core strand 6 opcode info).modStrand core strand fun st => { st with wait := .none }
      match st.wait with
      | .token ctr _ _ => .next (go 0x013 ctr.toNat)
      | .claim e => .next (go 0x010 (e.toNat + 0x100))
      | .migrate _ => .next (go 0x007 0x200)
      | .tracker op => .next (go op 0x200)
      | _ => .next s

end Sys2Proof.Machine
end

