-- ==== Sys2Proof/Machine/Checking.lean ====
section
/-! DEFINITION. The range checker, arbitration by re-execution, firmware's answer to core faults, and the moves of virtual cores
between physical cores (R199, R306, R338 to R351). -/

namespace Sys2Proof.Machine

/-! ### CHKSET (R340) -/

/-- A reserved value of a bound record: the lowest bit of the first offending field, or none. `vector` is set 1. -/
def boundsFault (rec_ : List Byte) (vector : Bool) : Option Nat :=
  let neg (off : Nat) : Bool :=
    let v := fp32.decode (natAt rec_ off 4)
    !v.isNan && !(v.isZero) && v.sign
  firstBad [(!(fp32.decode (natAt rec_ 0 4)).isNan && !neg 0, 0), (!(fp32.decode (natAt rec_ 8 4)).isNan && !neg 8, 64),
    (vector || natAt rec_ 12 4 == 0, 96), (natAt rec_ 20 1 / 2 == 0, 161), (allZero (sub rec_ 21 11), 168)]

/-- The bound set of a record (Table 12.2). -/
def Bounds.ofRecord (rec_ : List Byte) : Bounds :=
  { amax := BitVec.ofNat 32 (natAt rec_ 0 4), nanMax := natAt rec_ 4 2, infMax := natAt rec_ 6 2,
    l2max := BitVec.ofNat 32 (natAt rec_ 8 4), watch := BitVec.ofNat 32 (natAt rec_ 12 4),
    boundId := BitVec.ofNat 32 (natAt rec_ 16 4), enable := bitAt (natAt rec_ 20 1) 0 }

/-- R340. Write a bound set; it applies to taps of instructions that take effect from issue + 4 on (Table 6.6). -/
def execChkset (core : Fin 20) (strand : Fin 128) (ops : BitVec 118) (s : State) : Host.Outcome State Fault Refusal :=
  let w := wordOf ops 0x060
  let set := fld w 24 1
  s.issue core strand w false .none (fun _ _ st => [alignedTo (taAt w st.x 25) 64 25, resvFrom w 47]) fun s v st t =>
    let a := taAt w st.x 25
    match v.rangeFault [(a, 32)] .read with
    | some x => s.fault core strand 2 0x060 (infoAddr x)
    | none =>
      let rd := [Access.read .tile a.toNat 32 (t + 1) strand st.pc]
      let s := s.readNow core rd
      let v := s.vNow core v
      match rd.findSome? v.badAccess with
      | some f => s.fault core strand f.1 0x060 f.2
      | none =>
        s.audit core strand 0x060 rd [] fun s =>
          let rec_ := (s.core core).tileAt v a.toNat 32 (t + 1)
          match boundsFault rec_ (set == 1) with
          | some b => s.fault core strand 1 0x060 (65536 + b)
          | none =>
            let old := v.bounds[set]!
            let new : CheckSet := { cur := Bounds.ofRecord rec_, prev := old.at t, since := t + 4 }
            (s.modV core fun v => { v with bounds := v.bounds.set! set new }).commit core strand t

/-! ### Moves of virtual cores (R197 to R200, R306, R347) -/

/-- A bound set as it travels: what is in force counts from the first cycle on. -/
def CheckSet.settle (b : CheckSet) : CheckSet := { b with prev := b.cur, since := 0 }

/-- A virtual core as it leaves a physical core (R199). -/
def Core.leaveV (c : Core) (v : VCore) : VCore :=
  { v with bounds := v.bounds.map CheckSet.settle, shadowOk := c.shadowValid,
           strands := v.strands.map fun st => { st with faulted := none } }

/-- Lines of the instruction buffer after a preload: the first 64 KiB of the code section (R167). -/
def VCore.preload (v : VCore) : List Nat := List.range (min 64 (cdiv v.codeLen 64))

/-- A physical core takes in a virtual core at a hold: it shows as held, and issues after the release. -/
def Core.takeV (c : Core) (v : VCore) (h : Hold) : Core :=
  { c with v := some v, shadowValid := v.shadowOk, ibuf := v.preload, hold := h, holdReq := .none, stopAt := c.cycle, swaps := [],
           runs := [], oldSets := [], tags := [], fillAt := 0, filling := false, lastMultiply := 0, accesses := [], tokenOps := [] }

/-- The hold in which a virtual core rests: at a STEP, or at a MIGRATE point or before its first instruction. -/
def VCore.restsIn (v : VCore) (step : Hold) : Hold :=
  if v.liveStrands.any fun k => v.strands[k].wait == .step then step else .migrate

/-- Placement event (R265). -/
def State.postPlacement (s : State) (num old new point step : Nat) : State :=
  s.post 0x0901 (bytesOf 4 s.job.rank ++ bytesOf 2 num ++ bytesOf 1 old ++ bytesOf 1 new ++ bytesOf 2 point ++ zeros 2 ++ bytesOf 4 step)

/-- Move the resident virtual core of `src` to the idle spare `dst`, which is powered and which core reset has cleared (R199, R432,
R435). `left` is what the source core becomes. -/
def State.moveV (s : State) (src dst : Fin 20) (left : CoreKind) : State :=
  let c := (s.core src).endTokens
  match c.v with
  | none => s
  | some v =>
    let w := c.leaveV v
    let d := ((s.core dst).afterReset .active).takeV w c.hold
    let d := { d with partner := c.partner, migHold := c.partner.isSome, migPoint := c.migPoint, issuedFor := c.issuedFor,
                      nextTask := c.nextTask }
    let s := (s.powerCore dst).setCore dst d
    let s := s.setCore src { c.afterReset left with lastV := some (v.num, v.stepTag.toNat) }
    let s := s.postPlacement v.num src.val dst.val c.migPoint.toNat v.stepTag.toNat
    let s := match c.partner with
      | some w => s.postPlacement w.num src.val dst.val c.migPoint.toNat w.stepTag.toNat
      | none => s
    s.applyHeld dst

/-- A core leaves service at its virtual core's next MIGRATE point (R347): 1 arbitration, 2 field test, 3 Cairn fail,
4 CORE_RETIRE. The first reason stands. -/
def Core.leave (c : Core) (reason : Nat) : Core := { c with migHold := true, leaving := c.leaving.or (some reason) }

/-- The event of a core that has left service: 0x0E04 for CORE_RETIRE, else 0x0C03 (Table 12.8). -/
def State.postLeft (s : State) (p : Fin 20) (reason : Nat) : State :=
  let (num, step) := (s.core p).lastV.getD (0xFFFF, 0)
  if reason = 4 then s.post 0x0E04 (bytesOf 1 p.val ++ zeros 3 ++ bytesOf 4 step)
  else s.post 0x0C03 (bytesOf 2 p.val ++ bytesOf 2 num ++ bytesOf 4 step ++ bytesOf 1 reason)

/-- A core without a virtual core goes out of service and is recorded in flash (R347). -/
def State.takeOut (s : State) (p : Fin 20) (reason : Nat) : State :=
  let s := s.modCore p fun c => { c.afterReset .out with leaving := none }
  let out := s.pow.flash.healthOut
  let s := { s with pow := { s.pow with flash := { s.pow.flash with healthOut := if out.contains p.val then out else out ++ [p.val] } } }
  s.postLeft p reason

/-! ### Field tests on freed and idle cores (R357, R358) -/

/-- Instruction bytes of a package's test code (Table 12.7). -/
def Package.code (k : Package) : List Byte := sub k.bytes 64 (natAt k.bytes 16 4)

/-- The virtual core of a field test: its code at the top of tile memory, everything below it data, entry at strand 0 (log 28). -/
def testVCore (bytes : List Byte) (epoch : Nat) : VCore :=
  let code := sub bytes 64 (natAt bytes 16 4)
  let base := (20971520 - code.length) / 1024 * 1024
  let strands := (Vector.replicate 128 Strand.idle).set 0 { Strand.idle with live := true }
  let v : VCore :=
    { num := 0xFFFF, strands, tokens := Vector.replicate 256 0, stepTag := 0, flags := .none, vt := .undefined 32 epoch, vm := .undefined 1 epoch,
      acc := .undefined 32 epoch, slotTags := Vector.replicate 512 .unset, accBad := [], accSoft := [], tileSoft := [], vtBad := [], tile := .undefined 8 epoch, tileBad := [],
      regions := [⟨0, 0, base, true, true, false⟩, ⟨1, base, 20971520 - base, true, false, true⟩],
      bounds := Vector.replicate 2 ⟨.off, .off, 0⟩, active := .unloaded, shadow := .unloaded, armed := none,
      buffers := Vector.replicate 16 ⟨0, 0, 0, 0⟩, codeBase := base, codeLen := code.length / 16, vIssued := false, shadowOk := false,
      witness := [] }
  v.writeTile base code

/-- Start a package on a core that is powered: core reset, then strand 0 of the test code (R357, R432, R435). -/
def State.startTest (s : State) (p : Fin 20) (k : Package) (home : Option Nat) : State :=
  let (e, s) := s.fresh
  (s.powerCore p).modCore p fun c =>
    let v := testVCore k.bytes e
    { c.afterReset c.kind with v := some v, ibuf := v.preload, test := some ⟨k.id, k.version, k.bytes, home, false⟩, saved := c.saved,
                                partner := c.partner }

/-- The oldest package due on a core. -/
def State.dueOn (s : State) (p : Fin 20) : Option Package := s.chk.packages.find? fun k => k.due[p]

/-- A virtual core held for a forced test issues again, and with no forced test left the job resumes (R359). -/
def State.endForcedHold (s : State) (p : Fin 20) : State :=
  let s := s.modCore p fun c =>
    if c.hold = .stepTest then { c with hold := .none }.modV fun v => v.resumeStep c.resumeAt else c
  let s := s.applyHeld p
  let more := coreNums.any fun q => (s.core q).hold == .stepTest || ((s.core q).test.any fun t => t.home.isSome)
  if more then s else s.resumeAll 2

/-- Firmware's part of a forced test once the core is held, and while no arbitration comes first (R348): pause, move or save the virtual
core, start the test (R359). -/
def State.forceTest (s : State) (p : Fin 20) : State :=
  if !s.chk.arbs.isEmpty then s
  else
    let s := s.modCore p fun c => { c with stepHold := false }
    match s.dueOn p, (s.core p).v with
    | some k, some v =>
      let s := s.pauseAll 2
      match s.idleSpare with
      | some d => (s.moveV p d .spare).startTest p k (some d.val)
      | none =>
        let c := s.core p
        let s := s.modCore p fun c => { c with saved := some (c.leaveV v), lastV := some (v.num, v.stepTag.toNat), v := none }
        (s.postPlacement v.num p.val 0xFF c.migPoint.toNat v.stepTag.toNat).startTest p k (some p.val)
    | _, _ => s.endForcedHold p

/-- Forced tests that an arbitration held back start (R348). -/
def State.startForced (s : State) : State :=
  coreNums.foldl (fun (s : State) p =>
    let c := s.core p
    if c.hold == .stepTest && c.stepHold && c.test.isNone && s.jobLive then s.forceTest p else s) s

/-- Tests that can start do: forced ones, then spare and idle cores with a package due, one at a time, in ascending order, while no
arbitration waits (R348, R358). -/
def State.startTests (s : State) : State :=
  let s := s.startForced
  if !s.chk.arbs.isEmpty || s.pow.boot ≠ .imago || (coreNums.any fun p => (s.core p).test.isSome) then s
  else
    let idle (p : Fin 20) : Bool :=
      let c := s.core p
      (c.kind == .spare || c.kind == .active) && c.v.isNone && c.saved.isNone && c.leaving.isNone
    match coreNums.find? fun p => idle p && (s.dueOn p).isSome with
    | none => s
    | some p => match s.dueOn p with
      | some k => s.startTest p k none
      | none => s

/-! ### Trips (R343, R345, R348, R349) -/

/-- A trip before another in the arbitration queue (R348). -/
def Arb.before (a b : Arb) : Bool :=
  decide (a.verdict.cycle < b.verdict.cycle) || (decide (a.verdict.cycle = b.verdict.cycle) && decide (a.core < b.core))

/-- A trip among those that wait, in order of verdict cycle and core. -/
def insertArb (x : Arb) : List Arb → List Arb
  | [] => [x]
  | y :: ys => if x.before y then x :: y :: ys else y :: insertArb x ys

/-- Queue a trip, behind the one that is in arbitration already. -/
def State.queueArb (s : State) (x : Arb) : State :=
  let began (y : Arb) : Bool := y.run2.isSome || (s.core (Fin.ofNat 20 y.core)).recheck.isSome
  { s with chk := { s.chk with arbs := match s.chk.arbs with
      | [] => [x]
      | y :: ys => if began y then y :: insertArb x ys else insertArb x (y :: ys) } }

/-- The payload of Table 12.9. -/
def arbPayload (v : Verdict) (num core spare outcome : Nat) (flags : Bool) (c1 c2 c3 : Nat) : List Byte :=
  bytesOf 4 v.step.toNat ++ bytesOf 2 num ++ bytesOf 1 core ++ bytesOf 1 spare ++ bytesOf 4 v.boundId.toNat
    ++ bytesOf 1 (v.reasons + 16 * outcome) ++ bytesOf 1 (ofBool flags) ++ bytesOf 2 v.pc ++ bytesOf 4 c1 ++ bytesOf 4 c2 ++ bytesOf 4 c3
    ++ bytesOf 4 v.nans ++ bytesOf 4 v.infs ++ bytesOf 4 v.m.toNat ++ bytesOf 4 v.s.toNat

/-- Number of the resident virtual core. -/
def Core.vnum (c : Core) : Nat := (c.v.map (·.num)).getD 0xFFFF

/-- The earliest verdict due on a core. -/
def Core.firstVerdict (c : Core) : Option Verdict :=
  c.verdicts.foldl (fun best d => match best with
    | none => some d
    | some b => if d.cycle < b.cycle then some d else some b) none

/-- R343. The earliest verdict of a core falls: a unit that passes leaves no record, a trip counts and stops the core or asks
for rollback. Trips of a field test or of a recheck context only count (log 55). -/
def execCheckerVerdict (core : Fin 20) (s : State) : Host.Outcome State Fault Refusal :=
  match (s.core core).firstVerdict with
  | none => .next s
  | some d =>
    let c := s.core core
    let rest := { c with verdicts := c.verdicts.erase d }
    let t := max c.cycle d.cycle
    if rest.overdue t then .next s
    else
      let s := (s.setCore core rest).advanceWaiting core t
      if d.reasons = 0 then .next s
      else
        let s := s.modCore core fun c =>
          { c with tripCnt := c.tripCnt + 1, tripSet := d.set == 1, tripReasons := BitVec.ofNat 4 d.reasons }
        if c.test.isSome || c.recheck.isSome then .next s
        else if d.recheckable then
          let run1 := ((s.core core).v.map fun v => v.readTile d.dst d.len).getD []
          .next ((s.modCore core fun c => { c.stop with chkStop := true }).queueArb ⟨core.val, d, run1, none⟩)
        else .next ((s.pauseAll 3).post 0x0C02 (arbPayload d c.vnum core.val 0xFF 0 false d.crc 0 0))

/-! ### Arbitration (R344 to R348) -/

/-- The recheck entry of a tripped unit (R344, R420). -/
def State.recheckOf (s : State) (core : Fin 20) (d : Verdict) : Option Recheck :=
  s.job.rechecks.find? fun r => r.vcore == (s.core core).vnum && r.pc == d.pc

/-- A spare exists, idle or testing: the spare pool is not empty (R34, R348). -/
def State.hasSpare (s : State) : Bool := coreNums.any fun p => (s.core p).pool

/-- The arbitration at the head of the queue ends with an outcome of Table 12.3; field tests that it held back start (R348, R358). -/
def State.arbDone (s : State) (core : Fin 20) (a : Arb) (run2 : List Byte) (run3 : Option (List Byte)) (spare outcome : Nat) : State :=
  let s := { s with chk := { s.chk with arbs := s.chk.arbs.drop 1 } }
  let crc3 := (run3.map fun r => (crc32c r).toNat).getD 0
  let payload := arbPayload a.verdict (s.core core).vnum core.val spare outcome (decide (2 ≤ outcome))
    (crc32c a.run1).toNat (crc32c run2).toNat crc3
  let s := if outcome = 3 then s.modV core fun v => v.writeTile a.verdict.dst run2 else s
  if outcome = 1 then
    let s := s.modCore core fun c => { c with falseCnt := c.falseCnt + 1 }
    ((s.charge (64 + core.val) 1 0 0).post 0x0C01 payload).startTests
  else
    let s := (s.modCore core fun c => c.leave 1).charge (64 + core.val) 0 0 1
    let s := s.post 0x0C01 payload
    (if outcome = 4 || outcome = 5 then (s.pauseAll 3).post 0x0C02 payload else s).startTests

/-- The strands of a recheck context: strand 0 stands at the routine and holds all four engines (R345). -/
def Recheck.strands (r : Recheck) : Vector Strand 128 :=
  (Vector.replicate 128 Strand.idle).set 0 { Strand.idle with live := true, pc := BitVec.ofNat 16 r.first, claims := 0xF }

/-- The routine has halted and all that it issued is done: the bytes of its scratch destination. -/
def State.scratchOf (s : State) (p : Fin 20) (r : Recheck) : Option (State × List Byte) :=
  match (s.core p).v with
  | none => none
  | some v =>
    if !v.liveStrands.isEmpty then none
    else (s.quiesced p).bind fun t => (t.core p).v.map fun v => (t, v.readTile r.scratch r.len)

/-- R345. Firmware runs the recheck routine in the drained core's recheck context with rotated columns: as it begins, the routine's strands
take the place of the virtual core's, and its instructions issue as any; as it ends, the strands stand as they stood. Equal outputs are a
false alarm; a disagreement goes to a third run, or ends here when no spare exists. -/
def execRecheckRun (core : Fin 20) (phase : RunPhase) (s : State) : Host.Outcome State Fault Refusal :=
  match s.chk.arbs with
  | [] => .next s
  | a :: rest =>
    if a.core ≠ core.val then .next s
    else match s.recheckOf core a.verdict, phase, (s.core core).recheck with
    | some r, .begins, none =>
      if a.run2.isSome then .next s
      else match s.quiesced core with
        | none => .next s
        | some s => .next ((s.modCore core fun c => { c with rotate := true, recheck := c.v.map fun v => v.strands }).modV core fun v =>
            { v with strands := r.strands })
    | some r, .ends, some strands => match s.scratchOf core r with
      | none => .next s
      | some (s, run2) =>
        let s := (s.modCore core fun c => { c with recheck := none }).modV core fun v => { v with strands }
        if run2 = a.run1 then .next (s.arbDone core a run2 none 0xFF 1)
        else if !s.hasSpare then .next (s.arbDone core a run2 none 0xFF 5)
        else .next { s with chk := { s.chk with arbs := { a with run2 := some run2 } :: rest } }
    | _, _, _ => .next s

/-- The spare on which a third run goes on. -/
def State.thirdOn (s : State) : Option (Fin 20) := coreNums.find? fun p => (s.core p).test.any fun t => t.third

/-- The context of a third run: the routine and the input ranges at the addresses they have on the suspect core, in the same tile regions;
everything else is as a core reset leaves it (R346, R432). -/
def Recheck.context (r : Recheck) (v : VCore) (epoch : Nat) : VCore :=
  let ranges := (v.codeBase + 16 * r.first, 16 * (r.last + 1 - r.first)) :: r.inputs
  ranges.foldl (fun (x : VCore) (a : Nat × Nat) => x.writeTile a.1 (v.readTile a.1 a.2))
    { testVCore [] epoch with strands := r.strands, regions := v.regions, buffers := v.buffers, codeBase := v.codeBase, codeLen := v.codeLen }

/-- R346. As it begins, firmware powers the lowest-numbered idle spare and starts the routine there a third time, without rotation; as it
ends, the outputs decide, the flags that the run raised stay set (R71), and the spare is idle again. It waits for a spare that a field test
holds; once the pool is empty there is no third run (R348). -/
def execThirdRun (core : Fin 20) (phase : RunPhase) (s : State) : Host.Outcome State Fault Refusal :=
  match s.chk.arbs with
  | [] => .next s
  | a :: _ =>
    match a.run2, s.recheckOf core a.verdict with
    | some run2, some r =>
      if a.core ≠ core.val then .next s
      else match phase, s.thirdOn with
        | .begins, none => match s.idleSpare, (s.core core).v with
          | some spare, some v =>
            let (e, s) := s.fresh
            let x := r.context v e
            .next ((s.powerCore spare).modCore spare fun c =>
              { c.afterReset c.kind with v := some x, ibuf := x.preload, test := some ⟨0, 0, [], none, true⟩ })
          | _, _ => .next (if s.hasSpare then s else s.arbDone core a run2 none 0xFF 5)
        | .ends, some spare => match s.scratchOf spare r with
          | none => .next s
          | some (s, run3) =>
            let flags := ((s.core spare).v.map fun v => v.flags).getD .none
            let s := (s.modCore spare fun c => c.afterReset c.kind).modV core fun v => v.addFlags flags
            .next (s.arbDone core a run2 (some run3) spare.val (if run3 = a.run1 then 2 else if run3 = run2 then 3 else 4))
        | _, _ => .next s
    | _, _ => .next s

/-- R346. Firmware writes CORE_CHK_CTRL.resume once nothing of the core waits for arbitration. -/
def execChkResume (core : Fin 20) (s : State) : Host.Outcome State Fault Refusal :=
  if (s.core core).chkStop && !(s.chk.arbs.any fun a => a.core == core.val) then
    .next (s.modCore core fun c => { c with chkStop := false, rotate := false })
  else .next s

/-! ### Answers to core faults (R351) -/

/-- Abort cause behind the fault that firmware acts on: a mismatch, or what the completion record of fault 0x0D says (Tables 6.13, 7.6). -/
def Core.faultCause (c : Core) : Nat :=
  let f := c.current
  if f.code = 7 then 1
  else if f.code = 0xD then (c.v.map fun v => natAt (v.readTile f.info 64) 1 1).getD 0
  else 0

/-- The task of a completion record may be resubmitted: no STORE envelope overlaps an input (R219, R351). -/
def State.mayResubmit (s : State) (p : Fin 20) (crec : Nat) : Bool :=
  match (s.core p).v with
  | none => false
  | some v => !s.job.overlapsInput (stagesOf (v.readTile (natAt (v.readTile crec 64) 56 4) 208))

/-- Resubmit the task of the fault that firmware acts on once, or roll back. -/
def State.tryAgain (s : State) (p : Fin 20) (cause : Nat) : State :=
  let crec := (s.core p).current.info
  if s.mayResubmit p crec then
    let s := (s.modCore p fun c => { c with answer := some 1, resubmitted := some cause, resubLost := false }).postFault p .r 1
    s.resubmit p crec
  else ((s.modCore p fun c => { c with answer := some 3 }).postFault p .r 3).rollbackFault p

/-- No link to the host or to an expander in use is down. -/
def State.linksUp (s : State) : Bool := s.host.pcieUp && s.mem.screeDown == 0

/-- Firmware pauses every rank and acts on a fault as Table 12.5 states for its class. Behind a fault that ended in a rollback or left the job
paused, no task is resubmitted (log 45). -/
def State.answerFault (s : State) (p : Fin 20) (ended : Bool) : State :=
  let c := s.core p
  let cause := c.faultCause
  let s := (s.pauseAll 2).chargeFault p c.current.code
  match faultClass c.current.code cause with
  | .r =>
    if ended then ((s.modCore p fun c => { c with answer := some 3 }).postFault p .r 3).rollbackFault p
    else if cause = 6 && !s.linksUp then s.modCore p fun c => { c with answer := some 0 }
    else s.tryAgain p cause
  | .j => ((s.modCore p fun c => { c with answer := some 3 }).postFault p .j 3).rollbackFault p
  | k => (s.modCore p fun c => { c with answer := some 4 }).postFault p k 4

/-- R351. Firmware acts on a core's faults in turn: on the recorded one, then, each time it is done with one, on the next behind it. -/
def execFaultResubmission (core : Fin 20) (s : State) : Host.Outcome State Fault Refusal :=
  let c := s.core core
  if !c.faultValid || c.test.isSome then .next s
  else match c.answer, c.later with
    | none, _ => .next (s.answerFault core false)
    | some a, f :: fs =>
      if a < 2 then .next s
      else .next ((s.modCore core fun c => { c with acted := some f, later := fs }).answerFault core (decide (2 < a)))
    | some _, [] => .next s

/-- R201. Writing 1 to CORE_FAULT.valid clears every field, and the core may issue again from the next counted cycle. -/
def execCoreFaultClear (core : Fin 20) (s : State) : Host.Outcome State Fault Refusal := .next (s.modCore core Core.clearFault)

/-! ### Moves, swaps and cores that leave service (R199, R200, R347, R358) -/

/-- R347, R405. At a held MIGRATE point firmware moves the virtual core of a core marked to leave to the lowest idle spare and
takes the core out of service; a core without a virtual core leaves at once. -/
def execQuarantine (core : Fin 20) (s : State) : Host.Outcome State Fault Refusal :=
  let c := s.core core
  match c.leaving with
  | none => .next s
  | some reason =>
    if c.v.isNone && c.saved.isNone && c.test.isNone then .next (s.takeOut core reason)
    else if c.hold = .migrate && c.test.isNone then
      match s.idleSpare with
      | none => .next s
      | some d => .next ((s.moveV core d .out).takeOut core reason)
    else .next s

/-- R306, R200. At a held point, at a boundary hold, or once its resident virtual core has ended, a core's pair is swapped. -/
def execOversubscriptionSwap (core : Fin 20) (s : State) : Host.Outcome State Fault Refusal :=
  let c := s.core core
  match c.v, c.partner with
  | some v, some w =>
    let done := v.liveStrands.isEmpty && c.hold = .none && !c.stopped
    if (c.hold = .migrate || c.hold = .boundary || done) && c.test.isNone then
      match s.quiesced core with
      | none => .next s
      | some s =>
        let h := w.restsIn .boundary
        let s := s.modCore core fun c => { (c.takeV w h) with partner := c.v.map fun v => c.leaveV v }
        let s := s.postPlacement v.num core.val 0xFF c.migPoint.toNat v.stepTag.toNat
        let s := s.postPlacement w.num 0xFF core.val c.migPoint.toNat w.stepTag.toNat
        .next (s.applyHeld core)
    else .next s
  | _, _ => .next s


/-- R199, R33. Firmware moves the held virtual core of a core that a field test waits for, or that leaves service, to an idle spare:
the freed core joins the spares, and the test starts (R358), or goes out of service (R347, R405). A spare becomes active in no
other way: not for a core that leaves service without a virtual core, and not again for a core recorded out in flash after a
reset (DESIGN CHOICE, log 66). -/
def execMoveToSpare (src dst : Fin 20) (s : State) : Host.Outcome State Fault Refusal :=
  let c := s.core src
  let d := s.core dst
  let due := c.leaving.isSome || ((s.dueOn src).isSome && s.chk.arbs.isEmpty)
  if c.hold = .migrate && c.test.isNone && due && d.idleSpare then
    .next (s.moveV src dst (if c.leaving.isSome then .out else .spare)).startTests
  else .next s

end Sys2Proof.Machine
end

