-- ==== Sys2Proof/Machine/Cairn.lean ====
section
/-! DEFINITION. Cairn counters and their requests (R352 to R354, R363, R365, R367), and field-test packages (R355 to R359,
R364). -/

namespace Sys2Proof.Machine

/-! ### Defaults (Table 12.6) -/

/-- FP32 pattern of a decimal n / d, rounded by RNE. -/
def fp32Ratio (n d : Nat) : Word :=
  let k := n * 2 ^ 64
  BitVec.ofNat 32 (fp32.rne true (sticky false (k / d) (decide (k % d ≠ 0)) (-64))).1

/-- A bucket from its six settings, each as a numerator over 10,000. -/
def bucketOf (inc inc2 inc3 leak warn fail : Nat) : Bucket :=
  { Bucket.zero with inc := fp32Ratio inc 10000, inc2 := fp32Ratio inc2 10000, inc3 := fp32Ratio inc3 10000, leak := fp32Ratio leak 10000,
                     warn := fp32Ratio warn 10000, fail := fp32Ratio fail 10000, enable := true }

/-- The default settings of bucket `b`. -/
def defaultBucket (b : Nat) : Bucket :=
  if b < 24 then bucketOf 10000 10240000 0 10 2560000 40960000
  else if b < 48 then bucketOf 10000 10240000 0 10 1280000 20480000
  else if b < 56 then bucketOf 10000 10000000 0 100000000 10000000000 160000000000
  else if b < 64 then bucketOf 10000 1000000 0 100 10000000 100000000
  else if b < 84 then bucketOf 10000 160000 1280000 1 160000 10240000
  else if b = 84 then bucketOf 10000 0 0 1000 600000000 6000000000
  else Bucket.zero

/-! ### The millisecond update (R352) -/

/-- An FP32 value under the fixed-flush regime (R59). -/
def flushed (x : Word) : Val := (iflushAt fp32.emin true (fp32.decode x.toNat)).1

/-- RNE32 under the fixed-flush regime. -/
def rne32 (v : Val) : Word := BitVec.ofNat 32 (fp32.rne true v).1

/-- One update of a bucket's level and states. INC3 belongs to the checker-alarm buckets only. -/
def Bucket.update (k : Bucket) (b : Nat) : Bucket :=
  if !k.enable || 85 ≤ b then { k with d1 := 0, d2 := 0, d3 := 0 }
  else
    let term (d : Nat) (inc : Word) : Val := if d = 0 then .zero false else (Val.ofInt d).mul (flushed inc)
    let inc3 := if 64 ≤ b && b < 84 then k.inc3 else 0
    let gain := rne32 (((term k.d1 k.inc).add (term k.d2 k.inc2)).add (term k.d3 inc3))
    let up := rne32 ((flushed k.level).add (flushed gain))
    let down := rne32 ((flushed up).subv (flushed k.leak))
    let level := if (flushed down).lt (.zero false) || (flushed down).isZero || (flushed down).isNan then 0 else down
    let x := flushed level
    let warning := if !x.lt (flushed k.warn) then true
      else if (x.add x).lt (flushed k.warn) then false else k.warning
    { k with level, warning, failed := k.failed || !x.lt (flushed k.fail), d1 := 0, d2 := 0, d3 := 0 }

/-! ### Requests (R353, R363, R365, R367) -/

/-- Boundary that a request of origin step tag t_o derives (Table 13.1). -/
def Job.boundaryOf (j : Job) (t : Nat) : Nat := (t / 2 ^ j.leadLog2 + 2) * 2 ^ j.leadLog2

/-- The payload of Table 12.12. -/
def requestPayload (job request origin t bucket level : Nat) : List Byte :=
  bytesOf 4 job ++ bytesOf 1 request ++ zeros 1 ++ bytesOf 2 origin ++ bytesOf 4 t ++ bytesOf 2 bucket ++ zeros 2 ++ bytesOf 4 level
    ++ zeros 12

/-- Step tags of the virtual cores resident on the device: none in a save area counts (R363). -/
def State.residentTags (s : State) : List Nat := coreNums.filterMap fun p =>
  let c := s.core p
  if c.test.isSome || c.v.isNone then none else c.own.map fun v => v.stepTag.toNat

/-- Send a request of kind 0x03 for the running job, and act on it here too; answers the boundary. -/
def State.sendRequest (s : State) (request bucket level : Nat) : Nat × State :=
  let t := maxOf s.residentTags
  let b := s.job.boundaryOf t
  let s := s.flood 3 (requestPayload s.job.id.toNat request s.ownAddr.toNat t bucket level)
  (b, s.requestBoundary b s.ownAddr.toNat)

/-- The drain-and-replacement request of a bucket in its fail state; it is sent again while it is missed or its set fails
(R367). -/
def State.sendDrain (s : State) (b : Nat) : State :=
  let (bound, s) := s.sendRequest 2 b (s.chk.buckets[b]!).level.toNat
  let s := { s with chk := { s.chk with drainWanted := (s.chk.drainWanted.filter fun (x : Nat × Nat) => x.1 != b) ++ [(b, bound)] } }
  if s.ckpt.pendingB.contains bound then
    { s with ckpt := { s.ckpt with drainB := if s.ckpt.drainB.contains bound then s.ckpt.drainB else s.ckpt.drainB ++ [bound] } }
  else s

/-- A core takes no further work: one with a virtual core of a job that has not ended leaves at its next MIGRATE point, any other
at once (R347, R354, R405). -/
def State.retireCore (s : State) (p : Fin 20) (reason : Nat) : State :=
  let c := s.core p
  if c.kind ≠ .active && c.kind ≠ .spare then s
  else if (c.v.isNone && c.saved.isNone) || (s.job.state == .ended && c.test.isNone) then s.takeOut p reason
  else s.modCore p fun c => c.leave reason

/-- What firmware and the Cairn unit do as a bucket enters its states (R353, R354, R294). -/
def State.bucketEntered (s : State) (b : Nat) (old : Bucket) : State :=
  let k := s.chk.buckets[b]!
  let warned := k.warning && !old.warning
  let failed := k.failed && !old.failed
  let event (s : State) (code : Nat) (limit : Word) : State :=
    s.post code (bytesOf 2 b ++ zeros 2 ++ bytesOf 4 k.level.toNat ++ bytesOf 4 limit.toNat ++ bytesOf 4 s.job.id.toNat)
  let s := if failed then (if s.jobLive then s.sendDrain b else s)
    else if warned && s.jobLive then (s.sendRequest 1 b k.level.toNat).2 else s
  let s := if warned then event s 0x0C04 k.warn else s
  if !failed then s
  else
    let s := event s 0x0C05 k.fail
    if b < 24 then
      { s with pow := { s.pow with flash := { s.pow.flash with healthChannels := s.pow.flash.healthChannels ||| BitVec.ofNat 24 (2 ^ b) } } }
    else if b < 44 then s.retireCore (Fin.ofNat 20 (b - 24)) 3
    else if 64 ≤ b && b < 84 then s.retireCore (Fin.ofNat 20 (b - 64)) 3
    else s

/-- R352. Every 1 ms each bucket takes its events, leaks and updates its states; requests and events follow. -/
def execCairnTick (s : State) : Host.Outcome State Fault Refusal :=
  let hot := s.pow.temps.toList.any fun t => decide (100 ≤ t)
  let s := s.charge 84 (ofBool hot) 0 0
  let old := s.chk.buckets
  let s := { s with chk := { s.chk with buckets := Vector.ofFn fun (b : Fin 128) => (old[b]).update b.val } }
  let again := s.chk.drainWanted.filter fun x =>
    s.jobLive && s.ckpt.pendingB.isEmpty && (s.chk.buckets[x.1]!).failed && !s.ckpt.drainB.contains x.2
  let s := again.foldl (fun (s : State) x => s.sendDrain x.1) s
  .next ((List.range 85).foldl (fun s b => s.bucketEntered b old[b]!) s)

/-- R354. The levels and the health record go to flash. -/
def State.saveHealth (s : State) : State :=
  { s with pow := { s.pow with flash := { s.pow.flash with health := s.chk.buckets.toList.map (·.level) } } }

/-- R354. Every hour. -/
def execHealthRecordSave (s : State) : Host.Outcome State Fault Refusal := .next s.saveHealth

/-- A request of kind 0x03 from another device (R363, R365, R367). -/
def State.takeRequest (s : State) (port : Nat) (ctl : Ctl) (payload : List Byte) (request : Nat) : State :=
  if !s.freshCtl port ctl then s
  else if natAt payload 4 1 ≠ request then
    if natAt payload 4 1 = 1 || natAt payload 4 1 = 2 then s
    else { s with fab := { s.fab.remember ctl.origin.toNat ctl.seq with noticeDrops := s.fab.noticeDrops + 1 } }
  else
    let s := s.relayCtl port 3 ctl payload
    if s.jobLive && natAt payload 0 4 == s.job.id.toNat then
      s.requestBoundary (s.job.boundaryOf (natAt payload 8 4)) (natAt payload 6 2)
    else s

/-- R365. An early-checkpoint request. -/
def execEarlyCheckpointRequest (port : Fin 6) (ctl : Ctl) (payload : List Byte) (s : State) : Host.Outcome State Fault Refusal :=
  .next (s.takeRequest port.val ctl payload 1)

/-- R367. A drain-and-replacement request: the boundary is kept pending like any other, and no rank pauses. -/
def execDrainAndReplacementRequest (port : Fin 6) (ctl : Ctl) (payload : List Byte) (s : State) : Host.Outcome State Fault Refusal :=
  .next (s.takeRequest port.val ctl payload 2)

/-! ### Packages (R355, R356, R364) -/

/-- Why a package is rejected (event 0x0C08), or none: 1 signature, 2 stepping, 3 older version, 4 format. -/
def State.packageReject (s : State) (bs : List Byte) : Option Nat :=
  let len := natAt bs 16 4
  let outLen := natAt bs 60 4
  if len % 16 ≠ 0 || 4194304 < len || bs.length ≠ 64 + len + 16224 || natAt bs 20 4 < 1 || 1500 < natAt bs 20 4 || 10080 < natAt bs 24 4
      || outLen < 64 || 20971520 < outLen || natAt bs 12 4 / 4 ≠ 0 then some 4
  else if !Config.sigOk s.pow.vendorKey (bs.take (64 + len)) (bs.drop (64 + len)) then some 1
  else if !bitAt (natAt bs 12 4) (if s.pow.fuses.stepping = 0x01 then 0 else 1) then some 2
  else if s.chk.packages.any fun k => k.id.toNat == natAt bs 0 8 && decide (natAt bs 8 4 ≤ k.version.toNat) then some 3
  else none

/-- Cores on which a package becomes due: enabled and not out of service (R358). -/
def State.dueCores (s : State) : BitVec 20 :=
  coreNums.foldl (fun (a : BitVec 20) p =>
    if (s.core p).kind = .active || (s.core p).kind = .spare then a ||| BitVec.ofNat 20 (2 ^ p.val) else a) 0

/-- Verify a package: reject it with an event, or accept it, in place of a lower version, and start what can start; answers
whether it is accepted. -/
def State.takePackage (s : State) (bs : List Byte) : Bool × State :=
  let id := BitVec.ofNat 64 (natAt bs 0 8)
  let version := BitVec.ofNat 32 (natAt bs 8 4)
  match s.packageReject bs with
  | some r =>
    let s := { s with chk := { s.chk with rejected := s.chk.rejected ++ [(id, version)] } }
    (false, s.post 0x0C08 (bytesOf 8 id.toNat ++ bytesOf 4 version.toNat ++ bytesOf 1 r))
  | none =>
    let old := s.chk.packages.filter fun k => k.id == id
    let kept := s.chk.packages.filter fun k => k.id != id
    let k : Package := { id, version, bytes := bs, due := s.dueCores, passed := 0, failed := 0 }
    let s := { s with chk := { s.chk with packages := kept ++ [k], rejected := s.chk.rejected ++ old.map fun (k : Package) => (k.id, k.version) } }
    (true, s.startTests)

/-- Chunks of a package on the control plane (Table 12.13). -/
def packageChunks (bs : List Byte) : List (List Byte) :=
  let cs := chunks 4064 bs
  cs.zipIdx.map fun c => sub bs 0 12 ++ bytesOf 4 c.2 ++ bytesOf 4 cs.length ++ bytesOf 4 c.1.length ++ zeros 8 ++ c.1

/-- Send every chunk of an accepted package as new floods (R356, R364). -/
def State.floodPackage (s : State) (bs : List Byte) : State := (packageChunks bs).foldl (fun s c => s.flood 4 c) s

/-- The device has already accepted or rejected this version. -/
def Checking.settled (c : Checking) (id : DWord) (version : Word) : Bool :=
  c.packages.any (fun k => k.id == id && k.version == version) || c.rejected.contains (id, version)

/-- R364. A chunk of a package: held until all are here, then the package is verified, and once accepted sent on. A device without GDDR7
accepts no package (R295). -/
def execFieldTestChunk (port : Fin 6) (ctl : Ctl) (payload : List Byte) (s : State) : Host.Outcome State Fault Refusal :=
  if !s.freshCtl port.val ctl then .next s
  else
    let s := { s with fab := s.fab.remember ctl.origin.toNat ctl.seq }
    let id := BitVec.ofNat 64 (natAt payload 0 8)
    let version := BitVec.ofNat 32 (natAt payload 8 4)
    let index := natAt payload 12 4
    let count := natAt payload 16 4
    let len := natAt payload 20 4
    let mine (a : Assembly) : Bool := a.id == id && a.version == version
    let known := s.chk.assemblies.find? mine
    if s.mem.usable = 0 || s.chk.settled id version || len = 0 || 4064 < len || count ≤ index || (known.isNone && 4 ≤ s.chk.assemblies.length) then .next s
    else
      let a := known.getD ⟨id, version, ⟨count, []⟩⟩
      if a.chunks.held.any fun c => c.1 == index then .next s
      else
        let held := a.chunks.held ++ [(index, sub payload 32 len)]
        let others := s.chk.assemblies.filter fun a => !mine a
        if held.length < a.chunks.count then
          .next { s with chk := { s.chk with assemblies := others ++ [{ a with chunks := ⟨a.chunks.count, held⟩ }] } }
        else
          let bs := (List.range a.chunks.count).flatMap fun i => ((held.find? fun c => c.1 == i).map (·.2)).getD []
          let (ok, s) := ({ s with chk := { s.chk with assemblies := others } }).takePackage bs
          .next (if ok then s.floodPackage bs else s)

/-- R364. A package whose chunks have not all come within 10 s is discarded. -/
def execPackageAssemblyTimeout (package : DWord) (version : Word) (s : State) : Host.Outcome State Fault Refusal :=
  .next { s with chk := { s.chk with assemblies := s.chk.assemblies.filter fun a => !(a.id == package && a.version == version) } }

/-! ### Running a test (R357 to R359) -/

/-- Mark a package as run on a core. -/
def State.markTested (s : State) (p : Fin 20) (t : FieldTest) (passed : Bool) : State :=
  let bit := BitVec.ofNat 20 (2 ^ p.val)
  { s with chk := { s.chk with packages := s.chk.packages.map fun k =>
      if k.id = t.package && k.version = t.version then
        { k with due := k.due &&& ~~~bit, passed := if passed then k.passed ||| bit else k.passed &&& ~~~bit,
                 failed := if passed then k.failed &&& ~~~bit else k.failed ||| bit }
      else k } }

/-- Test-result event (Table 12.8): byte 15 tells a forced test. -/
def State.postTest (s : State) (p : Fin 20) (t : FieldTest) (result : Nat) (digest : List Byte) : State :=
  s.post 0x0C07 (bytesOf 8 t.package.toNat ++ bytesOf 4 t.version.toNat ++ bytesOf 2 p.val ++ bytesOf 1 result
    ++ bytesOf 1 (ofBool t.home.isSome) ++ padTo 32 digest)

/-- A forced test on core `p` is over: the virtual core it displaced waits on core `home`, or in a save area and goes back to `p`
or, `p` having failed, to a spare; with no spare it and its partner stay in their save areas, and firmware asks for rollback (log 28). -/
def State.endForced (s : State) (p : Fin 20) (failed : Bool) (home : Nat) : State :=
  match (s.core p).saved with
  | none => s.endForcedHold (Fin.ofNat 20 home)
  | some v =>
    let mate := (s.core p).partner
    let mateGoes (s : State) (dest : Nat) : State := match mate with
      | some w => s.postPlacement w.num p.val dest 0 w.stepTag.toNat
      | none => s
    if !failed then
      let s := s.modCore p fun c => { (c.takeV v .stepTest) with saved := none }
      (s.postPlacement v.num 0xFF p.val 0 v.stepTag.toNat).endForcedHold p
    else match s.idleSpare with
      | none => (mateGoes s 0xFF).rollbackFault p
      | some d =>
        let s := (s.modCore p fun c => { c with saved := none, partner := none }).powerCore d
        let s := s.setCore d { (((s.core d).afterReset .active).takeV v .stepTest) with partner := mate, migHold := mate.isSome }
        (mateGoes (s.postPlacement v.num 0xFF d.val 0 v.stepTag.toNat) d.val).endForcedHold d

/-- A field test ends with a result of event 0x0C07: 1 pass, 2 wrong digest, 3 over time. Further packages due on the core run
before anything is released (R358), unless an arbitration comes first (R348). A core that passes joins the spare pool (R357). -/
def State.endTest (s : State) (p : Fin 20) (t : FieldTest) (result : Nat) (digest : List Byte) : State :=
  let pass := result = 1
  let c := s.core p
  let s := (s.markTested p t pass).setCore p
    { c.afterReset c.kind with saved := c.saved, partner := c.partner, pooled := c.pooled || (pass && c.saved.isNone) }
  let s := s.postTest p t result digest
  match (if pass && t.home.isSome && s.chk.arbs.isEmpty then s.dueOn p else none) with
  | some k => s.startTest p k t.home
  | none =>
    let s := if pass then s
      else
        let s := s.charge (64 + p.val) 0 0 1
        let q := (s.core p).saved
        let mate := (s.core p).partner
        (s.takeOut p 2).modCore p fun c => { c with saved := q, partner := mate }
    let s := match t.home with
      | some h => s.endForced p (!pass) h
      | none => s
    s.startTests

/-- R357. A field test has halted: it passes when the SHA-256 of its output equals the expected result. -/
def execFieldTestEnd (core : Fin 20) (s : State) : Host.Outcome State Fault Refusal :=
  let c := s.core core
  match c.test, c.v with
  | some t, some v =>
    if t.third || !v.liveStrands.isEmpty || c.stopped then .next s
    else match s.quiesced core with
      | none => .next s
      | some s =>
        let digest := sha256 (((s.core core).v.map fun v => v.readTile 0 (natAt t.bytes 60 4)).getD [])
        .next (s.endTest core t (if digest = sub t.bytes 28 32 then 1 else 2) digest)
  | _, _ => .next s

/-- R357. A field test that has not halted within its bound fails. -/
def execFieldTestTimeout (core : Fin 20) (elapsedMs : Nat) (s : State) : Host.Outcome State Fault Refusal :=
  match (s.core core).test with
  | none => .next s
  | some t => if t.third || decide (elapsedMs ≤ natAt t.bytes 20 4) then .next s else .next (s.endTest core t 3 [])

/-- R359. The core's oldest due package has waited longer than its deferral limit: firmware sets step_hold. -/
def execForcedFieldTest (core : Fin 20) (s : State) : Host.Outcome State Fault Refusal :=
  let c := s.core core
  if (s.dueOn core).isNone || c.v.isNone || c.test.isSome || c.stepHold || !s.jobLive then .next s
  else .next (s.modCore core fun c => { c with stepHold := true })

/-- R359. A virtual core stopped at its STEP for a forced test has drained: it holds as at a MIGRATE point, and the test runs. -/
def execStepHoldReached (core : Fin 20) (s : State) : Host.Outcome State Fault Refusal :=
  let c := s.core core
  if c.holdReq ≠ .stepTest || !s.jobLive then .next s
  else match s.quiesced core with
    | none => .next s
    | some s => .next ((s.modCore core fun c => { c with holdReq := .none, hold := .stepTest }).forceTest core)

end Sys2Proof.Machine
end

