-- ==== Sys2Proof/Machine/Replay.lean ====
section
/-! DEFINITION. Witness digest units (R188, R272 to R275) and what arrives from the twin over F6 (R277 to R280). -/

namespace Sys2Proof.Machine

/-! ### Witness units -/

/-- Fields of WTAP that start and finish leave reserved (Table 6.4). -/
def wtapIdle (w : IWord) : List EncCheck := [(fld w 29 22 == 0, 29), (fld w 51 16 == 0, 51), resvFrom w 99]

/-- Issue of a WTAP: its unit must be assigned to the issuing strand (R188). -/
def State.issueWtap (s : State) (p : Fin 20) (k : Fin 128) (w : IWord) (checks : Strand → List EncCheck)
    (body : State → VCore → Strand → Nat → State) : Host.Outcome State Fault Refusal :=
  let u := fld w 24 3
  s.issue p k w false .none (fun _ _ st => checks st) fun s v st t =>
    if v.witness.contains (u, k.val) then body s v st t else s.fault p k 3 0x061 (u + 0x10)

/-- R272. Open the unit with an empty message (`Witness.absorb`); an open message is discarded and counted. -/
def execWtapStart (core : Fin 20) (strand : Fin 128) (ops : BitVec 118) (s : State) : Host.Outcome State Fault Refusal :=
  let w := withBits (wordOf ops 0x061) 27 2 1
  s.issueWtap core strand w (fun _ => wtapIdle w) fun s _ _ t =>
    (s.modUnit (fld w 24 3) fun u => u.add .start).commit core strand t

/-- R272, R273. Feed the unit: 64-byte unit `k` is read at 1 + k (`State.feedPiece`; log 29). A word whose wop is 0b11 is an illegal
encoding. -/
def execWtapFeed (core : Fin 20) (strand : Fin 128) (ops : BitVec 118) (s : State) : Host.Outcome State Fault Refusal :=
  let w0 := wordOf ops 0x061
  let w := if fld w0 27 2 = 3 then w0 else withBits w0 27 2 0
  let u := fld w 24 3
  let n := fld w 51 16 + 1
  s.issueWtap core strand w (fun st => [(fld w 27 2 != 3, 27), alignedTo (taAt w st.x 29) 64 29, resvFrom w 99]) fun s v st t =>
    let a := taAt w st.x 29
    match v.rangeFault [(a, 64 * n)] .read with
    | some x => s.fault core strand 2 0x061 (infoAddr x)
    | none =>
      let reads := (List.range n).map fun k => Access.read .tile (a.toNat + 64 * k) 64 (t + 1 + k) strand st.pc
      s.audit core strand 0x061 reads [] fun s =>
        let r := Run.start (.of st strand w v.stepTag [] 0 none) t [(List.range n).map fun k => (t + 1 + k, .feed k)]
        ((s.modUnit u fun y => y.add (.feed t [] n)).modCore core fun c => { c with runs := c.runs ++ [r] }).commit core strand t

/-- R272. Close the message, once the feeds before have been read; its digest and record follow. The step tag is the one read now. -/
def execWtapFinish (core : Fin 20) (strand : Fin 128) (ops : BitVec 118) (s : State) : Host.Outcome State Fault Refusal :=
  let w := withBits (wordOf ops 0x061) 27 2 2
  s.issueWtap core strand w (fun _ => wtapIdle w) fun s v st t =>
    s.audit core strand 0x061 [Access.read .stepTag 0 1 t strand st.pc] [] fun s =>
      let step := BitVec.ofNat 32 ((s.core core).stepTagAt v t)
      (s.modUnit (fld w 24 3) fun u => u.add (.finish (BitVec.ofNat 32 (fld w 67 32)) step)).commit core strand t

/-- The clock period number of the core that runs a unit's virtual core. -/
def State.unitClk (s : State) (u : Witness) : Nat :=
  ((coreNums.find? fun p => (s.core p).v.map (·.num) == u.owner.map (·.1)).map fun p => (s.core p).clk).getD u.since

/-- Bytes fed after a message's last. -/
def Witness.later (u : Witness) (rest : List (Word × Word × Sha)) : Nat :=
  (if u.isOpen then u.msg.count else 0) + (rest.map fun f => f.2.2.count).foldl (· + ·) 0
    + (u.steps.map fun x => match x with
        | .feed _ bs _ => bs.length
        | _ => 0).foldl (· + ·) 0

/-- R275. A unit finishes its oldest closed message: the record goes to the job's witness ring, or is dropped and counted. -/
def execWitnessRecord (unit : Fin 8) (s : State) : Host.Outcome State Fault Refusal :=
  let u := s.rep.units[unit]
  match u.finish with
  | [] => .next s
  | (tag, step, msg) :: rest =>
    let ring := s.job.wit
    let clk := s.unitClk u
    let s1 := s.modUnit unit.val fun u => { u with finish := rest, queued := min (u.left clk) (u.later rest), since := clk }
    if !ring.room 64 then .next { s1 with rep := { s1.rep with witLost := s1.rep.witLost + 1 } }
    else if !s.host.dma then .next s
    else
      let (num, strand) := u.owner.getD (0, 0)
      let rec_ := msg.digest ++ bytesOf 4 tag.toNat ++ bytesOf 4 step.toNat ++ bytesOf 2 num ++ bytesOf 1 strand ++ bytesOf 1 unit.val
        ++ bytesOf 4 s.job.rank ++ bytesOf 8 msg.count ++ bytesOf 4 ring.next ++ zeros 4
      let s1 := s1.writeBuf ring.buf (64 * ring.next) rec_
      .next { s1 with job := { s1.job with wit := { ring with next := ring.next + 1 } } }

/-! ### The twin -/

/-- R278. A record of the twin arrives and is matched by key. -/
def execTwinRecordReceive (record : List Byte) (resubmitted : Bool) (s : State) : Host.Outcome State Fault Refusal :=
  if s.twinned then .next (s.compareTwin false (TwinRec.ofBytes record) resubmitted) else .next s

/-- The lowest-keyed mismatch found. -/
def Replay.lowestMismatch (y : Replay) : Option (TwinRec × Word) :=
  y.mism.foldl (fun best m => match best with
    | none => some m
    | some b => if m.1.before b.1 then some m else some b) none

/-- R279. The twin's halt signal: this device pauses too and answers with its own; with every record formed on either side
compared by then, it posts one divergence event for the lowest-keyed mismatch. -/
def execTwinHaltSignal (s : State) : Host.Outcome State Fault Refusal :=
  if !s.twinned then .next s
  else
    let s := if s.rep.halted then s else ({ s with rep := { s.rep with halted := true } }.pauseAll 4).sendHalt
    let s := match s.rep.lowestMismatch with
      | some m => s.postDivergence m.1.bytes m.2.toNat true false
      | none => s
    .next { s with rep := { s.rep with settling := false, mism := [] } }

/-- R280. The twin's job has ended. -/
def execTwinJobEnd (s : State) : Host.Outcome State Fault Refusal := .next s.twinLost

end Sys2Proof.Machine
end

