-- ==== Sys2Proof/Machine/Ckpt.lean ====
section
/-! DEFINITION. Chrysalis checkpoints: the boundary hold, the snapshot, copies, the manifest, the buddy's slots, drain and
restore (chapter 13). -/

namespace Sys2Proof.Machine

/-! ### Core-state records (R374, Tables 13.2 and 13.3; field layouts of the sections are log 31) -/

/-- One MX scale, weight list and metadata of a DPU. -/
def Dpu.bytes (d : Dpu) : List Byte :=
  bytesOf 2 d.ws.length ++ d.ws.flatMap (bytesOf 4) ++ bytesOf 2 d.scales.length ++ d.scales.flatMap (bytesOf 1) ++ bytesOf 32 d.sel

def StatSet.bytes (s : StatSet) : List Byte :=
  bytesOf 1 (ofBool s.loaded) ++ bytesOf 1 s.fmt.code ++ bytesOf 1 s.sparse ++ bytesOf 1 s.nanInf.length
    ++ (s.nanInf.flatMap fun b => bytesOf 1 (ofBool b)) ++ bytesOf 2 s.rows.length
    ++ s.rows.flatMap fun r => bytesOf 2 r.length ++ r.flatMap Dpu.bytes

def LoadOp.bytes (o : LoadOp) : List Byte :=
  bytesOf 1 o.fmt.code ++ bytesOf 1 o.sparse ++ bytesOf 2 o.nrows ++ bytesOf 2 o.ncols ++ bytesOf 1 (ofBool o.transpose) ++ bytesOf 1 o.xmode
    ++ bytesOf 1 (ofBool o.xcode) ++ bytesOf 1 (ofBool o.xsigned) ++ bytesOf 2 o.xgrp ++ bytesOf 1 (ofBool o.ssel) ++ bytesOf 1 o.buf
    ++ bytesOf 4 o.src ++ bytesOf 4 o.mtab ++ bytesOf 4 o.side

/-- A parser: a value and the bytes left. -/
abbrev Parse (α : Type) := List Byte → α × List Byte

def takeNat (n : Nat) : Parse Nat := fun bs => (natOf (bs.take n), bs.drop n)

def takeMany {α : Type} (get : Parse α) : Nat → Parse (List α)
  | 0, bs => ([], bs)
  | n + 1, bs =>
    let (x, bs) := get bs
    let (xs, bs) := takeMany get n bs
    (x :: xs, bs)

/-- A list with its length in `n` bytes before it. -/
def takeList {α : Type} (n : Nat) (get : Parse α) : Parse (List α) := fun bs =>
  let (k, bs) := takeNat n bs
  takeMany get (min k bs.length) bs

def takeDpu : Parse Dpu := fun bs =>
  let (ws, bs) := takeList 2 (takeNat 4) bs
  let (scales, bs) := takeList 2 (takeNat 1) bs
  let (sel, bs) := takeNat 32 bs
  (⟨ws, scales, sel⟩, bs)

def takeStat : Parse StatSet := fun bs =>
  let (loaded, bs) := takeNat 1 bs
  let (fmt, bs) := takeNat 1 bs
  let (sparse, bs) := takeNat 1 bs
  let (nanInf, bs) := takeList 1 (takeNat 1) bs
  let (rows, bs) := takeList 2 (takeList 2 takeDpu) bs
  (⟨loaded == 1, Fmt.ofCode fmt, sparse, rows, nanInf.map (· == 1)⟩, bs)

def takeLoad : Parse LoadOp := fun bs =>
  let f (off n : Nat) : Nat := natAt bs off n
  (⟨Fmt.ofCode (f 0 1), f 1 1, f 2 2, f 4 2, f 6 1 == 1, f 7 1, f 8 1 == 1, f 9 1 == 1, f 10 2, f 12 1 == 1, f 13 1, f 14 4, f 18 4, f 22 4⟩,
   bs.drop 26)

/-- A strand (section 0x06). A STEP held at the boundary has set the tag, so the strand goes on after it. -/
def Strand.bytes (st : Strand) : List Byte :=
  let pc := if st.wait = .step then st.pc + 1 else st.pc
  bytesOf 2 pc.toNat ++ bytesOf 1 st.claims.toNat ++ bytesOf 1 (ofBool st.live) ++ (st.x.toList.flatMap fun x => bytesOf 4 x.toNat)
    ++ st.lc.toList.flatMap fun l => bytesOf 4 (match l with
      | some n => n.toNat + 2 ^ 31
      | none => 0)

def Strand.ofBytes (b : List Byte) : Strand :=
  { Strand.idle with
    pc := BitVec.ofNat 16 (natAt b 0 2), claims := BitVec.ofNat 4 (natAt b 2 1), live := natAt b 3 1 == 1,
    x := Vector.ofFn fun (i : Fin 7) => BitVec.ofNat 32 (natAt b (4 + 4 * i.val) 4),
    lc := Vector.ofFn fun (i : Fin 4) =>
      let n := natAt b (32 + 4 * i.val) 4
      if bitAt n 31 then some (BitVec.ofNat 24 n) else none }

def Bounds.bytes (b : Bounds) : List Byte :=
  bytesOf 4 b.amax.toNat ++ bytesOf 2 b.nanMax ++ bytesOf 2 b.infMax ++ bytesOf 4 b.l2max.toNat ++ bytesOf 4 b.watch.toNat
    ++ bytesOf 4 b.boundId.toNat ++ bytesOf 1 (ofBool b.enable) ++ zeros 11

def TileRegion.bytes (r : TileRegion) : List Byte :=
  bytesOf 2 r.id ++ bytesOf 2 (ofBool r.rd + 2 * ofBool r.wr + 4 * ofBool r.ex) ++ bytesOf 4 r.base ++ bytesOf 4 r.len ++ zeros 4

def TileRegion.ofBytes (b : List Byte) : TileRegion :=
  let f := natAt b 2 2
  ⟨natAt b 0 2, natAt b 4 4, natAt b 8 4, bitAt f 0, bitAt f 1, bitAt f 2⟩

def AccTag.code : AccTag → Nat
  | .unset => 0 | .fp32 => 1 | .pair => 2 | .int32 => 3

def AccTag.ofCode (n : Nat) : AccTag := if n = 1 then .fp32 else if n = 2 then .pair else if n = 3 then .int32 else .unset

/-- A witness unit's assignment and open message (section 0x08, R274). -/
def witnessBytes (u strand : Nat) (y : Witness) : List Byte :=
  bytesOf 1 u ++ bytesOf 1 strand ++ bytesOf 1 (ofBool y.isOpen) ++ bytesOf 1 y.msg.tail.length ++ bytesOf 8 y.msg.count
    ++ y.msg.h.flatMap (bytesOf 4) ++ padTo 64 y.msg.tail

/-- Mask bits as bytes, lowest element first. -/
def maskBytes (bits : List (BitVec 1)) : List Byte :=
  (chunks 8 bits).map fun c => BitVec.ofNat 8 (c.zipIdx.foldl (fun a b => a + b.1.toNat * 2 ^ b.2) 0)

/-- The sections of a virtual core's record, types 0x01 to 0x09 in order. -/
def State.sections (s : State) (v : VCore) : List (List Byte) :=
  [bytesOf 4 v.regions.length ++ v.regions.flatMap TileRegion.bytes ++ v.regions.flatMap fun r => v.readTile r.base r.len,
   (v.vt.getRange 0 32768).flatMap fun x => bytesOf 4 x.toNat,
   maskBytes (v.vm.getRange 0 65536),
   (List.range 512).flatMap fun k => if v.slotTags[k]! = .unset then [] else
     bytesOf 2 k ++ bytesOf 2 (v.slotTags[k]!).code ++ (v.acc.getRange (1024 * k) 1024).flatMap fun x => bytesOf 4 x.toNat,
   v.tokens.toList.flatMap fun t => bytesOf 2 t.toNat,
   v.strands.toList.flatMap Strand.bytes,
   v.bounds.toList.flatMap fun b => b.cur.bytes,
   v.witness.flatMap fun w => witnessBytes w.1 w.2 (s.rep.units[w.1]!),
   v.active.bytes ++ v.shadow.bytes ++ bytesOf 1 (ofBool v.shadowOk) ++ (match v.armed with
     | some o => o.bytes
     | none => [])]

/-- The record of Table 13.2. -/
def State.coreRecord (s : State) (v : VCore) (b : Nat) : List Byte :=
  let secs := s.sections v
  let dir := (secs.zipIdx.foldl (fun (a : List Byte × Nat) x =>
    (a.1 ++ bytesOf 2 (x.2 + 1) ++ zeros 2 ++ bytesOf 4 a.2 ++ bytesOf 8 x.1.length, a.2 + x.1.length)) ([], 4096)).1
  padTo 4096 (bytesOf 2 v.num ++ zeros 2 ++ bytesOf 4 b ++ bytesOf 1 v.flags.bits ++ zeros 7 ++ dir) ++ secs.flatten

/-- A section of a record, or nothing. -/
def recordSection (r : List Byte) (type : Nat) : List Byte :=
  match (List.range 32).find? fun i => natAt r (16 + 16 * i) 2 == type with
  | some i => sub r (natAt r (20 + 16 * i) 4) (natAt r (24 + 16 * i) 8)
  | none => []

/-- A record's directory names only types 0x01 to 0x09 before its end (R374). -/
def recordOk (r : List Byte) : Bool :=
  let types := ((List.range 32).map fun i => natAt r (16 + 16 * i) 2).takeWhile (· != 0)
  types.all fun t => decide (t ≤ 9)

/-- Write the accumulator slots of section 0x04. -/
def VCore.loadSlots (v : VCore) (sec : List Byte) : VCore :=
  (chunks 4100 sec).foldl (fun (v : VCore) e =>
    let k := natAt e 0 2
    { v with slotTags := v.slotTags.set! k (AccTag.ofCode (natAt e 2 2)),
             accBad := v.accBad.filter (fun w => w / 512 != k), accSoft := v.accSoft.filter (fun w => w / 512 != k),
             acc := v.acc.setRange (1024 * k) ((chunks 4 (e.drop 4)).map fun w => BitVec.ofNat 32 (natOf w)) }) v

/-- Load a record onto a virtual core (R384): every item of R199 it holds. -/
def VCore.loadRecord (v : VCore) (r : List Byte) : VCore :=
  let s1 := recordSection r 1
  let n := natAt s1 0 4
  let regions := (chunks 16 (sub s1 4 (16 * n))).map TileRegion.ofBytes
  let v := (regions.foldl (fun (a : VCore × List Byte) q => (a.1.writeTile q.base (a.2.take q.len), a.2.drop q.len)) (v, s1.drop (4 + 16 * n))).1
  let s5 := recordSection r 5
  let s6 := recordSection r 6
  let s7 := recordSection r 7
  let (active, rest) := takeStat (recordSection r 9)
  let (shadow, rest) := takeStat rest
  let (ok, rest) := takeNat 1 rest
  let v := { v with
    regions := regions, flags := .ofBits (natAt r 8 1), stepTag := BitVec.ofNat 32 (natAt r 4 4),
    vtBad := [], vt := v.vt.setRange 0 ((chunks 4 (recordSection r 2)).map fun w => BitVec.ofNat 32 (natOf w)),
    vm := v.vm.setRange 0 ((recordSection r 3).flatMap fun (b : Byte) => (List.range 8).map fun i => BitVec.ofNat 1 (bitsAt b.toNat i 1)),
    tokens := Vector.ofFn fun (i : Fin 256) => BitVec.ofNat 16 (natAt s5 (2 * i.val) 2),
    strands := Vector.ofFn fun (i : Fin 128) => Strand.ofBytes (sub s6 (48 * i.val) 48),
    bounds := Vector.ofFn fun (i : Fin 2) =>
      let b := sub s7 (32 * i.val) 32
      ⟨Bounds.ofRecord b, Bounds.ofRecord b, 0⟩,
    active, shadow, shadowOk := ok == 1, armed := if rest.isEmpty then none else some (takeLoad rest).1 }
  v.loadSlots (recordSection r 4)

/-- Restore the open messages of a record's witness units (R274). -/
def State.loadWitness (s : State) (r : List Byte) : State :=
  (chunks 108 (recordSection r 8)).foldl (fun (s : State) e =>
    s.modUnit (natAt e 0 1 % 8) fun y =>
      { y with isOpen := natAt e 2 1 == 1, steps := [], msg := ⟨(List.range 8).map fun i => natAt e (12 + 4 * i) 4, sub e 44 (natAt e 3 1), natAt e 4 8⟩ }) s

/-! ### Slots and manifests (R375 to R379) -/

/-- Cell address of a buddy slot in the Scree tier (R297); none without two linked expanders. -/
def MemSys.slotBase (m : MemSys) (slotB : Bool) : Option Nat :=
  let ports := m.linkedPorts
  let k := if slotB then 1 else 2
  if ports.length < 2 then none else (ports[ports.length - k]?).map fun p => p * 2 ^ 37

/-- The device holds buddy slots for another: FAB_PAIR names an F7 partner in a valid topology, and two expanders are linked (R297, R372,
R378; log 66). -/
def State.holdsSlots (s : State) : Bool :=
  bitAt s.fab.topo.toNat 31 && bitsAt s.fab.pair.toNat 16 15 != s.ownAddr.toNat && decide (2 ≤ s.mem.linkedPorts.length)

/-- Read bytes of a slot this device holds: none without the slot, or at a line with poison, which counts (R296). -/
def State.slotRead (s : State) (slotB : Bool) (off n : Nat) : State × Option (List Byte) :=
  match s.mem.slotBase slotB with
  | none => (s, none)
  | some a =>
    if (firstUnit 64 s.mem.screePoison (a + off) n).isSome then (s.modMem fun m => { m with screeUnc := m.screeUnc + 1 }, none)
    else (s, some (s.mem.scree.getRange (a + off) n))

/-- Read several pieces of a slot, each an offset and a length. -/
def State.slotReads (s : State) (slotB : Bool) (pieces : List (Nat × Nat)) : State × List (Option (List Byte)) :=
  pieces.foldl (fun (st : State × List (Option (List Byte))) x =>
    let (s, bs) := st.1.slotRead slotB x.1 x.2
    (s, st.2 ++ [bs])) (s, [])

/-- What a manifest says of one shard (Table 13.5). -/
def manifestShard (m : List Byte) (i : Nat) : Nat × Nat × Nat × Nat × List Byte :=
  let e := sub m (256 + 64 * i) 64
  let w := natAt e 0 2
  (w / 4096, w % 4096, natAt e 8 8, natAt e 16 8, sub e 24 32)

/-- Units of 64 KiB. -/
def unitsOf (bs : List Byte) : List (List Byte) := chunks 65536 bs

/-- The shard digest (R374). -/
def shardDigest (bs : List Byte) : List Byte := sha256 ((unitsOf bs).flatMap sha256)

/-- The manifest's digest verifies and its header is sound. -/
def manifestOk (m : List Byte) : Bool :=
  decide (256 ≤ m.length) && natAt m 0 4 == 1 && decide (1 ≤ natAt m 4 4) && decide (natAt m 4 4 ≤ 4120)
    && natAt m 144 4 == m.length && sub m 224 32 == sha256 (splice m 224 (zeros 32))

/-- The manifest that a slot holds, as far as its first 256 bytes give its length. -/
def State.slotManifest (s : State) (slotB : Bool) : State × Option (List Byte) :=
  match s.slotRead slotB 0 256 with
  | (s, none) => (s, none)
  | (s, some h) =>
    let len := natAt h 144 4
    if len < 256 || 2097152 < len then (s, none) else s.slotRead slotB 0 len

/-- Where the shards of a manifest lie in its slot: offset and length. -/
def shardPlaces (m : List Byte) : List (Nat × Nat) :=
  (List.range (min 4120 (natAt m 4 4))).map fun i =>
    let (_, _, off, n, _) := manifestShard m i
    (off, n)

/-- A rank's part in a slot: the manifest when it is valid (R379). -/
def State.validPart (s : State) (slotB : Bool) : State × Option (List Byte) :=
  match s.slotManifest slotB with
  | (s, none) => (s, none)
  | (s, some m) =>
    if !manifestOk m then (s, none)
    else
      let (s, parts) := s.slotReads slotB (shardPlaces m)
      let sound (x : Option (List Byte) × Nat) : Bool :=
        let (_, _, _, _, d) := manifestShard m x.2
        x.1.any fun bs => shardDigest bs == d
      (s, if parts.zipIdx.all sound then some m else none)

/-- The manifest of the set in progress, before its digest is filled in (Table 13.4). -/
def State.manifest (s : State) : List Byte :=
  let j := s.job
  let c := s.ckpt
  let entries := c.shards.zipIdx.flatMap fun x =>
    let units := c.granules.filter fun g => g.shard == x.2
    bytesOf 2 (x.1.id + 4096 * x.1.kind) ++ zeros 6 ++ bytesOf 8 x.1.offset ++ bytesOf 8 x.1.len ++ sha256 (units.flatMap (·.digest)) ++ zeros 8
  let table := j.rankTable.flatMap (bytesOf 2)
  let len := cdiv (256 + entries.length + table.length) 64 * 64
  let head := bytesOf 4 1 ++ bytesOf 4 c.shards.length ++ bytesOf 8 c.gen ++ bytesOf 4 c.b ++ bytesOf 4 j.rank ++ bytesOf 4 j.n
    ++ bytesOf 2 j.v ++ bytesOf 2 j.contract ++ bytesOf 4 j.id.toNat
    ++ bytesOf 1 (ofBool j.ftz + 2 * ofBool j.strict + 4 * ofBool j.vTainted + 8 * ofBool j.debug) ++ zeros 3 ++ bytesOf 8 j.seed
    ++ padTo 32 j.digest ++ padTo 32 j.weights ++ padTo 32 j.corpus ++ bytesOf 4 len ++ zeros 108
  padTo len (head ++ entries ++ table)

/-- The manifest with its digest. -/
def sealManifest (m : List Byte) : List Byte := splice m 224 (sha256 m)

/-- Slot of the set in progress: B for an even generation (R377). -/
def Ckpt.slotB (c : Ckpt) : Bool := c.gen % 2 == 0

/-- The host window that takes a slot's part in host mode (log 32). -/
def Job.window (j : Job) (slotB : Bool) : Option HostBuf := if slotB then j.drains[1] else j.drains[0]

/-- The block in which unit `i` of a set of step `b` travels (R202, R378); its number and format are the model's own (log 65). -/
def unitBlock (b i : Nat) (bs : List Byte) : Block :=
  { id := i, step := BitVec.ofNat 32 b, region := 0, fmt := Fmt.ofCode 0, transposed := false, concealed := false, seq := i, ext0 := 1,
    data := bs, chk := crc32c bs }

/-- Bytes of a slot travel over F7 from an offset on, in blocks of 64 KiB units on VC 3 (R378, R384). -/
def State.sendUnits (s : State) (slotB : Bool) (b off : Nat) (bs : List Byte) : State :=
  (unitsOf bs).zipIdx.foldl (fun (s : State) u =>
    s.toPartner 7 pktCheckpoint (ofBool slotB) (off / 65536 + u.2) ((unitBlock b (off / 65536 + u.2) u.1).header ++ u.1)) s

/-- A short message of this checkpoint engine to its F7 partner about a unit of a slot; its layout is the model's own (DESIGN CHOICE,
log 32): one byte, 0 and 1 acknowledge a unit as bad and as good, 2 and 3 tell that the drain of the slot begins and has ended, 4 asks
for what the slot holds. -/
def State.ckptNote (s : State) (slotB : Bool) (unit code : Nat) : State :=
  if (s.port 7).live then s.toPartner 7 pktCheckpoint (ofBool slotB) unit (bytesOf 1 code) else s

/-- Write bytes of the set in progress: to the buddy over F7, where they wait during a retrain (R318), or into the host window. -/
def State.sendPart (s : State) (off : Nat) (bs : List Byte) : State :=
  if s.job.hostTarget then match s.job.window s.ckpt.slotB with
    | some w => s.writeBuf w off bs
    | none => s
  else s.sendUnits s.ckpt.slotB s.ckpt.b off bs

/-! ### The boundary hold and the snapshot (R368, R369) -/

/-- R368. A core whose virtual core stopped at a pending boundary's STEP has drained: it is held. -/
def execBoundaryHold (core : Fin 20) (s : State) : Host.Outcome State Fault Refusal :=
  let c := s.core core
  if c.holdReq ≠ .boundary then .next s
  else match s.quiesced core with
    | none => .next s
    | some s =>
      .next (s.modCore core fun c => { c with holdReq := .none, hold := .boundary }).showPhase

/-- A virtual core stands at the STEP of boundary b. -/
def VCore.heldAt (v : VCore) (b : Nat) : Bool :=
  v.stepTag.toNat == b && v.liveStrands.any fun k => v.strands[k].wait == .step

/-- The boundary at which every virtual core of the rank is held. -/
def State.heldBoundary (s : State) : Option Nat :=
  let mine := coreNums.filter fun p => (s.core p).test.isNone && (s.core p).v.isSome
  s.ckpt.pendingB.find? fun b => !mine.isEmpty && (coreNums.all fun p => (s.core p).saved.isNone) && mine.all fun p =>
    let c := s.core p
    c.hold == .boundary && (c.v.toList ++ c.partner.toList).all fun v => v.heldAt b

/-- Every virtual core of the rank with its physical core, in virtual core order. -/
def State.vcores (s : State) : List (Fin 20 × VCore) :=
  let all := coreNums.flatMap fun p =>
    let c := s.core p
    let here := if c.test.isSome then c.saved else c.own.map fun v => c.endTokens.leaveV v
    (here.toList ++ c.partner.toList).map fun v => (p, v)
  (List.range 64).filterMap fun n => all.find? fun x => x.2.num == n

/-- Bytes of the snapshot region that one virtual core's record may take. -/
def recordRoom : Nat := 25165824

/-- Shards of the set: core states in virtual core order, then covered regions (R375, R376); their device addresses. -/
def State.planShards (s : State) (records : List (Nat × Nat × Nat)) : List (Shard × Nat) :=
  let regions := s.job.covered.filterMap fun id => (s.job.region id).map fun r => (1, id, r.size, r.base)
  let all := records.map (fun r => (2, r.1, r.2.2, r.2.1)) ++ regions
  (all.foldl (fun (a : List (Shard × Nat) × Nat) x =>
    (a.1 ++ [(⟨x.1, x.2.1, a.2, x.2.2.1⟩, x.2.2.2)], a.2 + cdiv x.2.2.1 2097152 * 2097152)) ([], 2097152)).1

/-- A virtual core's state has an uncorrectable word in what its record holds. -/
def VCore.spoilt (v : VCore) : Bool :=
  (v.regions.any fun r => (badWord v.tileBad r.base r.len).isSome) || !v.vtBad.isEmpty || v.accBad.any fun w => v.slotTags[2 * w / 1024]! != .unset

/-- Issue goes on after the hold (R369 step 4); a forced field test of the same STEP runs first (R368). -/
def State.releaseBoundary (s : State) : State :=
  coreNums.foldl (fun (s : State) p =>
    let c := s.core p
    if c.hold ≠ .boundary then s
    else
      let partner := c.partner.map fun v => v.resumeStep c.resumeAt
      if c.stepHold then (s.modCore p fun c => { c with hold := .stepTest, partner }).forceTest p
      else s.modCore p fun c => { c with hold := .none, partner }.modV fun v => v.resumeStep c.resumeAt) s

/-- A drain of the slot, or of the host window, that the next set needs is running (R369 step 1, R382). -/
def State.targetDrains (s : State) : Bool :=
  let slotB := (s.ckpt.committed + 1) % 2 == 0
  if s.job.hostTarget then s.ckpt.drain.any fun d => d.2.1 == ofBool slotB else s.ckpt.buddyDrains.contains slotB

/-- R369. Every virtual core is held and no copy or drain of the target slot runs: the records are written, the guard is armed
on every granule, the manifest area's zeros go to the buddy (R378 step 1), and the cores are released. -/
def execSnapshotArm (s : State) : Host.Outcome State Fault Refusal :=
  match s.heldBoundary with
  | none => .next s
  | some b =>
    let c := s.ckpt
    if c.busy || c.restore.isSome || s.targetDrains then .next s
    else
      let pending := c.pendingB.filter (· != b)
      match s.job.snapshot.bind s.job.region with
      | none =>
        let s := { s with ckpt := { c with pendingB := pending, drainB := c.drainB.filter (· != b) } }
        .next s.releaseBoundary.showPhase
      | some snap =>
        let spoilt := s.vcores.any fun x => x.2.spoilt
        let put (a : State × List (Nat × Nat × Nat)) (x : Fin 20 × VCore) : State × List (Nat × Nat × Nat) :=
          let bs := a.1.coreRecord x.2 b
          let addr := snap.base + recordRoom * x.2.num
          ((a.1.writeMem addr bs).1, a.2 ++ [(x.2.num, addr, bs.length)])
        let (s, records) := s.vcores.foldl put (s, [])
        let shards := s.planShards records
        let granules := shards.zipIdx.flatMap fun x => (List.range (cdiv x.1.1.len 65536)).map fun u =>
          { shard := x.2, unit := u, addr := x.1.2 + 65536 * u, len := min 65536 (x.1.1.len - 65536 * u), copied := false, digest := [] : Granule }
        let c := { s.ckpt with
          pendingB := pending, b, armed := true, phase := .copying, gen := s.ckpt.committed + 1, copied := 0, granules,
          shards := shards.map (·.1), zeroing := if s.job.hostTarget then [] else List.range 32 }
        let s := { s with ckpt := c }
        let s := (if s.job.hostTarget then s else s.sendPart 0 (zeros 2097152)).releaseGuard
        let s := if spoilt then s.failSet 3 else s
        .next s.releaseBoundary

/-! ### Copy and manifest (R373, R378, R381) -/

/-- A set counts as written: event 0x0D01, and 0x0D06 where this device asked for replacement (R367, R387). -/
def State.partWritten (s : State) (digest : List Byte) : State :=
  let c := s.ckpt
  let s := { s with ckpt := { c with phase := s.restPhase, armed := false, granules := [], shards := [], sets := c.sets + 1, postedGen := c.gen, postedB := c.b } }
  let s := s.post 0x0D01 (bytesOf 8 c.gen ++ bytesOf 4 c.b ++ bytesOf 4 s.job.rank ++ padTo 32 digest ++ bytesOf 1 (ofBool c.slotB))
  if c.drainB.contains c.b then
    let s := { s with ckpt := { s.ckpt with drainB := s.ckpt.drainB.filter (· != c.b) }, chk := { s.chk with drainWanted := s.chk.drainWanted.filter fun x => x.2 != c.b } }
    s.post 0x0D06 (bytesOf 8 c.gen ++ bytesOf 4 c.b ++ bytesOf 4 s.job.rank)
  else s

/-- R373. Copy one unit, once the buddy has acknowledged the zeroed manifest area (R378): read it (on a page that does not translate, the copy
waits, R303), release the guard on it, send it, and keep its digest once it is acknowledged. -/
def execGranuleCopy (granule : Nat) (outcome : CopyOutcome) (s : State) : Host.Outcome State Fault Refusal :=
  match s.ckpt.granules[granule]? with
  | none => .next s
  | some g =>
    if s.ckpt.phase ≠ .copying || g.copied || !s.ckpt.zeroing.isEmpty || (s.job.hostTarget && !s.host.dma) then .next s
    else
      let s := match outcome with
        | .sourceUncorrectable => s.spoil g.addr
        | .corrected units => s.soften (units.filter fun a => decide (g.addr ≤ a) && decide (a < g.addr + g.len))
        | _ => s
      let s := s.tlbRange g.addr g.len
      match s.mem.faultPage g.addr g.len false with
      | some a => .next (s.queueFault a false .checkpoint)
      | none => match s.readMem g.addr g.len with
      | (s, _, some _) => .next (s.failSet 3)
      | (s, bs, none) =>
        let off := (s.ckpt.shards.getD g.shard default).offset + 65536 * g.unit
        let gs := s.ckpt.granules.set granule { g with copied := true, digest := sha256 bs }
        let first := s.job.hostTarget && !s.ckpt.granules.any (·.copied)
        let s := if first then s.sendPart 0 (zeros 2097152) else s
        let s := { s with ckpt := { s.ckpt with granules := gs, copied := s.ckpt.copied + 65536 } }.releaseGuard.sendPart off bs
        if outcome = .badAcknowledge && !s.job.hostTarget then .next (s.failSet 1)
        else if gs.all (·.copied) then .next { s with ckpt := { s.ckpt with phase := .manifest } }
        else .next s

/-- R378. Every shard is acknowledged: the manifest is written last, and once it is acknowledged the part is complete. -/
def execManifestWrite (acknowledged : Bool) (s : State) : Host.Outcome State Fault Refusal :=
  if s.ckpt.phase ≠ .manifest || (s.job.hostTarget && !s.host.dma) then .next s
  else
    let m := sealManifest s.manifest
    let s := s.sendPart 0 m
    if acknowledged || s.job.hostTarget then .next (s.partWritten (sub m 224 32)) else .next (s.failSet 1)

/-! ### The buddy (R378) -/

/-- What the device does on a short message of its F7 partner (`State.ckptNote`). -/
def State.takeNote (s : State) (slotB : Bool) (unit code : Nat) : State :=
  let c := s.ckpt
  let mine := c.phase == .copying && slotB == c.slotB && c.zeroing.contains unit
  match code with
  | 0 => if mine then s.failSet 1 else s
  | 1 => if mine then { s with ckpt := { c with zeroing := c.zeroing.filter (· != unit) } } else s
  | 2 => { s with ckpt := { c with buddyDrains := if c.buddyDrains.contains slotB then c.buddyDrains else c.buddyDrains ++ [slotB] } }
  | 3 => { s with ckpt := { c with buddyDrains := c.buddyDrains.filter (· != slotB) } }
  | 4 => match s.slotManifest slotB with
    | (s, none) => s
    | (s, some m) =>
      let (s, parts) := s.slotReads slotB (shardPlaces m)
      (parts.zip (shardPlaces m)).foldl (fun (s : State) x => match x.1 with
        | some bs => s.sendUnits slotB (natAt m 16 4) x.2.1 bs
        | none => s) (s.sendUnits slotB (natAt m 16 4) 0 m)
  | _ => s

/-- R378. A checkpoint block from the F7 partner, whatever job runs here: a block header and its payload, written at the slot's
address when its check value holds, and acknowledged. While this device drains the slot the block waits on VC 3 (R382). What is shorter
than a block's header is a message: an acknowledge, or about a drain or a restore (R382, R384). -/
def execCheckpointBlockReceive (slotB : Bool) (offset : Nat) (block : List Byte) (s : State) : Host.Outcome State Fault Refusal :=
  let b := Block.ofBytes block
  let ack (s : State) (good : Bool) : State := s.ckptNote slotB (offset / 65536) (ofBool good)
  if (s.port 7).state ≠ .up then .next s
  else if block.length < 32 then .next (s.takeNote slotB (offset / 65536) (natAt block 0 1))
  else if s.ckpt.drain.any fun d => d.1 == slotB then .next s
  else match (if s.holdsSlots then s.mem.slotBase slotB else none) with
    | none => .next (ack s false)
    | some a =>
      if crc32c b.data ≠ b.chk || 2 ^ 37 < offset + b.data.length then .next (ack s false)
      else
        let (m, u) := s.mem.writeRun (.scree (a + offset)) b.data
        .next (ack { s with mem := m } u.isNone)

/-! ### Drain (R382) -/

/-- R382. A slot drain ends: shards first and the manifest last into the drain window, then event 0x0D04. -/
def execDrainComplete (s : State) : Host.Outcome State Fault Refusal :=
  match s.ckpt.drain with
  | none => .next s
  | some (slotB, w, _) =>
    match s.job.drains[w]?.join with
    | none => .next s
    | some buf =>
      if !s.host.dma then .next s
      else
        let (s, m) := s.slotManifest slotB
        let m := m.getD []
        let (s, parts) := s.slotReads slotB (shardPlaces m)
        let s := (parts.zip (shardPlaces m)).foldl (fun (s : State) x => s.writeBuf buf x.2.1 (x.1.getD [])) s
        let s := s.writeBuf buf 0 m
        let s := ({ s with ckpt := { s.ckpt with drain := none } }.showPhase).ckptNote slotB 0 3
        .next (s.post 0x0D04 (bytesOf 8 (natAt m 8 8) ++ bytesOf 4 (natAt m 16 4) ++ bytesOf 4 (natAt m 20 4) ++ bytesOf 1 (ofBool slotB)))

/-! ### Restore (R384, R385) -/

/-- Why a restore fails: status of event 0x0D05 and shard index, or none. -/
def State.restoreFault (s : State) (gen : Nat) (m : List Byte) (shards : List (List Byte)) : Option (Nat × Nat) :=
  let n := natAt m 4 4
  let j := s.job
  if m.length < 256 || sub m 224 32 ≠ sha256 (splice m 224 (zeros 32)) then some (2, 0)
  else if !manifestOk m || natAt m 8 8 ≠ gen || natAt m 20 4 ≠ j.rank || natAt m 24 4 ≠ j.n || natAt m 28 2 ≠ j.v || natAt m 30 2 ≠ j.contract
      || sub m 48 32 ≠ padTo 32 j.digest || natAt m 40 8 ≠ j.seed || bitAt (natAt m 36 1) 0 ≠ j.ftz then some (5, 0)
  else match (List.range n).find? fun i => let (_, _, _, k, d) := manifestShard m i
      (shards.getD i []).length != k || shardDigest (shards.getD i []) != d with
    | some i => some (3, i)
    | none =>
      let bad (i : Nat) : Bool :=
        let (kind, id, _, k, _) := manifestShard m i
        if kind = 1 then !(j.covered.contains id && (j.region id).any fun r => r.size == k)
        else if kind = 2 then !(recordOk (shards.getD i []) && (s.vcores.any fun x => x.2.num == id))
        else true
      if (List.range n).any bad then some (5, 0) else none

/-- The bytes of a virtual core's tile region take undefined values (R385), wherever the virtual core is. -/
def State.undefTile (s : State) (r : Region) : State :=
  let (e, s) := s.fresh
  let put (v : VCore) : VCore := if v.num = r.vcore then { v with tile := v.tile.refill r.base r.size (.undef e) } else v
  s.mapCores fun c => { c with v := c.v.map put, partner := c.partner.map put, saved := c.saved.map put }

/-- Regions outside the covered ones, or all of them, take undefined values (R384, R385); a tile region with `tiles`: otherwise its bytes come
back in a record. -/
def State.undefineRegions (s : State) (keep : List Nat) (tiles : Bool) : State :=
  s.job.regions.foldl (fun (s : State) r =>
    if r.kind = .tile then (if tiles then s.undefTile r else s)
    else if keep.contains r.id || (r.kind != .staging && r.kind != .gddr && r.kind != .scree) then s
    else s.undefDev r.base r.size) s

/-- Put one shard back. -/
def State.restoreShard (s : State) (kind id : Nat) (bs : List Byte) : State :=
  if kind = 1 then match s.job.region id with
    | some r => ((s.tlbRange r.base bs.length).writeMem r.base bs).1
    | none => s
  else
    let load (v : VCore) : VCore := if v.num = id then v.loadRecord bs else v
    let s := coreNums.foldl (fun (s : State) p =>
      let c := s.core p
      if c.test.isSome then s
      else s.setCore p { c with v := c.v.map load, partner := c.partner.map load,
                                shadowValid := match c.v with
                                  | some v => if v.num = id then (v.loadRecord bs).shadowOk else c.shadowValid
                                  | none => c.shadowValid }) s
    s.loadWitness bs

/-- Event 0x0D05. -/
def State.postRestore (s : State) (gen b status shard : Nat) : State :=
  s.post 0x0D05 (bytesOf 8 gen ++ bytesOf 4 b ++ bytesOf 1 status ++ zeros 3 ++ bytesOf 2 shard)

/-- The release word and the ingest front end start at step b (R231, R234). -/
def State.startIngest (s : State) (b : Nat) : State :=
  if s.ing.plan.isEmpty then s
  else
    let p := s.plan
    let s := match s.locAddr p.releaseWord 0 4 false with
      | some a => ((s.tlbRange a 4).writeMem a (bytesOf 4 b)).1
      | none => s
    { s with ing := { s.ing with release := b, nextStep := List.replicate p.nslots b, slots := [], accepted := [] } }

/-- R384. The restore in progress ends: its source streamed a manifest and shards, or was lost. A host source is read from the
drain window itself. -/
def execRestoreEnded (source : Option RestoreSource) (s : State) : Host.Outcome State Fault Refusal :=
  match s.ckpt.restore with
  | none => .next s
  | some (gen, fromHost, w) =>
    if fromHost && source.isSome && !s.host.dma then .next s
    else
      let s := { s with ckpt := { s.ckpt with restore := none } }.showPhase
      let fail (s : State) (b status shard : Nat) : State :=
        let s := s.undefineRegions [] true
        { s with job := { s.job with restored := false, restoreFailed := true } }.postRestore gen b status shard
      let streamed : Option RestoreSource := match source with
        | none => none
        | some r =>
          if !fromHost then some r
          else (s.job.drains[w]?.join).map fun buf =>
            let head := s.readBuf buf 0 256
            let m := s.readBuf buf 0 (min 2097152 (natAt head 144 4))
            ⟨m, (List.range (min 4120 (natAt m 4 4))).map fun i =>
              let (_, _, off, n, _) := manifestShard m i
              s.readBuf buf off n⟩
      match streamed with
      | none => .next (fail s 0 4 0)
      | some r =>
        let m := r.manifest
        let b := natAt m 16 4
        match s.restoreFault gen m r.shards with
        | some (status, i) => .next (fail s b status i)
        | none =>
          let s := s.undefineRegions s.job.covered false
          let s := (List.range (natAt m 4 4)).foldl (fun (s : State) i =>
            let (kind, id, _, _, _) := manifestShard m i
            s.restoreShard kind id (r.shards.getD i [])) s
          let s := { s with job := { s.job with restored := true, restoreFailed := false, firstStep := b, weights := sub m 80 32, corpus := sub m 112 32,
                                                vTainted := s.job.vTainted || bitAt (natAt m 36 1) 2 },
                            ckpt := { s.ckpt with committed := gen } }
          let tag (v : VCore) : VCore := { v with stepTag := BitVec.ofNat 32 b }
          let s := s.mapCores fun c => if c.test.isSome then c else { c with v := c.v.map tag, partner := c.partner.map tag }
          .next ((s.startIngest b).postRestore gen b 1 0)

end Sys2Proof.Machine
end

