-- ==== Sys2Proof/Machine/Regs.lean ====
section
/-! DEFINITION. Register spaces (R13 to R15): what every register reads as, writes to registers without behaviour of their own, and
CNTRD.U (R189). -/

namespace Sys2Proof.Machine

/-- A register: offset in its space, size in bytes, value. -/
abbrev RegRow := Nat × Nat × Nat

/-- The 48 significant bits of a counter (R127, R162, R223, R257, R284, R308, R337, R361, R388). -/
def ctr48 (n : Nat) : Nat := n % 281474976710656

/-- A register field: value `v` in `len` bits at bit `lo`. -/
def field (lo len v : Nat) : Nat := (v % 2 ^ len) <<< lo

/-- A one-bit field. -/
def fieldBit (lo : Nat) (b : Bool) : Nat := ofBool b <<< lo

/-! ### The core's control space (R72, R127, R162, R201, R228, R308, R361) -/

/-- The lane still runs in the present cycle. -/
def Core.laneBusy (c : Core) (l : Lane) : Bool := decide (c.cycle < l.doneAt)

/-- MX_STATUS (Table 4.12). A pass that waits for a flip with the array free stands in the queue and reads as queued, not active (DESIGN
CHOICE, log 63). -/
def Core.mxStatus (c : Core) : Nat :=
  fieldBit 0 (c.laneBusy c.pass) + fieldBit 1 c.pass.head.isSome + fieldBit 2 c.filling + fieldBit 3 c.shadowValid
    + fieldBit 4 (match c.v with
        | some v => v.armed.isSome
        | none => false)
    + fieldBit 5 (c.laneBusy c.drain) + fieldBit 6 c.drain.queued.isSome + field 8 3 (maxOf (c.ports.toList.map fun k => k.skid.length))

/-- VE_STATUS (Table 5.6). -/
def Core.veStatus (c : Core) : Nat :=
  fieldBit 0 (c.laneBusy c.ve) + fieldBit 1 c.ve.queued.isSome + fieldBit 2 (c.laneBusy c.ru) + fieldBit 3 c.ru.queued.isSome

/-- Held at a MIGRATE point, or as at one (R198, R359, R368). -/
def Core.heldNow (c : Core) : Bool := c.hold != .none

/-- CORE_SEQ_STATUS (Table 6.10). A strand is live from the job's start on (R164). -/
def State.seqStatus (s : State) (p : Fin 20) : Nat :=
  let c := s.core p
  let live := match c.v with
    | some v => if s.clocked p then v.liveStrands.length else 0
    | none => 0
  fieldBit 0 (decide (0 < live) && !c.faultStop && !c.heldNow) + fieldBit 1 c.faultStop + fieldBit 2 c.heldNow
    + fieldBit 3 (match c.v with
        | some v => v.vIssued
        | none => false)
    + fieldBit 4 s.job.latAudit + fieldBit 5 s.job.raceAudit + field 8 8 live + field 16 16 c.migPoint.toNat

/-- STRM_STATUS (Table 7.11). -/
def Core.strmStatus (c : Core) : Nat :=
  field 0 7 c.tasks.length + fieldBit 7 c.resubLost + field 8 11 c.outstanding + field 19 13 c.cached

/-- CORE_CHK_STATUS (Table 12.10); trips of the core that wait for arbitration are its entries of the queue behind the one under
arbitration, and while the core has none under arbitration, all of them. -/
def State.chkStatus (s : State) (p : Fin 20) : Nat :=
  let c := s.core p
  fieldBit 0 c.chkStop + fieldBit 1 (c.recheck.isSome || c.test.any fun t => t.third) + fieldBit 2 c.tripSet + field 3 4 c.tripReasons.toNat + fieldBit 7 (c.hold == .stepTest)
    + field 8 8 (min 255 ((s.chk.arbs.drop 1).filter fun a => a.core == p.val).length)

/-- The counters that CNTRD.U may name, by control-space offset (R189). -/
def Core.counterRows (c : Core) : List RegRow :=
  [(0x108, 8, ctr48 c.zskip), (0x110, 8, ctr48 c.bskip), (0x118, 8, ctr48 c.colstall), (0x120, 8, ctr48 c.accfix),
   (0x128, 8, ctr48 c.tmCorr), (0x208, 8, ctr48 c.gconf), (0x800, 8, ctr48 c.clk)]
    ++ ((List.range 14).map fun i => (0x808 + 8 * i, 8, ctr48 (c.stalls[i + 1]!)))
    ++ [(0x910, 8, ctr48 c.mergeCnt), (0x918, 8, ctr48 c.dfetchCnt), (0x920, 8, ctr48 c.xspillCnt),
        (0xA08, 8, ctr48 c.tripCnt), (0xA10, 8, ctr48 c.falseCnt)]

/-- What TELEMETRY reports of a core: its counters, and VE_STATUS in its place among them (R162, R411). -/
def Core.telemetryRows (c : Core) : List RegRow := c.counterRows.take 5 ++ (0x200, 4, c.veStatus) :: c.counterRows.drop 5

/-- Every readable register of a core's control space. WO registers read zero (R14), as unlisted offsets do. -/
def State.coreRows (s : State) (p : Fin 20) : List RegRow :=
  let c := s.core p
  [(0x40, 4, s.aflags p), (0x100, 4, ofBool c.zskipEn), (0x104, 4, c.mxStatus), (0x200, 4, c.veStatus),
   (0x300, 4, ofBool c.migHold), (0x304, 4, s.seqStatus p),
   (0x308, 4, match c.v with
     | some v => v.stepTag.toNat
     | none => 0),
   (0x310, 8, c.faultReg), (0x318, 8, c.faultInfo.toNat)]
    ++ (match c.v with
        | some v => (c.tokensNext v).toList.zipIdx.map fun t => (0x400 + 4 * t.2, 4, t.1.toNat)
        | none => [])
    ++ [(0x900, 4, c.strmStatus), (0xA00, 4, fieldBit 0 c.rotate + fieldBit 2 c.stepHold), (0xA04, 4, s.chkStatus p)]
    ++ c.counterRows

/-! ### Die spaces -/

/-- Ingest space (Tables 8.9 to 8.11). Decoding is one event, so `decoding` reads 0 between events (log 33). -/
def State.ingestRows (s : State) : List RegRow :=
  let i := s.ing
  [(0, 4, fieldBit 0 (!i.plan.isEmpty && s.job.state == .running) + fieldBit 1 (i.slots.any fun x => x.phase == .held)),
   (4, 4, if s.pow.boot == .instar0 then 0 else s.pow.fuses.slices.toNat),
   (8, 8, i.evCode.toNat + fieldBit 8 i.evValid + field 16 12 i.evSlot.toNat + field 32 32 i.evStep.toNat),
   (0x10, 8, ctr48 i.samples), (0x18, 8, ctr48 i.pixels), (0x20, 8, ctr48 i.conceals), (0x28, 8, ctr48 i.hits),
   (0x30, 8, ctr48 i.misses), (0x38, 8, ctr48 i.bads), (0x40, 8, ctr48 i.polls)]

/-- Replay space (Tables 9.7 to 9.9). -/
def State.replayRows (s : State) : List RegRow :=
  let y := s.rep
  [(0, 4, fieldBit 0 y.enable + fieldBit 1 y.cont),
   (4, 4, fieldBit 0 y.linked + fieldBit 1 y.settling + fieldBit 2 (decide (32768 ≤ y.own.length)) + field 3 15 (min 32767 y.own.length)),
   (8, 8, ctr48 y.cmp), (0x10, 8, ctr48 y.miss), (0x18, 8, ctr48 y.provLost), (0x20, 8, ctr48 y.witLost)]
    ++ y.units.toList.zipIdx.flatMap fun u =>
        let w := u.1
        let own := w.owner.getD (0, 0)
        [(0x100 + 16 * u.2, 4, fieldBit 0 w.isOpen + fieldBit 1 w.owner.isSome + field 7 7 own.2 + field 14 5 own.1
            + field 24 8 (min 255 w.discards)),
         (0x108 + 16 * u.2, 8, ctr48 w.full)]

/-- MEM_XLAT_FAULT and MEM_XLAT_FAULT_INFO: the head of the queue (Table 10.7). -/
def MemSys.faultRows (m : MemSys) : List RegRow :=
  match m.faults with
  | [] => [(0x100, 8, 0), (0x108, 4, 0)]
  | f :: _ =>
    let (src, core) := match f.source with
      | .stream p => (0, p)
      | .ingest => (1, 0)
      | .collective => (2, 0)
      | .checkpoint => (3, 0)
    [(0x100, 8, field 0 48 f.addr + fieldBit 48 f.write + fieldBit 49 true + field 50 3 src + field 53 5 core),
     (0x108, 4, field 0 8 f.entry + field 8 16 (min 65535 f.merged) + field 24 8 (min 255 m.faults.length))]

/-- Ports that carry a buddy slot while the device holds slots for another (R297). -/
def MemSys.slotPorts (m : MemSys) : List Nat := m.linkedPorts.filter fun p =>
  [false, true].any fun b => match m.slotBase b with
    | some a => a / 2 ^ 37 == p
    | none => false

/-- MEM_SCREE_n_STATUS (Table 10.6). -/
def MemSys.screeStatus (m : MemSys) (holds : Bool) (n : Nat) : Nat :=
  fieldBit 0 (bitAt m.screeLinked.toNat n) + fieldBit 1 (bitAt m.screeOut.toNat n) + fieldBit 2 (bitAt m.screeX4.toNat n)
    + fieldBit 3 (bitAt m.screeGt16.toNat n) + fieldBit 4 (holds && m.slotPorts.contains n)

/-- Memory space (Tables 10.6 to 10.9). -/
def MemSys.rows (m : MemSys) (holds : Bool) : List RegRow :=
  [(0, 4, m.channels.toNat + field 24 5 m.channelCount)] ++ ((List.range 4).map fun n => (0x10 + 4 * n, 4, m.screeStatus holds n))
    ++ m.faultRows
    ++ [(0x200, 8, ctr48 m.g7Corr), (0x208, 8, ctr48 m.g7Unc), (0x210, 8, ctr48 m.stgCorr), (0x218, 8, ctr48 m.screeUnc),
        (0x220, 8, ctr48 m.xlatFaults), (0x228, 8, ctr48 m.tlbMisses)]

/-- FAB_PORT_n_STATUS (Table 11.10). -/
def Port.status (q : Port) : Nat :=
  field 0 3 q.state.code + field 3 2 q.width.toNat + fieldBit 5 q.v3 + fieldBit 6 q.degraded + field 8 4 q.reason.toNat
    + field 12 4 q.groups.toNat + field 16 15 q.neighbour.toNat

/-- FAB_PORT_n_HB (Table 11.10). -/
def Port.hb (q : Port) : Nat := field 0 2 q.nstate.toNat + field 2 4 (min 8 q.missed)

/-- The block of one port (Tables 11.10 and 11.11). -/
def Port.rows (q : Port) (base : Nat) : List RegRow :=
  [(base, 4, fieldBit 0 q.enable + field 1 2 q.maxWidth.toNat + fieldBit 4 q.v2Allow), (base + 4, 4, q.status), (base + 8, 4, q.hb),
   (base + 0x10, 8, ctr48 q.fec), (base + 0x18, 8, ctr48 q.unc), (base + 0x20, 8, ctr48 q.retry), (base + 0x28, 8, ctr48 q.credit),
   (base + 0x30, 8, ctr48 q.drop)]

/-- Fabric space (Tables 11.9 to 11.11). -/
def Fabric.rows (f : Fabric) : List RegRow :=
  [(0, 4, f.topo.toNat), (4, 4, f.pair.toNat), (8, 4, f.e2e.toNat), (0x10, 8, ctr48 f.resends), (0x18, 8, ctr48 f.noticeDrops)]
    ++ f.ports.toList.zipIdx.flatMap fun q => q.1.rows (0x100 + 0x40 * q.2)

def Phase.code : Phase → Nat
  | .idle => 0 | .pending => 1 | .holding => 2 | .copying => 3 | .manifest => 4 | .restoring => 5 | .draining => 6

/-- The conditions of R372: the F7 partner is another rank of the job, F7 is up at version 3, and the partner has both slots. -/
def State.buddyOk (s : State) : Bool :=
  let f7 := bitsAt s.fab.pair.toNat 16 15
  let q := s.fab.ports[7]
  s.job.rankTable.contains f7 && f7 != s.ownAddr.toNat && q.state == .up && q.v3 && Config.partnerHasSlots f7

/-- CKPT_STATE.guard_armed: some granule of a covered region is still held (R373). -/
def Ckpt.guardArmed (c : Ckpt) : Bool :=
  c.armed && c.granules.any fun g => !g.copied && (c.shards.getD g.shard default).kind == 1

/-- Checkpoint space (Tables 13.8 and 13.9). -/
def State.ckptRows (s : State) : List RegRow :=
  let c := s.ckpt
  [(0, 4, field 0 3 c.phase.code + fieldBit 3 c.guardArmed + fieldBit 4 (c.gen != 0 && c.slotB)
      + fieldBit 5 s.buddyOk + fieldBit 6 s.job.hostTarget + field 8 3 c.pendingB.length + field 16 8 c.lastFail.toNat),
   (4, 4, c.pendingB.headD 0), (8, 8, c.gen), (0x10, 8, c.committed), (0x18, 8, ctr48 c.copied), (0x20, 8, ctr48 c.holds),
   (0x28, 8, ctr48 c.sets), (0x30, 8, ctr48 c.fails)]

/-- The block of one bucket (Table 12.11). -/
def Bucket.rows (k : Bucket) (base : Nat) : List RegRow :=
  [(base, 4, k.level.toNat), (base + 4, 4, k.inc.toNat), (base + 8, 4, k.inc2.toNat), (base + 0xC, 4, k.leak.toNat),
   (base + 0x10, 4, k.warn.toNat), (base + 0x14, 4, k.fail.toNat),
   (base + 0x18, 4, fieldBit 0 k.warning + fieldBit 1 k.failed + fieldBit 2 k.enable), (base + 0x1C, 4, k.inc3.toNat)]

/-- Cairn space: buckets 0 to 84 (Table 12.6). -/
def Checking.rows (k : Checking) : List RegRow := (List.range 85).flatMap fun b => (k.buckets[b]!).rows (0x20 * b)

def DomState.code : DomState → Nat
  | .off => 0 | .poweringOn => 1 | .on => 2 | .poweringOff => 3 | .offPendingOn => 4 | .onPendingOff => 5 | .fault => 6

/-- Sensor of core p: sensors 0 to 19 are the cores' (log 34). -/
def Power.tmax (w : Power) : Nat := maxOf w.temps.toList

/-- Power space (Tables 15.6, 15.7 and 16.6). -/
def Power.rows (w : Power) : List RegRow :=
  [(0, 4, field 0 11 w.limitW + field 12 7 w.tthrot + fieldBit 19 w.spareWarm + fieldBit 20 w.sliceIdleOff),
   (4, 4, field 0 6 w.g + fieldBit 6 w.gRose + fieldBit 7 (w.h.toList.any fun h => decide (0 < h)) + field 8 11 (min 2047 w.estW)
      + field 19 7 (min 127 w.tmax))]
    ++ (w.h.toList.zipIdx.map fun h => (0x10 + 4 * h.2, 4, field 0 6 h.1 + field 6 7 (min 127 (w.temps[h.2]!))))
    ++ [(0x80, 4, field 0 22 w.lasers.toNat + fieldBit 22 w.regLink), (0x84, 4, field 0 10 w.setMv + field 10 10 w.measMv)]
    ++ (w.domains.toList.zipIdx.map fun d =>
        (0x100 + 4 * d.2, 4, fieldBit 0 (bitAt w.reqs.toNat d.2) + field 1 3 d.1.code
          + fieldBit 4 (w.boot != .instar0 && w.fuses.off d.2) + fieldBit 5 (d.1 == .fault)))

/-! ### PCIe configuration space (R391, R392) -/

/-- The configuration identity (Table 14.1): vendor, device, class, revision, subsystem vendor, subsystem. -/
def State.pciIdentity (s : State) : List Nat :=
  [0x1F3A, 0x5D03, 0x120000, s.pow.fuses.stepping.toNat, 0x1F3A, s.pow.fuses.grade.toNat]

/-- The low word of a 64-bit base address register: its address bits above the size and its type, prefetchable or not. -/
def barLow (addr log2 : Nat) (prefetch : Bool) : Nat := addr / 2 ^ log2 * 2 ^ log2 % 4294967296 + 4 + 8 * ofBool prefetch

/-- The configuration space, in PCI's own layout (PRESUMED, log 71): the identity of Table 14.1, the base addresses, power management, MSI-X
with 64 vectors, PCI Express with function-level reset, 512-byte payloads and 10-bit tags, advanced error reporting, the serial number,
and the resizable-BAR capability of BAR2 for 1 to 128 GiB. -/
def State.pciRows (s : State) : List RegRow :=
  let h := s.host
  let id (i : Nat) : Nat := s.pciIdentity[i]!
  let b0 := h.bar0Addr.toNat / 2 ^ 24 * 2 ^ 24
  let b2 := h.bar2Addr.toNat / 2 ^ h.bar2Log2 * 2 ^ h.bar2Log2
  [(0, 4, id 0 + 65536 * id 1), (4, 4, fieldBit 1 true + fieldBit 2 h.busMaster + fieldBit 20 true), (8, 4, id 3 + 256 * id 2),
   (0x10, 4, barLow b0 24 false), (0x14, 4, b0 / 4294967296), (0x18, 4, barLow b2 h.bar2Log2 true), (0x1C, 4, b2 / 4294967296),
   (0x2C, 4, id 4 + 65536 * id 5), (0x34, 4, 0x40),
   (0x40, 4, 0x00035001), (0x44, 4, if h.d3hot then 3 else 0),
   (0x50, 4, 0x11 + 256 * 0x60 + 65536 * 63), (0x54, 4, 0x30000), (0x58, 4, 0x38000),
   (0x60, 4, 0x00020010), (0x64, 4, 2 + fieldBit 28 true), (0x68, 4, field 5 3 2 + field 12 3 5), (0x84, 4, field 16 2 3),
   (0x100, 4, 0x14010001), (0x140, 4, 0x15010003), (0x144, 8, s.pow.fuses.serial.toNat),
   (0x150, 4, 0x00010015), (0x154, 4, field 14 8 0xFF), (0x158, 4, 2 + field 5 3 1 + field 8 6 (h.bar2Log2 - 20))]

/-- The registers of a space. -/
def State.regRows (s : State) : RegSpace → List RegRow
  | .core p => s.coreRows p
  | .ingest => s.ingestRows
  | .replay => s.replayRows
  | .memory => s.mem.rows s.holdsSlots
  | .fabric => s.fab.rows
  | .checkpoint => s.ckptRows
  | .cairn => s.chk.rows
  | .power => s.pow.rows
  | .pci => s.pciRows

/-- The value of the register at an offset; offsets with none read zero. -/
def regValue (rows : List RegRow) (off : Nat) : Nat := match rows.find? fun r => r.1 == off with
  | some r => r.2.2
  | none => 0

/-- Read one register of a space. -/
def State.readReg (s : State) (sp : RegSpace) (off : Nat) : Nat := regValue (s.regRows sp) off

/-- The byte of a space at an offset. -/
def regByte (rows : List RegRow) (off : Nat) : Byte := match rows.find? fun r => decide (r.1 ≤ off) && decide (off < r.1 + r.2.1) with
  | some r => BitVec.ofNat 8 (r.2.2 / 256 ^ (off - r.1))
  | none => 0

/-- The registers of a space in offset order, 8 bytes each (R411). -/
def regRecord (rows : List RegRow) : List Byte := rows.flatMap fun r => bytesOf 8 r.2.2

/-! ### Writes (R14, R15) -/

/-- Write a core register. CORE_STEP_TAG and CORE_TOKEN_n take a write only while the core is stopped or held (R201). -/
def State.writeCore (s : State) (p : Fin 20) (off : Nat) (v : Nat) : State :=
  let c := s.core p
  if off = 0x40 then s.modV p fun x => { x with flags := x.flags.clear v }
  else if off = 0x100 then s.modCore p fun c => { c with zskipEn := bitAt v 0 }
  else if off = 0x300 then s.modCore p fun c => { c with migHold := bitAt v 0 }
  else if off = 0x308 then
    if c.faultStop || c.heldNow then s.modV p fun x => { x with stepTag := BitVec.ofNat 32 v } else s
  else if 0x400 ≤ off ∧ off < 0x800 ∧ off % 4 = 0 then
    if c.faultStop || c.heldNow then s.modCore p fun c => c.endTokens.modV fun x => { x with tokens := x.tokens.set! ((off - 0x400) / 4) (BitVec.ofNat 16 v) } else s
  else if off = 0x900 then s.modCore p fun c => { c with resubLost := c.resubLost && !bitAt v 7 }
  else if off = 0xA00 then s.modCore p fun c => { c with rotate := bitAt v 0, stepHold := bitAt v 2 }
  else s

/-- A threshold or increment that a Cairn configuration register takes: not NaN, negative or infinite (R362). -/
def cairnValue (v : Nat) : Bool :=
  let x := fp32.decode (v % 4294967296)
  !x.isNan && !x.isInf && !x.lt (.zero false)

/-- Write a register of a bucket block (Table 12.11). -/
def Bucket.write (k : Bucket) (b off v : Nat) : Bucket :=
  let w := BitVec.ofNat 32 v
  if off = 0 then { k with level := w }
  else if off = 0x18 then { k with failed := k.failed && !bitAt v 1, enable := bitAt v 2 }
  else if !cairnValue v then k
  else if off = 4 then { k with inc := w }
  else if off = 8 then { k with inc2 := w }
  else if off = 0xC then { k with leak := w }
  else if off = 0x10 then { k with warn := w }
  else if off = 0x14 then { k with fail := w }
  else if off = 0x1C ∧ 64 ≤ b ∧ b < 84 then { k with inc3 := w }
  else k

/-- Write a fabric register; a port's enable and retrain bits are commands of their own. -/
def State.writeFabric (s : State) (off v : Nat) : State :=
  if off = 0 then { s with fab := { s.fab with topo := BitVec.ofNat 32 v &&& 0xFFFF7FFF } }
  else if off = 4 then { s with fab := { s.fab with pair := BitVec.ofNat 32 v &&& 0x7FFF7FFF } }
  else if off = 8 then { s with fab := { s.fab with e2e := BitVec.ofNat 32 v &&& 0x000FFFFF } }
  else if 0x100 ≤ off ∧ off < 0x300 ∧ (off - 0x100) % 0x40 = 0 then
    s.modPort ((off - 0x100) / 0x40) fun q => { q with maxWidth := BitVec.ofNat 2 (v / 2), v2Allow := bitAt v 4 }
  else s

/-- Write PWR_CTRL: a field outside its range is ignored (Table 15.7). -/
def Power.writeCtrl (w : Power) (v : Nat) : Power :=
  let l := bitsAt v 0 11
  let t := bitsAt v 12 7
  { w with limitW := if 600 ≤ l ∧ l ≤ 1400 then l else w.limitW, tthrot := if 85 ≤ t ∧ t ≤ 100 then t else w.tthrot,
           spareWarm := bitAt v 19, sliceIdleOff := bitAt v 20 }

/-- The host writes the configuration space (R391, R392, R396, R431): Bus Master Enable, the base addresses, and the size of BAR2 as log2 of
its MiB, of which it takes those of 1 to 128 GiB (PRESUMED, log 71). -/
def State.writePci (s : State) (off v : Nat) : State :=
  let h := s.host
  let low (a : DWord) : DWord := BitVec.ofNat 64 (a.toNat / 4294967296 * 4294967296 + v % 4294967296)
  let high (a : DWord) : DWord := BitVec.ofNat 64 (a.toNat % 4294967296 + 4294967296 * v)
  let n := bitsAt v 8 6
  if !h.pcieUp then s
  else if off = 4 then ({ s with host := { h with busMaster := bitAt v 2 } }).pump
  else if off = 0x10 then { s with host := { h with bar0Addr := low h.bar0Addr } }
  else if off = 0x14 then { s with host := { h with bar0Addr := high h.bar0Addr } }
  else if off = 0x18 then { s with host := { h with bar2Addr := low h.bar2Addr } }
  else if off = 0x1C then { s with host := { h with bar2Addr := high h.bar2Addr } }
  else if off = 0x158 ∧ 10 ≤ n ∧ n ≤ 17 then { s with host := { h with bar2Log2 := 20 + n } }
  else s

/-- Write one register of a space. RO fields, reserved fields and offsets without a register ignore the write (R5, R14). -/
def State.writeReg (s : State) (sp : RegSpace) (off v : Nat) : State :=
  match sp with
  | .core p => s.writeCore p off v
  | .ingest =>
    if off = 8 ∧ bitAt v 8 then { s with ing := { s.ing with evCode := 0, evValid := false, evSlot := 0, evStep := 0 } } else s
  | .replay =>
    if off = 0 ∧ !s.jobLive then { s with rep := { s.rep with enable := bitAt v 0, cont := bitAt v 1 } } else s
  | .memory => s
  | .fabric => s.writeFabric off v
  | .checkpoint => if off = 0x10 then { s with ckpt := { s.ckpt with committed := v } } else s
  | .cairn =>
    if off / 0x20 < 85 then
      { s with chk := { s.chk with buckets := s.chk.buckets.set! (off / 0x20) ((s.chk.buckets[off / 0x20]!).write (off / 0x20) (off % 0x20) v) } }
    else s
  | .power => if off = 0 then ({ s with pow := s.pow.writeCtrl v } : State).idleSlices else s
  | .pci => s.writePci off v

/-- R14. A write to the fields of a register that have no command of their own (log 17). -/
def execRegisterWrite (space : RegSpace) (offset : Nat) (value : DWord) (s : State) : Host.Outcome State Fault Refusal :=
  .next (s.writeReg space offset value.toNat)

/-! ### CNTRD.U (R189) -/

/-- R189. The counter register at offset csel × 8 goes to tile memory, visible at t + 4. -/
def execCntrdU (core : Fin 20) (strand : Fin 128) (ops : BitVec 118) (s : State) : Host.Outcome State Fault Refusal :=
  let w := wordOf ops 0x202
  let off := 8 * fld w 24 12
  s.issue core strand w true .none
    (fun c _ st => [(c.counterRows.any fun r => r.1 == off, 24), alignedTo (waAt w st.x 36) 8 36, resvFrom w 61]) fun s v st t =>
    let a := waAt w st.x 36
    match v.rangeFault [(a, 8)] .write with
    | some x => s.fault core strand 2 0x202 (infoAddr x)
    | none =>
      let wr := Access.put .tile a.toNat 8 (t + 3) (t + 4) strand st.pc
      s.audit core strand 0x202 [] [wr] fun s =>
        (((s.arrive core [wr]).modCore core fun c => c.putTile a.toNat (bytesOf 8 (regValue c.counterRows off)) wr).leave core [wr]).noteClassV core
          |>.commit core strand t

end Sys2Proof.Machine
end

