-- ==== Sys2Proof/Machine/Host.lean ====
section
/-! DEFINITION. The host's side of the device: identity, BAR0, BAR2 and the debug window, mailboxes and the sideband, the event
ring, shedding and the telemetry mirror (R390 to R399, R412 to R415). -/

namespace Sys2Proof.Machine

/-! ### Identity (R391, R394) -/

/-- ID_PART.stage (Table 15.1); recovery stays at Instar 1 (R442). -/
def Boot.code : Boot → Nat
  | .instar0 => 0 | .instar1 => 1 | .instar2 => 2 | .instar3 => 3 | .instar4 => 4 | .imago => 0x10 | .recovery => 1 | .tripped => 0x10

/-- The two bits of a core in ID_CORE_MAP. -/
def CoreKind.code : CoreKind → Nat
  | .disabled => 0 | .active => 1 | .spare => 2 | .out => 3

/-- A core map in the layout of ID_CORE_MAP. -/
def coreMap (kinds : List CoreKind) : Nat := (kinds.zipIdx.map fun k => k.1.code <<< (2 * k.2)).foldl (· + ·) 0

/-- The kinds of the physical cores now. -/
def State.kinds (s : State) : List CoreKind := coreNums.map fun p => (s.core p).kind

/-- Fuses are loaded during Instar 0 (R423). -/
def Power.fused (w : Power) : Bool := w.boot != .instar0

/-- The registers of the identity block (Table 14.3). -/
def State.idRows (s : State) : List RegRow :=
  let w := s.pow
  let f (n : Nat) : Nat := if w.fused then n else 0
  [(0, 4, 0x33444C53), (4, 4, 1 + 65536),
   (8, 4, f (w.fuses.stepping.toNat + 256 * w.fuses.grade.toNat) + field 16 8 w.boot.code), (0xC, 4, w.fwBuild.toNat),
   (0x10, 4, 2 + 3 * 65536 + field 24 8 s.host.nego.toNat), (0x18, 8, f (coreMap s.kinds)), (0x20, 4, s.mem.channels.toNat),
   (0x24, 4, f w.fuses.slices.toNat), (0x28, 8, f w.fuses.serial.toNat),
   (0x30, 4, field 0 15 s.ownAddr.toNat + fieldBit 15 (bitAt s.fab.topo.toNat 31))]

/-- Bytes 0x00 to 0x3F of the identity block. -/
def State.idBlock (s : State) : List Byte := (List.range 64).map fun i => regByte s.idRows i

/-- WAKE (R397): Imago, an event pending and the PCIe link down. -/
def State.wake (s : State) : Bool := s.pow.boot == .imago && !s.host.pcieUp && !s.host.evQueue.isEmpty

/-! ### Reach -/

/-- The host reaches the function: the PCIe link is up (R425). -/
def State.hostReaches (s : State) : Bool := s.host.pcieUp

/-- Mailbox 8 is reachable from the end of Instar 1, and in recovery (R425, R442). -/
def State.sidebandUp (s : State) : Bool := match s.pow.boot with
  | .instar0 | .instar1 => false
  | _ => true

/-- Firmware logs a line (R415, R397); while log collection is suspended nothing is logged. -/
def State.logLine (s : State) : State :=
  let (e, s) := s.fresh
  if 2 ≤ s.host.shed then s
  else { s with pow := { s.pow with flash := { s.pow.flash with log := s.pow.flash.log ++ Config.logText e } },
                out := s.out ++ if s.pow.hLit then consoleFrames (Config.logText e) else [] }

/-! ### Mailboxes (R398, R399) -/

/-- A mailbox holds a command that firmware has not completed. -/
def Mailbox.waits (b : Mailbox) : Bool := b.busy && !b.done

/-- A doorbell (R399): an idle mailbox locks its command area, takes the sequence word and becomes busy; a busy one sets
overrun. -/
def State.ring (s : State) (m : Nat) : State :=
  let b := s.host.boxes[m]!
  if b.busy then s.modBox m fun b => { b with overrun := true }
  else
    let s := { s with host := { s.host with nextOrder := s.host.nextOrder + 1 } }
    s.modBox m fun b =>
      { b with busy := true, done := false, ack := BitVec.ofNat 32 (natAt b.cmd 4 4), order := s.host.nextOrder, nego := s.host.nego }

/-- MBX_m_STATUS (Table 14.6). -/
def Mailbox.statusReg (b : Mailbox) : Nat :=
  fieldBit 0 b.busy + fieldBit 1 b.done + fieldBit 2 b.overrun + field 8 8 b.status.toNat + field 16 12 b.rlen

/-- Four bytes of a mailbox's block. -/
def Mailbox.read (b : Mailbox) (o : Nat) : Nat :=
  if o < 0x1000 then natAt b.cmd o 4
  else if o < 0x1FF0 then natAt b.resp (o - 0x1000) 4
  else if o = 0x1FF4 then b.statusReg
  else if o = 0x1FF8 then b.ack.toNat
  else 0

/-- Write four bytes of a mailbox's block; the command area takes none while busy. -/
def State.boxWrite (s : State) (m o v : Nat) : State :=
  if o < 0x1000 then
    s.modBox m fun b => if b.busy then b else { b with cmd := splice (padTo 4096 b.cmd) o (bytesOf 4 v) }
  else if o = 0x1FF0 then s.ring m
  else if o = 0x1FF4 && bitAt v 2 then s.modBox m fun b => { b with overrun := false }
  else s

/-- R399. A doorbell write. -/
def execMbxDoorbell (mbx : Fin 8) (s : State) : Host.Outcome State Fault Refusal :=
  .next (if s.hostReaches then s.ring mbx.val else s)

/-- R397. A sideband frame: length of the payload, channel, payload and CRC-32C. A management frame is a command in mailbox 8,
answered with its sequence word (log 25); console input is ignored; any other frame is discarded. -/
def execSidebandFrame (frame : List Byte) (s : State) : Host.Outcome State Fault Refusal :=
  let n := frame.length - 7
  let ok := decide (7 ≤ frame.length) && natAt frame 0 2 == n && natAt frame (n + 3) 4 == (crc32c (frame.take (n + 3))).toNat
  if !s.sidebandUp || !ok || natAt frame 2 1 != 0 || decide (n < 32) then .next s
  else
    let b := s.host.boxes[8]
    if b.busy then .next (s.ring 8)
    else
      let s := (s.modBox 8 fun b => { b with cmd := sub frame 3 n }).ring 8
      .next (s.emitH (.sideband (sidebandFrame 0 (bytesOf 4 (s.host.boxes[8]).ack.toNat))))

/-! ### Event ring control (Table 14.9, R412 to R414) -/

/-- EVR_CTRL as read. -/
def HostSide.evCtrl (h : HostSide) : Nat := fieldBit 0 h.evEnable + field 1 6 h.evVector.toNat + field 8 16 h.evCoalesce.toNat

/-- The event ring registers. -/
def HostSide.evRows (h : HostSide) : List RegRow :=
  [(0, 8, h.evBase.toNat), (8, 4, h.evLog2.toNat), (0xC, 4, h.evHead.toNat), (0x10, 4, h.evTail.toNat), (0x14, 4, h.evCtrl),
   (0x18, 4, h.evLost)]

/-- A write of EVR_CTRL. Enabling sets head and tail to 0 and starts the first lap (R412, R414). -/
def State.writeEvCtrl (s : State) (v : Nat) : State :=
  let on := bitAt v 0
  let h := { s.host with evEnable := on, evVector := BitVec.ofNat 6 (v / 2), evCoalesce := BitVec.ofNat 16 (v / 256) }
  let h := if on && !s.host.evEnable then { h with evHead := 0, evTail := 0, evPhase := true } else h
  ({ s with host := h }).pump

/-- A write of EVR_TAIL: queued entries go into the freed room (R413). -/
def State.writeEvTail (s : State) (v : Nat) : State := ({ s with host := { s.host with evTail := BitVec.ofNat 16 v } }).pump

/-- Write 32 bits of the event ring control. EVR_BASE and EVR_SIZE take none while the ring is enabled; a log2n outside 8 to 16
is ignored (log 36). -/
def State.evWrite (s : State) (o v : Nat) : State :=
  let h := s.host
  if o = 0 && !h.evEnable then
    { s with host := { h with evBase := BitVec.ofNat 64 (h.evBase.toNat / 4294967296 * 4294967296 + v) } }
  else if o = 4 && !h.evEnable then { s with host := { h with evBase := BitVec.ofNat 64 (h.evBase.toNat % 4294967296 + 4294967296 * v) } }
  else if o = 8 && !h.evEnable && decide (8 ≤ v % 32) && decide (v % 32 ≤ 16) then
    { s with host := { h with evLog2 := BitVec.ofNat 5 v } }
  else if o = 0x10 then s.writeEvTail v
  else if o = 0x14 then s.writeEvCtrl v
  else if o = 0x18 then { s with host := { h with evLost := h.evLost &&& (v ^^^ 0xFFFFFFFF) } }
  else s

/-- R413. The host advances the tail. -/
def execEvrTailWrite (value : BitVec 16) (s : State) : Host.Outcome State Fault Refusal :=
  .next (if s.hostReaches then s.writeEvTail value.toNat else s)

/-- R414. A write of EVR_CTRL. -/
def execEvrCtrlEnable (value : Word) (s : State) : Host.Outcome State Fault Refusal :=
  .next (if s.hostReaches then s.writeEvCtrl value.toNat else s)

/-- R412. The coalescing delay of an entry has expired. -/
def execEventInterruptCoalesce (s : State) : Host.Outcome State Fault Refusal :=
  if s.host.evDue && s.host.dma then
    .next (({ s with host := { s.host with evDue := false } }).raiseMsix s.host.evVector.toNat)
  else .next s

/-! ### MSI-X (R392, R393) -/

/-- Eight bytes of the MSI-X table; after a reset every vector is masked and the rest reads zero (log 35). -/
def HostSide.msixAt (h : HostSide) (o : Nat) : Nat := match h.msix.find? fun e => e.1 == o with
  | some e => e.2.toNat
  | none => if o % 16 = 8 then 4294967296 else 0

/-- Write 32 bits of the MSI-X table; a pending vector that this unmasks is raised (log 35). -/
def State.msixWrite (s : State) (o v : Nat) : State :=
  let a := o / 8 * 8
  let old := s.host.msixAt a
  let new := if o % 8 = 0 then old / 4294967296 * 4294967296 + v else old % 4294967296 + 4294967296 * v
  let s := { s with host := { s.host with msix := (s.host.msix.filter fun e => e.1 != a) ++ [(a, BitVec.ofNat 64 new)] } }
  let vec := o / 16
  if !s.host.masked vec && bitAt s.host.msixPending.toNat vec then
    ({ s with host := { s.host with msixPending := s.host.msixPending &&& ~~~(1 <<< vec : BitVec 64) } }).emit (.msix vec)
  else s

/-! ### The debug window (R395, R287) -/

/-- The core that DEBUG_ATTACH holds. -/
def State.debugCore (s : State) : Option (Fin 20) := coreNums.find? fun p => (s.core p).debugHeld

/-- A byte of a core's 32 MiB window (Table 14.4), as visible in the present counted cycle (R101). -/
def State.windowByte (s : State) (p : Fin 20) (a : Nat) : Byte :=
  match (s.core p).v with
  | none => if 0x1700000 ≤ a ∧ a < 0x1710000 then regByte (s.coreRows p) (a - 0x1700000) else 0
  | some v =>
    let c := s.core p
    if a < 0x1400000 then (c.tileAt v a 1 c.cycle).headD 0
    else if a < 0x1600000 then
      BitVec.ofNat 8 (((v.acc.readRange c.accesses .acc ((a - 0x1400000) / 4) 1 c.cycle).headD 0).toNat / 256 ^ (a % 4))
    else if a < 0x1600200 then BitVec.ofNat 8 ((v.slotTags[a - 0x1600000]!).code)
    else if 0x1700000 ≤ a ∧ a < 0x1710000 then regByte (s.coreRows p) (a - 0x1700000)
    else 0

/-- Bytes of the debug window. -/
def State.debugRead (s : State) (o n : Nat) : Nat :=
  match s.debugCore with
  | none => 2 ^ (8 * n) - 1
  | some p =>
    if o < 4 then (s.host.dbgPage.toNat / 256 ^ o) % 256 ^ n
    else if 0x10000 ≤ o ∧ o < 0x110000 then
      natOf ((List.range n).map fun i => s.windowByte p (1048576 * s.host.dbgPage.toNat + (o - 0x10000) + i))
    else 0

/-- A write through the debug window: DBG_PAGE, or tile memory of the held core. -/
def State.debugWrite (s : State) (o n v : Nat) : State :=
  match s.debugCore with
  | none => s
  | some p =>
    if o = 0 then { s with host := { s.host with dbgPage := BitVec.ofNat 5 v } }
    else if 0x10000 ≤ o ∧ o < 0x110000 then
      let a := 1048576 * s.host.dbgPage.toNat + (o - 0x10000)
      if a < 0x1400000 then s.modV p fun x => x.writeTile a (bytesOf n v) else s
    else s

/-! ### BAR0 (R16, R393) -/

/-- Four bytes of BAR0. -/
def State.bar0Read (s : State) (o : Nat) : Nat :=
  let h := s.host
  if o < 0x10000 then natOf ((List.range 4).map fun i => regByte s.idRows (o + i))
  else if o < 0x20000 then (h.boxes[(o - 0x10000) / 0x2000]!).read ((o - 0x10000) % 0x2000)
  else if o < 0x30000 then natOf ((List.range 4).map fun i => regByte h.evRows (o - 0x20000 + i))
  else if o < 0x30400 then h.msixAt ((o - 0x30000) / 8 * 8) / 256 ^ (o % 8) % 4294967296
  else if 0x38000 ≤ o ∧ o < 0x38008 then h.msixPending.toNat / 256 ^ (o % 8) % 4294967296
  else if o = 0x40000 then h.mirrorWord.toNat
  else if 0x40004 ≤ o ∧ o < 0x50000 then natAt h.mirror (o - 0x40004) 4
  else if 0x50000 ≤ o ∧ o < 0x50008 then h.bar2Win.toNat / 256 ^ (o % 8) % 4294967296
  else if 0x100000 ≤ o then s.debugRead (o - 0x100000) 4
  else 0

/-- Write four bytes of BAR0. -/
def State.bar0Write (s : State) (o v : Nat) : State :=
  if 0x10000 ≤ o ∧ o < 0x20000 then s.boxWrite ((o - 0x10000) / 0x2000) ((o - 0x10000) % 0x2000) v
  else if 0x20000 ≤ o ∧ o < 0x30000 then s.evWrite (o - 0x20000) v
  else if 0x30000 ≤ o ∧ o < 0x30400 then s.msixWrite (o - 0x30000) v
  else if o = 0x50000 then
    { s with host := { s.host with bar2Win := BitVec.ofNat 64 (s.host.bar2Win.toNat / 4294967296 * 4294967296 + v / 2 ^ 30 * 2 ^ 30) } }
  else if o = 0x50004 then
    { s with host := { s.host with bar2Win := BitVec.ofNat 64 (s.host.bar2Win.toNat % 4294967296 + 4294967296 * (v % 65536)) } }
  else if 0x100000 ≤ o then s.debugWrite (o - 0x100000) 4 v
  else s

/-- An access of 32 or 64 bits, naturally aligned, within BAR0. -/
def bar0Aligned (o n : Nat) : Bool := (n == 4 || n == 8) && o % n == 0 && decide (o + n ≤ 0x1000000)

/-- A host access of BAR0: low word first. Any other write is discarded and any other read is all ones (R16). -/
def State.bar0 (s : State) (write : Bool) (o n v : Nat) : State :=
  if !s.hostReaches then s
  else if !bar0Aligned o n then if write then s else s.emit (.hostData (List.replicate n 0xFF) false)
  else if write then
    let s := s.bar0Write o (v % 4294967296)
    if n = 8 then s.bar0Write (o + 4) (v / 4294967296) else s
  else s.emit (.hostData (bytesOf 4 (s.bar0Read o) ++ if n = 8 then bytesOf 4 (s.bar0Read (o + 4)) else []) false)

/-- R16. -/
def execBar0Access (write : Bool) (offset size : Nat) (value : DWord) (s : State) : Host.Outcome State Fault Refusal :=
  .next (s.bar0 write offset size value.toNat)

/-- R395. An access at an offset of the debug window. -/
def execDebugWindowAccess (write : Bool) (offset size : Nat) (value : DWord) (s : State) : Host.Outcome State Fault Refusal :=
  .next (if offset < 0xF00000 then s.bar0 write (0x100000 + offset) size value.toNat else s)

/-! ### BAR2 (R396) -/

/-- A device address that BAR2 reaches. -/
def State.bar2Reaches (s : State) (a : Nat) : Bool := decide (a < s.fwBase) || inStaging a

/-- Device address of BAR2 offset 0: W with the bits below log2 S ignored. -/
def HostSide.bar2Base (h : HostSide) : Nat := h.bar2Win.toNat / 2 ^ h.bar2Log2 * 2 ^ h.bar2Log2

/-- Uncorrectable units that a run touches. -/
def MemSys.badUnits (m : MemSys) (p : Place) (n : Nat) : List Nat :=
  (m.badOf p).filter fun u => decide (u * p.unit < p.addr + n) && decide (p.addr < (u + 1) * p.unit)

def Place.isGddr : Place → Bool
  | .gddr _ => true
  | _ => false

/-- One run of a BAR2 read: its bytes, all ones in an uncorrectable unit, and the addresses of those units. -/
def State.bar2Run (s : State) (a n : Nat) : List Byte × List Nat :=
  if !s.bar2Reaches a then (List.replicate n 0xFF, [])
  else
    let p := s.mem.place a
    let bad := s.mem.badUnits p n
    ((List.range n).map fun i => if bad.contains ((p.addr + i) / p.unit) then 0xFF else (s.mem.cellsOf p).get (p.addr + i),
      bad.map fun u => a + u * p.unit - p.addr)

/-- R396. A host read; every uncorrectable line or word it touches counts as an uncorrectable read, and every correctable error it meets as
a corrected one (R288, R292, Table 12.6). -/
def execBar2Read (offset len : Nat) (s : State) : Host.Outcome State Fault Refusal :=
  if !s.hostReaches || decide (2 ^ s.host.bar2Log2 < offset + len) then .next s
  else
    let runs := pageRuns (s.host.bar2Base + offset) len
    let s := runs.foldl (fun (s : State) r => if s.bar2Reaches r.1 then s.meetDev false r.1 r.2 else s) s
    let rs := runs.map fun r => s.bar2Run r.1 r.2
    let units := rs.flatMap (·.2)
    let bad := !units.isEmpty
    let s := units.foldl (fun (s : State) u => s.countUnc u) s
    let s := s.emit (.hostData (rs.flatMap fun r => r.1) bad)
    .next (if bad then s.emit (.aer false) else s)

/-- R396. A host write; part of an uncorrectable line or word does not take place and is reported. -/
def execBar2Write (offset : Nat) (data : List Byte) (s : State) : Host.Outcome State Fault Refusal :=
  if !s.hostReaches || decide (2 ^ s.host.bar2Log2 < offset + data.length) then .next s
  else
    let base := s.host.bar2Base + offset
    .next ((pageRuns base data.length).foldl (fun (s : State) r =>
      if !s.bar2Reaches r.1 then s
      else
        let p := s.mem.place r.1
        let part := (s.mem.badUnits p r.2).filter fun u => partUnit p.unit p.addr r.2 u
        let s := (s.meetDev true r.1 r.2).modMem fun m => ((m.writeRun p (sub data (r.1 - base) r.2)).1)
        if part.isEmpty then s
        else (s.modMem fun m => { m with g7Unc := m.g7Unc + if p.isGddr then part.length else 0 }).emit (.aer true)) s)

/-! ### Shedding and the telemetry mirror (R415) -/

/-- R415. A 10 ms window of firmware's busy time: above 90 % the shed level rises, up to 3; after 100 ms below 50 % it falls. -/
def execShedLevelWindow (busyPercent : Nat) (quiet100ms : Bool) (s : State) : Host.Outcome State Fault Refusal :=
  let old := s.host.shed
  let new := if 90 < busyPercent then min 3 (old + 1) else if quiet100ms && decide (busyPercent < 50) then old - 1 else old
  if s.pow.boot != .imago || new == old then .next s
  else
    let s := { s with host := { s.host with shed := new } }
    let s := if old = 2 ∧ new = 1 then s.logLine else s
    .next (s.post 0x0E02 (bytesOf 1 new))

/-- The device summary record of TELEMETRY selector 0x01 (R411), as built now. -/
def State.summary (s : State) : List Byte × State :=
  let (e, s) := s.fresh
  (Config.summaryHead e ++ bytesOf 1 s.host.shed ++ Config.summaryTail e, s)

/-- The sampling interval in clock periods at 2.0 GHz: from shed level 1 on four times what TELEMETRY wrote. -/
def HostSide.mirrorEvery (h : HostSide) : Nat := 2000000 * h.mirrorMs * if h.shed = 0 then 1 else 4

/-- Firmware rewrites the mirror; the update word is odd meanwhile and even after. -/
def State.sampleMirror (s : State) : State :=
  let (r, s) := s.summary
  { s with host := { s.host with mirror := r, mirrorWord := s.host.mirrorWord + 2, mirrorAt := s.ticks + s.host.mirrorEvery } }

/-- R415. Firmware rewrites the mirror, as it does each sampling interval. -/
def execTelemetryMirrorSample (s : State) : Host.Outcome State Fault Refusal :=
  .next (if s.pow.boot = .imago then s.sampleMirror else s)

end Sys2Proof.Machine
end

