-- ==== Sys2Proof/Machine/Loader.lean ====
section
/-! DEFINITION. Program images and the loader (R416 to R422): the checks of Table 14.14 in order, and what a load places. -/

namespace Sys2Proof.Machine

/-! ### The image (R416, R417) -/

/-- A section: type, virtual core or 0xFFFF, bytes, index in the directory. -/
structure ImageSection where
  type : Nat
  vc : Nat
  off : Nat
  len : Nat
  bytes : List Byte
  index : Nat
  deriving DecidableEq, Repr

/-- An image with its directory read. -/
structure Image where
  raw : List Byte
  secs : List ImageSection
  deriving DecidableEq, Repr

def Image.count (m : Image) : Nat := natAt m.raw 16 4

/-- Read the section directory, as far as the bytes reach. -/
def Image.of (raw : List Byte) : Image :=
  { raw, secs := (List.range (min (natAt raw 16 4) (raw.length / 16))).map fun i =>
      let e := sub raw (64 + 16 * i) 16
      ⟨natAt e 0 2, natAt e 2 2, natAt e 4 4, natAt e 8 8, sub raw (natAt e 4 4) (natAt e 8 8), i⟩ }

def Image.v (m : Image) : Nat := natAt m.raw 8 2
def Image.strict (m : Image) : Bool := bitAt (natAt m.raw 10 1) 0
def Image.oversubOk (m : Image) : Bool := bitAt (natAt m.raw 10 1) 1
def Image.contract (m : Image) : Nat := natAt m.raw 6 2

/-- The section of a type, or of a type and a virtual core. -/
def Image.one (m : Image) (type : Nat) : Option ImageSection := m.secs.find? fun x => x.type == type
def Image.core (m : Image) (type v : Nat) : Option ImageSection := m.secs.find? fun x => x.type == type && x.vc == v

def Image.data (m : Image) (type : Nat) : List Byte := ((m.one type).map (·.bytes)).getD []
def Image.coreBytes (m : Image) (type v : Nat) : List Byte := ((m.core type v).map (·.bytes)).getD []

/-- Directory index of a section for a rejection; 0xFFFF where none is concerned. -/
def Image.at (m : Image) (type : Nat) : Nat := ((m.one type).map (·.index)).getD 0xFFFF
def Image.atCore (m : Image) (type v : Nat) : Nat := ((m.core type v).map (·.index)).getD 0xFFFF

/-- The image digest: SHA-256 with bytes 32 to 63 zero and without the signature section (R416). -/
def Image.plain (m : Image) : List Byte :=
  let z := splice m.raw 32 (zeros 32)
  match m.one 0x0E with
  | some g => z.take g.off ++ z.drop (g.off + g.len)
  | none => z

def Image.digest (m : Image) : List Byte := sub m.raw 32 32

/-- What the signature covers: the same bytes with the digest included. -/
def Image.signed (m : Image) : List Byte := match m.one 0x0E with
  | some g => m.raw.take g.off ++ m.raw.drop (g.off + g.len)
  | none => m.raw

/-- Types with one section per virtual core (Table 14.17). -/
def perCore (type : Nat) : Bool := type == 1 || type == 2 || type == 3 || type == 0x0D

/-- The length that Table 14.17 gives a section type is met. -/
def lengthOk (v type len : Nat) : Bool :=
  if type = 1 ∨ type = 5 then len % 16 == 0
  else if type = 2 then len == 256
  else if type = 4 then len % 32 == 0
  else if type = 6 then len % 32 == 0 && decide (len ≤ 64 * v)
  else if type = 7 then len % 8 == 0
  else if type = 8 then len == 32
  else if type = 0x0C then len % 144 == 0
  else if type = 0x0D then len == 128
  else if type = 0x0E then len == 16224
  else true

/-- The rules of R416 and R417 for one directory entry. -/
def Image.sectionOk (m : Image) (x : ImageSection) : Bool :=
  decide (1 ≤ x.type) && decide (x.type ≤ 0x0E) && (if perCore x.type then decide (x.vc < m.v) else x.vc == 0xFFFF)
    && x.off % 64 == 0 && decide (64 + 16 * m.count ≤ x.off) && decide (x.off + x.len ≤ m.raw.length)
    && !(m.secs.any fun y => decide (y.index < x.index) && y.type == x.type && y.vc == x.vc) && lengthOk m.v x.type x.len

/-- Magic, format version and lengths of the header (R416). -/
def Image.headerOk (m : Image) : Bool :=
  decide (64 ≤ m.raw.length) && natAt m.raw 0 4 == 0x33444C53 && natAt m.raw 4 2 == 1 && natAt m.raw 24 8 == m.raw.length
    && decide (64 + 16 * m.count ≤ m.raw.length) && natAt m.raw 10 1 / 4 == 0 && natAt m.raw 11 1 == 0 && natAt m.raw 20 4 == 0

/-- Instruction words of a virtual core. -/
def codeWords (bytes : List Byte) : List Nat := (chunks 16 bytes).map natOf

/-! ### Regions (R300, R418) -/

/-- A region table entry of the image. -/
structure RegionEntry where
  id : Nat
  kind : Nat
  flags : Nat
  vcore : Nat
  size : Nat
  clean : Bool
  deriving DecidableEq, Repr

def RegionEntry.of (e : List Byte) : RegionEntry :=
  ⟨natAt e 0 2, natAt e 2 1, natAt e 3 1, natAt e 4 2, natAt e 8 8, natAt e 6 2 == 0 && allZero (sub e 16 16)⟩

def Image.regions (m : Image) : List RegionEntry := (chunks 32 (m.data 4)).map RegionEntry.of

def RegionKind.ofCode : Nat → RegionKind
  | 1 => .tile | 2 => .staging | 3 => .gddr | 4 => .scree | 5 => .host
  | _ => .unbound

/-- Alignment and size granule of a kind (R300). -/
def kindGranule : Nat → Nat
  | 1 => 64 | 2 | 3 => 65536 | 4 => 2097152 | 5 => 4096
  | _ => 1

/-- One entry by itself: an ID below 4,096, a kind, a size in its granule, and flags that its kind may carry. -/
def RegionEntry.ok (r : RegionEntry) (v : Nat) : Bool :=
  decide (r.id < 4096) && decide (1 ≤ r.kind) && decide (r.kind ≤ 5) && decide (r.flags < 64) && r.clean && decide (0 < r.size)
    && r.size % kindGranule r.kind == 0 && (!bitAt r.flags 2 || r.kind == 1) && (!bitAt r.flags 3 || r.kind == 5)
    && (!bitAt r.flags 5 || r.kind == 1) && (r.kind != 1 || decide (r.vcore < v))

/-- Entries of one kind, and for tile regions of one virtual core, share a range. -/
def RegionEntry.shares (a b : RegionEntry) : Bool := a.kind == b.kind && (a.kind != 1 || a.vcore == b.vcore)

def totalSize (rs : List RegionEntry) : Nat := rs.foldl (fun a r => a + r.size) 0

/-- First address of a kind's range. -/
def kindBase : Nat → Nat
  | 2 => stagingBase | 4 => screeBase | 5 => hostBase
  | _ => 0

/-- The place of entry `i`: back to back in region-table order (R418). -/
def placeEntry (rs : List RegionEntry) (i : Nat) (r : RegionEntry) : Nat :=
  kindBase r.kind + totalSize ((rs.take i).filter fun x => x.shares r)

/-- The loaded region table. Host regions are bound by REGION_BIND. -/
def Image.table (m : Image) : List Region :=
  let rs := m.regions
  rs.zipIdx.map fun x =>
    let r := x.1
    { id := r.id, kind := .ofCode r.kind, base := placeEntry rs x.2 r, size := r.size, rd := bitAt r.flags 0, wr := bitAt r.flags 1,
      ex := bitAt r.flags 2, prov := bitAt r.flags 3, twinSkip := bitAt r.flags 4, vcore := r.vcore, bound := r.kind != 5 }

/-- Tile regions of a virtual core, in region-table order. -/
def Image.tiles (m : Image) (v : Nat) : List Region := m.table.filter fun r => r.kind == .tile && r.vcore == v

/-- The region that holds a virtual core's code: its first with ex set (R418). -/
def Image.codeRegion (m : Image) (v : Nat) : Option Region := (m.tiles v).find? (·.ex)

/-- The buffer region of a virtual core's stream buffers (R210, R418). -/
def Image.bufferRegion (m : Image) (v : Nat) : Option Region :=
  match m.regions.find? fun r => r.kind == 1 && r.vcore == v && bitAt r.flags 5 with
  | some r => (m.tiles v).find? fun x => x.id == r.id
  | none => none

/-- Bytes of GDDR7 beside the firmware area with `pairs` pairs (R305). -/
def MemSys.jobRoom (m : MemSys) (pairs : Nat) : Nat := m.usable - 268435456 - 25165824 * (2 * pairs)

/-- Bytes of the Scree tier for job regions: what the buddy slots leave (R297). -/
def State.screeRoom (s : State) : Nat :=
  let n := s.mem.linkedPorts.length
  2 ^ 37 * n - if s.holdsSlots then 2 ^ 38 else 0

/-- Active cores that are available, ascending (R262, R306). -/
def State.slots (s : State) : List (Fin 20) := coreNums.filter fun p => (s.core p).kind == .active && (s.core p).leaving.isNone

/-- Pairs that the loader makes of an image. -/
def State.pairsFor (s : State) (m : Image) : Nat := m.v - s.slots.length

/-- Bytes of the kind's regions, the Scree capture included (Table 14.11). -/
def State.kindBytes (s : State) (m : Image) (kind : Nat) : Nat :=
  totalSize (m.regions.filter fun r => r.kind == kind) + if kind = 4 && s.job.capture && s.job.captureScree then s.job.capSize else 0

/-- The regions fit their ranges (R300, R305, R418). -/
def State.regionsFit (s : State) (m : Image) : Bool :=
  decide (s.kindBytes m 2 ≤ stagingSize) && decide (s.kindBytes m 3 ≤ s.mem.jobRoom (s.pairsFor m)) && decide (s.kindBytes m 4 ≤ s.screeRoom)
    && decide (s.kindBytes m 5 ≤ 2 ^ 36)
    && (List.range m.v).all fun v => decide ((m.tiles v).length ≤ 64) && decide (((m.tiles v).foldl (fun a r => a + r.size) 0) ≤ 20971520)

/-- The image's region table is sound. -/
def State.tableOk (s : State) (m : Image) : Bool :=
  m.regions.zipIdx.all (fun x => x.1.ok m.v && !((m.regions.take x.2).any fun y => y.id == x.1.id)) && s.regionsFit m

/-- A virtual core's code lies in its first ex region, which carries no wr and holds it (R418). -/
def Image.codeOk (m : Image) (v : Nat) : Bool := match m.codeRegion v with
  | some r => !r.wr && decide (16 * (codeWords (m.coreBytes 1 v)).length ≤ r.size)
  | none => false

/-- Tile data does not reach beyond the virtual core's tile regions. -/
def Image.dataOk (m : Image) (v : Nat) : Bool := decide ((m.coreBytes 3 v).length ≤ (m.tiles v).foldl (fun a r => a + r.size) 0)

/-- Stream buffer n of a virtual core: offset in the buffer region, and size. -/
def Image.bufferEntry (m : Image) (v n : Nat) : Nat × Nat := (natAt (m.coreBytes 0x0D v) (8 * n) 4, natAt (m.coreBytes 0x0D v) (8 * n + 4) 4)

/-- The stream buffers of a virtual core (R210, Table 14.17). -/
def Image.buffersOk (m : Image) (v : Nat) : Bool := (List.range 16).all fun n =>
  let (off, size) := m.bufferEntry v n
  size == 0 || (size % 4096 == 0 && decide (4096 ≤ size) && decide (size ≤ 1048576)
    && (m.bufferRegion v).any fun r => decide (off + size ≤ r.size))

/-! ### Relocations (R419) -/

/-- A relocation record. -/
structure Reloc where
  vc : Nat
  type : Nat
  bit : Nat
  loc : Nat
  region : Nat
  addend : Int
  clean : Bool
  deriving DecidableEq, Repr

def Reloc.of (e : List Byte) : Reloc :=
  ⟨natAt e 0 2, natAt e 2 1, natAt e 3 1, natAt e 4 4, natAt e 8 2, signedOf 32 (natAt e 12 4), natAt e 10 2 == 0⟩

def Image.relocs (m : Image) : List Reloc := (chunks 16 (m.data 5)).map Reloc.of

/-- Width of the unit subfield and the unit of types 1 to 3 (Table 6.2). -/
def relocUnit : Nat → Nat × Nat
  | 1 => (19, 64) | 2 => (22, 8) | 3 => (20, 32)
  | _ => (32, 1)

/-- The value of a relocation, a = base + addend. -/
def Image.relocValue (m : Image) (r : Reloc) : Option Int :=
  ((m.tiles r.vc).find? fun x => x.id == r.region).map fun x => (x.base : Int) + r.addend

/-- The record is sound, and a fits. -/
def Image.relocOk (m : Image) (r : Reloc) : Bool :=
  let (bits, unit) := relocUnit r.type
  r.clean && decide (1 ≤ r.type) && decide (r.type ≤ 4) && decide (r.vc < m.v) && (m.relocValue r).any (fun a =>
      decide (0 ≤ a) && a.toNat % unit == 0 && decide (a.toNat / unit < 2 ^ bits))
    && if r.type = 4 then decide (r.loc + 4 ≤ (m.coreBytes 3 r.vc).length)
       else decide (r.loc < (codeWords (m.coreBytes 1 r.vc)).length) && decide (r.bit + bits + 3 ≤ 128)

/-- Put `len` bits of a value into a word. -/
def putBits (w lo len v : Nat) : Nat := w - (bitsAt w lo len <<< lo) + ((v % 2 ^ len) <<< lo)

/-- A virtual core's instruction words with their relocations applied. -/
def Image.code (m : Image) (v : Nat) : List Nat :=
  (m.relocs.filter fun r => r.vc == v && r.type != 4).foldl (fun ws r =>
    let (bits, unit) := relocUnit r.type
    ws.set r.loc (putBits (ws.getD r.loc 0) r.bit bits (((m.relocValue r).getD 0).toNat / unit))) (codeWords (m.coreBytes 1 v))

/-- A virtual core's tile data with its relocations applied. -/
def Image.tileData (m : Image) (v : Nat) : List Byte :=
  (m.relocs.filter fun r => r.vc == v && r.type == 4).foldl (fun bs r =>
    splice bs r.loc (bytesOf 4 ((m.relocValue r).getD 0).toNat)) (m.coreBytes 3 v)

/-! ### Other sections -/

/-- The regions that an image gives, by ID: kind and size. -/
def Image.kindOf (m : Image) (id : Nat) : Option (RegionKind × Nat) := (m.table.find? fun r => r.id == id).map fun r => (r.kind, r.size)

/-- Snapshot region and covered regions of the checkpoint list. -/
def Image.ckptList (m : Image) : Nat × List Nat :=
  let b := m.data 0x0B
  (natAt b 0 2, (List.range (natAt b 2 2)).map fun i => natAt b (4 + 2 * i) 2)

/-- The checkpoint list's rules (R371). -/
def Image.ckptOk (m : Image) : Bool := match m.one 0x0B with
  | none => true
  | some x =>
    let (snap, ids) := m.ckptList
    let plan : Plan := ⟨m.data 0x0A⟩
    let taken := if (m.one 0x0A).isSome then plan.regions else []
    let size (id : Nat) : Nat := ((m.kindOf id).map (·.2)).getD 0
    decide (4 ≤ x.len) && decide (4 + 2 * natAt x.bytes 2 2 ≤ x.len)
      && (m.kindOf snap).any (fun k => k.1 == .gddr && decide (25165824 * m.v ≤ k.2)) && !ids.contains snap && !taken.contains snap
      && ids.all (fun id => !taken.contains id && (m.kindOf id).any fun k => k.1 == .staging || k.1 == .gddr || k.1 == .scree)
      && decide (2097152 + (ids.map fun id => cdiv (size id) 2097152 * 2097152).foldl (· + ·) 0 + 25165824 * m.v ≤ 2 ^ 37)

/-- Read `n` groups from the bytes of a group table. -/
def readGroups : Nat → List Byte → List (List Nat)
  | 0, _ => []
  | n + 1, bs =>
    let g := natAt bs 0 2
    ((List.range g).map fun i => natAt bs (2 + 2 * i) 2) :: readGroups n (bs.drop (2 + 2 * g))

/-- The groups of an image for a job of n ranks (R328). -/
def Image.groups (m : Image) (n : Nat) : List (List Nat) := match m.one 9 with
  | none => [List.range n]
  | some x => readGroups (min 1025 (natAt x.bytes 0 2)) (x.bytes.drop 2)

/-- A list names nothing twice. -/
def distinct (xs : List Nat) : Bool := xs.eraseDups.length == xs.length

def Image.groupsOk (m : Image) (n : Nat) : Bool := match m.one 9 with
  | none => true
  | some x =>
    let gs := m.groups n
    let used := 2 + (gs.map fun g => 2 + 2 * g.length).foldl (· + ·) 0
    decide (1 ≤ natAt x.bytes 0 2) && decide (natAt x.bytes 0 2 ≤ 1024) && decide (used ≤ x.len) && gs.headD [] == List.range n
      && gs.all fun g => decide (1 ≤ g.length) && decide (g.length ≤ n) && distinct g && g.all fun r => decide (r < n)

/-- Witness assignment k: virtual core, strand, and whether it is valid (R188). -/
def Image.witness (m : Image) (k : Nat) : Nat × Nat × Nat :=
  let e := sub (m.data 8) (4 * k) 4
  (natAt e 0 2, natAt e 2 1, natAt e 3 1)

def Image.witnessOk (m : Image) : Bool := (List.range 8).all fun k =>
  let (v, strand, valid) := m.witness k
  decide (valid ≤ 1) && (valid == 0 || (decide (v < m.v) && decide (strand < 128)))

/-- The RNG section: uses 1 and 2, no stream ID twice (Table 14.17). -/
def Image.rngOk (m : Image) : Bool :=
  let es := chunks 8 (m.data 7)
  distinct (es.map fun e => natAt e 0 4) && es.all fun e => (natAt e 4 1 == 1 || natAt e 4 1 == 2) && natAt e 5 3 == 0

/-- A recheck entry (R420). -/
def recheckOf (e : List Byte) : Recheck :=
  { vcore := natAt e 0 2, pc := natAt e 2 2, first := natAt e 4 2, last := natAt e 6 2, scratch := natAt e 8 4, len := natAt e 12 4,
    inputs := ((List.range 16).map fun i => (natAt e (16 + 8 * i) 4, natAt e (20 + 8 * i) 4)).filter fun r => r.2 != 0 }

def Image.rechecks (m : Image) : List Recheck := (chunks 144 (m.data 0x0C)).map recheckOf

/-- The word is an MDRAIN with chk = 0b10. -/
def recheckable (w : Nat) : Bool := w % 1024 == 0x024 && bitsAt w 73 2 == 2

/-- Recheck entries and recheckable drains match one to one, and routines lie within their code (R420). -/
def Image.rechecksOk (m : Image) : Bool :=
  let rs := m.rechecks
  rs.all (fun r =>
      let ws := m.code r.vcore
      decide (r.vcore < m.v) && decide (r.pc < ws.length) && recheckable (ws.getD r.pc 0) && decide (r.first ≤ r.last)
        && decide (r.last < ws.length) && (ws.getD r.last 0) % 1024 == 0x001)
    && (List.range m.v).all fun v => (m.code v).zipIdx.all fun w =>
      !recheckable w.1 || (rs.filter fun r => r.vcore == v && r.pc == w.2).length == 1

/-- Record of bound set `set` of a virtual core, when the section gives it. -/
def Image.boundRecord (m : Image) (v set : Nat) : Option (List Byte) :=
  let b := sub (m.data 6) (64 * v + 32 * set) 32
  if b.length = 32 then some b else none

def Image.boundsOk (m : Image) : Bool := (List.range m.v).all fun v => [0, 1].all fun set =>
  (m.boundRecord v set).all fun r => (boundsFault r (set == 1)).isNone

/-- The strict scan and the limit on code (R163, R190). -/
def Image.scanOk (m : Image) (strict : Bool) (v : Nat) : Bool :=
  let ws := codeWords (m.coreBytes 1 v)
  decide (ws.length ≤ 65535) && (!strict || ws.all fun w => !bitAt w 10 && !(w % 1024 == 0x200 || w % 1024 == 0x201 || w % 1024 == 0x202))

/-! ### The checks in order (Table 14.14) -/

/-- The first check that fails: its reason and section index (R421). -/
def firstFail : List (Bool × Nat × Nat) → Option (Nat × Nat)
  | [] => none
  | c :: cs => if c.1 then firstFail cs else some c.2

/-- The cases of reason 0x06, per virtual core. -/
def Image.placeChecks (m : Image) (v : Nat) : List (Bool × Nat × Nat) :=
  [(m.codeOk v, 6, m.atCore 1 v), (m.dataOk v, 6, m.atCore 3 v), (m.buffersOk v, 6, m.atCore 0x0D v)]

/-- Why the loader rejects an image, or none (R421). -/
def State.loadFault (s : State) (m : Image) : Option (Nat × Nat) :=
  let j := s.job
  let strict := j.strict || m.strict
  let cores := List.range m.v
  let pairs := s.pairsFor m
  let gddr := s.kindBytes m 3
  let plan : Plan := ⟨m.data 0x0A⟩
  firstFail
    ([(m.headerOk, 1, 0xFFFF)] ++ (m.secs.map fun x => (m.sectionOk x, 1, x.index)) ++ [(m.digest == sha256 m.plain, 1, 0xFFFF),
      (match m.one 0x0E with
        | some g => Config.sigOk s.pow.vendorKey m.signed g.bytes
        | none => !j.sigRequired, 2, m.at 0x0E),
      (m.contract == 1, 3, 0xFFFF),
      (decide (1 ≤ m.v) && decide (m.v ≤ 24) && decide (m.v ≤ 2 * s.slots.length) && (pairs == 0 || (m.oversubOk
        && !(decide (gddr ≤ s.mem.jobRoom 0) && decide (s.mem.jobRoom pairs < gddr)))), 4, 0xFFFF)]
      ++ (cores.map fun v => (m.scanOk strict v, 5, m.atCore 1 v))
      ++ [(s.tableOk m, 6, m.at 4)] ++ cores.flatMap m.placeChecks
      ++ (m.relocs.map fun r => (m.relocOk r, 7, m.at 5))
      ++ [((m.one 0x0A).isNone || plan.ok j.n m.v m.kindOf, 8, m.at 0x0A), (m.ckptOk, 9, m.at 0x0B), (m.groupsOk j.n, 0x0A, m.at 9),
          (m.witnessOk, 0x0A, m.at 8), (m.rngOk, 0x0A, m.at 7), (j.debug || !(j.latAudit || j.raceAudit), 0x0B, 0xFFFF),
          (m.boundsOk, 0x0C, m.at 6), (m.rechecksOk, 0x0C, m.at 0x0C)])

/-! ### Placing (R421) -/

/-- A bound set at job start. -/
def Image.checkSet (m : Image) (v set : Nat) : CheckSet :=
  let b := match m.boundRecord v set with
    | some r => Bounds.ofRecord r
    | none => .off
  ⟨b, b, 0⟩

/-- Strands at job start: those with an entry index are live (R164). -/
def Image.strand (m : Image) (v : Nat) (k : Fin 128) : Strand :=
  let e := match m.core 2 v with
    | some x => natAt x.bytes (2 * k.val) 2
    | none => 0xFFFF
  if e = 0xFFFF then Strand.idle else { Strand.idle with live := true, pc := BitVec.ofNat 16 e }

/-- Virtual core v as the loader makes it; what no section gives is undefined (R4, R418). -/
def Image.vcore (m : Image) (v epoch : Nat) : VCore :=
  let code := m.code v
  let base := ((m.codeRegion v).map (·.base)).getD 0
  let buf := ((m.bufferRegion v).map (·.base)).getD 0
  let x : VCore :=
    { num := v, strands := Vector.ofFn (m.strand v), tokens := Vector.replicate 256 0, stepTag := 0, flags := .none, vt := .undefined 32 epoch,
      vm := .undefined 1 epoch, acc := .undefined 32 epoch, slotTags := Vector.replicate 512 .unset, accBad := [], accSoft := [],
      tile := .undefined 8 epoch, tileBad := [], tileSoft := [], vtBad := [], regions := (m.tiles v).map fun r => ⟨r.id, r.base, r.size, r.rd, r.wr, r.ex⟩,
      bounds := Vector.ofFn fun i => m.checkSet v i.val, active := .unloaded, shadow := .unloaded, armed := none,
      buffers := Vector.ofFn fun n => let (off, size) := m.bufferEntry v n.val
                                      if size = 0 then ⟨0, 0, 0, 0⟩ else ⟨buf + off, size, 0, 0⟩,
      codeBase := base, codeLen := code.length, vIssued := false, shadowOk := false,
      witness := (List.range 8).filterMap fun k =>
        let (c, strand, valid) := m.witness k
        if (m.one 8).isSome && valid == 1 && c == v then some (k, strand) else none }
  (x.writeTile 0 (m.tileData v)).writeTile base (code.flatMap fun w => bytesOf 16 w)

/-- Scree pages of the job's Scree regions and capture, mapped in port order (R297, R303). -/
def MemSys.screeMap (m : MemSys) (bytes : Nat) : List (Nat × DWord) := (List.range (bytes / 2097152)).map fun i =>
  let port := m.linkedPorts.getD (i / 65536) 0
  (i, BitVec.ofNat 64 (3 + 4 * port + (i % 65536) * 2097152))

/-- Virtual core v goes to slot v, and A + i as partner to slot i (R306). A field test on such a core stays due (log 28), and the next one
that is due on an idle core starts (R358). -/
def State.placeCores (s : State) (m : Image) : State :=
  let slots := s.slots
  (List.range (min m.v slots.length)).foldl (fun (s : State) i =>
    let p := slots.getD i 0
    let (e, s) := s.fresh
    let (f, s) := s.fresh
    let v := m.vcore i e
    s.modCore p fun c => { c.afterReset c.kind with
                           v := some v, ibuf := v.preload, migHold := slots.length + i < m.v || c.leaving.isSome,
                           partner := if slots.length + i < m.v then some (m.vcore (slots.length + i) f) else none }) s |>.startTests

/-- The loader places an image that passed its checks (R421 steps 1 to 6) and the release word (R234). -/
def State.placeImage (s : State) (m : Image) : State :=
  let (snap, ids) := m.ckptList
  let listed := (m.one 0x0B).isSome
  let j := s.job
  let s := s.placeCores m
  let s := { s with
    job := { j with digest := m.digest, v := m.v, oversubOk := m.oversubOk, ckptEvery := natAt m.raw 12 4, contract := m.contract,
                    strict := j.strict || m.strict, regions := m.table, groups := m.groups j.n, rechecks := m.rechecks,
                    snapshot := if listed then some snap else none, covered := if listed then ids else [],
                    capBase := screeBase + totalSize (m.regions.filter fun r => r.kind == 4) },
    mem := { s.mem with screePages := s.mem.screeMap (s.kindBytes m 4), hostPages := [], hostDirs := [], tlb := [] },
    ing := { Ingest.idle with plan := m.data 0x0A },
    rep := { s.rep with units := Vector.ofFn fun u =>
      let (v, strand, valid) := m.witness u.val
      { Witness.idle with owner := if (m.one 8).isSome && valid == 1 then some (v, strand) else none } } }
  s.startIngest 0

/-- JOB_LOAD's work (R421): a rejection ends the job and answers its reason and section index. -/
def State.load (s : State) (raw : List Byte) : Option (Nat × Nat) × State :=
  let m := Image.of raw
  match s.loadFault m with
  | some r => (some r, s.setJobState .ended 8)
  | none => (none, (s.placeImage m).setJobState .loaded 1)

/-! ### Image relay (R422) -/

/-- The chunks of an image on the control plane. -/
def relayChunks (job : Nat) (raw : List Byte) : List (List Byte) :=
  let cs := chunks 4064 raw
  cs.zipIdx.map fun c => bytesOf 4 job ++ bytesOf 4 c.2 ++ bytesOf 4 cs.length ++ bytesOf 4 c.1.length ++ zeros 16 ++ c.1

/-- R422. A chunk of a relayed image: forwarded, and loaded once complete by a device in state C with that job. -/
def execImageRelay (port : Fin 6) (ctl : Ctl) (payload : List Byte) (s : State) : Host.Outcome State Fault Refusal :=
  if !s.freshCtl port.val ctl then .next s
  else
    let s := s.relayCtl port.val 5 ctl payload
    let index := natAt payload 4 4
    let count := natAt payload 8 4
    let len := natAt payload 12 4
    let held := s.job.relay.held
    if s.job.state ≠ .created ∨ natAt payload 0 4 ≠ s.job.id.toNat ∨ 4064 < len ∨ count ≤ index ∨ (held.any fun c => c.1 == index) = true
    then .next s
    else
      let held := held ++ [(index, sub payload 32 len)]
      if held.length < count then .next { s with job := { s.job with relay := ⟨count, held⟩ } }
      else
        let raw := (List.range count).flatMap fun i => ((held.find? fun c => c.1 == i).map (·.2)).getD []
        .next (({ s with job := { s.job with relay := ⟨0, []⟩ } }).load raw).2

end Sys2Proof.Machine
end

