-- ==== Sys2Proof/Machine/Power.lean ====
section
/-! DEFINITION. Bring-up, resets, firmware slots, power domains, throttling, lasers, the regulator link, and the state of the host
and CXL links (R390 to R392, R423 to R445, R448, R453 to R458). -/

namespace Sys2Proof.Machine

/-! ### Firmware packages (R440 to R442) -/

/-- Bit of the device's stepping in a stepping mask (Table 12.7). -/
def Fuses.steppingBit (f : Fuses) : Nat := if f.stepping = 0x01 then 0 else 1

/-- Component entries of a package: (type, component bytes, digest) (Table 15.8). -/
def fwComponents (b : List Byte) : List (Nat × List Byte × List Byte) :=
  (List.range (natAt b 20 4)).map fun i =>
    let e := sub b (96 + 48 * i) 48
    (natAt e 0 2, sub b (natAt e 4 4) (natAt e 8 4), sub e 16 32)

/-- The package's component of a type. -/
def fwComponent (b : List Byte) (type : Nat) : List Byte :=
  match (fwComponents b).find? fun c => c.1 == type with
  | some c => c.2.1
  | none => []

/-- A package is authentic (R441). -/
def Fuses.authentic (f : Fuses) (b : List Byte) : Bool :=
  let n := b.length
  let key := sub b 32 48
  let cs := fwComponents b
  natAt b 0 4 == 0x57464C53 && natAt b 4 2 == 1 && decide (96 + 16224 ≤ n) && decide (n ≤ 33554432) && natAt b 24 8 == n
    && decide (3 ≤ natAt b 20 4) && decide (natAt b 20 4 ≤ 8)
    && f.keySlots.toList.contains (some (sha256 key)) && Config.sigOk key (b.take (n - 16224)) (b.drop (n - 16224))
    && bitAt (natAt b 16 4) f.steppingBit && decide (f.securityVersion ≤ natAt b 8 4) && decide (natAt b 8 4 ≤ 64)
    && [1, 2, 3].all (fun t => (cs.filter fun c => c.1 == t).length == 1)
    && cs.all (fun c => sha256 c.2.1 == c.2.2)

/-- A firmware slot: true is slot B. -/
def Flash.slot (f : Flash) (b : Bool) : List Byte := if b then f.slotB else f.slotA

/-- The slots in the order in which Instar 1 tries them: the selected one first, or the other one after the bring-up watchdog
forced it (R442, R444). -/
def Power.slotOrder (w : Power) : List Bool :=
  match w.fallback with
  | some (_, 2, _) => [!w.flash.selectedB, w.flash.selectedB]
  | _ => [w.flash.selectedB, !w.flash.selectedB]

/-! ### Training records (R427, R428) -/

/-- What the CRC-32C of a training record covers, in the order in which R427 names it (the layout is the model's, log 39). -/
def recordBody (r : TrainRec) : List Byte :=
  bytesOf 2 r.unit ++ bytesOf 4 r.format ++ r.eq ++ bytesOf 2 r.width ++ bytesOf 2 r.rate ++ bytesOf 2 r.version ++ r.partner

/-- The record of a unit whose CRC matches and whose format is the running firmware's. -/
def Power.recordOf (w : Power) (unit : Nat) : Option TrainRec :=
  w.flash.records.find? fun r => r.unit == unit && r.crc == crc32c (recordBody r) && r.format == Config.recordFormat w.fwBuild

/-- The record that firmware writes of a unit after Imago: what it trained to, as the registers show it where they do. -/
def State.newRecord (s : State) (unit e : Nat) : TrainRec :=
  let t := { Config.training unit e with unit, format := Config.recordFormat s.pow.fwBuild }
  let t :=
    if 29 ≤ unit then
      let q := s.port (unit - 29)
      { t with width := 4 * (4 - q.width.toNat), version := if q.v3 then 3 else 2 }
    else if 25 ≤ unit then
      let n := unit - 25
      { t with width := if bitAt s.mem.screeX4.toNat n then 4 else 8, rate := if bitAt s.mem.screeGt16.toNat n then 16 else 32 }
    else t
  { t with crc := crc32c (recordBody t) }

/-- Firmware writes the records of `units` that flash takes (R428): a failed write leaves the old one. -/
def State.writeRecords (s : State) (units failed : BitVec 37) : State :=
  let (e, s) := s.fresh
  let new := ((List.range 37).filter fun u => bitAt units.toNat u && !bitAt failed.toNat u).map fun u => s.newRecord u e
  { s with pow := { s.pow with flash := { s.pow.flash with
      records := (s.pow.flash.records.filter fun r => !new.any fun t => t.unit == r.unit) ++ new } } }

/-! ### Resets (Table 15.3, R430 to R432) -/

/-- What a core is by fuses and health record (R33, R347, R429). -/
def Power.kindOf (w : Power) (p : Fin 20) : CoreKind :=
  if w.fuses.cores[p] = .disabled then .disabled else if w.flash.healthOut.contains p.val then .out else w.fuses.cores[p]

/-- A core after a warm reset: as after a cold one, but for the counters that only cold, job and core resets clear. -/
def Core.warm (c : Core) (kind : CoreKind) : Core :=
  { Core.cleared kind with
    cycle := c.cycle, clk := c.clk, stalls := c.stalls, zskip := c.zskip, bskip := c.bskip, colstall := c.colstall, accfix := c.accfix,
    tmCorr := c.tmCorr, gconf := c.gconf, mergeCnt := c.mergeCnt, dfetchCnt := c.dfetchCnt, xspillCnt := c.xspillCnt,
    tripCnt := c.tripCnt, falseCnt := c.falseCnt }

/-- The cold reset (R430): power returns and Instar 0 is to run. -/
def State.coldReset (s : State) : State :=
  { State.cold s.pow.fuses s.pow.flash s.mem.scree s.mem.host s.mem.screePoison s.free with ticks := s.ticks, out := s.out, pending := s.pending }

/-- A port after a warm reset: its counters last until a cold reset. -/
def Port.warm (q : Port) : Port :=
  { Port.off with fec := q.fec, unc := q.unc, retry := q.retry, credit := q.credit, drop := q.drop }

/-- A witness unit after a warm reset: WIT_n_FULL_CNT lasts until a cold or job reset (R284). -/
def Witness.warm (u : Witness) : Witness := { Witness.idle with full := u.full }

/-- The memory system after a warm reset. -/
def MemSys.warm (m : MemSys) (epoch : Nat) : MemSys :=
  { MemSys.cold m.scree m.host m.screePoison epoch with
    g7Corr := m.g7Corr, g7Unc := m.g7Unc, stgCorr := m.stgCorr, screeUnc := m.screeUnc, xlatFaults := m.xlatFaults,
    tlbMisses := m.tlbMisses, onDie := m.onDie, refreshes := m.refreshes }

/-- The domains after a warm reset. -/
def Power.warmDomains (w : Power) : Vector DomState 148 := Vector.ofFn fun (d : Fin 148) =>
  if d.val < 80 ∧ w.kindOf (Fin.ofNat 20 (d.val / 4)) = .out ∧ w.domains[d] ≠ .fault then .off else w.domains[d]

/-- The warm reset (R430): supplies stay up, Summit reboots and bring-up runs from Instar 1. RWS fields, accepted field-test
packages and counters that a warm reset does not clear keep their values; so do the domains and the monitors (log 39), but that a core
recorded as quarantined or retired stays unpowered (R429). -/
def State.warmReset (s : State) : State :=
  let w := s.pow
  let i := s.ing
  let r := s.rep
  let c := s.ckpt
  { s with
    cores := Vector.ofFn fun p => (s.cores[p]).warm (w.kindOf p)
    job := .empty
    mem := s.mem.warm s.free
    ing := { Ingest.idle with samples := i.samples, pixels := i.pixels, conceals := i.conceals, hits := i.hits, misses := i.misses,
                              bads := i.bads, polls := i.polls }
    rep := { Replay.idle with units := r.units.map Witness.warm, cmp := r.cmp, miss := r.miss, provLost := r.provLost, witLost := r.witLost }
    fab := { Fabric.off with resends := s.fab.resends, noticeDrops := s.fab.noticeDrops, ports := s.fab.ports.map Port.warm }
    chk := { s.chk with buckets := s.chk.buckets.map fun k => { Bucket.zero with level := k.level }, arbs := [], assemblies := [],
                        drainWanted := [] }
    ckpt := { Ckpt.idle with committed := c.committed, copied := c.copied, holds := c.holds, sets := c.sets, fails := c.fails }
    host := .off
    pow := { Power.cold w.fuses w.flash with
             boot := .instar1, warm := true, fallback := w.fallback, domains := w.warmDomains, temps := w.temps,
             lasers := w.lasers, regLink := w.regLink, measMv := w.measMv }
    free := s.free + 2 }

/-- R430. Power returns. -/
def execColdReset (s : State) : Host.Outcome State Fault Refusal := .next s.coldReset

/-- A reset other than a cold one can reach the device. -/
def State.alive (s : State) : Bool := s.pow.boot != .instar0 && s.pow.boot != .tripped

/-- R430. PERST: Summit writes the health record, and the warm reset is due. Levels that Instar 4 has yet to restore are not
saved. -/
def execPerst (s : State) : Host.Outcome State Fault Refusal :=
  if !s.alive then .next s
  else
    let s := if s.pow.boot = .imago then s.saveHealth else s
    .next { s with pow := { s.pow with perst := true } }

/-- R430. The warm reset that PERST or FW_ACTIVATE made due. -/
def execWarmReset (s : State) : Host.Outcome State Fault Refusal :=
  if !s.alive || !(s.pow.perst || s.pow.activateReset) then .next s
  else
    let s := if s.pow.boot = .imago then s.saveHealth else s
    .next s.warmReset

/-- R431. PCIe-side state is reset. Commands acknowledged before go on without their completions; device requests to host memory
wait for Bus Master Enable. -/
def execFunctionLevelReset (s : State) : Host.Outcome State Fault Refusal :=
  if !s.hostReaches then .next s
  else
    let h := s.host
    let boxes := Vector.ofFn fun (m : Fin 9) =>
      let b := h.boxes[m]
      if m.val = 8 then b
      else { Mailbox.idle with old := b.old ++ if b.waits then [(b.order, b.nego, b.cmd)] else [] }
    let o := HostSide.off
    .next { s with host := { h with
      boxes, nego := 0xFF, evBase := 0, evLog2 := o.evLog2, evHead := 0, evTail := 0, evEnable := false, evVector := 0, evCoalesce := 0,
      evLost := 0, evPhase := true, evDue := false,
      evQueue := h.evQueue.filter (fun (e : List Byte × Bool × Option Nat) => e.2.2 == none || e.2.2 == some 8),
      msix := [], msixPending := 0, bar2Win := 0, bar2Log2 := o.bar2Log2, bar0Addr := 0, bar2Addr := 0, busMaster := false, d3hot := false } }

/-! ### Bring-up (R423 to R429, Table 15.1) -/

/-- The lanes that a link cannot do without have light (R452): PCIe trains on lanes 0 to 7 or fewer of them (R390); a CXL port has
positions 0 to 7 or 8 to 15 of its connector (Table 16.3). -/
def Power.linkLit (w : Power) : HostLink → Bool
  | .host => w.lit 8 0
  | .cxl p => w.lit (9 + p.val / 2) (p.val % 2)

/-- R423. Instar 0: rails good, the fuses and the health record say what each core is. -/
def execInstar0 (s : State) : Host.Outcome State Fault Refusal :=
  if s.pow.boot ≠ .instar0 then .next s
  else .next { s with cores := Vector.ofFn fun p => { s.cores[p] with kind := s.pow.kindOf p }, pow := { s.pow with boot := .instar1 } }

/-- R442. Instar 1: the first authentic package in the order of the slots runs; without one the ROM enters recovery, in which it
trains the PCIe link on the lanes with light (R453). GDDR7 domains power up as Instar 2 begins (R423). -/
def execInstar1 (s : State) : Host.Outcome State Fault Refusal :=
  if s.pow.boot ≠ .instar1 then .next s
  else
    let w := s.pow
    let sel := w.flash.selectedB
    match w.slotOrder.find? fun b => w.fuses.authentic (w.flash.slot b) with
    | none => .next { s with pow := { w with boot := .recovery }, host := { s.host with pcieUp := w.linkLit .host } }
    | some b =>
      let pkg := w.flash.slot b
      let fallback := match w.fallback with
        | some (t, 2, _) => some (t, 2, ofBool b)
        | _ => if b = sel then none else some (ofBool sel, 1, ofBool b)
      .next { s with pow := { w.ask ((List.range 24).map fun c => dom (120 + c)) with
        boot := .instar2, runningB := b, runningTrial := w.flash.trial && b == sel, fallback,
        fwBuild := BitVec.ofNat 32 (natAt pkg 12 4), vendorKey := sub pkg 32 48,
        fwDigests := [1, 2, 3].flatMap fun t => sha256 (fwComponent pkg t), fwSecurity := natAt pkg 8 4 } }

/-- R423, R294, R428. Instar 2: a channel is enabled that trained, is fused on and is not retired; every line of GDDR7 is zeroed. -/
def execInstar2 (trained full : BitVec 24) (s : State) : Host.Outcome State Fault Refusal :=
  if s.pow.boot ≠ .instar2 then .next s
  else
    let w := s.pow
    let ok := (List.range 24).filter fun c => w.domainOk (dom (120 + c))
    let powered : BitVec 24 := BitVec.ofNat 24 ((ok.map fun c => 2 ^ c).foldl (· + ·) 0)
    let on := trained &&& powered &&& ~~~w.flash.healthChannels
    let recorded := BitVec.ofNat 24 (((List.range 24).map fun c => ofBool (w.recordOf c).isSome * 2 ^ c).foldl (· + ·) 0)
    let fully := on &&& (full ||| ~~~recorded)
    let w := (w.powerUp (((List.range 24).filter fun c => bitAt on.toNat c).map fun c => dom (120 + c))).ask
      ((List.range 4).map (fun n => dom (144 + n)) ++ (List.range 8).map fun n => dom (112 + n))
    .next { s with
      mem := { s.mem with channels := on, gddr := .zeroed 8, gddrBad := [], gddrSoft := [] },
      pow := { w with boot := .instar3, trained := fully.setWidth 37, out := (w.fuses.channels &&& ~~~on).setWidth 37 } }

/-- The topology that Instar 3 trains for: the record's (R309, R310). -/
def State.recordTopo (s : State) : Word := match s.pow.flash.topology with
  | some (t, _) => t
  | none => 0

/-- Domains that Instar 4 powers on: active cores, warm spares, decode slices unless idle ones go off (R435). -/
def State.coreDomains (s : State) : List (Fin 148) :=
  (coreNums.flatMap fun p =>
    if (s.core p).kind = .active || ((s.core p).kind = .spare && s.pow.spareWarm) then (List.range 4).map fun i => dom (4 * p.val + i) else [])
  ++ if s.pow.sliceIdleOff then [] else (List.range 32).map fun n => dom (80 + n)

/-- R426. Instar 3: the PCIe link, then the CXL ports and the fabric ports, each on lanes with light (R453). A port that does not
train, or whose domain is not powered, is mapped out or down. A record is verified by link-up at its width and rate; FAB_PORT_n_CTRL.enable
takes the value of a valid record (R15, R427). The domains that Instar 4 needs are asked for as it begins. -/
def execInstar3 (links : LinkTraining) (s : State) : Host.Outcome State Fault Refusal :=
  if s.pow.boot ≠ .instar3 then .next s
  else
    let w := s.pow
    let pcieUp := links.pcieUp && w.linkLit .host
    let linked (c : Fin 4) : Bool := links.cxl[c].up && w.linkLit (.cxl c) && links.cxl[c].expanderOk && w.domainOk (dom (144 + c.val))
    let bits4 (f : Fin 4 → Bool) : Nat := ((List.finRange 4).map fun c => ofBool (f c) * 2 ^ c.val).foldl (· + ·) 0
    let topo : Fabric := { s.fab with topo := s.recordTopo }
    let used := (List.finRange 8).filter fun n => topo.usesPort n.val
    let s := { s with
      host := { s.host with pcieUp },
      mem := { s.mem with
        screeLinked := BitVec.ofNat 4 (bits4 linked), screeOut := BitVec.ofNat 4 (bits4 fun c => !linked c),
        screeX4 := BitVec.ofNat 4 (bits4 fun c => linked c && links.cxl[c].x4),
        screeGt16 := BitVec.ofNat 4 (bits4 fun c => linked c && links.cxl[c].gt16), screeDown := 0 } }
    let s := used.foldl (fun (s : State) n =>
      s.trainPort n.val (if w.domainOk (dom (112 + n.val)) then links.fabric[n] else { links.fabric[n] with groups := 0 })) s
    let up (n : Fin 8) : Bool := (s.port n.val).state == .up
    let cxlOk (c : Fin 4) : Bool := !links.cxl[c].full && (w.recordOf (25 + c.val)).any fun r =>
      r.width == (if links.cxl[c].x4 then 4 else 8) && r.rate == if links.cxl[c].gt16 then 16 else 32
    let portOk (n : Fin 8) : Bool := !links.fabric[n].full && (w.recordOf (29 + n.val)).any fun r => r.width == 4 * (4 - (s.port n.val).width.toNat)
    let s := (used.filter fun n => up n && portOk n).foldl (fun (s : State) n => s.modPort n.val fun q => { q with enable := true }) s
    let bits8 (f : Fin 8 → Bool) : Nat := ((List.finRange 8).map fun n => ofBool (f n) * 2 ^ n.val).foldl (· + ·) 0
    let fully := ofBool (pcieUp && (links.pcieFull || (w.recordOf 24).isNone)) * 2 ^ 24
      + bits4 (fun c => linked c && !cxlOk c) * 2 ^ 25
      + bits8 (fun n => up n && !portOk n) * 2 ^ 29
    let out := ofBool (!pcieUp) * 2 ^ 24 + bits4 (fun c => !linked c) * 2 ^ 25 + bits8 (fun n => (s.port n.val).state == .down) * 2 ^ 29
    let w := w.powerUp (((List.finRange 4).filter linked).map fun c => dom (144 + c.val))
    let w := (w.powerUp ((used.filter up).map fun n => dom (112 + n.val))).ask s.coreDomains
    .next { s with pow := { w with
      boot := .instar4, trained := w.trained ||| BitVec.ofNat 37 fully, out := w.out ||| BitVec.ofNat 37 out } }

/-- The Cairn counters as Instar 4 loads them: Table 12.6 or the profile, and the saved levels (R354). -/
def Power.cairn (w : Power) (b : Nat) (old : Bucket) : Bucket :=
  let k := match w.flash.profile.bind fun t => t[b]? with
    | some [inc, inc2, leak, warn, fail, inc3, enable] =>
      { Bucket.zero with inc, inc2, leak, warn, fail, inc3, enable := enable != 0 }
    | _ => defaultBucket b
  { k with level := w.flash.health.getD b old.level }

/-- R423. Instar 4 ends in Imago: topology, Cairn settings and levels, records of the units trained in full, the event, and the
notices for F0 to F5 (R466). -/
def execInstar4 (result : BringUpEnd) (s : State) : Host.Outcome State Fault Refusal :=
  if s.pow.boot ≠ .instar4 then .next s
  else
    let w := s.pow.powerUp s.coreDomains
    let (topo, pair) := w.flash.topology.getD (0, 0)
    let s := { s with
      fab := { s.fab with topo, pair },
      chk := { s.chk with buckets := Vector.ofFn fun (b : Fin 128) => w.cairn b.val (s.chk.buckets[b]) },
      pow := { w with boot := .imago, fallback := none, runningTrial := false,
                      flash := { w.flash with trial := false } } }
    let s := s.writeRecords w.trained result.failed
    let s := s.post 0x0F01 (bytesOf 1 (if w.warm then 2 else 1) ++ bytesOf 1 (ofBool w.runningB) ++ zeros 2 ++ bytesOf 4 result.elapsedMs
      ++ bytesOf 8 w.trained.toNat ++ bytesOf 8 w.out.toNat)
    let s := match w.fallback with
      | some (tried, reason, booted) => s.post 0x0F02 (bytesOf 1 tried ++ bytesOf 1 reason ++ bytesOf 1 booted)
      | none => s
    let s := (List.range 6).foldl (fun (s : State) n => s.notice n) s
    .next s.startTests

/-- R444. A trial slot has not reached Imago in 300 s: a warm reset boots the other slot. -/
def execBringUpWatchdog (s : State) : Host.Outcome State Fault Refusal :=
  let w := s.pow
  if !w.runningTrial || !s.alive || w.boot = .imago || w.boot = .recovery then .next s
  else
    let s := { s with pow := { w with fallback := some (ofBool w.runningB, 2, ofBool (!w.runningB)) } }
    .next s.warmReset

/-! ### Throttling and the thermal trip (R436 to R438) -/

/-- The device trips (R438): clocks stop, every switched domain goes off, and the job is lost. -/
def State.trip (s : State) : State :=
  let (e, s) := s.fresh
  { s with
    cores := s.cores.map fun c => Core.cleared c.kind
    job := .empty
    mem := { s.mem with gddr := .undefined 8 e, gddrBad := [], gddrSoft := [], screeDown := s.mem.screeLinked }
    ing := .idle, rep := .idle
    fab := { s.fab with ports := s.fab.ports.map Port.warm, tx := [], rx := [], rxBuf := [], colls := [], collSeen := [] }
    chk := { s.chk with arbs := [], drainWanted := [] }
    ckpt := { Ckpt.idle with committed := s.ckpt.committed }
    pow := { s.pow with boot := .tripped, domains := s.pow.domains.map fun d => if d = .fault then .fault else .off, reqs := 0 }
    out := s.out ++ if s.pow.hLit then consoleFrames (Config.logText e) else [] }

/-- R438. -/
def execThermalTrip (sensor : Fin 32) (temp : Nat) (s : State) : Host.Outcome State Fault Refusal :=
  if temp < 108 || s.pow.boot = .tripped then .next s
  else .next ({ s with pow := { s.pow with temps := s.pow.temps.set sensor temp } }).trip

/-- Move a level by one within 0 to 48. -/
def moveLevel (l : Nat) (up down : Bool) : Nat := if up then min 48 (l + 1) else if down then l - 1 else l

/-- The throttle's levels after a tick (R436). A core whose level falls while the setpoint, or the voltage last measured, is below what its
faster clock may need is held stretched (R456): a new setpoint is asked for with the next frame. Which setpoint a level needs is
firmware's policy (DESIGN CHOICE, log 57). -/
def Power.throttle (w : Power) (estimateW : Nat) (temps : Vector Nat 32) : Power :=
  let rise := decide (w.limitW < estimateW)
  let outside := (List.range 32).any fun i => decide (20 ≤ i) && decide (w.tthrot ≤ temps[i]!)
  let h := Vector.ofFn fun (p : Fin 20) =>
    let t := temps[p.val]!
    moveLevel w.h[p] (decide (w.tthrot ≤ t) || outside) (decide (t + 2 ≤ w.tthrot))
  let g := moveLevel w.g rise (decide (100 * estimateW < 98 * w.limitW))
  let low := decide (w.setMv < 800) || (w.regLink && decide (w.measMv < w.setMv))
  let raises := Vector.ofFn fun (p : Fin 20) => if low && decide (max g h[p] < max w.g w.h[p]) then some false else w.raises[p]
  { w with g, raises, gRose := rise && decide (w.g < 48), estW := estimateW, temps, h,
           enterWait := w.enterWait - 1, leaveWait := w.leaveWait - 1 }

/-- Some level is above 0. -/
def Power.throttled (w : Power) : Bool := decide (0 < w.g) || w.h.toList.any fun h => decide (0 < h)

/-- Event 0x0F04: the hottest sensor and G. -/
def State.postThrottle (s : State) (kind : Nat) : State :=
  let t := s.pow.tmax
  s.post 0x0F04 (bytesOf 1 kind ++ bytesOf 1 (s.pow.temps.toList.findIdx (· == t)) ++ bytesOf 1 (min 255 t) ++ bytesOf 1 s.pow.g)

/-- R436. A tick of the hardware throttle. Firmware reports entering and leaving, at most once a second for each. -/
def execThrottleTick (estimateW : Nat) (temps : Vector Nat 32) (s : State) : Host.Outcome State Fault Refusal :=
  if s.pow.boot = .tripped then .next s
  else
    let was := s.pow.throttled
    let w := s.pow.throttle estimateW temps
    let s := { s with pow := w }
    if temps.toList.any fun t => decide (108 ≤ t) then .next s.trip
    else if !s.sidebandUp || s.pow.boot = .recovery || w.throttled = was then .next s
    else if w.throttled then
      if w.enterWait ≠ 0 then .next s else .next (({ s with pow := { w with enterWait := 100000 } }).postThrottle 1)
    else if w.leaveWait ≠ 0 then .next s
    else .next (({ s with pow := { w with leaveWait := 100000 } }).postThrottle 2)

/-! ### Power domains (R433 to R435, Table 15.5) -/

/-- R434. PWR_DOM_n.req written 1. -/
def execDomainPowerOnRequest (domain : Fin 148) (s : State) : Host.Outcome State Fault Refusal := .next (s.domainRequest domain true)

/-- R434. PWR_DOM_n.req written 0. -/
def execDomainPowerOffRequest (domain : Fin 148) (s : State) : Host.Outcome State Fault Refusal := .next (s.domainRequest domain false)

/-- Strand registers and loop counters with undefined contents. -/
def Strand.spoilt (st : Strand) (e k : Nat) : Strand :=
  { st with pc := Config.undef 16 e (8 * k), x := Vector.ofFn (fun (i : Fin 7) => Config.undef 32 e (8 * k + 1 + i.val)),
            lc := Vector.ofFn fun (i : Fin 4) =>
              if Config.undef 1 e (2048 + 4 * k + i.val) = 1 then some (Config.undef 24 e (2048 + 4 * k + i.val)) else none }

/-- The tag of a number from 0 to 3. -/
def tagOf : Nat → AccTag
  | 0 => .unset | 1 => .fp32 | 2 => .pair | _ => .int32

/-- A stationary set with undefined contents: whether it is loaded is undefined too. -/
def StatSet.spoilt (t : StatSet) (e : Nat) : StatSet :=
  { t with loaded := Config.undef 1 e 0 == 1,
           rows := (List.range 32).map (fun r => (List.range 32).map fun c =>
             ⟨(List.range t.fmt.stored).map fun i => (Config.undef t.fmt.bits e (65536 + 64 * (32 * r + c) + i)).toNat,
              (List.range 2).map fun i => (Config.undef 8 e (1024 + 2 * (32 * r + c) + i)).toNat, (Config.undef 96 e (4096 + 32 * r + c)).toNat⟩),
           nanInf := (List.range 32).map fun r => Config.undef 1 e (8192 + r) == 1 }

/-- A bound set with undefined contents. -/
def Bounds.spoilt (e a : Nat) : Bounds :=
  ⟨Config.undef 32 e a, (Config.undef 32 e (a + 1)).toNat, (Config.undef 32 e (a + 2)).toNat, Config.undef 32 e (a + 3),
   Config.undef 32 e (a + 4), Config.undef 32 e (a + 5), Config.undef 1 e (a + 6) == 1⟩

/-- A domain is off: what it held is undefined, a port's link is lost (R434). Firmware powers off no domain that holds state of a job
(R435). -/
def State.domainLost (s : State) (d : Nat) : State :=
  let (e, s) := s.fresh
  if d < 80 then
    let p := Fin.ofNat 20 (d / 4)
    let s := if d % 4 = 3 then s.modCore p fun c => { c with ibuf := [] } else s
    s.modV p fun v =>
      match d % 4 with
      | 0 => { v with tile := .undefined 8 e, tileBad := [], tileSoft := [] }
      | 1 => { v with acc := .undefined 32 e, accBad := [], accSoft := [], active := v.active.spoilt (4 * e), shadow := v.shadow.spoilt (4 * e + 1),
                      slotTags := Vector.ofFn fun (i : Fin 512) => tagOf (Config.undef 2 e i.val).toNat }
      | 2 => { v with vt := .undefined 32 e, vm := .undefined 1 e, vtBad := [] }
      | _ => { v with strands := Vector.ofFn (fun (k : Fin 128) => (v.strands[k]).spoilt e k.val),
                      tokens := Vector.ofFn (fun (i : Fin 256) => Config.undef 16 e (4096 + i.val)), stepTag := Config.undef 32 e 8192,
                      bounds := Vector.ofFn fun (i : Fin 2) => { v.bounds[i] with cur := Bounds.spoilt e (16 * i.val + 16384) } }
  else if d < 112 then s
  else if d < 120 then if (s.port (d - 112)).live then s.markDown (d - 112) 1 else s
  else if d < 144 then
    let m := s.mem
    if bitAt m.channels.toNat (d - 120) then
      let k := m.channelList.findIdx (· == d - 120)
      let kept (unit u : Nat) : Bool := u * unit / 4096 % m.channelCount != k
      s.modMem fun m => { m with gddr := m.gddr.stripe m.channelCount k e, gddrBad := m.gddrBad.filter (kept 64), gddrSoft := m.gddrSoft.filter (kept 32) }
    else s
  else s.modMem fun m => { m with screeDown := m.screeDown ||| (m.screeLinked &&& BitVec.ofNat 4 (2 ^ (d - 144))) }

/-- R434. A sequence ends, and a pending opposite one begins. -/
def execDomainSequenceEnd (domain : Fin 148) (s : State) : Host.Outcome State Fault Refusal :=
  let x := s.pow.domains[domain]
  let t := s.setDomain domain x.seqEnd
  .next (if x = .poweringOff || x = .offPendingOn then t.domainLost domain.val else t)

/-- R434. Rail-good did not arrive within 1 ms of POWERING_ON: the domain is held off, and a core with it is retired. -/
def execDomainFault (domain : Fin 148) (s : State) : Host.Outcome State Fault Refusal :=
  let x := s.pow.domains[domain]
  if x = .poweringOn || x = .onPendingOff then
    let core := decide (domain.val < 80)
    let s := (s.setDomain domain .fault).post 0x0F03 (bytesOf 2 domain.val ++ bytesOf 1 (if core then domain.val / 4 else 0xFF))
    .next (if core then s.retireCore (Fin.ofNat 20 (domain.val / 4)) 4 else s)
  else .next s

/-! ### Rails and the regulator link (R455 to R457) -/


/-- R457. A rail left its window: as a cold reset. -/
def execRailOutOfWindow (s : State) : Host.Outcome State Fault Refusal := .next s.coldReset

/-- The setpoint of the next frame (R455, R456): 800 mV until Instar 4 ends; then what firmware wants, lowered only while every
core in use is slowed. -/
def State.nextSetpoint (s : State) (n : Nat) : Nat :=
  let w := s.pow
  let want := 650 + 5 * (Config.setpoint n % 31)
  let slowed := coreNums.all fun p => (s.core p).kind != .active || decide (0 < max w.g w.h[p])
  if w.boot ≠ .imago then 800 else if want < w.setMv && !slowed then w.setMv else want

/-- R455. The device sends a setpoint frame; the last one's reply, still missing, shows that no valid replies arrive (R458). -/
def execRegulatorFrame (s : State) : Host.Outcome State Fault Refusal :=
  if s.pow.boot = .instar0 then .next s
  else
    let (e, s) := s.fresh
    let w := s.pow
    let mv := s.nextSetpoint e
    let seq := w.regSeq + 1
    let head := [0x01, seq] ++ bytesOf 2 mv
    let w := { w with setMv := mv, regSeq := seq, regLink := w.regLink && !w.regWaits, regWaits := true,
                      raises := w.raises.map fun r => r.map fun _ => true }
    .next (({ s with pow := w }).emitH (.regulator (head ++ bytesOf 4 (crc32c head).toNat)))

/-- R455, R456. A reply: the measured voltage of the frame it answers; the clock of a core that waits for it rises once it
reaches the setpoint. -/
def execRegulatorReply (valid : Bool) (seq : Byte) (mv : BitVec 10) (s : State) : Host.Outcome State Fault Refusal :=
  let w := s.pow
  if valid && seq = w.regSeq then
    .next { s with pow := { w with regLink := true, regWaits := false, measMv := mv.toNat,
                                   raises := w.raises.map fun r => if r = some true && decide (w.setMv ≤ mv.toNat) then none else r } }
  else .next { s with pow := { w with regLink := false } }

/-! ### Lasers, host and CXL links (R452, R453, R216, R296, R351, R390 to R392, R431) -/

/-- A device address is served over a link. -/
def MemSys.overLink (m : MemSys) (link : HostLink) (a : Nat) : Bool :=
  match link with
  | .host => inHost a
  | .cxl p => match (if inScree a then m.place a else .hole) with
    | .scree x => x / 2 ^ 37 == p.val
    | _ => false

/-- The index of the stage that waits on a link and the request it waits for. -/
def Task.overLink (t : Task) (m : MemSys) (link : HostLink) : Option (Nat × Req) :=
  t.stages.zipIdx.findSome? fun st => (st.1.reqs.find? fun r => !r.tile && m.overLink link r.addr).map fun r => (st.2, r)

/-- Tasks with requests on a failed link abort with cause 0x06, and those requests never return (R216). -/
def Core.linkAbort (c : Core) (m : MemSys) (link : HostLink) : Core :=
  let c' := c.tasks.foldl (fun (c : Core) t => match t.overLink m link with
    | some (i, r) => match t.stages[i]? with
      | some st => c.abortTask t.id (st.abortAt i r.desc 6 0)
      | none => c
    | none => c) c
  { c' with tasks := c'.tasks.map fun t => { t with stages := t.stages.map fun st =>
      { st with reqs := st.reqs.filter fun r => r.tile || !m.overLink link r.addr } } }

/-- Ingest slots that read over a link: their index entry, their cache line or their source bytes. -/
def State.slotsOver (s : State) (link : HostLink) : List Slot :=
  s.ing.slots.filter fun x =>
    let p := s.plan
    let onLink (a : Nat) : Bool := s.mem.overLink link a
    match x.phase with
    | .entry =>
      let r := p.listOf x.sample
      match s.locAddr (placeAt r 0) (64 * (x.sample - (listRange r).1)) 64 false with
      | some a => onLink a
      | none => false
    | .lookup => p.lines != 0 && (match s.lineAddr x.sample with
      | some a => onLink a
      | none => false)
    | .fetch => (!x.hit && natAt x.entry 8 4 != 0 && onLink (natAt x.entry 0 8)) || (natAt x.entry 12 4 != 0 && onLink (natAt x.entry 16 8))
    | _ => false

/-- A link in service fails. -/
def State.linkError (s : State) (link : HostLink) : State :=
  let slots := if s.ingesting then s.slotsOver link else []
  let m := s.mem
  let s := s.mapCores fun c => c.linkAbort m link
  let s := slots.foldl (fun (s : State) x => s.ingestEvent 3 x.j x.step) s
  match link with
  | .host =>
    let s := { s with host := { s.host with pcieUp := false } }
    if s.job.hostTarget then s.failSet 5 else s
  | .cxl p => s.modMem fun m => { m with screeDown := m.screeDown ||| BitVec.ofNat 4 (2 ^ p.val) }

/-- The link is in service. -/
def State.linkLive (s : State) : HostLink → Bool
  | .host => s.host.pcieUp
  | .cxl p => bitAt s.mem.screeLinked.toNat p.val && !bitAt s.mem.screeDown.toNat p.val

/-- R453. An input counts as present: a port whose lanes all have light again sends what waited. -/
def execLaserPresent (input : Fin 22) (s : State) : Host.Outcome State Fault Refusal :=
  let s := { s with pow := { s.pow with lasers := s.pow.lasers ||| BitVec.ofNat 22 (2 ^ input.val) } }
  let n := input.val / 2
  .next (if n < 8 && (s.port n).state == .up then s.flushPort n else s)

/-- R453. An input counts as absent and its lanes go dark: a port that uses them sends nothing until it retrains, and a PCIe or CXL
link left without a lane it needs goes down (R390, R296). -/
def execLaserAbsent (input : Fin 22) (s : State) : Host.Outcome State Fault Refusal :=
  let s := { s with pow := { s.pow with lasers := s.pow.lasers &&& ~~~BitVec.ofNat 22 (2 ^ input.val) } }
  let dark (l : HostLink) : Bool := s.linkLive l && !s.pow.linkLit l
  .next ((HostLink.host :: (List.finRange 4).map .cxl).foldl (fun (s : State) l => if dark l then s.linkError l else s) s)

/-- R216, R256, R381. -/
def execHostOrCxlLinkError (link : HostLink) (s : State) : Host.Outcome State Fault Refusal :=
  .next (if s.linkLive link then s.linkError link else s)

/-- Firmware resubmits what waited for the links (R351). -/
def State.linkRetry (s : State) : State :=
  if !s.linksUp then s
  else coreNums.foldl (fun (s : State) p => if (s.core p).answer = some 0 then s.tryAgain p 6 else s) s

/-- R351. A link that failed is up again. -/
def execHostOrCxlLinkUp (link : HostLink) (s : State) : Host.Outcome State Fault Refusal :=
  match link with
  | .host =>
    if s.host.pcieUp || s.pow.boot ≠ .imago || !s.pow.linkLit .host then .next s
    else .next (({ s with host := { s.host with pcieUp := true } }).pump).linkRetry
  | .cxl p =>
    if bitAt s.mem.screeDown.toNat p.val && s.pow.linkLit (.cxl p) then
      .next (s.modMem fun m => { m with screeDown := m.screeDown &&& ~~~BitVec.ofNat 4 (2 ^ p.val) }).linkRetry
    else .next s

/-- R431. Requests to host memory go on. -/
def execBusMasterEnable (s : State) : Host.Outcome State Fault Refusal :=
  if s.hostReaches then .next ({ s with host := { s.host with busMaster := true } }).pump else .next s

/-- R392. The function moves between D0 and D3hot. -/
def execPciePowerStateChange (d3hot : Bool) (s : State) : Host.Outcome State Fault Refusal :=
  if s.hostReaches then .next ({ s with host := { s.host with d3hot } }).pump else .next s

end Sys2Proof.Machine
end

