-- ==== Sys2Proof/Machine/Ump.lean ====
section
/-! DEFINITION. UMP commands: the order in which firmware takes them, the checks every command passes, each command's effect, its
completion, and the control plane's pause, resume and abort (R400 to R411, R425, R442 to R447). -/

namespace Sys2Proof.Machine

/-! ### Commands held (R401) -/

/-- A command that firmware has not completed. -/
structure Held where
  order : Nat
  mbx : Nat
  cmd : List Byte
  /-- The protocol minor in force when it was acknowledged (R402). -/
  nego : Byte
  /-- Acknowledged before a function-level reset: its completion is discarded (R431). -/
  old : Bool
  deriving DecidableEq, Repr

def Held.op (h : Held) : Nat := natAt h.cmd 0 2
def Held.version (h : Held) : Nat := natAt h.cmd 2 2
def Held.plen (h : Held) : Nat := natAt h.cmd 8 4
/-- The payload, as the command area holds it (zero beyond what was written). -/
def Held.payload (h : Held) : List Byte := padTo h.plen (h.cmd.drop 32)

/-- Every command held. -/
def State.held (s : State) : List Held :=
  (List.range 9).flatMap fun m =>
    let b := s.host.boxes[m]!
    (b.old.map fun o => (⟨o.1, m, o.2.2, o.2.1, true⟩ : Held)) ++ if b.waits then [⟨b.order, m, b.cmd, b.nego, false⟩] else []

/-- The opcodes marked U in Table 14.10. -/
def urgentOps : List Nat := [0x01, 0x02, 0x24, 0x25, 0x26, 0x30, 0x53]

def Held.urgent (h : Held) : Bool := urgentOps.contains h.op

/-- Firmware takes `a` before `b`. -/
def Held.before (a b : Held) : Bool := if a.urgent = b.urgent then decide (a.order < b.order) else a.urgent

/-- The command that firmware takes next: urgent ones first, then in order of acknowledgement. -/
def State.nextCmd (s : State) : Option Held :=
  s.held.foldl (fun best h => match best with
    | none => some h
    | some b => if h.before b then some h else some b) none

/-! ### Checks that every command passes (R402, R403, R405, R425, R442) -/

/-- Bytes of payload that each opcode is defined to have (Table 14.10). -/
def payloadExtent : Nat → Nat
  | 0x02 => 4 | 0x10 => 16 | 0x11 => 1 | 0x12 => 48 | 0x20 => 192 | 0x21 => 21 | 0x22 => 32 | 0x23 => 4 | 0x24 => 4 | 0x25 => 4
  | 0x26 => 4 | 0x30 => 12 | 0x31 => 19 | 0x32 => 18 | 0x40 => 17 | 0x41 => 8 | 0x50 => 32 | 0x51 => 24 | 0x52 => 32 | 0x53 => 1
  | 0x54 => 1 | 0x60 => 6
  | _ => 0

/-- The opcodes of Table 14.10. -/
def knownOps : List Nat :=
  [0x01, 0x02, 0x03, 0x10, 0x11, 0x12, 0x20, 0x21, 0x22, 0x23, 0x24, 0x25, 0x26, 0x30, 0x31, 0x32, 0x40, 0x41, 0x50, 0x51, 0x52, 0x53,
   0x54, 0x60]

/-- The lowest protocol minor that has an opcode (R402). -/
def opMinor : Nat → Nat
  | 0x41 => 1 | 0x54 => 3
  | _ => 0

/-- Reserved bytes, bits and values of a payload are zero (R5, R402). -/
def reservedOk (op minor : Nat) (p : List Byte) : Bool :=
  let z (off n : Nat) : Bool := natAt p off n == 0
  let low (off bits : Nat) : Bool := decide (natAt p off 1 < 2 ^ bits)
  match op with
  | 0x11 => low 0 2
  | 0x20 =>
    low 25 5 && z 27 1 && z 30 2 && z 168 24
      && (decide (2 ≤ minor) || (low 24 7 && natAt p 25 1 / 2 % 8 == 0 && z 28 2 && z 144 24))
  | 0x21 => low 20 1
  | 0x22 => z 5 1 && decide (natAt p 4 1 ≤ 2) && (natAt p 4 1 == 1 || z 8 8)
  | 0x30 => low 4 1 && z 5 3
  | 0x31 => decide (natAt p 4 1 ≤ 2) && z 5 3
  | 0x32 => z 4 4 && low 16 1
  | 0x40 => low 16 1 && (decide (1 ≤ minor) || z 16 1)
  | 0x50 => z 2 2 && z 8 8
  | 0x52 => low 3 2 && z 4 28
  | 0x60 => low 4 1
  | _ => true

/-- Job states in which a command is accepted (Table 14.10); none: all. -/
def opStates (op : Nat) (p : List Byte) : Option (List JobState) :=
  match op with
  | 0x10 | 0x11 | 0x20 => some [.none, .ended]
  | 0x21 => some [.created]
  | 0x22 => match natAt p 4 1 with
    | 0 => some [.loaded, .paused]
    | 1 => some [.running, .paused]
    | _ => some [.created, .loaded, .running, .paused, .ended]
  | 0x23 | 0x32 => some [.loaded]
  | 0x24 => some [.running]
  | 0x25 => some [.paused]
  | 0x26 => some [.created, .loaded, .running, .paused]
  | 0x30 | 0x60 => some [.running, .paused]
  | 0x31 => if natAt p 4 1 = 1 then some [.running, .paused] else none
  | _ => none

/-- Commands whose payload begins with the ID of the job on the device. -/
def opNamesJob (op : Nat) (p : List Byte) : Bool :=
  [0x21, 0x22, 0x23, 0x24, 0x25, 0x26, 0x30, 0x32, 0x60].contains op || (op == 0x31 && natAt p 4 1 == 1)

/-- Version checks come first (R402, R425), under the version in force when the command was acknowledged. -/
def Held.versionBad (h : Held) : Bool :=
  let nego := h.nego.toNat
  h.op ≠ 1 && h.op ≠ 2 && (nego == 0xFF || h.version != 0x0200 + nego)

/-- Commands answered before Imago: all ops but IDENTIFY and HELLO get 0x08, in recovery FW_STAGE and FW_ACTIVATE run too. -/
def State.bootBad (s : State) (h : Held) : Bool :=
  let ok := if s.pow.boot = .recovery then [1, 2, 0x10, 0x11] else if s.pow.boot = .imago then knownOps ++ [h.op] else [1, 2]
  !ok.contains h.op

/-- The header or payload breaks a rule of R398, R403 or R5. -/
def Held.formBad (h : Held) : Bool :=
  decide (4064 < h.plen) || decide (h.plen < payloadExtent h.op) || natAt h.cmd 12 4 / 2 != 0
    || (h.mbx == 8 && decide (h.cmd.length < 32 + h.plen)) || !reservedOk h.op h.nego.toNat h.payload

/-- The status with which firmware turns a command down before it looks at what the command asks, or none. -/
def State.precheck (s : State) (h : Held) : Option Nat :=
  let minor := h.nego.toNat
  if h.versionBad then some 4
  else if s.bootBad h then some 8
  else if !knownOps.contains h.op || (h.op ≠ 1 && h.op ≠ 2 && decide (minor < opMinor h.op)) then some 3
  else if s.host.shed = 3 && !h.urgent then some 1
  else if h.formBad then some 2
  else match opStates h.op h.payload with
    | some l => if !l.contains s.job.state then some 5
        else if opNamesJob h.op h.payload && natAt h.payload 0 4 != s.job.id.toNat then some 6 else none
    | none => none

/-! ### Completion (R399, R400, R412, R413) -/

/-- What a command does: it completes, or it waits for device requests to host memory to proceed. -/
inductive Reply where
  | done (s : State) (status : Nat) (resp : List Byte)
  | wait

/-- Complete a command: response, status, done and the completion entry; busy is cleared once the entry is written, or at once while
the ring is disabled. For BUSY the entry holds the retry-after time. -/
def State.complete (s : State) (h : Held) (status : Nat) (resp : List Byte) : State :=
  if h.old then s.modBox h.mbx fun b => { b with old := b.old.filter fun o => o.1 != h.order }
  else
    let rlen := resp.length
    let s := s.modBox h.mbx fun b => { b with resp, status := BitVec.ofNat 8 status, rlen, done := true }
    let e := eventEntry 1 h.mbx (natAt h.cmd 4 4) status rlen (sub h.cmd 16 16) (if status = 1 then bytesOf 4 10000 else [])
    let s := if h.mbx = 8 then s.emitH (.sideband (sidebandFrame 0 (e ++ resp))) else s
    if s.host.evEnable then
      ({ s with host := { s.host with evQueue := s.host.evQueue ++ [(e, bitAt (natAt h.cmd 12 4) 0, some h.mbx)] } }).pump
    else s.freeBox (some h.mbx)

/-- Firmware runs, and can complete commands: from the end of Instar 1, and not in D3hot (R392, R425). -/
def State.serves (s : State) : Bool := s.sidebandUp && !s.host.d3hot

/-- Firmware takes the command of a mailbox, if it is the one whose turn it is and a command of this row. -/
def State.runUmp (s : State) (mbx : Fin 9) (mine : Nat → Bool) (act : State → List Byte → Reply) : Host.Outcome State Fault Refusal :=
  if !s.serves then .next s
  else match s.nextCmd with
    | none => .next s
    | some h =>
      if h.mbx ≠ mbx.val || !mine h.op then .next s
      else match s.precheck h with
        | some status => .next (s.complete h status [])
        | none => match act s h.payload with
          | .wait => .next s
          | .done t status resp => .next (t.complete h status resp)

/-! ### Host buffers (R404) -/

/-- The extents of a reference, trimmed to the total length; none when the list breaks R404. -/
def State.extents (s : State) (list count total : Nat) : Option HostBuf :=
  if count < 1 || 4096 < count then none
  else
    let es := (List.range count).map fun i =>
      let e := s.mem.host.getRange (list + 16 * i) 16
      (natAt e 0 8, natAt e 8 8)
    let sum := (es.map (·.2)).foldl (· + ·) 0
    let ok := es.zipIdx.all fun e =>
      e.1.1 % 4096 == 0 && e.1.2 != 0 && (e.1.2 % 4096 == 0 || (e.2 + 1 == count && sum == total))
    if ok && decide (total ≤ sum) then some ⟨extentRuns es 0 total, total⟩ else none

/-- Use a host buffer reference: device error while the link is down, a wait while requests are held, status 0x02 for a bad list. A
reference of length 0 names no buffer. -/
def State.withBuf (s : State) (ref : List Byte) (act : HostBuf → Reply) : Reply :=
  let total := natAt ref 12 4
  if total = 0 then act ⟨[], 0⟩
  else if !s.host.pcieUp then .done s 0x0A []
  else if !s.host.dma then .wait
  else match s.extents (natAt ref 0 8) (natAt ref 8 4) total with
    | none => .done s 2 []
    | some b => act b

/-- Use a host buffer that may not be empty. -/
def State.withFull (s : State) (ref : List Byte) (act : HostBuf → Reply) : Reply :=
  s.withBuf ref fun b => if b.total = 0 then .done s 2 [] else act b

/-- All bytes of a host buffer. -/
def State.bufAll (s : State) (b : HostBuf) : List Byte := s.readBuf b 0 b.total

/-! ### Identity, versions and capabilities -/

/-- R394. -/
def execIdentify (mbx : Fin 9) (s : State) : Host.Outcome State Fault Refusal :=
  s.runUmp mbx (· == 0x01) fun s _ => .done s 0 s.idBlock

/-- R402. The highest version that both sides have. -/
def execHello (mbx : Fin 9) (s : State) : Host.Outcome State Fault Refusal :=
  s.runUmp mbx (· == 0x02) fun s p =>
    let v := min (natAt p 2 2) 0x0203
    if v < max (natAt p 0 2) 0x0200 then .done s 4 []
    else .done { s with host := { s.host with nego := BitVec.ofNat 8 v } } 0 (bytesOf 2 v)

/-- Bits set in the lowest `n` bits. -/
def ones (v n : Nat) : Nat := ((List.range n).filter fun i => bitAt v i).length

/-- The CAPS record (Table 14.10). -/
def State.caps (s : State) : List Byte :=
  let count (f : Core → Bool) : Nat := (coreNums.filter fun p => f (s.core p)).length
  bytesOf 8 (s.mem.jobRoom 0) ++ bytesOf 1 (count fun c => c.kind == .active) ++ bytesOf 1 (count Core.idleSpare)
    ++ bytesOf 1 s.mem.linkedPorts.length ++ bytesOf 1 ((s.fab.ports.toList.filter fun q => q.state == .up).length)
    ++ bytesOf 1 (ones s.pow.fuses.slices.toNat 32) ++ zeros 3 ++ bytesOf 8 (2 ^ 36)

/-- R405. -/
def execCaps (mbx : Fin 9) (s : State) : Host.Outcome State Fault Refusal :=
  s.runUmp mbx (· == 0x03) fun s _ => .done s 0 s.caps

/-! ### Firmware and attestation (R443, R444, R447) -/

def Flash.setSlot (f : Flash) (b : Bool) (pkg : List Byte) : Flash := if b then { f with slotB := pkg } else { f with slotA := pkg }

/-- R443. Read a package into the firmware area of GDDR7, check it, and write it to the slot that is not selected. -/
def execFwStage (mbx : Fin 9) (s : State) : Host.Outcome State Fault Refusal :=
  s.runUmp mbx (· == 0x10) fun s p =>
    if s.mem.usable = 0 && s.pow.boot ≠ .recovery then .done s 8 []
    else s.withFull (sub p 0 16) fun b =>
      let pkg := s.bufAll b
      let s := if s.mem.usable = 0 then s else s.writeFw Config.stagePlace pkg
      if !s.pow.fuses.authentic pkg then .done s 7 []
      else
        let f := s.pow.flash
        let t := !f.selectedB
        .done { s with pow := { s.pow with flash := { f.setSlot t pkg with stagedB := some t } } } 0 (sha256 pkg)

/-- Select a slot in trial. -/
def State.selectTrial (s : State) (b reset : Bool) : State :=
  { s with pow := { s.pow with flash := { s.pow.flash with selectedB := b, trial := true }, activateReset := s.pow.activateReset || reset } }

/-- R444. The actions of Table 15.9; with nothing staged, actions 0b00 and 0b01 have no slot to select (log 37). -/
def execFwActivate (mbx : Fin 9) (s : State) : Host.Outcome State Fault Refusal :=
  s.runUmp mbx (· == 0x11) fun s p =>
    let w := s.pow
    match natAt p 0 1 with
    | 2 => .done (s.selectTrial (!w.flash.selectedB) false) 0 []
    | 3 =>
      if w.boot ≠ .imago || w.runningB ≠ w.flash.selectedB then .done s 5 []
      else .done { s with pow := { w with fuses := { w.fuses with securityVersion := max w.fuses.securityVersion w.fwSecurity } } } 0 []
    | a => match w.flash.stagedB with
      | none => .done s 8 []
      | some b => .done (s.selectTrial b (a == 1)) 0 []

/-- The attestation report before its signature (Table 15.10). -/
def State.report (s : State) (nonce : List Byte) : List Byte :=
  let w := s.pow
  bytesOf 4 0x54414C53 ++ bytesOf 2 1 ++ bytesOf 2 1 ++ bytesOf 8 w.fuses.serial.toNat ++ [w.fuses.stepping, w.fuses.grade]
    ++ bytesOf 1 (ofBool w.runningB) ++ bytesOf 1 (ofBool w.flash.trial) ++ bytesOf 4 w.fuses.securityVersion
    ++ bytesOf 8 (coreMap w.fuses.cores.toList) ++ bytesOf 8 (coreMap s.kinds) ++ bytesOf 4 s.mem.channels.toNat
    ++ bytesOf 4 w.fuses.slices.toNat ++ padTo 96 w.fwDigests ++ padTo 32 s.job.digest ++ bytesOf 4 s.job.id.toNat
    ++ bytesOf 1 s.job.state.code ++ zeros 3 ++ padTo 32 nonce ++ padTo 32 w.fuses.identityKey ++ padTo 48 w.vendorKey ++ zeros 24
    ++ padTo 16224 w.flash.certificate

/-- R447. -/
def execAttest (mbx : Fin 9) (s : State) : Host.Outcome State Fault Refusal :=
  s.runUmp mbx (· == 0x12) fun s p =>
    s.withFull (sub p 32 16) fun b =>
      if b.total < 33632 then .done s 2 []
      else
        let r := s.report (sub p 0 32)
        .done (s.writeBuf b 0 (r ++ padTo 17088 (Config.signReport r))) 0 (bytesOf 4 33632)

/-! ### Jobs (R405 to R409, R276, R372, R432) -/

/-- The job reset on every die block (R432): cores, ingest, replay, checkpoint and per-job fabric state, page tables and the TLB.
Marked cores leave, and field tests stay due (log 28). -/
def State.jobReset (s : State) : State :=
  let m := s.mem
  let s := { s with
    cores := s.cores.map fun c => c.afterReset c.kind,
    job := .empty, ing := .idle, rep := .idle,
    mem := { m with screePages := [], hostPages := [], hostDirs := [], tlb := [], faults := [] },
    fab := { s.fab with tx := [], rx := [], rxBuf := [], colls := [], collSeen := [] },
    chk := { s.chk with arbs := [], drainWanted := [] },
    ckpt := { Ckpt.idle with committed := s.ckpt.committed } }
  coreNums.foldl (fun (s : State) p => match (s.core p).leaving with
    | some r => s.takeOut p r
    | none => s) s

/-- The parameters of Table 14.11, from the payload, its buffers and its rank table. -/
def jobOf (p : List Byte) (ranks : List Nat) (prov wit cap : HostBuf) : Job :=
  let f := natAt p 24 1
  let g := natAt p 25 1
  let replay := bitAt g 3
  { Job.empty with
    state := .created, id := BitVec.ofNat 32 (natAt p 0 4), n := natAt p 4 4, rank := if replay then natAt p 28 2 else natAt p 8 4,
    wdogMs := if natAt p 12 4 = 0 then 2000 else natAt p 12 4, seed := natAt p 16 8,
    ftz := bitAt f 0, strict := bitAt f 1, debug := bitAt f 2, latAudit := bitAt f 3, raceAudit := bitAt f 4, twin := bitAt f 5,
    twinContinue := bitAt f 6, capture := bitAt f 7, hostTarget := bitAt g 0, rolling := bitAt g 1, captureScree := bitAt g 2, replay,
    sigRequired := bitAt g 4, leadLog2 := natAt p 26 1, replayRank := natAt p 28 2, weights := sub p 32 32, corpus := sub p 64 32,
    rankTable := ranks, prov := ⟨prov, 0⟩, wit := ⟨wit, 0⟩, capBuf := cap,
    capScree := if bitAt g 2 then natAt p 144 8 else 0, capFirst := natAt p 160 4, capCount := natAt p 164 4 }

/-- The values of a JOB_CREATE payload lie in their ranges. -/
def jobValuesOk (p : List Byte) : Bool :=
  let n := natAt p 4 4
  let wd := natAt p 12 4
  natAt p 0 4 != 0 && decide (1 ≤ n) && decide (n ≤ 32768) && decide (natAt p 8 4 < n)
    && (wd == 0 || (decide (10 ≤ wd) && decide (wd ≤ 600000))) && decide (natAt p 26 1 ≤ 8)
    && (!bitAt (natAt p 25 1) 3 || decide (natAt p 28 2 < n))

/-- R406. A new job: the die blocks take their job reset, and the device moves to state C. -/
def execJobCreate (mbx : Fin 9) (s : State) : Host.Outcome State Fault Refusal :=
  s.runUmp mbx (· == 0x20) fun s p =>
    let n := natAt p 4 4
    let scree := bitAt (natAt p 25 1) 2
    if s.mem.usable = 0 then .done s 8 []
    else if !jobValuesOk p then .done s 2 []
    else s.withFull (sub p 96 16) fun table => s.withBuf (sub p 112 16) fun prov => s.withBuf (sub p 128 16) fun wit =>
      s.withBuf (if scree then zeros 16 else sub p 144 16) fun cap =>
        let ranks := (List.range n).map fun i => natAt (s.readBuf table (2 * i) 2) 0 2
        if table.total < 2 * n || ranks.any fun a => decide (32768 ≤ a) then .done s 2 []
        else
          let j := jobOf p ranks prov wit cap
          let s := (s.failSet 4).jobReset
          let s := { s with job := j, rep := { s.rep with enable := j.twin, cont := j.twinContinue } }
          .done (s.postJob 1).startTests 0 []

/-- R421. Load the image; with relay, its chunks go out on the control plane too (R422). -/
def execJobLoad (mbx : Fin 9) (s : State) : Host.Outcome State Fault Refusal :=
  s.runUmp mbx (· == 0x21) fun s p =>
    s.withFull (sub p 4 16) fun b =>
      let raw := s.bufAll b
      let s := if natAt p 20 1 = 1 then (relayChunks s.job.id.toNat raw).foldl (fun (s : State) c => s.flood 5 c) s else s
      match s.load raw with
      | (some r, s) => .done s 9 (bytesOf 1 r.1 ++ zeros 1 ++ bytesOf 2 r.2)
      | (none, s) => .done s 0 []

/-- Level-3 entry of a host page (Table 10.4). -/
def hostEntry (wr : Bool) (bus : Nat) : DWord := BitVec.ofNat 64 (1 + 2 * ofBool wr + bus / 4096 * 4096)

/-- Map the pages of a region from an offset onto a host buffer, and drop their TLB entries (R304, R409). -/
def State.mapHost (s : State) (r : Region) (off : Nat) (b : HostBuf) : State :=
  let first := (r.base + off - hostBase) / 4096
  let n := cdiv b.total 4096
  let new := (List.range n).map fun i =>
    (first + i, hostEntry r.wr (((extentRuns b.extents (4096 * i) 1).headD (0, 0)).1))
  let inside (i : Nat) : Bool := decide (first ≤ i) && decide (i < first + n)
  s.modMem fun m =>
    { (m.addDirs first n) with hostPages := (m.hostPages.filter fun e => !inside e.1) ++ new,
                               tlb := m.tlb.filter fun k => !(decide (hostBase / 4096 ≤ k) && inside (k - hostBase / 4096)) }

/-- Bind a host region whole (form 0). -/
def State.bindWhole (s : State) (id : Nat) (b : HostBuf) : Reply :=
  match s.job.region id with
  | some r =>
    if r.kind ≠ .host || r.size ≠ b.total then .done s 2 []
    else
      let bound (q : Region) : Region := if q.id = id then { q with bound := true } else q
      .done ({ s with job := { s.job with regions := s.job.regions.map bound } }.mapHost r 0 b) 0 []
  | none => .done s 2 []

/-- Map pages of a host region (form 1): status 0x05 when one of them is present while the job runs; else every queued fault on
them is retried. -/
def State.bindPages (s : State) (id off : Nat) (b : HostBuf) : Reply :=
  match s.job.region id with
  | some r =>
    if r.kind ≠ .host || off % 4096 ≠ 0 || r.size < off + b.total then .done s 2 []
    else
      let first := (r.base + off - hostBase) / 4096
      let n := cdiv b.total 4096
      let inside (i : Nat) : Bool := decide (first ≤ i) && decide (i < first + n)
      let taken := s.mem.hostPages.any fun e => inside e.1 && bitAt e.2.toNat 0
      if s.job.state = .running && taken then .done s 5 []
      else
        let s := s.mapHost r off b
        let due := s.mem.faults.filter fun f => inHost f.addr && inside ((f.addr - hostBase) / 4096)
        .done (due.foldl (fun (s : State) f => s.retryPage f) s) 0 []
  | none => .done s 2 []

/-- R409. The three forms. -/
def execRegionBind (mbx : Fin 9) (s : State) : Host.Outcome State Fault Refusal :=
  s.runUmp mbx (· == 0x22) fun s p =>
    let id := natAt p 6 2
    s.withFull (sub p 16 16) fun b => match natAt p 4 1 with
      | 0 => s.bindWhole id b
      | 1 => s.bindPages id (natAt p 8 8) b
      | _ =>
        if 4 ≤ id then .done s 2 []
        else .done { s with job := { s.job with drains := s.job.drains.set! id (some b) } } 0 []

/-- Entries of a capture region from an offset on: (step, offset, length) (log 24). -/
def scanCapture : Nat → Nat → State → State × List (Nat × Nat × Nat)
  | 0, _, s => (s, [])
  | n + 1, off, s =>
    let (s, head, _) := s.readCapture off capHead
    let len := natAt head 36 4
    if s.job.capSize < off + capHead + len || 1 < natAt head 32 4 || allZero head then (s, [])
    else
      let (s, rest) := scanCapture n (off + capHead + len) s
      (s, (natAt head 0 4, off, capHead + len) :: rest)

/-- What twins exchange at JOB_START (R276): the preimage with bytes 64-95 and 104-107 zero, and the length of the rank table. -/
def State.twinIdentity (s : State) : List Byte × Nat :=
  (splice (splice (s.preimage 0) 64 (zeros 32)) 104 (zeros 4), 2 * s.job.n)

/-- F6 is up at version 3, so that the twins can exchange (R276, R317). -/
def State.twinLink (s : State) : Bool := (s.port 6).state == .up && (s.port 6).v3

/-- A twin job on this device sends its identity over F6 (R276; the packet's index and layout are log 65). -/
def State.sendTwinIdentity (s : State) : State :=
  if s.job.twin && s.twinLink then s.toPartner 6 pktTwin 0 0xFFFFFFFE (s.twinIdentity.1 ++ bytesOf 4 s.twinIdentity.2) else s

/-- Twins agree (R276): the identity that arrived in exchange `e` equals this device's own. -/
def State.twinReady (s : State) (e : Nat) : Bool :=
  !s.job.twin || (s.twinLink && Config.twinIdentity e == s.twinIdentity)

/-- The checks at JOB_START: every host region bound (R300), no failed or running restore (R385), twins agree (R276), the buddy
is in place (R372). -/
def State.mayStart (s : State) (e : Nat) : Bool :=
  (s.job.regions.all fun r => r.bound) && !s.job.restoreFailed && s.ckpt.restore.isNone && s.twinReady e && (s.job.hostTarget || s.buddyOk)

/-- R406. The strands start; pairs hold at their MIGRATE points (R306). -/
def execJobStart (mbx : Fin 9) (s : State) : Host.Outcome State Fault Refusal :=
  s.runUmp mbx (· == 0x23) fun s _ =>
    let (e, s) := s.fresh
    let s := s.sendTwinIdentity
    if !s.mayStart e then .done s 8 []
    else
      let s := s.mapCores fun c => if c.partner.isSome then { c with migHold := true } else c
      let s := { s with rep := { s.rep with linked := s.job.twin } }
      let (s, index) := if s.job.replay then scanCapture (s.job.capSize / capHead) 0 s else (s, s.job.capIndex)
      let s := { s with job := { s.job with capIndex := index } }
      .done (s.setJobState .running 1).checkComplete 0 []

/-- R407. -/
def execJobPause (mbx : Fin 9) (s : State) : Host.Outcome State Fault Refusal :=
  s.runUmp mbx (· == 0x24) fun s _ => .done (s.pauseAll 1) 0 []

/-- R407. -/
def execJobResume (mbx : Fin 9) (s : State) : Host.Outcome State Fault Refusal :=
  s.runUmp mbx (· == 0x25) fun s _ => .done (s.resumeAll 1) 0 []

/-- An abort on this device (R408): a set in progress fails, pending boundaries and queued translation faults go, accepted tasks
abort with cause 0x0A, and the job ends. -/
def State.abortJob (s : State) (reason : Nat) : State :=
  let s := s.failSet 4
  let s := { s with ckpt := { s.ckpt with pendingB := [], restore := none } }.showPhase
  let s := s.modMem fun m => { m with faults := [] }
  let s := s.mapCores fun c => if c.test.isSome then c else (c.tasks.map fun t => t.id).foldl (fun (c : Core) id => c.abortTask id ⟨0x0A, 0, 0, 0, 0, 0, 0⟩) c
  s.setJobState .ended reason

/-- R407, R408. Abort every rank. -/
def execJobAbort (mbx : Fin 9) (s : State) : Host.Outcome State Fault Refusal :=
  s.runUmp mbx (· == 0x26) fun s _ =>
    let e := s.job.epoch + 1
    let s := s.flood 2 (jobMessage s.job.id.toNat e 3 7 s.ownAddr.toNat)
    .done (({ s with job := { s.job with epoch := e, epochOp := 3 } }).abortJob 7) 0 []

/-- Firmware applies a message of this epoch and operation (R407). -/
def Job.applies (j : Job) (epoch op : Nat) : Bool :=
  decide (1 ≤ op) && decide (op ≤ 3) && j.epochOp != 3
    && (decide (j.epoch < epoch) || (epoch == j.epoch && (op == 3 || (op == 1 && j.epochOp == 2))))

/-- R407. A pause, resume or abort from another rank: sent on, and applied by its epoch. -/
def execJobControlMessage (port : Fin 6) (ctl : Ctl) (payload : List Byte) (s : State) : Host.Outcome State Fault Refusal :=
  if !s.freshCtl port.val ctl then .next s
  else
    let s := s.relayCtl port.val 2 ctl payload
    let epoch := natAt payload 4 4
    let op := natAt payload 8 1
    let reason := natAt payload 9 1
    let here := s.job.state != .none && s.job.state != .ended && natAt payload 0 4 == s.job.id.toNat
    if !here || !s.job.applies epoch op then .next s
    else
      let s := { s with job := { s.job with epoch, epochOp := op } }
      match op with
      | 1 => .next (if s.job.state = .running then s.setJobState .paused reason else s)
      | 2 => .next (if s.job.state = .paused then s.runOn reason else s)
      | _ => .next (s.abortJob reason)

/-! ### Checkpoints (R365, R380 to R385, R410) -/

/-- R365. A named boundary, or one derived and sent to every rank. -/
def execCkptRequest (mbx : Fin 9) (s : State) : Host.Outcome State Fault Refusal :=
  s.runUmp mbx (· == 0x30) fun s p =>
    if natAt p 4 1 = 0 then .done (s.requestBoundary (natAt p 8 4) s.ownAddr.toNat) 0 []
    else .done (s.sendRequest 1 0xFFFF 0).2 0 []

/-- What the query form says of a slot. -/
def State.slotRecord (s : State) (b : Bool) : State × List Byte :=
  match s.validPart b with
  | (s, some m) => (s, padTo 32 (sub m 8 8 ++ sub m 16 4 ++ sub m 20 4 ++ bytesOf 1 1))
  | (s, none) => (s, zeros 32)

/-- A rolling capture keeps the steps from the committed set on (R281). -/
def State.trimCapture (s : State) (b : Nat) : State :=
  let (s, kept) := (s.job.capIndex.filter fun e => decide (b ≤ e.1)).foldl (fun (st : State × List (Nat × List Byte)) e =>
    let (s, bs, _) := st.1.readCapture e.2.1 e.2.2
    (s, st.2 ++ [(e.1, bs)])) (s, [])
  let all := kept.flatMap (·.2)
  let index := (kept.foldl (fun (a : List (Nat × Nat × Nat) × Nat) e => (a.1 ++ [(e.1, a.2, e.2.length)], a.2 + e.2.length)) ([], 0)).1
  let s := s.writeCapture 0 all
  { s with job := { s.job with capIndex := index, capUsed := all.length } }

/-- Commit a generation (R380): the next one, whose event this device has posted. -/
def State.commitGen (s : State) (gen : Nat) : Reply :=
  if gen ≠ s.ckpt.committed + 1 || gen ≠ s.ckpt.postedGen then .done s 2 []
  else
    let s := { s with ckpt := { s.ckpt with committed := gen } }
    .done (if s.job.capture && s.job.rolling then s.trimCapture s.ckpt.postedB else s) 0 []

/-- Start a slot drain (R382). -/
def State.beginDrain (s : State) (slot w rate : Nat) : Reply :=
  if 1 < slot || 3 < w || rate < 1 || 32 < rate then .done s 2 []
  else if s.ckpt.drain.isSome || (s.job.drains[w]?.join).isNone || (s.mem.slotBase (slot == 1)).isNone then .done s 8 []
  else
    .done ({ s with ckpt := { s.ckpt with drain := some (slot == 1, w, rate) } }.showPhase.ckptNote (slot == 1) 0 2) 0 []

/-- R410. -/
def execCkptStatus (mbx : Fin 9) (s : State) : Host.Outcome State Fault Refusal :=
  s.runUmp mbx (· == 0x31) fun s p => match natAt p 4 1 with
    | 0 =>
      let (s, a) := s.slotRecord false
      let (s, b) := s.slotRecord true
      .done s 0 (a ++ b)
    | 1 => s.commitGen (natAt p 8 8)
    | _ => s.beginDrain (natAt p 16 1) (natAt p 17 1) (natAt p 18 1)

/-- R384. Start a restore; event 0x0D05 ends it. The buddy is asked for what its slot holds. -/
def execRestore (mbx : Fin 9) (s : State) : Host.Outcome State Fault Refusal :=
  s.runUmp mbx (· == 0x32) fun s p =>
    let host := natAt p 16 1 == 1
    let w := natAt p 17 1
    if (if host then 3 else 1) < w then .done s 2 []
    else if s.ckpt.restore.isSome || (host && (s.job.drains[w]?.join).isNone) then .done s 8 []
    else
      let s := { s with ckpt := { s.ckpt with restore := some (natAt p 8 8, host, w) } }.showPhase
      .done (if host then s else s.ckptNote (w == 1) 0 4) 0 []

/-! ### Field tests (R355, R356) -/

/-- R355. Verify a package; one accepted is sent on with the broadcast bit. -/
def execTestPush (mbx : Fin 9) (s : State) : Host.Outcome State Fault Refusal :=
  s.runUmp mbx (· == 0x40) fun s p =>
    if s.mem.usable = 0 then .done s 8 []
    else s.withFull (sub p 0 16) fun b =>
      let bs := s.bufAll b
      let (ok, s) := s.takePackage bs
      .done (if ok && natAt p 16 1 = 1 then s.floodPackage bs else s) 0 []

/-- R364. A device that has not accepted the package reports version 0. -/
def execTestStatus (mbx : Fin 9) (s : State) : Host.Outcome State Fault Refusal :=
  s.runUmp mbx (· == 0x41) fun s p =>
    match s.chk.packages.find? fun k => k.id.toNat == natAt p 0 8 with
    | none => .done s 0 (zeros 16)
    | some k => .done s 0 (bytesOf 4 k.version.toNat ++ bytesOf 4 k.due.toNat ++ bytesOf 4 k.passed.toNat ++ bytesOf 4 k.failed.toNat)

/-! ### Telemetry, log, power and links (R411, R415, R439) -/

/-- The job status record (R411; its field widths are log 38). A virtual core that a forced test displaced rests in its save area, on no
physical core (R265, R359). -/
def State.jobStatus (s : State) : List Byte :=
  let vs := s.vcores
  let flags := vs.foldl (fun a x => a ||| x.2.flags.bits) 0
  let row (x : Fin 20 × VCore) : List Byte :=
    let mate := vs.find? fun y => y.1 == x.1 && y.2.num != x.2.num
    let resting := ((s.core x.1).saved.any fun v => v.num == x.2.num) || (s.core x.1).kind == .out
    bytesOf 1 (if resting then 0xFF else x.1.val) ++ bytesOf 1 ((mate.map fun y => y.2.num).getD 0xFF) ++ bytesOf 1 (x.2.flags.bits % 16) ++ zeros 1
      ++ bytesOf 4 (s.seqStatus x.1) ++ bytesOf 4 x.2.stepTag.toNat ++ zeros 4
  bytesOf 4 s.job.id.toNat ++ bytesOf 1 s.job.state.code
    ++ bytesOf 1 (ofBool (s.job.vTainted || vs.any fun x => x.2.vIssued)) ++ bytesOf 1 flags ++ zeros 1 ++ vs.flatMap row

/-- Selector 0x05: the memory registers, then the GDDR7 devices' on-die ECC error counts (R293) and the event logs of the linked expanders
(R296); where these stand in the record is the model's own (log 38). -/
def State.memTelemetry (s : State) : List Byte × State :=
  let (e, s) := s.fresh
  (regRecord (s.mem.rows s.holdsSlots) ++ s.mem.onDie.toList.flatMap (bytesOf 8) ++ s.mem.linkedPorts.flatMap fun p => Config.expanderLog p e, s)

/-- The record of a selector, or none for a reserved selector or a unit that does not exist. -/
def State.telemetry (s : State) (selector unit : Nat) : Option (List Byte × State) :=
  let rows (r : List RegRow) : Option (List Byte × State) := some (regRecord r, s)
  match selector with
  | 1 => some s.summary
  | 2 => some (s.jobStatus, s)
  | 3 => if unit < 20 then rows (s.core (Fin.ofNat 20 unit)).telemetryRows else none
  | 4 => if unit < 85 then rows ((s.chk.buckets[unit]!).rows 0) else none
  | 5 => some s.memTelemetry
  | 6 => if unit < 8 then rows ((s.fab.rows.take 5) ++ (s.port unit).rows 0) else none
  | 7 => rows s.ingestRows
  | 8 => rows s.replayRows
  | 9 => rows s.ckptRows
  | _ => none

/-- R411. A record longer than a response goes to the host buffer, and its first 4,080 bytes into the response. -/
def execTelemetry (mbx : Fin 9) (s : State) : Host.Outcome State Fault Refusal :=
  s.runUmp mbx (· == 0x50) fun s p =>
    match s.telemetry (natAt p 0 1) (natAt p 1 1) with
    | none => .done s 2 []
    | some (r, t) =>
      let ms := natAt p 4 4
      let t := { t with host := { t.host with mirrorMs := if ms = 0 then t.host.mirrorMs else ms } }
      if r.length ≤ 4080 then .done t 0 r
      else s.withFull (sub p 16 16) fun b =>
        if b.total < r.length then .done s 2 [] else .done (t.writeBuf b 0 r) 0 (r.take 4080)

/-- R415. Copy log text from an offset. -/
def execLogRead (mbx : Fin 9) (s : State) : Host.Outcome State Fault Refusal :=
  s.runUmp mbx (· == 0x51) fun s p =>
    s.withFull (sub p 8 16) fun b =>
      let off := natAt p 0 8
      let text := (s.pow.flash.log.drop off).take b.total
      .done (s.writeBuf b 0 text) 0 (bytesOf 4 text.length ++ zeros 4 ++ bytesOf 8 (off + text.length))

/-- The domains of spare cores, and of decode slices. -/
def State.spareDomains (s : State) : List (Fin 148) :=
  coreNums.flatMap fun p => if (s.core p).kind = .spare then (List.range 4).map fun i => dom (4 * p.val + i) else []

/-- R439. The policy record; firmware then asks for the spares' and the slices' domains that it keeps on (R435). -/
def execPowerPolicy (mbx : Fin 9) (s : State) : Host.Outcome State Fault Refusal :=
  s.runUmp mbx (· == 0x52) fun s p =>
    let l := natAt p 0 2
    let t := natAt p 2 1
    let f := natAt p 3 1
    if (l ≠ 0 && (l < 600 || 1400 < l)) || (t ≠ 0 && (t < 85 || 100 < t)) then .done s 2 []
    else
      let w := s.pow
      let s := { s with pow := { w with limitW := if l = 0 then w.limitW else l, tthrot := if t = 0 then w.tthrot else t,
                                        spareWarm := bitAt f 0, sliceIdleOff := bitAt f 1 } }
      let on := (if bitAt f 0 then s.spareDomains else []) ++ if bitAt f 1 then [] else (List.range 32).map fun n => dom (80 + n)
      .done (on.foldl (fun (s : State) d => s.domainRequest d true) s).idleSlices 0 []

/-- 16 bytes of status for a link; the PCIe link has no status register in the manual, so its bytes are undefined. -/
def State.linkRecord (s : State) (n : Nat) : State × List Byte :=
  if n < 8 then (s, padTo 16 (bytesOf 4 (s.port n).status ++ bytesOf 4 (s.port n).hb))
  else if n = 8 then
    let (e, s) := s.fresh
    (s, undefCells 8 e 16)
  else (s, padTo 16 (bytesOf 4 (s.mem.screeStatus s.holdsSlots (n - 9))))

/-- R405. The status registers of one link, or of all. -/
def execLinkStatus (mbx : Fin 9) (s : State) : Host.Outcome State Fault Refusal :=
  s.runUmp mbx (· == 0x53) fun s p =>
    let link := natAt p 0 1
    if link ≤ 12 then
      let (s, r) := s.linkRecord link
      .done s 0 r
    else if link = 0xFF then
      let (s, r) := (List.range 13).foldl (fun (a : State × List Byte) n =>
        let (t, r) := a.1.linkRecord n
        (t, a.2 ++ r)) (s, [])
      .done s 0 r
    else .done s 2 []

/-- R405. Take a core out of service. -/
def execCoreRetire (mbx : Fin 9) (s : State) : Host.Outcome State Fault Refusal :=
  s.runUmp mbx (· == 0x54) fun s p =>
    let n := natAt p 0 1
    let core := Fin.ofNat 20 n
    if 20 ≤ n || (s.core core).kind = .disabled || (s.core core).kind = .out then .done s 2 []
    else .done (s.retireCore core 4) 0 []

/-- R405. Hold a core for the debug window, or let it go. -/
def execDebugAttach (mbx : Fin 9) (s : State) : Host.Outcome State Fault Refusal :=
  s.runUmp mbx (· == 0x60) fun s p =>
    let n := natAt p 5 1
    let core := Fin.ofNat 20 n
    let held := s.debugCore
    if !s.job.debug then .done s 5 []
    else if 20 ≤ n || (s.core core).v.isNone then .done s 2 []
    else if natAt p 4 1 = 0 then
      if held ≠ some core then .done s 2 [] else .done (s.modCore core fun c => { c with debugHeld := false }) 0 []
    else if held.isSome && held ≠ some core then .done s 8 []
    else .done (s.modCore core fun c => { c.stop with debugHeld := true }) 0 []

/-- R403, R405. Any other opcode. -/
def execUnknownOpcode (mbx : Fin 9) (s : State) : Host.Outcome State Fault Refusal :=
  s.runUmp mbx (fun op => !knownOps.contains op) fun s _ => .done s 3 []

end Sys2Proof.Machine
end

