-- ==== Sys2Proof/Machine/Dispatch.lean ====
section
/-! DEFINITION. The dispatcher: one arm per command, each one call of that command's meaning. -/

namespace Sys2Proof.Machine

/-- The effect of a command on everything but the queue. -/
def exec (i : Instr) (s : State) : Host.Outcome State Fault Refusal :=
  match i with
  | .halt core strand ops => Sys2Proof.Machine.execHalt core strand ops s
  | .br core strand ops => Sys2Proof.Machine.execBr core strand ops s
  | .loop core strand ops => Sys2Proof.Machine.execLoop core strand ops s
  | .xset core strand ops => Sys2Proof.Machine.execXset core strand ops s
  | .xadd core strand ops => Sys2Proof.Machine.execXadd core strand ops s
  | .step core strand ops => Sys2Proof.Machine.execStep core strand ops s
  | .migrate core strand ops => Sys2Proof.Machine.execMigrate core strand ops s
  | .claim core strand ops => Sys2Proof.Machine.execClaim core strand ops s
  | .release core strand ops => Sys2Proof.Machine.execRelease core strand ops s
  | .tsig core strand ops => Sys2Proof.Machine.execTsig core strand ops s
  | .twait core strand ops => Sys2Proof.Machine.execTwait core strand ops s
  | .mpass core strand ops => Sys2Proof.Machine.execMpass core strand ops s
  | .mpassP core strand ops => Sys2Proof.Machine.execMpassP core strand ops s
  | .broadcastMload core strand ops => Sys2Proof.Machine.execBroadcastMload core strand ops s
  | .wavefrontMload core strand ops => Sys2Proof.Machine.execWavefrontMload core strand ops s
  | .mswap core strand ops => Sys2Proof.Machine.execMswap core strand ops s
  | .mdrain core strand ops => Sys2Proof.Machine.execMdrain core strand ops s
  | .vop core strand ops => Sys2Proof.Machine.execVop core strand ops s
  | .vcvt core strand ops => Sys2Proof.Machine.execVcvt core strand ops s
  | .vscan core strand ops => Sys2Proof.Machine.execVscan core strand ops s
  | .vtrn core strand ops => Sys2Proof.Machine.execVtrn core strand ops s
  | .vgath core strand ops => Sys2Proof.Machine.execVgath core strand ops s
  | .vscat core strand ops => Sys2Proof.Machine.execVscat core strand ops s
  | .rngmask core strand ops => Sys2Proof.Machine.execRngmask core strand ops s
  | .red core strand ops => Sys2Proof.Machine.execRed core strand ops s
  | .scmd core strand ops => Sys2Proof.Machine.execScmd core strand ops s
  | .chkset core strand ops => Sys2Proof.Machine.execChkset core strand ops s
  | .wtapStart core strand ops => Sys2Proof.Machine.execWtapStart core strand ops s
  | .wtapFeed core strand ops => Sys2Proof.Machine.execWtapFeed core strand ops s
  | .wtapFinish core strand ops => Sys2Proof.Machine.execWtapFinish core strand ops s
  | .scataddU core strand ops => Sys2Proof.Machine.execScataddU core strand ops s
  | .csumU core strand ops => Sys2Proof.Machine.execCsumU core strand ops s
  | .cntrdU core strand ops => Sys2Proof.Machine.execCntrdU core strand ops s
  | .reservedOpcode core strand word => Sys2Proof.Machine.execReservedOpcode core strand word s
  | .twaitComplete core strand => Sys2Proof.Machine.execTwaitComplete core strand s
  | .claimGrant core strand => Sys2Proof.Machine.execClaimGrant core strand s
  | .migratePointReached core => Sys2Proof.Machine.execMigratePointReached core s
  | .migRelease core => Sys2Proof.Machine.execMigRelease core s
  | .deadlock core strand waitedMs => Sys2Proof.Machine.execDeadlock core strand waitedMs s
  | .queuedPassStart core kind => Sys2Proof.Machine.execQueuedPassStart core kind s
  | .queuedVectorStart core red => Sys2Proof.Machine.execQueuedVectorStart core red s
  | .shadowSetComplete core => Sys2Proof.Machine.execShadowSetComplete core s
  | .mswapFlip core => Sys2Proof.Machine.execMswapFlip core s
  | .forcedScrubWrite core column ecc => Sys2Proof.Machine.execForcedScrubWrite core column ecc s
  | .lineFetch core strand ecc => Sys2Proof.Machine.execLineFetch core strand ecc s
  | .checkerVerdict core => Sys2Proof.Machine.execCheckerVerdict core s
  | .recheckRun core left => Sys2Proof.Machine.execRecheckRun core left s
  | .thirdRun core left => Sys2Proof.Machine.execThirdRun core left s
  | .chkResume core => Sys2Proof.Machine.execChkResume core s
  | .faultResubmission core => Sys2Proof.Machine.execFaultResubmission core s
  | .quarantine core => Sys2Proof.Machine.execQuarantine core s
  | .oversubscriptionSwap core => Sys2Proof.Machine.execOversubscriptionSwap core s
  | .moveToSpare src dst => Sys2Proof.Machine.execMoveToSpare src dst s
  | .strmResubmit core value => Sys2Proof.Machine.execStrmResubmit core value s
  | .coreAflagsSet core value => Sys2Proof.Machine.execCoreAflagsSet core value s
  | .coreFaultClear core => Sys2Proof.Machine.execCoreFaultClear core s
  | .registerWrite space offset value => Sys2Proof.Machine.execRegisterWrite space offset value s
  | .stageRequestIssue core task stage => Sys2Proof.Machine.execStageRequestIssue core task stage s
  | .descriptorRunFetch core task stage => Sys2Proof.Machine.execDescriptorRunFetch core task stage s
  | .memoryRequestComplete core task stage outcome => Sys2Proof.Machine.execMemoryRequestComplete core task stage outcome s
  | .taskEnd core task => Sys2Proof.Machine.execTaskEnd core task s
  | .witnessRecord unit => Sys2Proof.Machine.execWitnessRecord unit s
  | .xlatFaultTimeout entry => Sys2Proof.Machine.execXlatFaultTimeout entry s
  | .xlatRespRetry entry => Sys2Proof.Machine.execXlatRespRetry entry s
  | .xlatRespUnresolvable entry => Sys2Proof.Machine.execXlatRespUnresolvable entry s
  | .tlbInvalidateAll => Sys2Proof.Machine.execTlbInvalidateAll s
  | .tlbInvalidatePage page => Sys2Proof.Machine.execTlbInvalidatePage page s
  | .gddr7Refresh channel => Sys2Proof.Machine.execGddr7Refresh channel s
  | .patrolScrub channel line sectors ecc => Sys2Proof.Machine.execPatrolScrub channel line sectors ecc s
  | .tileMemoryScrub core word ecc => Sys2Proof.Machine.execTileMemoryScrub core word ecc s
  | .releaseWordPoll => Sys2Proof.Machine.execReleaseWordPoll s
  | .indexEntryRead slot outcome => Sys2Proof.Machine.execIndexEntryRead slot outcome s
  | .sampleCacheLookup look => Sys2Proof.Machine.execSampleCacheLookup look s
  | .sampleFetch slot outcome => Sys2Proof.Machine.execSampleFetch slot outcome s
  | .sampleDecode slot slice => Sys2Proof.Machine.execSampleDecode slot slice s
  | .slotComplete slot => Sys2Proof.Machine.execSlotComplete slot s
  | .flitReceive port seq check symbols => Sys2Proof.Machine.execFlitReceive port seq check symbols s
  | .replayRequest port seq => Sys2Proof.Machine.execReplayRequest port seq s
  | .flitAcceptTimeout port => Sys2Proof.Machine.execFlitAcceptTimeout port s
  | .portTrained port result => Sys2Proof.Machine.execPortTrained port result s
  | .portRetrain port => Sys2Proof.Machine.execPortRetrain port s
  | .portEnable port => Sys2Proof.Machine.execPortEnable port s
  | .portDisable port => Sys2Proof.Machine.execPortDisable port s
  | .packetReceive port packet => Sys2Proof.Machine.execPacketReceive port packet s
  | .blockReceive origin job opId index target block flags => Sys2Proof.Machine.execBlockReceive origin job opId index target block flags s
  | .openReceive origin job opId target params => Sys2Proof.Machine.execOpenReceive origin job opId target params s
  | .acknowledgeReceive opId index outcome => Sys2Proof.Machine.execAcknowledgeReceive opId index outcome s
  | .resendTimeout opId index => Sys2Proof.Machine.execResendTimeout opId index s
  | .collectiveComplete group step cid => Sys2Proof.Machine.execCollectiveComplete group step cid s
  | .heartbeatSend => Sys2Proof.Machine.execHeartbeatSend s
  | .heartbeatReceive port neighbour state count => Sys2Proof.Machine.execHeartbeatReceive port neighbour state count s
  | .heartbeatLoss port => Sys2Proof.Machine.execHeartbeatLoss port s
  | .linkStateNotice port ctl payload => Sys2Proof.Machine.execLinkStateNotice port ctl payload s
  | .jobControlMessage port ctl payload => Sys2Proof.Machine.execJobControlMessage port ctl payload s
  | .earlyCheckpointRequest port ctl payload => Sys2Proof.Machine.execEarlyCheckpointRequest port ctl payload s
  | .drainAndReplacementRequest port ctl payload => Sys2Proof.Machine.execDrainAndReplacementRequest port ctl payload s
  | .fieldTestChunk port ctl payload => Sys2Proof.Machine.execFieldTestChunk port ctl payload s
  | .packageAssemblyTimeout package version => Sys2Proof.Machine.execPackageAssemblyTimeout package version s
  | .imageRelay port ctl payload => Sys2Proof.Machine.execImageRelay port ctl payload s
  | .twinRecordReceive record resubmitted => Sys2Proof.Machine.execTwinRecordReceive record resubmitted s
  | .twinHaltSignal => Sys2Proof.Machine.execTwinHaltSignal s
  | .cairnTick => Sys2Proof.Machine.execCairnTick s
  | .healthRecordSave => Sys2Proof.Machine.execHealthRecordSave s
  | .fieldTestEnd core => Sys2Proof.Machine.execFieldTestEnd core s
  | .fieldTestTimeout core elapsedMs => Sys2Proof.Machine.execFieldTestTimeout core elapsedMs s
  | .forcedFieldTest core => Sys2Proof.Machine.execForcedFieldTest core s
  | .stepHoldReached core => Sys2Proof.Machine.execStepHoldReached core s
  | .boundaryHold core => Sys2Proof.Machine.execBoundaryHold core s
  | .snapshotArm => Sys2Proof.Machine.execSnapshotArm s
  | .granuleCopy granule outcome => Sys2Proof.Machine.execGranuleCopy granule outcome s
  | .checkpointBlockReceive slotB offset block => Sys2Proof.Machine.execCheckpointBlockReceive slotB offset block s
  | .manifestWrite acknowledged => Sys2Proof.Machine.execManifestWrite acknowledged s
  | .drainComplete => Sys2Proof.Machine.execDrainComplete s
  | .restoreEnded source => Sys2Proof.Machine.execRestoreEnded source s
  | .mbxDoorbell mbx => Sys2Proof.Machine.execMbxDoorbell mbx s
  | .sidebandFrame frame => Sys2Proof.Machine.execSidebandFrame frame s
  | .identify mbx => Sys2Proof.Machine.execIdentify mbx s
  | .hello mbx => Sys2Proof.Machine.execHello mbx s
  | .caps mbx => Sys2Proof.Machine.execCaps mbx s
  | .fwStage mbx => Sys2Proof.Machine.execFwStage mbx s
  | .fwActivate mbx => Sys2Proof.Machine.execFwActivate mbx s
  | .attest mbx => Sys2Proof.Machine.execAttest mbx s
  | .jobCreate mbx => Sys2Proof.Machine.execJobCreate mbx s
  | .jobLoad mbx => Sys2Proof.Machine.execJobLoad mbx s
  | .regionBind mbx => Sys2Proof.Machine.execRegionBind mbx s
  | .jobStart mbx => Sys2Proof.Machine.execJobStart mbx s
  | .jobPause mbx => Sys2Proof.Machine.execJobPause mbx s
  | .jobResume mbx => Sys2Proof.Machine.execJobResume mbx s
  | .jobAbort mbx => Sys2Proof.Machine.execJobAbort mbx s
  | .ckptRequest mbx => Sys2Proof.Machine.execCkptRequest mbx s
  | .ckptStatus mbx => Sys2Proof.Machine.execCkptStatus mbx s
  | .restore mbx => Sys2Proof.Machine.execRestore mbx s
  | .testPush mbx => Sys2Proof.Machine.execTestPush mbx s
  | .testStatus mbx => Sys2Proof.Machine.execTestStatus mbx s
  | .telemetry mbx => Sys2Proof.Machine.execTelemetry mbx s
  | .logRead mbx => Sys2Proof.Machine.execLogRead mbx s
  | .powerPolicy mbx => Sys2Proof.Machine.execPowerPolicy mbx s
  | .linkStatus mbx => Sys2Proof.Machine.execLinkStatus mbx s
  | .coreRetire mbx => Sys2Proof.Machine.execCoreRetire mbx s
  | .debugAttach mbx => Sys2Proof.Machine.execDebugAttach mbx s
  | .unknownOpcode mbx => Sys2Proof.Machine.execUnknownOpcode mbx s
  | .evrTailWrite value => Sys2Proof.Machine.execEvrTailWrite value s
  | .evrCtrlEnable value => Sys2Proof.Machine.execEvrCtrlEnable value s
  | .eventInterruptCoalesce => Sys2Proof.Machine.execEventInterruptCoalesce s
  | .shedLevelWindow busyPercent quiet100ms => Sys2Proof.Machine.execShedLevelWindow busyPercent quiet100ms s
  | .telemetryMirrorSample => Sys2Proof.Machine.execTelemetryMirrorSample s
  | .bar0Access write offset size value => Sys2Proof.Machine.execBar0Access write offset size value s
  | .bar2Read offset len => Sys2Proof.Machine.execBar2Read offset len s
  | .bar2Write offset data => Sys2Proof.Machine.execBar2Write offset data s
  | .debugWindowAccess write offset size value => Sys2Proof.Machine.execDebugWindowAccess write offset size value s
  | .coldReset => Sys2Proof.Machine.execColdReset s
  | .perst => Sys2Proof.Machine.execPerst s
  | .warmReset => Sys2Proof.Machine.execWarmReset s
  | .functionLevelReset => Sys2Proof.Machine.execFunctionLevelReset s
  | .instar0 => Sys2Proof.Machine.execInstar0 s
  | .instar1 => Sys2Proof.Machine.execInstar1 s
  | .instar2 trained full => Sys2Proof.Machine.execInstar2 trained full s
  | .instar3 links => Sys2Proof.Machine.execInstar3 links s
  | .instar4 result => Sys2Proof.Machine.execInstar4 result s
  | .bringUpWatchdog => Sys2Proof.Machine.execBringUpWatchdog s
  | .throttleTick estimateW temps => Sys2Proof.Machine.execThrottleTick estimateW temps s
  | .thermalTrip sensor temp => Sys2Proof.Machine.execThermalTrip sensor temp s
  | .domainPowerOnRequest domain => Sys2Proof.Machine.execDomainPowerOnRequest domain s
  | .domainPowerOffRequest domain => Sys2Proof.Machine.execDomainPowerOffRequest domain s
  | .domainSequenceEnd domain => Sys2Proof.Machine.execDomainSequenceEnd domain s
  | .domainFault domain => Sys2Proof.Machine.execDomainFault domain s
  | .laserPresent input => Sys2Proof.Machine.execLaserPresent input s
  | .laserAbsent input => Sys2Proof.Machine.execLaserAbsent input s
  | .railOutOfWindow => Sys2Proof.Machine.execRailOutOfWindow s
  | .regulatorFrame => Sys2Proof.Machine.execRegulatorFrame s
  | .regulatorReply valid seq mv => Sys2Proof.Machine.execRegulatorReply valid seq mv s
  | .hostOrCxlLinkError link => Sys2Proof.Machine.execHostOrCxlLinkError link s
  | .hostOrCxlLinkUp link => Sys2Proof.Machine.execHostOrCxlLinkUp link s
  | .busMasterEnable => Sys2Proof.Machine.execBusMasterEnable s
  | .pciePowerStateChange d3hot => Sys2Proof.Machine.execPciePowerStateChange d3hot s
  | .twinJobEnd => Sys2Proof.Machine.execTwinJobEnd s

end Sys2Proof.Machine
end

