-- ==== Sys2Proof/Machine/Tick.lean ====
section
/-! DEFINITION. One arithmetic clock period of every core: what passes while no command does (R12, R222 to R224, R273). -/

namespace Sys2Proof.Machine

/-- Errors that appear in a core's storage in a clock period (R122, R286, Table 6.7). -/
def Core.upset (c : Core) (p : Nat) : Core :=
  let add (l news : List Nat) (top : Nat) (but : List Nat) : List Nat :=
    news.foldl (fun l w => if decide (top ≤ w) || l.contains w || but.contains w then l else l ++ [w]) l
  c.modV fun v =>
    let accBad := add v.accBad (Config.upsetAcc true p c.clk) 262144 []
    let tileBad := add v.tileBad (Config.upsetTile true p c.clk) 2621440 []
    { v with accBad, tileBad, accSoft := (add v.accSoft (Config.upsetAcc false p c.clk) 262144 []).filter (fun w => !accBad.contains w),
             tileSoft := (add v.tileSoft (Config.upsetTile false p c.clk) 2621440 []).filter (fun w => !tileBad.contains w),
             vtBad := add v.vtBad (Config.upsetSlot p c.clk) 32768 [] }

/-- One arithmetic clock period of core `p`: a frozen one, under the lowest code that asks for it (R32, R108, R111), or the next counted
cycle. -/
def State.period (s : State) (p : Fin 20) : State :=
  let c := s.core p
  let n := c.cycle + 1
  if c.v.isNone then s.modCore p fun c => { c with clk := c.clk + 1 }
  else if s.bankDemand p n ≠ 0 then s.freezeFor p n 1 1
  else if c.dryBefore n then s.freezeFor p n 2 1
  else if c.portsFull then s.freezeFor p n 7 1
  else s.passTo p n (s.cycleCodes p)

/-- The idle scrub writes of core `p` at ports that have had capacity to spare since clock period `clk` (R109): each reads one word of its
column, corrects and counts it, or raises the accumulator-error fault (R122). Which words is open (`Config.idleScrub`, log 70). -/
def State.idleScrub (s : State) (p : Fin 20) (clk : Nat) : State :=
  (List.range 32).foldl (fun (s : State) col =>
    match (s.core p).v, Config.idleScrub p.val col clk with
    | some v, some w =>
      if ((s.core p).ports[col]!).idleAt < clk || accColumn (v.slotTags[w / 512]! == .pair) w ≠ col then s
      else if v.accSoft.contains w then
        ((s.modV p fun v => { v with accSoft := v.accSoft.filter (· != w) }).modCore p fun c => { c with accfix := c.accfix + 1 }).charge
          (24 + p.val) 1 0 0
      else if v.accBad.contains w then s.modCore p fun c => c.raise 9 0 0 0 (8 * w)
      else s
    | _, _ => s) s

/-- One clock period of core p. -/
def State.tickCore (s : State) (p : Fin 20) : State :=
  if s.clocked p then
    let s := s.advanceWaiting p (s.core p).cycle
    let clk := (s.core p).clk
    let s := ((s.period p).modCore p fun c => c.upset p.val).idleScrub p clk
    if s.job.raceAudit then s.writeTrace p else s
  else s

/-- The credits of a port that is up (R314): the network cycles in which data waits for one count, and when credits are back what waited
leaves. When there are none is open (`Config.creditWait`, log 65). -/
def State.creditTick (s : State) (n : Nat) : State :=
  let q := s.port n
  let w := Config.creditWait n s.ticks
  if q.state ≠ .up then s
  else
    let waits := q.sendq.any fun x => onData x.packet
    (s.modPort n fun q => { q with starved := decide (0 < w), credit := q.credit + if waits then w else 0 }).flushPort n

/-- One clock period passes: in every core, in the staging scrubber, at the ports, for the blocks that wait in receive buffers
(R326), for the writes that a boundary missed in the meantime held (R366, R370), and for the telemetry mirror (R415). -/
def State.tick (s : State) : State :=
  let s := coreNums.foldl (fun (s : State) p => s.tickCore p) s
  let s := ((List.range 8).foldl (fun (s : State) n => s.creditTick n) ((s.memoryUpsets s.ticks).turnarounds s.ticks)).retryRx.releaseGuard
  let s := if s.pow.boot = .imago ∧ s.host.mirrorAt ≤ s.ticks then s.sampleMirror else s
  { s with ticks := s.ticks + 1 }

/-- The cycle and the command of each of core p's own events that waits to come (R102 to R105, R159, R170, R173, R341). -/
def State.ownEvents (s : State) (p : Fin 20) : List (Nat × Instr) :=
  let c := s.core p
  let one (o : Option Nat) (i : Instr) : List (Nat × Instr) := (o.map fun t => (t, i)).toList
  let waits := match c.v with
    | some v => if s.running p then v.liveStrands.flatMap fun k =>
        let open_ (o : Option Nat) : Option Nat := o.filter fun t => !(c.stopped && decide (c.stopAt ≤ t))
        one (open_ (c.tokenDue v k)) (.twaitComplete p k) ++ one (open_ (c.claimDue v k)) (.claimGrant p k)
      else []
    | none => []
  one (c.startDue .pass) (.queuedPassStart p .pass) ++ one (c.startDue .drain) (.queuedPassStart p .drain)
    ++ one (c.startDue .load) (.queuedPassStart p .load) ++ one (c.startDue .ve) (.queuedVectorStart p false)
    ++ one (c.startDue .ru) (.queuedVectorStart p true) ++ one c.fillDue (.shadowSetComplete p) ++ one c.flipDue (.mswapFlip p)
    ++ waits ++ c.verdicts.map fun d => (d.cycle, .checkerVerdict p)

/-- The first of core p's own events that falls in the present counted cycle or before. -/
def State.coreEvent (s : State) (p : Fin 20) : Option Instr :=
  let c := s.core p
  if !s.clocked p || c.dryBefore (c.cycle + 1) then none
  else (((s.ownEvents p).filter fun e => decide (e.1 ≤ c.cycle)).foldl (fun (best : Option (Nat × Instr)) e => match best with
    | none => some e
    | some b => if e.1 < b.1 then some e else some b) none).map (·.2)

/-- The first own event due in any core. -/
def State.ownEvent (s : State) : Option Instr := coreNums.findSome? s.coreEvent

end Sys2Proof.Machine
end

