-- ==== Sys2Proof/Safety.lean ====
section
/-! DEFINITION. What the statements call a sound state, and the conditions under which an instruction of a strand issues and is
one that Table 6.1 to Table 6.7 allow. -/

namespace Sys2Proof.Machine

/-! ### Invariants -/

/-- The memories below tile memory are in canonical form, and the translation unit's queue and cache are within their sizes
(R302, R303). -/
structure MemSys.Sound (m : MemSys) : Prop where
  gddr : m.gddr.wf
  staging : m.staging.wf
  scree : m.scree.wf
  host : m.host.wf
  tlb : m.tlb.length ≤ 8192
  faults : m.faults.length ≤ 256

/-- The queues of the die's blocks are within the sizes that the manual gives them: four pending boundaries (R366), 256 remembered floods
(R336), 32,768 records that wait for the twin's (R278), 4,096 events (R413), and four packages being assembled (R364). -/
structure Bounded (pendingB : List Nat) (seen : List (Nat × Nat)) (own : List TwinRec) (events : List (List Byte × Bool × Option Nat))
    (assemblies : List Assembly) : Prop where
  boundaries : pendingB.length ≤ 4
  seen : seen.length ≤ 256
  twin : own.length ≤ 32768
  events : (events.filter fun e => e.2.2.isNone).length ≤ 4096
  assemblies : assemblies.length ≤ 4

/-- A virtual core's own memories are in canonical form: tile memory, accumulators, tile registers and mask registers (R121, R128, R129,
R286). -/
structure Canonical (tile : Mem 8) (acc vt : Mem 32) (vm : Mem 1) : Prop where
  tile : tile.wf
  acc : acc.wf
  vt : vt.wf
  vm : vm.wf

abbrev VCore.Sound (v : VCore) : Prop := Canonical v.tile v.acc v.vt v.vm

/-- The virtual cores that a core holds, resident, partner and displaced, are sound; its instruction buffer holds at most 64 lines (R167), and
its tracker at most `top` tasks. -/
structure Holds (v partner saved : Option VCore) (lines : List Nat) (tasks : List Machine.Task) (top : Nat) : Prop where
  resident : ∀ x, v = some x → x.Sound
  partner : ∀ x, partner = some x → x.Sound
  saved : ∀ x, saved = some x → x.Sound
  lines : lines.length ≤ 64
  tasks : tasks.length ≤ top

abbrev Core.Fits (top : Nat) (c : Core) : Prop := Holds c.v c.partner c.saved c.ibuf c.tasks top

/-- A sound core: its tracker holds at most 64 tasks (R213). -/
abbrev Core.Sound (c : Core) : Prop := c.Fits 64

/-- What every step keeps: sound memories and cores, and bounded queues. -/
structure State.Inv (s : State) : Prop where
  mem : s.mem.Sound
  cores : ∀ p : Fin 20, (s.cores[p]).Sound
  queues : Bounded s.ckpt.pendingB s.fab.seen s.rep.own s.host.evQueue s.chk.assemblies

/-! ### Issue -/

/-- The core, the strand and the word of an instruction row; the words that another row spells are no reserved words. -/
def issued : Instr → Option (Fin 20 × Fin 128 × IWord)
  | .halt p k ops => some (p, k, wordOf ops 0x001)
  | .br p k ops => some (p, k, wordOf ops 0x002)
  | .loop p k ops => some (p, k, wordOf ops 0x003)
  | .xset p k ops => some (p, k, wordOf ops 0x004)
  | .xadd p k ops => some (p, k, wordOf ops 0x005)
  | .step p k ops => some (p, k, wordOf ops 0x006)
  | .migrate p k ops => some (p, k, wordOf ops 0x007)
  | .claim p k ops => some (p, k, wordOf ops 0x010)
  | .release p k ops => some (p, k, wordOf ops 0x011)
  | .tsig p k ops => some (p, k, wordOf ops 0x012)
  | .twait p k ops => some (p, k, wordOf ops 0x013)
  | .mpass p k ops => some (p, k, wordOf ops 0x020)
  | .mpassP p k ops => some (p, k, wordOf ops 0x021)
  | .broadcastMload p k ops => some (p, k, withBits (wordOf ops 0x022) 30 1 0)
  | .wavefrontMload p k ops => some (p, k, withBits (wordOf ops 0x022) 30 1 1)
  | .mswap p k ops => some (p, k, wordOf ops 0x023)
  | .mdrain p k ops => some (p, k, wordOf ops 0x024)
  | .vop p k ops => some (p, k, wordOf ops 0x030)
  | .vcvt p k ops => some (p, k, wordOf ops 0x031)
  | .vscan p k ops => some (p, k, wordOf ops 0x032)
  | .vtrn p k ops => some (p, k, wordOf ops 0x033)
  | .vgath p k ops => some (p, k, wordOf ops 0x034)
  | .vscat p k ops => some (p, k, wordOf ops 0x035)
  | .rngmask p k ops => some (p, k, wordOf ops 0x036)
  | .red p k ops => some (p, k, wordOf ops 0x040)
  | .scmd p k ops => some (p, k, wordOf ops 0x050)
  | .chkset p k ops => some (p, k, wordOf ops 0x060)
  | .scataddU p k ops => some (p, k, wordOf ops 0x200)
  | .csumU p k ops => some (p, k, wordOf ops 0x201)
  | .cntrdU p k ops => some (p, k, wordOf ops 0x202)
  | _ => none


/-- Strand `k` of core `p`, whose resident virtual core is `v`, issues the word `w` in counted cycle `t` (R164, R165, R167,
R173, R192): the strand is live and waits for nothing, its line is in the instruction buffer, no fault stops issue up to `t`, the
lane of the instruction has room, and nothing of the core itself is due before `t`. -/
structure State.Issues (s : State) (p : Fin 20) (k : Fin 128) (w : IWord) (v : VCore) (t : Nat) : Prop where
  resident : (s.core p).v = some v
  ready : s.ready p k = true
  cycle : t = issueCycle (s.core p) v.strands[k] (fld w 11 8)
  going : (s.core p).stopped = false ∨ t < (s.core p).stopAt
  goesOn : ((s.advance p t).core p).stopped = false ∨ t < ((s.advance p t).core p).stopAt
  room : ∀ l, laneOf w = some l → ((s.core p).lane l).queued = none ∨ ((s.core p).lane l).yields t = true
  due : (s.core p).overdue t = false
  once : v.strands[k].faulted ≠ some t

/-- The word is inside the code section, breaks no rule of its encoding, and the strand holds the engine it uses (R169, R180,
R184). -/
structure State.Legal (s : State) (p : Fin 20) (k : Fin 128) (w : IWord) (v : VCore) (t : Nat) (classV : Bool) (engine : Engine)
    (checks : Core → VCore → Strand → List EncCheck) : Prop where
  inCode : v.strands[k].pc.toNat < (s.vcoreAt p v t).codeLen
  encoding : firstBad (commonChecks w classV ++ checks ((s.advance p t).core p) (s.vcoreAt p v t) v.strands[k]) = none
  held : engine.mask &&& v.strands[k].claims.toNat = engine.mask

/-- The word issues in cycle `t` and takes its own effect. -/
def State.Runs (s : State) (p : Fin 20) (k : Fin 128) (w : IWord) (v : VCore) (t : Nat) (classV : Bool) (engine : Engine)
    (checks : Core → VCore → Strand → List EncCheck) : Prop :=
  s.Issues p k w v t ∧ s.Legal p k w v t classV engine checks

/-- No latency audit stops these reads (R195). -/
def State.Clear (s : State) (p : Fin 20) (reads : List Access) : Prop := s.job.latAudit = true → (s.core p).earlyRead reads = none

/-- No latency audit stops an instruction for lane `l` with reads `reads` of its issue cycle. -/
def State.ClearTo (s : State) (p : Fin 20) (l : LaneId) (q : QInstr) (t : Nat) (reads : List Access) : Prop :=
  s.Clear p (reads ++ (s.laneAccesses p l q t).1)

/-- The state in which an instruction for lane `l` has issued, as far as the audits note it (R196). -/
def State.noted (s : State) (p : Fin 20) (l : LaneId) (q : QInstr) (t : Nat) (reads : List Access) : State :=
  s.noteAccesses p (reads ++ (s.laneAccesses p l q t).1 ++ (s.laneAccesses p l q t).2)

/-- `t` differs from `s` nowhere outside core `p` but in the model's free-value counter, the job's class V mark and the errors that
SEC-DED corrected on the way, which the core's bucket counts (R122, R286). -/
structure State.OnlyCore (p : Fin 20) (s t : State) : Prop where
  others : ∀ q, q ≠ p → t.core q = s.core q
  mem : t.mem = s.mem
  ing : t.ing = s.ing
  /-- Only the witness digest units that its feeds reach (R273). -/
  rep : ∃ units, t.rep = { s.rep with units }
  fab : t.fab = s.fab
  corrected : ∃ n, t.chk = (s.charge (24 + p.val) n 0 0).chk
  ckpt : t.ckpt = s.ckpt
  host : t.host = s.host
  pow : t.pow = s.pow
  out : t.out = s.out
  ticks : t.ticks = s.ticks
  job : t.job = s.job ∨ t.job = { s.job with vTainted := true }

/-- The instructions that act on nothing outside their core. -/
def inCore (i : Instr) : Bool := match i with
  | .halt .. | .step .. | .scmd .. | .csumU .. | .wtapStart .. | .wtapFeed .. | .wtapFinish .. => false
  | i => (issued i).isSome

/-! ### UMP commands -/

/-- The command `h` of opcode `op` in mailbox `mbx` is the one that firmware takes next, and it passes the checks that every
command passes (R399 to R403, R425). -/
structure State.Takes (s : State) (mbx : Fin 9) (op : Nat) (h : Held) : Prop where
  serves : s.serves = true
  next : s.nextCmd = some h
  box : h.mbx = mbx.val
  opcode : h.op = op
  passes : s.precheck h = none

/-- A payload's buffer reference names a host buffer of at least one byte that the device can use now (R404). -/
structure State.HostBuffer (s : State) (ref : List Byte) (b : HostBuf) : Prop where
  dma : s.host.dma = true
  total : natAt ref 12 4 ≠ 0
  extents : s.extents (natAt ref 0 8) (natAt ref 8 4) (natAt ref 12 4) = some b

end Sys2Proof.Machine
end

