-- ==== Sys2Proof/WellFormed.lean ====
section
/-! DEFINITION. Which commands are well formed: an operand that the manual bounds lies within its bound. A command that is
not well formed names no event of the device; `exec` is total and still answers on it. -/

namespace Sys2Proof

/-- The opcodes of Table 6.3. -/
def definedOpcodes : List Nat :=
  [0x001, 0x002, 0x003, 0x004, 0x005, 0x006, 0x007, 0x010, 0x011, 0x012, 0x013, 0x020, 0x021, 0x022, 0x023, 0x024] ++
  [0x030, 0x031, 0x032, 0x033, 0x034, 0x035, 0x036, 0x040, 0x050, 0x060, 0x061, 0x200, 0x201, 0x202]

/-- A word that no instruction row spells: a reserved opcode, or a WTAP with the reserved wop (R180, Table 6.4). -/
def reservedWord (w : IWord) : Bool :=
  let op := Machine.bitsAt w.toNat 0 10
  !(definedOpcodes.contains op) || (op == 0x061 && Machine.bitsAt w.toNat 27 2 == 3)

/-- Well-formedness of a command. -/
def Instr.wf : Instr → Bool
  | .halt _ _ _ => true
  | .br _ _ _ => true
  | .loop _ _ _ => true
  | .xset _ _ _ => true
  | .xadd _ _ _ => true
  | .step _ _ _ => true
  | .migrate _ _ _ => true
  | .claim _ _ _ => true
  | .release _ _ _ => true
  | .tsig _ _ _ => true
  | .twait _ _ _ => true
  | .mpass _ _ _ => true
  | .mpassP _ _ _ => true
  | .broadcastMload _ _ _ => true
  | .wavefrontMload _ _ _ => true
  | .mswap _ _ _ => true
  | .mdrain _ _ _ => true
  | .vop _ _ _ => true
  | .vcvt _ _ _ => true
  | .vscan _ _ _ => true
  | .vtrn _ _ _ => true
  | .vgath _ _ _ => true
  | .vscat _ _ _ => true
  | .rngmask _ _ _ => true
  | .red _ _ _ => true
  | .scmd _ _ _ => true
  | .chkset _ _ _ => true
  | .wtapStart _ _ _ => true
  | .wtapFeed _ _ _ => true
  | .wtapFinish _ _ _ => true
  | .scataddU _ _ _ => true
  | .csumU _ _ _ => true
  | .cntrdU _ _ _ => true
  | .reservedOpcode _ _ word => reservedWord word
  | .twaitComplete _ _ => true
  | .claimGrant _ _ => true
  | .migratePointReached _ => true
  | .migRelease _ => true
  | .deadlock _ _ _ => true
  | .queuedPassStart _ _ => true
  | .queuedVectorStart _ _ => true
  | .shadowSetComplete _ => true
  | .mswapFlip _ => true
  | .forcedScrubWrite _ _ _ => true
  | .lineFetch _ _ _ => true
  | .checkerVerdict _ => true
  | .recheckRun _ _ => true
  | .thirdRun _ _ => true
  | .chkResume _ => true
  | .faultResubmission _ => true
  | .quarantine _ => true
  | .oversubscriptionSwap _ => true
  | .moveToSpare src dst => src != dst
  | .strmResubmit _ _ => true
  | .coreAflagsSet _ _ => true
  | .coreFaultClear _ => true
  | .registerWrite _ _ _ => true
  | .stageRequestIssue _ _ _ => true
  | .descriptorRunFetch _ _ _ => true
  | .memoryRequestComplete _ _ _ _ => true
  | .taskEnd _ _ => true
  | .witnessRecord _ => true
  | .xlatFaultTimeout _ => true
  | .xlatRespRetry _ => true
  | .xlatRespUnresolvable _ => true
  | .tlbInvalidateAll => true
  | .tlbInvalidatePage _ => true
  | .gddr7Refresh _ => true
  | .patrolScrub _ line _ _ => decide (line < 0x3E00000)
  | .tileMemoryScrub _ word _ => decide (word < 0x280000)
  | .releaseWordPoll => true
  | .indexEntryRead slot _ => decide (slot < 4096)
  | .sampleCacheLookup look => decide (look.slot < 4096)
  | .sampleFetch slot _ => decide (slot < 4096)
  | .sampleDecode slot _ => decide (slot < 4096)
  | .slotComplete slot => decide (slot < 4096)
  | .flitReceive _ _ _ _ => true
  | .replayRequest _ _ => true
  | .flitAcceptTimeout _ => true
  | .portTrained _ _ => true
  | .portRetrain _ => true
  | .portEnable _ => true
  | .portDisable _ => true
  | .packetReceive _ packet => decide (32 ≤ packet.length) && decide (packet.length ≤ 4128)
  | .blockReceive _ _ _ _ _ block _ => decide (33 ≤ block.length) && decide (block.length ≤ 1048608)
  | .openReceive _ _ _ _ params => decide (params.length = 32)
  | .acknowledgeReceive _ _ _ => true
  | .resendTimeout _ _ => true
  | .collectiveComplete _ _ _ => true
  | .heartbeatSend => true
  | .heartbeatReceive _ _ _ _ => true
  | .heartbeatLoss _ => true
  | .linkStateNotice _ _ payload => decide (payload.length = 16)
  | .jobControlMessage _ _ payload => decide (payload.length = 16)
  | .earlyCheckpointRequest _ _ payload => decide (payload.length = 32)
  | .drainAndReplacementRequest _ _ payload => decide (payload.length = 32)
  | .fieldTestChunk _ _ payload => decide (33 ≤ payload.length) && decide (payload.length ≤ 4096)
  | .packageAssemblyTimeout _ _ => true
  | .imageRelay _ _ payload => decide (33 ≤ payload.length) && decide (payload.length ≤ 4096)
  | .twinRecordReceive record _ => decide (record.length = 32)
  | .twinHaltSignal => true
  | .cairnTick => true
  | .healthRecordSave => true
  | .fieldTestEnd _ => true
  | .fieldTestTimeout _ _ => true
  | .forcedFieldTest _ => true
  | .stepHoldReached _ => true
  | .boundaryHold _ => true
  | .snapshotArm => true
  | .granuleCopy _ _ => true
  | .checkpointBlockReceive _ offset block => decide (offset + block.length ≤ 0x2000000000) && decide (block.length ≤ 0x200000)
  | .manifestWrite _ => true
  | .drainComplete => true
  | .restoreEnded _ => true
  | .mbxDoorbell _ => true
  | .sidebandFrame _ => true
  | .identify _ => true
  | .hello _ => true
  | .caps _ => true
  | .fwStage _ => true
  | .fwActivate _ => true
  | .attest _ => true
  | .jobCreate _ => true
  | .jobLoad _ => true
  | .regionBind _ => true
  | .jobStart _ => true
  | .jobPause _ => true
  | .jobResume _ => true
  | .jobAbort _ => true
  | .ckptRequest _ => true
  | .ckptStatus _ => true
  | .restore _ => true
  | .testPush _ => true
  | .testStatus _ => true
  | .telemetry _ => true
  | .logRead _ => true
  | .powerPolicy _ => true
  | .linkStatus _ => true
  | .coreRetire _ => true
  | .debugAttach _ => true
  | .unknownOpcode _ => true
  | .evrTailWrite _ => true
  | .evrCtrlEnable _ => true
  | .eventInterruptCoalesce => true
  | .shedLevelWindow busyPercent _ => decide (busyPercent ≤ 100)
  | .telemetryMirrorSample => true
  | .bar0Access _ _ _ _ => true
  | .bar2Read _ len => decide (1 ≤ len) && decide (len ≤ 4096)
  | .bar2Write _ data => decide (1 ≤ data.length) && decide (data.length ≤ 512)
  | .debugWindowAccess _ _ _ _ => true
  | .coldReset => true
  | .perst => true
  | .warmReset => true
  | .functionLevelReset => true
  | .instar0 => true
  | .instar1 => true
  | .instar2 _ _ => true
  | .instar3 _ => true
  | .instar4 _ => true
  | .bringUpWatchdog => true
  | .throttleTick _ _ => true
  | .thermalTrip _ temp => decide (108 ≤ temp)
  | .domainPowerOnRequest _ => true
  | .domainPowerOffRequest _ => true
  | .domainSequenceEnd _ => true
  | .domainFault _ => true
  | .laserPresent _ => true
  | .laserAbsent _ => true
  | .railOutOfWindow => true
  | .regulatorFrame => true
  | .regulatorReply _ _ _ => true
  | .hostOrCxlLinkError _ => true
  | .hostOrCxlLinkUp _ => true
  | .busMasterEnable => true
  | .pciePowerStateChange _ => true
  | .twinJobEnd => true

end Sys2Proof
end

