-- ==== Sys2Proof/Certificates/Slice0/Obligations.lean ====
section
/-! DEFINITION. The statements for the provers. A statement about a command says the whole next state wherever it can, so that
what it does not name is unchanged. -/

open Sys2Proof Sys2Proof.Machine

/-- Every step runs the command at the front of the queue on the state with the queue's rest. On an empty queue, by the model's
choice (log 2), an event of the block's own that is due comes as the command that names it, and where none is due one arithmetic
clock period passes: a core without a clock stays and an empty clocked core counts the period. -/
def Obligations.StepRunsFront : Prop :=
  (∀ (c : Instr) (rest : List Instr) (s : State),
     step { s with pending := c :: rest } = exec c { s with pending := rest }) ∧
  ∀ s : State, s.pending = [] → (∀ i, s.ownEvent = some i → step s = exec i s) ∧
    (s.ownEvent = none → step s = .next s.tick ∧ s.tick.ticks = s.ticks + 1 ∧ s.tick.pending = [] ∧
      (s.fab.rxBuf = [] → s.tick.job = s.job ∧ s.tick.pow = s.pow ∧
        ∀ p : Fin 20, (s.core p).tasks = [] → (s.clocked p = false → s.tick.core p = s.core p) ∧
          (s.clocked p = true → (s.core p).v = none → (s.core p).runs = [] →
            s.tick.core p = { s.core p with clk := (s.core p).clk + 1 })))

/-- The state after reset is sound; it stands at Instar 0 with no job, no command, no virtual core, the PCIe link not up and the
ports off (which of these are the model's own is in log 14). -/
def Obligations.ResetIsSound : Prop :=
  State.reset.Inv ∧ State.reset.pow.boot = .instar0 ∧ State.reset.job.state = .none ∧ State.reset.pending = [] ∧
    State.reset.host.pcieUp = false ∧ (∀ p : Fin 20, (State.reset.core p).v = none) ∧ ∀ q : Fin 8, State.reset.fab.ports[q].state = .off

/-- Every step, of a command or of the clock, keeps the memories in canonical form, those below tile memory and those of every virtual core that a
core holds, resident, partner or displaced by a field test (tile memory, accumulators, tile registers, mask registers); the translation unit's
cache and fault queue within their sizes; at most 64 lines in a core's instruction buffer (R167) and 64 tasks in its tracker (R213); and the
bounded queues of the die's blocks within theirs: four pending boundaries (R366), 256 remembered floods (R336), 32,768 records that wait for
the twin's (R278), 4,096 events (R413) and four packages being assembled (R364). A command leaves the queue of commands that wait as it is. -/
def Obligations.EveryStepKeepsTheInvariant : Prop :=
  (∀ s t : State, s.Inv → step s = .next t → t.Inv) ∧
  ∀ (i : Instr) (s t : State), s.Inv → exec i s = .next t → t.pending = s.pending

/-- The compute, memory and control instructions of a core change nothing outside their core, apart from what the instructions running
there pass on in the meantime: corrected errors are counted (R286), and feeds reach the witness digest units (R273). -/
def Obligations.InstructionsStayInTheirCore : Prop :=
  ∀ (i : Instr) (p : Fin 20) (k : Fin 128) (w : IWord) (s t : State), issued i = some (p, k, w) → inCore i = true →
    exec i s = .next t → s.OnlyCore p t

/-- R184. BR, XSET, XADD and LOOP, each in its issue cycle `t`; an instruction index outside the code section faults when it is
fetched, whatever the word there: an instruction row's, a WTAP's or a reserved one (R182). -/
def Obligations.ControlInstructions : Prop :=
  ∀ (s : State) (p : Fin 20) (k : Fin 128) (ops : BitVec 118) (v : VCore) (t : Nat),
    (let w := wordOf ops 0x002
     let z := xreg v.strands[k].x (fld w 26 3)
     s.Runs p k w v t false .none
        (fun _ _ _ => [(fld w 24 2 != 3, 24), (fld w 24 2 != 0 || fld w 26 3 == 0, 26), resvFrom w 45]) →
      exec (.br p k ops) s = .next ((s.advance p t).modStrand p k fun st =>
        if fld w 24 2 = 0 ∨ (fld w 24 2 = 1 ∧ z = 0) ∨ (fld w 24 2 = 2 ∧ z ≠ 0) then
          { st.issued t with pc := BitVec.ofNat 16 (fld w 29 16), taken := true }
        else st.issued t)) ∧
    (let w := wordOf ops 0x004
     s.Runs p k w v t false .none (fun _ _ _ => [(fld w 24 3 != 0, 24), resvFrom w 59]) →
      exec (.xset p k ops) s = .next ((s.advance p t).modStrand p k fun st =>
        { st.issued t with x := st.x.set! (fld w 24 3 - 1) (BitVec.ofNat 32 (fld w 27 32)) })) ∧
    (let w := wordOf ops 0x005
     s.Runs p k w v t false .none (fun _ _ _ => [(fld w 24 3 != 0, 24), resvFrom w 59]) →
      exec (.xadd p k ops) s = .next ((s.advance p t).modStrand p k fun st =>
        { st.issued t with x := st.x.set! (fld w 24 3 - 1) (st.x[fld w 24 3 - 1]! + BitVec.ofNat 32 (fld w 27 32)) })) ∧
    (let w := wordOf ops 0x003
     let lc := fld w 24 2
     let remaining := (match v.strands[k].lc[lc]! with
       | some r => r.toNat
       | none => fld w 26 24 + 1) - 1
     s.Runs p k w v t false .none (fun _ _ _ => [resvFrom w 66]) →
      exec (.loop p k ops) s = .next ((s.advance p t).modStrand p k fun st =>
        if 0 < remaining then
          { st.issued t with pc := BitVec.ofNat 16 (fld w 50 16), taken := true,
                             lc := st.lc.set! lc (some (BitVec.ofNat 24 remaining)) }
        else { st.issued t with lc := st.lc.set! lc none })) ∧
    ∀ (i : Instr) (w : IWord),
      (issued i = some (p, k, w) ∨ (i = .wtapStart p k ops ∧ w = withBits (wordOf ops 0x061) 27 2 1) ∨
       (i = .wtapFeed p k ops ∧ w = (if fld (wordOf ops 0x061) 27 2 = 3 then wordOf ops 0x061 else withBits (wordOf ops 0x061) 27 2 0)) ∨
       (i = .wtapFinish p k ops ∧ w = withBits (wordOf ops 0x061) 27 2 2) ∨ (i = .reservedOpcode p k w ∧ reservedWord w = true)) →
      s.Issues p k w v t → (s.vcoreAt p v t).codeLen ≤ v.strands[k].pc.toNat →
      exec i s = .next ((s.advance p t).fault p k 2 0 ((s.vcoreAt p v t).codeBase + 16 * v.strands[k].pc.toNat))

/-- HALT ends its strand, frees its claims from the next cycle and completes the virtual core when it was the last (R168). STEP
adds 1 to the step tag and changes no other core; at 0xFFFF_FFFF it raises fault 0x0E instead (R176). RELEASE frees held engines
at the end of its cycle, or raises the engine-use fault and frees none (R170, R171). TSIG issues with a signed delta that takes its place
among the changes of its cycle, by strand and before every external increment (R173); a change adds its delta to the value that all before it
left, or, with a result outside 0 to 65,535, raises fault 0x04 or 0x05 and leaves the counter (R172). -/
def Obligations.StrandInstructions : Prop :=
  (∀ (s : State) (p : Fin 20) (k : Fin 128) (ops : BitVec 118) (v : VCore) (t : Nat),
     let w := wordOf ops 0x001
     s.Runs p k w v t false .none (fun _ _ _ => [resvFrom w 24]) →
     exec (.halt p k ops) s = .next (((((s.advance p t).modCore p fun c => { c with relNow := c.relNow ||| v.strands[k].claims }).modStrand
       p k fun st => { st.issued t with live := false, claims := 0 }).checkPoints p k 0x001 v.strands[k].pc).checkComplete)) ∧
  (∀ (s : State) (p : Fin 20) (k : Fin 128) (ops : BitVec 118) (v : VCore) (t : Nat),
     let w := wordOf ops 0x006
     let x := s.vcoreAt p v t
     s.Runs p k w v t false .none (fun _ _ _ => [resvFrom w 24]) → ((s.advance p t).core p).v = some x →
     (x.stepTag = 0xFFFFFFFF → exec (.step p k ops) s = .next ((s.advance p t).fault p k 0x0E 0x006 0)) ∧
     (x.stepTag ≠ 0xFFFFFFFF → ∃ u v', exec (.step p k ops) s = .next u ∧ (u.core p).v = some v' ∧ v'.stepTag = x.stepTag + 1 ∧
       v'.tokens = x.tokens ∧ v'.tile = x.tile ∧ v'.vt = x.vt ∧ v'.vm = x.vm ∧ v'.acc = x.acc ∧ v'.flags = x.flags ∧
       (∀ j, j ≠ k → v'.strands[j] = x.strands[j]) ∧
       (v'.strands[k] = x.strands[k].issued t ∨ v'.strands[k] = { x.strands[k] with wait := .step, since := t }) ∧
       ∀ q, q ≠ p → u.core q = s.core q)) ∧
  (∀ (s : State) (p : Fin 20) (k : Fin 128) (ops : BitVec 118) (v : VCore) (t : Nat),
     let w := wordOf ops 0x011
     let e : BitVec 4 := BitVec.ofNat 4 (fld w 24 4)
     let held := v.strands[k].claims
     s.Runs p k w v t false .none (fun _ _ _ => [(fld w 24 4 != 0, 24), resvFrom w 28]) →
     (e &&& ~~~held = 0 →
       exec (.release p k ops) s = .next (((s.advance p t).modCore p fun c => { c with relNow := c.relNow ||| e }).modStrand
         p k fun st => { st.issued t with claims := st.claims &&& ~~~e })) ∧
     (e &&& ~~~held ≠ 0 → exec (.release p k ops) s = .next ((s.advance p t).fault p k 3 0x011 (e &&& ~~~held).toNat))) ∧
  (∀ (s : State) (p : Fin 20) (k : Fin 128) (ops : BitVec 118) (v : VCore) (t : Nat),
     let w := wordOf ops 0x012
     let ctr := fld w 24 8
     let delta := signedOf 13 (fld w 32 13)
     s.Runs p k w v t false .none (fun _ _ _ => [(fld w 32 13 != 0, 32), resvFrom w 45]) →
       exec (.tsig p k ops) s = .next ((((s.advance p t).noteToken p ⟨k.val, ctr, delta, false, t⟩).modCore p fun c =>
         { c with sigNow := TokenChange.place ⟨ctr, delta, some (k, v.strands[k].pc)⟩ c.sigNow }).commit p k t)) ∧
  (∀ (c : Core) (v : VCore) (ctr : Nat) (delta : Int) (k : Fin 128) (pc : BitVec 16),
     let old := (v.tokens[ctr]!).toNat
     c.v = some v →
     ((0 : Int) ≤ old + delta → old + delta ≤ 65535 → ∀ signal, c.changeToken ⟨ctr, delta, signal⟩ =
       { c with v := some { v with tokens := v.tokens.set! ctr (BitVec.ofNat 16 (old + delta).toNat) } }) ∧
     ((65535 : Int) < old + delta → ∃ d, c.changeToken ⟨ctr, delta, some (k, pc)⟩ = d ∧ d.faultStop = true ∧
       (c.faultValid = false → d.faultCode = 4 ∧ d.faultStrand = k.val ∧ d.faultOpcode = 0x012 ∧ d.faultPc = pc.toNat) ∧
       ∃ x, d.v = some x ∧ x.tokens = v.tokens) ∧
     (old + delta < (0 : Int) → ∃ d, c.changeToken ⟨ctr, delta, some (k, pc)⟩ = d ∧ d.faultStop = true ∧
       (c.faultValid = false → d.faultCode = 5 ∧ d.faultStrand = k.val ∧ d.faultOpcode = 0x012 ∧ d.faultPc = pc.toNat) ∧
       ∃ x, d.v = some x ∧ x.tokens = v.tokens)) ∧
  ∀ (x : TokenChange) (l : List TokenChange), let later (y : TokenChange) : Bool := match x.signal, y.signal with
      | some a, some b => decide (a.1 < b.1)
      | some _, none => true
      | none, _ => false
    ∃ before rest, l = before ++ rest ∧ x.place l = before ++ x :: rest ∧ (∀ y ∈ before, later y = false) ∧
      ∀ y, rest.head? = some y → later y = true

/-- MIGRATE, CLAIM and TWAIT start their waits (R169, R173, R197); CLAIM and TWAIT change nothing else. A waiting TWAIT
completes in this cycle when the counter stood at n or above at the end of the one before, and in the next when the changes of this cycle
bring it there, lower strands first, and consumes n when asked; where it stays below n the strand keeps waiting (R173). A pending CLAIM is granted when no other strand holds an engine of it, in this cycle or, where
another strand freed one in this cycle, in the next, lower strands' CLAIMs first; while another strand holds one of them it
stays pending (R169, R170). A wait longer than wdog_ms raises the deadlock fault, and the instruction stays to be issued again
(R174). -/
def Obligations.Waits : Prop :=
  (∀ (s : State) (p : Fin 20) (k : Fin 128) (ops : BitVec 118) (v : VCore) (t : Nat),
     (let w := wordOf ops 0x007
      s.Runs p k w v t false .none (fun _ _ _ => [resvFrom w 40]) →
       exec (.migrate p k ops) s = .next (((s.advance p t).modStrand p k fun st =>
         { st with wait := .migrate (BitVec.ofNat 16 (fld w 24 16)), since := t }).checkPoints p k 0x007 v.strands[k].pc)) ∧
     (let w := wordOf ops 0x010
      s.Runs p k w v t false .none (fun _ _ _ => [(fld w 24 4 != 0, 24), resvFrom w 28]) →
       exec (.claim p k ops) s = .next ((s.advance p t).modStrand p k fun st =>
         { st with wait := .claim (BitVec.ofNat 4 (fld w 24 4)), since := t })) ∧
     (let w := wordOf ops 0x013
      s.Runs p k w v t false .none (fun _ _ _ => [(fld w 32 16 != 0, 32), resvFrom w 49]) →
       exec (.twait p k ops) s = .next ((s.advance p t).modStrand p k fun st =>
         { st with wait := .token (BitVec.ofNat 8 (fld w 24 8)) (fld w 32 16) (flag w 48), since := t }))) ∧
  (∀ (s : State) (p : Fin 20) (k : Fin 128) (v : VCore) (ctr : BitVec 8) (n : Nat) (consume : Bool),
     let c := s.core p
     let now := (v.tokens[ctr.toNat]!).toNat
     let next := ((c.tokensNext v)[ctr.toNat]!).toNat
     let alone (x : Nat) : Prop := ∀ j m b, j < k → v.strands[j].live = true → v.strands[j].wait = .token ctr m b → x < m
     let goes (t : Nat) : Prop := (c.stopped = false ∨ t < c.stopAt) → c.dryBefore t = false →
       exec (.twaitComplete p k) s = .next ((((s.advanceWaiting p t).noteToken p ⟨k.val, ctr.toNat, n, true, t⟩).modV p fun u =>
         if consume then { u with tokens := u.tokens.set! ctr.toNat (u.tokens[ctr.toNat]! - BitVec.ofNat 16 n) } else u).commit p k t)
     c.v = some v → s.running p = true → v.strands[k].live = true → v.strands[k].wait = .token ctr n consume →
     (n ≤ now → alone now → goes c.cycle) ∧ (now < n → alone now → n ≤ next → alone next → goes (c.cycle + 1)) ∧
     (now < n → next < n → exec (.twaitComplete p k) s = .next s)) ∧
  (∀ (s : State) (p : Fin 20) (k : Fin 128) (v : VCore) (e : BitVec 4),
     let c := s.core p
     let t := if c.relNow &&& ~~~v.strands[k].claims &&& e = 0 then c.cycle else c.cycle + 1
     c.v = some v → s.running p = true → v.strands[k].live = true → v.strands[k].wait = .claim e →
     ((∃ j, j ≠ k ∧ v.strands[j].live = true ∧ v.strands[j].claims &&& e ≠ 0) → exec (.claimGrant p k) s = .next s) ∧
     ((∀ j, j ≠ k → v.strands[j].live = true → v.strands[j].claims &&& e = 0) →
       (∀ j d, j < k → v.strands[j].live = true → v.strands[j].wait = .claim d → d &&& e = 0) →
       (c.stopped = false ∨ t < c.stopAt) → c.dryBefore t = false →
       exec (.claimGrant p k) s = .next ((s.advanceWaiting p t).modStrand p k fun st => { st.issued t with claims := st.claims ||| e }))) ∧
  (∀ (s : State) (p : Fin 20) (k : Fin 128) (v : VCore) (ms : Nat),
     let c := s.core p
     c.v = some v → s.pow.boot = .imago → s.job.state = .running → c.test = none → c.stopped = false → v.strands[k].live = true →
     s.waitsOnFault p v v.strands[k].wait = false → (s.host.pcieUp = false ∨ s.host.busMaster = true) →
     (ms ≤ s.job.wdogMs → exec (.deadlock p k ms) s = .next s) ∧
     (s.job.wdogMs < ms →
       (∀ ctr n b, v.strands[k].wait = .token ctr n b →
         exec (.deadlock p k ms) s = .next ((s.fault p k 6 0x013 ctr.toNat).modStrand p k fun st => { st with wait := .none })) ∧
       (∀ e, v.strands[k].wait = .claim e →
         exec (.deadlock p k ms) s = .next ((s.fault p k 6 0x010 (e.toNat + 0x100)).modStrand p k fun st => { st with wait := .none })) ∧
       (∀ q, v.strands[k].wait = .migrate q →
         exec (.deadlock p k ms) s = .next ((s.fault p k 6 0x007 0x200).modStrand p k fun st => { st with wait := .none })) ∧
       (∀ op, v.strands[k].wait = .tracker op →
         exec (.deadlock p k ms) s = .next ((s.fault p k 6 op 0x200).modStrand p k fun st => { st with wait := .none }))))

/-- Words that no row spells raise the illegal-encoding fault with the lowest offending bit, and so do XSET and XADD of X0
(R180, R184). -/
def Obligations.IllegalEncodings : Prop :=
  ∀ (s : State) (p : Fin 20) (k : Fin 128) (v : VCore) (t : Nat),
    (∀ word : IWord, (∀ o ∈ definedOpcodes, fld word 0 10 ≠ o) → s.Issues p k word v t →
      v.strands[k].pc.toNat < (s.vcoreAt p v t).codeLen →
      exec (.reservedOpcode p k word) s = .next ((s.advance p t).fault p k 1 (fld word 0 10) 0)) ∧
    (∀ word : IWord, fld word 0 10 = 0x061 → fld word 27 2 = 3 → flag word 10 = false → fld word 19 5 = 0 → s.Issues p k word v t →
      v.strands[k].pc.toNat < (s.vcoreAt p v t).codeLen →
      exec (.reservedOpcode p k word) s = .next ((s.advance p t).fault p k 1 0x061 27)) ∧
    (∀ ops : BitVec 118, let w := wordOf ops 0x004
      fld w 24 3 = 0 → flag w 10 = false → fld w 19 5 = 0 → s.Issues p k w v t → v.strands[k].pc.toNat < (s.vcoreAt p v t).codeLen →
      exec (.xset p k ops) s = .next ((s.advance p t).fault p k 1 0x004 24)) ∧
    (∀ ops : BitVec 118, let w := wordOf ops 0x005
      fld w 24 3 = 0 → flag w 10 = false → fld w 19 5 = 0 → s.Issues p k w v t → v.strands[k].pc.toNat < (s.vcoreAt p v t).codeLen →
      exec (.xadd p k ops) s = .next ((s.advance p t).fault p k 1 0x005 24))

/-- A MIGRATE point is reached once every live strand waits at it and the core has drained: the strands resume in the next
counted cycle, or with mig_hold set, or a field test due on the core (R358), the core holds until mig_release (R197, R198). A
miss of the instruction buffer freezes the core for 8 clock periods under code 0x01 and brings the line in; a line without
execute permission faults (R167, R182), and one with an uncorrectable word. That the oldest line makes room in a full buffer, where R167
names no replacement rule, is the model's choice (log 18). -/
def Obligations.PointsAndLines : Prop :=
  (∀ (s : State) (p : Fin 20) (v : VCore) (q : BitVec 16),
     let c := s.core p
     (c.v = some v → s.running p = true → c.stopped = false → v.liveStrands ≠ [] →
       (∀ k ∈ v.liveStrands, v.strands[k].wait = .migrate q) → ∀ u, s.atPoint p = some u →
       let u := u.modCore p fun c => { c with migPoint := q }
       exec (.migratePointReached p) s = .next (u.modCore p fun d =>
         if c.migHold ∨ u.testWaits p then { d.stop with hold := .migrate } else d.modV fun v => v.resumeMigrate (d.cycle + 1))) ∧
     (c.hold = .migrate → exec (.migRelease p) s = .next (s.modCore p fun c =>
       ({ c with hold := .none } : Core).modV fun v => v.resumeMigrate c.resumeAt)) ∧
     (c.hold ≠ .migrate → exec (.migRelease p) s = .next s)) ∧
  (∀ (s : State) (p : Fin 20) (k : Fin 128) (v : VCore) (ecc : Ecc),
     let c := s.core p
     let pc := v.strands[k].pc.toNat
     let line := pc / 64
     let fetched := (s.freezeFor p (c.cycle + 1) 1 8).readNow p
       [.read .tile (v.codeBase + 1024 * line) 1024 c.cycle k v.strands[k].pc]
     let x := fetched.vNow p v
     c.v = some v → s.running p = true → c.stopped = false → v.strands[k].live = true → v.strands[k].wait = .none →
     line ∉ c.ibuf → pc < v.codeLen →
     ((∀ r ∈ x.regions, r.ex = true → r.holds (x.codeBase + 16 * pc : Nat) = false) →
       exec (.lineFetch p k ecc) s = .next (fetched.fault p k 2 0 (x.codeBase + 16 * pc))) ∧
     ((∃ r ∈ x.regions, r.ex = true ∧ r.holds (x.codeBase + 16 * pc : Nat) = true) →
       (∀ a, badWord x.tileBad (v.codeBase + 1024 * line) 1024 = some a →
         exec (.lineFetch p k ecc) s = .next (fetched.fault p k 0x0B 0 a)) ∧
       (badWord x.tileBad (v.codeBase + 1024 * line) 1024 = none →
       (ecc = .uncorrectable → exec (.lineFetch p k ecc) s = .next (fetched.fault p k 0x0B 0 (v.codeBase + 1024 * line))) ∧
       (ecc = .clean → exec (.lineFetch p k ecc) s = .next ((fetched.charge (24 + p.val) 0 0 0).modCore p
         fun c => { c with ibuf := (c.ibuf ++ [line]).drop (c.ibuf.length + 1 - 64), tmCorr := c.tmCorr + 0 })) ∧
       (ecc = .corrected → exec (.lineFetch p k ecc) s = .next ((fetched.charge (24 + p.val) 1 0 0).modCore
         p fun c => { c with ibuf := (c.ibuf ++ [line]).drop (c.ibuf.length + 1 - 64), tmCorr := c.tmCorr + 1 })))))

/-- MSWAP asks for a flip; at f, once every fill and pass before it is done, the two sets exchange and queued passes go on from
f + 1; a broadcast load's last row completes the shadow set (R104, R105). MLOAD: a wavefront load arms the next pass; a
broadcast load gives the shadow set its mode and takes the load lane (R104, R106, R464). Both read only inside one readable
region. -/
def Obligations.LoadsAndSwaps : Prop :=
  (∀ (s : State) (p : Fin 20) (k : Fin 128) (ops : BitVec 118) (v : VCore) (t : Nat),
     (let w := wordOf ops 0x023
      s.Runs p k w v t false .ma (fun _ _ _ => [resvFrom w 24]) →
       exec (.mswap p k ops) s =
         .next (((s.advance p t).modCore p fun c => { c with swaps := c.swaps ++ [⟨t⟩] }).commit p k t)) ∧
     (∀ sw rest, let c := s.core p
      let f := max (sw.issued + 1) (max c.fillAt (c.lastMultiply + 1))
      c.swaps = sw :: rest → (∀ q ∈ c.pass.pending, q.swaps ≠ 0) → c.filling = false → c.load.queued = none → c.dryBefore f = false →
       exec (.mswapFlip p) s = .next (((s.advance p f).modV p fun v => { v with active := v.shadow, shadow := v.active }).modCore
         p fun c => { c with
           swaps := c.swaps.drop 1, shadowValid := false,
           pass := { c.pass with freeAt := max c.pass.freeAt (f + 1),
                                 queued := c.pass.queued.map fun q => { q with swaps := q.swaps - 1 },
                                 held := c.pass.held.map fun q => { q with swaps := q.swaps - 1 } } })) ∧
     ((s.core p).filling = true → (s.core p).dryBefore (s.core p).fillAt = false →
       exec (.shadowSetComplete p) s = .next ((s.advance p (s.core p).fillAt).modCore p fun c =>
         { c with filling := false, shadowValid := true }))) ∧
  (∀ (s : State) (p : Fin 20) (k : Fin 128) (ops : BitVec 118) (v : VCore) (t : Nat) (w : IWord) (o : LoadOp),
     let s1 := s.advance p t
     let q := QInstr.of v.strands[k] k w (s.vcoreAt p v t).stepTag [] 0 none
     o = LoadOp.ofWord w v.strands[k].x → s.Runs p k w v t false .ma (fun _ v st => mloadChecks w v st.x) →
     (s.vcoreAt p v t).rangeFault (o.ranges w v.strands[k].x) .read = none →
     (w = withBits (wordOf ops 0x022) 30 1 1 →
       exec (.wavefrontMload p k ops) s = .next ((s1.modV p fun v => { v with armed := some o }).commit p k t)) ∧
     (w = withBits (wordOf ops 0x022) 30 1 0 → s1.ClearTo p .load q t [] →
       exec (.broadcastMload p k ops) s = .next ((((s1.noted p .load q t []).modV p fun v =>
         { v with shadow := { v.shadow with loaded := true, fmt := o.fmt, sparse := o.sparse } }).commit p k t).enqueue p .load q t)))

/-- MPASS and MPASS.P tag the tile, take the armed load and enter the array; a count of 0 takes and tags nothing (R100, R118,
R120). MPASS.P reads its count when it issues, and a corrected error that the read meets counts (R286); an uncorrectable one raises fault
0x0B, and every token of the tile from tokoff on becomes undefined (Table 6.7; how far is the model's choice, log 70). A queued pass, drain
or load starts when the running one's occupancy ends (R102).
That a count of 0 takes no armed load is the model's reading (log 60). -/
def Obligations.PassesIssue : Prop :=
  ∀ (s : State) (p : Fin 20) (k : Fin 128) (ops : BitVec 118) (v : VCore) (t : Nat),
    let st := v.strands[k]
    let s1 := s.advance p t
    let x := s.vcoreAt p v t
    let tags (o : PassOp) (v : VCore) : VCore :=
      { v with slotTags := (List.range (tileSlots o.ashape (o.aformat == 1))).foldl (fun g i => g.set! (o.abase + i) o.tag) v.slotTags }
    let tagged (o : PassOp) (s : State) : State := s.modV p fun v => { tags o v with armed := none }
    (let w := wordOf ops 0x020
     let o := PassOp.ofWord w st.x none
     let q := QInstr.of st k w x.stepTag [] (s1.core p).swaps.length x.armed
     s.Runs p k w v t false .ma (passChecks w false) →
     x.rangeFault ((if o.ssel then [] else [(taAt w st.x 80, o.srcLen)]) ++ o.skip.toList.map fun _ => (taAt w st.x 104, o.skipLen))
       .read = none → s1.ClearTo p .pass q t [] →
      exec (.mpass p k ops) s = .next (((tagged o (s1.noted p .pass q t [])).commit p k t).enqueue p .pass q t)) ∧
    (let w := wordOf ops 0x021
     let at0 := waAt w st.x 103
     let read := Access.read .tile at0.toNat 4 t k st.pc
     let s2 := s1.readNow p [read]
     let y := s2.vNow p x
     let record := (s2.core p).tileAt y at0.toNat 4 t
     let o := PassOp.ofWord w st.x (some (natOf record))
     let q := QInstr.of st k w y.stepTag record (s2.core p).swaps.length (if o.count = 0 then none else y.armed)
     s.Runs p k w v t false .ma (passChecks w true) → x.regionFault at0 4 .read = none →
     (y.badAccess read = none → o.count ≤ tileTokens o.ashape - o.tokoff →
      y.rangeFault (if o.ssel || o.count == 0 then [] else [(taAt w st.x 80, o.srcLen)]) .read = none → s2.ClearTo p .pass q t [read] →
      exec (.mpassP p k ops) s = .next (if o.count = 0 then ((s2.noted p .pass q t [read]).commit p k t).enqueue p .pass q t
        else ((tagged o (s2.noted p .pass q t [read])).commit p k t).enqueue p .pass q t)) ∧
     ∀ f, y.badAccess read = some f →
      let o := PassOp.ofWord w st.x none
      exec (.mpassP p k ops) s = .next ((s2.modV p (tags o)).failIssue p k f 0x021 t
        [.put .acc (o.wordAt 0) ((tileTokens o.ashape - o.tokoff) * o.words) t t k st.pc])) ∧
    (∀ (kind : MaKind) (q : QInstr),
     let l : LaneId := match kind with | .pass => .pass | .drain => .drain | .load => .load
     let t0 := ((s.core p).lane l).freeAt
     ((s.core p).lane l).head = some q → q.swaps = 0 → (s.core p).dryBefore t0 = false →
      let s1 := (s.advance p t0).modCore p fun c => c.setLane l (c.lane l).pop
      exec (.queuedPassStart p kind) s = .next (match kind with
        | .pass => s1.startPass p q t0
        | .drain => s1.startDrain p q t0
        | .load => s1.startLoad p q t0))

/-- MDRAIN reads and checks its record at issue and enters the drain lane with the tags of its tile as they stand then (R124, R126,
R185). A forced scrub write takes the column's port for its next cycle that no correction takes, once the port has had no idle
capacity for 65,536 clock periods; before that it does nothing (R109). A correction that its read makes counts, and an uncorrectable
word raises fault 0x09 (R122). An uncorrectable word of the record raises fault 0x0B and leaves the drain's destination undefined as far as
the word of the instruction names it (Table 6.7; the model's choice, log 70). In the period that the scrub takes, the column's results enter its skid buffer and nothing leaves
it (R109, R112).
That a drain takes the format tag at its issue, and which column a word's correction takes, is the model's reading (log 69). -/
def Obligations.DrainIssues : Prop :=
  (∀ (s : State) (p : Fin 20) (k : Fin 128) (ops : BitVec 118) (v : VCore) (t : Nat),
     let st := v.strands[k]
     let w := wordOf ops 0x024
     let prm := prAt w st.x 97
     let x := s.vcoreAt p v t
     let read := Access.read .tile prm.toNat 32 t k st.pc
     let s2 := (s.advance p t).readNow p [read]
     let y := s2.vNow p x
     let record := (s2.core p).tileAt y prm.toNat 32 t
     let o := DrainOp.ofWord w st.x record
     let q := QInstr.of st k w (BitVec.ofNat 32 ((s2.core p).stepTagAt y t)) record 0 none (o.tagsNow y (o.extent y))
     let reads := read :: if o.rmode = 1 then [.read .stepTag 0 1 t k st.pc] else []
     s.Runs p k w v t false .ma (fun _ _ st => drainChecks w st) → x.regionFault prm 32 .read = none →
     (y.badAccess read = none → firstBad (drainRecordChecks o record) = none → o.tagsOk y = true →
      y.rangeFault o.readRanges .read = none → y.rangeFault o.writeRanges .write = none → s2.ClearTo p .drain q t reads →
      exec (.mdrain p k ops) s = .next (((s2.noted p .drain q t reads).commit p k t).enqueue p .drain q t)) ∧
     ∀ f, y.badAccess read = some f →
      exec (.mdrain p k ops) s = .next (s2.failIssue p k f 0x024 t ((DrainOp.ofWord w st.x []).reach y t k st.pc))) ∧
  (∀ (s : State) (p : Fin 20) (column : Fin 32) (v : VCore) (ecc : Ecc),
     let c := s.core p
     let taken := s.modCore p fun c => { c with ports := c.ports.set column { c.ports[column] with scrub := true } }
     c.v = some v →
     (c.clk < c.ports[column].idleAt + 65536 ∨ c.ports[column].scrub = true → exec (.forcedScrubWrite p column ecc) s = .next s) ∧
     (c.ports[column].idleAt + 65536 ≤ c.clk → c.ports[column].scrub = false →
       exec (.forcedScrubWrite p column .clean) s = .next taken ∧
       exec (.forcedScrubWrite p column .corrected) s =
         .next ((taken.charge (24 + p.val) 1 0 0).modCore p fun c => { c with accfix := c.accfix + 1 }) ∧
       ∃ u v', exec (.forcedScrubWrite p column .uncorrectable) s = .next u ∧ (u.core p).faultStop = true ∧
         (c.faultValid = false → (u.core p).faultCode = 9) ∧ (u.core p).v = some v' ∧ v'.accBad.length = v.accBad.length + 1 ∧
         ∀ q, q ≠ p → u.core q = s.core q)) ∧
  ∀ (new : List PortItem) (clk : Nat) (k : ColPort), k.scrub = true →
    (k.wants = 0 → k.period new clk = { k with scrub := false, skid := k.skid ++ new }) ∧
    (0 < k.wants → k.period new clk = { k with wants := k.wants - 1, skid := k.skid ++ new })

/-- The element-wise instructions enter the vector engine's lane, RED the reduction unit's, whatever the engines' occupancy; a
class V instruction marks its virtual core (R133, R141, R142, R144, R150, R159, R189, R190). VCVT, VTRN and RNGMASK, which read
a record, a region or two words at issue, take the vector engine's lane (R139, R140, R157, R185); a queued vector or reduction
instruction starts when the running one has read its last block (R159). An uncorrectable word that VCVT or RNGMASK reads at issue raises
fault 0x0B and leaves its destination undefined (Table 6.7; which destination, and that RNGMASK has this fault, are log 63 and 70).
That each element's own address of a gather or scatter is checked when its block is read is log 22. -/
def Obligations.VectorInstructionsIssue : Prop :=
  (∀ (s : State) (p : Fin 20) (k : Fin 128) (ops : BitVec 118) (v : VCore) (t : Nat),
     let st := v.strands[k]
     let s1 := s.advance p t
     let q (w : IWord) : QInstr := .of st k w (s.vcoreAt p v t).stepTag [] 0 none
     let issues (w : IWord) (l : LaneId) : State := ((s1.noted p l (q w) t []).commit p k t).enqueue p l (q w) t
     (let w := wordOf ops 0x030
      s.Runs p k w v t false .ve (fun _ _ _ => vopChecks w) → s1.ClearTo p .ve (q w) t [] →
       exec (.vop p k ops) s = .next (issues w .ve)) ∧
     (let w := wordOf ops 0x032
      s.Runs p k w v t false .ve (fun _ _ _ => scanChecks w) → s1.ClearTo p .ve (q w) t [] →
       exec (.vscan p k ops) s = .next (issues w .ve)) ∧
     (let w := wordOf ops 0x034
      s.Runs p k w v t false .ve (fun _ _ st => gathChecks w st) → s1.ClearTo p .ve (q w) t [] →
       exec (.vgath p k ops) s = .next (issues w .ve)) ∧
     (let w := wordOf ops 0x035
      s.Runs p k w v t false .ve (fun _ _ st => gathChecks w st) → s1.ClearTo p .ve (q w) t [] →
       exec (.vscat p k ops) s = .next (issues w .ve)) ∧
     (let w := wordOf ops 0x040
      s.Runs p k w v t false .ru (fun _ _ _ => redChecks w) → s1.ClearTo p .ru (q w) t [] →
       exec (.red p k ops) s = .next (issues w .ru)) ∧
     (let w := wordOf ops 0x200
      s.Runs p k w v t true .ve (fun _ _ st => gathChecks w st) → s1.ClearTo p .ve (q w) t [] →
       exec (.scataddU p k ops) s = .next ((((s1.noted p .ve (q w) t []).noteClassV p).commit p k t).enqueue p .ve (q w) t))) ∧
  (∀ (s : State) (p : Fin 20) (k : Fin 128) (ops : BitVec 118) (v : VCore) (t : Nat),
     let st := v.strands[k]
     let s1 := s.advance p t
     let x := s.vcoreAt p v t
     let issues (s : State) (q : QInstr) (reads : List Access) : State := ((s.noted p .ve q t reads).commit p k t).enqueue p .ve q t
     (let w := wordOf ops 0x031
      let uses := (CvtOp.ofWord w st.x []).usesRecord
      let prm := prAt w st.x 83
      let read := if uses then [Access.read .tile prm.toNat 16 t k st.pc] else []
      let s2 := s1.readNow p read
      let y := s2.vNow p x
      let record := if uses then (s2.core p).tileAt y prm.toNat 16 t else []
      let o := CvtOp.ofWord w st.x record
      let q := QInstr.of st k w (BitVec.ofNat 32 ((s2.core p).stepTagAt y t)) record 0 none
      let reads := read ++ if o.rmode = 1 then [.read .stepTag 0 1 t k st.pc] else []
      s.Runs p k w v t false .ve (fun _ _ st => cvtChecks w st) → (uses = true → x.regionFault prm 16 .read = none) →
      ((uses = true → y.badAccess (.read .tile prm.toNat 16 t k st.pc) = none) → ((o.sfmt.isMx || o.tfmt.isMx) = true → o.mxAt < 2 ^ 25) →
       y.rangeFault (o.memRange w st.x) (if o.toReg then .read else .write) = none → s2.ClearTo p .ve q t reads →
       exec (.vcvt p k ops) s = .next (issues s2 q reads)) ∧
      ∀ f, uses = true → y.badAccess (.read .tile prm.toNat 16 t k st.pc) = some f →
       exec (.vcvt p k ops) s = .next (s2.failIssue p k f 0x031 t ((CvtOp.ofWord w st.x []).reach (s2.core p) y w st t k))) ∧
     (let w := wordOf ops 0x033
      let o := TrnOp.ofWord w st.x
      let q := QInstr.of st k w x.stepTag [] 0 none
      s.Runs p k w v t false .ve (fun _ _ st => trnChecks w st) →
      (o.mode ≠ 2 → x.regionFault (taAt w st.x 38) o.memLen (if o.stores then .write else .read) = none) → s1.ClearTo p .ve q t [] →
       exec (.vtrn p k ops) s = .next (issues s1 q [])) ∧
     (let w := wordOf ops 0x036
      let ea := waAt w st.x 59
      let ta := waAt w st.x 84
      let read := [Access.read .tile ea.toNat 8 t k st.pc, .read .tile ta.toNat 8 t k st.pc]
      let s2 := s1.readNow p read
      let y := s2.vNow p x
      let record := (s2.core p).tileAt y ea.toNat 8 t ++ (s2.core p).tileAt y ta.toNat 8 t
      let q := QInstr.of st k w (BitVec.ofNat 32 ((s2.core p).stepTagAt y t)) record 0 none
      let reads := read ++ [.read .stepTag 0 1 t k st.pc]
      let o := RngOp.ofWord w []
      s.Runs p k w v t false .ve (fun _ _ st => rngChecks w st) → x.rangeFault [(ea, 8), (ta, 8)] .read = none →
      (read.findSome? y.badAccess = none → s2.ClearTo p .ve q t reads → exec (.rngmask p k ops) s = .next (issues s2 q reads)) ∧
      ∀ f, read.findSome? y.badAccess = some f →
       exec (.rngmask p k ops) s = .next (s2.failIssue p k f 0x036 t (asWrites (runAccesses .mask
         (((List.range o.count).filter fun e => (s2.core p).onAt y o.pred e t).map fun e => o.dst * 8192 + e) t k st.pc) t))) ∧
     (∀ (red : Bool) (q : QInstr),
      let l : LaneId := if red then .ru else .ve
      let t0 := ((s.core p).lane l).freeAt
      ((s.core p).lane l).head = some q → q.swaps = 0 → (s.core p).dryBefore t0 = false →
       let s1 := (s.advance p t0).modCore p fun c => c.setLane l (c.lane l).pop
       (red = true → exec (.queuedVectorStart p red) s = .next (s1.startRed p q t0)) ∧
       ∀ n go, (n, go) ∈ ([(0x030, State.startVop), (0x031, State.startVcvt), (0x032, State.startVscan), (0x033, State.startVtrn),
           (0x034, State.startIndexed), (0x035, State.startIndexed), (0x036, State.startRngmask), (0x200, State.startIndexed)] :
             List (Nat × (State → Fin 20 → QInstr → Nat → State))) →
         red = false → fld q.word 0 10 = n → exec (.queuedVectorStart p red) s = .next (go s1 p q t0)))

/-- R80. The classes of a group's result; the largest exponent and the sum of the window terms run over the nonzero products. -/
def Obligations.GroupResultClasses : Prop :=
  ∀ ps : List Prod,
    let nonzero := ps.filter fun p => !p.v.isZero
    ((∃ p ∈ ps, p.v = .nan) → groupSum ps = .val .nan) ∧
    ((∀ p ∈ ps, p.v ≠ .nan) →
      (∀ neg, (∃ p ∈ ps, p.v = .inf neg) → (∀ p ∈ ps, p.v ≠ .inf (!neg)) → groupSum ps = .val (.inf neg)) ∧
      ((∃ p ∈ ps, p.v = .inf false) → (∃ p ∈ ps, p.v = .inf true) → groupSum ps = .val .nan)) ∧
    ((∀ p ∈ ps, p.v.isNan = false ∧ p.v.isInf = false) → nonzero = [] → groupSum ps = .zero) ∧
    ((∀ p ∈ ps, p.v.isNan = false ∧ p.v.isInf = false) → ∀ emax, (∀ p ∈ nonzero, p.e ≤ emax) → (∃ p ∈ nonzero, p.e = emax) →
      let t := (nonzero.map fun p => windowTerm emax p.v).sum
      (t = 0 → groupSum ps = .val (.zero false)) ∧
      (t ≠ 0 → groupSum ps = .val (.fin (decide (t < 0)) t.natAbs (emax - 24))))

/-- A group's result does not depend on the order of its products. -/
def Obligations.GroupSumIgnoresOrder : Prop :=
  ∀ ps qs : List Prod, ps.Perm qs → groupSum ps = groupSum qs

/-- Rounding to nearest picks a multiple of the unit at most half a unit away, the even one of two equally near; stochastic
rounding picks one of the two neighbours, the upper one when the fraction and r / 2^16 make 1 (R50, R52). -/
def Obligations.RoundingPicksNeighbours : Prop :=
  ∀ (m : Nat) (e q : Int), e < q →
    let u := 2 ^ (q - e).toNat
    (let n := roundUnits .rne m e q
     2 * m ≤ 2 * (n * u) + u ∧ 2 * (n * u) ≤ 2 * m + u ∧ (2 * m = 2 * (n * u) + u ∨ 2 * (n * u) = 2 * m + u → n % 2 = 0)) ∧
    ∀ r < 65536, roundUnits (.stoch r) m e q = if 65536 * u ≤ 65536 * (m % u) + r * u then m / u + 1 else m / u

/-- An encoding that is no NaN converts to itself in its own format without a flag, and every NaN to the canonical one. ABS and
NEG change the sign bit alone, give the canonical NaN for a NaN, and flush a subnormal under ftz (the floating-point ABS and NEG
of R137). -/
def Obligations.EncodingsKeepTheirValues : Prop :=
  (∀ (f : FloatFmt) (n : Nat), f ∈ [fp32, bf16, fp16, e4m3, e5m2, e2m3, e3m2, e2m1] → n < 2 ^ f.width →
     (f.decode n ≠ .nan → f.rne false (f.decode n) = (n, .none)) ∧
     (f.decode n = .nan → f.rne false (f.decode n) = (f.nanBits, .none))) ∧
  (∀ (f : FloatFmt) (ftz : Bool) (a b c : Nat), f ∈ [fp32, bf16, fp16] → a < 2 ^ f.width →
     let top := 2 ^ (f.ebits + f.fbits)
     let low := a % top
     (f.decode a = .nan → vopFloat f ftz 7 a b c = (f.nanBits, .none) ∧ vopFloat f ftz 8 a b c = (f.nanBits, .none)) ∧
     (f.decode a ≠ .nan → ftz = false ∨ low = 0 ∨ 2 ^ f.fbits ≤ low →
       vopFloat f ftz 7 a b c = (low, .none) ∧ vopFloat f ftz 8 a b c = (low + (if a < top then top else 0), .none)) ∧
     (ftz = true → 0 < low → low < 2 ^ f.fbits →
       vopFloat f ftz 7 a b c = (0, .onlyFtz true) ∧ vopFloat f ftz 8 a b c = (if a < top then top else 0, .onlyFtz true)))

/-- What the vector engine and the reduction unit compute. A NaN operand gives the canonical NaN and makes every compare but CMPNE false;
zeros compare equal while MIN and MAX put −0 below +0; ADD and MUL commute, an exact zero sum of opposite signs is +0, and FMA and FNMA
round once (R135, R136). INT32 operations form the exact result, clamp it and set isat when that changes it, and shift counts are
b[4:0] (R138). A scan keeps a chunk's first element and every segment start, adds level by level in the order of R145 and carries from
chunk to chunk; INT32 sums are exact (R146). Sums are pairwise trees within chunks joined left to right, sums of squares round a first-level pair
once (R152), INT32 totals are clamped once and a count is one of elements that are not zero (R153); max and min give the first NaN or the
lowest of the equal winners (R154). -/
def Obligations.EnginesCompute : Prop :=
  (∀ (ff : FloatFmt) (ftz : Bool) (a b c : Nat), ff ∈ [fp32, bf16, fp16] →
     let x := ff.decode a
     let y := ff.decode b
     let bits (op : Nat) : Nat := (vopFloat ff ftz op a b c).1
     (x.isNan = true ∨ y.isNan = true →
       (∀ op ∈ [0x00, 0x01, 0x02, 0x05, 0x06], bits op = ff.nanBits) ∧ (∀ op ∈ [0x0A, 0x0C, 0x0D], bits op = 0) ∧
       ∀ op ∈ [0x0B, 0x0E], bits op = 1) ∧
     (x.isZero = true → y.isZero = true →
       bits 0x0A = 1 ∧ bits 0x0B = 0 ∧ bits 0x0C = 0 ∧ bits 0x0D = 1 ∧
       bits 0x05 = ff.signBit (x.sign || y.sign) ∧ bits 0x06 = ff.signBit (x.sign && y.sign)) ∧
     (∀ op ∈ [0x00, 0x02], vopFloat ff ftz op a b c = vopFloat ff ftz op b a c) ∧
     (∀ neg m e, m ≠ 0 → x = .fin neg m e → y = .fin (!neg) m e → bits 0x00 = 0) ∧
     (ftz = false →
       vopFloat ff ftz 0x03 a b c = ff.rne false ((x.mul y).add (ff.decode c)) ∧
       vopFloat ff ftz 0x04 a b c = ff.rne false ((ff.decode c).add (x.mul y).neg))) ∧
  (∀ (a b c : Nat),
     let x := signedOf 32 a
     let y := signedOf 32 b
     let z := signedOf 32 c
     (∀ (op : Nat) (t : Int), (op, t) ∈ ([(0x00, x + y), (0x01, x - y), (0x02, x * y), (0x03, x * y + z), (0x04, z - x * y), (0x05, min x y),
         (0x06, max x y), (0x07, x.natAbs), (0x08, -x), (0x13, x * 2 ^ (b % 32))] : List (Nat × Int)) →
       signedOf 32 (vopInt op a b c).1 = max (-2 ^ 31) (min t (2 ^ 31 - 1)) ∧ (vopInt op a b c).1 < 2 ^ 32 ∧
       (vopInt op a b c).2 = ⟨false, false, decide (t < -2 ^ 31 ∨ 2 ^ 31 ≤ t), false⟩) ∧
     (a < 2 ^ 32 → signedOf 32 (vopInt 0x14 a b c).1 = x / 2 ^ (b % 32) ∧ (vopInt 0x15 a b c).1 = a / 2 ^ (b % 32)) ∧
     ∀ op ∈ [0x10, 0x11, 0x12, 0x14, 0x15], (vopInt op a b c).2 = .none) ∧
  (∀ (ff : FloatFmt) (ftz first : Bool) (carry : Nat) (xs : List (Nat × Bool)),
     let out := (scanChunk ff ftz first carry xs).1
     out.length = xs.length ∧
     (∀ j, j < xs.length → (xs.getD j (0, false)).2 = true → out.getD j 0 = (xs.getD j (0, false)).1) ∧
     (xs ≠ [] → first = true → out.getD 0 0 = (xs.getD 0 (0, false)).1) ∧
     (xs ≠ [] → first = false → (xs.getD 0 (0, false)).2 = false → out.getD 0 0 = (addRne ff ftz carry (xs.getD 0 (0, false)).1).1) ∧
     ∀ (fl : ArithFlags) (d j : Nat), j < xs.length →
       let was := xs.getD j (0, false)
       let far := xs.getD (j - d) (0, false)
       (scanLevel ff ftz (xs, fl) d).1.getD j (0, false) =
         if j < d then was else if was.2 then was else ((addRne ff ftz far.1 was.1).1, far.2)) ∧
  (∀ (carry : Int) (xs ys : List (Nat × Bool)),
     scanChunkInt carry (xs ++ ys) = scanChunkInt carry xs ++ scanChunkInt ((scanChunkInt carry xs).getLastD carry) ys ∧
     ((∀ x ∈ xs, x.2 = false) →
       scanChunkInt carry xs = (List.range xs.length).map fun j => carry + ((xs.take (j + 1)).map fun x => signedOf 32 x.1).sum) ∧
     ∀ n, scanChunkInt carry ((n, true) :: xs) = scanChunkInt 0 ((n, false) :: xs)) ∧
  (∀ (ftz sq : Bool) (x y a b : Nat) (ms : List Member),
     (redFloat ftz false [some a, some b, some x, some y]).1 =
       (addRne fp32 ftz (addRne fp32 ftz a b).1 (addRne fp32 ftz x y).1).1 ∧
     (redFloat ftz false [some a, none, some x]).1 = (addRne fp32 ftz a x).1 ∧
     (redFloat ftz true [some x, some y]).1 =
       (fp32.rne ftz (((fp32.decode x).mul (fp32.decode x)).add ((fp32.decode y).mul (fp32.decode y)))).1 ∧
     (ms.length = 32 → (∃ m ∈ ms, m.isSome = true) →
       (redFloat ftz false (ms ++ [some x])).1 = (addRne fp32 ftz (redFloat ftz false ms).1 x).1) ∧
     ((∀ m ∈ ms, m = none) → redFloat ftz sq ms = (0, .none))) ∧
  (∀ (sq : Bool) (xs : List Int),
     let t := (xs.map fun x => if sq then x * x else x).sum
     signedOf 32 (redInt sq xs).1 = max (-2 ^ 31) (min t (2 ^ 31 - 1)) ∧
     (redInt sq xs).2 = ⟨false, false, decide (t < -2 ^ 31 ∨ 2 ^ 31 ≤ t), false⟩) ∧
  (∀ (o : RedOp) (ftz : Bool) (len : Nat) (xs : List (Nat × Nat)), o.op = 4 → o.fmt ∈ [.fp32, .bf16, .fp16, .int32] →
     ∃ fl, o.reduce ftz len xs = (some (((xs.filter fun x => !(o.fmt.iflush ftz (o.fmt.value true x.2)).1.isZero).length), 0), fl)) ∧
  (∀ (isMax : Bool) (xs : List (Nat × Val)),
     (redBest isMax xs = none ↔ xs = []) ∧
     (∀ pre post x, xs = pre ++ x :: post → (∀ y ∈ pre, y.2.isNan = false) → x.2.isNan = true → redBest isMax xs = some x) ∧
     ∀ w, (∀ y ∈ xs, y.2.isNan = false) → redBest isMax xs = some w →
       ∃ pre post, xs = pre ++ w :: post ∧
         (∀ y ∈ pre, (if isMax then below y.2 w.2 else below w.2 y.2) = true) ∧
         ∀ y ∈ post, (if isMax then below w.2 y.2 else below y.2 w.2) = false)

/-- What the range checker and the frame shaper compute. A unit counts its NaNs and infinities, m is the largest magnitude of its finite elements,
s adds the rounded squares in unit order, a subnormal counts as a zero, and each of the four bounds that is exceeded gives its reason (R342). A crop
window lies inside the picture, even where chroma is subsampled (R247); every phase sums to 128 and phases above 32 mirror those below (R249);
a resize from n to n samples is exact (R248); RGB channels are within range and grey when chroma is neutral (R250); an element is finite, and 0 for
an exact 0 (R251). -/
def Obligations.CheckerAndShaperCompute : Prop :=
  (∀ (vs : List Val),
     let t := tapUnit vs
     let finite (v : Val) : Bool := !(fp32.decode (tapBits v)).isNan && !(fp32.decode (tapBits v)).isInf
     t.nans = (vs.filter fun v => (fp32.decode (tapBits v)).isNan).length ∧
     t.infs = (vs.filter fun v => (fp32.decode (tapBits v)).isInf).length ∧
     (∀ v ∈ vs, finite v = true → tapBits v % 2 ^ 31 ≤ t.m) ∧
     (t.m = 0 ∨ ∃ v ∈ vs, finite v = true ∧ tapBits v % 2 ^ 31 = t.m) ∧
     ∀ v, (tapUnit (vs ++ [v])).s =
       if finite v then
         let x := fp32.decode (tapBits v)
         (fp32.rne true ((fp32.decode t.s).add (fp32.decode (fp32.rne true (x.mul x)).1))).1
       else t.s) ∧
  (∀ n, n < 2 ^ 32 → (fp32.decode n).isNan = false →
     tapBits (fp32.decode n) = if n % 2 ^ 31 < 2 ^ 23 then n / 2 ^ 31 * 2 ^ 31 else n) ∧
  (∀ (t : Tap) (b : Bounds),
     (b.enable = false → t.reasons b = 0) ∧
     (b.enable = true →
       bitAt (t.reasons b) 0 = (fp32.decode b.amax.toNat).lt (fp32.decode t.m) ∧ bitAt (t.reasons b) 1 = decide (b.nanMax < t.nans) ∧
       bitAt (t.reasons b) 2 = decide (b.infMax < t.infs) ∧ bitAt (t.reasons b) 3 = (fp32.decode b.l2max.toNat).lt (fp32.decode t.s) ∧
       t.reasons b < 16)) ∧
  (∀ (f : Profile) (q : Picture),
     let w := f.window q
     w.1 + w.2.2.1 ≤ q.width ∧ w.2.1 + w.2.2.2 ≤ q.height ∧
     (q.cwidth ≠ 0 → q.cwidth < q.width → w.1 % 2 = 0 ∧ w.2.2.1 % 2 = 0) ∧
     (q.cheight ≠ 0 → q.cheight < q.height → w.2.1 % 2 = 0 ∧ w.2.2.2 % 2 = 0)) ∧
  (∀ ph, ph < 64 → (filterOf ph).length = 8 ∧ (filterOf ph).sum = 128 ∧
     (32 < ph → ∀ k, k < 8 → (filterOf ph).getD k 0 = (filterOf (64 - ph)).getD (7 - k) 0)) ∧
  (∀ (plane : Array Nat) (pitch x y w h depth i j : Nat), i < h → j < w →
     let v := plane.getD ((y + i) * pitch + x + j) 0
     v < 2 ^ depth → ((resizePlane plane pitch x y w h w h depth).getD i #[]).getD j 0 = ((16 * v : Nat) : Int)) ∧
  (∀ (f : Profile) (signalled lines depth : Nat) (full : Bool) (y cb cr : Int),
     let out := f.channels signalled lines depth full y cb cr
     let unit : Int := ((2 ^ (depth - 8) * 16 : Nat) : Int)
     out.length = f.c ∧
     (f.colour = 1 → out = [y, cb, cr]) ∧ (f.colour = 2 → out = [y]) ∧
     (f.colour ≠ 1 → f.colour ≠ 2 →
       (∀ v ∈ out, 0 ≤ v ∧ v ≤ ((2 ^ depth - 1) * 16 : Nat)) ∧
       (cb = 128 * unit → cr = 128 * unit → ∃ v, out = [v, v, v] ∧
         ((f.range = 2 ∨ f.range = 0 ∧ full = true) → 0 ≤ y → y ≤ ((2 ^ depth - 1) * 16 : Nat) → v = y)))) ∧
  ∀ (f : Profile) (c : Nat) (value : Int) (ff : FloatFmt), f.ofmt ∈ [.bf16, .e4m3, .e5m2] → f.ofmt.float = some ff →
    (ff.decode (f.element c value)).isNan = false ∧ (ff.decode (f.element c value)).isInf = false ∧
    (value * f.ms.getD c 0 + f.offs.getD c 0 = 0 → f.element c value = 0)

/-- A witness unit's digest is SHA-256 of everything fed to it, however it was cut into pieces (R274). -/
def Obligations.DigestOfTheWholeMessage : Prop :=
  ∀ pieces : List (List Byte), (pieces.foldl Sha.feed Sha.init).digest = sha256 pieces.flatten

/-- A byte written to GDDR7 that has no uncorrectable line, or to tile memory that has no uncorrectable word, is read back, and
every other byte reads as before. -/
def Obligations.MemoryReadsBack : Prop :=
  (∀ (m : MemSys) (a x : Nat) (bs : List Byte), m.gddrBad = [] → a + bs.length ≤ m.usable →
    ((m.writeDev a bs).1.readDev x 1).1 = if a ≤ x ∧ x < a + bs.length then [bs.getD (x - a) 0] else (m.readDev x 1).1) ∧
  ∀ (v : VCore) (a x : Nat) (bs : List Byte), v.tileBad = [] →
    (v.writeTile a bs).readTile x 1 = if a ≤ x ∧ x < a + bs.length then [bs.getD (x - a) 0] else v.readTile x 1

/-- SCMD and CSUM.U: with room in the tracker a legal record becomes a task of the stream engine, with its number, step tag and
token; without room the strand waits; a task that R219 rejects is recorded as rejected under fault 0x08 (R165, R208, R213, R215,
R219). CSUM.U marks its virtual core once it has issued (R190). What fault 0x08 reports as its information is the model's own (log
66). -/
def Obligations.TasksAreAccepted : Prop :=
  ∀ (s : State) (p : Fin 20) (k : Fin 128) (ops : BitVec 118) (v : VCore) (t : Nat),
    let st := v.strands[k]
    let x := s.vcoreAt p v t
    let s1 := s.advance p t
    let read (w : IWord) : Access := .read .tile (taAt w st.x 24).toNat 208 t k st.pc
    let y (w : IWord) : VCore := (s1.readNow p [read w]).vNow p x
    let task (w : IWord) (c : Core) : Machine.Task :=
      let raw := c.tileAt (y w) (taAt w st.x 24).toNat 208 t
      let tag := BitVec.ofNat 32 (c.stepTagAt (y w) t)
      { id := c.nextTask, vcore := (y w).num, strand := k.val, step := tag, cmd := (taAt w st.x 24).toNat, crec := (taAt w st.x 66).toNat,
        tok := fld w 46 8, tinc := fld w 54 12, pc := st.pc.toNat, opcode := fld w 0 10,
        taskNo := if st.taskStep = tag then st.taskNo else 0, resubmitted := false, arrival := fld w 0 10 == 0x201,
        stages := stagesOf raw, reqNo := 0, delivered := 0, merged := 0, spilled := 0, abort := none, provChks := [],
        provBlock := none, touched := [], met := [] }
    -- the record has been read in the issue cycle, and the task has its number
    let s2 (w : IWord) : State := (s1.readNow p [read w]).noteAccesses p [read w]
    let numbered (w : IWord) : State :=
      let y := task w ((s2 w).core p)
      ((s2 w).modStrand p k fun st => { st with taskNo := y.taskNo + 1, taskStep := y.step }).modCore p fun c =>
        { c with issuedFor := (y.crec, y.opcode, y.pc, y.taskNo) :: c.issuedFor.filter fun e => e.1 != y.crec }
    let checks (w : IWord) (st : Strand) : List EncCheck :=
      [alignedTo (taAt w st.x 24) 64 24, alignedTo (taAt w st.x 66) 64 66, resvFrom w 88]
    let waits (w : IWord) : State := s1.modStrand p k fun st => { st with
      wait := .tracker (fld w 0 10), since := match st.wait with | .tracker _ => st.since | _ => t }
    let room (w : IWord) : Prop := (s1.core p).tasks.length < 64 ∧ x.rangeFault [(taAt w st.x 24, 208)] .read = none ∧
      x.rangeFault [(taAt w st.x 66, 64)] .write = none ∧ x.eccFault [((taAt w st.x 24).toNat, 208)] = none ∧
      (s1.readNow p [read w]).Clear p [read w]
    let refused (w : IWord) : Option Nat :=
      commandFault (y w) (s2 w).job.n (fld w 0 10 == 0x201) (((s2 w).core p).tileAt (y w) (taAt w st.x 24).toNat 208 t)
    let rejected (w : IWord) : State :=
      let y := task w ((s2 w).core p)
      ((numbered w).writeRecord p y 3).fault p k 8 y.opcode y.crec
    (let w := wordOf ops 0x050
     s.Runs p k w v t false .sq (fun _ _ st => checks w st) →
      (64 ≤ (s1.core p).tasks.length → exec (.scmd p k ops) s = .next (waits w)) ∧
      (room w →
        (∀ b, refused w = some b → exec (.scmd p k ops) s = .next ((s2 w).fault p k 1 0x050 (65536 + b))) ∧
        (refused w = none →
          let y := task w ((s2 w).core p)
          ((numbered w).job.rejects y.stages = true → exec (.scmd p k ops) s = .next (rejected w)) ∧
          ((numbered w).job.rejects y.stages = false →
            exec (.scmd p k ops) s = .next (((numbered w).commit p k t).launch p y))))) ∧
    (let w := wordOf ops 0x201
     s.Runs p k w v t true .sq (fun _ _ st => checks w st) →
      (64 ≤ (s1.core p).tasks.length → exec (.csumU p k ops) s = .next (waits w)) ∧
      (room w →
        (∀ b, refused w = some b → exec (.csumU p k ops) s = .next ((s2 w).fault p k 1 0x201 (65536 + b))) ∧
        (refused w = none →
          let y := task w ((s2 w).core p)
          ((numbered w).job.rejects y.stages = true → exec (.csumU p k ops) s = .next (rejected w)) ∧
          ((numbered w).job.rejects y.stages = false →
            exec (.csumU p k ops) s = .next ((((numbered w).noteClassV p).commit p k t).launch p y)))))

/-- The stream engine reads its descriptor lists in runs of 64, within the 4,096 descriptors of its cache; with no room there it reads none
(R214). A LOAD stage, and a COLL stage that comes first, issues one request over its next descriptor, and a STORE stage, and a COLL stage
with its outputs, one over its next block; a stage with accesses of its own (EXPAND, DISPATCH, an exchange) issues the next of these; each
only while fewer than 1,024 requests are outstanding (R212, R213). A stage without requests runs its chain (R209). The oldest request of a
stage completes, its data joins the stage's blocks and the chain goes on; a held request and one to host memory that cannot proceed stay
(R213, R392, R431). -/
def Obligations.StreamsIssueRequests : Prop :=
  (∀ (s : State) (p : Fin 20) (task : Nat) (stage : Fin 6) (t : Machine.Task) (rid off len : Nat),
     let r : TaskRun := { s, p, t }
     let st := r.stage stage.val
     let first := st.dropped + st.descs.length
     let n := min 64 (len - first)
     s.task p task = some t → t.abort = none → stage.val < t.stages.length → r.list stage.val = some (rid, off, len) →
     (n = 0 ∨ 4096 < (s.core p).cached + n → exec (.descriptorRunFetch p task stage) s = .next r.done) ∧
     (n ≠ 0 → (s.core p).cached + n ≤ 4096 → ∀ r1,
       (∀ bs, r.get rid (off + 64 * first : Nat) (64 * n) = (r1, .ok bs) →
         let r2 := r1.modStage stage.val fun st => { st with descs := st.descs ++ chunks 64 bs }
         exec (.descriptorRunFetch p task stage) s = .next (if (r1.s.job.region rid).any fun q => q.kind == .gddr
           then { r2 with s := r2.s.modCore r2.p fun c => { c with dfetchCnt := c.dfetchCnt + 1 } }.done else r2.done)) ∧
       (∀ c a, r.get rid (off + 64 * first : Nat) (64 * n) = (r1, .bad c a) →
         exec (.descriptorRunFetch p task stage) s = .next (r1.fail stage.val first 0 c a).done))) ∧
  (∀ (s : State) (p : Fin 20) (task : Nat) (stage : Fin 6) (t : Machine.Task),
     let r : TaskRun := { s, p, t }
     let st := r.stage stage.val
     let input : Prop := st.kind = .coll ∧ stage.val = 0 ∧ st.phase < 4
     let chained := (r.pump (t.stages.length - stage.val) stage.val).done
     s.task p task = some t → t.abort = none → stage.val < t.stages.length →
     (st.xfers ≠ [] → (r.room = true → exec (.stageRequestIssue p task stage) s = .next (r.issueXfer stage.val).done) ∧
       (r.room = false → exec (.stageRequestIssue p task stage) s = .next s)) ∧
     (st.xfers = [] →
       (st.kind = .load → r.room = true → exec (.stageRequestIssue p task stage) s = .next (r.issueRead stage.val).done) ∧
       (input → r.room = true → ∀ t2, chained.task p task = some t2 →
         exec (.stageRequestIssue p task stage) s = .next (TaskRun.issueRead { s := chained, p, t := t2 } stage.val).done) ∧
       (st.kind = .store ∨ st.outputs = true → r.room = true →
         exec (.stageRequestIssue p task stage) s = .next (r.issueWrite stage.val).done) ∧
       (st.kind = .load ∨ input ∨ st.kind = .store ∨ st.outputs = true → r.room = false →
         exec (.stageRequestIssue p task stage) s = .next s) ∧
       (st.kind ∈ [StageKind.expand, .epilogue, .feed, .send, .dispatch] ∨ st.kind = .coll ∧ ¬input ∧ st.outputs = false →
         exec (.stageRequestIssue p task stage) s = .next (r.chain stage.val)))) ∧
  (∀ (s : State) (p : Fin 20) (task : Nat) (stage : Fin 6) (outcome : ReqOutcome) (t : Machine.Task) (q : Req) (qs : List Req),
     let r : TaskRun := { s, p, t }
     let r2 := r.endRequest stage.val q outcome
     s.task p task = some t → (r.stage stage.val).reqs = q :: qs →
     (q.held = true → exec (.memoryRequestComplete p task stage outcome) s = .next s) ∧
     (q.held = false → (q.tile = true ∨ inHost q.addr = false ∨ s.host.dma = true ∨ outcome = .linkError) →
       (r2.t.abort = none → exec (.memoryRequestComplete p task stage outcome) s = .next (r2.chain stage.val)) ∧
       (∀ a, r2.t.abort = some a → exec (.memoryRequestComplete p task stage outcome) s = .next r2.done)) ∧
     (q.held = false → q.tile = false → inHost q.addr = true → s.host.dma = false → outcome ≠ .linkError →
       exec (.memoryRequestComplete p task stage outcome) s = .next s))

/-- A request carries at most the bytes it has room for, and they lie in one granule (R212). -/
def Obligations.RequestsStayInOneGranule : Prop :=
  ∀ (base : Int) (gran room : Nat) (runs : List (Int × Nat)), 0 < gran → (∀ x ∈ runs, 0 < x.2) →
    requestLen base gran room none runs ≤ room ∧
    ∃ g : Int, ∀ x ∈ takeRuns (requestLen base gran room none runs) runs,
      (base + x.1) / (gran : Int) = g ∧ (base + x.1 + x.2 - 1) / (gran : Int) = g

/-- A complete task writes its completion record, leaves the tracker and adds tinc to its token counter; an aborted one, once its
requests are back, writes its record and raises the core fault of its cause (R215, R216, Table 7.7); the end of a task that ran
again is answered as R351 says. A provenance record waits until the device may write host memory (R431). A write to STRM_RESUBMIT that
finds no resident virtual core, no room or a record outside its regions sets the lost bit; otherwise the record's command runs again with
the step tag, token and command the record names, or, where its command record is outside its region, cannot be read or breaks a rule, it
ends at once as aborted with cause 0x02, 0x04 or 0x03 and fault 0x0D (R218). How firmware goes on after each fault, and that fault 0x08
reports the record's address, are the model's choices (log 45, 66). -/
def Obligations.TasksEnd : Prop :=
  (∀ (s : State) (p : Fin 20) (task : Nat) (t : Machine.Task),
     let r : TaskRun := { s, p, t }
     let answered (r : TaskRun) (u : State) : State := if r.t.resubmitted then u.resubmissionEnded r.p r.t else u
     s.task p task = some t →
     (t.abort = none → r.complete = true → t.provBlock ≠ none → s.host.dma = false → exec (.taskEnd p task) s = .next s) ∧
     (t.abort = none → r.complete = true → t.provBlock = none ∨ s.host.dma = true →
       exec (.taskEnd p task) s = .next (answered r (((((s.writeRecord p t 1).dropTask p t.id).modCore p fun c =>
         { c with xspillCnt := c.xspillCnt + t.spilled }).provenance t).modCore p fun c => c.addToken t.tok t.tinc)).checkComplete) ∧
     (t.abort = none → r.complete = false → exec (.taskEnd p task) s = .next s) ∧
     (∀ a, t.abort = some a → (∀ st ∈ t.stages, st.reqs = []) →
       (∀ o ∈ s.fab.tx, o.core = p.val → o.task = task → o.target = .send → o.awaits = false) →
       let u := r.undefineOutputs
       let ended := (u.s.writeRecord u.p u.t 2).dropTask u.p u.t.id
       exec (.taskEnd p task) s = .next (answered u (match abortFault a.cause with
         | some f => ended.modCore u.p fun c => c.raise f 0 0 0 u.t.crec
         | none => ended)).checkComplete)) ∧
  (∀ (s : State) (p : Fin 20) (value : Word),
     let crec := 64 * bitsAt value.toNat 0 22
     let c := s.core p
     let lost := s.modCore p fun c => { c with resubLost := true }
     (c.v = none → exec (.strmResubmit p value) s = .next lost) ∧
     (64 ≤ c.tasks.length → exec (.strmResubmit p value) s = .next lost) ∧
     (∀ v, c.v = some v → ∀ a, v.regionFault crec 64 .write = some a → exec (.strmResubmit p value) s = .next lost) ∧
     (∀ v, c.v = some v → c.tasks.length < 64 → v.regionFault crec 64 .write = none →
       let record := v.readTile crec 64
       let info := natAt record 48 8
       let cmd := natAt record 56 4
       let raw := v.readTile cmd 208
       let read (s : State) (a n : Nat) : State := s.correct p false [⟨.tile, a, n, false, 0, 0, 0, 0, false, []⟩]
       let s1 := read s crec 64
       let s2 := read s1 cmd 208
       let known := c.issuedFor.find? fun e => e.1 == crec
       let op := match known with | some e => e.2.1 | none => 0x050
       let task : Machine.Task :=
         { id := c.nextTask, vcore := v.num, strand := bitsAt info 20 7, step := BitVec.ofNat 32 (natAt record 28 4), cmd, crec,
           tok := bitsAt info 0 8, tinc := bitsAt info 8 12, pc := (match known with | some e => e.2.2.1 | none => 0), opcode := op,
           taskNo := (match known with | some e => e.2.2.2 | none => 0), resubmitted := true, arrival := op == 0x201,
           stages := stagesOf raw, reqNo := 0, delivered := 0, merged := 0, spilled := 0, abort := none, provChks := [],
           provBlock := none, touched := [], met := [] }
       let ends (s : State) (cause a : Nat) : State :=
         let t := { task with stages := [], abort := some ⟨cause, 0, noDesc, 0, 0, 0, a⟩ }
         ((s.writeRecord p t 2).modCore p fun c => c.raise 0x0D 0 0 0 crec).resubmissionEnded p t
       (∀ a, v.regionFault cmd 208 .read = some a → exec (.strmResubmit p value) s = .next (ends s1 2 (infoAddr a))) ∧
       (v.regionFault cmd 208 .read = none →
         (∀ a, badWord v.tileBad cmd 208 = some a → exec (.strmResubmit p value) s = .next (ends (s2.chargeTile p) 4 a)) ∧
         (badWord v.tileBad cmd 208 = none →
           (∀ b, commandFault v s.job.n (op == 0x201) raw = some b → exec (.strmResubmit p value) s = .next (ends s2 3 0)) ∧
           (commandFault v s.job.n (op == 0x201) raw = none →
             exec (.strmResubmit p value) s = .next (if s.job.rejects task.stages
               then (s2.writeRecord p task 3).modCore p fun c => c.raise 8 0 0 0 crec else s2.launch p task))))))

/-- WTAP opens, feeds and closes a witness digest unit that the image assigns to the strand; any other unit is fault 0x03 (R188,
R272, R273). A witness record is 64 bytes appended to the job's witness ring: digest, tag, step tag, virtual core, strand, unit,
rank, message length and sequence number; a full ring drops and counts it (R275); a provenance record, of 192 bytes, holds the preimage, its digest and
what the task wrote into result regions (R267 to R269). Twin records are matched by key while the twin
is linked; a halt signal pauses the job, answers with a halt of its own unless this device has halted already, and posts one
divergence event for the lowest mismatch; the twin's end is reported as a lost twin (R278, R279, R280). Of a feed, 64-byte unit k is
read at cycle 1 + k (Table 6.6); a queue that is full freezes the core under 0x01 until, and no longer than, its unit has room for it (R273;
the rate in clock periods is log 29).
How long a retired key is kept is the model's reading (log 48). -/
def Obligations.WitnessesAndTwins : Prop :=
  (∀ (s : State) (p : Fin 20) (k : Fin 128) (ops : BitVec 118) (v : VCore) (t : Nat) (w : IWord) (u : Nat),
     let x := s.vcoreAt p v t
     u = fld w 24 3 →
     (w = withBits (wordOf ops 0x061) 27 2 1 → s.Runs p k w v t false .none (fun _ _ _ => wtapIdle w) →
       ((u, k.val) ∉ x.witness → exec (.wtapStart p k ops) s = .next ((s.advance p t).fault p k 3 0x061 (u + 0x10))) ∧
       ((u, k.val) ∈ x.witness → exec (.wtapStart p k ops) s = .next (((s.advance p t).modUnit u fun y => y.add .start).commit p k t))) ∧
     (w = withBits (wordOf ops 0x061) 27 2 0 → fld (wordOf ops 0x061) 27 2 ≠ 3 →
       let a := taAt w v.strands[k].x 29
       let n := fld w 51 16 + 1
       let reads := (List.range n).map fun i => Access.read .tile (a.toNat + 64 * i) 64 (t + 1 + i) k v.strands[k].pc
       s.Runs p k w v t false .none (fun _ _ st => [(fld w 27 2 != 3, 27), alignedTo (taAt w st.x 29) 64 29, resvFrom w 99]) →
       ((u, k.val) ∉ x.witness → exec (.wtapFeed p k ops) s = .next ((s.advance p t).fault p k 3 0x061 (u + 0x10))) ∧
       ((u, k.val) ∈ x.witness → x.rangeFault [(a, 64 * n)] .read = none → (s.advance p t).Clear p reads →
       let s1 := (s.advance p t).noteAccesses p reads
       let run := Run.start (.of v.strands[k] k w x.stepTag [] 0 none) t [(List.range n).map fun i => (t + 1 + i, .feed i)]
       exec (.wtapFeed p k ops) s = .next (((s1.modUnit u fun y => y.add (.feed t [] n)).modCore p fun c =>
         { c with runs := c.runs ++ [run] }).commit p k t))) ∧
     (w = withBits (wordOf ops 0x061) 27 2 2 → s.Runs p k w v t false .none (fun _ _ _ => wtapIdle w) →
       ((u, k.val) ∉ x.witness → exec (.wtapFinish p k ops) s = .next ((s.advance p t).fault p k 3 0x061 (u + 0x10))) ∧
       ((u, k.val) ∈ x.witness →
       let read := [Access.read .stepTag 0 1 t k v.strands[k].pc]
       let s1 := (s.advance p t).noteAccesses p read
       (s.advance p t).Clear p read →
       exec (.wtapFinish p k ops) s = .next ((s1.modUnit u fun y =>
         y.add (.finish (BitVec.ofNat 32 (fld w 67 32)) (BitVec.ofNat 32 ((s1.core p).stepTagAt x t)))).commit p k t)))) ∧
  -- what a unit makes of them, in issue order, as far as the feeds have been read; and one unit of a feed
  (∀ (y : Witness) (rest : List WitStep), y.absorb [] = { y with steps := [] } ∧
     y.absorb (.start :: rest) =
       { y with isOpen := true, msg := .init, discards := if y.isOpen then min 255 (y.discards + 1) else y.discards }.absorb rest ∧
     (∀ tag step, y.absorb (.finish tag step :: rest) =
       { y with isOpen := false, msg := .init, finish := y.finish ++ [(tag, step, if y.isOpen then y.msg else .init)] }.absorb rest) ∧
     ∀ t0 bytes n, let z := { y with isOpen := true, msg := (if y.isOpen then y.msg else .init).feed bytes }
       y.absorb (.feed t0 bytes 0 :: rest) = z.absorb rest ∧
       y.absorb (.feed t0 bytes (n + 1) :: rest) = { z with steps := .feed t0 [] (n + 1) :: rest }) ∧
  (∀ (s : State) (p : Fin 20) (r : Run) (i : Nat) (v : VCore),
     let u := fld r.q.word 24 3
     let a := (taAt r.q.word r.q.x 29).toNat + 64 * i
     (s.core p).v = some v → (s.core p).tasks = [] → r.undef = none → v.tileBad = [] → v.tileSoft = [] → v.accSoft = [] →
     s.feedPiece p r i = (s.modUnit u fun y => y.take r.t0 ((s.core p).tileAt v a 64 (r.t0 + 1 + i)) (s.core p).clk, r)) ∧
  (∀ (y : Witness) (clk : Nat), y.since ≤ clk →
     y.left (clk + y.full64 clk) + 64 ≤ 262144 ∧ ∀ n < y.full64 clk, 262144 < y.left (clk + n) + 64) ∧
  (∀ (s : State) (p : Fin 20) (n : Nat) (r : Run) (i : Nat), (r, .feed i) ∈ (s.core p).piecesDue n →
     (s.rep.units[fld r.q.word 24 3]!).full64 (s.core p).clk ≤ s.bankDemand p n) ∧
  (∀ (s : State) (p : Fin 20), (s.core p).v ≠ none → s.bankDemand p ((s.core p).cycle + 1) ≠ 0 →
     s.period p = s.freezeFor p ((s.core p).cycle + 1) 1 1) ∧
  (∀ (s : State) (unit : Fin 8) (tag step : Word) (msg : Sha) (rest : List (Word × Word × Sha)),
     let u := s.rep.units[unit]
     let ring := s.job.wit
     let clk := s.unitClk u
     let s1 := s.modUnit unit.val fun u => { u with finish := rest, queued := min (u.left clk) (u.later rest), since := clk }
     u.finish = (tag, step, msg) :: rest →
     (ring.room 64 = false →
       exec (.witnessRecord unit) s = .next { s1 with rep := { s1.rep with witLost := s1.rep.witLost + 1 } }) ∧
     (ring.room 64 = true → s.host.dma = true →
       let owner := u.owner.getD (0, 0)
       let record := msg.digest ++ bytesOf 4 tag.toNat ++ bytesOf 4 step.toNat ++ bytesOf 2 owner.1 ++ bytesOf 1 owner.2
         ++ bytesOf 1 unit.val ++ bytesOf 4 s.job.rank ++ bytesOf 8 msg.count ++ bytesOf 4 ring.next ++ zeros 4
       let s2 := s1.writeBuf ring.buf (64 * ring.next) record
       exec (.witnessRecord unit) s = .next { s2 with job := { s2.job with wit := { ring with next := ring.next + 1 } } })) ∧
  -- the provenance record of a completed task (Tables 9.2 and 9.3)
  (∀ (s : State) (t : Machine.Task),
     (t.provBlock = none → s.provenance t = s) ∧
     (∀ first, t.provBlock = some first → s.job.prov.buf.total < 192 * (s.job.prov.next + 1) →
       s.provenance t = ({ s with rep := { s.rep with provLost := s.rep.provLost + 1 } } : State).post 0x0902
         (bytesOf 4 t.step.toNat ++ bytesOf 2 t.vcore ++ bytesOf 1 t.strand)) ∧
     (∀ first, t.provBlock = some first → 192 * (s.job.prov.next + 1) ≤ s.job.prov.buf.total →
       ∃ record : List Byte, record.length = 192 ∧
         s.provenance t = { s.writeBuf s.job.prov.buf (192 * s.job.prov.next) record with
           job := { (s.writeBuf s.job.prov.buf (192 * s.job.prov.next) record).job with prov := { s.job.prov with next := s.job.prov.next + 1 } } } ∧
         sub record 0 32 = padTo 32 s.job.digest ∧ sub record 32 32 = padTo 32 s.job.weights ∧
         sub record 64 32 = sha256 (padTo 32 s.job.corpus ++ s.ing.entriesOf t.step.toNat) ∧
         natAt record 96 8 = s.job.seed % 2 ^ 64 ∧ natAt record 104 4 = t.step.toNat ∧ natAt record 108 2 = s.job.v % 65536 ∧
         natAt record 110 2 = s.job.n % 65536 ∧ natAt record 112 2 = s.job.contract % 65536 ∧
         natAt record 114 2 = ofBool s.job.ftz + 2 * ofBool s.job.strict ∧ natAt record 116 4 = s.job.rank % 2 ^ 32 ∧
         natAt record 120 8 = 0 ∧ sub record 128 32 = sha256 (sub record 0 128) ∧ natAt record 160 2 = t.vcore % 65536 ∧
         natAt record 162 1 = t.strand % 256 ∧ natAt record 163 1 = ofBool t.resubmitted ∧ natAt record 164 4 = t.taskNo % 2 ^ 32 ∧
         natAt record 168 8 = first % 2 ^ 64 ∧ natAt record 176 4 = t.provChks.length % 2 ^ 32 ∧
         natAt record 180 4 = (crc32c (t.provChks.flatMap fun c => bytesOf 4 c.toNat)).toNat ∧
         natAt record 184 4 = s.job.prov.next % 2 ^ 32 ∧ natAt record 188 4 = 0)) ∧
  (∀ (s : State) (record : List Byte) (resubmitted : Bool),
     (s.twinned = true →
       exec (.twinRecordReceive record resubmitted) s = .next (s.compareTwin false (TwinRec.ofBytes record) resubmitted) ∧
       (let s1 := if s.rep.halted then s else ({ s with rep := { s.rep with halted := true } }.pauseAll 4).sendHalt
        let s2 := match s1.rep.lowestMismatch with
          | some m => s1.postDivergence m.1.bytes m.2.toNat true false
          | none => s1
        exec .twinHaltSignal s = .next { s2 with rep := { s2.rep with settling := false, mism := [] } })) ∧
     (s.twinned = false → exec (.twinRecordReceive record resubmitted) s = .next s ∧ exec .twinHaltSignal s = .next s ∧
       exec .twinJobEnd s = .next s) ∧
     exec .twinJobEnd s = .next s.twinLost)

/-- Answers to a queued translation fault: half of wdog_ms without an answer, or "unresolvable", fails the page: every task that
waits on it aborts with cause 0x05 and a slot raises its event; "retry" frees the requests that now translate, and what faults
again goes back to the queue (R303). A walk follows Table 10.4: an entry that is not present, may not be written or has a reserved bit set
gives no place, and a TLB miss counts and, where the walk gives a place, is remembered among 8,192 (R302; that the oldest gives way is the
model's choice, log 52). TLB invalidation empties the TLB or takes one device page out of it; a refresh counts and
marks the requests that wait at its channel; a scrub counts what it corrects and leaves a line or word that it finds uncorrectable
marked so (R224, R286, R292, R293, R304; the channel that a scrub's line names, and its lines' order, are log 52's too). -/
def Obligations.MemoryUpkeep : Prop :=
  (∀ (s : State) (entry : BitVec 8),
     ((s.mem.faults.find? fun f => f.entry == entry.toNat) = none →
       exec (.xlatFaultTimeout entry) s = .next s ∧ exec (.xlatRespUnresolvable entry) s = .next s ∧
       exec (.xlatRespRetry entry) s = .next s) ∧
     (∀ f, (s.mem.faults.find? fun f => f.entry == entry.toNat) = some f →
       let key := pageKey f.addr
       let u : State := { s with mem := { s.mem with faults := s.mem.faults.filter fun g => g.entry != f.entry } }
       let failed : State := ((u.mapCores fun c => (c.waitingOn key (key * 4096)).foldl (fun c a => c.abortTask a.1 a.2) c).ing.slots.filter
         fun x => x.blocked == some key).foldl (fun s x => s.ingestEvent 1 x.j x.step)
           (u.mapCores fun c => (c.waitingOn key (key * 4096)).foldl (fun c a => c.abortTask a.1 a.2) c)
       let slots := u.ing.slots.map fun (x : Slot) => if x.blocked == some key then { x with blocked := none } else x
       exec (.xlatFaultTimeout entry) s = .next failed.refillFaults ∧
       exec (.xlatRespUnresolvable entry) s = .next failed.refillFaults ∧
       exec (.xlatRespRetry entry) s = .next (s.retryPage f) ∧
       ((∀ (p : Fin 20) (t : Machine.Task) (st : Stage) (r : Req), t ∈ (s.core p).tasks → st ∈ t.stages → r ∈ st.reqs →
           r.waitsOn key = true → u.mem.faultPage r.waitAt 1 r.write = none) →
         s.retryPage f = (({ u with ing := { u.ing with slots } } : State).mapCores fun c => c.mapReqs fun r =>
           if r.waitsOn key then { r with held := false, cause := if inScree r.addr then 9 else 0, entry := u.mem.entryOf r.addr }
           else r).refillFaults))) ∧
  -- the walk of Table 10.4, and the TLB
  (∀ (m : MemSys) (a : Nat) (write : Bool),
     let page := (a - hostBase) / 4096
     let open_ (e : Nat) : Prop := bitAt e 0 = true ∧ (write = true → bitAt e 1 = true)
     (inScree a = true →
       let e := entryAt m.screePages ((a - screeBase) / 2097152)
       (open_ e → bitsAt e 4 17 = 0 → bitsAt e 37 27 = 0 →
         m.translate a write = some (.scree (bitsAt e 2 2 * 2 ^ 37 + bitsAt e 21 16 * 2097152 + a % 2097152))) ∧
       (¬open_ e ∨ bitsAt e 4 17 ≠ 0 ∨ bitsAt e 37 27 ≠ 0 → m.translate a write = none)) ∧
     (inHost a = true →
       let e := entryAt m.hostPages page
       let up : Prop := ∀ level < 3, bitAt (m.dirOf level page) 0 = true ∧ bitsAt (m.dirOf level page) 1 11 = 0 ∧
         bitsAt (m.dirOf level page) 48 16 = 0
       (up → open_ e → bitsAt e 2 10 = 0 → m.translate a write = some (.host (bitsAt e 12 52 * 4096 + a % 4096))) ∧
       (¬up ∨ ¬open_ e ∨ bitsAt e 2 10 ≠ 0 → m.translate a write = none)) ∧
     ∀ (level i : Nat) (e : DWord), level < 3 → (level, i / 2 ^ (27 - 9 * level), e) ∈ m.hostDirs →
       (∀ x ∈ m.hostDirs, x.1 = level → x.2.1 = i / 2 ^ (27 - 9 * level) → x.2.2 = e) → m.dirOf level i = e.toNat) ∧
  (∀ (s : State) (a : Nat),
     (s.mem.tlb.contains (pageKey a) = true → s.tlbLook a = s) ∧
     (s.mem.tlb.contains (pageKey a) = false →
       ((s.mem.translate a false).isSome = false →
         s.tlbLook a = { s with mem := { s.mem with tlbMisses := s.mem.tlbMisses + 1 } }) ∧
       ((s.mem.translate a false).isSome = true → s.mem.tlb.length ≤ 8192 →
         let tlb := (if s.mem.tlb.length < 8192 then s.mem.tlb else s.mem.tlb.drop 1) ++ [pageKey a]
         s.tlbLook a = { s with mem := { s.mem with tlbMisses := s.mem.tlbMisses + 1, tlb } }))) ∧
  (∀ (s : State),
     exec .tlbInvalidateAll s = .next { s with mem := { s.mem with tlb := [] } } ∧
     (∀ page : BitVec 36, exec (.tlbInvalidatePage page) s =
       .next { s with mem := { s.mem with tlb := s.mem.tlb.filter fun k => k != pageKey (page.toNat * 4096) } }) ∧
     (∀ channel : Fin 24, bitAt s.mem.channels.toNat channel.val = false → exec (.gddr7Refresh channel) s = .next s) ∧
     (∀ channel : Fin 24, bitAt s.mem.channels.toNat channel.val = true →
       exec (.gddr7Refresh channel) s = .next
         (({ s with mem := { s.mem with refreshes := s.mem.refreshes.set channel (s.mem.refreshes[channel] + 1) } } : State).mapCores
           fun c => c.mapReqs fun r =>
             if (r.tile = false ∧ r.held = false ∧ r.cause = 0 ∧ r.addr < s.mem.usable) ∧
                s.mem.channelList.getD (r.addr / 4096 % s.mem.channelCount) 24 = channel.val then { r with cause := 3 } else r)) ∧
     (∀ a x, (s.mem.place a = .gddr x → s.correctDev [a] = (s.modMem fun m => { m with g7Corr := m.g7Corr + 1 }).charge
          (s.mem.channelList.getD (x / 4096 % s.mem.channelCount) 0) 1 0 0) ∧
       (s.mem.place a = .staging x → s.correctDev [a] = (s.modMem fun m => { m with stgCorr := m.stgCorr + 1 }).charge
          (44 + x / 12582912) 1 0 0)) ∧
     (∀ (channel : Fin 24) (line : Nat) (sectors : Fin 3) (ecc : Ecc),
       let s1 := if line + 1 = 0x3E00000 then s.modMem fun m => { m with
         onDie := m.onDie.set channel (Config.onDieErrors channel.val m.passes[channel]),
         passes := m.passes.set channel (m.passes[channel] + 1) } else s
       (s.mem.lineAddr channel.val line = none → exec (.patrolScrub channel line sectors ecc) s = .next s) ∧
       ∀ a, s.mem.lineAddr channel.val line = some a →
         (s.mem.gddrBad.contains (a / 64) = true ∨ ecc = .uncorrectable →
           exec (.patrolScrub channel line sectors ecc) s = .next ((s1.spoil a).countUnc a)) ∧
         (s.mem.gddrBad.contains (a / 64) = false → ecc = .corrected → exec (.patrolScrub channel line sectors ecc) s =
           .next ((s1.soften ((List.range sectors.val).map fun i => a + 32 * i)).meetDev false a 64)) ∧
         (s.mem.gddrBad.contains (a / 64) = false → ecc = .clean →
           exec (.patrolScrub channel line sectors ecc) s = .next (s1.meetDev false a 64))) ∧
     (∀ (p : Fin 20) (word : Nat) (ecc : Ecc) (v : VCore), (s.core p).v = some v → word < 2621440 → v.tileBad.contains word = true →
       exec (.tileMemoryScrub p word ecc) s = .next (s.charge (24 + p.val) 0 1 0)) ∧
     (∀ (p : Fin 20) (word : Nat) (v : VCore), (s.core p).v = some v → word < 2621440 → v.tileBad.contains word = false →
       let corrected : State := ((s.modV p fun v => { v with tileSoft := v.tileSoft.filter (· != word) }).modCore p
         fun c => { c with tmCorr := c.tmCorr + 1 }).charge (24 + p.val) 1 0 0
       exec (.tileMemoryScrub p word .corrected) s = .next corrected ∧
       exec (.tileMemoryScrub p word .uncorrectable) s = .next ((s.modV p fun v =>
         { v with tileBad := v.tileBad ++ [word], tileSoft := v.tileSoft.filter (· != word) }).charge (24 + p.val) 0 1 0) ∧
       exec (.tileMemoryScrub p word .clean) s = .next (if v.tileSoft.contains word then corrected else s)))

/-- Flits on a port that is up: corrected symbols and uncorrectable codewords count, a good flit in order is accepted; a flit that
is bad where the next one is due asks for replay from there, and what follows a discarded flit asks once (R313, R315). A replay
request counts and sends the kept flits again, the 64th of one flit starts a retrain, as do a flit-accept timeout and a write of
the retrain field in Imago (R313, R318). A request for replay goes out only with light on the port's lanes (R453). -/
def Obligations.FlitsArriveInOrder : Prop :=
  ∀ (s : State) (port : Fin 8),
    let n := port.val
    let q := s.port n
    q.state = .up →
    (∀ (seq : BitVec 12) (crcOk : Bool) (codewords symbols : Nat),
     let s1 := (s.modPort n fun q => { q with fec := q.fec + symbols, unc := q.unc + codewords }).charge (48 + n) symbols codewords 0
     let good := crcOk = true ∧ codewords = 0
     (good → seq = q.rxSeq →
       exec (.flitReceive port seq ⟨crcOk, codewords⟩ symbols) s = .next (s1.modPort n fun q => { q with rxSeq := q.rxSeq + 1, asking := false })) ∧
     (good → seq ≠ q.rxSeq → q.asking = true → exec (.flitReceive port seq ⟨crcOk, codewords⟩ symbols) s = .next s1) ∧
     (¬ good → seq ≠ q.rxSeq → q.asking = true → exec (.flitReceive port seq ⟨crcOk, codewords⟩ symbols) s = .next s1) ∧
     ((good → seq ≠ q.rxSeq) → q.asking = false ∨ (¬ good ∧ seq = q.rxSeq) →
       exec (.flitReceive port seq ⟨crcOk, codewords⟩ symbols) s =
         .next ((s1.modPort n fun q => { q with asking := true }).emitPort n (.replayAsk n q.rxSeq)))) ∧
    (∀ seq : BitVec 12,
     let again := if q.replays ≠ 0 ∧ q.replaySeq = seq then q.replays + 1 else 1
     let s1 := ((s.modPort n fun q => { q with retry := q.retry + 1, replaySeq := seq, replays := again }).charge (56 + n) 1 0 0).emitPort n
        (.replaySend n (q.kept.dropWhile fun f => f.seq != seq))
     (again < 64 → exec (.replayRequest port seq) s = .next s1) ∧
     (64 ≤ again → exec (.replayRequest port seq) s = .next (s1.retrain n))) ∧
    (let s1 := (s.modPort n fun q => { q with state := .retraining, asking := false, replays := 0 }).charge (56 + n) 0 1 0
     exec (.flitAcceptTimeout port) s = .next s1 ∧ exec (.portRetrain port) s = .next (if s.pow.boot = .imago then s1 else s))

/-- What training reaches: the lowest groups that trained, as many as max_width allows, at the highest version common to both
ranges; a port with no group or no common version does not come up (R316, R317). -/
def Obligations.TrainingOutcome : Prop :=
  ∀ (q : Port) (t : TrainResult),
    let lo := max t.peerMin (if q.v2Allow then 2 else 3)
    let hi := min t.peerMax 3
    let n := ((List.range 4).filter fun g => bitAt t.groups.toNat g).length
    let k := min n (4 - q.maxWidth.toNat)
    (k = 0 → q.trainOutcome t = .inr (if q.state = .retraining then 4 else 1)) ∧
    (k ≠ 0 → hi < lo → q.trainOutcome t = .inr 2) ∧
    (k ≠ 0 → lo ≤ hi → ∃ m, q.trainOutcome t = .inl (m, hi == 3) ∧
      ((List.range 4).filter fun g => bitAt m g).length = k ∧
      (∀ g < 4, bitAt m g = true → bitAt t.groups.toNat g = true ∧
        ∀ h < g, bitAt t.groups.toNat h = true → bitAt m h = true))

/-- A port comes up as its training ends or is marked down; a lane group without light does not train (R316 to R318, R453). The
packets that waited go out, checkpoint traffic first (R311), or are dropped where the link's version does not carry them (R317), a
forwarded one counted at the port on which it came in (R321). Setting enable starts a
full training, of a port that is down only while no job on the device lists the rank that it reaches; clearing it marks the port
down with reason 5; eight silent periods mark it down with reason 3 (R319, R335). Heartbeats: each up port with light sends one,
each monitored live port counts a period more, up to 8; a heartbeat received brings the count back to 0 and stores the neighbour
and its state (R335); a heartbeat is a flit that the link layer numbers and keeps as any other (R313; its layout is log 65).
What an operand of training says, reason 5 and when a member counts as unreachable are the model's choices (log 40), and that a
HEARTBEAT_SEND stands for one period is its reading (log 42). -/
def Obligations.PortsTrainAndFail : Prop :=
  (∀ (s : State) (port : Fin 8),
     let n := port.val
     let q := s.port n
     (∀ (result : TrainResult), q.state = .training ∨ q.state = .retraining →
       let lit := { result with groups := result.groups &&& s.pow.litGroups n }
       (∀ reason, q.trainOutcome lit = .inr reason → exec (.portTrained port result) s = .next (s.markDown n reason)) ∧
       (∀ groups v3, q.trainOutcome lit = .inl (groups, v3) →
         let k := ((List.range 4).filter fun g => bitAt groups g).length
         let s1 := s.modPort n fun q =>
           { q with state := .up, width := BitVec.ofNat 2 (4 - k), v3, degraded := decide (k < 4), reason := 0,
                    groups := BitVec.ofNat 4 groups, rxSeq := 0, txSeq := 0, kept := [], replaySeq := 0, asking := false, replays := 0,
                    missed := if q.monitored then q.missed else 0, monitored := true, starved := false }
         let s2 := (s1.dropWaiting n fun w => !v3 && w.v3).flushPort n
         exec (.portTrained port result) s = .next ((s2.notice n).postPort n).checkReach)) ∧
     (q.enable = false → s.fab.usesPort n = true →
       (q.state = .off ∨ (q.state = .down ∧ (s.pow.boot = .imago → s.jobReaches n = false)) → exec (.portEnable port) s = .next
         (s.modPort n fun q => { q with enable := true, state := .training, reason := 0, monitored := false })) ∧
       (q.state = .down → s.pow.boot = .imago → s.jobReaches n = true → exec (.portEnable port) s = .next s)) ∧
     (q.enable = true → exec (.portEnable port) s = .next s ∧
       (q.state ≠ .off → q.state ≠ .down →
         exec (.portDisable port) s = .next ((s.modPort n fun q => { q with enable := false }).markDown n 5)) ∧
       (q.state = .off ∨ q.state = .down → exec (.portDisable port) s = .next (s.modPort n fun q => { q with enable := false }))) ∧
     (q.enable = false → exec (.portDisable port) s = .next s) ∧
     (q.monitored = true → (q.state = .up ∨ q.state = .retraining) → 8 ≤ q.missed →
       exec (.heartbeatLoss port) s = .next (s.markDown n 3)) ∧
     (q.missed < 8 → exec (.heartbeatLoss port) s = .next s) ∧
     (∀ lost : Waiting → Bool, let gone := q.sendq.filter lost
       ((s.dropWaiting n lost).port n).sendq = q.sendq.filter (fun w => !lost w) ∧
       ∀ a : Fin 8, (s.dropWaiting n lost).fab.ports[a].drop =
         s.fab.ports[a].drop + (gone.filter fun w => w.arrival == some a.val).length) ∧
     (s.portWaits n = false → q.starved = false → q.sendq ≠ [] →
       let go := q.sendq.map (·.packet)
       s.flushPort n = (s.modPort n fun q => { q with sendq := [] }).linkOut n
         (go.filter isCheckpoint ++ go.filter fun p => !isCheckpoint p)) ∧
     (s.portWaits n = true → s.flushPort n = s)) ∧
  (∀ (s : State),
     (∃ t, exec .heartbeatSend s = .next t ∧
       t.out = s.out ++ ((List.range 8).filter fun n => (s.port n).state == .up && s.shines n).map
         (fun n => OutMsg.heartbeat n s.ownAddr s.beatState (s.fab.heartbeats % 4294967296)) ∧
       t.fab.heartbeats = s.fab.heartbeats + 1 ∧ ∀ n : Fin 8,
         let q := if (s.fab.ports[n].state == .up && s.shines n.val) = true
           then s.fab.ports[n].number [beatBody s.ownAddr.toNat s.beatState (s.fab.heartbeats % 4294967296)] else s.fab.ports[n]
         t.fab.ports[n] = if q.monitored && (q.state == .up || q.state == .retraining) then { q with missed := min 8 (q.missed + 1) } else q) ∧
     (∀ (port : Fin 8) (neighbour : BitVec 15) (state : BitVec 2) (count : Word),
       (s.fab.ports[port].state = .up → exec (.heartbeatReceive port neighbour state count) s = .next
         { s with fab := { s.fab with ports := s.fab.ports.set port { s.fab.ports[port] with neighbour, nstate := state, missed := 0 } } }) ∧
       (s.fab.ports[port].state ≠ .up → exec (.heartbeatReceive port neighbour state count) s = .next s)))

/-- A packet on a port that is up is dropped and counted when its header is bad, its job does not run here or its next hop is
not open to it; a data packet does not come in while its channel's buffer is full (R326), and a control-plane message of a reserved kind is
dropped and counted once (R336); one for this device stays, any other goes out on its next hop, on that hop's virtual channel, or waits in
the send queues of a port that retrains, has a dark lane or is without credits (R314, R317, R318, R321, R322, R453). Where the datelines
lie, and how a packet is cut into flits, is the model's choice (log 65).
Which packet types the test for a job that does not run here takes is the model's reading (log 41). -/
def Obligations.PacketsAreRouted : Prop :=
  ∀ (s : State) (port : Fin 8) (packet : List Byte),
    let drop := s.modPort port.val fun q => { q with drop := q.drop + 1 }
    let own := s.ownAddr.toNat
    let dst := natAt packet 2 2
    let type := natAt packet 0 1 % 16
    let runs := (s.job.state = .running ∨ s.job.state = .paused) ∧ natAt packet 8 4 = s.job.id.toNat
    let full := onData packet = true ∧ s.fab.rxRoom port.val (bitsAt (natAt packet 0 1) 4 2) = false
    let reserved := type = pktControl ∧ (natAt packet 32 1 = 0 ∨ 6 ≤ natAt packet 32 1)
    let ctl := ctlOf (packet.drop 32)
    ((s.port port.val).state ≠ .up ∨ full → exec (.packetReceive port packet) s = .next s) ∧
    ((s.port port.val).state = .up → ¬ full →
      (headerOk packet = true → reserved →
        (s.freshCtl port.val ctl = true → exec (.packetReceive port packet) s = .next
          { s with fab := { s.fab.remember ctl.origin.toNat ctl.seq with noticeDrops := s.fab.noticeDrops + 1 } }) ∧
        (s.freshCtl port.val ctl = false → exec (.packetReceive port packet) s = .next s)) ∧
      (headerOk packet = false → exec (.packetReceive port packet) s = .next drop) ∧
      (headerOk packet = true → ¬ runs → type ≠ pktControl → type ≠ pktCheckpoint →
        exec (.packetReceive port packet) s = .next drop) ∧
      (headerOk packet = true → (runs ∨ type = pktControl ∨ type = pktCheckpoint) → ¬ reserved → dst = own →
        exec (.packetReceive port packet) s = .next s) ∧
      (headerOk packet = true → (runs ∨ type = pktControl ∨ type = pktCheckpoint) → ¬ reserved → dst ≠ own →
        (s.fab.nextPort own dst (natAt packet 1 1 % 8) = none → exec (.packetReceive port packet) s = .next drop) ∧
        ∀ next : Nat, s.fab.nextPort own dst (natAt packet 1 1 % 8) = some next →
          let q := s.port next
          let p := s.fab.onHop own next packet
          let opens := (q.state = .up ∨ q.state = .retraining) ∧ (needsV3 packet = true → q.v3 = true)
          (¬ opens → exec (.packetReceive port packet) s = .next drop) ∧
          let waits := s.portWaits next = true ∨ q.starved = true ∧ onData p = true
          let sent := if q.v3 then p else asV2 p
          (opens → ¬ waits → exec (.packetReceive port packet) s = .next
            { s with fab := { s.fab with ports := s.fab.ports.set! next (q.number (Config.flitBodies sent)) },
                     out := s.out ++ [OutMsg.packets (some next) [sent]] }) ∧
          (opens → waits → exec (.packetReceive port packet) s = .next
            (let kept := { q with sendq := q.sendq ++ [⟨p, needsV3 packet, some port.val⟩] }
             { s with fab := { s.fab with ports := s.fab.ports.set! next kept } }))))

/-- A route reaches its destination in the fewest hops of each dimension, whatever the order, and every device on it sends the
packet on along the rest of the same route (R322). -/
def Obligations.RoutesReachTheirDestination : Prop :=
  ∀ (f : Fabric) (src dst order : Nat),
    let D (d : Nat) : Nat := f.dims.getD d 1
    (∀ d < 3, coord src d < D d ∧ coord dst d < D d) → src < 32768 → dst < 32768 →
    let path := f.path src dst order
    let at_ (i : Nat) : Nat := (path.take i).foldl (fun a l => f.neighbourOf a l.2) src
    (∀ i (h : i < path.length), path[i].1 = at_ i ∧ path[i].2 < 6 ∧ f.path (at_ i) dst order = path.drop i) ∧
    at_ path.length = dst ∧
    path.length = ((List.range 3).map fun d =>
      let k := (coord dst d + D d - coord src d) % D d
      min k (D d - k)).sum

/-- A whole block of a SEND is acknowledged as written, mismatched or to a bad destination, and a block known already is
acknowledged again; one that the guard holds is kept in the receive buffer of its port and channel, and with that full nothing comes in (R324,
R326, R327). A contribution is checked, held and
acknowledged once; an open is remembered once and acknowledged (R324, R327, R329, R334). A mismatch or bad-destination acknowledge
aborts the task with cause 0x01 or 0x02; an open acknowledged lets the stage go on. Without an acknowledge a block or an open is
sent again, up to FAB_E2E.resends times, each resend counted, then the task aborts with cause 0x07 (R325). A replay job reads no port
(R282). The form of an open's or contribution's target is the model's (log 25, 65).
That every member sends its contribution to every other is the model's reading (log 47). -/
def Obligations.BlocksAreAcknowledged : Prop :=
  (∀ (s : State) (origin : BitVec 15) (job opId index : Word) (block : List Byte) (flags : BitVec 3) (params : List Byte),
     let b := Block.ofBytes block
     let ack (u : State) (outcome : Nat) (x y : Word) := u.sendAck origin.toNat opId.toNat index.toNat outcome x y
     let ackOpen (u : State) := u.sendAck origin.toNat opId.toNat 0xFFFFFFFF 1 0 0
     let known := s.fab.rx.find? fun o => o.origin == origin && o.opId == opId.toNat
     let once (key : Nat) (u : State) : State :=
       { u with fab := { u.fab with collSeen := u.fab.collSeen ++ [(origin.toNat, opId.toNat, key)] } }
     let place := s.rxPlace origin.toNat opId.toNat index.toNat
     (s.takes job = false ∨ s.job.replay = true → ∀ target, exec (.blockReceive origin job opId index target block flags) s = .next s ∧
       exec (.openReceive origin job opId target params) s = .next s) ∧
     (s.fab.rxRoom place.1 place.2 = false → ∀ target, exec (.blockReceive origin job opId index target block flags) s = .next s) ∧
     (s.takes job = true → s.job.replay = false → s.fab.rxRoom place.1 place.2 = true →
     (known = none → exec (.blockReceive origin job opId index .send block flags) s = .next (ack s 3 0 0)) ∧
     (∀ o, known = some o → index.toNat ∈ o.written →
       exec (.blockReceive origin job opId index .send block flags) s = .next (ack s 1 0 0)) ∧
     (∀ o, known = some o → index.toNat ∉ o.written →
       (crc32c b.data ≠ b.chk → exec (.blockReceive origin job opId index .send block flags) s =
         .next (ack s 2 b.chk (crc32c b.data))) ∧
       (crc32c b.data = b.chk → natAt o.params 8 4 ≤ index.toNat →
         exec (.blockReceive origin job opId index .send block flags) s = .next (ack s 3 0 0)) ∧
       (∀ s1, (s.receiveBlock o.params index.toNat b = (s1, .bad) →
           exec (.blockReceive origin job opId index .send block flags) s = .next (ack s1 3 0 0)) ∧
         (∀ x y, s.receiveBlock o.params index.toNat b = (s1, .mismatch x y) →
           exec (.blockReceive origin job opId index .send block flags) s = .next (ack s1 2 x y)) ∧
         (s.receiveBlock o.params index.toNat b = (s1, .wait true) →
           exec (.blockReceive origin job opId index .send block flags) s =
             .next ((s1.modRx origin opId.toNat fun o => { o with guarded := true }).keepRx
               ⟨place.1, place.2, origin, job, opId, index, .send, block, flags⟩ true)) ∧
         (s.receiveBlock o.params index.toNat b = (s1, .wait false) →
           exec (.blockReceive origin job opId index .send block flags) s = .next s1) ∧
         (s.receiveBlock o.params index.toNat b = (s1, .written) →
           let all := o.written.length + 1 == natAt o.params 8 4
           let s2 := ack (s1.modRx origin opId.toNat fun o =>
             { o with written := o.written ++ [index.toNat], signalled := all,
                      guarded := s1.fab.rxBuf.any fun g => g.origin == origin && g.opId == opId }) 1 0 0
           exec (.blockReceive origin job opId index .send block flags) s = .next (if all
             then s2.addTokenV (natAt o.params 2 2) (natAt o.params 4 1) (natAt o.params 6 2) else s2)))) ∧
     (∀ (group cid position : Nat) (form : CollForm),
       let member := ((s.job.members group).getD []).getD position 65536
       let seen := (origin.toNat, opId.toNat, index.toNat) ∈ s.fab.collSeen
       (seen → exec (.blockReceive origin job opId index (.coll group cid position form) block flags) s = .next (ack s 1 0 0)) ∧
       (¬ seen → crc32c b.data ≠ b.chk → exec (.blockReceive origin job opId index (.coll group cid position form) block flags) s =
         .next (ack s 2 b.chk (crc32c b.data))) ∧
       (¬ seen → crc32c b.data = b.chk → s.job.addrOf member ≠ origin.toNat ∨ s.job.position group = none →
         exec (.blockReceive origin job opId index (.coll group cid position form) block flags) s = .next (ack s 3 0 0)) ∧
       (¬ seen → crc32c b.data = b.chk → s.job.addrOf member = origin.toNat → s.job.position group ≠ none →
         exec (.blockReceive origin job opId index (.coll group cid position form) block flags) s =
           .next (ack ((once index.toNat s).receiveContrib group cid position index.toNat form b flags) 1 0 0)))) ∧
     (s.takes job = true → s.job.replay = false →
     (let o : RxOp := { origin, job, opId := opId.toNat, target := .send, params, written := [], signalled := false, guarded := false }
      known = none → exec (.openReceive origin job opId .send params) s =
        .next (ackOpen { s with fab := { s.fab with rx := s.fab.rx ++ [o] } })) ∧
     (known ≠ none → exec (.openReceive origin job opId .send params) s = .next (ackOpen s)) ∧
     (∀ (group cid position : Nat) (form : CollForm),
       let step := natAt params 4 4
       let seen := (origin.toNat, opId.toNat, 0xFFFFFFFF) ∈ s.fab.collSeen
       (seen → exec (.openReceive origin job opId (.coll group cid position form) params) s = .next (ackOpen s)) ∧
       (¬ seen → exec (.openReceive origin job opId (.coll group cid position form) params) s =
         .next (ackOpen ((((once 0xFFFFFFFF s).openColl group cid (BitVec.ofNat 32 step)).modColl group step cid fun c =>
           if c.opens.any fun o => o.1 == position then c else
             { c with opens := c.opens ++ [(position, natAt params 0 4)] }).showForm group step cid form)))))) ∧
  (∀ (s : State) (opId index : Word) (o : TxOp),
     let settled := s.modTx opId.toNat fun o => o.drop index.toNat
     let aborted := (s.txRun o).any fun r => r.t.abort.isSome
     let v3 := match o.target with
       | .send => false
       | .coll _ _ _ _ => true
     let counted (u : State) : State := { u with fab := { u.fab with resends := u.fab.resends + 1 } }
     (s.fab.tx.find? fun o => o.opId == opId.toNat) = some o →
     (s.job.replay = true → ∀ outcome, exec (.acknowledgeReceive opId index outcome) s = .next s) ∧
     (∀ b, s.job.replay = false → (o.blocks.find? fun b => b.index == index.toNat) = some b → index ≠ 0xFFFFFFFF →
       exec (.acknowledgeReceive opId index .badDestination) s =
         .next (settled.txFail o index.toNat b.block.id 2 0 0).sweepTx ∧
       (∀ x y, exec (.acknowledgeReceive opId index (.mismatch x y)) s =
         .next (settled.txFail o index.toNat b.block.id 1 x y).sweepTx)) ∧
     (s.job.replay = false → index ≠ 0xFFFFFFFF →
       let o' : TxOp := { o with blocks := o.blocks.map fun b => if b.index = index.toNat then { b with acked := true } else b }
       let s1 := s.modTx opId.toNat fun _ => o'
       (∀ r, o.target = .send → s1.txRun o = some r → exec (.acknowledgeReceive opId index .written) s =
         .next { r with t := { r.t with delivered := (o'.blocks.takeWhile fun (b : TxBlock) => b.acked).length } }.done) ∧
       (o.target ≠ .send ∨ s1.txRun o = none → exec (.acknowledgeReceive opId index .written) s = .next s1.sweepTx)) ∧
     (∀ r, s.job.replay = false → index = 0xFFFFFFFF → (s.modTx opId.toNat fun o => { o with opened := true }).txRun o = some r → r.t.abort = none →
       exec (.acknowledgeReceive opId index .written) s = .next (r.chain o.stage)) ∧
     (∀ b, index ≠ 0xFFFFFFFF → v3 = false → aborted = true →
       (o.blocks.find? fun b => b.index == index.toNat && b.sent && !b.acked) = some b →
       exec (.resendTimeout opId index) s = .next settled) ∧
     (∀ b, index ≠ 0xFFFFFFFF → v3 = true ∨ aborted = false →
       (o.blocks.find? fun b => b.index == index.toNat && b.sent && !b.acked) = some b →
       (s.fab.maxResends ≤ b.resends → exec (.resendTimeout opId index) s =
         .next (settled.txFail o index.toNat b.block.id 7 0 0).sweepTx) ∧
       (b.resends < s.fab.maxResends →
         let s1 := s.modTx opId.toNat fun o =>
           { o with blocks := o.blocks.map fun x => if x.index = b.index then { x with resends := x.resends + 1 } else x }
         (∀ t, s1.sendBlock o.dest o.opId b.index o.node v3 b.block = some t →
           exec (.resendTimeout opId index) s = .next (counted t)) ∧
         (s1.sendBlock o.dest o.opId b.index o.node v3 b.block = none → exec (.resendTimeout opId index) s =
           .next ((s1.modTx opId.toNat fun o => o.drop index.toNat).txFail o index.toNat b.block.id 7 0 0).sweepTx))) ∧
     (index = 0xFFFFFFFF → o.opened = false → v3 = true ∨ aborted = false →
       let lost := s.modTx opId.toNat fun o => { o with opened := true }
       let s1 := s.modTx opId.toNat fun o => { o with openResends := o.openResends + 1 }
       (s.fab.maxResends ≤ o.openResends → exec (.resendTimeout opId index) s = .next (lost.txFail o noDesc 0 7 0 0).sweepTx) ∧
       (o.openResends < s.fab.maxResends →
         ∀ t, s1.sendOpen o.dest o.opId v3 o.params = some t → exec (.resendTimeout opId index) s = .next (counted t))))

/-- The reduction tree: over n at least 2 contributions it combines the tree over the first ceil(n / 2) with the tree over the
rest, whatever fuel the fold is given beyond n (R331). -/
def Obligations.ReductionTree : Prop :=
  ∀ (combine : Node → Node → Node) (fuel : Nat) (xs : List Node), xs.length ≤ fuel →
    (∀ x, xs = [x] → treeFold combine fuel xs = some x) ∧
    (2 ≤ xs.length → ∃ a b,
      treeFold combine ((xs.length + 1) / 2) (xs.take ((xs.length + 1) / 2)) = some a ∧
      treeFold combine (xs.length - (xs.length + 1) / 2) (xs.drop ((xs.length + 1) / 2)) = some b ∧
      treeFold combine fuel xs = some (combine a b))

/-- A collective whose every member has contributed closes and delivers its outputs: to the next stage, or, in a last stage, which then writes
them through its output list (R207, R329, R331); one that is not ready changes nothing. A poisoned line among captured blocks aborts the task
with cause 0x04, a contribution whose check value its bytes do not have with cause 0x01 (R204, R282), members that differ with cause 0x03
(R329), and an output list in a translated region with cause 0x02. An exchange lists the writes of its outputs, or aborts with the cause that
R334 names. -/
def Obligations.CollectivesComplete : Prop :=
  (∀ (s : State) (group step cid : Nat) (c : Coll) (p : Fin 20) (t : Machine.Task) (pos : Nat),
    let prm := CollParams.of c.params
    let g := s.job.groupSize group
    let src := if s.job.replay then s.replayContribs t c else (s, c.contribs, none)
    let cs := src.2.1
    let r : TaskRun := { s := src.1, p, t }
    let closed : TaskRun := { r with s := r.s.dropColl group step cid }
    s.coll group step cid = some c → c.core = some p.val → s.task p c.task = some t → s.job.position group = some pos →
    (t.abort ≠ none ∨ (r.stage c.stage).phase ≠ 3 ∨ c.ready prm g pos s.job.replay cs = false →
      exec (.collectiveComplete group step cid) s = .next s) ∧
    (t.abort = none → (r.stage c.stage).phase = 3 → c.ready prm g pos s.job.replay cs = true →
      (∀ a, src.2.2 = some a → exec (.collectiveComplete group step cid) s = .next (r.fail c.stage noDesc 0 4 a).done) ∧
      (∀ x, src.2.2 = none → unsound cs = some x → exec (.collectiveComplete group step cid) s =
        .next (r.fail c.stage x.index x.block.id 1 0 x.block.chk (crc32c x.block.data)).done) ∧
      (src.2.2 = none → unsound cs = none → prm.op ≠ 4 →
        (collOutputs prm c.arrival s.job.ftz g pos t.step cs = none →
          exec (.collectiveComplete group step cid) s = .next (closed.fail c.stage noDesc 0 3).done) ∧
        (∀ outs fl, collOutputs prm c.arrival s.job.ftz g pos t.step cs = some (outs, fl) →
          let r1 := ((closed.captureRx c pos).flags fl).deliverColl c.stage outs
          (r1.t.abort ≠ none → exec (.collectiveComplete group step cid) s = .next r1.done) ∧
          (r1.t.abort = none → exec (.collectiveComplete group step cid) s = .next (r1.chain (c.stage + 1))))) ∧
      (src.2.2 = none → unsound cs = none → prm.op = 4 →
        (∀ cause a, closed.exchangePlan c.stage g cs = .inr (cause, a) →
          exec (.collectiveComplete group step cid) s = .next (closed.fail c.stage noDesc 0 cause a).done) ∧
        (∀ ws n, closed.exchangePlan c.stage g cs = .inl (ws, n) →
          exec (.collectiveComplete group step cid) s = .next ((closed.captureRx c pos).modStage c.stage fun st =>
            { st with phase := 4, fin := n, xfers := s.writeXfers (ws.map fun w => (w, none)) }).done)))) ∧
  ∀ (r : TaskRun) (i : Nat) (outs : List Block),
    let list := locOf (r.stage i).raw 24
    (r.isLast i = false → r.deliverColl i outs =
      ((outs.foldl (fun r b => r.push i b) r).modStage i fun st => { st with phase := 5 }).endStage i) ∧
    (∀ a, r.isLast i = true → r.s.job.mustBeLocal [list.1] = some a → r.deliverColl i outs = r.fail i noDesc 0 2 a) ∧
    (r.isLast i = true → r.s.job.mustBeLocal [list.1] = none → ∃ r1, r.deliverColl i outs = r1 ∧ r1.s = r.s ∧
      (i < r.t.stages.length → (r1.stage i).phase = 4 ∧ (r1.stage i).inq = outs ∧ (r1.stage i).next = 0 ∧
        ((r.stage i).kind = .coll → (CollParams.of (r.stage i).raw).op ≠ 4 →
          r1.list i = some (list.1, list.2, r.s.job.collOut (CollParams.of (r.stage i).raw)))))

/-- CHKSET writes a bound set in force from issue + 4 on, and a reserved value of the record is fault 0x01; CNTRD.U puts a counter
register of its core into tile memory and marks its virtual core; an address outside the regions is fault 0x02 (R182, R189, R190,
R340). The earliest verdict of a core: a unit that passes leaves no record, a trip counts; a recheckable trip stops the core and
queues its arbitration, any other asks for rollback (R343, R345, R349). Arbitration: equal runs are a false alarm; a difference
without a spare, or the third run, decides by Table 12.3, and the flags that a run raises stay set (R71); the resume lets a core
with nothing left to arbitrate issue again without rotation (R345, R346, R348).
Firmware's begin and end of a run are commands of their own, and how the third run's spare is filled is the model's (log 55). Latency audit: a read that would take a
value before its visible cycle is fault 0x0A with the visible cycle; the address it shows is the model's choice (R195, log 70). Race audit: two
strands' accesses to one granule or register within 4,096 cycles, one a write, make a record with both strands' token operations between
them, or raise the count of those that find no room (R196).
Where a field test's code lies, and that its trips only count, is the model's choice (log 28). -/
def Obligations.ChecksTrip : Prop :=
  -- the two audits
  (∀ (c : Core) (reads : List Access),
     (c.earlyRead reads = none ↔ ∀ r ∈ reads, ∀ w ∈ c.tags, w.write = true → w.meets r r.space.grain = true → w.visible ≤ r.cycle) ∧
     ∀ info, c.earlyRead reads = some info → ∃ r ∈ reads, ∃ w ∈ c.tags, w.write = true ∧ w.meets r r.space.grain = true ∧ r.cycle < w.visible ∧
       info = (if r.space = .acc then 4 * r.lo else r.lo) % 4294967296 + 4294967296 * (w.visible % 4294967296)) ∧
  (∀ (s : State) (p : Fin 20) (k : Fin 128) (opcode : Nat) (reads writes : List Access) (go : State → State),
     (∀ info, s.job.latAudit = true → (s.core p).earlyRead reads = some info →
       s.audit p k opcode reads writes go = s.fault p k 0x0A opcode info) ∧
     (s.job.latAudit = false ∨ (s.core p).earlyRead reads = none →
       s.audit p k opcode reads writes go = go (s.noteAccesses p (reads ++ writes)))) ∧
  (∀ a b : Access, a.races b = true ↔
     (a.space = b.space ∧ (a.space = .tile ∨ a.space = .treg ∨ a.space = .stepTag)) ∧
     (∃ x y, a.lo ≤ x ∧ x < a.lo + a.len ∧ b.lo ≤ y ∧ y < b.lo + b.len ∧ x / a.space.raceGrain = y / a.space.raceGrain) ∧
     a.strand ≠ b.strand ∧ (a.write = true ∨ b.write = true) ∧ a.cycle ≤ b.cycle + 4096 ∧ b.cycle ≤ a.cycle + 4096) ∧
  (∀ (c : Core) (news : List Access),
     { c.auditRaces news with raceDue := c.raceDue } = c ∧
     (∀ x, x ∈ (c.auditRaces news).raceDue ↔ x ∈ c.raceDue ∨ ∃ n ∈ news, ∃ a ∈ c.tags, a.races n = true ∧ x = ⟨a, n, []⟩) ∧
     let past (x : RacePair) : Bool := decide (x.first.cycle < c.cycle) && decide (x.second.cycle < c.cycle)
     (∀ x ∈ c.settleRaces.races, x ∈ c.races ∨ ∃ y ∈ c.raceDue, past y = true ∧ x.first = y.first ∧ x.second = y.second ∧
       ∀ o, o ∈ x.ops ↔ o ∈ c.tokenOps ∧ (o.strand = y.first.strand ∨ o.strand = y.second.strand) ∧
         min y.first.cycle y.second.cycle ≤ o.cycle ∧ o.cycle ≤ max y.first.cycle y.second.cycle) ∧
     c.settleRaces.racesLost + c.settleRaces.races.length = c.racesLost + c.races.length + (c.raceDue.filter past).length ∧
     (c.races.length ≤ Config.traceRoom → c.settleRaces.races.length ≤ Config.traceRoom) ∧
     c.settleRaces.raceDue = c.raceDue.filter fun x => !past x) ∧
  (∀ (s : State) (p : Fin 20) (k : Fin 128) (ops : BitVec 118) (v : VCore) (t : Nat),
     let st := v.strands[k]
     let x := s.vcoreAt p v t
     let s0 := s.advance p t
     (let w := wordOf ops 0x060
      let a := taAt w st.x 25
      let set := fld w 24 1
      let read := Access.read .tile a.toNat 32 (t + 1) k st.pc
      let s1 := s0.readNow p [read]
      let y := s1.vNow p x
      let s2 := s1.noteAccesses p [read]
      let bytes := (s2.core p).tileAt y a.toNat 32 (t + 1)
      s.Runs p k w v t false .none (fun _ _ st => [alignedTo (taAt w st.x 25) 64 25, resvFrom w 47]) →
      (∀ b, x.rangeFault [(a, 32)] .read = some b → exec (.chkset p k ops) s = .next (s0.fault p k 2 0x060 (infoAddr b))) ∧
      (x.rangeFault [(a, 32)] .read = none →
        (∀ f, y.badAccess read = some f → exec (.chkset p k ops) s = .next (s1.fault p k f.1 0x060 f.2)) ∧
        (y.badAccess read = none → s1.Clear p [read] →
          (∀ b, boundsFault bytes (set == 1) = some b → exec (.chkset p k ops) s = .next (s2.fault p k 1 0x060 (65536 + b))) ∧
          (boundsFault bytes (set == 1) = none → exec (.chkset p k ops) s = .next ((s2.modV p fun v =>
            { v with bounds := v.bounds.set! set { cur := Bounds.ofRecord bytes, prev := (y.bounds[set]!).at t, since := t + 4 } }).commit
               p k t))))) ∧
     (let w := wordOf ops 0x202
      let a := waAt w st.x 36
      let off := 8 * fld w 24 12
      let wr := Access.put .tile a.toNat 8 (t + 3) (t + 4) k st.pc
      s.Runs p k w v t true .none
        (fun c _ st => [(c.counterRows.any fun r => r.1 == off, 24), alignedTo (waAt w st.x 36) 8 36, resvFrom w 61]) →
      (∀ y, x.rangeFault [(a, 8)] .write = some y → exec (.cntrdU p k ops) s = .next (s0.fault p k 2 0x202 (infoAddr y))) ∧
      (x.rangeFault [(a, 8)] .write = none → exec (.cntrdU p k ops) s = .next ((((((s0.noteAccesses p [wr]).arrive p [wr]).modCore p fun c =>
        c.putTile a.toNat (bytesOf 8 (regValue c.counterRows off)) wr).leave p [wr]).noteClassV p).commit p k t)))) ∧
  (∀ (s : State) (p : Fin 20) (d : Verdict),
     let c := s.core p
     let rest : Core := { c with verdicts := c.verdicts.erase d }
     let t := max c.cycle d.cycle
     let s1 := (s.setCore p rest).advanceWaiting p t
     let s2 := s1.modCore p fun c => { c with tripCnt := c.tripCnt + 1, tripSet := d.set == 1, tripReasons := BitVec.ofNat 4 d.reasons }
     c.firstVerdict = some d → rest.overdue t = false →
     (d.reasons = 0 → exec (.checkerVerdict p) s = .next s1) ∧
     (d.reasons ≠ 0 → (s2.core p).test ≠ none ∨ (s2.core p).recheck ≠ none → exec (.checkerVerdict p) s = .next s2) ∧
     (d.reasons ≠ 0 → (s2.core p).test = none → (s2.core p).recheck = none →
       (d.recheckable = true → exec (.checkerVerdict p) s = .next
         (let run1 := ((s2.core p).v.map fun v => v.readTile d.dst d.len).getD []
          (s2.modCore p fun c => { c.stop with chkStop := true }).queueArb ⟨p.val, d, run1, none⟩)) ∧
       (d.recheckable = false → exec (.checkerVerdict p) s =
         .next ((s2.pauseAll 3).post 0x0C02 (arbPayload d c.vnum p.val 0xFF 0 false d.crc 0 0))))) ∧
  (∀ (s : State) (p : Fin 20) (a : Arb) (rest : List Arb) (r : Recheck),
     let c := s.core p
     s.chk.arbs = a :: rest → a.core = p.val → s.recheckOf p a.verdict = some r →
     (a.run2 = none → c.recheck = none →
       (∀ s1, s.quiesced p = some s1 → exec (.recheckRun p .begins) s =
         .next ((s1.modCore p fun c => { c with rotate := true, recheck := c.v.map fun v => v.strands }).modV p fun v =>
           { v with strands := r.strands })) ∧
       (s.quiesced p = none → exec (.recheckRun p .begins) s = .next s)) ∧
     (∀ strands, c.recheck = some strands →
       (s.scratchOf p r = none → exec (.recheckRun p .ends) s = .next s) ∧
       (∀ s1 run2, s.scratchOf p r = some (s1, run2) →
         let s2 := (s1.modCore p fun c => { c with recheck := none }).modV p fun v => { v with strands }
         (run2 = a.run1 → exec (.recheckRun p .ends) s = .next (s2.arbDone p a run2 none 0xFF 1)) ∧
         (run2 ≠ a.run1 → s2.hasSpare = false → exec (.recheckRun p .ends) s = .next (s2.arbDone p a run2 none 0xFF 5)) ∧
         (run2 ≠ a.run1 → s2.hasSpare = true → exec (.recheckRun p .ends) s =
           .next { s2 with chk := { s2.chk with arbs := { a with run2 := some run2 } :: rest } }))) ∧
     (∀ run2, a.run2 = some run2 → s.thirdOn = none →
       (∀ spare v, s.idleSpare = some spare → c.v = some v → ∀ e u, s.fresh = (e, u) →
         let x := r.context v e
         exec (.thirdRun p .begins) s = .next ((u.powerCore spare).modCore spare fun c =>
           { c.afterReset c.kind with v := some x, ibuf := x.preload, test := some ⟨0, 0, [], none, true⟩ })) ∧
       (s.idleSpare = none → exec (.thirdRun p .begins) s =
         .next (if s.hasSpare then s else s.arbDone p a run2 none 0xFF 5))) ∧
     (∀ run2 (spare : Fin 20), a.run2 = some run2 → s.thirdOn = some spare →
       (s.scratchOf spare r = none → exec (.thirdRun p .ends) s = .next s) ∧
       (∀ s1 run3, s.scratchOf spare r = some (s1, run3) →
         let flags := ((s1.core spare).v.map fun v => v.flags).getD .none
         exec (.thirdRun p .ends) s = .next (((s1.modCore spare fun c => c.afterReset c.kind).modV p fun v => v.addFlags flags).arbDone
           p a run2 (some run3) spare.val (if run3 = a.run1 then 2 else if run3 = run2 then 3 else 4))))) ∧
  (∀ (s : State) (p : Fin 20) (a : Arb) (rest : List Arb), s.chk.arbs = a :: rest → a.core = p.val →
     exec (.chkResume p) s = .next s ∧
     (∀ s1 : State, (s1.core p).chkStop = true → (∀ b ∈ s1.chk.arbs, b.core ≠ p.val) →
       exec (.chkResume p) s1 = .next (s1.modCore p fun c => { c with chkStop := false, rotate := false })))

/-- A core's faults are answered in turn, the recorded one first, each by its class: class R resubmits the task once or rolls back, class J
rolls back, classes P and the rest report (R351, Table 12.5; that a resubmission does not follow a rollback or a paused job, log 45);
clearing CORE_FAULT.valid clears every field of it and lets the core issue (R192, R201).
Virtual cores move: to an idle spare from a held MIGRATE point of a core whose field test is due or that leaves service, out of a
core that leaves service, and to and fro between a core and its oversubscribed pair; a core without one leaves service at once
(R33, R199, R306, R347, R358, R405).
How a virtual core that has ended counts at a swap, when a bucket is charged and when a spare becomes active are the model's readings (log 23, 46, 66). -/
def Obligations.FaultsAndMoves : Prop :=
  (∀ (s : State) (p : Fin 20),
     let c := s.core p
     (c.faultValid = true → c.test = none →
       (c.answer = none → exec (.faultResubmission p) s = .next (s.answerFault p false)) ∧
       (∀ a, c.answer = some a →
         (a < 2 ∨ c.later = [] → exec (.faultResubmission p) s = .next s) ∧
         (∀ f fs, 2 ≤ a → c.later = f :: fs → exec (.faultResubmission p) s =
           .next ((s.modCore p fun c => { c with acted := some f, later := fs }).answerFault p (decide (2 < a)))))) ∧
     (let code := c.current.code
      let cause := c.faultCause
      let s1 := (s.pauseAll 2).chargeFault p code
      let back := ((s1.modCore p fun c => { c with answer := some 3 }).postFault p .r 3).rollbackFault p
      let job := ((s1.modCore p fun c => { c with answer := some 3 }).postFault p .j 3).rollbackFault p
      let stays := (s1.modCore p fun c => { c with answer := some 4 }).postFault p .p 4
      (code ∈ [1, 2, 3, 4, 5, 6, 8, 0xA, 0xC, 0xE] → ∀ ended, s.answerFault p ended = stays) ∧
      (code = 9 ∨ code = 0xB → ∀ ended, s.answerFault p ended = job) ∧
      (code = 7 → s.answerFault p false = s1.tryAgain p 1 ∧ s.answerFault p true = back) ∧
      (code = 0xD →
        (cause = 1 → s.answerFault p false = s1.tryAgain p cause ∧ s.answerFault p true = back) ∧
        (cause = 6 → s.answerFault p true = back ∧
          (s1.linksUp = true → s.answerFault p false = s1.tryAgain p cause) ∧
          (s1.linksUp = false → s.answerFault p false = s1.modCore p fun c => { c with answer := some 0 })) ∧
        (cause = 4 ∨ cause = 7 → ∀ ended, s.answerFault p ended = job) ∧
        (cause ∉ [1, 4, 6, 7] → ∀ ended, s.answerFault p ended = stays))) ∧
     exec (.coreFaultClear p) s = .next (s.modCore p fun c =>
       { c with faultStop := false, faultCode := 0, faultStrand := 0, faultValid := false, faultOpcode := 0, faultPc := 0,
                faultMore := 0, faultInfo := 0, later := [], acted := none, answer := none })) ∧
  (∀ (s : State) (p : Fin 20),
     let c := s.core p
     (∀ d : Fin 20, let e := s.core d
       c.hold = .migrate → c.test = none → e.idleSpare = true →
       (c.leaving ≠ none ∨ (s.dueOn p ≠ none ∧ s.chk.arbs = []) →
         exec (.moveToSpare p d) s = .next (s.moveV p d (if c.leaving.isSome then .out else .spare)).startTests) ∧
       (c.leaving = none → s.dueOn p = none ∨ s.chk.arbs ≠ [] → exec (.moveToSpare p d) s = .next s)) ∧
     (∀ reason, c.leaving = some reason →
       (c.v = none → c.saved = none → c.test = none → exec (.quarantine p) s = .next (s.takeOut p reason)) ∧
       (∀ v d, c.v = some v → c.hold = .migrate → c.test = none → s.idleSpare = some d →
         exec (.quarantine p) s = .next ((s.moveV p d .out).takeOut p reason))) ∧
     (∀ v w s1, c.v = some v → c.partner = some w →
       c.hold = .migrate ∨ c.hold = .boundary ∨ (v.liveStrands = [] ∧ c.hold = .none ∧ c.stopped = false) → c.test = none → s.quiesced p = some s1 →
       let s2 := s1.modCore p fun c => { (c.takeV w (w.restsIn .boundary)) with partner := c.v.map fun v => c.leaveV v }
       let s3 := s2.postPlacement v.num p.val 0xFF c.migPoint.toNat v.stepTag.toNat
       let s4 := s3.postPlacement w.num 0xFF p.val c.migPoint.toNat w.stepTag.toNat
       exec (.oversubscriptionSwap p) s = .next (s4.applyHeld p)))

/-- Each millisecond every bucket takes its events, leaks and updates its states; drain requests whose set failed are sent again while
their bucket is in its fail state (R367); then what entered a state is acted on; the
hourly save stores the 128 levels (R352 to R354). The states of an enabled bucket after a tick: fail stays once set and sets at
FAIL; warning sets at WARN, clears below half of it and else stays; the events are taken (R352). -/
def Obligations.CairnBuckets : Prop :=
  (∀ (s : State),
     let s1 := s.charge 84 (ofBool (s.pow.temps.toList.any fun t => decide (100 ≤ t))) 0 0
     let s2 : State := { s1 with chk := { s1.chk with buckets := Vector.ofFn fun b : Fin 128 => (s1.chk.buckets[b]).update b.val } }
     let due (x : Nat × Nat) : Bool :=
       s2.jobLive && s2.ckpt.pendingB.isEmpty && (s2.chk.buckets[x.1]!).failed && !s2.ckpt.drainB.contains x.2
     let s3 := (s2.chk.drainWanted.filter due).foldl (fun s x => s.sendDrain x.1) s2
     exec .cairnTick s = .next ((List.range 85).foldl (fun s b => s.bucketEntered b s1.chk.buckets[b]!) s3) ∧
     exec .healthRecordSave s =
       .next { s with pow := { s.pow with flash := { s.pow.flash with health := s.chk.buckets.toList.map (·.level) } } }) ∧
  (∀ (k : Bucket) (b : Nat), k.enable = true → b < 85 →
     let n := k.update b
     let x := flushed n.level
     (n.d1 = 0 ∧ n.d2 = 0 ∧ n.d3 = 0) ∧
     (n.inc = k.inc ∧ n.inc2 = k.inc2 ∧ n.inc3 = k.inc3 ∧ n.leak = k.leak ∧ n.warn = k.warn ∧ n.fail = k.fail ∧ n.enable = true) ∧
     (n.failed = true ↔ k.failed = true ∨ x.lt (flushed k.fail) = false) ∧
     (x.lt (flushed k.warn) = false → n.warning = true) ∧
     (x.lt (flushed k.warn) = true → (x.add x).lt (flushed k.warn) = true → n.warning = false) ∧
     (x.lt (flushed k.warn) = true → (x.add x).lt (flushed k.warn) = false → n.warning = k.warning))

/-- A field test ends by the digest of its output or over its bound, and a third run of arbitration in neither way; a forced test sets
step_hold and, at the held STEP, pauses the job and starts, unless an arbitration comes first (R348, R357, R359).
Where a test's code lies and how a forced test reports are the model's choices (log 28). -/
def Obligations.FieldTestsRun : Prop :=
  ∀ (s : State) (p : Fin 20),
    let c := s.core p
    (∀ t v s1, c.test = some t → t.third = false → c.v = some v → v.liveStrands = [] → c.stopped = false → s.quiesced p = some s1 →
      let digest := sha256 (((s1.core p).v.map fun v => v.readTile 0 (natAt t.bytes 60 4)).getD [])
      exec (.fieldTestEnd p) s = .next (s1.endTest p t (if digest = sub t.bytes 28 32 then 1 else 2) digest)) ∧
    (∀ t elapsedMs, c.test = some t → exec (.fieldTestTimeout p elapsedMs) s =
      .next (if t.third = false ∧ natAt t.bytes 20 4 < elapsedMs then s.endTest p t 3 [] else s)) ∧
    (∀ k v, s.dueOn p = some k → c.v = some v → c.test = none → c.stepHold = false → s.jobLive = true →
      exec (.forcedFieldTest p) s = .next (s.modCore p fun c => { c with stepHold := true })) ∧
    (∀ s1, c.holdReq = .stepTest → s.jobLive = true → s.quiesced p = some s1 →
      let s2 := s1.modCore p fun c => { c with holdReq := .none, hold := .stepTest }
      exec (.stepHoldReached p) s = .next (s2.forceTest p) ∧
      (s2.chk.arbs ≠ [] → exec (.stepHoldReached p) s = .next s2) ∧
      (∀ k v d, s2.chk.arbs = [] → s2.dueOn p = some k → (s2.core p).v = some v →
        let s3 := (s2.modCore p fun c => { c with stepHold := false }).pauseAll 2
        s3.idleSpare = some d →
        exec (.stepHoldReached p) s = .next ((s3.moveV p d .spare).startTest p k (some d.val))))

/-- A control-plane message that is new updates what it names and goes on to every other up port; a repeat, or one that has made
48 hops, changes nothing (R336, R365, R367, R466). A chunk of a package not yet settled begins its assembly or joins it; a repeated chunk, that of a fifth package, and any on a device without
GDDR7 (R295) are ignored; the last one
completes the package, which is verified and, once accepted, sent on; an assembly out of time is discarded (R364). -/
def Obligations.ControlPlane : Prop :=
  (∀ (s : State) (port : Fin 6) (ctl : Ctl) (payload : List Byte),
     (s.freshCtl port.val ctl = false →
       exec (.linkStateNotice port ctl payload) s = .next s ∧ exec (.earlyCheckpointRequest port ctl payload) s = .next s ∧
       exec (.drainAndReplacementRequest port ctl payload) s = .next s ∧ exec (.fieldTestChunk port ctl payload) s = .next s ∧
       exec (.jobControlMessage port ctl payload) s = .next s ∧ exec (.imageRelay port ctl payload) s = .next s) ∧
     (s.freshCtl port.val ctl = true →
       (∀ l, (natAt payload 3 1 = 1 ∧ l = LinkState.down) ∨ (natAt payload 3 1 = 2 ∧ l = .v3) ∨ (natAt payload 3 1 = 3 ∧ l = .v2) →
         natAt payload 2 1 < 6 →
         let s1 : State := { s with fab := s.fab.setLink (natAt payload 0 2 % 32768) (natAt payload 2 1) l }
         exec (.linkStateNotice port ctl payload) s = .next (s1.relayCtl port.val 1 ctl payload).checkReach) ∧
       (natAt payload 3 1 = 0 ∨ 3 < natAt payload 3 1 → exec (.linkStateNotice port ctl payload) s =
         .next { s with fab := { s.fab.remember ctl.origin.toNat ctl.seq with noticeDrops := s.fab.noticeDrops + 1 } }) ∧
       (s.jobLive = true → natAt payload 0 4 = s.job.id.toNat →
         let b := s.job.boundaryOf (natAt payload 8 4)
         (natAt payload 4 1 = 1 → exec (.earlyCheckpointRequest port ctl payload) s =
           .next ((s.relayCtl port.val 3 ctl payload).requestBoundary b (natAt payload 6 2))) ∧
         (natAt payload 4 1 = 2 → exec (.drainAndReplacementRequest port ctl payload) s =
           .next ((s.relayCtl port.val 3 ctl payload).requestBoundary b (natAt payload 6 2)))))) ∧
  (∀ (s : State) (port : Fin 6) (ctl : Ctl) (payload : List Byte),
     let s1 : State := { s with fab := s.fab.remember ctl.origin.toNat ctl.seq }
     let id := BitVec.ofNat 64 (natAt payload 0 8)
     let version := BitVec.ofNat 32 (natAt payload 8 4)
     let index := natAt payload 12 4
     let count := natAt payload 16 4
     let len := natAt payload 20 4
     let mine (a : Assembly) : Bool := a.id == id && a.version == version
     let others := s.chk.assemblies.filter fun a => !mine a
     (s.freshCtl port.val ctl = true → s.chk.settled id version = true ∨ s.mem.usable = 0 ∨ len = 0 ∨ 4064 < len ∨ count ≤ index →
       exec (.fieldTestChunk port ctl payload) s = .next s1) ∧
     (s.freshCtl port.val ctl = true → s.chk.assemblies.find? mine = none → 4 ≤ s.chk.assemblies.length →
       exec (.fieldTestChunk port ctl payload) s = .next s1) ∧
     (∀ a, s.freshCtl port.val ctl = true → s.mem.usable ≠ 0 → s.chk.settled id version = false → 0 < len → len ≤ 4064 → index < count →
       s.chk.assemblies.find? mine = some a →
       let held := a.chunks.held ++ [(index, sub payload 32 len)]
       ((∃ c ∈ a.chunks.held, c.1 = index) → exec (.fieldTestChunk port ctl payload) s = .next s1) ∧
       ((∀ c ∈ a.chunks.held, c.1 ≠ index) →
         (held.length < a.chunks.count → exec (.fieldTestChunk port ctl payload) s = .next
           { s1 with chk := { s1.chk with assemblies := others ++ [{ a with chunks := ⟨a.chunks.count, held⟩ }] } }) ∧
         (a.chunks.count ≤ held.length → exec (.fieldTestChunk port ctl payload) s = .next
           (let bs := (List.range a.chunks.count).flatMap fun i => ((held.find? fun c => c.1 == i).map (·.2)).getD []
            let r := ({ s1 with chk := { s1.chk with assemblies := others } } : State).takePackage bs
            if r.1 then r.2.floodPackage bs else r.2)))) ∧
     (s.freshCtl port.val ctl = true → s.mem.usable ≠ 0 → s.chk.settled id version = false → 0 < len → len ≤ 4064 → index < count →
       s.chk.assemblies.find? mine = none → s.chk.assemblies.length < 4 →
       (1 < count → exec (.fieldTestChunk port ctl payload) s = .next
         { s1 with chk := { s1.chk with assemblies := others ++ [⟨id, version, ⟨count, [(index, sub payload 32 len)]⟩⟩] } }) ∧
       (count = 1 → exec (.fieldTestChunk port ctl payload) s = .next
         (let r := ({ s1 with chk := { s1.chk with assemblies := others } } : State).takePackage (sub payload 32 len)
          if r.1 then r.2.floodPackage (sub payload 32 len) else r.2))) ∧
     (∀ (package : DWord) (v : Word), exec (.packageAssemblyTimeout package v) s =
       .next { s with chk := { s.chk with assemblies := s.chk.assemblies.filter fun a => !(a.id == package && a.version == v) } }))

/-- The release word starts slots: a value below the one before it counts as that one, and slot j of a step starts only when the
step lies below release + D (R231, R234). A slot goes through its phases: its index entry is accepted when sequence and CRC
match and is read again otherwise; a cache line that names the sample and whose bytes match their CRC is a hit, else the sample is
fetched; a fetch brings the bytes and the decode follows; a done slot adds its increment in step order (R235, R237 to R239). A
slice in state ON decodes a slot: as many payloads as the twin records allow (R278), then its audio runs, descriptors and record are written in that
order, and the slot is done; a write that fails raises its ingest event; a slice that idles off is asked for (R435). The blocks carry their IDs,
check values and step (R253, R254). An entry with a reserved value is delivered as unsupported, every picture
concealed, and every slot has its number of pictures (R237, R242 to R244, R253, R256).
The layout of a cache line's tag is the model's (log 30). -/
def Obligations.SlotsGoThroughPhases : Prop :=
  (∀ (s : State) (a : Nat) (bs : List Byte), s.ingesting = true → s.locAddr s.plan.releaseWord 0 4 false = some a →
     ∀ s1, s.readMem a 4 = (s1, bs, none) →
     ∃ t, exec .releaseWordPoll s = .next t ∧ t.ing.release = max s.ing.release (natAt bs 0 4) ∧
       t.mem = s1.mem ∧ t.job = s.job ∧ (∃ new, t.ing.slots = s.ing.slots ++ new ∧ ∀ x ∈ new,
         x.j < s.plan.nslots ∧ x.step < t.ing.release + s.plan.depth ∧ x.sample = s.job.sampleOf s.plan x.step x.j ∧
         x.phase = .entry ∧ x.written = 0 ∧ (x.j < s.ing.nextStep.length → s.ing.nextStep.getD x.j 0 ≤ x.step))) ∧
  (∀ (s : State) (slot : Nat) (x : Slot), s.ingesting = true →
     (s.ing.oldest slot .entry = some x → s.host.dma = true →
       let r := s.plan.listOf x.sample
       (exec (.indexEntryRead slot .linkError) s = .next (s.ingestEvent 3 x.j x.step)) ∧
       (s.locAddr (placeAt r 0) (64 * (x.sample - (listRange r).1)) 64 false = none →
         exec (.indexEntryRead slot .ok) s = .next (s.ingestEvent 4 x.j x.step)) ∧
       (∀ a g, s.locAddr (placeAt r 0) (64 * (x.sample - (listRange r).1)) 64 false = some a → s.mem.faultPage a 64 false = some g →
         exec (.indexEntryRead slot .ok) s = .next (s.blockSlot x g)) ∧
       (∀ a, s.locAddr (placeAt r 0) (64 * (x.sample - (listRange r).1)) 64 false = some a → s.mem.faultPage a 64 false = none →
         let e := (s.mem.readDev a 64).1
         let s1 := s.tlbRange a 64
         let accepted := natAt e 56 4 = natAt r 24 4 ∧ natAt e 60 4 = (crc32c (e.take 60)).toNat
         (accepted → exec (.indexEntryRead slot .ok) s = .next
           (({ s1 with ing := { s1.ing with
              accepted := s1.ing.accepted.filter (fun b => !(b.1 == x.step && b.2.1 == x.j)) ++ [(x.step, x.j, e)] } } : State).putSlot
             { x with entry := e, phase := if entryUnreadable s1.mem.usable e then .decode else .lookup })) ∧
         (¬ accepted → exec (.indexEntryRead slot .ok) s =
           .next { s1 with ing := { s1.ing with polls := s1.ing.polls + 1 } }))) ∧
     (s.ing.oldest slot .lookup = some x → s.plan.lines = 0 →
       ∀ outcome, exec (.sampleCacheLookup ⟨slot, outcome⟩) s = .next (s.putSlot { x with phase := .fetch })) ∧
     (∀ a, s.ing.oldest slot .lookup = some x → s.plan.lines ≠ 0 → s.lineAddr x.sample = some a →
       let n := natAt x.entry 8 4
       let s1 := s.tlbRange a (64 + n)
       exec (.sampleCacheLookup ⟨slot, .linkError⟩) s = .next (s.ingestEvent 3 x.j x.step) ∧
       ∀ tag bs s2 s3, s1.readMem a 64 = (s2, tag, none) → s2.readMem (a + 64) n = (s3, bs, none) →
         let named := (tag.take 20 == (cacheTag x.sample (natAt (s.plan.listOf x.sample) 24 4) x.entry []).take 20 &&
           decide (64 + n ≤ s.plan.lineSize))
         let miss (u : State) (bads : Nat) : State := ({ u with ing := { u.ing with bads := u.ing.bads + bads, misses := u.ing.misses + 1 } } :
           State).putSlot { x with phase := .fetch }
         (named = false → exec (.sampleCacheLookup ⟨slot, .ok⟩) s = .next (miss s2 0)) ∧
         (named = true → natAt tag 20 4 ≠ (crc32c bs).toNat → exec (.sampleCacheLookup ⟨slot, .ok⟩) s = .next (miss s3 1)) ∧
         (named = true → natAt tag 20 4 = (crc32c bs).toNat → exec (.sampleCacheLookup ⟨slot, .ok⟩) s =
           .next (({ s3 with ing := { s3.ing with hits := s3.ing.hits + 1 } } : State).putSlot
             { x with src := bs, hit := true, phase := .fetch }))) ∧
     (s.ing.oldest slot .fetch = some x → s.host.dma = true →
       let src := natAt x.entry 0 8
       let init := natAt x.entry 16 8
       let n := if x.hit then 0 else natAt x.entry 8 4
       let k := natAt x.entry 12 4
       exec (.sampleFetch slot .linkError) s = .next (s.ingestEvent 3 x.j x.step) ∧
       ((n ≠ 0 ∧ s.unmapped src n = true) ∨ (k ≠ 0 ∧ s.unmapped init k = true) →
         exec (.sampleFetch slot .ok) s = .next (s.ingestEvent 1 x.j x.step)) ∧
       ((n ≠ 0 → s.unmapped src n = false) → (k ≠ 0 → s.unmapped init k = false) →
         (∀ g, n ≠ 0 → s.mem.faultPage src n false = some g → exec (.sampleFetch slot .ok) s = .next (s.blockSlot x g)) ∧
         (∀ a b ua ub s1 s2, (n ≠ 0 → s.mem.faultPage src n false = none) → (k ≠ 0 → s.mem.faultPage init k false = none) →
           (s.tlbRange src n).readMem src n = (s1, a, ua) → (s1.tlbRange init k).readMem init k = (s2, b, ub) →
           (ua ≠ none ∨ ub ≠ none → exec (.sampleFetch slot .ok) s = .next (s2.ingestEvent 2 x.j x.step)) ∧
           (ua = none → ub = none →
             (x.hit = true → exec (.sampleFetch slot .ok) s = .next (s2.putSlot { x with init := b, phase := .decode })) ∧
             (x.hit = false →
               ((s2.fillLine x a).2 = none → exec (.sampleFetch slot .ok) s =
                 .next ((s2.fillLine x a).1.putSlot { x with src := a, init := b, phase := .decode })) ∧
               (∀ code, (s2.fillLine x a).2 = some code → exec (.sampleFetch slot .ok) s =
                 .next ((s2.fillLine x a).1.ingestEvent code x.j x.step))))))) ∧
     (s.ing.oldest slot .done = some x → (∀ y ∈ s.ing.slots, y.j = x.j → x.step ≤ y.step) →
       let e := s.plan.slot x.j
       let s1 : State := { s with ing := { s.ing with slots := s.ing.slots.filter fun y => !(y.j == x.j && y.step == x.step) } }
       exec (.slotComplete slot) s = .next (s1.addTokenV (natAt e 2 2) (natAt e 4 1) (natAt e 6 2)))) ∧
  (∀ (s : State) (slot : Nat) (slice : Fin 32) (x : Slot), s.ingesting = true → s.ing.oldest slot .decode = some x →
     (s.pow.domains[80 + slice.val] ≠ .on → exec (.sampleDecode slot slice) s =
       .next (if s.pow.sliceIdleOff then s.domainRequest (dom (80 + slice.val)) true else s)) ∧
     let e := s.plan.slot x.j
     let twin := s.job.twinRegion (placeAt e 8).1
     let r := s.plan.shapeSlot s.mem.usable x
     let left := r.blocks.length - x.written
     let n := if twin then s.twinSpace left else left
     (s.pow.domains[80 + slice.val] = .on →
       (∀ s1 code, s.ingestWrite (placeAt e 8).1 ((r.payloads.drop x.written).take n) = .inr (s1, code) →
         exec (.sampleDecode slot slice) s = .next (s1.ingestEvent code x.j x.step)) ∧
       (∀ s1, s.ingestWrite (placeAt e 8).1 ((r.payloads.drop x.written).take n) = .inl s1 →
         let s2 := s1.slotBlocks x r twin n
         (n < left → exec (.sampleDecode slot slice) s = .next s2) ∧
         (left ≤ n →
           (∀ s3 code, s2.ingestWrite (placeAt e 20).1 r.audioRuns = .inr (s3, code) →
             exec (.sampleDecode slot slice) s = .next (s3.ingestEvent code x.j x.step)) ∧
           (∀ s3 s4 code, s2.ingestWrite (placeAt e 20).1 r.audioRuns = .inl s3 → s3.ingestWrite (placeAt e 8).1 r.runs = .inr (s4, code) →
             exec (.sampleDecode slot slice) s = .next (s4.ingestEvent code x.j x.step)) ∧
           (∀ s3 s4, s2.ingestWrite (placeAt e 20).1 r.audioRuns = .inl s3 → s3.ingestWrite (placeAt e 8).1 r.runs = .inl s4 →
             exec (.sampleDecode slot slice) s = .next (s4.slotWritten x r).idleSlices)))) ∧
     r.pics.length = (s.plan.profile x.j).nframes ∧
     (entryReserved s.mem.usable x.entry = true → r.clip.supported = false ∧ ∀ q ∈ r.pics, q.concealed = true)) ∧
  (∀ (p : Plan) (usable : Nat) (x : Slot), let r := p.shapeSlot usable x
     r.payloads.map (·.2) = r.blocks.map (·.data) ∧
     (∀ b ∈ r.blocks, b.chk = crc32c b.data ∧ b.step = BitVec.ofNat 32 x.step ∧ b.fmt = (p.profile x.j).ofmt) ∧
     ∀ i, ∀ b, r.blocks[i]? = some b → b.id = (p.profile x.j).blockId x.sample i)

/-- The order of an epoch is a permutation of the samples: it stays within them and names none twice (R231, R232). -/
def Obligations.EpochOrderIsAPermutation : Prop :=
  ∀ (seed samples epoch : Nat), (∀ x < samples, shuffle seed samples epoch x < samples) ∧
    ∀ x < samples, ∀ y < samples, shuffle seed samples epoch x = shuffle seed samples epoch y → x = y

/-- A drained core at a pending boundary is held; once every virtual core of the rank stands there and neither a set in progress nor a drain
of the target slot is in the way, the snapshot is taken: the boundary is no longer pending and the guard is armed for it under the next
generation (R368, R369, R382). A
unit of the set is copied once the zeroed manifest area is acknowledged (R378): its digest is kept, the guard goes off it, the bytes go to the
target, and the last one leaves the
manifest to be written; an uncorrectable source fails the set with reason 3, a bad acknowledge with reason 1, and a page that does
not translate is queued (R303, R373, R381). The manifest is written last, and a set whose manifest is acknowledged counts. The
buddy writes a checkpoint block at its place in the slot when its check value holds and acknowledges it, else it answers that it did
not; while it drains the slot the block waits (R378, R382). A drain ends with the shards, then the manifest in its window; a restore that checks
out puts the shards back, takes
both digests of the set, starts every virtual core at the boundary and posts its event, one that does not leaves every region
undefined, tile regions too (R270, R382, R384, R385). The short messages between buddies are the model's (log 32).
A rank without a snapshot region, and where a unit stands in a checkpoint packet, are the model's choices (log 54, 65). -/
def Obligations.CheckpointSets : Prop :=
  (∀ (s : State),
     (∀ p s1, (s.core p).holdReq = .boundary → s.quiesced p = some s1 → ∃ t, exec (.boundaryHold p) s = .next t ∧
       t.core p = { s1.core p with holdReq := .none, hold := .boundary } ∧ t.mem = s1.mem ∧ t.job = s1.job ∧
       t.ckpt.phase = (if s1.ckpt.phase = .copying ∨ s1.ckpt.phase = .manifest then s1.ckpt.phase
         else if s1.ckpt.restore = none then .holding else .restoring)) ∧
     (∀ b, s.heldBoundary = some b → s.ckpt.phase ≠ .copying → s.ckpt.phase ≠ .manifest → s.ckpt.restore = none →
       let slotB := (s.ckpt.committed + 1) % 2 == 0
       (s.job.hostTarget = true → ∀ d, s.ckpt.drain = some d → d.2.1 ≠ ofBool slotB) →
       (s.job.hostTarget = false → slotB ∉ s.ckpt.buddyDrains) →
       (s.job.snapshot.bind s.job.region = none →
         let s1 : State := { s with ckpt := { s.ckpt with pendingB := s.ckpt.pendingB.filter (· != b),
                                                          drainB := s.ckpt.drainB.filter (· != b) } }
         exec .snapshotArm s = .next s1.releaseBoundary.showPhase) ∧
       (∀ snap, s.job.snapshot.bind s.job.region = some snap →
         let put (a : State × List (Nat × Nat × Nat)) (x : Fin 20 × VCore) : State × List (Nat × Nat × Nat) :=
           let bs := a.1.coreRecord x.2 b
           let addr := snap.base + recordRoom * x.2.num
           ((a.1.writeMem addr bs).1, a.2 ++ [(x.2.num, addr, bs.length)])
         let r := s.vcores.foldl put (s, [])
         let shards := r.1.planShards r.2
         let granules := shards.zipIdx.flatMap fun x => (List.range (cdiv x.1.1.len 65536)).map fun u =>
           { shard := x.2, unit := u, addr := x.1.2 + 65536 * u, len := min 65536 (x.1.1.len - 65536 * u), copied := false,
             digest := [] : Granule }
         let c : Ckpt := { r.1.ckpt with
           pendingB := s.ckpt.pendingB.filter (· != b), b, armed := true, phase := .copying, gen := r.1.ckpt.committed + 1, copied := 0,
           granules, shards := shards.map (·.1), zeroing := if r.1.job.hostTarget then [] else List.range 32 }
         let s1 : State := { r.1 with ckpt := c }
         let s2 := (if s1.job.hostTarget then s1 else s1.sendPart 0 (zeros 2097152)).releaseGuard
         exec .snapshotArm s = .next (if s.vcores.any fun x => x.2.spoilt then s2.failSet 3 else s2).releaseBoundary)) ∧
     (∀ b, s.heldBoundary = some b →
       s.ckpt.phase = .copying ∨ s.ckpt.phase = .manifest ∨ s.ckpt.restore ≠ none ∨
         (s.job.hostTarget = false ∧ ((s.ckpt.committed + 1) % 2 == 0) ∈ s.ckpt.buddyDrains) →
       exec .snapshotArm s = .next s)) ∧
  (∀ (s : State),
     (∀ granule outcome, s.ckpt.zeroing ≠ [] → exec (.granuleCopy granule outcome) s = .next s) ∧
     (∀ granule g outcome, s.ckpt.granules[granule]? = some g → s.ckpt.phase = .copying → g.copied = false → s.ckpt.zeroing = [] →
       s.job.hostTarget = false ∨ s.host.dma = true →
       let s0 := match outcome with
         | .sourceUncorrectable => s.spoil g.addr
         | .corrected units => s.soften (units.filter fun a => decide (g.addr ≤ a) && decide (a < g.addr + g.len))
         | _ => s
       let s1 := s0.tlbRange g.addr g.len
       (∀ a, s1.mem.faultPage g.addr g.len false = some a →
         exec (.granuleCopy granule outcome) s = .next (s1.queueFault a false .checkpoint)) ∧
       (s1.mem.faultPage g.addr g.len false = none → ∀ s2 bs bad, s1.readMem g.addr g.len = (s2, bs, bad) →
         (bad ≠ none → exec (.granuleCopy granule outcome) s = .next (s2.failSet 3)) ∧
         (bad = none →
           let off := (s2.ckpt.shards.getD g.shard default).offset + 65536 * g.unit
           let gs := s2.ckpt.granules.set granule { g with copied := true, digest := sha256 bs }
           let s3 := if s2.job.hostTarget && !s2.ckpt.granules.any (·.copied) then s2.sendPart 0 (zeros 2097152) else s2
           let s4 := ({ s3 with ckpt := { s3.ckpt with granules := gs, copied := s3.ckpt.copied + 65536 } } : State).releaseGuard.sendPart
             off bs
           (outcome = .badAcknowledge → s4.job.hostTarget = false → exec (.granuleCopy granule outcome) s = .next (s4.failSet 1)) ∧
           (outcome ≠ .badAcknowledge ∨ s4.job.hostTarget = true → exec (.granuleCopy granule outcome) s =
             .next (if gs.all (·.copied) then { s4 with ckpt := { s4.ckpt with phase := .manifest } } else s4))))) ∧
     (s.ckpt.phase = .manifest → s.job.hostTarget = false ∨ s.host.dma = true →
       let m := sealManifest s.manifest
       let s1 := s.sendPart 0 m
       exec (.manifestWrite true) s = .next (s1.partWritten (sub m 224 32)) ∧
       exec (.manifestWrite false) s = .next (if s1.job.hostTarget then s1.partWritten (sub m 224 32) else s1.failSet 1))) ∧
  (∀ (s : State) (slotB : Bool) (offset : Nat) (block : List Byte),
     let b := Block.ofBytes block
     let unit := offset / 65536
     let answer (u : State) (good : Bool) : State := u.ckptNote slotB unit (ofBool good)
     let slot := if s.holdsSlots then s.mem.slotBase slotB else none
     let draining := ∃ w x, s.ckpt.drain = some (slotB, w, x)
     (s.port 7).state = .up →
     (32 ≤ block.length → draining → exec (.checkpointBlockReceive slotB offset block) s = .next s) ∧
     (∀ a, 32 ≤ block.length → ¬ draining → slot = some a → crc32c b.data = b.chk → offset + b.data.length ≤ 2 ^ 37 →
       let w := s.mem.writeRun (.scree (a + offset)) b.data
       exec (.checkpointBlockReceive slotB offset block) s = .next (answer { s with mem := w.1 } w.2.isNone) ∧
       ∀ x, (w.1.scree.get x) = if a + offset ≤ x ∧ x < a + offset + b.data.length then b.data.getD (x - (a + offset)) 0
         else s.mem.scree.get x) ∧
     (32 ≤ block.length → ¬ draining → slot = none ∨ crc32c b.data ≠ b.chk ∨ 2 ^ 37 < offset + b.data.length →
       exec (.checkpointBlockReceive slotB offset block) s = .next (answer s false)) ∧
     (block.length < 32 →
       let code := natAt block 0 1
       let mine := s.ckpt.phase = .copying ∧ slotB = s.ckpt.slotB ∧ unit ∈ s.ckpt.zeroing
       (code = 0 → mine → exec (.checkpointBlockReceive slotB offset block) s = .next (s.failSet 1)) ∧
       (code = 1 → mine → exec (.checkpointBlockReceive slotB offset block) s =
         .next { s with ckpt := { s.ckpt with zeroing := s.ckpt.zeroing.filter (· != unit) } }) ∧
       (code ≤ 1 → ¬ mine → exec (.checkpointBlockReceive slotB offset block) s = .next s) ∧
       (code = 2 → ∃ t, exec (.checkpointBlockReceive slotB offset block) s = .next t ∧ t.mem = s.mem ∧ t.job = s.job ∧
         ∀ x, x ∈ t.ckpt.buddyDrains ↔ x ∈ s.ckpt.buddyDrains ∨ x = slotB) ∧
       (code = 3 → ∃ t, exec (.checkpointBlockReceive slotB offset block) s = .next t ∧ t.mem = s.mem ∧ t.job = s.job ∧
         ∀ x, x ∈ t.ckpt.buddyDrains ↔ x ∈ s.ckpt.buddyDrains ∧ x ≠ slotB))) ∧
  (∀ (s : State),
     (∀ slotB w extra buf, s.ckpt.drain = some (slotB, w, extra) → s.job.drains[w]?.join = some buf → s.host.dma = true →
       ∀ s1 held, s.slotManifest slotB = (s1, held) →
       let m := held.getD []
       ∀ s2 parts, s1.slotReads slotB (shardPlaces m) = (s2, parts) →
       let s3 := ((parts.zip (shardPlaces m)).foldl (fun (s : State) x => s.writeBuf buf x.2.1 (x.1.getD [])) s2).writeBuf buf 0 m
       let s4 := ({ s3 with ckpt := { s3.ckpt with drain := none } } : State).showPhase.ckptNote slotB 0 3
       exec .drainComplete s = .next (s4.post 0x0D04
         (bytesOf 8 (natAt m 8 8) ++ bytesOf 4 (natAt m 16 4) ++ bytesOf 4 (natAt m 20 4) ++ bytesOf 1 (ofBool slotB)))) ∧
     (∀ gen w, s.ckpt.restore = some (gen, false, w) →
       let s1 := ({ s with ckpt := { s.ckpt with restore := none } } : State).showPhase
       let fail : State :=
         let u := s1.undefineRegions [] true
         { u with job := { u.job with restored := false, restoreFailed := true } }
       exec (.restoreEnded none) s = .next (fail.postRestore gen 0 4 0) ∧
       (∀ r status i, s1.restoreFault gen r.manifest r.shards = some (status, i) → exec (.restoreEnded (some r)) s =
         .next (fail.postRestore gen (natAt r.manifest 16 4) status i)) ∧
       (∀ r, s1.restoreFault gen r.manifest r.shards = none →
         let m := r.manifest
         let b := natAt m 16 4
         let s2 := (List.range (natAt m 4 4)).foldl (fun (s : State) i =>
           let d := manifestShard m i
           s.restoreShard d.1 d.2.1 (r.shards.getD i [])) (s1.undefineRegions s1.job.covered false)
         let s3 : State := { s2 with
           job := { s2.job with restored := true, restoreFailed := false, firstStep := b, weights := sub m 80 32, corpus := sub m 112 32,
                                vTainted := s2.job.vTainted || bitAt (natAt m 36 1) 2 },
           ckpt := { s2.ckpt with committed := gen } }
         let tag (v : VCore) : VCore := { v with stepTag := BitVec.ofNat 32 b }
         let s4 := s3.mapCores fun c => if c.test.isSome then c else { c with v := c.v.map tag, partner := c.partner.map tag }
         exec (.restoreEnded (some r)) s = .next ((s4.startIngest b).postRestore gen b 1 0) ∧
         bitAt (natAt m 36 1) 0 = s1.job.ftz)))

/-- What a core-state record holds of a strand, a region, a bound set and a block header comes back from its bytes (R374, R384).
The order of a record's fields is the model's choice (log 31). -/
def Obligations.RecordsComeBack : Prop :=
  (∀ st : Strand, st.wait ≠ .step →
    let u := Strand.ofBytes st.bytes
    u.pc = st.pc ∧ u.claims = st.claims ∧ u.live = st.live ∧ u.x = st.x ∧ u.lc = st.lc) ∧
  (∀ st : Strand, st.wait = .step → (Strand.ofBytes st.bytes).pc = st.pc + 1) ∧
  (∀ r : TileRegion, r.id < 65536 → r.base < 4294967296 → r.len < 4294967296 → TileRegion.ofBytes r.bytes = r) ∧
  (∀ b : Bounds, b.nanMax < 65536 → b.infMax < 65536 → Bounds.ofRecord b.bytes = b) ∧
  (∀ b : Block, b.id < 2 ^ 64 → b.region < 4096 → b.fmt ≠ .reserved → b.seq < 2 ^ 32 → b.data.length < 2 ^ 32 →
    Block.ofBytes (b.header ++ b.data) = { b with ext0 := 1 })

/-- BAR0 takes naturally aligned accesses of 32 or 64 bits, low word first; any other write is discarded, any other read is all
ones. An access to the debug window is the access to BAR0 from 0x100000 on (R16, R393, R395). -/
def Obligations.HostAccessesOfBar0 : Prop :=
  ∀ (s : State) (o n : Nat) (v : DWord), s.host.pcieUp = true →
    let aligned := (n = 4 ∨ n = 8) ∧ o % n = 0 ∧ o + n ≤ 0x1000000
    (¬ aligned → exec (.bar0Access true o n v) s = .next s ∧
      exec (.bar0Access false o n v) s = .next { s with out := s.out ++ [OutMsg.hostData (List.replicate n 0xFF) false] }) ∧
    (aligned → n = 4 → exec (.bar0Access true o n v) s = .next (s.bar0Write o (v.toNat % 4294967296)) ∧
      exec (.bar0Access false o n v) s = .next { s with out := s.out ++ [OutMsg.hostData (bytesOf 4 (s.bar0Read o)) false] }) ∧
    (aligned → n = 8 →
      exec (.bar0Access true o n v) s = .next ((s.bar0Write o (v.toNat % 4294967296)).bar0Write (o + 4) (v.toNat / 4294967296)) ∧
      exec (.bar0Access false o n v) s =
        .next { s with out := s.out ++ [OutMsg.hostData (bytesOf 4 (s.bar0Read o) ++ bytesOf 4 (s.bar0Read (o + 4))) false] }) ∧
    (∀ w, o < 0xF00000 → ∃ t, exec (.debugWindowAccess w o n v) s = .next t ∧ exec (.bar0Access w (0x100000 + o) n v) s = .next t)

/-- BAR2 reads all ones where it does not reach and in uncorrectable units, each of which counts and is reported; a corrected unit that it
meets counts too (R288, R292, R396). What it writes to device memory, over pages and in GDDR7 as in staging memory, is read back there, but for
the bytes of an uncorrectable unit that it writes in part, which keep their value and are reported; a unit written whole is good again
(R288, R292, R396). -/
def Obligations.HostAccessesOfBar2 : Prop :=
  ∀ (s : State) (offset : Nat), s.host.pcieUp = true →
    (∀ len, offset + len ≤ 2 ^ s.host.bar2Log2 →
      let runs := pageRuns (s.host.bar2Base + offset) len
      let s0 := runs.foldl (fun (s : State) r => if s.bar2Reaches r.1 then s.meetDev false r.1 r.2 else s) s
      let rs := runs.map fun r => s0.bar2Run r.1 r.2
      let units := rs.flatMap fun r => r.2
      let s1 := units.foldl (fun (s : State) u => s.countUnc u) s0
      let data := rs.flatMap fun r => r.1
      (units = [] → exec (.bar2Read offset len) s = .next { s0 with out := s0.out ++ [OutMsg.hostData data false] }) ∧
      (units ≠ [] → exec (.bar2Read offset len) s =
        .next { s1 with out := s1.out ++ [OutMsg.hostData data true] ++ [OutMsg.aer false] })) ∧
    (∀ len, 2 ^ s.host.bar2Log2 < offset + len → exec (.bar2Read offset len) s = .next s) ∧
    (∀ (a n : Nat), s.bar2Reaches a = false → s.bar2Run a n = (List.replicate n 0xFF, [])) ∧
    (∀ (a n : Nat), s.bar2Reaches a = true →
      let p := s.mem.place a
      (s.bar2Run a n).1.length = n ∧
      ∀ i < n, (s.bar2Run a n).1.getD i 0 =
        if (p.addr + i) / p.unit ∈ s.mem.badOf p then 0xFF else (s.mem.cellsOf p).get (p.addr + i)) ∧
    (∀ (data : List Byte), 0 < data.length → offset + data.length ≤ 2 ^ s.host.bar2Log2 →
      let a := s.host.bar2Base + offset
      let whole (unit at0 u : Nat) : Prop := at0 ≤ u * unit ∧ (u + 1) * unit ≤ at0 + data.length
      let kept (bad : List Nat) (unit at0 x : Nat) : Prop := x / unit ∈ bad ∧ ¬ whole unit at0 (x / unit)
      let written (old new : Mem 8) (bad : List Nat) (unit at0 : Nat) : Prop := ∀ x, new.get x =
        if at0 ≤ x ∧ x < at0 + data.length then (if kept bad unit at0 x then old.get x else data.getD (x - at0) 0) else old.get x
      (a + data.length ≤ s.fwBase → s.fwBase ≤ s.mem.usable → ∃ t k, exec (.bar2Write offset data) s = .next t ∧
        written s.mem.gddr t.mem.gddr s.mem.gddrBad 64 a ∧ t.mem.staging = s.mem.staging ∧ t.mem.scree = s.mem.scree ∧
        t.mem.host = s.mem.host ∧ t.out = s.out ++ List.replicate k (OutMsg.aer true) ∧
        (k = 0 ↔ ∀ x, a ≤ x → x < a + data.length → ¬ kept s.mem.gddrBad 64 a x) ∧
        ∀ u, u ∈ t.mem.gddrBad ↔ u ∈ s.mem.gddrBad ∧ ¬ whole 64 a u) ∧
      (s.mem.usable ≤ stagingBase → stagingBase ≤ a → a + data.length ≤ stagingBase + stagingSize →
        ∃ t k, exec (.bar2Write offset data) s = .next t ∧
        written s.mem.staging t.mem.staging s.mem.stagingBad 8 (a - stagingBase) ∧ t.mem.gddr = s.mem.gddr ∧
        t.mem.scree = s.mem.scree ∧ t.mem.host = s.mem.host ∧ t.out = s.out ++ List.replicate k (OutMsg.aer true) ∧
        (k = 0 ↔ ∀ x, a - stagingBase ≤ x → x < a - stagingBase + data.length → ¬ kept s.mem.stagingBad 8 (a - stagingBase) x) ∧
        ∀ u, u ∈ t.mem.stagingBad ↔ u ∈ s.mem.stagingBad ∧ ¬ whole 8 (a - stagingBase) u))

/-- A doorbell takes the command of an idle mailbox and sets overrun at a busy one; a management frame with a good check value is
a command in mailbox 8 and answered while an input of H carries light, any other frame is discarded (R397, R399, R452). The event
ring: the host's tail lets queued entries in; enabling it starts the first lap; the coalesced interrupt is raised once; a busy
window raises the shed level by 1 up to 3, a quiet one lowers it, log collection resuming below level 2; the mirror's update word
is even after each sample, and from shed level 1 on the next sample comes after four times the interval (R412 to R415; where the shed level
stands in the summary is the model's, log 38).
The bytes of the answer to a management frame are the model's (log 25). -/
def Obligations.MailboxesAndEvents : Prop :=
  (∀ (s : State),
     (∀ m : Fin 8, s.host.pcieUp = true → let b := s.host.boxes[m.val]!
       (b.busy = true → exec (.mbxDoorbell m) s = .next (s.modBox m.val fun b => { b with overrun := true })) ∧
       (b.busy = false → ∃ t, exec (.mbxDoorbell m) s = .next t ∧
         t.host.boxes[m.val]! = { b with busy := true, done := false, ack := BitVec.ofNat 32 (natAt b.cmd 4 4),
                                           order := s.host.nextOrder + 1, nego := s.host.nego } ∧
         t.host.nextOrder = s.host.nextOrder + 1 ∧ t.cores = s.cores ∧ t.mem = s.mem ∧ t.out = s.out)) ∧
     (∀ frame : List Byte, s.sidebandUp = true → 39 ≤ frame.length → natAt frame 0 2 = frame.length - 7 → natAt frame 2 1 = 0 →
       s.host.boxes[8].busy = false →
       (natAt frame (frame.length - 4) 4 = (crc32c (frame.take (frame.length - 4))).toNat → ∃ t, exec (.sidebandFrame frame) s = .next t ∧
         t.host.boxes[8].cmd = sub frame 3 (frame.length - 7) ∧ t.host.boxes[8].busy = true ∧
         t.out = if s.pow.hLit
          then s.out ++ [OutMsg.sideband (sidebandFrame 0 (bytesOf 4 (natAt (sub frame 3 (frame.length - 7)) 4 4 % 4294967296)))]
          else s.out) ∧
       (natAt frame (frame.length - 4) 4 ≠ (crc32c (frame.take (frame.length - 4))).toNat → exec (.sidebandFrame frame) s = .next s))) ∧
  (∀ (s : State),
     (s.host.pcieUp = true → (∀ v : BitVec 16, exec (.evrTailWrite v) s =
         .next ({ s with host := { s.host with evTail := v } } : State).pump) ∧
       (∀ v : Word, v[0] = true → s.host.evEnable = false → exec (.evrCtrlEnable v) s = .next
         ({ s with host := { s.host with evEnable := true, evVector := BitVec.ofNat 6 (v.toNat / 2),
                                         evCoalesce := BitVec.ofNat 16 (v.toNat / 256), evHead := 0, evTail := 0,
                                         evPhase := true } } : State).pump)) ∧
     (s.host.evDue = true → s.host.dma = true → exec .eventInterruptCoalesce s =
       .next (({ s with host := { s.host with evDue := false } } : State).raiseMsix s.host.evVector.toNat)) ∧
     (∀ busy quiet, s.pow.boot = .imago → s.host.shed < 3 → 90 < busy →
       let s1 : State := { s with host := { s.host with shed := s.host.shed + 1 } }
       exec (.shedLevelWindow busy quiet) s = .next (s1.post 0x0E02 (bytesOf 1 (s.host.shed + 1)))) ∧
     (∀ busy, s.pow.boot = .imago → 0 < s.host.shed → s.host.shed ≤ 3 → busy < 50 →
       let s1 : State := { s with host := { s.host with shed := s.host.shed - 1 } }
       let s2 := if s.host.shed = 2 then s1.logLine else s1
       exec (.shedLevelWindow busy true) s = .next (s2.post 0x0E02 (bytesOf 1 (s.host.shed - 1)))) ∧
     (∀ busy quiet, busy ≤ 90 → (quiet = true → 50 ≤ busy) → exec (.shedLevelWindow busy quiet) s = .next s) ∧
     (s.pow.boot = .imago → ∃ t, exec .telemetryMirrorSample s = .next t ∧ t.host.mirrorWord = s.host.mirrorWord + 2 ∧
       t.host.mirror = Config.summaryHead s.free ++ bytesOf 1 s.host.shed ++ Config.summaryTail s.free ∧
       t.host.mirrorAt = s.ticks + 2000000 * s.host.mirrorMs * (if s.host.shed = 0 then 1 else 4) ∧ t.cores = s.cores ∧ t.mem = s.mem ∧ t.out = s.out))

/-- A command that fails a check is completed with the check's status, an empty response and no other effect; while firmware
does not run, in D3hot, or for a mailbox whose turn it is not, nothing happens (R392, R401 to R403, R425). -/
def Obligations.CommandsAreTurnedAway : Prop :=
  ∀ (s : State) (mbx : Fin 9) (op : Nat) (i : Instr),
    (op, i) ∈ [(0x01, Instr.identify mbx), (0x02, .hello mbx), (0x03, .caps mbx), (0x10, .fwStage mbx), (0x11, .fwActivate mbx),
      (0x12, .attest mbx), (0x20, .jobCreate mbx), (0x21, .jobLoad mbx), (0x22, .regionBind mbx), (0x23, .jobStart mbx),
      (0x24, .jobPause mbx), (0x25, .jobResume mbx), (0x26, .jobAbort mbx), (0x30, .ckptRequest mbx), (0x31, .ckptStatus mbx),
      (0x32, .restore mbx), (0x40, .testPush mbx), (0x41, .testStatus mbx), (0x50, .telemetry mbx), (0x51, .logRead mbx),
      (0x52, .powerPolicy mbx), (0x53, .linkStatus mbx), (0x54, .coreRetire mbx), (0x60, .debugAttach mbx)] →
    (s.serves = false → exec i s = .next s) ∧ (s.serves = true → s.nextCmd = none → exec i s = .next s) ∧
    (∀ h, s.serves = true → s.nextCmd = some h → h.mbx ≠ mbx.val ∨ h.op ≠ op → exec i s = .next s) ∧
    (∀ h status, s.serves = true → s.nextCmd = some h → h.mbx = mbx.val → h.op = op → s.precheck h = some status →
      exec i s = .next (s.complete h status [])) ∧
    (∀ h, s.serves = true → s.nextCmd = some h → h.mbx = mbx.val → h.op ∉ knownOps → s.precheck h = some 3 →
      exec (.unknownOpcode mbx) s = .next (s.complete h 3 []))

/-- IDENTIFY answers the identity block, CAPS the capabilities, HELLO the highest protocol version that both sides have (R394,
R402, R405). FW_STAGE reads a package into the firmware area of GDDR7, writes an authentic one to the slot not selected and answers its digest; FW_ACTIVATE acts by Table
15.9; ATTEST writes the signed report (R443, R444, R447). -/
def Obligations.IdentityAndFirmwareCommands : Prop :=
  (∀ (s : State) (mbx : Fin 9) (h : Held),
     (s.Takes mbx 0x01 h → exec (.identify mbx) s = .next (s.complete h 0 s.idBlock)) ∧
     (s.Takes mbx 0x03 h → exec (.caps mbx) s = .next (s.complete h 0 s.caps)) ∧
     (s.Takes mbx 0x02 h →
       let lo := max (natAt h.payload 0 2) 0x0200
       let v := min (natAt h.payload 2 2) 0x0203
       (v < lo → exec (.hello mbx) s = .next (s.complete h 4 [])) ∧
       (lo ≤ v → exec (.hello mbx) s =
         .next (({ s with host := { s.host with nego := BitVec.ofNat 8 v } } : State).complete h 0 (bytesOf 2 v))))) ∧
  (∀ (s : State) (mbx : Fin 9) (h : Held) (b : HostBuf),
     let w := s.pow
     (s.Takes mbx 0x10 h → s.mem.usable = 0 → w.boot ≠ .recovery → exec (.fwStage mbx) s = .next (s.complete h 8 [])) ∧
     (s.Takes mbx 0x10 h → s.mem.usable ≠ 0 ∨ w.boot = .recovery → s.HostBuffer (sub h.payload 0 16) b →
       let pkg := s.bufAll b
       let s1 := if s.mem.usable = 0 then s else s.writeFw Config.stagePlace pkg
       let w := s1.pow
       (w.fuses.authentic pkg = false → exec (.fwStage mbx) s = .next (s1.complete h 7 [])) ∧
       (w.fuses.authentic pkg = true → ∃ f, exec (.fwStage mbx) s =
         .next (({ s1 with pow := { w with flash := f } } : State).complete h 0 (sha256 pkg)) ∧
         f.slot (!w.flash.selectedB) = pkg ∧ f.slot w.flash.selectedB = w.flash.slot w.flash.selectedB ∧
         f.stagedB = some (!w.flash.selectedB) ∧ f.selectedB = w.flash.selectedB ∧ f.trial = w.flash.trial)) ∧
     (s.Takes mbx 0x11 h →
       (∀ t, natAt h.payload 0 1 = 0 → w.flash.stagedB = some t →
         exec (.fwActivate mbx) s = .next ((s.selectTrial t false).complete h 0 [])) ∧
       (∀ t, natAt h.payload 0 1 = 1 → w.flash.stagedB = some t →
         exec (.fwActivate mbx) s = .next ((s.selectTrial t true).complete h 0 [])) ∧
       (natAt h.payload 0 1 = 2 → exec (.fwActivate mbx) s = .next ((s.selectTrial (!w.flash.selectedB) false).complete h 0 [])) ∧
       (natAt h.payload 0 1 = 3 → w.boot = .imago → w.runningB = w.flash.selectedB → exec (.fwActivate mbx) s =
         .next (({ s with pow := { w with fuses := { w.fuses with
           securityVersion := max w.fuses.securityVersion w.fwSecurity } } } : State).complete h 0 [])) ∧
       (natAt h.payload 0 1 = 3 → w.boot ≠ .imago ∨ w.runningB ≠ w.flash.selectedB →
         exec (.fwActivate mbx) s = .next (s.complete h 5 []))) ∧
     (s.Takes mbx 0x12 h → s.HostBuffer (sub h.payload 32 16) b →
       let r := s.report (sub h.payload 0 32)
       (b.total < 33632 → exec (.attest mbx) s = .next (s.complete h 2 [])) ∧
       (33632 ≤ b.total → exec (.attest mbx) s =
         .next ((s.writeBuf b 0 (r ++ padTo 17088 (Config.signReport r))).complete h 0 (bytesOf 4 33632)))))

/-- The commands that make a job and load it: JOB_CREATE, with the buffers its references name, resets the die blocks and answers with a job in state C, JOB_LOAD loads
the image or answers why not, REGION_BIND binds a host region whole, maps pages of it, where it retries the faults queued on them,
or binds a drain window (R406, R409, R421, R432).
The limits of the parameters and of page counts are the model's reading (log 59). -/
def Obligations.JobsAreMade : Prop :=
  ∀ (s : State) (mbx : Fin 9) (h : Held) (b : HostBuf),
    let p := h.payload
    let names (ref : List Byte) (c : HostBuf) : Prop := (natAt ref 12 4 = 0 ∧ c = ⟨[], 0⟩) ∨ s.HostBuffer ref c
    (s.Takes mbx 0x20 h →
      (s.mem.usable = 0 → exec (.jobCreate mbx) s = .next (s.complete h 8 [])) ∧
      (s.mem.usable ≠ 0 → jobValuesOk p = false → exec (.jobCreate mbx) s = .next (s.complete h 2 [])) ∧
      (∀ prov wit cap, s.mem.usable ≠ 0 → jobValuesOk p = true → s.HostBuffer (sub p 96 16) b → names (sub p 112 16) prov →
        names (sub p 128 16) wit → names (if bitAt (natAt p 25 1) 2 then zeros 16 else sub p 144 16) cap →
        let ranks := (List.range (natAt p 4 4)).map fun i => natAt (s.readBuf b (2 * i) 2) 0 2
        (b.total < 2 * natAt p 4 4 ∨ (∃ a ∈ ranks, 32768 ≤ a) → exec (.jobCreate mbx) s = .next (s.complete h 2 [])) ∧
        (2 * natAt p 4 4 ≤ b.total → (∀ a ∈ ranks, a < 32768) →
          let j := jobOf p ranks prov wit cap
          let s1 := (s.failSet 4).jobReset
          let s2 : State := { s1 with job := j, rep := { s1.rep with enable := j.twin, cont := j.twinContinue } }
          exec (.jobCreate mbx) s = .next (((s2.postJob 1).startTests).complete h 0 [])))) ∧
    (s.Takes mbx 0x21 h → s.HostBuffer (sub p 4 16) b →
      let raw := s.bufAll b
      let s1 := if natAt p 20 1 = 1 then (relayChunks s.job.id.toNat raw).foldl (fun (s : State) c => s.flood 5 c) s else s
      (s1.loadFault (Image.of raw) = none → exec (.jobLoad mbx) s =
        .next (((s1.placeImage (Image.of raw)).setJobState .loaded 1).complete h 0 [])) ∧
      (∀ r, s1.loadFault (Image.of raw) = some r → exec (.jobLoad mbx) s =
        .next ((s1.setJobState .ended 8).complete h 9 (bytesOf 1 r.1 ++ zeros 1 ++ bytesOf 2 r.2)))) ∧
    (s.Takes mbx 0x22 h → s.HostBuffer (sub p 16 16) b →
      (∀ r, s.job.region (natAt p 6 2) = some r → r.kind = .host →
        (natAt p 4 1 = 0 → r.size = b.total →
          let bound (q : Region) : Region := if q.id = natAt p 6 2 then { q with bound := true } else q
          let s1 : State := { s with job := { s.job with regions := s.job.regions.map bound } }
          exec (.regionBind mbx) s = .next ((s1.mapHost r 0 b).complete h 0 [])) ∧
        (natAt p 4 1 = 1 → natAt p 8 8 % 4096 = 0 → natAt p 8 8 + b.total ≤ r.size →
          let first := (r.base + natAt p 8 8 - hostBase) / 4096
          let inside (i : Nat) : Bool := decide (first ≤ i) && decide (i < first + cdiv b.total 4096)
          let taken := s.mem.hostPages.any fun e => inside e.1 && bitAt e.2.toNat 0
          let s1 := s.mapHost r (natAt p 8 8) b
          let due := s1.mem.faults.filter fun f => inHost f.addr && inside ((f.addr - hostBase) / 4096)
          (s.job.state = .running → taken = true → exec (.regionBind mbx) s = .next (s.complete h 5 [])) ∧
          (s.job.state ≠ .running ∨ taken = false → exec (.regionBind mbx) s =
            .next ((due.foldl (fun (s : State) f => s.retryPage f) s1).complete h 0 [])))) ∧
      (natAt p 4 1 = 2 → natAt p 6 2 < 4 → exec (.regionBind mbx) s =
        .next (({ s with job := { s.job with drains := s.job.drains.set! (natAt p 6 2) (some b) } } : State).complete h 0 [])))

/-- The commands that run a job: JOB_START of a twin job sends its identity and starts a job that is bound, restored and agrees
with its twin, whose identity is an input of the model (log 6); a replay indexes its capture, in the model's own layout (R276, R282; log 24). Pause and resume act on
every rank, JOB_ABORT ends it on every rank; a message of another rank is applied by its epoch (R385, R406 to R408). A relayed
image chunk goes on; in state C it joins the held ones, and the last one loads the image (R422).
Statuses that the tables leave open are the model's choices (log 68). -/
def Obligations.JobsAreRun : Prop :=
  (∀ (s : State) (mbx : Fin 9) (h : Held),
     (s.Takes mbx 0x23 h →
       let e := s.fresh.1
       let u := s.fresh.2.sendTwinIdentity
       (u.mayStart e = false → exec (.jobStart mbx) s = .next (u.complete h 8 [])) ∧
       (u.mayStart e = true →
         let s1 := u.mapCores fun c => if c.partner.isSome then { c with migHold := true } else c
         let s2 : State := { s1 with rep := { s1.rep with linked := s1.job.twin } }
         let scan := if s2.job.replay then scanCapture (s2.job.capSize / capHead) 0 s2 else (s2, s2.job.capIndex)
         let s3 : State := { scan.1 with job := { scan.1.job with capIndex := scan.2 } }
         exec (.jobStart mbx) s = .next (((s3.setJobState .running 1).checkComplete).complete h 0 []))) ∧
     (s.Takes mbx 0x24 h → exec (.jobPause mbx) s = .next ((s.pauseAll 1).complete h 0 [])) ∧
     (s.Takes mbx 0x25 h → exec (.jobResume mbx) s = .next ((s.resumeAll 1).complete h 0 [])) ∧
     (s.Takes mbx 0x26 h →
       let e := s.job.epoch + 1
       let s1 := s.flood 2 (jobMessage s.job.id.toNat e 3 7 s.ownAddr.toNat)
       exec (.jobAbort mbx) s =
         .next ((({ s1 with job := { s1.job with epoch := e, epochOp := 3 } } : State).abortJob 7).complete h 0 [])) ∧
     (∀ (port : Fin 6) (ctl : Ctl) (payload : List Byte), s.freshCtl port.val ctl = true →
       s.job.state ≠ .none → s.job.state ≠ .ended → natAt payload 0 4 = s.job.id.toNat →
       let s1 := s.relayCtl port.val 2 ctl payload
       let epoch := natAt payload 4 4
       let op := natAt payload 8 1
       let reason := natAt payload 9 1
       let s2 : State := { s1 with job := { s1.job with epoch, epochOp := op } }
       (s.job.applies epoch op = false → exec (.jobControlMessage port ctl payload) s = .next s1) ∧
       (s.job.applies epoch op = true →
         (op = 1 → s.job.state = .running → exec (.jobControlMessage port ctl payload) s = .next (s2.setJobState .paused reason)) ∧
         (op = 2 → s.job.state = .paused → exec (.jobControlMessage port ctl payload) s = .next (s2.runOn reason)) ∧
         (op = 3 → exec (.jobControlMessage port ctl payload) s = .next (s2.abortJob reason))))) ∧
  (∀ (s : State) (port : Fin 6) (ctl : Ctl) (payload : List Byte), s.freshCtl port.val ctl = true →
     let s1 := s.relayCtl port.val 5 ctl payload
     let index := natAt payload 4 4
     let count := natAt payload 8 4
     let len := natAt payload 12 4
     let held := s.job.relay.held
     (s.job.state ≠ .created → exec (.imageRelay port ctl payload) s = .next s1) ∧
     (s.job.state = .created → natAt payload 0 4 = s.job.id.toNat → len ≤ 4064 → index < count → (∀ c ∈ held, c.1 ≠ index) →
       (held.length + 1 < count → exec (.imageRelay port ctl payload) s =
         .next { s1 with job := { s1.job with relay := ⟨count, held ++ [(index, sub payload 32 len)]⟩ } }) ∧
       (count ≤ held.length + 1 →
         let raw := (List.range count).flatMap fun i =>
           (((held ++ [(index, sub payload 32 len)]).find? fun c => c.1 == i).map (·.2)).getD []
         exec (.imageRelay port ctl payload) s =
           .next (({ s1 with job := { s1.job with relay := ⟨0, []⟩ } } : State).load raw).2)))

/-- CKPT_REQUEST asks for a boundary, CKPT_STATUS answers the slots, commits the next generation or starts a drain, RESTORE
starts a restore, for which the buddy is asked (R365, R380, R382, R384, R410). TEST_PUSH verifies a package and sends it on where asked; TEST_STATUS answers
the masks of an accepted one, and version 0 of any other (R355, R356, R364).
Statuses that the tables leave open are the model's choices (log 68). -/
def Obligations.CheckpointAndTestCommands : Prop :=
  (∀ (s : State) (mbx : Fin 9) (h : Held),
     let p := h.payload
     (s.Takes mbx 0x30 h → exec (.ckptRequest mbx) s = .next ((if natAt p 4 1 = 0
       then s.requestBoundary (natAt p 8 4) s.ownAddr.toNat else (s.sendRequest 1 0xFFFF 0).2).complete h 0 [])) ∧
     (s.Takes mbx 0x31 h →
       (natAt p 4 1 = 0 → ∀ s1 a s2 b, s.slotRecord false = (s1, a) → s1.slotRecord true = (s2, b) →
         exec (.ckptStatus mbx) s = .next (s2.complete h 0 (a ++ b))) ∧
       (natAt p 4 1 = 1 →
         let gen := natAt p 8 8
         let s1 : State := { s with ckpt := { s.ckpt with committed := gen } }
         (gen = s.ckpt.committed + 1 → gen = s.ckpt.postedGen → exec (.ckptStatus mbx) s =
           .next ((if s.job.capture && s.job.rolling then s1.trimCapture s1.ckpt.postedB else s1).complete h 0 [])) ∧
         (gen ≠ s.ckpt.committed + 1 ∨ gen ≠ s.ckpt.postedGen → exec (.ckptStatus mbx) s = .next (s.complete h 2 []))) ∧
       (natAt p 4 1 = 2 → natAt p 16 1 ≤ 1 → natAt p 17 1 ≤ 3 → 1 ≤ natAt p 18 1 → natAt p 18 1 ≤ 32 → s.ckpt.drain = none →
         (s.job.drains[natAt p 17 1]?.join).isSome = true → (s.mem.slotBase (natAt p 16 1 == 1)).isSome = true →
         exec (.ckptStatus mbx) s = .next ((({ s with ckpt := { s.ckpt with
           drain := some (natAt p 16 1 == 1, natAt p 17 1, natAt p 18 1) } } : State).showPhase.ckptNote (natAt p 16 1 == 1) 0 2).complete
             h 0 []))) ∧
     (s.Takes mbx 0x32 h → s.ckpt.restore = none →
       let host := natAt p 16 1 == 1
       let w := natAt p 17 1
       let s1 := ({ s with ckpt := { s.ckpt with restore := some (natAt p 8 8, host, w) } } : State).showPhase
       (host = true → w ≤ 3 → (s.job.drains[w]?.join).isSome = true → exec (.restore mbx) s = .next (s1.complete h 0 [])) ∧
       (host = false → w ≤ 1 → exec (.restore mbx) s = .next ((s1.ckptNote (w == 1) 0 4).complete h 0 [])) ∧
       ((host = true ∧ 3 < w) ∨ (host = false ∧ 1 < w) → exec (.restore mbx) s = .next (s.complete h 2 [])))) ∧
  (∀ (s : State) (mbx : Fin 9) (h : Held) (b : HostBuf),
     (s.Takes mbx 0x40 h → s.mem.usable ≠ 0 → s.HostBuffer (sub h.payload 0 16) b →
       let bs := s.bufAll b
       let r := s.takePackage bs
       exec (.testPush mbx) s =
         .next ((if r.1 && natAt h.payload 16 1 = 1 then r.2.floodPackage bs else r.2).complete h 0 [])) ∧
     (s.Takes mbx 0x41 h →
       (∀ k, (s.chk.packages.find? fun k => k.id.toNat == natAt h.payload 0 8) = some k → exec (.testStatus mbx) s =
         .next (s.complete h 0 (bytesOf 4 k.version.toNat ++ bytesOf 4 k.due.toNat ++ bytesOf 4 k.passed.toNat ++ bytesOf 4 k.failed.toNat))) ∧
       ((s.chk.packages.find? fun k => k.id.toNat == natAt h.payload 0 8) = none →
         exec (.testStatus mbx) s = .next (s.complete h 0 (zeros 16)))))

/-- TELEMETRY answers a record, LOG_READ log text, LINK_STATUS the status of a fabric port, of the PCIe link, of a Scree port or of them all, where
the manual gives the PCIe link no status register and the bytes are free (log 38); POWER_POLICY sets the limits, CORE_RETIRE takes
a core out of service, DEBUG_ATTACH holds one (R405, R411, R415, R439). -/
def Obligations.ServiceCommands : Prop :=
  ∀ (s : State) (mbx : Fin 9) (h : Held) (b : HostBuf),
    let p := h.payload
    (s.Takes mbx 0x50 h →
      (s.telemetry (natAt p 0 1) (natAt p 1 1) = none → exec (.telemetry mbx) s = .next (s.complete h 2 [])) ∧
      (∀ r t, s.telemetry (natAt p 0 1) (natAt p 1 1) = some (r, t) →
        let t1 : State := { t with host := { t.host with mirrorMs := if natAt p 4 4 = 0 then t.host.mirrorMs else natAt p 4 4 } }
        (r.length ≤ 4080 → exec (.telemetry mbx) s = .next (t1.complete h 0 r)) ∧
        (4080 < r.length → s.HostBuffer (sub p 16 16) b →
          exec (.telemetry mbx) s = .next (if b.total < r.length then s.complete h 2 []
            else (t1.writeBuf b 0 r).complete h 0 (r.take 4080))))) ∧
    (s.Takes mbx 0x51 h → s.HostBuffer (sub p 8 16) b →
      let off := natAt p 0 8
      let text := (s.pow.flash.log.drop off).take b.total
      exec (.logRead mbx) s =
        .next ((s.writeBuf b 0 text).complete h 0 (bytesOf 4 text.length ++ zeros 4 ++ bytesOf 8 (off + text.length)))) ∧
    (s.Takes mbx 0x52 h →
      let l := natAt p 0 2
      let t := natAt p 2 1
      let f := natAt p 3 1
      ((l = 0 ∨ (600 ≤ l ∧ l ≤ 1400)) → (t = 0 ∨ (85 ≤ t ∧ t ≤ 100)) →
        let s1 : State := { s with pow := { s.pow with
          limitW := if l = 0 then s.pow.limitW else l, tthrot := if t = 0 then s.pow.tthrot else t,
          spareWarm := bitAt f 0, sliceIdleOff := bitAt f 1 } }
        let on := (if bitAt f 0 then s1.spareDomains else []) ++ if bitAt f 1 then [] else (List.range 32).map fun n => dom (80 + n)
        exec (.powerPolicy mbx) s = .next ((on.foldl (fun (s : State) d => s.domainRequest d true) s1).idleSlices.complete h 0 [])) ∧
      ((l ≠ 0 ∧ (l < 600 ∨ 1400 < l)) ∨ (t ≠ 0 ∧ (t < 85 ∨ 100 < t)) → exec (.powerPolicy mbx) s = .next (s.complete h 2 []))) ∧
    (s.Takes mbx 0x53 h →
      let link := natAt p 0 1
      let fabric (n : Nat) : List Byte := padTo 16 (bytesOf 4 (s.port n).status ++ bytesOf 4 (s.port n).hb)
      let scree (n : Nat) : List Byte := padTo 16 (bytesOf 4 (s.mem.screeStatus s.holdsSlots n))
      let pcie := undefCells 8 s.fresh.1 16
      (link < 8 → exec (.linkStatus mbx) s = .next (s.complete h 0 (fabric link))) ∧
      (link = 8 → exec (.linkStatus mbx) s = .next (s.fresh.2.complete h 0 pcie)) ∧
      (9 ≤ link → link ≤ 12 → exec (.linkStatus mbx) s = .next (s.complete h 0 (scree (link - 9)))) ∧
      (link = 0xFF → exec (.linkStatus mbx) s =
        .next (s.fresh.2.complete h 0 ((List.range 8).flatMap fabric ++ pcie ++ (List.range 4).flatMap scree))) ∧
      (12 < link → link ≠ 0xFF → exec (.linkStatus mbx) s = .next (s.complete h 2 []))) ∧
    (∀ c : Fin 20, s.Takes mbx 0x54 h → natAt p 0 1 = c.val → (s.core c).kind = .active ∨ (s.core c).kind = .spare →
      exec (.coreRetire mbx) s = .next ((s.retireCore c 4).complete h 0 [])) ∧
    (∀ c : Fin 20, s.Takes mbx 0x60 h → natAt p 5 1 = c.val → s.job.debug = true → (s.core c).v.isSome = true →
      (natAt p 4 1 = 1 → s.debugCore = none → exec (.debugAttach mbx) s =
        .next ((s.modCore c fun c => { c.stop with debugHeld := true }).complete h 0 [])) ∧
      (natAt p 4 1 = 0 → s.debugCore = some c → exec (.debugAttach mbx) s =
        .next ((s.modCore c fun c => { c with debugHeld := false }).complete h 0 [])))

/-- CORE_AFLAGS_SET sets the flags whose bits are 1 and no other, changes nothing else, and reads as zero (R73). -/
def Obligations.AflagsSetSetsFlags : Prop :=
  ∀ (s : State) (p : Fin 20) (value : Word), s.readReg (.core p) 0x44 = 0 ∧
    ((s.core p).v = none → exec (.coreAflagsSet p value) s = .next s) ∧
    ∀ v : VCore, (s.core p).v = some v → ∃ f : ArithFlags,
      exec (.coreAflagsSet p value) s = .next (s.setCore p { s.core p with v := some { v with flags := f } }) ∧
      f.ftz = (v.flags.ftz || value[0]) ∧ f.ovf = (v.flags.ovf || value[1]) ∧ f.isat = (v.flags.isat || value[2]) ∧
      f.inv = (v.flags.inv || value[3])

/-- A register write changes the fields its access code lets it change (R14; which fields have no command of their own is the model's, log 17):
CORE_AFLAGS clears by ones (R72), and so does ING_EVENT.valid; TWIN_CTRL takes no write while a job is on the device; the topology, pair and resend
registers and a port's width limit are written; CKPT_COMMITTED is written; a Cairn register ignores a NaN, a negative or an infinite value (R362);
PWR_CTRL ignores a field outside its range (Table 15.7); the PCIe configuration space, which is PRESUMED (log 71), takes a size of BAR2 from 1 to
128 GiB (R392). What is written in the memory space has commands of its own (Table 10.8). -/
def Obligations.RegisterWrites : Prop :=
  ∀ (s : State),
    (∀ (p : Fin 20) (value : DWord) (v : VCore), (s.core p).v = some v → ∃ f : ArithFlags,
      exec (.registerWrite (.core p) 0x40 value) s = .next (s.setCore p { s.core p with v := some { v with flags := f } }) ∧
      f.ftz = (v.flags.ftz && !value[0]) ∧ f.ovf = (v.flags.ovf && !value[1]) ∧ f.isat = (v.flags.isat && !value[2]) ∧
      f.inv = (v.flags.inv && !value[3])) ∧
    (∀ (p : Fin 20) (value : DWord),
      exec (.registerWrite (.core p) 0x100 value) s = .next (s.modCore p fun c => { c with zskipEn := value[0] }) ∧
      exec (.registerWrite (.core p) 0x300 value) s = .next (s.modCore p fun c => { c with migHold := value[0] }) ∧
      exec (.registerWrite (.core p) 0x900 value) s = .next (s.modCore p fun c => { c with resubLost := c.resubLost && !value[7] }) ∧
      exec (.registerWrite (.core p) 0xA00 value) s = .next (s.modCore p fun c => { c with rotate := value[0], stepHold := value[2] })) ∧
    (∀ (off : Nat) (value : DWord), exec (.registerWrite .memory off value) s = .next s) ∧
    (∀ (value : DWord), exec (.registerWrite .ingest 8 value) s = .next (if value[8] then
      { s with ing := { s.ing with evCode := 0, evValid := false, evSlot := 0, evStep := 0 } } else s)) ∧
    (∀ (value : DWord), exec (.registerWrite .replay 0 value) s = .next (if s.jobLive then s
      else { s with rep := { s.rep with enable := value[0], cont := value[1] } })) ∧
    (∀ (value : DWord), let w := value.setWidth 32
      exec (.registerWrite .fabric 0 value) s = .next { s with fab := { s.fab with topo := w &&& 0xFFFF7FFF } } ∧
      exec (.registerWrite .fabric 4 value) s = .next { s with fab := { s.fab with pair := w &&& 0x7FFF7FFF } } ∧
      exec (.registerWrite .fabric 8 value) s = .next { s with fab := { s.fab with e2e := w &&& 0x000FFFFF } } ∧
      ∀ n : Fin 8, exec (.registerWrite .fabric (0x100 + 0x40 * n.val) value) s = .next (s.modPort n.val fun q =>
        { q with maxWidth := BitVec.ofNat 2 (value.toNat / 2), v2Allow := value[4] })) ∧
    (∀ (value : DWord), exec (.registerWrite .checkpoint 0x10 value) s =
      .next { s with ckpt := { s.ckpt with committed := value.toNat } }) ∧
    (∀ (value : DWord) (b : Nat), b < 85 →
      let w := value.setWidth 32
      let x := fp32.decode w.toNat
      let takes := x.isNan = false ∧ x.isInf = false ∧ x.lt (.zero false) = false
      let k := s.chk.buckets[b]!
      let puts (n : Bucket) : Host.Outcome State Fault Refusal := .next { s with chk := { s.chk with buckets := s.chk.buckets.set! b n } }
      exec (.registerWrite .cairn (0x20 * b) value) s = puts { k with level := w } ∧
      exec (.registerWrite .cairn (0x20 * b + 0x18) value) s = puts { k with failed := k.failed && !value[1], enable := value[2] } ∧
      (takes → exec (.registerWrite .cairn (0x20 * b + 4) value) s = puts { k with inc := w } ∧
        exec (.registerWrite .cairn (0x20 * b + 8) value) s = puts { k with inc2 := w } ∧
        exec (.registerWrite .cairn (0x20 * b + 0xC) value) s = puts { k with leak := w } ∧
        exec (.registerWrite .cairn (0x20 * b + 0x10) value) s = puts { k with warn := w } ∧
        exec (.registerWrite .cairn (0x20 * b + 0x14) value) s = puts { k with fail := w } ∧
        exec (.registerWrite .cairn (0x20 * b + 0x1C) value) s = puts (if 64 ≤ b ∧ b < 84 then { k with inc3 := w } else k)) ∧
      (¬ takes → ∀ o ∈ [4, 8, 0xC, 0x10, 0x14, 0x1C], exec (.registerWrite .cairn (0x20 * b + o) value) s = puts k)) ∧
    (∀ (value : DWord), let l := value.toNat % 2048
      let t := value.toNat / 4096 % 128
      exec (.registerWrite .power 0 value) s = .next ({ s with pow := { s.pow with
        limitW := if 600 ≤ l ∧ l ≤ 1400 then l else s.pow.limitW, tthrot := if 85 ≤ t ∧ t ≤ 100 then t else s.pow.tthrot,
        spareWarm := value[19], sliceIdleOff := value[20] } } : State).idleSlices) ∧
    (∀ (value : DWord), s.host.pcieUp = true → let n := value.toNat / 256 % 64
      exec (.registerWrite .pci 4 value) s = .next ({ s with host := { s.host with busMaster := value[2] } } : State).pump ∧
      exec (.registerWrite .pci 0x158 value) s = .next (if 10 ≤ n ∧ n ≤ 17 then { s with host := { s.host with bar2Log2 := 20 + n } } else s))

/-- Resets: a cold reset or a rail out of its window leaves fuses, flash, the Scree tier and host memory and starts at Instar 0
without a job; PERST saves the health record and makes a warm reset due, which starts at Instar 1 without a job and keeps the
Scree tier; a function-level reset resets the PCIe side and leaves cores, job and memory. The warm reset clears the requests of
the power domains, which are RW (R14, R430, R431, R457).
What else a warm reset keeps is the model's reading (log 39). -/
def Obligations.ResetsRestart : Prop :=
  ∀ (s : State),
    (∃ t, exec .coldReset s = .next t ∧ exec .railOutOfWindow s = .next t ∧ t.pow.boot = .instar0 ∧ t.pow.fuses = s.pow.fuses ∧
      t.pow.flash = s.pow.flash ∧ t.mem.scree = s.mem.scree ∧ t.mem.host = s.mem.host ∧ t.job = .empty ∧ t.host = .off ∧
      (∀ p : Fin 20, (t.core p).v = none) ∧ t.out = s.out) ∧
    (s.pow.boot = .imago → ∃ t, exec .perst s = .next t ∧ t.pow.perst = true ∧
      t.pow.flash.health = s.chk.buckets.toList.map (·.level) ∧ t.cores = s.cores ∧ t.job = s.job ∧ t.mem = s.mem ∧ t.host = s.host) ∧
    (s.alive = true → s.pow.perst = true ∨ s.pow.activateReset = true → ∃ t, exec .warmReset s = .next t ∧ t.pow.boot = .instar1 ∧
      t.pow.perst = false ∧ t.pow.activateReset = false ∧ t.pow.fuses = s.pow.fuses ∧ t.mem.scree = s.mem.scree ∧
      t.mem.host = s.mem.host ∧ t.job = .empty ∧ t.host = .off ∧ (∀ p : Fin 20, (t.core p).v = none) ∧
      t.pow.reqs = 0 ∧ t.chk.packages = s.chk.packages ∧ ∀ b : Fin 128, (t.chk.buckets[b]).level = (s.chk.buckets[b]).level) ∧
    (s.host.pcieUp = true → ∃ t, exec .functionLevelReset s = .next t ∧ t.cores = s.cores ∧ t.job = s.job ∧ t.mem = s.mem ∧ t.fab = s.fab ∧
      t.pow = s.pow ∧ t.host.nego = 0xFF ∧ t.host.evEnable = false ∧ t.host.msix = [] ∧ t.host.bar2Win = 0 ∧ t.host.busMaster = false ∧
      t.host.dma = false ∧ t.host.boxes[8] = s.host.boxes[8] ∧ ∀ m : Fin 8, (t.host.boxes[m.val]!).busy = false)

/-- Bring-up runs Instar 0 to Instar 4 in order and ends in Imago; without an authentic package the ROM enters recovery, with the PCIe link on
the lanes with light (R453); a GDDR7 channel is enabled that trained, is powered and is not retired (R294); the PCIe link, the expanders and the
fabric ports come up as they train, on lanes with light and in powered domains, and enable takes the value of a verified record (R15, R296, R426,
R427); Instar 4 writes the record of each unit trained in full that flash takes and leaves the others (R428; the body that the CRC covers is the
model's, log 39); a trial
slot that has not reached Imago is given up by a warm reset (R423, R442, R444).
The order in which slots are tried after a fallback is the model's reading (log 57). -/
def Obligations.BringUpRuns : Prop :=
  ∀ (s : State),
    (s.pow.boot = .instar0 → ∃ t, exec .instar0 s = .next t ∧ t.pow = { s.pow with boot := .instar1 } ∧
      ∀ p : Fin 20, t.core p = { s.core p with kind := s.pow.kindOf p }) ∧
    (s.pow.boot = .instar1 →
      ((s.pow.slotOrder.find? fun b => s.pow.fuses.authentic (s.pow.flash.slot b)) = none → exec .instar1 s =
        .next { s with pow := { s.pow with boot := .recovery }, host := { s.host with pcieUp := s.pow.linkLit .host } }) ∧
      (∀ b, (s.pow.slotOrder.find? fun b => s.pow.fuses.authentic (s.pow.flash.slot b)) = some b → ∃ t, exec .instar1 s = .next t ∧
        t.pow.boot = .instar2 ∧ t.pow.runningB = b ∧ s.pow.fuses.authentic (s.pow.flash.slot b) = true ∧
        t.pow.vendorKey = sub (s.pow.flash.slot b) 32 48 ∧ t.pow.flash = s.pow.flash ∧ t.cores = s.cores ∧ t.mem = s.mem)) ∧
    (∀ trained full, s.pow.boot = .instar2 → ∃ t, exec (.instar2 trained full) s = .next t ∧ t.pow.boot = .instar3 ∧
      (∀ c < 24, bitAt t.mem.channels.toNat c = true ↔
        bitAt trained.toNat c = true ∧ bitAt s.pow.flash.healthChannels.toNat c = false ∧ s.pow.domainOk (dom (120 + c)) = true) ∧
      (∀ a, t.mem.gddr.get a = 0) ∧ t.mem.gddrBad = [] ∧ t.cores = s.cores) ∧
    (∀ links, s.pow.boot = .instar3 →
      let linked (c : Fin 4) : Bool :=
        links.cxl[c].up && s.pow.linkLit (.cxl c) && links.cxl[c].expanderOk && s.pow.domainOk (dom (144 + c.val))
      let used := (List.finRange 8).filter fun n => ({ s.fab with topo := (s.pow.flash.topology.getD (0, 0)).1 } : Fabric).usesPort n.val
      ∃ up out x4 fast : BitVec 4, (∀ c : Fin 4, up[c] = linked c ∧ out[c] = !linked c ∧ x4[c] = (linked c && links.cxl[c].x4) ∧
          fast[c] = (linked c && links.cxl[c].gt16)) ∧
        let s1 : State := { s with host := { s.host with pcieUp := links.pcieUp && s.pow.linkLit .host },
                                   mem := { s.mem with screeLinked := up, screeOut := out, screeX4 := x4, screeGt16 := fast, screeDown := 0 } }
        let u := used.foldl (fun (s : State) n => s.trainPort n.val
          (if s1.pow.domainOk (dom (112 + n.val)) then links.fabric[n] else { links.fabric[n] with groups := 0 })) s1
        let recorded (n : Fin 8) : Prop := links.fabric[n].full = false ∧
          ∃ r, s.pow.recordOf (29 + n.val) = some r ∧ r.width = 4 * (4 - (u.port n.val).width.toNat)
        ∃ t, exec (.instar3 links) s = .next t ∧ t.pow.boot = .instar4 ∧ t.host = u.host ∧ t.mem = u.mem ∧ t.cores = u.cores ∧
          ∀ n : Fin 8, (t.port n.val).state = (u.port n.val).state ∧ (t.port n.val).width = (u.port n.val).width ∧
            (t.port n.val).v3 = (u.port n.val).v3 ∧
            ((t.port n.val).enable = true ↔ (u.port n.val).enable = true ∨ (n ∈ used ∧ (u.port n.val).state = .up ∧ recorded n))) ∧
    (∀ r, s.pow.boot = .instar4 → ∃ u : State, exec (.instar4 r) s = .next u.startTests ∧ u.pow.boot = .imago ∧
      u.pow.flash.trial = false ∧ u.pow.fallback = none ∧
      (∀ x ∈ s.pow.flash.records, bitAt s.pow.trained.toNat x.unit = false ∨ bitAt r.failed.toNat x.unit = true → x ∈ u.pow.flash.records) ∧
      ∀ unit < 37, bitAt s.pow.trained.toNat unit = true → bitAt r.failed.toNat unit = false →
        ∃ x, (u.pow.flash.records.filter fun y => y.unit == unit) = [x] ∧ x.crc = crc32c (recordBody x) ∧
          x.format = Config.recordFormat s.pow.fwBuild) ∧
    (s.pow.runningTrial = true → s.alive = true → s.pow.boot ≠ .imago → s.pow.boot ≠ .recovery → ∃ t, exec .bringUpWatchdog s = .next t ∧
      t.pow.boot = .instar1 ∧ t.pow.slotOrder = [!t.pow.flash.selectedB, t.pow.flash.selectedB])

/-- The throttle's levels move by at most one a tick, stay within 0 to 48, rise where the limit or the temperature is reached
and fall only below 98 % of the limit or 2 degrees below the temperature (R436); a core that may run faster at a lowered setpoint waits for the
regulator (R456; firmware's policy is the model's, log 57). A throttle tick moves the levels, and a sensor
at 108 degrees trips the device, which loses the job and every switched domain; a tripped device does not throttle (R436, R438).
Which sensor belongs to which core is the model's choice (log 34). -/
def Obligations.Throttle : Prop :=
  (∀ (w : Power) (estimateW : Nat) (temps : Vector Nat 32), w.g ≤ 48 → (∀ p : Fin 20, w.h[p] ≤ 48) →
     let u := w.throttle estimateW temps
     (u.g ≤ 48 ∧ u.g ≤ w.g + 1 ∧ w.g ≤ u.g + 1) ∧ (w.limitW < estimateW → w.g < 48 → u.g = w.g + 1) ∧
     (100 * estimateW < 98 * w.limitW → u.g = w.g - 1) ∧ (estimateW ≤ w.limitW → 98 * w.limitW ≤ 100 * estimateW → u.g = w.g) ∧
     (∀ p : Fin 20, max u.g u.h[p] < max w.g w.h[p] → w.setMv < 800 ∨ (w.regLink = true ∧ w.measMv < w.setMv) → u.raises[p] = some false) ∧
     (∀ p : Fin 20, max w.g w.h[p] ≤ max u.g u.h[p] → u.raises[p] = w.raises[p]) ∧
     ∀ p : Fin 20, (u.h[p] ≤ 48 ∧ u.h[p] ≤ w.h[p] + 1 ∧ w.h[p] ≤ u.h[p] + 1) ∧
       (w.tthrot ≤ temps[p.val]! → w.h[p] < 48 → u.h[p] = w.h[p] + 1) ∧
       ((∃ i, 20 ≤ i ∧ i < 32 ∧ w.tthrot ≤ temps[i]!) → w.h[p] < 48 → u.h[p] = w.h[p] + 1) ∧
       ((∀ i, 20 ≤ i → i < 32 → temps[i]! < w.tthrot) → temps[p.val]! + 2 ≤ w.tthrot → u.h[p] = w.h[p] - 1)) ∧
  (∀ (s : State),
     (∀ estimateW temps, s.pow.boot = .tripped → exec (.throttleTick estimateW temps) s = .next s) ∧
     (∀ estimateW (temps : Vector Nat 32), s.pow.boot = .imago → (∀ i : Fin 32, temps[i] < 108) →
       s.pow.throttled = (s.pow.throttle estimateW temps).throttled →
       exec (.throttleTick estimateW temps) s = .next { s with pow := s.pow.throttle estimateW temps }) ∧
     (∀ (sensor : Fin 32) (temp : Nat), 108 ≤ temp → s.pow.boot ≠ .tripped → ∃ t, exec (.thermalTrip sensor temp) s = .next t ∧
       t.pow.boot = .tripped ∧ t.job = .empty ∧ (∀ d : Fin 148, t.pow.domains[d] = .off ∨ t.pow.domains[d] = .fault) ∧
       (∀ p : Fin 20, (t.core p).v = none) ∧ t.pow.flash = s.pow.flash ∧ t.mem.scree = s.mem.scree ∧
       ∃ text, t.out = s.out ++ if s.pow.hLit then consoleFrames text else []))

/-- Requests to a domain and the end of its sequence follow Table 15.5; a domain that is fused off or in FAULT takes none, and firmware
powers off no domain that holds state of the job (R435; which it takes those to be is the model's, log 58); a
rail that does not come good puts it in FAULT and retires its core (R433, R434). -/
def Obligations.PowerDomainsFollowTable : Prop :=
  ∀ (s : State) (d : Fin 148),
    let x := s.pow.domains[d]
    (s.pow.fuses.off d.val = true ∨ x = .fault →
      exec (.domainPowerOnRequest d) s = .next s ∧ exec (.domainPowerOffRequest d) s = .next s) ∧
    (s.pow.fuses.off d.val = false →
      (∀ y, (x, y) ∈ [(DomState.off, DomState.poweringOn), (.poweringOn, .poweringOn), (.on, .on), (.poweringOff, .offPendingOn),
          (.offPendingOn, .offPendingOn), (.onPendingOff, .poweringOn)] →
        exec (.domainPowerOnRequest d) s = .next { s with pow := { s.pow with
          domains := s.pow.domains.set d y, reqs := s.pow.reqs ||| BitVec.ofNat 148 (2 ^ d.val) } }) ∧
      (∀ y, (x, y) ∈ [(DomState.off, DomState.off), (.poweringOn, .onPendingOff), (.on, .poweringOff), (.poweringOff, .poweringOff),
          (.offPendingOn, .poweringOff), (.onPendingOff, .onPendingOff)] →
        (s.domainNeeded d.val = false → exec (.domainPowerOffRequest d) s = .next { s with pow := { s.pow with
          domains := s.pow.domains.set d y, reqs := s.pow.reqs &&& ~~~BitVec.ofNat 148 (2 ^ d.val) } }) ∧
        (s.domainNeeded d.val = true → exec (.domainPowerOffRequest d) s = .next s))) ∧
    (x = .poweringOn → exec (.domainSequenceEnd d) s = .next (s.setDomain d .on)) ∧
    (x = .onPendingOff → exec (.domainSequenceEnd d) s = .next (s.setDomain d .poweringOff)) ∧
    (x = .poweringOff → exec (.domainSequenceEnd d) s = .next ((s.setDomain d .off).domainLost d.val)) ∧
    (x = .offPendingOn → exec (.domainSequenceEnd d) s = .next ((s.setDomain d .poweringOn).domainLost d.val)) ∧
    (x = .poweringOn ∨ x = .onPendingOff →
      let s1 := (s.setDomain d .fault).post 0x0F03 (bytesOf 2 d.val ++ bytesOf 1 (if d.val < 80 then d.val / 4 else 0xFF))
      exec (.domainFault d) s = .next (if d.val < 80 then s1.retireCore (Fin.ofNat 20 (d.val / 4)) 4 else s1))

/-- Laser inputs show as present or absent: light lets a port send what waited, and a link in service that loses light fails. The
regulator link asks for 800 mV until Imago and holds a core's clock stretched until a measured voltage reaches its setpoint; a
reply of another sequence number, or none until the next frame, takes the link down (R453, R455, R456, R458). A link in service that fails aborts the tasks and slots
that wait on it and goes down; once it is up again firmware resubmits what waited for the links; Bus Master Enable and the power
state let requests to host memory go on (R216, R351, R392, R431).
That packets for a port with a dark lane wait in its send queues is the model's choice (log 65). -/
def Obligations.SuppliesAndLinks : Prop :=
  (∀ (s : State),
     (∀ i : Fin 22, ∃ lit unlit : BitVec 22,
       (lit[i] = true ∧ unlit[i] = false ∧ ∀ j : Fin 22, j ≠ i → lit[j] = s.pow.lasers[j] ∧ unlit[j] = s.pow.lasers[j]) ∧
       (let t : State := { s with pow := { s.pow with lasers := lit } }
        let n := i.val / 2
        let q := s.port n
        let may (w : Waiting) : Bool := !(q.starved && onData w.packet)
        let go := (q.sendq.filter may).map fun w => w.packet
        (8 ≤ n ∨ q.state ≠ .up ∨ go = [] ∨ t.shines n = false → exec (.laserPresent i) s = .next t) ∧
        (n < 8 → q.state = .up → go ≠ [] → t.shines n = true → exec (.laserPresent i) s =
          .next ((t.modPort n fun q => { q with sendq := q.sendq.filter fun w => !may w }).linkOut n
            (go.filter isCheckpoint ++ go.filter fun p => !isCheckpoint p)))) ∧
       (let u : State := { s with pow := { s.pow with lasers := unlit } }
        let dark := (HostLink.host :: (List.finRange 4).map .cxl).filter fun l => s.linkLive l && !u.pow.linkLit l
        exec (.laserAbsent i) s = .next (dark.foldl State.linkError u))) ∧
     (s.pow.boot ≠ .instar0 → ∃ t mv, exec .regulatorFrame s = .next t ∧ t.pow.setMv = mv ∧ t.pow.regSeq = s.pow.regSeq + 1 ∧
       (s.pow.boot ≠ .imago → mv = 800) ∧ t.pow.regLink = (s.pow.regLink && !s.pow.regWaits) ∧ t.pow.regWaits = true ∧
       (∀ p : Fin 20, t.pow.raises[p] = (s.pow.raises[p]).map fun _ => true) ∧
       (s.pow.boot = .imago → mv < s.pow.setMv → 650 ≤ mv ∧ mv ≤ 800 ∧ ∀ p : Fin 20, (s.core p).kind = .active → 0 < max s.pow.g s.pow.h[p]) ∧
       t.out = s.out ++ if s.pow.hLit then [OutMsg.regulator ([0x01, s.pow.regSeq + 1] ++ bytesOf 2 mv ++
         bytesOf 4 (crc32c ([0x01, s.pow.regSeq + 1] ++ bytesOf 2 mv)).toNat)] else []) ∧
     (∀ (seq : Byte) (mv : BitVec 10),
       (seq = s.pow.regSeq → exec (.regulatorReply true seq mv) s = .next { s with pow := { s.pow with
         regLink := true, regWaits := false, measMv := mv.toNat,
         raises := s.pow.raises.map fun r => if r = some true && decide (s.pow.setMv ≤ mv.toNat) then none else r } }) ∧
       (seq ≠ s.pow.regSeq → exec (.regulatorReply true seq mv) s = .next { s with pow := { s.pow with regLink := false } }) ∧
       exec (.regulatorReply false seq mv) s = .next { s with pow := { s.pow with regLink := false } })) ∧
  (∀ (s : State),
     (s.host.pcieUp = true → exec (.hostOrCxlLinkError .host) s = .next (s.linkError .host) ∧
       exec .busMasterEnable s = .next ({ s with host := { s.host with busMaster := true } } : State).pump ∧
       ∀ d3, exec (.pciePowerStateChange d3) s = .next ({ s with host := { s.host with d3hot := d3 } } : State).pump) ∧
     (s.host.pcieUp = true → s.ing.plan = [] → s.job.hostTarget = false → ∃ t, exec (.hostOrCxlLinkError .host) s = .next t ∧
       t.host = { s.host with pcieUp := false } ∧ ∀ p : Fin 20, t.core p = (s.core p).linkAbort s.mem .host) ∧
     (s.host.pcieUp = false → s.pow.boot = .imago → s.pow.linkLit .host = true → exec (.hostOrCxlLinkUp .host) s =
       .next (({ s with host := { s.host with pcieUp := true } } : State).pump).linkRetry) ∧
     (∀ n : Fin 4, bitAt s.mem.screeLinked.toNat n.val = true → bitAt s.mem.screeDown.toNat n.val = false →
       exec (.hostOrCxlLinkError (.cxl n)) s = .next (s.linkError (.cxl n))) ∧
     (∀ n : Fin 4, bitAt s.mem.screeDown.toNat n.val = true → s.pow.linkLit (.cxl n) = true → exec (.hostOrCxlLinkUp (.cxl n)) s =
       .next (s.modMem fun m => { m with screeDown := m.screeDown &&& ~~~BitVec.ofNat 4 (2 ^ n.val) }).linkRetry))
end

