-- ==== Sys2Proof/Laws/Mem.lean ====
section
/-! SUPPORT. Memories: every operation keeps the canonical form, and a read after a write. -/

namespace Sys2Proof.Machine

variable {w : Nat}

theorem Mem.undefined_wf (e : Nat) : (Mem.undefined w e).wf := ⟨.nil, fun _ h => absurd h (by simp [Mem.undefined])⟩

theorem Mem.zeroed_wf : (Mem.zeroed w).wf := ⟨.nil, fun _ h => absurd h (by simp [Mem.zeroed])⟩

theorem newCells_ge (vs : List (BitVec w)) : ∀ a c, c ∈ newCells a vs → a ≤ c.1 ∧ c.1 < a + vs.length := by
  induction vs with
  | nil => intro a c h; simp [newCells] at h
  | cons v vs ih =>
    intro a c h
    simp only [newCells, List.mem_cons] at h
    rcases h with rfl | h
    · simp
    · have := ih (a + 1) c h
      simp only [List.length_cons]; omega

theorem newCells_sorted (vs : List (BitVec w)) : ∀ a, (newCells a vs).Pairwise (fun x y => x.1 < y.1) := by
  induction vs with
  | nil => intro a; simp [newCells]
  | cons v vs ih =>
    intro a
    simp only [newCells, List.pairwise_cons]
    refine ⟨fun c h => ?_, ih _⟩
    have := newCells_ge vs (a + 1) c h
    omega

/-- A write keeps the canonical form. -/
theorem Mem.setRange_wf {m : Mem w} (h : m.wf) (a : Nat) (vs : List (BitVec w)) : (m.setRange a vs).wf := by
  obtain ⟨hs, hk⟩ := h
  refine ⟨?_, ?_⟩
  · simp only [Mem.setRange, List.append_assoc]
    refine List.pairwise_append.2 ⟨hs.filter _, List.pairwise_append.2
      ⟨(newCells_sorted vs a).filter _, hs.filter _, ?_⟩, ?_⟩
    · intro x hx y hy
      have hx := newCells_ge vs a x ((List.mem_filter.1 hx).1)
      simp only [List.mem_filter, decide_eq_true_eq] at hy
      omega
    · intro x hx y hy
      simp only [List.mem_filter, decide_eq_true_eq] at hx
      rw [List.mem_append] at hy
      rcases hy with hy | hy
      · have hy := newCells_ge vs a y ((List.mem_filter.1 hy).1)
        omega
      · simp only [List.mem_filter, decide_eq_true_eq] at hy
        omega
  · intro c hc
    simp only [Mem.setRange, List.append_assoc, List.mem_append, List.mem_filter] at hc
    rcases hc with hc | hc | hc
    · exact hk c hc.1
    · exact hc.2
    · exact hk c hc.1

theorem Mem.set_wf {m : Mem w} (h : m.wf) (a : Nat) (v : BitVec w) : (m.set a v).wf := Mem.setRange_wf h a [v]

/-- Giving a range a new fill keeps the canonical form. -/
theorem Mem.refill_wf {m : Mem w} (h : m.wf) (lo len : Nat) (f : Fill) : (m.refill lo len f).wf := by
  refine ⟨h.1.filter _, fun c hc => ?_⟩
  simp only [Mem.refill, List.mem_filter, Bool.or_eq_true, decide_eq_true_eq] at hc
  have hfill : (m.refill lo len f).fillAt c.1 = m.fillAt c.1 := by
    have : ¬(lo ≤ c.1 ∧ c.1 < lo + len) := by omega
    have hd : (decide (lo ≤ c.1) && decide (c.1 < lo + len)) = false := by
      simpa using fun h1 => Nat.le_of_not_lt fun h2 => this ⟨h1, h2⟩
    simp only [Mem.fillAt, Mem.refill, List.find?_cons, hd]
  have := h.2 c hc.1
  simpa only [Mem.keeps, hfill] using this

/-- Outside a stripe every fill stays. -/
theorem Mem.fillAt_stripe (m : Mem w) {n k e a : Nat} (h : a / 4096 % n ≠ k) : (m.stripe n k e).fillAt a = m.fillAt a := by
  simp only [Mem.fillAt, Mem.stripe, List.find?_map, Option.map_map, Function.comp_def]
  cases m.ranges.find? fun r => decide (r.1 ≤ a) && decide (a < r.1 + r.2.1) with
  | none => exact if_neg h
  | some r => exact if_neg h

/-- A stripe of undefined contents keeps the canonical form. -/
theorem Mem.stripe_wf {m : Mem w} (h : m.wf) (n k e : Nat) : (m.stripe n k e).wf := by
  refine ⟨h.1.filter _, fun c hc => ?_⟩
  obtain ⟨hm, hk⟩ := List.mem_filter.1 hc
  simpa only [Mem.keeps, Mem.fillAt_stripe m (of_decide_eq_true hk)] using h.2 c hm

/-! ### Reading after writing -/

theorem lookupCell_append (a : Nat) (xs ys : List (Nat × BitVec w)) :
    lookupCell a (xs ++ ys) = (lookupCell a xs).or (lookupCell a ys) := by
  induction xs with
  | nil => simp [lookupCell]
  | cons x xs ih => by_cases h : x.1 = a <;> simp [lookupCell, h, ih]

/-- A list of cells none of which is at `a` holds no value for it. -/
theorem lookupCell_none {a : Nat} {xs : List (Nat × BitVec w)} (h : ∀ c ∈ xs, c.1 ≠ a) : lookupCell a xs = none := by
  induction xs with
  | nil => rfl
  | cons x xs ih =>
    rw [lookupCell, if_neg (h x (by simp)), ih fun c hc => h c (by simp [hc])]

/-- Leaving cells out does not change what is found at an address that the test keeps. -/
theorem lookupCell_filter {a : Nat} (p : Nat × BitVec w → Bool) (xs : List (Nat × BitVec w))
    (h : ∀ c ∈ xs, c.1 = a → p c = true) : lookupCell a (xs.filter p) = lookupCell a xs := by
  induction xs with
  | nil => rfl
  | cons x xs ih =>
    have ih := ih fun c hc => h c (by simp [hc])
    by_cases hx : x.1 = a
    · simp [List.filter, h x (by simp) hx, lookupCell, hx]
    · cases hp : p x <;> simp [List.filter, hp, lookupCell, hx, ih]

theorem lookupCell_newCells (vs : List (BitVec w)) : ∀ a x,
    lookupCell x (newCells a vs) = if a ≤ x then vs[x - a]? else none := by
  induction vs with
  | nil => intro a x; simp [newCells, lookupCell]
  | cons v vs ih =>
    intro a x
    simp only [newCells, lookupCell, ih]
    rcases Nat.lt_trichotomy a x with h | rfl | h
    · have hx : x - a = (x - (a + 1)) + 1 := by omega
      rw [if_neg (by omega), if_pos (by omega), if_pos (by omega), hx, List.getElem?_cons_succ]
    · simp
    · rw [if_neg (by omega), if_neg (by omega), if_neg (by omega)]

/-- A cell outside the cells written reads as before. -/
theorem Mem.get_setRange_other (m : Mem w) (a : Nat) (vs : List (BitVec w)) (x : Nat) (h : x < a ∨ a + vs.length ≤ x) :
    (m.setRange a vs).get x = m.get x := by
  have hnew : lookupCell x ((newCells a vs).filter m.keeps) = none :=
    lookupCell_none fun c hc => by
      have := newCells_ge vs a c ((List.mem_filter.1 hc).1); omega
  have hcells : lookupCell x (m.setRange a vs).cells = lookupCell x m.cells := by
    simp only [Mem.setRange, List.append_assoc, lookupCell_append, hnew, Option.none_or]
    rcases h with h | h
    · rw [lookupCell_filter _ _ (fun c _ hc => by simpa [hc] using h),
        lookupCell_none (xs := m.cells.filter fun c => decide (a + vs.length ≤ c.1)) (fun c hc => by
          simp only [List.mem_filter, decide_eq_true_eq] at hc; omega)]
      simp
    · rw [lookupCell_none (xs := m.cells.filter fun c => decide (c.1 < a)) (fun c hc => by
          simp only [List.mem_filter, decide_eq_true_eq] at hc; omega),
        lookupCell_filter _ _ (fun c _ hc => by simpa [hc] using h)]
      simp
  simp only [Mem.get, hcells]
  rfl

theorem lookupCell_setRange_in (m : Mem w) (a : Nat) (vs : List (BitVec w)) (x : Nat) (h : a ≤ x) (h' : x < a + vs.length) :
    lookupCell x (m.setRange a vs).cells = lookupCell x ((newCells a vs).filter m.keeps) := by
  simp only [Mem.setRange, List.append_assoc, lookupCell_append]
  rw [lookupCell_none (xs := m.cells.filter fun c => decide (c.1 < a)) (fun c hc => by
      simp only [List.mem_filter, decide_eq_true_eq] at hc; omega),
    lookupCell_none (xs := m.cells.filter fun c => decide (a + vs.length ≤ c.1)) (fun c hc => by
      simp only [List.mem_filter, decide_eq_true_eq] at hc; omega)]
  simp

/-- A sorted list of cells holds one value for each address. -/
theorem lookupCell_of_mem {xs : List (Nat × BitVec w)} (hs : xs.Pairwise (fun a b => a.1 < b.1)) {a : Nat} {v : BitVec w}
    (h : (a, v) ∈ xs) : lookupCell a xs = some v := by
  induction xs with
  | nil => simp at h
  | cons x xs ih =>
    rw [List.pairwise_cons] at hs
    rw [List.mem_cons] at h
    rcases h with rfl | h
    · simp [lookupCell]
    · have := hs.1 _ h
      rw [lookupCell, if_neg (by simp only at this; omega), ih hs.2 h]

theorem lookupCell_mem {xs : List (Nat × BitVec w)} {a : Nat} {v : BitVec w} (h : lookupCell a xs = some v) : (a, v) ∈ xs := by
  induction xs with
  | nil => simp [lookupCell] at h
  | cons x xs ih =>
    by_cases hx : x.1 = a
    · rw [lookupCell, if_pos hx] at h
      cases h; subst hx; simp
    · rw [lookupCell, if_neg hx] at h
      simp [ih h]

/-- A cell written reads as the value written. -/
theorem Mem.get_setRange_in (m : Mem w) (a : Nat) (vs : List (BitVec w)) (i : Nat) (h : i < vs.length) :
    (m.setRange a vs).get (a + i) = vs[i] := by
  have hl := lookupCell_setRange_in m a vs (a + i) (by omega) (by omega)
  have hn : lookupCell (a + i) (newCells a vs) = some vs[i] := by
    rw [lookupCell_newCells, if_pos (by omega)]; simp [h]
  have hmem := lookupCell_mem hn
  unfold Mem.get
  rw [hl]
  by_cases hk : m.keeps (a + i, vs[i]) = true
  · rw [lookupCell_of_mem ((newCells_sorted vs a).filter _) (List.mem_filter.2 ⟨hmem, hk⟩)]
  · rw [lookupCell_none fun c hc heq => ?_]
    · have hz : (m.fillAt (a + i) == .zero && vs[i] == 0) = true := by simpa [Mem.keeps] using hk
      rw [Bool.and_eq_true, beq_iff_eq, beq_iff_eq] at hz
      have hf : (m.setRange a vs).fillAt (a + i) = .zero := hz.1
      simp only [hf, Fill.val, hz.2]
    · obtain ⟨hc1, hc2⟩ := List.mem_filter.1 hc
      have h1 := lookupCell_of_mem (newCells_sorted vs a) (a := c.1) (v := c.2) hc1
      rw [heq, hn] at h1
      have : c = (a + i, vs[i]) := by
        cases c; simp only at heq h1; subst heq; cases h1; rfl
      exact hk (this ▸ hc2)

theorem Mem.get_set (m : Mem w) (a x : Nat) (v : BitVec w) : (m.set a v).get x = if x = a then v else m.get x := by
  by_cases h : x = a
  · subst h
    simpa [Mem.set] using m.get_setRange_in x [v] 0 (by simp)
  · rw [if_neg h, Mem.set, m.get_setRange_other a [v] x (by simp only [List.length_singleton]; omega)]

end Sys2Proof.Machine
end

