-- ==== Sys2Proof/Laws/Keeps.lean ====
section
/-! SUPPORT. `Keeps q s`: the queue of `s` is `q` and `s` is sound. What a change of a part of the state needs to keep it. -/

namespace Sys2Proof.Machine

/-- The state is sound and its queue is `q`. -/
structure Keeps (q : List Instr) (s : State) : Prop where
  queue : s.pending = q
  inv : s.Inv

variable {q : List Instr} {s t : State}

/-- Empty queues are within their sizes. -/
theorem bounded_empty : Bounded [] [] [] [] [] :=
  ⟨Nat.zero_le _, Nat.zero_le _, Nat.zero_le _, Nat.zero_le _, Nat.zero_le _⟩

/-- The cores of a state are sound. -/
def SoundCores (cores : Vector Core 20) : Prop := ∀ p : Fin 20, (cores[p]).Sound

/-- A state that differs in memory, which is sound. -/
theorem Keeps.withMem (h : Keeps q s) (hm : t.mem.Sound) (hp : t.pending = s.pending) (hc : t.cores = s.cores)
    (hb : Bounded t.ckpt.pendingB t.fab.seen t.rep.own t.host.evQueue t.chk.assemblies) : Keeps q t := by
  obtain ⟨h1, -, h3, -⟩ := h
  exact ⟨hp.trans h1, hm, hc ▸ h3, hb⟩

/-- What keeping says of a state written out field by field. -/
theorem keeps_mk {c : Vector Core 20} {j : Job} {m : MemSys} {i : Ingest} {r : Replay} {f : Fabric} {k : Checking} {x : Ckpt}
    {o : HostSide} {p : Power} {n u : Nat} {l : List OutMsg} {w : List Instr} :
    Keeps q ⟨c, j, m, i, r, f, k, x, o, p, n, u, l, w⟩ ↔
      w = q ∧ m.Sound ∧ SoundCores c ∧ Bounded x.pendingB f.seen r.own o.evQueue k.assemblies :=
  ⟨fun h => ⟨h.queue, h.inv.mem, h.inv.cores, h.inv.queues⟩, fun h => ⟨h.1, h.2.1, h.2.2.1, h.2.2.2⟩⟩

theorem Keeps.bounded (h : Keeps q s) : Bounded s.ckpt.pendingB s.fab.seen s.rep.own s.host.evQueue s.chk.assemblies := h.inv.queues

theorem Keeps.cores (h : Keeps q s) : SoundCores s.cores := h.inv.cores

/-- A core of a sound state. -/
theorem Keeps.core (h : Keeps q s) (p : Fin 20) : (s.core p).Sound := h.inv.cores p

/-- The parts of a state that keeps. -/
theorem Keeps.parts (h : Keeps q s) :
    s.pending = q ∧ s.mem.Sound ∧ SoundCores s.cores ∧ Bounded s.ckpt.pendingB s.fab.seen s.rep.own s.host.evQueue s.chk.assemblies :=
  ⟨h.queue, h.inv.mem, h.inv.cores, h.inv.queues⟩

/-- The same where the cores, the floods remembered, or the memories, are others. -/
theorem Keeps.partsCores {c : Vector Core 20} (h : Keeps q s) (hc : SoundCores c) :
    s.pending = q ∧ s.mem.Sound ∧ SoundCores c ∧ Bounded s.ckpt.pendingB s.fab.seen s.rep.own s.host.evQueue s.chk.assemblies :=
  ⟨h.queue, h.inv.mem, hc, h.inv.queues⟩

theorem Keeps.partsSeen {l : List (Nat × Nat)} (h : Keeps q s) (hl : l.length ≤ 256) :
    s.pending = q ∧ s.mem.Sound ∧ SoundCores s.cores ∧ Bounded s.ckpt.pendingB l s.rep.own s.host.evQueue s.chk.assemblies :=
  ⟨h.queue, h.inv.mem, h.inv.cores, { h.bounded with seen := hl }⟩

theorem Keeps.partsMem {m : MemSys} (h : Keeps q s) (hm : m.Sound) :
    s.pending = q ∧ m.Sound ∧ SoundCores s.cores ∧ Bounded s.ckpt.pendingB s.fab.seen s.rep.own s.host.evQueue s.chk.assemblies :=
  ⟨h.queue, hm, h.inv.cores, h.inv.queues⟩

/-- The same where the twin records, the events or the assemblies are others. -/
theorem Keeps.partsTwin {l : List TwinRec} (h : Keeps q s) (hl : l.length ≤ 32768) :
    s.pending = q ∧ s.mem.Sound ∧ SoundCores s.cores ∧ Bounded s.ckpt.pendingB s.fab.seen l s.host.evQueue s.chk.assemblies :=
  ⟨h.queue, h.inv.mem, h.inv.cores, { h.bounded with twin := hl }⟩

theorem Keeps.partsEvents {l : List (List Byte × Bool × Option Nat)} (h : Keeps q s) (hl : (l.filter fun e => e.2.2.isNone).length ≤ 4096) :
    s.pending = q ∧ s.mem.Sound ∧ SoundCores s.cores ∧ Bounded s.ckpt.pendingB s.fab.seen s.rep.own l s.chk.assemblies :=
  ⟨h.queue, h.inv.mem, h.inv.cores, { h.bounded with events := hl }⟩

theorem Keeps.partsAssemblies {l : List Assembly} (h : Keeps q s) (hl : l.length ≤ 4) :
    s.pending = q ∧ s.mem.Sound ∧ SoundCores s.cores ∧ Bounded s.ckpt.pendingB s.fab.seen s.rep.own s.host.evQueue l :=
  ⟨h.queue, h.inv.mem, h.inv.cores, { h.bounded with assemblies := hl }⟩

theorem Keeps.sound (h : Keeps q s) : s.mem.Sound := h.inv.mem

theorem keeps_foldl {α : Type} {f : State → α → State} (l : List α) (h : Keeps q s)
    (hf : ∀ s a, Keeps q s → Keeps q (f s a)) : Keeps q (l.foldl f s) := by
  induction l generalizing s with
  | nil => exact h
  | cons a l ih => exact ih (hf s a h)

/-- A fold that carries a value beside the state. -/
theorem keeps_foldlP {α β : Type} {f : State × β → α → State × β} (l : List α) {x : State × β} (h : Keeps q x.1)
    (hf : ∀ x a, Keeps q x.1 → Keeps q (f x a).1) : Keeps q (l.foldl f x).1 := by
  induction l generalizing x with
  | nil => exact h
  | cons a l ih => exact ih (hf x a h)

/-- The same, with the state and the value given apart. -/
theorem keeps_foldlP2 {α β : Type} {f : State × β → α → State} {g : State × β → α → β} (l : List α) {x : State × β} (h : Keeps q x.1)
    (hf : ∀ x a, Keeps q x.1 → Keeps q (f x a)) : Keeps q (l.foldl (fun x a => (f x a, g x a)) x).1 := keeps_foldlP l h hf

/-- A memory system that shares the parts which soundness is about. -/
theorem MemSys.Sound.same {m n : MemSys} (h : m.Sound) (h1 : n.gddr = m.gddr) (h2 : n.staging = m.staging)
    (h3 : n.scree = m.scree) (h4 : n.host = m.host) (h5 : n.tlb = m.tlb) (h6 : n.faults = m.faults) : n.Sound := by
  obtain ⟨a, b, c, d, e, f⟩ := h
  exact ⟨h1 ▸ a, h2 ▸ b, h3 ▸ c, h4 ▸ d, h5 ▸ e, h6 ▸ f⟩

theorem keeps_ite {c : Prop} [Decidable c] (h : Keeps q s) (h' : Keeps q t) : Keeps q (if c then s else t) := by
  split
  · exact h
  · exact h'

/-- A component of a pair that is known. -/
theorem keeps_fst {α : Type} {x : State × α} {a : α} (e : x = (s, a)) (h : Keeps q x.1) : Keeps q s := by subst e; exact h

theorem keeps_snd {α : Type} {x : α × State} {a : α} (e : x = (a, s)) (h : Keeps q x.2) : Keeps q s := by subst e; exact h

/-- Every state that an option may hold keeps. -/
def KeepsO (q : List Instr) (o : Option State) : Prop := ∀ t, o = some t → Keeps q t

theorem keeps_get {o : Option State} (e : o = some s) (h : KeepsO q o) : Keeps q s := h s e

theorem keepsO_some (h : Keeps q s) : KeepsO q (some s) := fun _ e => Option.some.inj e ▸ h

theorem keepsO_none : KeepsO q none := fun _ e => nomatch e

/-- The next state that an outcome may answer keeps. -/
def KeepsOut (q : List Instr) (o : Host.Outcome State Fault Refusal) : Prop := ∀ t, o = .next t → Keeps q t

theorem keepsOut_next (h : Keeps q s) : KeepsOut q (.next s) := fun t e => by cases e; exact h

end Sys2Proof.Machine
end

