-- ==== Sys2Proof/Laws/Sound.lean ====
section
/-! SUPPORT. What changes of a core and of a virtual core keep them sound: a change of anything but their memories, instruction buffer and
tasks does by definition. -/

namespace Sys2Proof.Machine

theorem SoundCores.set {c : Vector Core 20} (h : SoundCores c) (p : Fin 20) {x : Core} (hx : x.Sound) : SoundCores (c.set p x) := by
  intro q
  by_cases e : p.val = q.val
  · rw [Fin.getElem_fin, Vector.getElem_set]; simp only [e, if_true]; exact hx
  · rw [Fin.getElem_fin, Vector.getElem_set]; simp only [e, if_false]; exact h q

theorem SoundCores.map {c : Vector Core 20} (h : SoundCores c) {f : Core → Core} (hf : ∀ c : Core, c.Sound → (f c).Sound) :
    SoundCores (c.map f) := by
  intro q
  rw [Fin.getElem_fin, Vector.getElem_map]
  exact hf _ (h q)

theorem SoundCores.ofFn {f : Fin 20 → Core} (hf : ∀ p, (f p).Sound) : SoundCores (Vector.ofFn f) := by
  intro q
  rw [Fin.getElem_fin, Vector.getElem_ofFn]
  exact hf _

/-- A core whose resident virtual core is another sound one, or none. -/
theorem Holds.withV {v w x y : Option VCore} {l : List Nat} {ts : List Machine.Task} {top : Nat} (h : Holds v x y l ts top) (hw : ∀ z, w = some z → z.Sound) :
    Holds w x y l ts top := ⟨hw, h.partner, h.saved, h.lines, h.tasks⟩

/-- A core whose tasks are others, no more of them. -/
theorem Holds.withTasks {v x y : Option VCore} {l : List Nat} {ts us : List Machine.Task} {top : Nat} (h : Holds v x y l ts top) (hu : us.length ≤ ts.length) :
    Holds v x y l us top := ⟨h.resident, h.partner, h.saved, h.lines, Nat.le_trans hu h.tasks⟩

theorem sound_map {o : Option VCore} {f : VCore → VCore} (h : ∀ x, o = some x → x.Sound) (hf : ∀ v : VCore, v.Sound → (f v).Sound) :
    ∀ x, o.map f = some x → x.Sound := by
  intro x e
  cases o with
  | none => cases e
  | some v => cases e; exact hf v (h v rfl)

theorem Holds.mapV {v x y : Option VCore} {l : List Nat} {ts : List Machine.Task} {top : Nat} (h : Holds v x y l ts top) {f : VCore → VCore}
    (hf : ∀ v : VCore, v.Sound → (f v).Sound) : Holds (v.map f) x y l ts top := h.withV (sound_map h.resident hf)

theorem sound_none : ∀ x : VCore, none = some x → x.Sound := fun _ e => nomatch e

theorem sound_some {v : VCore} (h : v.Sound) : ∀ x, some v = some x → x.Sound := fun _ e => Option.some.inj e ▸ h

theorem sound_if {c : Prop} [Decidable c] {v : VCore} (h : v.Sound) : ∀ x, (if c then some v else none) = some x → x.Sound := by
  split
  · exact sound_some h
  · exact sound_none

/-- A core that holds nothing. -/
theorem holds_none {top : Nat} : Holds none none none [] [] top := ⟨sound_none, sound_none, sound_none, Nat.zero_le _, Nat.zero_le _⟩

theorem SoundCores.replicate {c : Core} (h : c.Sound) : SoundCores (Vector.replicate 20 c) := fun p => by
  rw [Fin.getElem_fin, Vector.getElem_replicate]
  exact h

theorem sound_foldl {α : Type} {f : Core → α → Core} (l : List α) {c : Core} {top : Nat} (h : c.Fits top)
    (hf : ∀ (c : Core) (a : α), c.Fits top → (f c a).Fits top) : (l.foldl f c).Fits top := by
  induction l generalizing c with
  | nil => exact h
  | cons a l ih => exact ih (hf c a h)

theorem canonical_foldl {α : Type} {f : VCore → α → VCore} (l : List α) {v : VCore} (h : v.Sound)
    (hf : ∀ (v : VCore) (a : α), v.Sound → (f v a).Sound) : (l.foldl f v).Sound := by
  induction l generalizing v with
  | nil => exact h
  | cons a l ih => exact ih (hf v a h)

theorem wf_foldl {w : Nat} {α : Type} {f : Mem w → α → Mem w} (l : List α) {m : Mem w} (h : m.wf)
    (hf : ∀ (m : Mem w) (a : α), m.wf → (f m a).wf) : (l.foldl f m).wf := by
  induction l generalizing m with
  | nil => exact h
  | cons a l ih => exact ih (hf m a h)

theorem sound_ite {c : Prop} [Decidable c] {x y : Core} {top : Nat} (h : x.Fits top) (h' : y.Fits top) : (if c then x else y).Fits top := by
  split
  · exact h
  · exact h'

/-! ### Virtual cores -/

variable {v : VCore} {c : Core} {top : Nat}

theorem VCore.writeTile_sound {a : Nat} {bs : List Byte} (h : v.Sound) : (v.writeTile a bs).Sound :=
  { h with tile := wf_foldl _ h.tile fun _ r hm => Mem.setRange_wf hm r.1 r.2 }

theorem VCore.takeStream_sound {buf n : Nat} (h : v.Sound) : (v.takeStream buf n).Sound := h

theorem VCore.modStrand_sound {k : Fin 128} {f : Strand → Strand} (h : v.Sound) : (v.modStrand k f).Sound := h

theorem VCore.addFlags_sound {f : ArithFlags} (h : v.Sound) : (v.addFlags f).Sound := h

theorem VCore.resumeMigrate_sound {r : Nat} (h : v.Sound) : (v.resumeMigrate r).Sound := h

theorem VCore.resumeStep_sound {r : Nat} (h : v.Sound) : (v.resumeStep r).Sound := h

theorem Core.leaveV_sound (h : v.Sound) : (c.leaveV v).Sound := h

theorem VCore.loadSlots_sound {sec : List Byte} (h : v.Sound) : (v.loadSlots sec).Sound :=
  canonical_foldl _ h fun _ _ hv => { hv with acc := Mem.setRange_wf hv.acc _ _ }

theorem VCore.loadRecord_sound {r : List Byte} (h : v.Sound) : (v.loadRecord r).Sound := by
  have hw : ∀ (l : List TileRegion) (x : VCore × List Byte), x.1.Sound →
      ((l.foldl (fun (a : VCore × List Byte) q => (a.1.writeTile q.base (a.2.take q.len), a.2.drop q.len)) x).1).Sound := by
    intro l
    induction l with
    | nil => exact fun _ h => h
    | cons q l ih => exact fun x h => ih _ (VCore.writeTile_sound h)
  unfold VCore.loadRecord
  dsimp only
  refine VCore.loadSlots_sound ?_
  have h' := hw ((chunks 16 (sub (recordSection r 1) 4 (16 * natAt (recordSection r 1) 0 4))).map TileRegion.ofBytes)
    (v, (recordSection r 1).drop (4 + 16 * natAt (recordSection r 1) 0 4)) h
  exact { h' with vt := Mem.setRange_wf h'.vt _ _, vm := Mem.setRange_wf h'.vm _ _ }

theorem testVCore_sound {bytes : List Byte} {e : Nat} : (testVCore bytes e).Sound :=
  VCore.writeTile_sound ⟨Mem.undefined_wf e, Mem.undefined_wf e, Mem.undefined_wf e, Mem.undefined_wf e⟩

theorem Image.vcore_sound {m : Image} {n e : Nat} : (m.vcore n e).Sound :=
  VCore.writeTile_sound (VCore.writeTile_sound ⟨Mem.undefined_wf e, Mem.undefined_wf e, Mem.undefined_wf e, Mem.undefined_wf e⟩)

theorem Recheck.context_sound {r : Recheck} {e : Nat} : (r.context v e).Sound :=
  canonical_foldl _ (testVCore_sound (bytes := []) (e := e)) fun _ _ hv => VCore.writeTile_sound hv

theorem VCore.refill_sound {lo len : Nat} {f : Fill} (h : v.Sound) : ({ v with tile := v.tile.refill lo len f } : VCore).Sound :=
  { h with tile := Mem.refill_wf h.tile lo len f }

theorem VCore.refills_sound {runs : List (Nat × Nat)} {f : Fill} (h : v.Sound) :
    ({ v with tile := runs.foldl (fun m r => m.refill r.1 r.2 f) v.tile } : VCore).Sound :=
  { h with tile := wf_foldl _ h.tile fun _ r hm => Mem.refill_wf hm r.1 r.2 f }

theorem VCore.preload_length : v.preload.length ≤ 64 := by
  unfold VCore.preload
  rw [List.length_range]
  exact Nat.min_le_left _ _

/-! ### Cores -/

theorem Core.modV_sound {f : VCore → VCore} (h : c.Fits top) (hf : ∀ v : VCore, v.Sound → (f v).Sound) : (c.modV f).Fits top := h.mapV hf

theorem Core.addStall_sound {code n : Nat} (h : c.Fits top) : (c.addStall code n).Fits top := by
  unfold Core.addStall
  split <;> exact h

theorem Core.restPorts_sound {n : Nat} (h : c.Fits top) : (c.restPorts n).Fits top := h

theorem Core.freeze_sound {code n : Nat} (h : c.Fits top) : (c.freeze code n).Fits top :=
  Core.restPorts_sound (n := n) (Core.addStall_sound h)

theorem Core.unblock_sound {n : Nat} (h : c.Fits top) : (c.unblock n).Fits top := by
  induction n generalizing c with
  | zero => exact h
  | succ n ih =>
    unfold Core.unblock
    split
    · exact ih (Core.freeze_sound h)
    · exact h

theorem Core.stop_sound (h : c.Fits top) : c.stop.Fits top := by
  unfold Core.stop
  split <;> exact h

theorem Core.raise_sound {code strand opcode pc info : Nat} (h : c.Fits top) : (c.raise code strand opcode pc info).Fits top := by
  have h' := Core.stop_sound h
  unfold Core.raise
  dsimp only
  split <;> exact h'

theorem Core.changeToken_sound {x : TokenChange} (h : c.Fits top) : (c.changeToken x).Fits top := by
  unfold Core.changeToken
  split
  · exact h
  · dsimp only
    split
    · exact h.mapV fun _ hv => hv
    · split
      · exact Core.modV_sound (Core.raise_sound h) fun _ hv => hv
      · exact Core.raise_sound h

theorem Core.endTokens_sound (h : c.Fits top) : c.endTokens.Fits top := sound_foldl (f := Core.changeToken) _ h fun _ _ hc => Core.changeToken_sound hc

theorem Core.queueToken_sound {x : TokenChange} (h : c.Fits top) : (c.queueToken x).Fits top := h

theorem Core.addToken_sound {ctr inc : Nat} (h : c.Fits top) : (c.addToken ctr inc).Fits top := by
  unfold Core.addToken
  split <;> exact h

theorem Core.settleRaces_sound (h : c.Fits top) : c.settleRaces.Fits top := by
  unfold Core.settleRaces
  split <;> exact h

theorem CycleCodes.count_sound {k : CycleCodes} {n : Nat} (h : c.Fits top) : (k.count c n).Fits top :=
  sound_foldl _ h fun _ _ hc => Core.addStall_sound hc

theorem Core.glide_sound {k : CycleCodes} {per n : Nat} (h : c.Fits top) : (c.glide k per n).Fits top :=
  Core.settleRaces_sound (Core.restPorts_sound (n := per * n) (CycleCodes.count_sound (Core.endTokens_sound h)))

theorem Core.nextCycle_sound {k : CycleCodes} {per : Nat} (h : c.Fits top) : (c.nextCycle k per).Fits top := by
  unfold Core.nextCycle
  dsimp only
  exact Core.settleRaces_sound (CycleCodes.count_sound (Core.restPorts_sound (Core.unblock_sound (Core.endTokens_sound h))))

theorem Core.passCycles_sound {k : CycleCodes} {per n : Nat} (h : c.Fits top) : (Core.passCycles k per n c).Fits top := by
  induction n generalizing c with
  | zero => exact h
  | succ n ih =>
    unfold Core.passCycles
    split
    · exact Core.glide_sound h
    · exact ih (Core.nextCycle_sound h)

theorem Core.advanceTo_sound {k : CycleCodes} {per t : Nat} (h : c.Fits top) : (c.advanceTo k per t).Fits top := Core.passCycles_sound h

theorem Core.setLane_sound {l : LaneId} {x : Lane} (h : c.Fits top) : (c.setLane l x).Fits top := by cases l <;> exact h

theorem Core.occupy_sound {l : LaneId} {free done : Nat} (h : c.Fits top) : (c.occupy l free done).Fits top := Core.setLane_sound h

theorem Core.passLane_sound {o : PassOp} {t0 : Nat} {plan : PassPlan} (h : c.Fits top) : (c.passLane o t0 plan).Fits top := by
  unfold Core.passLane
  dsimp only
  split
  · exact Core.occupy_sound h
  · exact Core.occupy_sound h

theorem Core.pruneAccesses_sound {race : Bool} (h : c.Fits top) : (c.pruneAccesses race).Fits top := h

theorem Core.auditRaces_sound {news : List Access} (h : c.Fits top) : (c.auditRaces news).Fits top := sound_foldl _ h fun _ _ hc => hc

theorem Core.leave_sound {reason : Nat} (h : c.Fits top) : (c.leave reason).Fits top := h

theorem Core.afterReset_sound {kind : CoreKind} : (c.afterReset kind).Fits top := holds_none

theorem Core.addVerdict_sound {set : Nat} {b : Bounds} {t : Tap} {cycle : Nat} {step : Word} {pc : BitVec 16} {re : Bool} {dst len crc : Nat}
    (h : c.Fits top) : (c.addVerdict set b t cycle step pc re dst len crc).Fits top := h

theorem Core.clearFault_sound (h : c.Fits top) : c.clearFault.Fits top := h

theorem Core.mapTasks_sound {f : Machine.Task → Machine.Task} (h : c.Fits top) : ({ c with tasks := c.tasks.map f } : Core).Fits top :=
  h.withTasks (Nat.le_of_eq (List.length_map ..))

theorem Core.putTask_sound {t : Machine.Task} (h : c.Fits top) : (c.putTask t).Fits top := Core.mapTasks_sound h

theorem Core.mapReqs_sound {f : Req → Req} (h : c.Fits top) : (c.mapReqs f).Fits top := Core.mapTasks_sound h

theorem Core.abortTask_sound {id : Nat} {info : AbortInfo} (h : c.Fits top) : (c.abortTask id info).Fits top :=
  Core.mapTasks_sound h

theorem Core.linkAbort_sound {m : MemSys} {link : HostLink} (h : c.Fits top) : (c.linkAbort m link).Fits top := by
  unfold Core.linkAbort
  dsimp only
  refine Holds.withTasks (sound_foldl _ h fun c t hc => ?_) (Nat.le_of_eq (List.length_map ..))
  split
  · split
    · exact Core.abortTask_sound hc
    · exact hc
  · exact hc

theorem Core.upset_sound {p : Nat} (h : c.Fits top) : (c.upset p).Fits top := h.mapV fun _ hv => hv

/-! ### Writes of core storage with a visible cycle -/

theorem writeCell_wf {w : Nat} {m : Mem w} {log : List Access} {a : Access} {x : Nat} {b : BitVec w} (h : m.wf) :
    ((writeCell m log a x b).1).wf := by
  unfold writeCell
  split
  · exact h
  · exact Mem.set_wf h x b

theorem writeCells_wf {w : Nat} {a : Access} (vs : List (BitVec w)) {x : Nat} {m : Mem w} {log : List Access} (h : m.wf) :
    ((writeCells a vs x m log).1).wf := by
  induction vs generalizing x m log with
  | nil => exact h
  | cons b vs ih => exact ih (writeCell_wf h)

theorem Mem.writeAt_wf {w : Nat} {m : Mem w} {log : List Access} {a : Access} {vs : List (BitVec w)} (h : m.wf) : ((m.writeAt log a vs).1).wf := by
  unfold Mem.writeAt
  split
  · exact writeCells_wf vs h
  · exact Mem.setRange_wf h _ _

theorem Core.putTile_sound {a : Nat} {bs : List Byte} {acc : Access} (h : c.Fits top) : (c.putTile a bs acc).Fits top := by
  unfold Core.putTile
  split
  · exact h
  · rename_i v e
    have hv := h.resident v e
    refine sound_foldl _ (Holds.withV h (sound_some hv)) fun c r hc => ?_
    split
    · exact hc
    · rename_i x ex
      have hx := hc.resident x ex
      exact Holds.withV hc (sound_some { hx with tile := Mem.writeAt_wf hx.tile })

theorem Core.putSlots_sound {lo : Nat} {vs : List Word} {acc : Access} (h : c.Fits top) : (c.putSlots lo vs acc).Fits top := by
  unfold Core.putSlots
  split
  · exact h
  · rename_i v e
    have hv := h.resident v e
    exact Holds.withV h (sound_some { hv with vt := Mem.writeAt_wf hv.vt })

theorem Core.putMask_sound {lo : Nat} {vs : List (BitVec 1)} {acc : Access} (h : c.Fits top) : (c.putMask lo vs acc).Fits top := by
  unfold Core.putMask
  split
  · exact h
  · rename_i v e
    have hv := h.resident v e
    exact Holds.withV h (sound_some { hv with vm := Mem.writeAt_wf hv.vm })

theorem Core.putAcc_sound {lo : Nat} {vs : List Word} {acc : Access} (h : c.Fits top) : (c.putAcc lo vs acc).Fits top := by
  unfold Core.putAcc
  split
  · exact h
  · rename_i v e
    have hv := h.resident v e
    exact Holds.withV h (sound_some { hv with acc := Mem.writeAt_wf hv.acc })

theorem Core.putCells_sound {vals : List Nat} {acc : Access} (h : c.Fits top) : (c.putCells vals acc).Fits top := by
  unfold Core.putCells
  split
  · exact Core.putTile_sound h
  · exact Core.putSlots_sound h
  · exact Core.putMask_sound h
  · exact Core.putAcc_sound h
  · exact h

theorem Core.undefineCells_sound {e : Nat} {a : Access} (h : c.Fits top) : (c.undefineCells e a).Fits top := Core.putCells_sound h

end Sys2Proof.Machine
end

