-- ==== Sys2Proof/Laws/ClosedAudit.lean ====
section
/-! SUPPORT. What the running instructions of a core change: the core, the count of undefined values, and what SEC-DED counts of
corrected errors. A property that these keep, everything that the core's engines do keeps. -/

namespace Sys2Proof.Machine

/-- A property of states that sound changes of core `p`, draws of undefined values, corrected errors of the core and its feeds
to witness digest units keep. -/
structure CoreClosed (p : Fin 20) (P : State → Prop) : Prop where
  core : ∀ {s : State} {f : Core → Core}, P s → (∀ {top : Nat} (c : Core), c.Fits top → (f c).Fits top) → P (s.modCore p f)
  fresh : ∀ {s : State}, P s → P s.fresh.2
  charge : ∀ {s : State} {n : Nat}, P s → P (s.charge (24 + p.val) n 0 0)
  unit : ∀ {s : State} {u : Nat} {f : Witness → Witness}, P s → P (s.modUnit u f)

variable {p : Fin 20} {P : State → Prop}

theorem closed_ite {c : Prop} [Decidable c] {s t : State} (h : P s) (h' : P t) : P (if c then s else t) := by
  split
  · exact h
  · exact h'

/-- Steps over a state with a run beside it. -/
theorem closed_foldl {α : Type} {f : State × Run → α → State × Run} (l : List α) {x : State × Run} (h : P x.1)
    (hf : ∀ x a, P x.1 → P (f x a).1) : P (l.foldl f x).1 := by
  induction l generalizing x with
  | nil => exact h
  | cons a l ih => exact ih (hf x a h)

theorem closed_foldlS {α : Type} {f : State → α → State} (l : List α) {s : State} (h : P s) (hf : ∀ s a, P s → P (f s a)) : P (l.foldl f s) := by
  induction l generalizing s with
  | nil => exact h
  | cons a l ih => exact ih (hf s a h)

variable (hc : CoreClosed p P)

include hc

theorem State.passTo_closed {s : State} {t : Nat} {k : CycleCodes} (hs : P s) : P (s.passTo p t k) :=
  hc.core hs fun _ h => Core.advanceTo_sound h

theorem State.modV_closed {s : State} {f : VCore → VCore} (hs : P s) (hf : ∀ v : VCore, v.Sound → (f v).Sound) : P (s.modV p f) :=
  hc.core hs fun _ h => Core.modV_sound h hf

theorem State.fault_closed {s : State} {k : Fin 128} {code : Nat} {opcode : Nat} {info : Nat}
    (hs : P s) : P (State.fault s p k code opcode info) := by
  unfold State.fault
  dsimp only
  repeat' first
    | with_reducible assumption
    | with_reducible apply hc.core
    | exact fun _ h => Core.modV_sound (Core.raise_sound h) fun _ hv => VCore.modStrand_sound hv

theorem State.noteAccesses_closed {s : State} {news : List Access}
    (hs : P s) : P (State.noteAccesses s p news) := by
  unfold State.noteAccesses
  dsimp only
  repeat' first
    | with_reducible assumption
    | with_reducible apply hc.core
    | (intro _ c h; by_cases e : s.job.raceAudit = true <;> simp only [e] <;> first | exact Core.auditRaces_sound h | exact h)
    | with_reducible refine closed_ite ?_ ?_

theorem State.audit_closed {s : State} {k : Fin 128} {opcode : Nat} {reads : List Access} {writes : List Access}
    {go : State → State}
    (hs : P s) (hgo : ∀ s, P s → P (go s)) : P (State.audit s p k opcode reads writes go) := by
  unfold State.audit
  repeat' first
    | with_reducible assumption
    | with_reducible apply hgo
    | with_reducible apply State.fault_closed hc
    | with_reducible apply State.noteAccesses_closed hc
    | split

theorem State.noteToken_closed {s : State} {o : TokenOp} (hs : P s) : P (State.noteToken s p o) := by
  unfold State.noteToken
  repeat' first
    | with_reducible assumption
    | with_reducible apply hc.core
    | with_reducible exact fun _ h => h
    | with_reducible refine closed_ite ?_ ?_

theorem State.correct_closed {s : State} {pair : Bool} {accs : List Access}
    (hs : P s) : P (State.correct s p pair accs) := by
  unfold State.correct
  dsimp only
  repeat' first
    | with_reducible assumption
    | with_reducible apply hc.core
    | exact fun _ h => h.mapV fun _ hv => hv
    | with_reducible apply hc.charge
    | with_reducible refine closed_ite ?_ ?_
    | split

theorem State.blur_closed {s : State} {runs : List (Nat × Nat)} (hs : P s) : P (State.blur s p runs) := by
  unfold State.blur
  try dsimp only
  repeat' first
    | with_reducible assumption
    | with_reducible apply State.modV_closed hc
    | with_reducible apply hc.fresh
    | with_reducible apply hc.charge
    | with_reducible apply hc.unit
    | with_reducible apply hc.core
    | exact fun _ h => VCore.refills_sound h
    | with_reducible refine closed_ite ?_ ?_
    | with_reducible refine closed_foldl _ ?_ ?_
    | with_reducible refine closed_foldlS _ ?_ ?_
    | split

theorem State.arrive_closed {s : State} {accs : List Access} (hs : P s) : P (State.arrive s p accs) := by
  unfold State.arrive
  try dsimp only
  repeat' first
    | with_reducible assumption
    | with_reducible apply State.blur_closed hc
    | with_reducible apply hc.fresh
    | with_reducible apply hc.charge
    | with_reducible apply hc.unit
    | with_reducible apply hc.core
    | exact fun _ h => Core.mapTasks_sound h
    | with_reducible refine closed_ite ?_ ?_
    | split

theorem State.leave_closed {s : State} {accs : List Access} (hs : P s) : P (State.leave s p accs) := by
  unfold State.leave
  try dsimp only
  repeat' first
    | with_reducible assumption
    | with_reducible apply State.blur_closed hc
    | with_reducible apply hc.fresh
    | with_reducible apply hc.charge
    | with_reducible apply hc.unit
    | with_reducible apply hc.core
    | with_reducible refine closed_ite ?_ ?_
    | split

theorem State.readNow_closed {s : State} {accs : List Access} (hs : P s) : P (State.readNow s p accs) := by
  unfold State.readNow
  try dsimp only
  repeat' first
    | with_reducible assumption
    | with_reducible apply State.correct_closed hc
    | with_reducible apply State.arrive_closed hc
    | with_reducible apply hc.fresh
    | with_reducible apply hc.charge
    | with_reducible apply hc.unit
    | with_reducible apply hc.core
    | with_reducible refine closed_ite ?_ ?_
    | split

theorem State.failRun_closed {s : State} {r : Run} {fault : Nat × Nat} {read : Bool}
    (hs : P s) : P (State.failRun s p r fault read).1 := by
  unfold State.failRun
  dsimp only
  repeat' first
    | with_reducible assumption
    | with_reducible apply hc.fresh
    | with_reducible apply hc.core
    | exact fun _ h => Core.raise_sound h
    | exact fun _ h => sound_foldl _ h fun _ _ hc => Core.undefineCells_sound hc
    | with_reducible refine closed_ite ?_ ?_
    | split

theorem State.meetErrors_closed {s : State} {r : Run} {pair : Bool} {accs : List Access}
    (hs : P s) : P (State.meetErrors s p r pair accs).1 := by
  unfold State.meetErrors
  try dsimp only
  repeat' first
    | with_reducible assumption
    | with_reducible apply State.correct_closed hc
    | with_reducible apply State.failRun_closed hc
    | with_reducible apply hc.fresh
    | with_reducible apply hc.charge
    | with_reducible apply hc.unit
    | with_reducible apply hc.core
    | with_reducible refine closed_ite ?_ ?_
    | split

theorem State.meet_closed {s : State} {r : Run} {pair : Bool} {accs : List Access}
    (hs : P s) : P (State.meet s p r pair accs).1 := by
  unfold State.meet
  try dsimp only
  repeat' first
    | with_reducible assumption
    | with_reducible apply State.arrive_closed hc
    | with_reducible apply State.meetErrors_closed hc
    | with_reducible apply hc.fresh
    | with_reducible apply hc.charge
    | with_reducible apply hc.unit
    | with_reducible apply hc.core
    | with_reducible refine closed_ite ?_ ?_
    | split

theorem State.putRun_closed {s : State} {r : Run} {a : Access} {vals : List Nat}
    (hs : P s) : P (State.putRun s p r a vals).1 := by
  unfold State.putRun
  try dsimp only
  repeat' first
    | with_reducible assumption
    | with_reducible apply State.meet_closed hc
    | with_reducible apply State.leave_closed hc
    | with_reducible apply hc.fresh
    | with_reducible apply hc.charge
    | with_reducible apply hc.unit
    | with_reducible apply hc.core
    | with_reducible apply Core.putCells_sound
    | with_reducible apply Core.undefineCells_sound
    | with_reducible refine closed_ite ?_ ?_
    | split
    | intro _

theorem State.runFlags_closed {s : State} {r : Run} {f : ArithFlags}
    (hs : P s) : P (State.runFlags s p r f) := by
  unfold State.runFlags
  repeat' first
    | with_reducible assumption
    | with_reducible apply State.modV_closed hc
    | exact fun _ h => VCore.addFlags_sound h
    | with_reducible refine closed_ite ?_ ?_

end Sys2Proof.Machine
end

