-- ==== Sys2Proof/Laws/ClosedArray.lean ====
section
/-! SUPPORT. What `Machine/Array.lean` keeps of a property that its core's changes keep. -/

namespace Sys2Proof.Machine

variable {p : Fin 20} {P : State → Prop} (hc : CoreClosed p P)

include hc

theorem State.takeBuffer_closed {s : State} {r : Run} {buf : Nat} {n : Nat}
    (hs : P s) : P (State.takeBuffer s p r buf n).2.1 := by
  unfold State.takeBuffer
  dsimp only
  repeat' first
    | with_reducible assumption
    | with_reducible apply State.modV_closed hc
    | exact fun _ h => VCore.takeStream_sound h
    | with_reducible apply State.meet_closed hc
    | split

theorem State.loadRowPiece_closed {s : State} {r : Run} {o : LoadOp} {wave : Bool} {k : Nat}
    (hs : P s) : P (State.loadRowPiece s p r o wave k).1 := by
  unfold State.loadRowPiece
  try dsimp only
  repeat' first
    | with_reducible assumption
    | with_reducible apply State.modV_closed hc
    | with_reducible apply State.meet_closed hc
    | with_reducible apply State.runFlags_closed hc
    | with_reducible apply State.takeBuffer_closed hc
    | with_reducible apply hc.fresh
    | with_reducible apply hc.charge
    | with_reducible apply hc.unit
    | with_reducible apply hc.core
    | with_reducible exact fun _ h => h
    | with_reducible refine closed_ite ?_ ?_
    | split

theorem State.loadPiece_closed {s : State} {r : Run} {o : LoadOp} {wave : Bool} {k : Nat}
    (hs : P s) : P (State.loadPiece s p r o wave k).1 := by
  unfold State.loadPiece
  try dsimp only
  repeat' first
    | with_reducible assumption
    | with_reducible apply State.loadRowPiece_closed hc
    | with_reducible apply hc.fresh
    | with_reducible apply hc.charge
    | with_reducible apply hc.unit
    | with_reducible apply hc.core
    | with_reducible refine closed_ite ?_ ?_
    | split

theorem State.tokenPiece_closed {s : State} {r : Run} {t : Nat}
    (hs : P s) : P (State.tokenPiece s p r t).1 := by
  unfold State.tokenPiece
  dsimp only
  repeat' first
    | with_reducible assumption
    | with_reducible apply State.meet_closed hc
    | with_reducible apply State.takeBuffer_closed hc
    | split

theorem State.accumPiece_closed {s : State} {r : Run} {t : Nat}
    (hs : P s) : P (State.accumPiece s p r t).1 := by
  unfold State.accumPiece
  dsimp only
  repeat' first
    | with_reducible assumption
    | with_reducible apply State.meet_closed hc
    | split

theorem State.resultPiece_closed {s : State} {r : Run} {t : Nat} {pos : Nat}
    (hs : P s) : P (State.resultPiece s p r t pos).1 := by
  unfold State.resultPiece
  dsimp only
  repeat' first
    | with_reducible assumption
    | with_reducible apply hc.core
    | with_reducible exact fun _ h => h
    | with_reducible apply State.putRun_closed hc
    | with_reducible apply State.runFlags_closed hc
    | split

theorem State.clearPiece_closed {s : State} {r : Run} {t : Nat} {n : Nat} {pos : Nat}
    (hs : P s) : P (State.clearPiece s p r t n pos).1 := by
  unfold State.clearPiece
  dsimp only
  repeat' first
    | with_reducible assumption
    | with_reducible apply hc.core
    | with_reducible exact fun _ h => h
    | with_reducible apply State.putRun_closed hc
    | split

theorem State.startPass_closed {s : State} {q : QInstr} {t : Nat}
    (hs : P s) : P (State.startPass s p q t) := by
  unfold State.startPass
  try dsimp only
  repeat' first
    | with_reducible assumption
    | with_reducible apply State.modV_closed hc
    | with_reducible apply State.arrive_closed hc
    | with_reducible apply State.meetErrors_closed hc
    | with_reducible apply hc.fresh
    | with_reducible apply hc.charge
    | with_reducible apply hc.unit
    | with_reducible apply hc.core
    | with_reducible exact fun _ h => h
    | exact fun _ h => Core.passLane_sound h
    | with_reducible refine closed_ite ?_ ?_
    | split

theorem State.startLoad_closed {s : State} {q : QInstr} {t0 : Nat}
    (hs : P s) : P (State.startLoad s p q t0) := by
  unfold State.startLoad
  dsimp only
  repeat' first
    | with_reducible assumption
    | with_reducible apply hc.core
    | with_reducible apply State.modV_closed hc
    | with_reducible exact fun _ h => h
    | exact fun _ h => Core.occupy_sound h

theorem State.putRuns_closed {cycle visible : Nat} (xs : List (Nat × Nat)) {s : State} {r : Run} {vals : List Nat}
    (hs : P s) : P (s.putRuns p r cycle visible xs vals).1 := by
  induction xs generalizing s r vals with
  | nil => exact hs
  | cons x xs ih =>
    unfold State.putRuns
    exact ih (State.putRun_closed hc hs)

theorem State.drainPiece_closed {s : State} {r : Run} {k : Nat}
    (hs : P s) : P (State.drainPiece s p r k).1 := by
  unfold State.drainPiece
  dsimp only
  repeat' first
    | with_reducible assumption
    | with_reducible apply hc.fresh
    | with_reducible apply hc.core
    | exact fun _ h => Core.addVerdict_sound h
    | with_reducible apply State.meet_closed hc
    | with_reducible apply State.putRun_closed hc
    | with_reducible apply State.runFlags_closed hc
    | with_reducible apply State.putRuns_closed hc
    | split

theorem State.startDrain_closed {s : State} {q : QInstr} {t0 : Nat}
    (hs : P s) : P (State.startDrain s p q t0) := by
  unfold State.startDrain
  try dsimp only
  repeat' first
    | with_reducible assumption
    | with_reducible apply State.arrive_closed hc
    | with_reducible apply State.meetErrors_closed hc
    | with_reducible apply hc.fresh
    | with_reducible apply hc.charge
    | with_reducible apply hc.unit
    | with_reducible apply hc.core
    | exact fun _ h => Core.occupy_sound h
    | with_reducible refine closed_ite ?_ ?_
    | split

end Sys2Proof.Machine
end

