-- ==== Sys2Proof/Laws/ClosedBlocks.lean ====
section
/-! SUPPORT. What `Machine/Blocks.lean` keeps of a property that its core's changes keep. -/

namespace Sys2Proof.Machine

variable {p : Fin 20} {P : State → Prop} (hc : CoreClosed p P)

include hc

theorem State.putKeyed_closed {space : Space} {cycle visible : Nat} {ru : Bool} (xs : List (Nat × List Nat))
    {s : State} {r : Run} (hs : P s) : P (s.putKeyed p r space cycle visible ru xs).1 := by
  induction xs generalizing s r with
  | nil => exact hs
  | cons x xs ih =>
    unfold State.putKeyed
    exact ih (State.putRun_closed hc hs)

theorem State.putElems_closed {s : State} {r : Run} {n : Nat} {tr : Bool} {visible : Nat} {ru : Bool}
    {tapped : Bool} {es : List (Nat × Nat)}
    (hs : P s) : P (State.putElems s p r n tr visible ru tapped es).1 := by
  unfold State.putElems
  dsimp only
  repeat' first
    | with_reducible assumption
    | with_reducible apply State.putKeyed_closed hc

theorem State.putBits_closed {s : State} {r : Run} {m : Nat} {visible : Nat} {es : List (Nat × Nat)}
    (hs : P s) : P (State.putBits s p r m visible es).1 := by
  unfold State.putBits
  repeat' first
    | with_reducible assumption
    | with_reducible apply State.putKeyed_closed hc

theorem State.putBytes_closed {s : State} {r : Run} {visible : Nat} {es : List (Nat × Nat)}
    (hs : P s) : P (State.putBytes s p r visible es).1 := by
  unfold State.putBytes
  repeat' first
    | with_reducible assumption
    | with_reducible apply State.putKeyed_closed hc

theorem State.checkVector_closed {s : State} {r : Run} {f : Fmt}
    (hs : P s) : P (State.checkVector s p r f) := by
  unfold State.checkVector
  dsimp only
  repeat' first
    | with_reducible assumption
    | with_reducible apply hc.core
    | exact fun _ h => Core.addVerdict_sound h
    | with_reducible refine closed_ite ?_ ?_

theorem State.startBlocks_closed {s : State} {l : LaneId} {q : QInstr} {t0 : Nat} {n : Nat} {done : Nat}
    {undef : Option Nat}
    (hs : P s) : P (State.startBlocks s p l q t0 n done undef) := by
  unfold State.startBlocks
  dsimp only
  repeat' first
    | with_reducible assumption
    | with_reducible apply hc.core
    | exact fun _ h => Core.occupy_sound h

theorem State.vopPiece_closed {s : State} {r : Run} {k : Nat}
    (hs : P s) : P (State.vopPiece s p r k).1 := by
  unfold State.vopPiece
  dsimp only
  repeat' first
    | with_reducible assumption
    | with_reducible apply State.meet_closed hc
    | with_reducible apply State.runFlags_closed hc
    | with_reducible apply State.putElems_closed hc
    | with_reducible apply State.putBits_closed hc
    | with_reducible apply State.checkVector_closed hc
    | with_reducible refine closed_ite ?_ ?_
    | split

theorem State.startVop_closed {s : State} {q : QInstr} {t0 : Nat}
    (hs : P s) : P (State.startVop s p q t0) := by
  unfold State.startVop
  dsimp only
  repeat' first
    | with_reducible assumption
    | with_reducible apply hc.fresh
    | with_reducible apply State.startBlocks_closed hc
    | split

theorem State.cvtPiece_closed {s : State} {r : Run} {k : Nat}
    (hs : P s) : P (State.cvtPiece s p r k).1 := by
  unfold State.cvtPiece
  dsimp only
  repeat' first
    | with_reducible assumption
    | with_reducible apply State.meet_closed hc
    | with_reducible apply State.runFlags_closed hc
    | with_reducible apply State.putElems_closed hc
    | with_reducible apply State.putBytes_closed hc
    | with_reducible apply State.checkVector_closed hc
    | with_reducible refine closed_ite ?_ ?_
    | split

theorem State.startVcvt_closed {s : State} {q : QInstr} {t0 : Nat}
    (hs : P s) : P (State.startVcvt s p q t0) := by
  unfold State.startVcvt
  dsimp only
  repeat' first
    | with_reducible assumption
    | with_reducible apply State.startBlocks_closed hc

theorem State.trnPiece_closed {s : State} {r : Run} {k : Nat}
    (hs : P s) : P (State.trnPiece s p r k).1 := by
  unfold State.trnPiece
  dsimp only
  repeat' first
    | with_reducible assumption
    | with_reducible apply hc.fresh
    | with_reducible apply State.meet_closed hc
    | with_reducible apply State.putElems_closed hc
    | with_reducible apply State.putBits_closed hc
    | with_reducible apply State.putBytes_closed hc
    | split

theorem State.startVtrn_closed {s : State} {q : QInstr} {t0 : Nat}
    (hs : P s) : P (State.startVtrn s p q t0) := by
  unfold State.startVtrn
  dsimp only
  repeat' first
    | with_reducible assumption
    | with_reducible apply State.startBlocks_closed hc

theorem State.failIndexed_closed {s : State} {r : Run} {o : GathOp} {kind : Indexed} {base : Int} {fault : Nat × Nat}
    (hs : P s) : P (State.failIndexed s p r o kind base fault).1 := by
  unfold State.failIndexed
  dsimp only
  repeat' first
    | with_reducible assumption
    | with_reducible apply hc.fresh
    | with_reducible apply State.failRun_closed hc
    | with_reducible apply State.putRun_closed hc
    | with_reducible apply State.putElems_closed hc
    | with_reducible refine closed_foldl _ ?_ ?_
    | split
    | intro _

theorem State.indexPiece_closed {s : State} {r : Run} {k : Nat}
    (hs : P s) : P (State.indexPiece s p r k).1 := by
  unfold State.indexPiece
  try dsimp only
  repeat' first
    | with_reducible assumption
    | with_reducible apply State.readNow_closed hc
    | with_reducible apply State.meet_closed hc
    | with_reducible apply State.putRun_closed hc
    | with_reducible apply State.runFlags_closed hc
    | with_reducible apply State.putElems_closed hc
    | with_reducible apply State.failIndexed_closed hc
    | with_reducible apply hc.fresh
    | with_reducible apply hc.charge
    | with_reducible apply hc.unit
    | with_reducible apply hc.core
    | with_reducible refine closed_ite ?_ ?_
    | with_reducible refine closed_foldl _ ?_ ?_
    | with_reducible refine closed_foldlS _ ?_ ?_
    | split
    | intro _

theorem State.startIndexed_closed {s : State} {q : QInstr} {t0 : Nat}
    (hs : P s) : P (State.startIndexed s p q t0) := by
  unfold State.startIndexed
  dsimp only
  repeat' first
    | with_reducible assumption
    | with_reducible apply State.startBlocks_closed hc

theorem State.scanPiece_closed {s : State} {r : Run} {k : Nat}
    (hs : P s) : P (State.scanPiece s p r k).1 := by
  unfold State.scanPiece
  dsimp only
  repeat' first
    | with_reducible assumption
    | with_reducible apply State.meet_closed hc
    | with_reducible apply State.runFlags_closed hc
    | with_reducible apply State.putElems_closed hc
    | with_reducible apply State.checkVector_closed hc
    | with_reducible refine closed_ite ?_ ?_
    | split

theorem State.startVscan_closed {s : State} {q : QInstr} {t0 : Nat}
    (hs : P s) : P (State.startVscan s p q t0) := by
  unfold State.startVscan
  dsimp only
  repeat' first
    | with_reducible assumption
    | with_reducible apply State.startBlocks_closed hc

theorem State.rngPiece_closed {s : State} {r : Run} {k : Nat}
    (hs : P s) : P (State.rngPiece s p r k).1 := by
  unfold State.rngPiece
  dsimp only
  repeat' first
    | with_reducible assumption
    | with_reducible apply State.putBits_closed hc
    | split

theorem State.startRngmask_closed {s : State} {q : QInstr} {t0 : Nat}
    (hs : P s) : P (State.startRngmask s p q t0) := by
  unfold State.startRngmask
  dsimp only
  repeat' first
    | with_reducible assumption
    | with_reducible apply State.startBlocks_closed hc

theorem State.redPiece_closed {s : State} {r : Run} {k : Nat}
    (hs : P s) : P (State.redPiece s p r k).1 := by
  unfold State.redPiece
  dsimp only
  repeat' first
    | with_reducible assumption
    | with_reducible apply State.meet_closed hc
    | with_reducible apply State.runFlags_closed hc
    | with_reducible apply State.putElems_closed hc
    | with_reducible apply State.checkVector_closed hc
    | with_reducible refine closed_ite ?_ ?_
    | split

theorem State.startRed_closed {s : State} {q : QInstr} {t0 : Nat}
    (hs : P s) : P (State.startRed s p q t0) := by
  unfold State.startRed
  dsimp only
  repeat' first
    | with_reducible assumption
    | with_reducible apply State.startBlocks_closed hc

end Sys2Proof.Machine
end

