-- ==== Sys2Proof/Laws/ClosedAdvance.lean ====
section
/-! SUPPORT. What `Machine/Advance.lean` keeps of a property that its core's changes keep. -/

namespace Sys2Proof.Machine

variable {p : Fin 20} {P : State → Prop} (hc : CoreClosed p P)

include hc

theorem State.blockPiece_closed {s : State} {r : Run} {k : Nat}
    (hs : P s) : P (State.blockPiece s p r k).1 := by
  unfold State.blockPiece
  dsimp only
  repeat' first
    | with_reducible assumption
    | with_reducible apply State.vopPiece_closed hc
    | with_reducible apply State.cvtPiece_closed hc
    | with_reducible apply State.trnPiece_closed hc
    | with_reducible apply State.indexPiece_closed hc
    | with_reducible apply State.scanPiece_closed hc
    | with_reducible apply State.rngPiece_closed hc
    | with_reducible apply State.redPiece_closed hc
    | split

theorem State.feedPiece_closed {s : State} {r : Run} {k : Nat}
    (hs : P s) : P (State.feedPiece s p r k).1 := by
  unfold State.feedPiece
  dsimp only
  exact hc.unit (State.meet_closed hc hs)

theorem State.piece_closed {s : State} {r : Run} {x : Piece}
    (hs : P s) : P (State.piece s p r x).1 := by
  unfold State.piece
  try dsimp only
  repeat' first
    | with_reducible assumption
    | with_reducible apply State.loadPiece_closed hc
    | with_reducible apply State.tokenPiece_closed hc
    | with_reducible apply State.accumPiece_closed hc
    | with_reducible apply State.resultPiece_closed hc
    | with_reducible apply State.clearPiece_closed hc
    | with_reducible apply State.drainPiece_closed hc
    | with_reducible apply State.blockPiece_closed hc
    | with_reducible apply State.feedPiece_closed hc
    | with_reducible apply hc.fresh
    | with_reducible apply hc.charge
    | with_reducible apply hc.unit
    | with_reducible apply hc.core
    | with_reducible refine closed_ite ?_ ?_
    | split

theorem State.runStep_closed {s : State} {r : Run} {n : Nat} (hs : P s) : P (s.runStep p r n).1 :=
  closed_foldl _ hs fun _ _ h => State.piece_closed hc h

theorem State.stepRuns_closed {n : Nat} (rs : List Run) {s : State} (hs : P s) :
    P (s.stepRuns p n rs).1 := by
  induction rs generalizing s with
  | nil => exact hs
  | cons r rs ih =>
    unfold State.stepRuns
    exact ih (State.runStep_closed hc hs)

theorem State.sweep_closed {s : State} {n : Nat} (hs : P s) : P (State.sweep s p n) := by
  unfold State.sweep
  dsimp only
  repeat' first
    | with_reducible assumption
    | with_reducible apply hc.core
    | exact fun _ h => Core.pruneAccesses_sound h
    | with_reducible apply State.stepRuns_closed hc

theorem State.freezeFor_closed {s : State} {n : Nat} {code : Nat} {k : Nat} (hs : P s) : P (State.freezeFor s p n code k) := by
  unfold State.freezeFor
  try dsimp only
  repeat' first
    | with_reducible assumption
    | with_reducible apply hc.fresh
    | with_reducible apply hc.charge
    | with_reducible apply hc.unit
    | with_reducible apply hc.core
    | exact fun _ h => Core.freeze_sound h
    | with_reducible refine closed_ite ?_ ?_
    | with_reducible refine closed_foldl _ ?_ ?_
    | with_reducible refine closed_foldlS _ ?_ ?_
    | split
    | intro _

theorem State.reach_closed {s : State} {n : Nat} {codes : State → CycleCodes} (hs : P s) : P (State.reach s p n codes) := by
  unfold State.reach
  try dsimp only
  repeat' first
    | with_reducible assumption
    | with_reducible apply State.passTo_closed hc
    | with_reducible apply State.freezeFor_closed hc
    | with_reducible apply hc.fresh
    | with_reducible apply hc.charge
    | with_reducible apply hc.unit
    | with_reducible apply hc.core
    | with_reducible refine closed_ite ?_ ?_
    | split

theorem State.advanceFor_closed {codes : State → CycleCodes} {fuel : Nat} {s : State} {t : Nat} (hs : P s) :
    P (State.advanceFor codes fuel s p t) := by
  induction fuel generalizing s with
  | zero => exact State.passTo_closed hc hs
  | succ n ih =>
    unfold State.advanceFor
    split
    · split
      · exact ih (State.sweep_closed hc (State.reach_closed hc hs))
      · exact State.passTo_closed hc hs
    · exact State.passTo_closed hc hs

theorem State.advance_closed {s : State} {t : Nat} (hs : P s) : P (State.advance s p t) := by
  unfold State.advance
  try dsimp only
  repeat' first
    | with_reducible assumption
    | with_reducible apply State.advanceFor_closed hc
    | with_reducible apply hc.fresh
    | with_reducible apply hc.charge
    | with_reducible apply hc.unit
    | with_reducible apply hc.core
    | with_reducible refine closed_ite ?_ ?_
    | split

theorem State.start_closed {s : State} {l : LaneId} {q : QInstr} {t0 : Nat}
    (hs : P s) : P (State.start s p l q t0) := by
  unfold State.start
  dsimp only
  repeat' first
    | with_reducible assumption
    | with_reducible apply State.startPass_closed hc
    | with_reducible apply State.startLoad_closed hc
    | with_reducible apply State.startDrain_closed hc
    | with_reducible apply State.startVop_closed hc
    | with_reducible apply State.startVcvt_closed hc
    | with_reducible apply State.startVtrn_closed hc
    | with_reducible apply State.startIndexed_closed hc
    | with_reducible apply State.startVscan_closed hc
    | with_reducible apply State.startRngmask_closed hc
    | with_reducible apply State.startRed_closed hc
    | with_reducible refine closed_ite ?_ ?_
    | split

theorem State.enqueue_closed {s : State} {l : LaneId} {q : QInstr} {t : Nat}
    (hs : P s) : P (State.enqueue s p l q t) := by
  unfold State.enqueue
  dsimp only
  repeat' first
    | with_reducible assumption
    | with_reducible apply hc.core
    | exact fun _ h => Core.setLane_sound h
    | with_reducible apply State.start_closed hc
    | with_reducible refine closed_ite ?_ ?_

theorem State.toLane_closed {s : State} {l : LaneId} {q : QInstr} {t : Nat} {reads : List Access} {go : State → State}
    (hs : P s) (hgo : ∀ s, P s → P (go s)) : P (State.toLane s p l q t reads go) := by
  unfold State.toLane
  dsimp only
  repeat' first
    | with_reducible assumption
    | with_reducible apply hgo
    | with_reducible apply State.audit_closed hc
    | with_reducible apply State.enqueue_closed hc
    | intro _

end Sys2Proof.Machine
end

