-- ==== Sys2Proof/Laws/Exec.lean ====
section
/-! SUPPORT. What the dispatcher does with each command: it runs that command's meaning. -/

namespace Sys2Proof.Machine

variable (s : State)

@[simp] theorem exec_halt core strand ops : exec (.halt core strand ops) s = execHalt core strand ops s := rfl
@[simp] theorem exec_br core strand ops : exec (.br core strand ops) s = execBr core strand ops s := rfl
@[simp] theorem exec_loop core strand ops : exec (.loop core strand ops) s = execLoop core strand ops s := rfl
@[simp] theorem exec_xset core strand ops : exec (.xset core strand ops) s = execXset core strand ops s := rfl
@[simp] theorem exec_xadd core strand ops : exec (.xadd core strand ops) s = execXadd core strand ops s := rfl
@[simp] theorem exec_step core strand ops : exec (.step core strand ops) s = execStep core strand ops s := rfl
@[simp] theorem exec_migrate core strand ops : exec (.migrate core strand ops) s = execMigrate core strand ops s := rfl
@[simp] theorem exec_claim core strand ops : exec (.claim core strand ops) s = execClaim core strand ops s := rfl
@[simp] theorem exec_release core strand ops : exec (.release core strand ops) s = execRelease core strand ops s := rfl
@[simp] theorem exec_tsig core strand ops : exec (.tsig core strand ops) s = execTsig core strand ops s := rfl
@[simp] theorem exec_twait core strand ops : exec (.twait core strand ops) s = execTwait core strand ops s := rfl
@[simp] theorem exec_mpass core strand ops : exec (.mpass core strand ops) s = execMpass core strand ops s := rfl
@[simp] theorem exec_mpassP core strand ops : exec (.mpassP core strand ops) s = execMpassP core strand ops s := rfl
@[simp] theorem exec_broadcastMload core strand ops : exec (.broadcastMload core strand ops) s = execBroadcastMload core strand ops s := rfl
@[simp] theorem exec_wavefrontMload core strand ops : exec (.wavefrontMload core strand ops) s = execWavefrontMload core strand ops s := rfl
@[simp] theorem exec_mswap core strand ops : exec (.mswap core strand ops) s = execMswap core strand ops s := rfl
@[simp] theorem exec_mdrain core strand ops : exec (.mdrain core strand ops) s = execMdrain core strand ops s := rfl
@[simp] theorem exec_vop core strand ops : exec (.vop core strand ops) s = execVop core strand ops s := rfl
@[simp] theorem exec_vcvt core strand ops : exec (.vcvt core strand ops) s = execVcvt core strand ops s := rfl
@[simp] theorem exec_vscan core strand ops : exec (.vscan core strand ops) s = execVscan core strand ops s := rfl
@[simp] theorem exec_vtrn core strand ops : exec (.vtrn core strand ops) s = execVtrn core strand ops s := rfl
@[simp] theorem exec_vgath core strand ops : exec (.vgath core strand ops) s = execVgath core strand ops s := rfl
@[simp] theorem exec_vscat core strand ops : exec (.vscat core strand ops) s = execVscat core strand ops s := rfl
@[simp] theorem exec_rngmask core strand ops : exec (.rngmask core strand ops) s = execRngmask core strand ops s := rfl
@[simp] theorem exec_red core strand ops : exec (.red core strand ops) s = execRed core strand ops s := rfl
@[simp] theorem exec_scmd core strand ops : exec (.scmd core strand ops) s = execScmd core strand ops s := rfl
@[simp] theorem exec_chkset core strand ops : exec (.chkset core strand ops) s = execChkset core strand ops s := rfl
@[simp] theorem exec_wtapStart core strand ops : exec (.wtapStart core strand ops) s = execWtapStart core strand ops s := rfl
@[simp] theorem exec_wtapFeed core strand ops : exec (.wtapFeed core strand ops) s = execWtapFeed core strand ops s := rfl
@[simp] theorem exec_wtapFinish core strand ops : exec (.wtapFinish core strand ops) s = execWtapFinish core strand ops s := rfl
@[simp] theorem exec_scataddU core strand ops : exec (.scataddU core strand ops) s = execScataddU core strand ops s := rfl
@[simp] theorem exec_csumU core strand ops : exec (.csumU core strand ops) s = execCsumU core strand ops s := rfl
@[simp] theorem exec_cntrdU core strand ops : exec (.cntrdU core strand ops) s = execCntrdU core strand ops s := rfl
@[simp] theorem exec_reservedOpcode core strand word : exec (.reservedOpcode core strand word) s = execReservedOpcode core strand word s := rfl
@[simp] theorem exec_twaitComplete core strand : exec (.twaitComplete core strand) s = execTwaitComplete core strand s := rfl
@[simp] theorem exec_claimGrant core strand : exec (.claimGrant core strand) s = execClaimGrant core strand s := rfl
@[simp] theorem exec_migratePointReached core : exec (.migratePointReached core) s = execMigratePointReached core s := rfl
@[simp] theorem exec_migRelease core : exec (.migRelease core) s = execMigRelease core s := rfl
@[simp] theorem exec_deadlock core strand waitedMs : exec (.deadlock core strand waitedMs) s = execDeadlock core strand waitedMs s := rfl
@[simp] theorem exec_queuedPassStart core kind : exec (.queuedPassStart core kind) s = execQueuedPassStart core kind s := rfl
@[simp] theorem exec_queuedVectorStart core red : exec (.queuedVectorStart core red) s = execQueuedVectorStart core red s := rfl
@[simp] theorem exec_shadowSetComplete core : exec (.shadowSetComplete core) s = execShadowSetComplete core s := rfl
@[simp] theorem exec_mswapFlip core : exec (.mswapFlip core) s = execMswapFlip core s := rfl
@[simp] theorem exec_forcedScrubWrite core column ecc : exec (.forcedScrubWrite core column ecc) s = execForcedScrubWrite core column ecc s := rfl
@[simp] theorem exec_lineFetch core strand ecc : exec (.lineFetch core strand ecc) s = execLineFetch core strand ecc s := rfl
@[simp] theorem exec_checkerVerdict core : exec (.checkerVerdict core) s = execCheckerVerdict core s := rfl
@[simp] theorem exec_recheckRun core left : exec (.recheckRun core left) s = execRecheckRun core left s := rfl
@[simp] theorem exec_thirdRun core left : exec (.thirdRun core left) s = execThirdRun core left s := rfl
@[simp] theorem exec_chkResume core : exec (.chkResume core) s = execChkResume core s := rfl
@[simp] theorem exec_faultResubmission core : exec (.faultResubmission core) s = execFaultResubmission core s := rfl
@[simp] theorem exec_quarantine core : exec (.quarantine core) s = execQuarantine core s := rfl
@[simp] theorem exec_oversubscriptionSwap core : exec (.oversubscriptionSwap core) s = execOversubscriptionSwap core s := rfl
@[simp] theorem exec_moveToSpare src dst : exec (.moveToSpare src dst) s = execMoveToSpare src dst s := rfl
@[simp] theorem exec_strmResubmit core value : exec (.strmResubmit core value) s = execStrmResubmit core value s := rfl
@[simp] theorem exec_coreAflagsSet core value : exec (.coreAflagsSet core value) s = execCoreAflagsSet core value s := rfl
@[simp] theorem exec_coreFaultClear core : exec (.coreFaultClear core) s = execCoreFaultClear core s := rfl
@[simp] theorem exec_registerWrite space offset value : exec (.registerWrite space offset value) s = execRegisterWrite space offset value s := rfl
@[simp] theorem exec_stageRequestIssue core task stage : exec (.stageRequestIssue core task stage) s = execStageRequestIssue core task stage s := rfl
@[simp] theorem exec_descriptorRunFetch core task stage : exec (.descriptorRunFetch core task stage) s = execDescriptorRunFetch core task stage s := rfl
@[simp] theorem exec_memoryRequestComplete core task stage outcome : exec (.memoryRequestComplete core task stage outcome) s = execMemoryRequestComplete core task stage outcome s := rfl
@[simp] theorem exec_taskEnd core task : exec (.taskEnd core task) s = execTaskEnd core task s := rfl
@[simp] theorem exec_witnessRecord unit : exec (.witnessRecord unit) s = execWitnessRecord unit s := rfl
@[simp] theorem exec_xlatFaultTimeout entry : exec (.xlatFaultTimeout entry) s = execXlatFaultTimeout entry s := rfl
@[simp] theorem exec_xlatRespRetry entry : exec (.xlatRespRetry entry) s = execXlatRespRetry entry s := rfl
@[simp] theorem exec_xlatRespUnresolvable entry : exec (.xlatRespUnresolvable entry) s = execXlatRespUnresolvable entry s := rfl
@[simp] theorem exec_tlbInvalidateAll : exec (.tlbInvalidateAll) s = execTlbInvalidateAll s := rfl
@[simp] theorem exec_tlbInvalidatePage page : exec (.tlbInvalidatePage page) s = execTlbInvalidatePage page s := rfl
@[simp] theorem exec_gddr7Refresh channel : exec (.gddr7Refresh channel) s = execGddr7Refresh channel s := rfl
@[simp] theorem exec_patrolScrub channel line sectors ecc : exec (.patrolScrub channel line sectors ecc) s = execPatrolScrub channel line sectors ecc s := rfl
@[simp] theorem exec_tileMemoryScrub core word ecc : exec (.tileMemoryScrub core word ecc) s = execTileMemoryScrub core word ecc s := rfl
@[simp] theorem exec_releaseWordPoll : exec (.releaseWordPoll) s = execReleaseWordPoll s := rfl
@[simp] theorem exec_indexEntryRead slot outcome : exec (.indexEntryRead slot outcome) s = execIndexEntryRead slot outcome s := rfl
@[simp] theorem exec_sampleCacheLookup look : exec (.sampleCacheLookup look) s = execSampleCacheLookup look s := rfl
@[simp] theorem exec_sampleFetch slot outcome : exec (.sampleFetch slot outcome) s = execSampleFetch slot outcome s := rfl
@[simp] theorem exec_sampleDecode slot slice : exec (.sampleDecode slot slice) s = execSampleDecode slot slice s := rfl
@[simp] theorem exec_slotComplete slot : exec (.slotComplete slot) s = execSlotComplete slot s := rfl
@[simp] theorem exec_flitReceive port seq check symbols : exec (.flitReceive port seq check symbols) s = execFlitReceive port seq check symbols s := rfl
@[simp] theorem exec_replayRequest port seq : exec (.replayRequest port seq) s = execReplayRequest port seq s := rfl
@[simp] theorem exec_flitAcceptTimeout port : exec (.flitAcceptTimeout port) s = execFlitAcceptTimeout port s := rfl
@[simp] theorem exec_portTrained port result : exec (.portTrained port result) s = execPortTrained port result s := rfl
@[simp] theorem exec_portRetrain port : exec (.portRetrain port) s = execPortRetrain port s := rfl
@[simp] theorem exec_portEnable port : exec (.portEnable port) s = execPortEnable port s := rfl
@[simp] theorem exec_portDisable port : exec (.portDisable port) s = execPortDisable port s := rfl
@[simp] theorem exec_packetReceive port packet : exec (.packetReceive port packet) s = execPacketReceive port packet s := rfl
@[simp] theorem exec_blockReceive origin job opId index target block flags : exec (.blockReceive origin job opId index target block flags) s = execBlockReceive origin job opId index target block flags s := rfl
@[simp] theorem exec_openReceive origin job opId target params : exec (.openReceive origin job opId target params) s = execOpenReceive origin job opId target params s := rfl
@[simp] theorem exec_acknowledgeReceive opId index outcome : exec (.acknowledgeReceive opId index outcome) s = execAcknowledgeReceive opId index outcome s := rfl
@[simp] theorem exec_resendTimeout opId index : exec (.resendTimeout opId index) s = execResendTimeout opId index s := rfl
@[simp] theorem exec_collectiveComplete group step cid : exec (.collectiveComplete group step cid) s = execCollectiveComplete group step cid s := rfl
@[simp] theorem exec_heartbeatSend : exec (.heartbeatSend) s = execHeartbeatSend s := rfl
@[simp] theorem exec_heartbeatReceive port neighbour state count : exec (.heartbeatReceive port neighbour state count) s = execHeartbeatReceive port neighbour state count s := rfl
@[simp] theorem exec_heartbeatLoss port : exec (.heartbeatLoss port) s = execHeartbeatLoss port s := rfl
@[simp] theorem exec_linkStateNotice port ctl payload : exec (.linkStateNotice port ctl payload) s = execLinkStateNotice port ctl payload s := rfl
@[simp] theorem exec_jobControlMessage port ctl payload : exec (.jobControlMessage port ctl payload) s = execJobControlMessage port ctl payload s := rfl
@[simp] theorem exec_earlyCheckpointRequest port ctl payload : exec (.earlyCheckpointRequest port ctl payload) s = execEarlyCheckpointRequest port ctl payload s := rfl
@[simp] theorem exec_drainAndReplacementRequest port ctl payload : exec (.drainAndReplacementRequest port ctl payload) s = execDrainAndReplacementRequest port ctl payload s := rfl
@[simp] theorem exec_fieldTestChunk port ctl payload : exec (.fieldTestChunk port ctl payload) s = execFieldTestChunk port ctl payload s := rfl
@[simp] theorem exec_packageAssemblyTimeout package version : exec (.packageAssemblyTimeout package version) s = execPackageAssemblyTimeout package version s := rfl
@[simp] theorem exec_imageRelay port ctl payload : exec (.imageRelay port ctl payload) s = execImageRelay port ctl payload s := rfl
@[simp] theorem exec_twinRecordReceive record resubmitted : exec (.twinRecordReceive record resubmitted) s = execTwinRecordReceive record resubmitted s := rfl
@[simp] theorem exec_twinHaltSignal : exec (.twinHaltSignal) s = execTwinHaltSignal s := rfl
@[simp] theorem exec_cairnTick : exec (.cairnTick) s = execCairnTick s := rfl
@[simp] theorem exec_healthRecordSave : exec (.healthRecordSave) s = execHealthRecordSave s := rfl
@[simp] theorem exec_fieldTestEnd core : exec (.fieldTestEnd core) s = execFieldTestEnd core s := rfl
@[simp] theorem exec_fieldTestTimeout core elapsedMs : exec (.fieldTestTimeout core elapsedMs) s = execFieldTestTimeout core elapsedMs s := rfl
@[simp] theorem exec_forcedFieldTest core : exec (.forcedFieldTest core) s = execForcedFieldTest core s := rfl
@[simp] theorem exec_stepHoldReached core : exec (.stepHoldReached core) s = execStepHoldReached core s := rfl
@[simp] theorem exec_boundaryHold core : exec (.boundaryHold core) s = execBoundaryHold core s := rfl
@[simp] theorem exec_snapshotArm : exec (.snapshotArm) s = execSnapshotArm s := rfl
@[simp] theorem exec_granuleCopy granule outcome : exec (.granuleCopy granule outcome) s = execGranuleCopy granule outcome s := rfl
@[simp] theorem exec_checkpointBlockReceive slotB offset block : exec (.checkpointBlockReceive slotB offset block) s = execCheckpointBlockReceive slotB offset block s := rfl
@[simp] theorem exec_manifestWrite acknowledged : exec (.manifestWrite acknowledged) s = execManifestWrite acknowledged s := rfl
@[simp] theorem exec_drainComplete : exec (.drainComplete) s = execDrainComplete s := rfl
@[simp] theorem exec_restoreEnded source : exec (.restoreEnded source) s = execRestoreEnded source s := rfl
@[simp] theorem exec_mbxDoorbell mbx : exec (.mbxDoorbell mbx) s = execMbxDoorbell mbx s := rfl
@[simp] theorem exec_sidebandFrame frame : exec (.sidebandFrame frame) s = execSidebandFrame frame s := rfl
@[simp] theorem exec_identify mbx : exec (.identify mbx) s = execIdentify mbx s := rfl
@[simp] theorem exec_hello mbx : exec (.hello mbx) s = execHello mbx s := rfl
@[simp] theorem exec_caps mbx : exec (.caps mbx) s = execCaps mbx s := rfl
@[simp] theorem exec_fwStage mbx : exec (.fwStage mbx) s = execFwStage mbx s := rfl
@[simp] theorem exec_fwActivate mbx : exec (.fwActivate mbx) s = execFwActivate mbx s := rfl
@[simp] theorem exec_attest mbx : exec (.attest mbx) s = execAttest mbx s := rfl
@[simp] theorem exec_jobCreate mbx : exec (.jobCreate mbx) s = execJobCreate mbx s := rfl
@[simp] theorem exec_jobLoad mbx : exec (.jobLoad mbx) s = execJobLoad mbx s := rfl
@[simp] theorem exec_regionBind mbx : exec (.regionBind mbx) s = execRegionBind mbx s := rfl
@[simp] theorem exec_jobStart mbx : exec (.jobStart mbx) s = execJobStart mbx s := rfl
@[simp] theorem exec_jobPause mbx : exec (.jobPause mbx) s = execJobPause mbx s := rfl
@[simp] theorem exec_jobResume mbx : exec (.jobResume mbx) s = execJobResume mbx s := rfl
@[simp] theorem exec_jobAbort mbx : exec (.jobAbort mbx) s = execJobAbort mbx s := rfl
@[simp] theorem exec_ckptRequest mbx : exec (.ckptRequest mbx) s = execCkptRequest mbx s := rfl
@[simp] theorem exec_ckptStatus mbx : exec (.ckptStatus mbx) s = execCkptStatus mbx s := rfl
@[simp] theorem exec_restore mbx : exec (.restore mbx) s = execRestore mbx s := rfl
@[simp] theorem exec_testPush mbx : exec (.testPush mbx) s = execTestPush mbx s := rfl
@[simp] theorem exec_testStatus mbx : exec (.testStatus mbx) s = execTestStatus mbx s := rfl
@[simp] theorem exec_telemetry mbx : exec (.telemetry mbx) s = execTelemetry mbx s := rfl
@[simp] theorem exec_logRead mbx : exec (.logRead mbx) s = execLogRead mbx s := rfl
@[simp] theorem exec_powerPolicy mbx : exec (.powerPolicy mbx) s = execPowerPolicy mbx s := rfl
@[simp] theorem exec_linkStatus mbx : exec (.linkStatus mbx) s = execLinkStatus mbx s := rfl
@[simp] theorem exec_coreRetire mbx : exec (.coreRetire mbx) s = execCoreRetire mbx s := rfl
@[simp] theorem exec_debugAttach mbx : exec (.debugAttach mbx) s = execDebugAttach mbx s := rfl
@[simp] theorem exec_unknownOpcode mbx : exec (.unknownOpcode mbx) s = execUnknownOpcode mbx s := rfl
@[simp] theorem exec_evrTailWrite value : exec (.evrTailWrite value) s = execEvrTailWrite value s := rfl
@[simp] theorem exec_evrCtrlEnable value : exec (.evrCtrlEnable value) s = execEvrCtrlEnable value s := rfl
@[simp] theorem exec_eventInterruptCoalesce : exec (.eventInterruptCoalesce) s = execEventInterruptCoalesce s := rfl
@[simp] theorem exec_shedLevelWindow busyPercent quiet100ms : exec (.shedLevelWindow busyPercent quiet100ms) s = execShedLevelWindow busyPercent quiet100ms s := rfl
@[simp] theorem exec_telemetryMirrorSample : exec (.telemetryMirrorSample) s = execTelemetryMirrorSample s := rfl
@[simp] theorem exec_bar0Access write offset size value : exec (.bar0Access write offset size value) s = execBar0Access write offset size value s := rfl
@[simp] theorem exec_bar2Read offset len : exec (.bar2Read offset len) s = execBar2Read offset len s := rfl
@[simp] theorem exec_bar2Write offset data : exec (.bar2Write offset data) s = execBar2Write offset data s := rfl
@[simp] theorem exec_debugWindowAccess write offset size value : exec (.debugWindowAccess write offset size value) s = execDebugWindowAccess write offset size value s := rfl
@[simp] theorem exec_coldReset : exec (.coldReset) s = execColdReset s := rfl
@[simp] theorem exec_perst : exec (.perst) s = execPerst s := rfl
@[simp] theorem exec_warmReset : exec (.warmReset) s = execWarmReset s := rfl
@[simp] theorem exec_functionLevelReset : exec (.functionLevelReset) s = execFunctionLevelReset s := rfl
@[simp] theorem exec_instar0 : exec (.instar0) s = execInstar0 s := rfl
@[simp] theorem exec_instar1 : exec (.instar1) s = execInstar1 s := rfl
@[simp] theorem exec_instar2 trained full : exec (.instar2 trained full) s = execInstar2 trained full s := rfl
@[simp] theorem exec_instar3 links : exec (.instar3 links) s = execInstar3 links s := rfl
@[simp] theorem exec_instar4 result : exec (.instar4 result) s = execInstar4 result s := rfl
@[simp] theorem exec_bringUpWatchdog : exec (.bringUpWatchdog) s = execBringUpWatchdog s := rfl
@[simp] theorem exec_throttleTick estimateW temps : exec (.throttleTick estimateW temps) s = execThrottleTick estimateW temps s := rfl
@[simp] theorem exec_thermalTrip sensor temp : exec (.thermalTrip sensor temp) s = execThermalTrip sensor temp s := rfl
@[simp] theorem exec_domainPowerOnRequest domain : exec (.domainPowerOnRequest domain) s = execDomainPowerOnRequest domain s := rfl
@[simp] theorem exec_domainPowerOffRequest domain : exec (.domainPowerOffRequest domain) s = execDomainPowerOffRequest domain s := rfl
@[simp] theorem exec_domainSequenceEnd domain : exec (.domainSequenceEnd domain) s = execDomainSequenceEnd domain s := rfl
@[simp] theorem exec_domainFault domain : exec (.domainFault domain) s = execDomainFault domain s := rfl
@[simp] theorem exec_laserPresent input : exec (.laserPresent input) s = execLaserPresent input s := rfl
@[simp] theorem exec_laserAbsent input : exec (.laserAbsent input) s = execLaserAbsent input s := rfl
@[simp] theorem exec_railOutOfWindow : exec (.railOutOfWindow) s = execRailOutOfWindow s := rfl
@[simp] theorem exec_regulatorFrame : exec (.regulatorFrame) s = execRegulatorFrame s := rfl
@[simp] theorem exec_regulatorReply valid seq mv : exec (.regulatorReply valid seq mv) s = execRegulatorReply valid seq mv s := rfl
@[simp] theorem exec_hostOrCxlLinkError link : exec (.hostOrCxlLinkError link) s = execHostOrCxlLinkError link s := rfl
@[simp] theorem exec_hostOrCxlLinkUp link : exec (.hostOrCxlLinkUp link) s = execHostOrCxlLinkUp link s := rfl
@[simp] theorem exec_busMasterEnable : exec (.busMasterEnable) s = execBusMasterEnable s := rfl
@[simp] theorem exec_pciePowerStateChange d3hot : exec (.pciePowerStateChange d3hot) s = execPciePowerStateChange d3hot s := rfl
@[simp] theorem exec_twinJobEnd : exec (.twinJobEnd) s = execTwinJobEnd s := rfl

end Sys2Proof.Machine
end

