-- ==== Sys2Proof/Laws/Issue.lean ====
section
/-! SUPPORT. What issue does: the instruction's own effect in its issue cycle, or the first fault of R192's order. -/

namespace Sys2Proof.Machine

variable {s : State} {p : Fin 20} {k : Fin 128} {w : IWord} {v : VCore} {t : Nat} {classV : Bool} {engine : Engine}
  {checks : Core → VCore → Strand → List EncCheck} {body : State → VCore → Strand → Nat → State}

/-- A strand that issues reaches the checks of the fetched word. -/
theorem State.issue_of_issues (h : s.Issues p k w v t) :
    s.issue p k w classV engine checks body =
      if (s.vcoreAt p v t).codeLen ≤ v.strands[k].pc.toNat then
        .next ((s.advance p t).fault p k 2 0 ((s.vcoreAt p v t).codeBase + 16 * v.strands[k].pc.toNat))
      else match firstBad (commonChecks w classV ++ checks ((s.advance p t).core p) (s.vcoreAt p v t) v.strands[k]) with
        | some pos => .next ((s.advance p t).fault p k 1 (fld w 0 10) pos)
        | none =>
          if engine.mask &&& v.strands[k].claims.toNat != engine.mask then
            .next ((s.advance p t).fault p k 3 (fld w 0 10) engine.mask)
          else .next (body (s.advance p t) (s.vcoreAt p v t) v.strands[k] t) := by
  obtain ⟨hv, hr, ht, hg, hg', hl, hd, hf⟩ := h
  unfold State.issue
  dsimp only
  rw [hv]
  dsimp only
  rw [← ht]
  have hfull : (match laneOf w with
      | some l => ((s.core p).lane l).queued.isSome && !((s.core p).lane l).yields t
      | none => false) = false := by
    cases e : laneOf w with
    | none => rfl
    | some l =>
      show (((s.core p).lane l).queued.isSome && !((s.core p).lane l).yields t) = false
      rcases hl l e with h | h <;> rw [h] <;> simp
  have hs : ((s.core p).stopped && decide ((s.core p).stopAt ≤ t)) = false := by
    rcases hg with h | h
    · rw [h]; rfl
    · rw [decide_eq_false (Nat.not_le.2 h), Bool.and_false]
  have hs' : (((s.advance p t).core p).stopped && decide (((s.advance p t).core p).stopAt ≤ t)) = false := by
    rcases hg' with h | h
    · rw [h]; rfl
    · rw [decide_eq_false (Nat.not_le.2 h), Bool.and_false]
  have ho : (v.strands[k].faulted == some t) = false := by
    cases e : v.strands[k].faulted == some t with
    | false => rfl
    | true => exact absurd (eq_of_beq e) hf
  refine (if_neg fun hc => ?_).trans rfl
  simp only [Bool.or_eq_true] at hc
  rcases hc with ((((hc | hc) | hc) | hc) | hc) | hc
  · rw [hr] at hc; exact Bool.noConfusion hc
  · rw [hs] at hc; exact Bool.noConfusion hc
  · exact Bool.noConfusion (hfull.symm.trans hc)
  · rw [hd] at hc; exact Bool.noConfusion hc
  · rw [hs'] at hc; exact Bool.noConfusion hc
  · rw [ho] at hc; exact Bool.noConfusion hc

/-- A legal instruction that issues has its own effect in its issue cycle. -/
theorem State.issue_next (h : s.Issues p k w v t) (hl : s.Legal p k w v t classV engine checks) :
    s.issue p k w classV engine checks body = .next (body (s.advance p t) (s.vcoreAt p v t) v.strands[k] t) := by
  rw [State.issue_of_issues h, if_neg (Nat.not_le.2 hl.inCode), hl.encoding]
  dsimp only
  rw [hl.held, bne_self_eq_false]
  rfl

/-- Outside the code section: fault 0x02. -/
theorem State.issue_outside (h : s.Issues p k w v t) (hc : (s.vcoreAt p v t).codeLen ≤ v.strands[k].pc.toNat) :
    s.issue p k w classV engine checks body =
      .next ((s.advance p t).fault p k 2 0 ((s.vcoreAt p v t).codeBase + 16 * v.strands[k].pc.toNat)) := by
  rw [State.issue_of_issues h, if_pos hc]

/-- A word that breaks a rule: fault 0x01 with the lowest offending bit position. -/
theorem State.issue_illegal {pos : Nat} (h : s.Issues p k w v t) (hc : v.strands[k].pc.toNat < (s.vcoreAt p v t).codeLen)
    (hb : firstBad (commonChecks w classV ++ checks ((s.advance p t).core p) (s.vcoreAt p v t) v.strands[k]) = some pos) :
    s.issue p k w classV engine checks body = .next ((s.advance p t).fault p k 1 (fld w 0 10) pos) := by
  rw [State.issue_of_issues h, if_neg (Nat.not_le.2 hc), hb]

/-- An engine that the strand does not hold: fault 0x03. -/
theorem State.issue_unheld (h : s.Issues p k w v t) (hc : v.strands[k].pc.toNat < (s.vcoreAt p v t).codeLen)
    (hb : firstBad (commonChecks w classV ++ checks ((s.advance p t).core p) (s.vcoreAt p v t) v.strands[k]) = none)
    (he : engine.mask &&& v.strands[k].claims.toNat ≠ engine.mask) :
    s.issue p k w classV engine checks body = .next ((s.advance p t).fault p k 3 (fld w 0 10) engine.mask) := by
  rw [State.issue_of_issues h, if_neg (Nat.not_le.2 hc), hb]
  dsimp only
  rw [if_pos (bne_iff_ne.2 he)]

/-! ### Words -/

/-- The opcode field of a row's word. -/
theorem fld_wordOf (ops : BitVec 118) (n : Nat) : fld (wordOf ops n) 0 10 = n % 1024 := by
  unfold fld wordOf bitsAt
  rw [BitVec.toNat_append, BitVec.toNat_ofNat]
  rw [Nat.shiftRight_zero, Nat.or_mod_two_pow]
  simp [Nat.shiftLeft_eq]

/-- The wavefront bit of an MLOAD, set. -/
theorem flag_withBits_set (w : IWord) : flag (withBits w 30 1 1) 30 = true := by
  unfold flag withBits bitAt bitsAt
  rw [BitVec.toNat_ofNat]
  simp only [Nat.shiftRight_eq_div_pow, Nat.shiftLeft_eq]
  have := w.isLt
  rw [beq_iff_eq]
  omega

/-- The wavefront bit of an MLOAD, clear. -/
theorem flag_withBits_clear (w : IWord) : flag (withBits w 30 1 0) 30 = false := by
  unfold flag withBits bitAt bitsAt
  rw [BitVec.toNat_ofNat]
  simp only [Nat.shiftRight_eq_div_pow, Nat.shiftLeft_eq]
  have := w.isLt
  rw [beq_eq_false_iff_ne]
  omega

/-! ### Audits -/

/-- Where the latency audit stops no read, the accesses are noted and the instruction goes on. -/
theorem State.audit_clear {op : Nat} {reads writes : List Access} {go : State → State} (h : s.Clear p reads) :
    s.audit p k op reads writes go = go (s.noteAccesses p (reads ++ writes)) := by
  unfold State.audit
  have : (if s.job.latAudit then (s.core p).earlyRead reads else none) = none := by
    split
    · exact h (by assumption)
    · rfl
  rw [this]

/-- An instruction that no latency audit stops has its issue's effect and reaches its lane. -/
theorem State.toLane_clear {l : LaneId} {q : QInstr} {reads : List Access} {go : State → State} (h : s.ClearTo p l q t reads) :
    s.toLane p l q t reads go = (go (s.noted p l q t reads)).enqueue p l q t := by
  unfold State.toLane State.noted
  exact State.audit_clear h

theorem State.clear_nil (s : State) (p : Fin 20) : s.Clear p [] := fun _ => rfl

end Sys2Proof.Machine
end

