-- ==== Sys2Proof/Laws/KeepsOps.lean ====
section
/-! SUPPORT. What `Machine/Ops.lean` changes keeps the state sound and its queue as it is. -/

namespace Sys2Proof.Machine

variable {que : List Instr}

theorem State.fresh_keeps {s : State} (hs : Keeps que s) : Keeps que (State.fresh s).2 := by
  unfold State.fresh
  dsimp only
  repeat' first
    | with_reducible assumption
    | (simp only [keeps_mk]; with_reducible refine Keeps.parts ?_)

theorem State.setCore_keeps {s : State} {p : Fin 20} {c : Core} (hs : Keeps que s) (hc : c.Sound) : Keeps que (State.setCore s p c) := by
  unfold State.setCore
  simp only [keeps_mk]
  exact hs.partsCores (SoundCores.set hs.cores p hc)

theorem State.modCore_keeps {s : State} {p : Fin 20} {f : Core → Core} (hs : Keeps que s) (hf : ∀ c : Core, c.Sound → (f c).Sound) :
    Keeps que (State.modCore s p f) := State.setCore_keeps hs (hf _ (hs.core p))

theorem State.mapCores_keeps {s : State} {f : Core → Core} (hs : Keeps que s) (hf : ∀ c : Core, c.Sound → (f c).Sound) :
    Keeps que (State.mapCores s f) := by
  unfold State.mapCores
  simp only [keeps_mk]
  exact hs.partsCores (SoundCores.map hs.cores hf)

theorem State.passTo_keeps {s : State} {p : Fin 20} {t : Nat} {k : CycleCodes} (hs : Keeps que s) : Keeps que (State.passTo s p t k) :=
  State.modCore_keeps hs fun _ h => Core.advanceTo_sound h

theorem State.modV_keeps {s : State} {p : Fin 20} {f : VCore → VCore} (hs : Keeps que s) (hf : ∀ v : VCore, v.Sound → (f v).Sound) :
    Keeps que (State.modV s p f) := State.modCore_keeps hs fun _ hc => hc.mapV hf

theorem State.modStrand_keeps {s : State} {p : Fin 20} {k : Fin 128} {f : Strand → Strand}
    (hs : Keeps que s) : Keeps que (State.modStrand s p k f) := by
  unfold State.modStrand
  repeat' first
    | with_reducible assumption
    | with_reducible apply State.modV_keeps
    | exact fun _ h => VCore.modStrand_sound h

theorem State.addTokenV_keeps {s : State} {num : Nat} {ctr : Nat} {inc : Nat}
    (hs : Keeps que s) : Keeps que (State.addTokenV s num ctr inc) := by
  unfold State.addTokenV
  dsimp only
  repeat' first
    | with_reducible assumption
    | with_reducible apply State.modCore_keeps
    | exact fun _ h => Core.addToken_sound h
    | (simp only [keeps_mk]; with_reducible refine Keeps.parts ?_)
    | with_reducible refine keeps_ite ?_ ?_
    | split

theorem State.applyHeld_keeps {s : State} {p : Fin 20} (hs : Keeps que s) : Keeps que (State.applyHeld s p) := by
  unfold State.applyHeld
  dsimp only
  repeat' first
    | with_reducible assumption
    | with_reducible apply State.modCore_keeps
    | exact fun _ h => Core.addToken_sound h
    | (simp only [keeps_mk]; with_reducible refine Keeps.parts ?_)
    | with_reducible refine keeps_foldl _ ?_ ?_
    | split
    | intro _

theorem State.emit_keeps {s : State} {m : OutMsg} (hs : Keeps que s) : Keeps que (State.emit s m) := by
  unfold State.emit
  repeat' first
    | with_reducible assumption
    | (simp only [keeps_mk]; with_reducible refine Keeps.parts ?_)

theorem State.emitPort_keeps {s : State} {n : Nat} {m : OutMsg} (hs : Keeps que s) : Keeps que (State.emitPort s n m) := by
  unfold State.emitPort
  repeat' first
    | with_reducible assumption
    | with_reducible apply State.emit_keeps
    | with_reducible refine keeps_ite ?_ ?_

theorem State.emitH_keeps {s : State} {m : OutMsg} (hs : Keeps que s) : Keeps que (State.emitH s m) := by
  unfold State.emitH
  repeat' first
    | with_reducible assumption
    | with_reducible apply State.emit_keeps
    | with_reducible refine keeps_ite ?_ ?_

theorem State.hostWrite_keeps {s : State} {a : Nat} {bs : List Byte} (hs : Keeps que s) : Keeps que (s.hostWrite a bs) :=
  hs.withMem { hs.sound with host := Mem.setRange_wf hs.sound.host a bs } rfl rfl hs.bounded

theorem State.raiseMsix_keeps {s : State} {vec : Nat} (hs : Keeps que s) : Keeps que (State.raiseMsix s vec) := by
  unfold State.raiseMsix
  dsimp only
  repeat' first
    | with_reducible assumption
    | with_reducible apply State.emit_keeps
    | (simp only [keeps_mk]; with_reducible refine Keeps.parts ?_)
    | with_reducible refine keeps_ite ?_ ?_

theorem State.modBox_keeps {s : State} {m : Nat} {f : Mailbox → Mailbox} (hs : Keeps que s) : Keeps que (State.modBox s m f) := by
  unfold State.modBox
  dsimp only
  repeat' first
    | with_reducible assumption
    | (simp only [keeps_mk]; with_reducible refine Keeps.parts ?_)

theorem State.freeBox_keeps {s : State} {o : Option Nat} (hs : Keeps que s) : Keeps que (s.freeBox o) := by
  cases o with
  | none => exact hs
  | some m => exact State.modBox_keeps (f := fun b => { b with busy := false }) hs

theorem State.putEntry_keeps {s : State} {e : List Byte} {irq : Bool} {box : Option Nat}
    (hs : Keeps que s) : Keeps que (State.putEntry s e irq box) := by
  unfold State.putEntry
  dsimp only
  repeat' first
    | with_reducible assumption
    | with_reducible apply State.hostWrite_keeps
    | with_reducible apply State.raiseMsix_keeps
    | with_reducible apply State.freeBox_keeps
    | (simp only [keeps_mk]; with_reducible refine Keeps.parts ?_)
    | with_reducible refine keeps_ite ?_ ?_

theorem State.pumpEvents_keeps {n : Nat} {s : State} (hs : Keeps que s) : Keeps que (State.pumpEvents n s) := by
  induction n generalizing s with
  | zero => exact hs
  | succ n ih =>
    unfold State.pumpEvents
    split
    · split
      · exact hs
      · refine ih (State.putEntry_keeps ?_)
        simp only [keeps_mk]
        refine hs.partsEvents (Nat.le_trans ?_ hs.bounded.events)
        rename_i e irq box rest heq
        rw [heq, List.filter_cons]
        split
        · exact Nat.le_succ _
        · exact Nat.le_refl _
    · exact hs

theorem State.pump_keeps {s : State} (hs : Keeps que s) : Keeps que (State.pump s) := by
  unfold State.pump
  repeat' first
    | with_reducible assumption
    | with_reducible apply State.pumpEvents_keeps

theorem State.post_keeps {s : State} {code : Nat} {payload : List Byte} (hs : Keeps que s) : Keeps que (State.post s code payload) := by
  unfold State.post
  dsimp only
  split
  · refine State.emitH_keeps ?_
    simp only [keeps_mk]; exact hs.parts
  · split
    · simp only [keeps_mk]; exact hs.parts
    · rename_i hn
      refine State.pump_keeps ?_
      simp only [keeps_mk]
      refine hs.partsEvents ?_
      have h := List.length_filter_le (fun e : List Byte × Bool × Option Nat => e.2.2.isNone) s.host.evQueue
      simp only [List.filter_append, List.length_append, List.filter_cons, List.filter_nil, Option.isNone_none, if_true, List.length_cons,
        List.length_nil]
      omega

theorem State.modPort_keeps {s : State} {n : Nat} {f : Port → Port} (hs : Keeps que s) : Keeps que (State.modPort s n f) := by
  unfold State.modPort
  try dsimp only
  repeat' first
    | with_reducible assumption
    | (simp only [keeps_mk]; with_reducible refine Keeps.parts ?_)

theorem State.linkOut_keeps {s : State} {n : Nat} {ps : List (List Byte)}
    (hs : Keeps que s) : Keeps que (State.linkOut s n ps) := by
  unfold State.linkOut
  try dsimp only
  repeat' first
    | with_reducible assumption
    | with_reducible apply State.modPort_keeps
    | (simp only [keeps_mk]; with_reducible refine Keeps.parts ?_)
    | with_reducible refine keeps_ite ?_ ?_
    | split
    | intro _

theorem State.sendPackets_keeps {s : State} {port : Option Nat} {v3 : Bool} {arrival : Option Nat} {ps : List (List Byte)}
    (hs : Keeps que s) : Keeps que (State.sendPackets s port v3 arrival ps) := by
  unfold State.sendPackets
  try dsimp only
  repeat' first
    | with_reducible assumption
    | with_reducible apply State.emit_keeps
    | with_reducible apply State.linkOut_keeps
    | with_reducible apply State.modPort_keeps
    | (simp only [keeps_mk]; with_reducible refine Keeps.parts ?_)
    | with_reducible refine keeps_ite ?_ ?_
    | split
    | intro _
    | with_reducible refine keeps_get (by assumption) ?_
    | with_reducible refine keeps_snd (by assumption) ?_
    | with_reducible refine keeps_fst (by assumption) ?_

theorem State.flushPort_keeps {s : State} {n : Nat} (hs : Keeps que s) : Keeps que (State.flushPort s n) := by
  unfold State.flushPort
  try dsimp only
  repeat' first
    | with_reducible assumption
    | with_reducible apply State.linkOut_keeps
    | with_reducible apply State.modPort_keeps
    | (simp only [keeps_mk]; with_reducible refine Keeps.parts ?_)
    | with_reducible refine keeps_ite ?_ ?_
    | split
    | intro _

theorem State.dropWaiting_keeps {s : State} {n : Nat} {lost : Waiting → Bool}
    (hs : Keeps que s) : Keeps que (State.dropWaiting s n lost) := by
  unfold State.dropWaiting
  try dsimp only
  repeat' first
    | with_reducible assumption
    | with_reducible apply State.modPort_keeps
    | (simp only [keeps_mk]; with_reducible refine Keeps.parts ?_)
    | with_reducible refine keeps_foldl _ ?_ ?_
    | intro _

theorem State.sendData_keeps {s : State} {port : Option Nat} {v3 : Bool} {ps : List (List Byte)}
    (hs : Keeps que s) : Keeps que (State.sendData s port v3 ps) := by
  unfold State.sendData
  try dsimp only
  repeat' first
    | with_reducible assumption
    | with_reducible apply State.sendPackets_keeps
    | (simp only [keeps_mk]; with_reducible refine Keeps.parts ?_)
    | split
    | with_reducible refine keeps_get (by assumption) ?_
    | with_reducible refine keeps_snd (by assumption) ?_
    | with_reducible refine keeps_fst (by assumption) ?_

theorem State.sendControl_keeps {s : State} {ports : List Nat} {kind : Nat} {ctl : Ctl} {payload : List Byte}
    (hs : Keeps que s) : Keeps que (State.sendControl s ports kind ctl payload) := by
  unfold State.sendControl
  try dsimp only
  repeat' first
    | with_reducible assumption
    | with_reducible apply State.sendPackets_keeps
    | (simp only [keeps_mk]; with_reducible refine Keeps.parts ?_)
    | with_reducible refine keeps_foldl _ ?_ ?_
    | intro _

theorem State.toPartner_keeps {s : State} {n : Nat} {type : Nat} {opId : Nat} {index : Nat} {bytes : List Byte}
    (hs : Keeps que s) : Keeps que (State.toPartner s n type opId index bytes) := by
  unfold State.toPartner
  try dsimp only
  repeat' first
    | with_reducible assumption
    | with_reducible apply State.sendPackets_keeps
    | (simp only [keeps_mk]; with_reducible refine Keeps.parts ?_)
    | with_reducible refine keeps_ite ?_ ?_
    | split

theorem Fabric.remember_seen (f : Fabric) (origin seq : Nat) :
    (f.remember origin seq).seen.length ≤ 256 := by
  simp only [Fabric.remember, List.length_drop, List.length_append, List.length_singleton]; omega

theorem State.flood_keeps {s : State} {kind : Nat} {payload : List Byte}
    (hs : Keeps que s) : Keeps que (s.flood kind payload) := by
  unfold State.flood
  dsimp only
  generalize e : s.sendControl _ _ _ _ = u
  have hu : Keeps que u := e ▸ State.sendControl_keeps hs
  simp only [keeps_mk]
  exact hu.partsSeen (Fabric.remember_seen _ _ _)

theorem State.forward_keeps {s : State} {port : Nat} {kind : Nat} {ctl : Ctl} {payload : List Byte}
    (hs : Keeps que s) : Keeps que (State.forward s port kind ctl payload) := by
  unfold State.forward
  repeat' first
    | with_reducible assumption
    | with_reducible apply State.sendControl_keeps
    | with_reducible refine keeps_ite ?_ ?_

theorem State.postJob_keeps {s : State} {reason : Nat} (hs : Keeps que s) : Keeps que (State.postJob s reason) := by
  unfold State.postJob
  dsimp only
  repeat' first
    | with_reducible assumption
    | with_reducible apply State.post_keeps

theorem State.setJobState_keeps {s : State} {st : JobState} {reason : Nat}
    (hs : Keeps que s) : Keeps que (State.setJobState s st reason) := by
  unfold State.setJobState
  dsimp only
  repeat' first
    | with_reducible assumption
    | with_reducible apply State.postJob_keeps
    | (simp only [keeps_mk]; with_reducible refine Keeps.parts ?_)

theorem State.pauseAll_keeps {s : State} {reason : Nat} (hs : Keeps que s) : Keeps que (State.pauseAll s reason) := by
  unfold State.pauseAll
  dsimp only
  repeat' first
    | with_reducible assumption
    | with_reducible apply State.flood_keeps
    | with_reducible apply State.setJobState_keeps
    | (simp only [keeps_mk]; with_reducible refine Keeps.parts ?_)
    | with_reducible refine keeps_ite ?_ ?_

theorem State.runOn_keeps {s : State} {reason : Nat} (hs : Keeps que s) : Keeps que (State.runOn s reason) := by
  unfold State.runOn
  dsimp only
  repeat' first
    | with_reducible assumption
    | with_reducible apply State.setJobState_keeps
    | (simp only [keeps_mk]; with_reducible refine Keeps.parts ?_)

theorem State.resumeAll_keeps {s : State} {reason : Nat} (hs : Keeps que s) : Keeps que (State.resumeAll s reason) := by
  unfold State.resumeAll
  dsimp only
  repeat' first
    | with_reducible assumption
    | with_reducible apply State.flood_keeps
    | with_reducible apply State.runOn_keeps
    | (simp only [keeps_mk]; with_reducible refine Keeps.parts ?_)
    | with_reducible refine keeps_ite ?_ ?_

theorem State.charge_keeps {s : State} {b : Nat} {d1 : Nat} {d2 : Nat} {d3 : Nat}
    (hs : Keeps que s) : Keeps que (State.charge s b d1 d2 d3) := by
  unfold State.charge
  dsimp only
  repeat' first
    | with_reducible assumption
    | (simp only [keeps_mk]; with_reducible refine Keeps.parts ?_)

theorem State.checkComplete_keeps {s : State} (hs : Keeps que s) : Keeps que (State.checkComplete s) := by
  unfold State.checkComplete
  repeat' first
    | with_reducible assumption
    | with_reducible apply State.setJobState_keeps
    | with_reducible refine keeps_ite ?_ ?_

theorem State.modUnit_keeps {s : State} {u : Nat} {f : Witness → Witness}
    (hs : Keeps que s) : Keeps que (State.modUnit s u f) := by
  unfold State.modUnit
  dsimp only
  repeat' first
    | with_reducible assumption
    | (simp only [keeps_mk]; with_reducible refine Keeps.parts ?_)

theorem State.setDomain_keeps {s : State} {d : Fin 148} {x : DomState} (hs : Keeps que s) : Keeps que (State.setDomain s d x) := by
  unfold State.setDomain
  try dsimp only
  repeat' first
    | with_reducible assumption
    | (simp only [keeps_mk]; with_reducible refine Keeps.parts ?_)

theorem State.domainRequest_keeps {s : State} {d : Fin 148} {on : Bool} (hs : Keeps que s) : Keeps que (State.domainRequest s d on) := by
  unfold State.domainRequest
  try dsimp only
  repeat' first
    | with_reducible assumption
    | (simp only [keeps_mk]; with_reducible refine Keeps.parts ?_)
    | with_reducible refine keeps_ite ?_ ?_
    | split

theorem State.idleSlices_keeps {s : State} (hs : Keeps que s) : Keeps que (State.idleSlices s) := by
  unfold State.idleSlices
  try dsimp only
  repeat' first
    | with_reducible assumption
    | with_reducible apply State.domainRequest_keeps
    | (simp only [keeps_mk]; with_reducible refine Keeps.parts ?_)
    | with_reducible refine keeps_ite ?_ ?_
    | with_reducible refine keeps_foldl _ ?_ ?_
    | split
    | intro _

theorem State.powerCore_keeps {s : State} {p : Fin 20} (hs : Keeps que s) : Keeps que (State.powerCore s p) := by
  unfold State.powerCore
  try dsimp only
  repeat' first
    | with_reducible assumption
    | (simp only [keeps_mk]; with_reducible refine Keeps.parts ?_)
    | intro _

end Sys2Proof.Machine
end

