-- ==== Sys2Proof/Laws/KeepsFlags.lean ====
section
/-! SUPPORT. What `Machine/Flags.lean` changes keeps the state sound and its queue as it is. -/

namespace Sys2Proof.Machine

variable {que : List Instr}

theorem execCoreAflagsSet_keeps {core : Fin 20} {value : Word} {s : State}
    (hs : Keeps que s) : KeepsOut que (execCoreAflagsSet core value s) := by
  unfold execCoreAflagsSet
  repeat' first
    | with_reducible assumption
    | with_reducible apply State.modV_keeps
    | exact fun _ h => VCore.addFlags_sound h
    | with_reducible apply keepsOut_next

end Sys2Proof.Machine
end

