-- ==== Sys2Proof/Laws/State.lean ====
section
/-! SUPPORT. What each update of a core, a virtual core or a strand leaves as it was, and what a core reads after it. -/

namespace Sys2Proof.Machine

variable (s : State) (p q : Fin 20) (k : Fin 128)

@[simp] theorem State.setCore_job (c : Core) : (s.setCore p c).job = s.job := rfl
@[simp] theorem State.setCore_mem (c : Core) : (s.setCore p c).mem = s.mem := rfl
@[simp] theorem State.setCore_ing (c : Core) : (s.setCore p c).ing = s.ing := rfl
@[simp] theorem State.setCore_rep (c : Core) : (s.setCore p c).rep = s.rep := rfl
@[simp] theorem State.setCore_fab (c : Core) : (s.setCore p c).fab = s.fab := rfl
@[simp] theorem State.setCore_chk (c : Core) : (s.setCore p c).chk = s.chk := rfl
@[simp] theorem State.setCore_ckpt (c : Core) : (s.setCore p c).ckpt = s.ckpt := rfl
@[simp] theorem State.setCore_host (c : Core) : (s.setCore p c).host = s.host := rfl
@[simp] theorem State.setCore_pow (c : Core) : (s.setCore p c).pow = s.pow := rfl
@[simp] theorem State.setCore_free (c : Core) : (s.setCore p c).free = s.free := rfl
@[simp] theorem State.setCore_out (c : Core) : (s.setCore p c).out = s.out := rfl
@[simp] theorem State.setCore_ticks (c : Core) : (s.setCore p c).ticks = s.ticks := rfl
@[simp] theorem State.setCore_pending (c : Core) : (s.setCore p c).pending = s.pending := rfl

@[simp] theorem State.core_setCore (c : Core) : (s.setCore p c).core p = c := by
  simp [State.core, State.setCore]

theorem State.core_setCore_ne {p q : Fin 20} (h : q ≠ p) (c : Core) : (s.setCore p c).core q = s.core q := by
  have h' : (p : Nat) ≠ q := fun e => h (Fin.ext e.symm)
  simp [State.core, State.setCore, h']

@[simp] theorem State.modCore_job (f : Core → Core) : (s.modCore p f).job = s.job := rfl
@[simp] theorem State.modCore_mem (f : Core → Core) : (s.modCore p f).mem = s.mem := rfl
@[simp] theorem State.modCore_ing (f : Core → Core) : (s.modCore p f).ing = s.ing := rfl
@[simp] theorem State.modCore_rep (f : Core → Core) : (s.modCore p f).rep = s.rep := rfl
@[simp] theorem State.modCore_fab (f : Core → Core) : (s.modCore p f).fab = s.fab := rfl
@[simp] theorem State.modCore_chk (f : Core → Core) : (s.modCore p f).chk = s.chk := rfl
@[simp] theorem State.modCore_ckpt (f : Core → Core) : (s.modCore p f).ckpt = s.ckpt := rfl
@[simp] theorem State.modCore_host (f : Core → Core) : (s.modCore p f).host = s.host := rfl
@[simp] theorem State.modCore_pow (f : Core → Core) : (s.modCore p f).pow = s.pow := rfl
@[simp] theorem State.modCore_free (f : Core → Core) : (s.modCore p f).free = s.free := rfl
@[simp] theorem State.modCore_out (f : Core → Core) : (s.modCore p f).out = s.out := rfl
@[simp] theorem State.modCore_ticks (f : Core → Core) : (s.modCore p f).ticks = s.ticks := rfl
@[simp] theorem State.modCore_pending (f : Core → Core) : (s.modCore p f).pending = s.pending := rfl

@[simp] theorem State.core_modCore (f : Core → Core) : (s.modCore p f).core p = f (s.core p) := s.core_setCore p _

theorem State.core_modCore_ne {p q : Fin 20} (h : q ≠ p) (f : Core → Core) : (s.modCore p f).core q = s.core q :=
  s.core_setCore_ne h _

@[simp] theorem Core.modV_v (c : Core) (f : VCore → VCore) : (c.modV f).v = c.v.map f := rfl

@[simp] theorem State.core_modV (f : VCore → VCore) : (s.modV p f).core p = (s.core p).modV f := s.core_modCore p _

theorem State.core_modV_ne {p q : Fin 20} (h : q ≠ p) (f : VCore → VCore) : (s.modV p f).core q = s.core q :=
  s.core_modCore_ne h _

@[simp] theorem VCore.modStrand_tile (v : VCore) (f : Strand → Strand) : (v.modStrand k f).tile = v.tile := rfl
@[simp] theorem VCore.modStrand_tokens (v : VCore) (f : Strand → Strand) : (v.modStrand k f).tokens = v.tokens := rfl
@[simp] theorem VCore.modStrand_stepTag (v : VCore) (f : Strand → Strand) : (v.modStrand k f).stepTag = v.stepTag := rfl
@[simp] theorem VCore.modStrand_flags (v : VCore) (f : Strand → Strand) : (v.modStrand k f).flags = v.flags := rfl
@[simp] theorem VCore.modStrand_vt (v : VCore) (f : Strand → Strand) : (v.modStrand k f).vt = v.vt := rfl
@[simp] theorem VCore.modStrand_vm (v : VCore) (f : Strand → Strand) : (v.modStrand k f).vm = v.vm := rfl
@[simp] theorem VCore.modStrand_acc (v : VCore) (f : Strand → Strand) : (v.modStrand k f).acc = v.acc := rfl
@[simp] theorem VCore.modStrand_num (v : VCore) (f : Strand → Strand) : (v.modStrand k f).num = v.num := rfl

@[simp] theorem VCore.modStrand_strand (v : VCore) (f : Strand → Strand) : (v.modStrand k f).strands[k] = f v.strands[k] := by
  simp [VCore.modStrand]

theorem VCore.modStrand_strand_ne (v : VCore) {j k : Fin 128} (h : j ≠ k) (f : Strand → Strand) :
    (v.modStrand k f).strands[j] = v.strands[j] := by
  have h' : (k : Nat) ≠ j := fun e => h (Fin.ext e.symm)
  simp [VCore.modStrand, h']

/-! ### Posting an event leaves every core -/

@[simp] theorem State.emit_cores (m : OutMsg) : (s.emit m).cores = s.cores := rfl

@[simp] theorem State.emitH_cores (m : OutMsg) : (s.emitH m).cores = s.cores := by
  unfold State.emitH; split <;> rfl

@[simp] theorem State.hostWrite_cores (a : Nat) (bs : List Byte) : (s.hostWrite a bs).cores = s.cores := rfl

@[simp] theorem State.raiseMsix_cores (vec : Nat) : (s.raiseMsix vec).cores = s.cores := by
  unfold State.raiseMsix
  split <;> rfl

@[simp] theorem State.freeBox_cores (b : Option Nat) : (s.freeBox b).cores = s.cores := by
  cases b <;> rfl

@[simp] theorem State.putEntry_cores (e : List Byte) (irq : Bool) (b : Option Nat) : (s.putEntry e irq b).cores = s.cores := by
  unfold State.putEntry
  dsimp only
  rw [State.freeBox_cores]
  split
  · exact State.raiseMsix_cores _ _
  · rfl

@[simp] theorem State.pumpEvents_cores (n : Nat) : (s.pumpEvents n).cores = s.cores := by
  induction n generalizing s with
  | zero => rfl
  | succ n ih =>
    unfold State.pumpEvents
    split
    · split
      · rfl
      · rw [ih, State.putEntry_cores]
    · rfl

@[simp] theorem State.post_cores (code : Nat) (payload : List Byte) : (s.post code payload).cores = s.cores := by
  unfold State.post
  dsimp only
  split
  · exact State.emitH_cores _ _
  · split
    · rfl
    · exact State.pumpEvents_cores _ _

@[simp] theorem State.sendPackets_cores (port : Option Nat) (v3 : Bool) (arrival : Option Nat) (ps : List (List Byte)) :
    (s.sendPackets port v3 arrival ps).cores = s.cores := by
  cases port with
  | none => rfl
  | some n => unfold State.sendPackets; dsimp only; split <;> rfl

@[simp] theorem State.sendControl_cores (ports : List Nat) (kind : Nat) (ctl : Ctl) (payload : List Byte) :
    (s.sendControl ports kind ctl payload).cores = s.cores := by
  unfold State.sendControl
  induction ports generalizing s with
  | nil => rfl
  | cons n ports ih => exact (ih _).trans (State.sendPackets_cores _ _ _ _ _)

@[simp] theorem State.flood_cores (kind : Nat) (payload : List Byte) : (s.flood kind payload).cores = s.cores := by
  unfold State.flood
  dsimp only
  exact State.sendControl_cores ..

@[simp] theorem State.requestBoundary_cores (b origin : Nat) : (s.requestBoundary b origin).cores = s.cores := by
  unfold State.requestBoundary
  extract_lets missed
  have hm : ∀ c, (missed c).cores = s.cores := fun c => State.post_cores _ _ _
  clear_value missed
  repeat' split
  all_goals first | rfl | exact hm _

theorem State.core_of_cores {s t : State} (h : t.cores = s.cores) (p : Fin 20) : t.core p = s.core p := by unfold State.core; rw [h]

end Sys2Proof.Machine
end

