-- ==== Sys2Proof/Laws/KeepsAdvance.lean ====
section
/-! SUPPORT. What the running instructions of a core change keeps the state sound and its queue as it is. -/

namespace Sys2Proof.Machine

variable {que : List Instr} {p : Fin 20} {s : State}

theorem keeps_closed : CoreClosed p (Keeps que) := ⟨fun h hf => State.modCore_keeps h hf, State.fresh_keeps, State.charge_keeps, State.modUnit_keeps⟩

/-- A sound state in which the tracker of core `p` has room for one more task. -/
structure Room (que : List Instr) (p : Fin 20) (s : State) : Prop where
  keeps : Keeps que s
  fits : (s.core p).Fits 63

theorem room_closed : CoreClosed p (Room que p) where
  core h hf := ⟨State.modCore_keeps h.keeps hf, by rw [State.core_modCore]; exact hf _ h.fits⟩
  fresh h := ⟨State.fresh_keeps h.keeps, h.fits⟩
  charge h := ⟨State.charge_keeps h.keeps, h.fits⟩
  unit h := ⟨State.modUnit_keeps h.keeps, h.fits⟩

theorem Keeps.room (h : Keeps que s) (ht : ¬ 64 ≤ (s.core p).tasks.length) : Room que p s :=
  ⟨h, { h.core p with tasks := by omega }⟩

theorem State.fault_keeps {k : Fin 128} {code opcode info : Nat} (hs : Keeps que s) : Keeps que (s.fault p k code opcode info) :=
  State.fault_closed keeps_closed hs

theorem State.noteAccesses_keeps {news : List Access} (hs : Keeps que s) : Keeps que (s.noteAccesses p news) :=
  State.noteAccesses_closed keeps_closed hs

theorem State.noteToken_keeps {o : TokenOp} (hs : Keeps que s) : Keeps que (s.noteToken p o) :=
  State.noteToken_closed keeps_closed hs

theorem State.correct_keeps {pair : Bool} {accs : List Access} (hs : Keeps que s) : Keeps que (s.correct p pair accs) :=
  State.correct_closed keeps_closed hs

theorem State.blur_keeps {runs : List (Nat × Nat)} (hs : Keeps que s) : Keeps que (State.blur s p runs) :=
  State.blur_closed keeps_closed hs

theorem State.arrive_keeps {accs : List Access} (hs : Keeps que s) : Keeps que (State.arrive s p accs) :=
  State.arrive_closed keeps_closed hs

theorem State.leave_keeps {accs : List Access} (hs : Keeps que s) : Keeps que (State.leave s p accs) :=
  State.leave_closed keeps_closed hs

theorem State.readNow_keeps {accs : List Access} (hs : Keeps que s) : Keeps que (State.readNow s p accs) :=
  State.readNow_closed keeps_closed hs

theorem State.feedPiece_keeps {r : Run} {k : Nat} (hs : Keeps que s) : Keeps que (State.feedPiece s p r k).1 :=
  State.feedPiece_closed keeps_closed hs

theorem State.freezeFor_keeps {n : Nat} {code : Nat} {k : Nat} (hs : Keeps que s) : Keeps que (State.freezeFor s p n code k) :=
  State.freezeFor_closed keeps_closed hs

theorem State.reach_keeps {n : Nat} {codes : State → CycleCodes} (hs : Keeps que s) : Keeps que (State.reach s p n codes) :=
  State.reach_closed keeps_closed hs

/-- An audited instruction that goes on starts where there was room. -/
theorem State.audit_room {k : Fin 128} {opcode : Nat} {reads writes : List Access} {go : State → State} (hs : Room que p s)
    (hgo : ∀ s, Room que p s → Keeps que (go s)) : Keeps que (s.audit p k opcode reads writes go) := by
  unfold State.audit
  split
  · exact State.fault_keeps hs.keeps
  · exact hgo _ (State.noteAccesses_closed room_closed hs)

theorem State.chargeTile_keeps (hs : Keeps que s) : Keeps que (s.chargeTile p) := State.charge_keeps hs

theorem State.audit_keeps {k : Fin 128} {opcode : Nat} {reads writes : List Access} {go : State → State} (hs : Keeps que s)
    (hgo : ∀ s, Keeps que s → Keeps que (go s)) : Keeps que (s.audit p k opcode reads writes go) :=
  State.audit_closed keeps_closed hs hgo

theorem State.advance_keeps {t : Nat} (hs : Keeps que s) : Keeps que (s.advance p t) := State.advance_closed keeps_closed hs

theorem State.start_keeps {l : LaneId} {q : QInstr} {t0 : Nat} (hs : Keeps que s) : Keeps que (s.start p l q t0) :=
  State.start_closed keeps_closed hs

theorem State.toLane_keeps {l : LaneId} {q : QInstr} {t : Nat} {reads : List Access} {go : State → State} (hs : Keeps que s)
    (hgo : ∀ s, Keeps que s → Keeps que (go s)) : Keeps que (s.toLane p l q t reads go) :=
  State.toLane_closed keeps_closed hs hgo

end Sys2Proof.Machine
end

