-- ==== Sys2Proof/Laws/KeepsIssue.lean ====
section
/-! SUPPORT. What `Machine/Issue.lean` changes keeps the state sound and its queue as it is. -/

namespace Sys2Proof.Machine

variable {que : List Instr}

theorem State.commit_keeps {s : State} {p : Fin 20} {k : Fin 128} {t : Nat}
    (hs : Keeps que s) : Keeps que (State.commit s p k t) := by
  unfold State.commit
  repeat' first
    | with_reducible assumption
    | with_reducible apply State.modStrand_keeps

theorem State.noteClassV_keeps {s : State} {p : Fin 20} (hs : Keeps que s) : Keeps que (State.noteClassV s p) := by
  unfold State.noteClassV
  dsimp only
  repeat' first
    | with_reducible assumption
    | with_reducible apply State.modV_keeps
    | with_reducible exact fun _ h => h
    | (simp only [keeps_mk]; with_reducible refine Keeps.parts ?_)

theorem State.noteClassV_room {s : State} {p : Fin 20} (hs : Room que p s) : Room que p (s.noteClassV p) :=
  ⟨State.noteClassV_keeps hs.keeps, (State.modV_closed room_closed (f := fun v => { v with vIssued := true }) hs fun _ h => h).fits⟩

theorem State.commit_room {s : State} {p : Fin 20} {k : Fin 128} {t : Nat} (hs : Room que p s) : Room que p (s.commit p k t) :=
  State.modV_closed room_closed hs fun _ h => VCore.modStrand_sound h

theorem State.failIssue_keeps {s : State} {p : Fin 20} {k : Fin 128} {fault : Nat × Nat} {opcode : Nat} {t : Nat} {dst : List Access}
    (hs : Keeps que s) : Keeps que (State.failIssue s p k fault opcode t dst) := by
  unfold State.failIssue
  try dsimp only
  repeat' first
    | with_reducible assumption
    | with_reducible apply State.fresh_keeps
    | with_reducible apply State.modCore_keeps
    | exact fun _ h => Core.undefineCells_sound h
    | with_reducible refine sound_foldl _ ?_ ?_
    | with_reducible apply State.fault_keeps
    | with_reducible apply State.commit_keeps
    | (simp only [keeps_mk]; with_reducible refine Keeps.parts ?_)
    | with_reducible refine keeps_foldl _ ?_ ?_
    | intro _

theorem State.issue_keeps {s : State} {p : Fin 20} {k : Fin 128} {w : IWord} {classV : Bool} {engine : Engine}
    {checks : Core → VCore → Strand → List EncCheck} {body : State → VCore → Strand → Nat → State}
    (hs : Keeps que s) (hbody : ∀ s a0 a1 a2, Keeps que s → Keeps que (body s a0 a1 a2)) :
    KeepsOut que (State.issue s p k w classV engine checks body) := by
  unfold State.issue
  dsimp only
  repeat' first
    | with_reducible assumption
    | with_reducible apply hbody
    | with_reducible apply State.fault_keeps
    | with_reducible apply State.advance_keeps
    | with_reducible apply keepsOut_next
    | split

end Sys2Proof.Machine
end

