-- ==== Sys2Proof/Laws/KeepsControl.lean ====
section
/-! SUPPORT. What `Machine/Control.lean` changes keeps the state sound and its queue as it is. -/

namespace Sys2Proof.Machine

variable {que : List Instr}

theorem State.checkPoints_keeps {s : State} {p : Fin 20} {k : Fin 128} {opcode : Nat} {pc : BitVec 16}
    (hs : Keeps que s) : Keeps que (State.checkPoints s p k opcode pc) := by
  unfold State.checkPoints
  dsimp only
  repeat' first
    | with_reducible assumption
    | with_reducible apply State.modCore_keeps
    | exact fun _ h => Core.raise_sound h
    | with_reducible refine keeps_ite ?_ ?_
    | split

theorem State.requestBoundary_keeps {s : State} {b origin : Nat} (hs : Keeps que s) : Keeps que (s.requestBoundary b origin) := by
  unfold State.requestBoundary
  dsimp only
  split
  · exact hs
  · split
    · exact State.post_keeps hs
    · split
      · exact State.post_keeps hs
      · rename_i h
        simp only [keeps_mk]
        exact ⟨hs.queue, hs.sound, hs.cores, { hs.bounded with boundaries := by simp only [List.length_append, List.length_singleton]; omega }⟩

theorem State.holdAtStep_keeps {s : State} {p : Fin 20} {k : Fin 128} {t : Nat} {h : Hold}
    (hs : Keeps que s) : Keeps que (State.holdAtStep s p k t h) := by
  unfold State.holdAtStep
  dsimp only
  repeat' first
    | with_reducible assumption
    | with_reducible apply State.modCore_keeps
    | exact fun _ h => Core.stop_sound h
    | with_reducible apply State.modStrand_keeps

theorem execHalt_keeps {core : Fin 20} {strand : Fin 128} {ops : BitVec 118} {s : State}
    (hs : Keeps que s) : KeepsOut que (execHalt core strand ops s) := by
  unfold execHalt
  dsimp only
  repeat' first
    | with_reducible assumption
    | with_reducible apply State.modCore_keeps
    | with_reducible apply State.modStrand_keeps
    | with_reducible apply State.checkComplete_keeps
    | with_reducible apply State.issue_keeps
    | with_reducible apply State.checkPoints_keeps
    | intro _

theorem execBr_keeps {core : Fin 20} {strand : Fin 128} {ops : BitVec 118} {s : State}
    (hs : Keeps que s) : KeepsOut que (execBr core strand ops s) := by
  unfold execBr
  dsimp only
  repeat' first
    | with_reducible assumption
    | with_reducible apply State.modStrand_keeps
    | with_reducible apply State.issue_keeps
    | split
    | intro _

theorem execLoop_keeps {core : Fin 20} {strand : Fin 128} {ops : BitVec 118} {s : State}
    (hs : Keeps que s) : KeepsOut que (execLoop core strand ops s) := by
  unfold execLoop
  dsimp only
  repeat' first
    | with_reducible assumption
    | with_reducible apply State.modStrand_keeps
    | with_reducible apply State.issue_keeps
    | split
    | intro _

theorem execXset_keeps {core : Fin 20} {strand : Fin 128} {ops : BitVec 118} {s : State}
    (hs : Keeps que s) : KeepsOut que (execXset core strand ops s) := by
  unfold execXset
  dsimp only
  repeat' first
    | with_reducible assumption
    | with_reducible apply State.modStrand_keeps
    | with_reducible apply State.issue_keeps
    | intro _

theorem execXadd_keeps {core : Fin 20} {strand : Fin 128} {ops : BitVec 118} {s : State}
    (hs : Keeps que s) : KeepsOut que (execXadd core strand ops s) := by
  unfold execXadd
  dsimp only
  repeat' first
    | with_reducible assumption
    | with_reducible apply State.modStrand_keeps
    | with_reducible apply State.issue_keeps
    | intro _

theorem execStep_keeps {core : Fin 20} {strand : Fin 128} {ops : BitVec 118} {s : State}
    (hs : Keeps que s) : KeepsOut que (execStep core strand ops s) := by
  unfold execStep
  dsimp only
  repeat' first
    | with_reducible assumption
    | with_reducible apply State.modCore_keeps
    | with_reducible apply State.modV_keeps
    | exact fun _ h => h
    | with_reducible apply State.fault_keeps
    | with_reducible apply State.audit_keeps
    | with_reducible apply State.commit_keeps
    | with_reducible apply State.issue_keeps
    | with_reducible apply State.requestBoundary_keeps
    | with_reducible apply State.holdAtStep_keeps
    | split
    | intro _

theorem execMigrate_keeps {core : Fin 20} {strand : Fin 128} {ops : BitVec 118} {s : State}
    (hs : Keeps que s) : KeepsOut que (execMigrate core strand ops s) := by
  unfold execMigrate
  dsimp only
  repeat' first
    | with_reducible assumption
    | with_reducible apply State.modStrand_keeps
    | with_reducible apply State.issue_keeps
    | with_reducible apply State.checkPoints_keeps
    | intro _

theorem execClaim_keeps {core : Fin 20} {strand : Fin 128} {ops : BitVec 118} {s : State}
    (hs : Keeps que s) : KeepsOut que (execClaim core strand ops s) := by
  unfold execClaim
  dsimp only
  repeat' first
    | with_reducible assumption
    | with_reducible apply State.modStrand_keeps
    | with_reducible apply State.issue_keeps
    | intro _

theorem execRelease_keeps {core : Fin 20} {strand : Fin 128} {ops : BitVec 118} {s : State}
    (hs : Keeps que s) : KeepsOut que (execRelease core strand ops s) := by
  unfold execRelease
  dsimp only
  repeat' first
    | with_reducible assumption
    | with_reducible apply State.modCore_keeps
    | with_reducible apply State.modStrand_keeps
    | with_reducible apply State.fault_keeps
    | with_reducible apply State.issue_keeps
    | split
    | intro _

theorem execTsig_keeps {core : Fin 20} {strand : Fin 128} {ops : BitVec 118} {s : State}
    (hs : Keeps que s) : KeepsOut que (execTsig core strand ops s) := by
  unfold execTsig
  dsimp only
  repeat' first
    | with_reducible assumption
    | with_reducible apply State.modCore_keeps
    | with_reducible apply State.modV_keeps
    | exact fun _ h => Core.queueToken_sound h
    | with_reducible apply State.fault_keeps
    | with_reducible apply State.noteToken_keeps
    | with_reducible apply State.commit_keeps
    | with_reducible apply State.issue_keeps
    | split
    | intro _

theorem execTwait_keeps {core : Fin 20} {strand : Fin 128} {ops : BitVec 118} {s : State}
    (hs : Keeps que s) : KeepsOut que (execTwait core strand ops s) := by
  unfold execTwait
  dsimp only
  repeat' first
    | with_reducible assumption
    | with_reducible apply State.modStrand_keeps
    | with_reducible apply State.issue_keeps
    | intro _

theorem execReservedOpcode_keeps {core : Fin 20} {strand : Fin 128} {word : IWord} {s : State}
    (hs : Keeps que s) : KeepsOut que (execReservedOpcode core strand word s) := by
  unfold execReservedOpcode
  dsimp only
  repeat' first
    | with_reducible assumption
    | with_reducible apply State.issue_keeps
    | with_reducible apply keepsOut_next
    | split
    | intro _

theorem execMigRelease_keeps {core : Fin 20} {s : State} (hs : Keeps que s) : KeepsOut que (execMigRelease core s) := by
  unfold execMigRelease
  dsimp only
  repeat' first
    | with_reducible assumption
    | with_reducible apply State.modCore_keeps
    | exact fun _ h => h.mapV fun _ hv => hv
    | with_reducible apply keepsOut_next
    | split

theorem execLineFetch_keeps {core : Fin 20} {strand : Fin 128} {ecc : Ecc} {s : State}
    (hs : Keeps que s) : KeepsOut que (execLineFetch core strand ecc s) := by
  unfold execLineFetch
  try dsimp only
  repeat' first
    | with_reducible assumption
    | with_reducible apply State.modCore_keeps
    | exact fun _ h => { h with lines := by rw [List.length_drop, List.length_append, List.length_singleton]; omega }
    | with_reducible apply State.charge_keeps
    | with_reducible apply State.fault_keeps
    | with_reducible apply State.readNow_keeps
    | with_reducible apply State.freezeFor_keeps
    | (simp only [keeps_mk]; with_reducible refine Keeps.parts ?_)
    | with_reducible apply keepsOut_next
    | with_reducible refine keeps_ite ?_ ?_
    | split
    | intro _
    | with_reducible refine keeps_get (by assumption) ?_
    | with_reducible refine keeps_snd (by assumption) ?_
    | with_reducible refine keeps_fst (by assumption) ?_

end Sys2Proof.Machine
end

