-- ==== Sys2Proof/Laws/KeepsMemory.lean ====
section
/-! SUPPORT. What `Machine/Memory.lean` changes keeps the state sound and its queue as it is. -/

namespace Sys2Proof.Machine

variable {que : List Instr}

/-! ### The memory system -/

variable {m : MemSys}

theorem keepFold_wf {c : Mem 8} (h : c.wf) (part : List Nat) (x u : Nat) (bs : List (Byte × Nat)) :
    (bs.foldl (fun c b => if part.contains ((x + b.2) / u) then c else c.set (x + b.2) b.1) c).wf := by
  induction bs generalizing c with
  | nil => exact h
  | cons b bs ih =>
    refine ih ?_
    dsimp only
    split
    · exact h
    · exact Mem.set_wf h _ _

theorem MemSys.Sound.writeRun (h : m.Sound) (p : Place) (bs : List Byte) : (m.writeRun p bs).1.Sound := by
  unfold MemSys.writeRun
  extract_lets x n u part good keep
  have hk : ∀ c : Mem 8, c.wf → (keep c).wf := fun c hc => by
    show Mem.wf (if part.isEmpty then c.setRange x bs else _)
    split
    · exact Mem.setRange_wf hc _ _
    · exact keepFold_wf hc _ _ _ _
  clear_value keep
  cases p with
  | gddr a => exact { h with gddr := hk _ h.gddr }
  | staging a => exact { h with staging := hk _ h.staging }
  | scree a => exact { h with scree := Mem.setRange_wf h.scree _ _ }
  | host a => exact { h with host := Mem.setRange_wf h.host _ _ }
  | hole => exact h

theorem MemSys.Sound.writeDev (h : m.Sound) (a : Nat) (bs : List Byte) : (m.writeDev a bs).1.Sound := by
  unfold MemSys.writeDev
  suffices ∀ (rs : List (Nat × Nat)) (st : MemSys × Option Nat), st.1.Sound →
      (rs.foldl (fun (st : MemSys × Option Nat) r =>
        let p := st.1.place r.1
        let (m, bad) := st.1.writeRun p (sub bs (r.1 - a) r.2)
        (m, st.2.or (bad.map fun u => r.1 + u * p.unit - p.addr))) st).1.Sound from this _ _ h
  intro rs
  induction rs with
  | nil => exact fun st hs => hs
  | cons r rs ih =>
    intro st hs
    refine ih _ ?_
    dsimp only
    generalize st.1.place r.1 = p
    exact MemSys.Sound.writeRun hs p _

theorem MemSys.Sound.cold {scree host : Mem 8} (h1 : scree.wf) (h2 : host.wf) (poison : List Nat) (e : Nat) :
    (MemSys.cold scree host poison e).Sound :=
  ⟨Mem.undefined_wf _, Mem.undefined_wf _, h1, h2, Nat.zero_le _, Nat.zero_le _⟩

theorem MemSys.Sound.addDirs (h : m.Sound) (a n : Nat) : (m.addDirs a n).Sound := by
  unfold MemSys.addDirs
  dsimp only
  split
  · exact h
  · exact h.same rfl rfl rfl rfl rfl rfl

theorem MemSys.Sound.asTranslated (h : m.Sound) (a e : Nat) : (m.asTranslated a e).Sound := by
  unfold MemSys.asTranslated
  dsimp only
  split
  · exact h.same rfl rfl rfl rfl rfl rfl
  · exact (h.addDirs _ _).same rfl rfl rfl rfl rfl rfl

theorem MemSys.Sound.withTables (h : m.Sound) (n : MemSys) : (m.withTables n).Sound := h.same rfl rfl rfl rfl rfl rfl

theorem State.modMem_keeps {s : State} {f : MemSys → MemSys} (hs : Keeps que s) (h : (f s.mem).Sound) :
    Keeps que (s.modMem f) := hs.withMem h rfl rfl hs.bounded

/-- A change of the memory system that leaves its memories, fault queue and cache. -/
theorem State.modMem_keeps' {s : State} {f : MemSys → MemSys} (hs : Keeps que s) (h1 : ∀ m, (f m).gddr = m.gddr)
    (h2 : ∀ m, (f m).staging = m.staging) (h3 : ∀ m, (f m).scree = m.scree) (h4 : ∀ m, (f m).host = m.host)
    (h5 : ∀ m, (f m).tlb = m.tlb) (h6 : ∀ m, (f m).faults = m.faults) : Keeps que (s.modMem f) :=
  State.modMem_keeps hs (hs.sound.same (h1 _) (h2 _) (h3 _) (h4 _) (h5 _) (h6 _))

theorem State.countUnc_keeps {s : State} {a : Nat} (hs : Keeps que s) : Keeps que (s.countUnc a) := by
  unfold State.countUnc
  generalize s.mem.place a = p
  cases p
  · exact State.charge_keeps (State.modMem_keeps' hs (fun _ => rfl) (fun _ => rfl) (fun _ => rfl) (fun _ => rfl) (fun _ => rfl) fun _ => rfl)
  · exact State.charge_keeps hs
  · exact State.modMem_keeps' hs (fun _ => rfl) (fun _ => rfl) (fun _ => rfl) (fun _ => rfl) (fun _ => rfl) fun _ => rfl
  · exact hs
  · exact hs

theorem State.correctDev_keeps {s : State} {units : List Nat} (hs : Keeps que s) : Keeps que (State.correctDev s units) := by
  unfold State.correctDev
  repeat' first
    | with_reducible assumption
    | with_reducible apply State.charge_keeps
    | with_reducible apply State.modMem_keeps
    | with_reducible refine keeps_foldl _ ?_ ?_
    | with_reducible refine MemSys.Sound.same (Keeps.sound (q := que) ?_) rfl rfl rfl rfl rfl rfl
    | split
    | intro _

theorem State.withMem_keeps {s : State} {m : MemSys} (hs : Keeps que s) (h : m.Sound) : Keeps que { s with mem := m } :=
  hs.withMem h rfl rfl hs.bounded

theorem State.soften_keeps {s : State} {units : List Nat} (hs : Keeps que s) : Keeps que (State.soften s units) := by
  unfold State.soften
  refine keeps_foldl _ hs fun s a hs => ?_
  repeat' first
    | with_reducible assumption
    | with_reducible apply State.modMem_keeps
    | with_reducible exact Keeps.sound (by assumption)
    | with_reducible refine MemSys.Sound.same (Keeps.sound (q := que) ?_) rfl rfl rfl rfl rfl rfl
    | split

theorem State.meetDev_keeps {s : State} {write : Bool} {a n : Nat} (hs : Keeps que s) : Keeps que (s.meetDev write a n) := by
  unfold State.meetDev
  try dsimp only
  repeat' first
    | with_reducible assumption
    | with_reducible apply State.modMem_keeps
    | with_reducible apply State.correctDev_keeps
    | with_reducible refine MemSys.Sound.same (Keeps.sound (q := que) ?_) rfl rfl rfl rfl rfl rfl
    | (simp only [keeps_mk]; with_reducible refine Keeps.parts ?_)
    | with_reducible refine keeps_ite ?_ ?_
    | with_reducible refine keeps_foldl _ ?_ ?_
    | split
    | intro _
    | with_reducible refine keeps_get (by assumption) ?_
    | with_reducible refine keeps_snd (by assumption) ?_
    | with_reducible refine keeps_fst (by assumption) ?_

theorem State.spoil_keeps {s : State} {a : Nat} (hs : Keeps que s) : Keeps que (s.spoil a) := by
  unfold State.spoil
  extract_lets add
  generalize s.mem.place a = p
  cases p
  · exact State.modMem_keeps' hs (fun _ => rfl) (fun _ => rfl) (fun _ => rfl) (fun _ => rfl) (fun _ => rfl) fun _ => rfl
  · exact State.modMem_keeps' hs (fun _ => rfl) (fun _ => rfl) (fun _ => rfl) (fun _ => rfl) (fun _ => rfl) fun _ => rfl
  · exact State.modMem_keeps' hs (fun _ => rfl) (fun _ => rfl) (fun _ => rfl) (fun _ => rfl) (fun _ => rfl) fun _ => rfl
  · exact hs
  · exact hs

theorem State.readMem_keeps {s : State} {a : Nat} {n : Nat} (hs : Keeps que s) : Keeps que (State.readMem s a n).1 := by
  unfold State.readMem
  try dsimp only
  repeat' first
    | with_reducible assumption
    | with_reducible apply State.countUnc_keeps
    | with_reducible apply State.meetDev_keeps
    | (simp only [keeps_mk]; with_reducible refine Keeps.parts ?_)
    | split
    | with_reducible refine keeps_get (by assumption) ?_
    | with_reducible refine keeps_snd (by assumption) ?_
    | with_reducible refine keeps_fst (by assumption) ?_

theorem State.writeMem_keeps {s : State} {a : Nat} {bs : List Byte} (hs : Keeps que s) : Keeps que (s.writeMem a bs).1 := by
  unfold State.writeMem
  have h := State.meetDev_keeps (write := true) (a := a) (n := bs.length) hs
  dsimp only
  split
  · exact State.countUnc_keeps (State.withMem_keeps h (h.sound.writeDev _ _))
  · exact State.withMem_keeps h (h.sound.writeDev _ _)

theorem State.tlbLook_keeps {s : State} {a : Nat} (hs : Keeps que s) : Keeps que (s.tlbLook a) := by
  unfold State.tlbLook
  split
  · exact hs
  · refine State.modMem_keeps hs { hs.sound with tlb := ?_ }
    have := hs.sound.tlb
    dsimp only
    split
    · simp only [List.length_drop, List.length_append, List.length_singleton]; omega
    · exact this

theorem State.tlbRange_keeps {s : State} {a : Nat} {n : Nat} (hs : Keeps que s) : Keeps que (State.tlbRange s a n) := by
  unfold State.tlbRange
  repeat' first
    | with_reducible assumption
    | with_reducible apply State.tlbLook_keeps
    | with_reducible refine keeps_foldl _ ?_ ?_
    | split
    | intro _

theorem State.queueFault_keeps {s : State} {a : Nat} {write : Bool} {source : XlatSource} (hs : Keeps que s) :
    Keeps que (s.queueFault a write source) := by
  unfold State.queueFault
  split
  · refine State.modMem_keeps hs { hs.sound with faults := ?_ }
    simpa only [List.length_map] using hs.sound.faults
  · split
    · exact hs
    · extract_lets free e s'
      have h : Keeps que s' := State.modMem_keeps hs { hs.sound with
        faults := by simp only [List.length_append, List.length_singleton]; omega }
      clear_value *
      split
      · exact State.post_keeps h
      · exact h

theorem State.ingestEvent_keeps {s : State} {code : Nat} {j : Nat} {step : Nat}
    (hs : Keeps que s) : Keeps que (State.ingestEvent s code j step) := by
  unfold State.ingestEvent
  dsimp only
  repeat' first
    | with_reducible assumption
    | with_reducible apply State.pauseAll_keeps
    | (simp only [keeps_mk]; with_reducible refine Keeps.parts ?_)

theorem State.refillFaults_keeps {s : State} (hs : Keeps que s) : Keeps que (State.refillFaults s) := by
  unfold State.refillFaults
  dsimp only
  repeat' first
    | with_reducible assumption
    | with_reducible apply State.queueFault_keeps
    | with_reducible refine keeps_foldl _ ?_ ?_
    | intro _

theorem State.dropFault_keeps {s : State} {entry : Nat} (hs : Keeps que s) : Keeps que (s.dropFault entry) :=
  State.modMem_keeps hs { hs.sound with faults := Nat.le_trans (List.length_filter_le ..) hs.sound.faults }

theorem State.failPage_keeps {s : State} {f : XlatFault} (hs : Keeps que s) : Keeps que (State.failPage s f) := by
  unfold State.failPage
  dsimp only
  repeat' first
    | with_reducible assumption
    | with_reducible apply State.mapCores_keeps
    | exact fun _ h => Core.abortTask_sound h
    | with_reducible refine sound_foldl _ ?_ ?_
    | with_reducible apply State.ingestEvent_keeps
    | with_reducible apply State.refillFaults_keeps
    | with_reducible apply State.dropFault_keeps
    | with_reducible refine keeps_foldl _ ?_ ?_
    | intro _

theorem execXlatFaultTimeout_keeps {entry : BitVec 8} {s : State}
    (hs : Keeps que s) : KeepsOut que (execXlatFaultTimeout entry s) := by
  unfold execXlatFaultTimeout
  repeat' first
    | with_reducible assumption
    | with_reducible apply State.failPage_keeps
    | with_reducible apply keepsOut_next
    | split

theorem State.retryPage_keeps {s : State} {f : XlatFault} (hs : Keeps que s) : Keeps que (State.retryPage s f) := by
  unfold State.retryPage
  dsimp only
  repeat' first
    | with_reducible assumption
    | with_reducible apply State.mapCores_keeps
    | exact fun _ h => Core.mapReqs_sound h
    | with_reducible apply State.queueFault_keeps
    | with_reducible apply State.refillFaults_keeps
    | with_reducible apply State.dropFault_keeps
    | (simp only [keeps_mk]; with_reducible refine Keeps.parts ?_)
    | with_reducible refine keeps_foldl _ ?_ ?_
    | intro _

theorem execXlatRespRetry_keeps {entry : BitVec 8} {s : State} (hs : Keeps que s) : KeepsOut que (execXlatRespRetry entry s) := by
  unfold execXlatRespRetry
  repeat' first
    | with_reducible assumption
    | with_reducible apply State.retryPage_keeps
    | with_reducible apply keepsOut_next
    | split

theorem execXlatRespUnresolvable_keeps {entry : BitVec 8} {s : State}
    (hs : Keeps que s) : KeepsOut que (execXlatRespUnresolvable entry s) := by
  unfold execXlatRespUnresolvable
  repeat' first
    | with_reducible assumption
    | with_reducible apply State.failPage_keeps
    | with_reducible apply keepsOut_next
    | split

theorem execTlbInvalidateAll_keeps {s : State} (hs : Keeps que s) : KeepsOut que (execTlbInvalidateAll s) :=
  keepsOut_next (State.modMem_keeps hs { hs.sound with tlb := Nat.zero_le _ })

theorem execTlbInvalidatePage_keeps {page : BitVec 36} {s : State} (hs : Keeps que s) :
    KeepsOut que (execTlbInvalidatePage page s) :=
  keepsOut_next (State.modMem_keeps hs { hs.sound with tlb := Nat.le_trans (List.length_filter_le ..) hs.sound.tlb })

theorem State.channelBusy_keeps {s : State} {channel : Nat} (hs : Keeps que s) : Keeps que (State.channelBusy s channel) := by
  unfold State.channelBusy
  try dsimp only
  repeat' first
    | with_reducible assumption
    | with_reducible apply State.mapCores_keeps
    | exact fun _ h => Core.mapReqs_sound h
    | (simp only [keeps_mk]; with_reducible refine Keeps.parts ?_)
    | with_reducible refine keeps_ite ?_ ?_
    | split

theorem execGddr7Refresh_keeps {channel : Fin 24} {s : State} (hs : Keeps que s) : KeepsOut que (execGddr7Refresh channel s) := by
  unfold execGddr7Refresh
  split
  · exact keepsOut_next hs
  · exact keepsOut_next (State.channelBusy_keeps
      (State.modMem_keeps' hs (fun _ => rfl) (fun _ => rfl) (fun _ => rfl) (fun _ => rfl) (fun _ => rfl) fun _ => rfl))

theorem State.turnarounds_keeps {s : State} {n : Nat} (hs : Keeps que s) : Keeps que (State.turnarounds s n) := by
  unfold State.turnarounds
  try dsimp only
  repeat' first
    | with_reducible assumption
    | with_reducible apply State.channelBusy_keeps
    | (simp only [keeps_mk]; with_reducible refine Keeps.parts ?_)
    | with_reducible refine keeps_ite ?_ ?_
    | with_reducible refine keeps_foldl _ ?_ ?_
    | split
    | intro _

theorem State.scrubPass_keeps {s : State} {channel : Fin 24} {line : Nat}
    (hs : Keeps que s) : Keeps que (State.scrubPass s channel line) := by
  unfold State.scrubPass
  repeat' first
    | with_reducible assumption
    | with_reducible apply State.modMem_keeps
    | with_reducible refine keeps_ite ?_ ?_
    | with_reducible refine MemSys.Sound.same (Keeps.sound (q := que) ?_) rfl rfl rfl rfl rfl rfl

theorem execPatrolScrub_keeps {channel : Fin 24} {line : Nat} {sectors : Fin 3} {ecc : Ecc} {s : State} (hs : Keeps que s) :
    KeepsOut que (execPatrolScrub channel line sectors ecc s) := by
  unfold execPatrolScrub
  split
  · exact keepsOut_next hs
  · have hp : Keeps que (s.scrubPass channel line) := State.scrubPass_keeps hs
    dsimp only
    split
    · exact keepsOut_next (State.countUnc_keeps (State.spoil_keeps hp))
    · exact keepsOut_next (State.meetDev_keeps (keeps_ite (State.soften_keeps hp) hp))

theorem execTileMemoryScrub_keeps {core : Fin 20} {word : Nat} {ecc : Ecc} {s : State}
    (hs : Keeps que s) : KeepsOut que (execTileMemoryScrub core word ecc s) := by
  unfold execTileMemoryScrub
  try dsimp only
  repeat' first
    | with_reducible assumption
    | with_reducible apply State.modCore_keeps
    | with_reducible apply State.modV_keeps
    | with_reducible exact fun _ h => h
    | with_reducible apply State.charge_keeps
    | with_reducible apply State.chargeTile_keeps
    | (simp only [keeps_mk]; with_reducible refine Keeps.parts ?_)
    | with_reducible apply keepsOut_next
    | with_reducible refine keeps_ite ?_ ?_
    | split
    | with_reducible refine keeps_get (by assumption) ?_
    | with_reducible refine keeps_snd (by assumption) ?_
    | with_reducible refine keeps_fst (by assumption) ?_

theorem State.memoryUpsets_keeps {s : State} {n : Nat} (hs : Keeps que s) : Keeps que (State.memoryUpsets s n) := by
  unfold State.memoryUpsets
  try dsimp only
  repeat' first
    | with_reducible assumption
    | with_reducible apply State.spoil_keeps
    | with_reducible apply State.stagingScrub_keeps
    | with_reducible apply State.soften_keeps
    | with_reducible apply State.readMem_keeps
    | (simp only [keeps_mk]; with_reducible refine Keeps.parts ?_)
    | with_reducible refine keeps_foldl _ ?_ ?_
    | intro _

end Sys2Proof.Machine
end

