-- ==== Sys2Proof/Laws/KeepsShared.lean ====
section
/-! SUPPORT. What `Machine/Shared.lean` changes keeps the state sound and its queue as it is. -/

namespace Sys2Proof.Machine

variable {que : List Instr}

theorem State.writeBuf_keeps {s : State} {b : HostBuf} {off : Nat} {bs : List Byte} (hs : Keeps que s) :
    Keeps que (s.writeBuf b off bs) := keeps_foldlP _ hs fun _ _ h => State.hostWrite_keeps h

theorem State.regionWrite_keeps {s : State} {p : Fin 20} {num rid : Nat} {off : Int} {bs : List Byte} (hs : Keeps que s) :
    Keeps que (s.regionWrite p num rid off bs).1 := by
  unfold State.regionWrite
  split
  · exact hs
  · extract_lets a
    split
    · split
      · exact hs
      · split
        · exact hs
        · exact State.modV_keeps hs fun _ h => VCore.writeTile_sound h
    · split
      · exact hs
      · split
        rename_i m u heq
        have hm : m.Sound := by
          have := hs.sound.writeDev a bs
          rw [heq] at this
          exact this
        split
        · exact State.withMem_keeps hs hm
        · exact State.withMem_keeps hs hm

theorem State.countRead_keeps {s : State} {p : Fin 20} {tile : Bool} {addr : Nat}
    (hs : Keeps que s) : Keeps que (State.countRead s p tile addr) := by
  unfold State.countRead
  try dsimp only
  repeat' first
    | with_reducible assumption
    | with_reducible apply State.chargeTile_keeps
    | with_reducible apply State.countUnc_keeps
    | (simp only [keeps_mk]; with_reducible refine Keeps.parts ?_)
    | with_reducible refine keeps_ite ?_ ?_
    | split

theorem State.regionMeet_keeps {s : State} {p : Fin 20} {rid : Nat} {off : Int} {n : Nat} {write : Bool} {done : Bool}
    (hs : Keeps que s) : Keeps que (State.regionMeet s p rid off n write done) := by
  unfold State.regionMeet
  try dsimp only
  repeat' first
    | with_reducible assumption
    | with_reducible apply State.correct_keeps
    | with_reducible apply State.meetDev_keeps
    | with_reducible apply State.tlbRange_keeps
    | (simp only [keeps_mk]; with_reducible refine Keeps.parts ?_)
    | with_reducible refine keeps_ite ?_ ?_
    | split

theorem State.regionGet_keeps {s : State} {p : Fin 20} {num rid : Nat} {off : Int} {n : Nat} {done : Bool} (hs : Keeps que s) :
    Keeps que (s.regionGet p num rid off n done).1 := by
  unfold State.regionGet
  split
  · exact State.regionMeet_keeps hs
  · exact keeps_ite (State.countRead_keeps (State.regionMeet_keeps hs)) hs
  · exact hs

theorem State.regionPut_keeps {s : State} {p : Fin 20} {num rid : Nat} {off : Int} {bs : List Byte} {done : Bool} (hs : Keeps que s) :
    Keeps que (s.regionPut p num rid off bs done).1 := by
  unfold State.regionPut
  split
  · exact State.regionWrite_keeps (State.regionMeet_keeps hs)
  · exact keeps_ite (State.countRead_keeps (State.regionWrite_keeps (State.regionMeet_keeps hs))) hs
  · exact hs

theorem State.undefDev_keeps {s : State} {a n : Nat} (hs : Keeps que s) : Keeps que (s.undefDev a n) := by
  unfold State.undefDev
  split
  rename_i e s heq
  refine keeps_foldl _ (keeps_snd heq (State.fresh_keeps hs)) fun s r hs => State.modMem_keeps hs ?_
  generalize s.mem.place r.1 = p
  have h := hs.sound
  cases p with
  | gddr x => exact { h with gddr := Mem.refill_wf h.gddr _ _ _ }
  | staging x => exact { h with staging := Mem.refill_wf h.staging _ _ _ }
  | scree x => exact { h with scree := Mem.refill_wf h.scree _ _ _ }
  | host x => exact { h with host := Mem.refill_wf h.host _ _ _ }
  | hole => exact h

theorem State.regionUndef_keeps {s : State} {p : Fin 20} {num : Nat} {rid : Nat} {off : Int} {n : Nat}
    (hs : Keeps que s) : Keeps que (State.regionUndef s p num rid off n) := by
  unfold State.regionUndef
  dsimp only
  repeat' first
    | with_reducible assumption
    | with_reducible apply State.fresh_keeps
    | with_reducible apply State.modV_keeps
    | exact fun _ h => VCore.refill_sound h
    | with_reducible apply State.undefDev_keeps
    | with_reducible refine keeps_ite ?_ ?_
    | split

theorem State.releaseGuard_keeps {s : State} (hs : Keeps que s) : Keeps que (State.releaseGuard s) := by
  unfold State.releaseGuard
  repeat' first
    | with_reducible assumption
    | with_reducible apply State.mapCores_keeps
    | exact fun _ h => Core.mapTasks_sound h

theorem State.showPhase_keeps {s : State} (hs : Keeps que s) : Keeps que (State.showPhase s) := by
  unfold State.showPhase
  try dsimp only
  repeat' first
    | with_reducible assumption
    | (simp only [keeps_mk]; with_reducible refine Keeps.parts ?_)
    | with_reducible refine keeps_ite ?_ ?_
    | split

theorem State.failSet_keeps {s : State} {reason : Nat} (hs : Keeps que s) : Keeps que (State.failSet s reason) := by
  unfold State.failSet
  dsimp only
  repeat' first
    | with_reducible assumption
    | with_reducible apply State.post_keeps
    | with_reducible apply State.releaseGuard_keeps
    | (simp only [keeps_mk]; with_reducible refine Keeps.parts ?_)
    | with_reducible refine keeps_ite ?_ ?_

theorem State.lateWrite_keeps {s : State} {tag : Nat} {a : Nat} (hs : Keeps que s) : Keeps que (State.lateWrite s tag a) := by
  unfold State.lateWrite
  repeat' first
    | with_reducible assumption
    | with_reducible apply State.failSet_keeps
    | with_reducible refine keeps_ite ?_ ?_

theorem State.countHold_keeps {s : State} (hs : Keeps que s) : Keeps que (State.countHold s) := by
  unfold State.countHold
  dsimp only
  repeat' first
    | with_reducible assumption
    | (simp only [keeps_mk]; with_reducible refine Keeps.parts ?_)

theorem State.postDivergence_keeps {s : State} {r : List Byte} {peerChk : Nat} {halted : Bool} {lost : Bool}
    (hs : Keeps que s) : Keeps que (State.postDivergence s r peerChk halted lost) := by
  unfold State.postDivergence
  repeat' first
    | with_reducible assumption
    | with_reducible apply State.post_keeps

theorem State.sendHalt_keeps {s : State} (hs : Keeps que s) : Keeps que (State.sendHalt s) := by
  unfold State.sendHalt
  repeat' first
    | with_reducible assumption
    | with_reducible apply State.toPartner_keeps

theorem State.twinMismatch_keeps {s : State} {own : TwinRec} {peerChk : Word}
    (hs : Keeps que s) : Keeps que (State.twinMismatch s own peerChk) := by
  unfold State.twinMismatch
  dsimp only
  repeat' first
    | with_reducible assumption
    | with_reducible apply State.pauseAll_keeps
    | with_reducible apply State.postDivergence_keeps
    | with_reducible apply State.sendHalt_keeps
    | (simp only [keeps_mk]; with_reducible refine Keeps.parts ?_)
    | with_reducible refine keeps_ite ?_ ?_

theorem State.compareTwin_keeps {s : State} {mine : Bool} {r : TwinRec} {resubmitted : Bool} (hs : Keeps que s) :
    Keeps que (s.compareTwin mine r resubmitted) := by
  have hf (f : TwinRec → Bool) := Nat.le_trans (List.length_filter_le f s.rep.own) hs.bounded.twin
  unfold State.compareTwin
  dsimp only
  split
  · exact keeps_ite hs (keeps_ite (State.twinMismatch_keeps hs) (State.twinMismatch_keeps hs))
  · split
    · split
      · exact keeps_mk.2 (hs.partsTwin (hf _))
      · exact State.twinMismatch_keeps (keeps_mk.2 (hs.partsTwin (hf _)))
    · split
      · exact keeps_mk.2 (hs.partsTwin (List.length_take_le _ _))
      · exact keeps_mk.2 hs.parts

theorem State.noteTwin_keeps {s : State} {r : TwinRec} {resubmitted : Bool}
    (hs : Keeps que s) : Keeps que (State.noteTwin s r resubmitted) := by
  unfold State.noteTwin
  repeat' first
    | with_reducible assumption
    | with_reducible apply State.toPartner_keeps
    | with_reducible apply State.compareTwin_keeps
    | with_reducible refine keeps_ite ?_ ?_

theorem State.provenance_keeps {s : State} {t : Task} (hs : Keeps que s) : Keeps que (State.provenance s t) := by
  unfold State.provenance
  dsimp only
  repeat' first
    | with_reducible assumption
    | with_reducible apply State.post_keeps
    | with_reducible apply State.writeBuf_keeps
    | (simp only [keeps_mk]; with_reducible refine Keeps.parts ?_)
    | with_reducible refine keeps_ite ?_ ?_
    | split

theorem State.postFault_keeps {s : State} {p : Fin 20} {k : ErrClass} {action : Nat}
    (hs : Keeps que s) : Keeps que (State.postFault s p k action) := by
  unfold State.postFault
  repeat' first
    | with_reducible assumption
    | with_reducible apply State.post_keeps

theorem State.chargeFault_keeps {s : State} {p : Fin 20} {code : Nat} (hs : Keeps que s) : Keeps que (State.chargeFault s p code) := by
  unfold State.chargeFault
  try dsimp only
  repeat' first
    | with_reducible assumption
    | with_reducible apply State.charge_keeps
    | (simp only [keeps_mk]; with_reducible refine Keeps.parts ?_)
    | with_reducible refine keeps_ite ?_ ?_
    | split

theorem State.rollbackFault_keeps {s : State} {p : Fin 20} (hs : Keeps que s) : Keeps que (State.rollbackFault s p) := by
  unfold State.rollbackFault
  repeat' first
    | with_reducible assumption
    | with_reducible apply State.post_keeps
    | with_reducible apply State.pauseAll_keeps

theorem State.writeFw_keeps {s : State} {off : Nat} {bs : List Byte} (hs : Keeps que s) : Keeps que (State.writeFw s off bs) := by
  unfold State.writeFw
  try dsimp only
  repeat' first
    | with_reducible assumption
    | with_reducible apply State.writeMem_keeps
    | with_reducible refine MemSys.Sound.same (Keeps.sound (q := que) ?_) rfl rfl rfl rfl rfl rfl
    | (simp only [keeps_mk]; with_reducible refine Keeps.parts ?_)

theorem State.writeTrace_keeps {s : State} {p : Fin 20} (hs : Keeps que s) : Keeps que (State.writeTrace s p) := by
  unfold State.writeTrace
  try dsimp only
  repeat' first
    | with_reducible assumption
    | with_reducible apply State.writeFw_keeps
    | (simp only [keeps_mk]; with_reducible refine Keeps.parts ?_)
    | with_reducible refine keeps_ite ?_ ?_
    | split
    | intro _

theorem State.writeCapture_keeps {s : State} {off : Nat} {bs : List Byte} (hs : Keeps que s) : Keeps que (s.writeCapture off bs) := by
  unfold State.writeCapture
  exact keeps_ite (State.writeMem_keeps (State.tlbRange_keeps hs)) (State.writeBuf_keeps hs)

theorem State.captureBlock_keeps {s : State} {key : TwinRec} {received : Bool} {header payload : List Byte} (hs : Keeps que s) :
    Keeps que (s.captureBlock key received header payload) := by
  unfold State.captureBlock
  exact keeps_ite hs (keeps_ite (State.post_keeps (State.pauseAll_keeps hs)) (keeps_mk.2 (State.writeCapture_keeps hs).parts))

theorem State.readCapture_keeps {s : State} {off : Nat} {n : Nat} (hs : Keeps que s) : Keeps que (State.readCapture s off n).1 := by
  unfold State.readCapture
  try dsimp only
  repeat' first
    | with_reducible assumption
    | with_reducible apply State.readMem_keeps
    | with_reducible apply State.tlbRange_keeps
    | (simp only [keeps_mk]; with_reducible refine Keeps.parts ?_)
    | with_reducible refine keeps_ite ?_ ?_
    | split

theorem State.captured_keeps {s : State} {step : Nat} (hs : Keeps que s) : Keeps que (s.captured step).1 :=
  keeps_foldlP _ hs fun _ _ h => State.readCapture_keeps h

end Sys2Proof.Machine
end

