-- ==== Sys2Proof/Laws/KeepsRoute.lean ====
section
/-! SUPPORT. What `Machine/Route.lean` changes keeps the state sound and its queue as it is. -/

namespace Sys2Proof.Machine

variable {que : List Instr}

theorem Fabric.setLink_seen (f : Fabric) (addr port : Nat) (st : LinkState) : (f.setLink addr port st).seen = f.seen := rfl

theorem keepsO_map {α : Type} {o : Option α} {f : α → State} (h : ∀ a, Keeps que (f a)) : KeepsO que (o.map f) := by
  intro t e
  obtain ⟨a, -, rfl⟩ := Option.map_eq_some_iff.1 e
  exact h a

theorem State.sendBlock_keeps {s : State} {dst opId index node : Nat} {v3 : Bool} {b : Block} (hs : Keeps que s) :
    KeepsO que (s.sendBlock dst opId index node v3 b) := keepsO_map fun _ => State.sendPackets_keeps hs

theorem State.sendOpen_keeps {s : State} {dst opId : Nat} {v3 : Bool} {params : List Byte} (hs : Keeps que s) :
    KeepsO que (s.sendOpen dst opId v3 params) := keepsO_map fun _ => State.sendPackets_keeps hs

theorem State.sendAck_keeps {s : State} {dst : Nat} {opId : Nat} {index : Nat} {outcome : Nat} {expected : Word} {computed : Word}
    (hs : Keeps que s) : Keeps que (State.sendAck s dst opId index outcome expected computed) := by
  unfold State.sendAck
  repeat' first
    | with_reducible assumption
    | with_reducible apply State.sendData_keeps
    | split

end Sys2Proof.Machine
end

