-- ==== Sys2Proof/Laws/KeepsStreams.lean ====
section
/-! SUPPORT. What `Machine/Streams.lean` changes keeps the state sound and its queue as it is. -/

namespace Sys2Proof.Machine

variable {que : List Instr}

/-! ### Runs over a task -/

theorem keeps_foldlR {α : Type} {r : TaskRun} {f : TaskRun → α → TaskRun} (l : List α) (h : Keeps que r.s)
    (hf : ∀ r a, Keeps que r.s → Keeps que (f r a).s) : Keeps que (l.foldl f r).s := by
  induction l generalizing r with
  | nil => exact h
  | cons a l ih => exact ih (hf r a h)

/-- A run that is a component of a pair. -/
theorem keeps_run {α : Type} {x : TaskRun × α} {r : TaskRun} {a : α} (e : x = (r, a)) (h : Keeps que x.1.s) : Keeps que r.s := by
  subst e; exact h

theorem keeps_runS {α : Type} {x : α × TaskRun} {r : TaskRun} {a : α} (e : x = (a, r)) (h : Keeps que x.2.s) : Keeps que r.s := by
  subst e; exact h

theorem keeps_iteR {c : Prop} [Decidable c] {r t : TaskRun} (h : Keeps que r.s) (h' : Keeps que t.s) :
    Keeps que (if c then r else t).s := by
  split
  · exact h
  · exact h'

/-- Every run that an option may hold keeps. -/
def KeepsOR (que : List Instr) (o : Option TaskRun) : Prop := ∀ r, o = some r → Keeps que r.s

theorem keepsOR_get {o : Option TaskRun} {r : TaskRun} (e : o = some r) (h : KeepsOR que o) : Keeps que r.s := h r e

theorem keepsOR_some {r : TaskRun} (h : Keeps que r.s) : KeepsOR que (some r) := fun _ e => Option.some.inj e ▸ h

theorem keepsOR_none : KeepsOR que none := fun _ e => nomatch e

theorem TaskRun.done_keeps {r : TaskRun} (hr : Keeps que r.s) : Keeps que (TaskRun.done r) := by
  unfold TaskRun.done
  repeat' first
    | with_reducible assumption
    | with_reducible apply State.modCore_keeps
    | exact fun _ h => Core.putTask_sound h

theorem TaskRun.modStage_keeps {r : TaskRun} {i : Nat} {f : Stage → Stage}
    (hr : Keeps que r.s) : Keeps que (TaskRun.modStage r i f).s := by
  unfold TaskRun.modStage
  dsimp only
  repeat' first
    | with_reducible assumption

theorem TaskRun.fail_keeps {r : TaskRun} {stage : Nat} {desc : Nat} {blockId : Nat} {cause : Nat} {addr : Nat}
    {expected : Word} {computed : Word}
    (hr : Keeps que r.s) : Keeps que (TaskRun.fail r stage desc blockId cause addr expected computed).s := by
  unfold TaskRun.fail
  dsimp only
  repeat' first
    | with_reducible assumption
    | with_reducible apply State.countRead_keeps
    | with_reducible refine keeps_ite ?_ ?_
    | with_reducible refine keeps_iteR ?_ ?_

theorem TaskRun.push_keeps {r : TaskRun} {i : Nat} {b : Block} (hr : Keeps que r.s) : Keeps que (TaskRun.push r i b).s := by
  unfold TaskRun.push
  dsimp only
  repeat' first
    | with_reducible assumption
    | with_reducible apply TaskRun.modStage_keeps
    | with_reducible refine keeps_iteR ?_ ?_

theorem TaskRun.endStage_keeps {r : TaskRun} {i : Nat} (hr : Keeps que r.s) : Keeps que (TaskRun.endStage r i).s := by
  unfold TaskRun.endStage
  repeat' first
    | with_reducible assumption
    | with_reducible apply TaskRun.modStage_keeps
    | with_reducible refine keeps_iteR ?_ ?_

theorem TaskRun.touch_keeps {r : TaskRun} {a : Nat} {n : Nat} {write : Bool}
    (hr : Keeps que r.s) : Keeps que (TaskRun.touch r a n write).s := by
  unfold TaskRun.touch
  try dsimp only
  repeat' first
    | with_reducible assumption
    | with_reducible apply State.noteAccesses_keeps
    | with_reducible apply State.correct_keeps
    | with_reducible apply State.blur_keeps
    | (simp only [keeps_mk]; with_reducible refine Keeps.parts ?_)
    | with_reducible refine keeps_ite ?_ ?_
    | with_reducible refine keeps_iteR ?_ ?_
    | split

theorem TaskRun.wrote_keeps {r : TaskRun} {a : Nat} {n : Nat} (hr : Keeps que r.s) : Keeps que (TaskRun.wrote r a n).s := by
  unfold TaskRun.wrote
  try dsimp only
  repeat' first
    | with_reducible assumption
    | with_reducible apply State.blur_keeps
    | (simp only [keeps_mk]; with_reducible refine Keeps.parts ?_)

theorem TaskRun.get_keeps {r : TaskRun} {rid : Nat} {off : Int} {n : Nat} {done : Bool}
    (hr : Keeps que r.s) : Keeps que (TaskRun.get r rid off n done).1.s := by
  unfold TaskRun.get
  try dsimp only
  repeat' first
    | with_reducible assumption
    | with_reducible apply State.regionGet_keeps
    | with_reducible apply TaskRun.done_keeps
    | with_reducible apply TaskRun.touch_keeps
    | (simp only [keeps_mk]; with_reducible refine Keeps.parts ?_)
    | with_reducible refine keeps_ite ?_ ?_
    | with_reducible refine keeps_iteR ?_ ?_
    | split
    | with_reducible refine keeps_get (by assumption) ?_
    | with_reducible refine keepsOR_get (by assumption) ?_
    | with_reducible refine keeps_snd (by assumption) ?_
    | with_reducible refine keeps_fst (by assumption) ?_

theorem TaskRun.put_keeps {r : TaskRun} {rid : Nat} {off : Int} {bs : List Byte} {done : Bool}
    (hr : Keeps que r.s) : Keeps que (TaskRun.put r rid off bs done).1.s := by
  unfold TaskRun.put
  try dsimp only
  repeat' first
    | with_reducible assumption
    | with_reducible apply State.regionWrite_keeps
    | with_reducible apply State.regionPut_keeps
    | with_reducible apply TaskRun.done_keeps
    | with_reducible apply TaskRun.touch_keeps
    | with_reducible apply TaskRun.wrote_keeps
    | (simp only [keeps_mk]; with_reducible refine Keeps.parts ?_)
    | with_reducible refine keeps_ite ?_ ?_
    | with_reducible refine keeps_iteR ?_ ?_
    | split
    | with_reducible refine keeps_get (by assumption) ?_
    | with_reducible refine keepsOR_get (by assumption) ?_
    | with_reducible refine keeps_snd (by assumption) ?_
    | with_reducible refine keeps_fst (by assumption) ?_

theorem TaskRun.send_keeps {r : TaskRun} {i : Nat} {q : Req} {runs : List (Nat × Nat)}
    (hr : Keeps que r.s) : Keeps que (TaskRun.send r i q runs).s := by
  unfold TaskRun.send
  try dsimp only
  repeat' first
    | with_reducible assumption
    | with_reducible apply State.tlbLook_keeps
    | with_reducible apply State.queueFault_keeps
    | with_reducible apply State.countHold_keeps
    | with_reducible apply TaskRun.modStage_keeps
    | with_reducible refine MemSys.Sound.same (Keeps.sound (q := que) ?_) rfl rfl rfl rfl rfl rfl
    | (simp only [keeps_mk]; with_reducible refine Keeps.parts ?_)
    | with_reducible refine keeps_ite ?_ ?_
    | with_reducible refine keeps_iteR ?_ ?_
    | split
    | intro _
    | with_reducible refine keeps_get (by assumption) ?_
    | with_reducible refine keepsOR_get (by assumption) ?_
    | with_reducible refine keeps_snd (by assumption) ?_
    | with_reducible refine keeps_fst (by assumption) ?_

theorem State.writeRecord_keeps {s : State} {p : Fin 20} {t : Task} {status : Nat}
    (hs : Keeps que s) : Keeps que (State.writeRecord s p t status) := by
  unfold State.writeRecord
  try dsimp only
  repeat' first
    | with_reducible assumption
    | with_reducible apply State.modV_keeps
    | exact fun _ h => VCore.writeTile_sound h
    | with_reducible apply TaskRun.touch_keeps
    | with_reducible apply TaskRun.wrote_keeps
    | (simp only [keeps_mk]; with_reducible refine Keeps.parts ?_)

theorem TaskRun.ask_keeps {r : TaskRun} {i : Nat} {phase : Nat} {xs : List Xfer}
    (hr : Keeps que r.s) : Keeps que (TaskRun.ask r i phase xs).s := by
  unfold TaskRun.ask
  try dsimp only
  repeat' first
    | with_reducible assumption
    | with_reducible apply TaskRun.modStage_keeps
    | (simp only [keeps_mk]; with_reducible refine Keeps.parts ?_)
    | intro _

theorem TaskRun.issueXfer_keeps {r : TaskRun} {i : Nat} (hr : Keeps que r.s) : Keeps que (TaskRun.issueXfer r i).s := by
  unfold TaskRun.issueXfer
  try dsimp only
  repeat' first
    | with_reducible assumption
    | with_reducible apply State.modCore_keeps
    | with_reducible exact fun _ h => h
    | with_reducible apply TaskRun.done_keeps
    | with_reducible apply TaskRun.modStage_keeps
    | with_reducible apply TaskRun.fail_keeps
    | with_reducible apply TaskRun.put_keeps
    | with_reducible apply TaskRun.send_keeps
    | (simp only [keeps_mk]; with_reducible refine Keeps.parts ?_)
    | with_reducible refine keeps_ite ?_ ?_
    | with_reducible refine keeps_iteR ?_ ?_
    | split
    | with_reducible refine keeps_get (by assumption) ?_
    | with_reducible refine keepsOR_get (by assumption) ?_
    | with_reducible refine keeps_snd (by assumption) ?_
    | with_reducible refine keeps_fst (by assumption) ?_

theorem TaskRun.flags_keeps {r : TaskRun} {f : ArithFlags} (hr : Keeps que r.s) : Keeps que (TaskRun.flags r f).s := by
  unfold TaskRun.flags
  dsimp only
  repeat' first
    | with_reducible assumption
    | with_reducible apply State.modV_keeps
    | exact fun _ h => VCore.addFlags_sound h

theorem TaskRun.expandOne_keeps {r : TaskRun} {i : Nat} {b : Block}
    (hr : Keeps que r.s) : Keeps que (TaskRun.expandOne r i b).s := by
  unfold TaskRun.expandOne
  try dsimp only
  repeat' first
    | with_reducible assumption
    | with_reducible apply TaskRun.modStage_keeps
    | with_reducible apply TaskRun.fail_keeps
    | with_reducible apply TaskRun.push_keeps
    | with_reducible apply TaskRun.flags_keeps
    | with_reducible apply TaskRun.ask_keeps
    | (simp only [keeps_mk]; with_reducible refine Keeps.parts ?_)
    | with_reducible refine keeps_ite ?_ ?_
    | with_reducible refine keeps_iteR ?_ ?_
    | split
    | intro _

theorem TaskRun.getTile_keeps {r : TaskRun} {a : Nat} {n : Nat} (hr : Keeps que r.s) : Keeps que (TaskRun.getTile r a n).1.s := by
  unfold TaskRun.getTile
  try dsimp only
  repeat' first
    | with_reducible assumption
    | with_reducible apply State.chargeTile_keeps
    | with_reducible apply TaskRun.touch_keeps
    | (simp only [keeps_mk]; with_reducible refine Keeps.parts ?_)
    | split
    | intro _
    | with_reducible refine keeps_get (by assumption) ?_
    | with_reducible refine keepsOR_get (by assumption) ?_
    | with_reducible refine keeps_snd (by assumption) ?_
    | with_reducible refine keeps_fst (by assumption) ?_

theorem TaskRun.getVec_keeps {r : TaskRun} {on : Bool} {a : Nat} (hr : Keeps que r.s) : Keeps que (TaskRun.getVec r on a).1.s := by
  unfold TaskRun.getVec
  try dsimp only
  repeat' first
    | with_reducible assumption
    | with_reducible apply TaskRun.getTile_keeps
    | (simp only [keeps_mk]; with_reducible refine Keeps.parts ?_)
    | with_reducible refine keeps_ite ?_ ?_
    | with_reducible refine keeps_iteR ?_ ?_
    | split

theorem TaskRun.epilogueOne_keeps {r : TaskRun} {i : Nat} {b : Block} (hr : Keeps que r.s) : Keeps que (TaskRun.epilogueOne r i b).s := by
  unfold TaskRun.epilogueOne
  try dsimp only
  repeat' first
    | with_reducible assumption
    | with_reducible apply TaskRun.modStage_keeps
    | with_reducible apply TaskRun.fail_keeps
    | with_reducible apply TaskRun.push_keeps
    | with_reducible apply TaskRun.flags_keeps
    | with_reducible apply TaskRun.getVec_keeps
    | (simp only [keeps_mk]; with_reducible refine Keeps.parts ?_)
    | with_reducible refine keeps_ite ?_ ?_
    | with_reducible refine keeps_iteR ?_ ?_
    | split
    | intro _
    | with_reducible refine keeps_get (by assumption) ?_
    | with_reducible refine keepsOR_get (by assumption) ?_
    | with_reducible refine keeps_snd (by assumption) ?_
    | with_reducible refine keeps_fst (by assumption) ?_
    | with_reducible refine keeps_run (by assumption) ?_
    | with_reducible refine keeps_runS (by assumption) ?_

theorem TaskRun.feedOne_keeps {r : TaskRun} {i : Nat} {b : Block} (hr : Keeps que r.s) : Keeps que (TaskRun.feedOne r i b).s := by
  unfold TaskRun.feedOne
  try dsimp only
  repeat' first
    | with_reducible assumption
    | with_reducible apply State.modV_keeps
    | with_reducible apply VCore.writeTile_sound
    | with_reducible apply State.chargeTile_keeps
    | with_reducible apply TaskRun.modStage_keeps
    | with_reducible apply TaskRun.fail_keeps
    | with_reducible apply TaskRun.push_keeps
    | with_reducible apply TaskRun.touch_keeps
    | (simp only [keeps_mk]; with_reducible refine Keeps.parts ?_)
    | with_reducible refine keeps_ite ?_ ?_
    | with_reducible refine keeps_iteR ?_ ?_
    | split
    | intro _
    | with_reducible refine keeps_get (by assumption) ?_
    | with_reducible refine keepsOR_get (by assumption) ?_
    | with_reducible refine keeps_snd (by assumption) ?_
    | with_reducible refine keeps_fst (by assumption) ?_

theorem State.modTx_keeps {s : State} {opId : Nat} {f : TxOp → TxOp} (hs : Keeps que s) : Keeps que (State.modTx s opId f) := by
  unfold State.modTx
  dsimp only
  repeat' first
    | with_reducible assumption
    | (simp only [keeps_mk]; with_reducible refine Keeps.parts ?_)

theorem TaskRun.txSend_keeps {r : TaskRun} {opId : Nat} {dest : Nat} {index : Nat} {node : Nat} {v3 : Bool} {b : Block}
    (hr : Keeps que r.s) : Keeps que (TaskRun.txSend r opId dest index node v3 b).1.s := by
  unfold TaskRun.txSend
  try dsimp only
  repeat' first
    | with_reducible assumption
    | with_reducible apply State.sendBlock_keeps
    | with_reducible apply State.modTx_keeps
    | (simp only [keeps_mk]; with_reducible refine Keeps.parts ?_)
    | split
    | intro _
    | with_reducible refine keeps_get (by assumption) ?_
    | with_reducible refine keepsOR_get (by assumption) ?_
    | with_reducible refine keeps_snd (by assumption) ?_
    | with_reducible refine keeps_fst (by assumption) ?_

theorem TaskRun.newTx_keeps {r : TaskRun} {stage dest : Nat} {params : List Byte} {opened : Bool} {target : BlockTarget} {node : Nat}
    (hr : Keeps que r.s) : Keeps que (r.newTx stage dest params opened target node).2.s := keeps_mk.2 hr.parts

theorem TaskRun.sendStart_keeps {r : TaskRun} {i : Nat} (hr : Keeps que r.s) : Keeps que (TaskRun.sendStart r i).s := by
  unfold TaskRun.sendStart
  try dsimp only
  repeat' first
    | with_reducible assumption
    | with_reducible apply TaskRun.newTx_keeps
    | with_reducible apply State.sendOpen_keeps
    | with_reducible apply TaskRun.fail_keeps
    | with_reducible apply TaskRun.send_keeps
    | (simp only [keeps_mk]; with_reducible refine Keeps.parts ?_)
    | with_reducible refine keeps_ite ?_ ?_
    | with_reducible refine keeps_iteR ?_ ?_
    | split
    | with_reducible refine keeps_get (by assumption) ?_
    | with_reducible refine keepsOR_get (by assumption) ?_
    | with_reducible refine keeps_snd (by assumption) ?_
    | with_reducible refine keeps_fst (by assumption) ?_
    | with_reducible refine keeps_run (by assumption) ?_
    | with_reducible refine keeps_runS (by assumption) ?_

theorem TaskRun.sendOne_keeps {r : TaskRun} {i : Nat} {b : Block} (hr : Keeps que r.s) : Keeps que (TaskRun.sendOne r i b).s := by
  unfold TaskRun.sendOne
  try dsimp only
  repeat' first
    | with_reducible assumption
    | with_reducible apply TaskRun.modStage_keeps
    | with_reducible apply TaskRun.fail_keeps
    | with_reducible apply TaskRun.push_keeps
    | with_reducible apply State.txSend_keeps
    | with_reducible apply TaskRun.txSend_keeps
    | (simp only [keeps_mk]; with_reducible refine Keeps.parts ?_)
    | with_reducible refine keeps_ite ?_ ?_
    | with_reducible refine keeps_iteR ?_ ?_
    | split
    | intro _
    | with_reducible refine keeps_get (by assumption) ?_
    | with_reducible refine keepsOR_get (by assumption) ?_
    | with_reducible refine keeps_snd (by assumption) ?_
    | with_reducible refine keeps_fst (by assumption) ?_

theorem TaskRun.writeAll_keeps {r : TaskRun} {i : Nat} {done : Bool} {ws : List Put} (hr : Keeps que r.s) :
    Keeps que (r.writeAll i done ws).s := by
  induction ws generalizing r with
  | nil => exact hr
  | cons w ws ih =>
    unfold TaskRun.writeAll
    split
    · rename_i heq
      have hs := keeps_run heq (TaskRun.put_keeps hr)
      exact ih (keeps_ite hs (State.lateWrite_keeps hs))
    · rename_i heq
      exact TaskRun.fail_keeps (keeps_run heq (TaskRun.put_keeps hr))
    · rename_i heq
      exact TaskRun.fail_keeps (keeps_run heq (TaskRun.put_keeps hr))

theorem TaskRun.dispatchHead_keeps {r : TaskRun} {i : Nat} (hr : Keeps que r.s) : Keeps que (TaskRun.dispatchHead r i).s := by
  unfold TaskRun.dispatchHead
  try dsimp only
  repeat' first
    | with_reducible assumption
    | with_reducible apply TaskRun.modStage_keeps
    | with_reducible apply TaskRun.fail_keeps
    | with_reducible apply TaskRun.getTile_keeps
    | (simp only [keeps_mk]; with_reducible refine Keeps.parts ?_)
    | with_reducible refine keeps_ite ?_ ?_
    | with_reducible refine keeps_iteR ?_ ?_
    | split
    | intro _
    | with_reducible refine keeps_get (by assumption) ?_
    | with_reducible refine keepsOR_get (by assumption) ?_
    | with_reducible refine keeps_snd (by assumption) ?_
    | with_reducible refine keeps_fst (by assumption) ?_
    | with_reducible refine keeps_run (by assumption) ?_
    | with_reducible refine keeps_runS (by assumption) ?_

theorem TaskRun.dispatchStep_keeps {r : TaskRun} {i : Nat} (hr : Keeps que r.s) : Keeps que (TaskRun.dispatchStep r i).s := by
  unfold TaskRun.dispatchStep
  try dsimp only
  repeat' first
    | with_reducible assumption
    | with_reducible apply TaskRun.modStage_keeps
    | with_reducible apply TaskRun.fail_keeps
    | with_reducible apply TaskRun.ask_keeps
    | with_reducible apply TaskRun.dispatchHead_keeps
    | (simp only [keeps_mk]; with_reducible refine Keeps.parts ?_)
    | with_reducible refine keeps_ite ?_ ?_
    | with_reducible refine keeps_iteR ?_ ?_
    | split
    | intro _
    | with_reducible refine keeps_get (by assumption) ?_
    | with_reducible refine keepsOR_get (by assumption) ?_
    | with_reducible refine keeps_snd (by assumption) ?_
    | with_reducible refine keeps_fst (by assumption) ?_

theorem TaskRun.collRecord_keeps {r : TaskRun} {i : Nat} (hr : Keeps que r.s) : Keeps que (TaskRun.collRecord r i).s := by
  unfold TaskRun.collRecord
  try dsimp only
  repeat' first
    | with_reducible assumption
    | with_reducible apply TaskRun.modStage_keeps
    | with_reducible apply TaskRun.fail_keeps
    | with_reducible apply TaskRun.ask_keeps
    | (simp only [keeps_mk]; with_reducible refine Keeps.parts ?_)
    | with_reducible refine keeps_ite ?_ ?_
    | with_reducible refine keeps_iteR ?_ ?_
    | split
    | intro _
    | with_reducible refine keeps_get (by assumption) ?_
    | with_reducible refine keepsOR_get (by assumption) ?_
    | with_reducible refine keeps_snd (by assumption) ?_
    | with_reducible refine keeps_fst (by assumption) ?_

theorem State.modColl_keeps {s : State} {group : Nat} {step : Nat} {cid : Nat} {f : Coll → Coll}
    (hs : Keeps que s) : Keeps que (State.modColl s group step cid f) := by
  unfold State.modColl
  dsimp only
  repeat' first
    | with_reducible assumption
    | (simp only [keeps_mk]; with_reducible refine Keeps.parts ?_)

theorem State.dropColl_keeps {s : State} {group : Nat} {step : Nat} {cid : Nat}
    (hs : Keeps que s) : Keeps que (State.dropColl s group step cid) := by
  unfold State.dropColl
  dsimp only
  repeat' first
    | with_reducible assumption
    | (simp only [keeps_mk]; with_reducible refine Keeps.parts ?_)

theorem TaskRun.collOpens_keeps {r : TaskRun} {i : Nat} {c : CollParams} {g : List Nat} {pos : Nat}
    (hr : Keeps que r.s) : Keeps que (TaskRun.collOpens r i c g pos).s := by
  unfold TaskRun.collOpens
  try dsimp only
  repeat' first
    | with_reducible assumption
    | with_reducible apply TaskRun.newTx_keeps
    | with_reducible apply State.sendOpen_keeps
    | with_reducible apply TaskRun.fail_keeps
    | (simp only [keeps_mk]; with_reducible refine Keeps.parts ?_)
    | with_reducible refine keeps_ite ?_ ?_
    | with_reducible refine keeps_iteR ?_ ?_
    | with_reducible refine keeps_foldl _ ?_ ?_
    | with_reducible refine keeps_foldlR _ ?_ ?_
    | split
    | intro _
    | with_reducible refine keeps_get (by assumption) ?_
    | with_reducible refine keepsOR_get (by assumption) ?_
    | with_reducible refine keeps_snd (by assumption) ?_
    | with_reducible refine keeps_fst (by assumption) ?_
    | with_reducible refine keeps_run (by assumption) ?_
    | with_reducible refine keeps_runS (by assumption) ?_

theorem TaskRun.collStart_keeps {r : TaskRun} {i : Nat} (hr : Keeps que r.s) : Keeps que (TaskRun.collStart r i).s := by
  unfold TaskRun.collStart
  dsimp only
  repeat' first
    | with_reducible assumption
    | with_reducible apply TaskRun.fail_keeps
    | with_reducible apply State.modColl_keeps
    | with_reducible apply TaskRun.collOpens_keeps
    | (simp only [keeps_mk]; with_reducible refine Keeps.parts ?_)
    | with_reducible refine keeps_iteR ?_ ?_
    | split

theorem TaskRun.replayCheck_keeps {r : TaskRun} {key : TwinRec}
    (hr : Keeps que r.s) : Keeps que (TaskRun.replayCheck r key).s := by
  unfold TaskRun.replayCheck
  try dsimp only
  repeat' first
    | with_reducible assumption
    | with_reducible apply State.postDivergence_keeps
    | with_reducible apply State.captured_keeps
    | (simp only [keeps_mk]; with_reducible refine Keeps.parts ?_)
    | with_reducible refine keeps_ite ?_ ?_
    | with_reducible refine keeps_iteR ?_ ?_
    | split
    | intro _
    | with_reducible refine keeps_get (by assumption) ?_
    | with_reducible refine keepsOR_get (by assumption) ?_
    | with_reducible refine keeps_snd (by assumption) ?_
    | with_reducible refine keeps_fst (by assumption) ?_

theorem TaskRun.collOne_keeps {r : TaskRun} {i : Nat} {b : Block} (hr : Keeps que r.s) : Keeps que (TaskRun.collOne r i b).s := by
  unfold TaskRun.collOne
  try dsimp only
  repeat' first
    | with_reducible assumption
    | with_reducible apply State.captureBlock_keeps
    | with_reducible apply TaskRun.modStage_keeps
    | with_reducible apply TaskRun.fail_keeps
    | with_reducible apply State.txSend_keeps
    | with_reducible apply State.modColl_keeps
    | with_reducible apply TaskRun.replayCheck_keeps
    | with_reducible apply TaskRun.txSend_keeps
    | (simp only [keeps_mk]; with_reducible refine Keeps.parts ?_)
    | with_reducible refine keeps_ite ?_ ?_
    | with_reducible refine keeps_iteR ?_ ?_
    | with_reducible refine keeps_foldl _ ?_ ?_
    | with_reducible refine keeps_foldlR _ ?_ ?_
    | split
    | intro _
    | with_reducible refine keeps_get (by assumption) ?_
    | with_reducible refine keepsOR_get (by assumption) ?_
    | with_reducible refine keeps_snd (by assumption) ?_
    | with_reducible refine keeps_fst (by assumption) ?_

theorem TaskRun.collEnd_keeps {r : TaskRun} {i : Nat} (hr : Keeps que r.s) : Keeps que (TaskRun.collEnd r i).s := by
  unfold TaskRun.collEnd
  dsimp only
  repeat' first
    | with_reducible assumption
    | with_reducible apply TaskRun.fail_keeps
    | with_reducible apply State.modColl_keeps
    | with_reducible refine keeps_iteR ?_ ?_

theorem TaskRun.drain_keeps {one : TaskRun → Nat → Block → TaskRun} {i n : Nat} {r : TaskRun} (hr : Keeps que r.s)
    (h : ∀ r i b, Keeps que r.s → Keeps que (one r i b).s) : Keeps que (TaskRun.drain one i n r).s := by
  induction n generalizing r with
  | zero => exact hr
  | succ n ih =>
    unfold TaskRun.drain
    split
    · exact hr
    · split
      · exact hr
      · rename_i b _ _
        have := h r i b hr
        dsimp only
        split
        · exact TaskRun.fail_keeps hr
        · split
          · exact ih this
          · exact this

theorem TaskRun.collOutput_keeps {r : TaskRun} {i : Nat} (hr : Keeps que r.s) : Keeps que (TaskRun.collOutput r i).s := by
  unfold TaskRun.collOutput
  try dsimp only
  repeat' first
    | with_reducible assumption
    | with_reducible apply TaskRun.done_keeps
    | with_reducible apply TaskRun.modStage_keeps
    | with_reducible apply TaskRun.endStage_keeps
    | (simp only [keeps_mk]; with_reducible refine Keeps.parts ?_)
    | with_reducible refine keeps_ite ?_ ?_
    | with_reducible refine keeps_iteR ?_ ?_
    | split
    | intro _

theorem TaskRun.work_keeps {r : TaskRun} {i : Nat} (hr : Keeps que r.s) : Keeps que (TaskRun.work r i).s := by
  unfold TaskRun.work
  try dsimp only
  repeat' first
    | with_reducible assumption
    | with_reducible apply TaskRun.fail_keeps
    | with_reducible apply TaskRun.endStage_keeps
    | with_reducible apply TaskRun.expandOne_keeps
    | with_reducible apply TaskRun.epilogueOne_keeps
    | with_reducible apply TaskRun.feedOne_keeps
    | with_reducible apply TaskRun.sendStart_keeps
    | with_reducible apply TaskRun.sendOne_keeps
    | with_reducible apply TaskRun.dispatchStep_keeps
    | with_reducible apply TaskRun.collStart_keeps
    | with_reducible apply TaskRun.collOne_keeps
    | with_reducible apply TaskRun.collEnd_keeps
    | with_reducible apply TaskRun.drain_keeps
    | with_reducible apply TaskRun.send_keeps
    | with_reducible apply TaskRun.collRecord_keeps
    | with_reducible apply TaskRun.collOutput_keeps
    | (simp only [keeps_mk]; with_reducible refine Keeps.parts ?_)
    | with_reducible refine keeps_ite ?_ ?_
    | with_reducible refine keeps_iteR ?_ ?_
    | split
    | with_reducible refine keeps_get (by assumption) ?_
    | with_reducible refine keepsOR_get (by assumption) ?_
    | with_reducible refine keeps_snd (by assumption) ?_
    | with_reducible refine keeps_fst (by assumption) ?_

theorem TaskRun.pump_keeps {n i : Nat} {r : TaskRun} (hr : Keeps que r.s) : Keeps que (TaskRun.pump n i r).s := by
  induction n generalizing i r with
  | zero => exact hr
  | succ n ih =>
    unfold TaskRun.pump
    split
    · exact hr
    · exact ih (TaskRun.work_keeps hr)

theorem TaskRun.chain_keeps {r : TaskRun} {i : Nat} (hr : Keeps que r.s) : Keeps que (TaskRun.chain r i) := by
  unfold TaskRun.chain
  repeat' first
    | with_reducible assumption
    | with_reducible apply TaskRun.done_keeps
    | with_reducible apply TaskRun.pump_keeps

theorem State.launch_keeps {s : State} {p : Fin 20} {t : Task} (hs : Room que p s) : Keeps que (State.launch s p t) := by
  unfold State.launch
  refine TaskRun.chain_keeps (State.setCore_keeps hs.keeps { hs.fits with tasks := ?_ })
  have := hs.fits.tasks
  rw [List.length_append, List.length_singleton]
  omega

theorem State.issueTask_keeps {s : State} {p : Fin 20} {k : Fin 128} {w : IWord} {csum : Bool} {v : VCore} {st : Strand}
    {t : Nat} {live : State → State} (hs : Keeps que s) (hlive : ∀ s, Room que p s → Room que p (live s)) :
    Keeps que (State.issueTask s p k w csum v st t live) := by
  unfold State.issueTask
  dsimp only
  split
  · exact State.modStrand_keeps hs
  · rename_i hfull
    split
    · exact State.fault_keeps hs
    · split
      · exact State.fault_keeps hs
      · refine State.audit_room (State.readNow_closed room_closed (hs.room hfull)) fun s h => ?_
        split
        · exact State.fault_keeps h.keeps
        · have hm : ∀ (f : Strand → Strand) (g : Core → Core), (∀ {top : Nat} (c : Core), c.Fits top → (g c).Fits top) →
              Room que p ((s.modStrand p k f).modCore p g) := fun f g hg =>
            room_closed.core (State.modV_closed room_closed h fun _ hv => VCore.modStrand_sound hv) hg
          refine keeps_ite (State.fault_keeps (State.writeRecord_keeps (Room.keeps (p := p) ?_))) (State.launch_keeps (State.commit_room (hlive _ ?_)))
          · exact hm _ _ fun _ hc => hc
          · exact hm _ _ fun _ hc => hc

theorem execScmd_keeps {core : Fin 20} {strand : Fin 128} {ops : BitVec 118} {s : State}
    (hs : Keeps que s) : KeepsOut que (execScmd core strand ops s) := by
  unfold execScmd
  dsimp only
  repeat' first
    | with_reducible assumption
    | with_reducible apply State.issue_keeps
    | with_reducible apply State.issueTask_keeps
    | intro _

theorem execCsumU_keeps {core : Fin 20} {strand : Fin 128} {ops : BitVec 118} {s : State}
    (hs : Keeps que s) : KeepsOut que (execCsumU core strand ops s) := by
  unfold execCsumU
  dsimp only
  repeat' first
    | with_reducible assumption
    | with_reducible apply State.noteClassV_room
    | with_reducible apply State.issue_keeps
    | with_reducible apply State.issueTask_keeps
    | intro _

end Sys2Proof.Machine
end

