-- ==== Sys2Proof/Laws/KeepsRequests.lean ====
section
/-! SUPPORT. What `Machine/Requests.lean` changes keeps the state sound and its queue as it is. -/

namespace Sys2Proof.Machine

variable {que : List Instr}

theorem TaskRun.fetchRun_keeps {r : TaskRun} {i : Nat} (hr : Keeps que r.s) : Keeps que (TaskRun.fetchRun r i).s := by
  unfold TaskRun.fetchRun
  try dsimp only
  repeat' first
    | with_reducible assumption
    | with_reducible apply State.modCore_keeps
    | with_reducible exact fun _ h => h
    | with_reducible apply TaskRun.modStage_keeps
    | with_reducible apply TaskRun.fail_keeps
    | with_reducible apply TaskRun.get_keeps
    | (simp only [keeps_mk]; with_reducible refine Keeps.parts ?_)
    | with_reducible refine keeps_ite ?_ ?_
    | with_reducible refine keeps_iteR ?_ ?_
    | split
    | with_reducible refine keeps_get (by assumption) ?_
    | with_reducible refine keepsOR_get (by assumption) ?_
    | with_reducible refine keeps_snd (by assumption) ?_
    | with_reducible refine keeps_fst (by assumption) ?_
    | with_reducible refine keeps_run (by assumption) ?_
    | with_reducible refine keeps_runS (by assumption) ?_

theorem execDescriptorRunFetch_keeps {core : Fin 20} {task : Nat} {stage : Fin 6} {s : State}
    (hs : Keeps que s) : KeepsOut que (execDescriptorRunFetch core task stage s) := by
  unfold execDescriptorRunFetch
  repeat' first
    | with_reducible assumption
    | with_reducible apply TaskRun.done_keeps
    | with_reducible apply TaskRun.fetchRun_keeps
    | with_reducible apply keepsOut_next
    | split

theorem TaskRun.request_keeps {r : TaskRun} {i : Nat} {k : Nat} {d : Desc} {write : Bool} {room : Nat}
    (hr : Keeps que r.s) : Keeps que (TaskRun.request r i k d write room).s := by
  unfold TaskRun.request
  try dsimp only
  repeat' first
    | with_reducible assumption
    | with_reducible apply State.modCore_keeps
    | with_reducible exact fun _ h => h
    | with_reducible apply TaskRun.modStage_keeps
    | with_reducible apply TaskRun.send_keeps
    | (simp only [keeps_mk]; with_reducible refine Keeps.parts ?_)
    | with_reducible refine keeps_ite ?_ ?_
    | with_reducible refine keeps_iteR ?_ ?_
    | with_reducible refine keeps_foldl _ ?_ ?_
    | with_reducible refine keeps_foldlR _ ?_ ?_
    | split

theorem TaskRun.issueRead_keeps {r : TaskRun} {i : Nat} (hr : Keeps que r.s) : Keeps que (TaskRun.issueRead r i).s := by
  unfold TaskRun.issueRead
  dsimp only
  repeat' first
    | with_reducible assumption
    | with_reducible apply TaskRun.fail_keeps
    | with_reducible apply TaskRun.request_keeps
    | with_reducible refine keeps_iteR ?_ ?_
    | split

theorem TaskRun.issueWrite_keeps {r : TaskRun} {i : Nat} (hr : Keeps que r.s) : Keeps que (TaskRun.issueWrite r i).s := by
  unfold TaskRun.issueWrite
  dsimp only
  repeat' first
    | with_reducible assumption
    | with_reducible apply TaskRun.fail_keeps
    | with_reducible apply TaskRun.request_keeps
    | with_reducible refine keeps_iteR ?_ ?_
    | split

theorem execStageRequestIssue_keeps {core : Fin 20} {task : Nat} {stage : Fin 6} {s : State}
    (hs : Keeps que s) : KeepsOut que (execStageRequestIssue core task stage s) := by
  unfold execStageRequestIssue
  try dsimp only
  repeat' first
    | with_reducible assumption
    | with_reducible apply State.pump_keeps
    | with_reducible apply TaskRun.done_keeps
    | with_reducible apply TaskRun.issueXfer_keeps
    | with_reducible apply TaskRun.pump_keeps
    | with_reducible apply TaskRun.chain_keeps
    | with_reducible apply TaskRun.issueRead_keeps
    | with_reducible apply TaskRun.issueWrite_keeps
    | (simp only [keeps_mk]; with_reducible refine Keeps.parts ?_)
    | with_reducible apply keepsOut_next
    | with_reducible refine keeps_ite ?_ ?_
    | with_reducible refine keeps_iteR ?_ ?_
    | split
    | with_reducible refine keeps_get (by assumption) ?_
    | with_reducible refine keepsOR_get (by assumption) ?_
    | with_reducible refine keeps_snd (by assumption) ?_
    | with_reducible refine keeps_fst (by assumption) ?_
    | with_reducible refine keeps_run (by assumption) ?_
    | with_reducible refine keeps_runS (by assumption) ?_

theorem TaskRun.spoilAt_keeps {r : TaskRun} {i : Nat} {q : Req} {addr : Nat}
    (hr : Keeps que r.s) : Keeps que (TaskRun.spoilAt r i q addr).s := by
  unfold TaskRun.spoilAt
  dsimp only
  repeat' first
    | with_reducible assumption
    | with_reducible apply State.modV_keeps
    | with_reducible exact fun _ h => h
    | with_reducible apply State.spoil_keeps
    | with_reducible refine keeps_iteR ?_ ?_

theorem TaskRun.readRuns_keeps {r : TaskRun} {i : Nat} {xs : List (Nat × Nat × Int × Nat)} (hr : Keeps que r.s) :
    Keeps que (r.readRuns i xs).1.s := by
  induction xs generalizing r with
  | nil => exact hr
  | cons x xs ih =>
    unfold TaskRun.readRuns
    split
    · rename_i heq
      exact ih (keeps_run heq (TaskRun.get_keeps hr))
    · rename_i heq
      exact TaskRun.fail_keeps (keeps_run heq (TaskRun.get_keeps hr))
    · rename_i heq
      exact keeps_run heq (TaskRun.get_keeps hr)

theorem TaskRun.finishReads_keeps {i n : Nat} {r : TaskRun} (hr : Keeps que r.s) : Keeps que (TaskRun.finishReads i n r).s := by
  induction n generalizing r with
  | zero => exact hr
  | succ n ih =>
    have hu (c : Prop) [Decidable c] (ws : List Put) : Keeps que (if c then r.writeAll i false ws else r).s :=
      keeps_iteR (TaskRun.writeAll_keeps hr) hr
    unfold TaskRun.finishReads
    dsimp only
    split
    · exact hr
    · split
      · exact hr
      · split
        · exact hr
        · split
          · exact TaskRun.fail_keeps hr
          · refine keeps_iteR ?_ ?_
            · exact hu _ _
            · exact ih (keeps_iteR (TaskRun.modStage_keeps (hu _ _)) (TaskRun.push_keeps (TaskRun.modStage_keeps (hu _ _))))

theorem TaskRun.finishWrite_keeps {r : TaskRun} {i : Nat} (hr : Keeps que r.s) : Keeps que (TaskRun.finishWrite r i).s := by
  unfold TaskRun.finishWrite
  try dsimp only
  repeat' first
    | with_reducible assumption
    | with_reducible apply State.noteTwin_keeps
    | with_reducible apply TaskRun.modStage_keeps
    | with_reducible apply TaskRun.push_keeps
    | with_reducible apply TaskRun.writeAll_keeps
    | (simp only [keeps_mk]; with_reducible refine Keeps.parts ?_)
    | with_reducible refine keeps_ite ?_ ?_
    | with_reducible refine keeps_iteR ?_ ?_
    | split
    | intro _
    | with_reducible refine keeps_get (by assumption) ?_
    | with_reducible refine keepsOR_get (by assumption) ?_
    | with_reducible refine keeps_snd (by assumption) ?_
    | with_reducible refine keeps_fst (by assumption) ?_
    | with_reducible refine keeps_run (by assumption) ?_
    | with_reducible refine keeps_runS (by assumption) ?_

theorem TaskRun.meetEcc_keeps {r : TaskRun} {i : Nat} {q : Req} {outcome : ReqOutcome}
    (hr : Keeps que r.s) : Keeps que (TaskRun.meetEcc r i q outcome).s := by
  unfold TaskRun.meetEcc
  try dsimp only
  repeat' first
    | with_reducible assumption
    | with_reducible apply State.modV_keeps
    | with_reducible exact fun _ h => h
    | with_reducible apply State.soften_keeps
    | with_reducible apply TaskRun.spoilAt_keeps
    | (simp only [keeps_mk]; with_reducible refine Keeps.parts ?_)
    | with_reducible refine keeps_ite ?_ ?_
    | with_reducible refine keeps_iteR ?_ ?_
    | with_reducible refine keeps_foldl _ ?_ ?_
    | with_reducible refine keeps_foldlR _ ?_ ?_
    | split
    | with_reducible refine keeps_get (by assumption) ?_
    | with_reducible refine keepsOR_get (by assumption) ?_
    | with_reducible refine keeps_snd (by assumption) ?_
    | with_reducible refine keeps_fst (by assumption) ?_
    | with_reducible refine keeps_run (by assumption) ?_
    | with_reducible refine keeps_runS (by assumption) ?_

theorem TaskRun.rehold_keeps {r : TaskRun} {i : Nat} {q : Req} {cause : Nat} {addr : Nat}
    (hr : Keeps que r.s) : Keeps que (TaskRun.rehold r i q cause addr).s := by
  unfold TaskRun.rehold
  dsimp only
  repeat' first
    | with_reducible assumption
    | with_reducible apply State.queueFault_keeps
    | with_reducible apply State.countHold_keeps
    | with_reducible apply TaskRun.modStage_keeps
    | with_reducible refine keeps_ite ?_ ?_

theorem TaskRun.endXfer_keeps {r : TaskRun} {i : Nat} {q : Req} {x : Xfer}
    (hr : Keeps que r.s) : Keeps que (TaskRun.endXfer r i q x).s := by
  unfold TaskRun.endXfer
  try dsimp only
  repeat' first
    | with_reducible assumption
    | with_reducible apply State.noteTwin_keeps
    | with_reducible apply TaskRun.modStage_keeps
    | with_reducible apply TaskRun.fail_keeps
    | with_reducible apply TaskRun.get_keeps
    | with_reducible apply TaskRun.put_keeps
    | with_reducible apply TaskRun.writeAll_keeps
    | (simp only [keeps_mk]; with_reducible refine Keeps.parts ?_)
    | with_reducible refine keeps_ite ?_ ?_
    | with_reducible refine keeps_iteR ?_ ?_
    | split
    | intro _
    | with_reducible refine keeps_get (by assumption) ?_
    | with_reducible refine keepsOR_get (by assumption) ?_
    | with_reducible refine keeps_snd (by assumption) ?_
    | with_reducible refine keeps_fst (by assumption) ?_
    | with_reducible refine keeps_run (by assumption) ?_
    | with_reducible refine keeps_runS (by assumption) ?_

theorem TaskRun.endWrites_keeps {i n : Nat} {q : Req} {r : TaskRun} (hr : Keeps que r.s) : Keeps que (TaskRun.endWrites i n q r).s := by
  induction n generalizing q r with
  | zero => exact hr
  | succ n ih =>
    unfold TaskRun.endWrites
    refine keeps_iteR (TaskRun.modStage_keeps hr) ?_
    have hw (l : List Put) := TaskRun.writeAll_keeps (i := i) (done := true) (ws := l) hr
    exact keeps_iteR (keeps_iteR (hw _) (TaskRun.finishWrite_keeps (hw _)))
      (ih (keeps_iteR (hw _) (TaskRun.finishWrite_keeps (hw _))))

theorem TaskRun.endRequest_keeps {r : TaskRun} {i : Nat} {q : Req} {outcome : ReqOutcome} (hr : Keeps que r.s) :
    Keeps que (r.endRequest i q outcome).s := by
  have back (c : Prop) [Decidable c] {u : TaskRun} (hu : Keeps que u.s) :
      Keeps que (if c then { u with s := u.s.modMem fun m => m.withTables r.s.mem } else u).s :=
    keeps_iteR (State.modMem_keeps (f := fun m => m.withTables r.s.mem) hu (hu.sound.withTables _)) hu
  have there (c : Prop) [Decidable c] :
      Keeps que (if c then { r with s := r.s.modMem fun m => m.asTranslated q.addr q.entry } else r).s :=
    keeps_iteR (State.modMem_keeps (f := fun m => m.asTranslated q.addr q.entry) hr (hr.sound.asTranslated _ _)) hr
  unfold TaskRun.endRequest
  dsimp only
  split
  · exact keeps_iteR (TaskRun.fail_keeps (TaskRun.modStage_keeps hr)) hr
  · generalize hm : TaskRun.meetEcc _ i q outcome = u
    have hu : Keeps que u.s := hm ▸ TaskRun.meetEcc_keeps (there _)
    refine back _ ?_
    split
    · exact keeps_iteR (TaskRun.modStage_keeps hu) (TaskRun.rehold_keeps hu)
    · exact TaskRun.endXfer_keeps hu
    · refine keeps_iteR (TaskRun.endWrites_keeps (TaskRun.modStage_keeps hu)) ?_
      have hd := TaskRun.modStage_keeps (i := i) (f := fun st => { st with reqs := st.reqs.drop 1 })
        (TaskRun.readRuns_keeps (i := i) (xs := u.reqRuns i q) hu)
      exact keeps_iteR hd (TaskRun.finishReads_keeps (TaskRun.modStage_keeps hd))

theorem execMemoryRequestComplete_keeps {core : Fin 20} {task : Nat} {stage : Fin 6} {outcome : ReqOutcome} {s : State}
    (hs : Keeps que s) : KeepsOut que (execMemoryRequestComplete core task stage outcome s) := by
  unfold execMemoryRequestComplete
  dsimp only
  repeat' first
    | with_reducible assumption
    | with_reducible apply TaskRun.done_keeps
    | with_reducible apply TaskRun.chain_keeps
    | with_reducible apply TaskRun.endRequest_keeps
    | with_reducible apply keepsOut_next
    | with_reducible refine keeps_ite ?_ ?_
    | split

theorem TaskRun.undefineBlock_keeps {r : TaskRun} {list : Nat × Nat} {force : Bool} {k : Nat}
    (hr : Keeps que r.s) : Keeps que (TaskRun.undefineBlock r list force k).s := by
  unfold TaskRun.undefineBlock
  try dsimp only
  repeat' first
    | with_reducible assumption
    | with_reducible apply State.regionUndef_keeps
    | (simp only [keeps_mk]; with_reducible refine Keeps.parts ?_)
    | with_reducible refine keeps_ite ?_ ?_
    | with_reducible refine keeps_iteR ?_ ?_
    | with_reducible refine keeps_foldl _ ?_ ?_
    | with_reducible refine keeps_foldlR _ ?_ ?_
    | split
    | intro _
    | with_reducible refine keeps_get (by assumption) ?_
    | with_reducible refine keepsOR_get (by assumption) ?_
    | with_reducible refine keeps_snd (by assumption) ?_
    | with_reducible refine keeps_fst (by assumption) ?_
    | with_reducible refine keeps_run (by assumption) ?_
    | with_reducible refine keeps_runS (by assumption) ?_

theorem TaskRun.undefineList_keeps {r : TaskRun} {list : Nat × Nat} {force : Bool} {from_ : Nat} {n : Nat}
    (hr : Keeps que r.s) : Keeps que (TaskRun.undefineList r list force from_ n).s := by
  unfold TaskRun.undefineList
  try dsimp only
  repeat' first
    | with_reducible assumption
    | with_reducible apply TaskRun.undefineBlock_keeps
    | (simp only [keeps_mk]; with_reducible refine Keeps.parts ?_)
    | with_reducible refine keeps_foldl _ ?_ ?_
    | with_reducible refine keeps_foldlR _ ?_ ?_
    | intro _

theorem TaskRun.undefineStage_keeps {r : TaskRun} {i : Nat} (hr : Keeps que r.s) : Keeps que (TaskRun.undefineStage r i).s := by
  unfold TaskRun.undefineStage
  try dsimp only
  repeat' first
    | with_reducible assumption
    | with_reducible apply State.blur_keeps
    | with_reducible apply State.regionUndef_keeps
    | with_reducible apply TaskRun.undefineList_keeps
    | (simp only [keeps_mk]; with_reducible refine Keeps.parts ?_)
    | with_reducible refine keeps_ite ?_ ?_
    | with_reducible refine keeps_iteR ?_ ?_
    | split
    | intro _
    | with_reducible refine keeps_get (by assumption) ?_
    | with_reducible refine keepsOR_get (by assumption) ?_
    | with_reducible refine keeps_snd (by assumption) ?_
    | with_reducible refine keeps_fst (by assumption) ?_
    | with_reducible refine keeps_run (by assumption) ?_
    | with_reducible refine keeps_runS (by assumption) ?_

theorem TaskRun.undefineOutputs_keeps {r : TaskRun} (hr : Keeps que r.s) : Keeps que (TaskRun.undefineOutputs r).s := by
  unfold TaskRun.undefineOutputs
  repeat' first
    | with_reducible assumption
    | with_reducible apply TaskRun.undefineStage_keeps
    | with_reducible refine keeps_foldlR _ ?_ ?_

theorem State.closeTask_keeps {s : State} {p : Fin 20} {id : Nat} (hs : Keeps que s) : Keeps que (State.closeTask s p id) := by
  unfold State.closeTask
  dsimp only
  repeat' first
    | with_reducible assumption
    | (simp only [keeps_mk]; with_reducible refine Keeps.parts ?_)

theorem State.dropTask_keeps {s : State} {p : Fin 20} {id : Nat} (hs : Keeps que s) : Keeps que (State.dropTask s p id) := by
  unfold State.dropTask
  repeat' first
    | with_reducible assumption
    | with_reducible apply State.modCore_keeps
    | exact fun _ h => h.withTasks (List.length_filter_le ..)
    | with_reducible apply State.closeTask_keeps

theorem State.resubmissionEnded_keeps {s : State} {p : Fin 20} {t : Task}
    (hs : Keeps que s) : Keeps que (State.resubmissionEnded s p t) := by
  unfold State.resubmissionEnded
  try dsimp only
  repeat' first
    | with_reducible assumption
    | with_reducible apply State.modCore_keeps
    | exact fun _ h => Core.clearFault_sound h
    | with_reducible apply State.resumeAll_keeps
    | with_reducible apply State.postFault_keeps
    | with_reducible apply State.chargeFault_keeps
    | with_reducible apply State.rollbackFault_keeps
    | (simp only [keeps_mk]; with_reducible refine Keeps.parts ?_)
    | with_reducible refine keeps_ite ?_ ?_
    | split
    | with_reducible refine keeps_get (by assumption) ?_
    | with_reducible refine keeps_snd (by assumption) ?_
    | with_reducible refine keeps_fst (by assumption) ?_

theorem TaskRun.finish_keeps {r : TaskRun} (hr : Keeps que r.s) : Keeps que (TaskRun.finish r) := by
  unfold TaskRun.finish
  dsimp only
  repeat' first
    | with_reducible assumption
    | with_reducible apply State.modCore_keeps
    | with_reducible exact fun _ h => h
    | exact fun _ h => Core.raise_sound h
    | exact fun _ h => Core.addToken_sound h
    | with_reducible apply State.checkComplete_keeps
    | with_reducible apply State.provenance_keeps
    | with_reducible apply State.writeRecord_keeps
    | with_reducible apply TaskRun.undefineOutputs_keeps
    | with_reducible apply State.dropTask_keeps
    | with_reducible apply State.resubmissionEnded_keeps
    | with_reducible refine keeps_ite ?_ ?_
    | split

theorem execTaskEnd_keeps {core : Fin 20} {task : Nat} {s : State}
    (hs : Keeps que s) : KeepsOut que (execTaskEnd core task s) := by
  unfold execTaskEnd
  dsimp only
  repeat' first
    | with_reducible assumption
    | with_reducible apply TaskRun.finish_keeps
    | with_reducible apply keepsOut_next
    | split

theorem State.resubmit_keeps {s : State} {p : Fin 20} {crec : Nat} (hs : Keeps que s) : Keeps que (State.resubmit s p crec) := by
  unfold State.resubmit
  try dsimp only
  split
  · exact State.modCore_keeps hs fun _ h => h
  · split
    · exact State.modCore_keeps hs fun _ h => h
    · rename_i hroom
      have hr : Room que p s := hs.room fun hx => hroom (by simp [hx])
      repeat' first
        | with_reducible assumption
        | with_reducible apply State.modCore_keeps
        | exact fun _ h => Core.raise_sound h
        | with_reducible apply State.correct_keeps
        | with_reducible apply State.chargeTile_keeps
        | with_reducible apply State.writeRecord_keeps
        | with_reducible apply State.launch_keeps
        | with_reducible apply State.correct_closed room_closed
        | with_reducible refine closed_ite (P := Room que p) ?_ ?_
        | with_reducible apply State.resubmissionEnded_keeps
        | (simp only [keeps_mk]; with_reducible refine Keeps.parts ?_)
        | with_reducible refine keeps_ite ?_ ?_
        | split
        | with_reducible refine keeps_get (by assumption) ?_
        | with_reducible refine keeps_snd (by assumption) ?_
        | with_reducible refine keeps_fst (by assumption) ?_

theorem execStrmResubmit_keeps {core : Fin 20} {value : Word} {s : State}
    (hs : Keeps que s) : KeepsOut que (execStrmResubmit core value s) := by
  unfold execStrmResubmit
  repeat' first
    | with_reducible assumption
    | with_reducible apply State.resubmit_keeps
    | with_reducible apply keepsOut_next

end Sys2Proof.Machine
end

