-- ==== Sys2Proof/Laws/KeepsMatrix.lean ====
section
/-! SUPPORT. What `Machine/Matrix.lean` changes keeps the state sound and its queue as it is. -/

namespace Sys2Proof.Machine

variable {que : List Instr}

theorem State.issueLoad_keeps {s : State} {p : Fin 20} {k : Fin 128} {w : IWord} {v : VCore} {st : Strand} {t : Nat}
    (hs : Keeps que s) : Keeps que (State.issueLoad s p k w v st t) := by
  unfold State.issueLoad
  dsimp only
  repeat' first
    | with_reducible assumption
    | with_reducible apply State.modV_keeps
    | with_reducible apply State.fault_keeps
    | with_reducible apply State.toLane_keeps
    | with_reducible apply State.commit_keeps
    | with_reducible refine keeps_ite ?_ ?_
    | split
    | intro _

theorem execBroadcastMload_keeps {core : Fin 20} {strand : Fin 128} {ops : BitVec 118} {s : State}
    (hs : Keeps que s) : KeepsOut que (execBroadcastMload core strand ops s) := by
  unfold execBroadcastMload
  dsimp only
  repeat' first
    | with_reducible assumption
    | with_reducible apply State.issue_keeps
    | with_reducible apply State.issueLoad_keeps
    | intro _

theorem execWavefrontMload_keeps {core : Fin 20} {strand : Fin 128} {ops : BitVec 118} {s : State}
    (hs : Keeps que s) : KeepsOut que (execWavefrontMload core strand ops s) := by
  unfold execWavefrontMload
  dsimp only
  repeat' first
    | with_reducible assumption
    | with_reducible apply State.issue_keeps
    | with_reducible apply State.issueLoad_keeps
    | intro _

theorem execMswap_keeps {core : Fin 20} {strand : Fin 128} {ops : BitVec 118} {s : State}
    (hs : Keeps que s) : KeepsOut que (execMswap core strand ops s) := by
  unfold execMswap
  dsimp only
  repeat' first
    | with_reducible assumption
    | with_reducible apply State.modCore_keeps
    | with_reducible apply State.commit_keeps
    | with_reducible apply State.issue_keeps
    | intro _

theorem execMswapFlip_keeps {core : Fin 20} {s : State} (hs : Keeps que s) : KeepsOut que (execMswapFlip core s) := by
  unfold execMswapFlip
  dsimp only
  repeat' first
    | with_reducible assumption
    | with_reducible apply State.modCore_keeps
    | with_reducible apply State.modV_keeps
    | with_reducible exact fun _ h => h
    | with_reducible apply State.advance_keeps
    | with_reducible apply keepsOut_next
    | split

theorem execShadowSetComplete_keeps {core : Fin 20} {s : State}
    (hs : Keeps que s) : KeepsOut que (execShadowSetComplete core s) := by
  unfold execShadowSetComplete
  repeat' first
    | with_reducible assumption
    | with_reducible apply State.modCore_keeps
    | with_reducible exact fun _ h => h
    | with_reducible apply State.advance_keeps
    | with_reducible apply keepsOut_next
    | split

theorem State.issuePass_keeps {s : State} {p : Fin 20} {k : Fin 128} {w : IWord} {counted : Bool} {v : VCore} {st : Strand}
    {t : Nat}
    (hs : Keeps que s) : Keeps que (State.issuePass s p k w counted v st t) := by
  unfold State.issuePass
  try dsimp only
  repeat' first
    | with_reducible assumption
    | with_reducible apply State.modV_keeps
    | exact fun _ h => h
    | with_reducible apply State.fault_keeps
    | with_reducible apply State.readNow_keeps
    | with_reducible apply State.toLane_keeps
    | with_reducible apply State.commit_keeps
    | with_reducible apply State.failIssue_keeps
    | with_reducible apply TaskRun.put_keeps
    | (simp only [keeps_mk]; with_reducible refine Keeps.parts ?_)
    | with_reducible refine keeps_ite ?_ ?_
    | split
    | intro _
    | with_reducible refine keeps_get (by assumption) ?_
    | with_reducible refine keeps_snd (by assumption) ?_
    | with_reducible refine keeps_fst (by assumption) ?_

theorem execMpass_keeps {core : Fin 20} {strand : Fin 128} {ops : BitVec 118} {s : State}
    (hs : Keeps que s) : KeepsOut que (execMpass core strand ops s) := by
  unfold execMpass
  dsimp only
  repeat' first
    | with_reducible assumption
    | with_reducible apply State.issue_keeps
    | with_reducible apply State.issuePass_keeps
    | intro _

theorem execMpassP_keeps {core : Fin 20} {strand : Fin 128} {ops : BitVec 118} {s : State}
    (hs : Keeps que s) : KeepsOut que (execMpassP core strand ops s) := by
  unfold execMpassP
  dsimp only
  repeat' first
    | with_reducible assumption
    | with_reducible apply State.issue_keeps
    | with_reducible apply State.issuePass_keeps
    | intro _

theorem execMdrain_keeps {core : Fin 20} {strand : Fin 128} {ops : BitVec 118} {s : State}
    (hs : Keeps que s) : KeepsOut que (execMdrain core strand ops s) := by
  unfold execMdrain
  try dsimp only
  repeat' first
    | with_reducible assumption
    | with_reducible apply State.fault_keeps
    | with_reducible apply State.readNow_keeps
    | with_reducible apply State.reach_keeps
    | with_reducible apply State.toLane_keeps
    | with_reducible apply State.commit_keeps
    | with_reducible apply State.failIssue_keeps
    | with_reducible apply State.issue_keeps
    | with_reducible apply TaskRun.drain_keeps
    | (simp only [keeps_mk]; with_reducible refine Keeps.parts ?_)
    | with_reducible apply keepsOut_next
    | with_reducible refine keeps_ite ?_ ?_
    | split
    | intro _
    | with_reducible refine keeps_get (by assumption) ?_
    | with_reducible refine keeps_snd (by assumption) ?_
    | with_reducible refine keeps_fst (by assumption) ?_

theorem State.startNext_keeps {s : State} {p : Fin 20} {l : LaneId} (hs : Keeps que s) : Keeps que (State.startNext s p l) := by
  unfold State.startNext
  repeat' first
    | with_reducible assumption
    | with_reducible apply State.modCore_keeps
    | exact fun _ h => Core.setLane_sound h
    | with_reducible apply State.advance_keeps
    | with_reducible apply State.start_keeps
    | split

theorem execQueuedPassStart_keeps {core : Fin 20} {kind : MaKind} {s : State}
    (hs : Keeps que s) : KeepsOut que (execQueuedPassStart core kind s) := by
  unfold execQueuedPassStart
  repeat' first
    | with_reducible assumption
    | with_reducible apply State.startNext_keeps
    | with_reducible apply keepsOut_next

theorem execForcedScrubWrite_keeps {core : Fin 20} {column : Fin 32} {ecc : Ecc} {s : State}
    (hs : Keeps que s) : KeepsOut que (execForcedScrubWrite core column ecc s) := by
  unfold execForcedScrubWrite
  dsimp only
  repeat' first
    | with_reducible assumption
    | with_reducible apply State.fresh_keeps
    | with_reducible apply State.modCore_keeps
    | with_reducible exact fun _ h => h
    | exact fun _ h => Core.raise_sound (Core.modV_sound h fun _ hv => hv)
    | with_reducible apply State.charge_keeps
    | with_reducible apply keepsOut_next
    | split

end Sys2Proof.Machine
end

