-- ==== Sys2Proof/Laws/KeepsVector.lean ====
section
/-! SUPPORT. What `Machine/Vector.lean` changes keeps the state sound and its queue as it is. -/

namespace Sys2Proof.Machine

variable {que : List Instr}

theorem execVop_keeps {core : Fin 20} {strand : Fin 128} {ops : BitVec 118} {s : State}
    (hs : Keeps que s) : KeepsOut que (execVop core strand ops s) := by
  unfold execVop
  dsimp only
  repeat' first
    | with_reducible assumption
    | with_reducible apply State.toLane_keeps
    | with_reducible apply State.commit_keeps
    | with_reducible apply State.issue_keeps
    | intro _

theorem execVcvt_keeps {core : Fin 20} {strand : Fin 128} {ops : BitVec 118} {s : State}
    (hs : Keeps que s) : KeepsOut que (execVcvt core strand ops s) := by
  unfold execVcvt
  try dsimp only
  repeat' first
    | with_reducible assumption
    | with_reducible apply State.fault_keeps
    | with_reducible apply State.readNow_keeps
    | with_reducible apply State.reach_keeps
    | with_reducible apply State.toLane_keeps
    | with_reducible apply State.commit_keeps
    | with_reducible apply State.failIssue_keeps
    | with_reducible apply State.issue_keeps
    | (simp only [keeps_mk]; with_reducible refine Keeps.parts ?_)
    | with_reducible apply keepsOut_next
    | with_reducible refine keeps_ite ?_ ?_
    | split
    | intro _
    | with_reducible refine keeps_get (by assumption) ?_
    | with_reducible refine keeps_snd (by assumption) ?_
    | with_reducible refine keeps_fst (by assumption) ?_

theorem execVtrn_keeps {core : Fin 20} {strand : Fin 128} {ops : BitVec 118} {s : State}
    (hs : Keeps que s) : KeepsOut que (execVtrn core strand ops s) := by
  unfold execVtrn
  dsimp only
  repeat' first
    | with_reducible assumption
    | with_reducible apply State.fault_keeps
    | with_reducible apply State.toLane_keeps
    | with_reducible apply State.commit_keeps
    | with_reducible apply State.issue_keeps
    | split
    | intro _

theorem execVgath_keeps {core : Fin 20} {strand : Fin 128} {ops : BitVec 118} {s : State}
    (hs : Keeps que s) : KeepsOut que (execVgath core strand ops s) := by
  unfold execVgath
  dsimp only
  repeat' first
    | with_reducible assumption
    | with_reducible apply State.toLane_keeps
    | with_reducible apply State.commit_keeps
    | with_reducible apply State.issue_keeps
    | intro _

theorem execVscat_keeps {core : Fin 20} {strand : Fin 128} {ops : BitVec 118} {s : State}
    (hs : Keeps que s) : KeepsOut que (execVscat core strand ops s) := by
  unfold execVscat
  dsimp only
  repeat' first
    | with_reducible assumption
    | with_reducible apply State.toLane_keeps
    | with_reducible apply State.commit_keeps
    | with_reducible apply State.issue_keeps
    | intro _

theorem execScataddU_keeps {core : Fin 20} {strand : Fin 128} {ops : BitVec 118} {s : State}
    (hs : Keeps que s) : KeepsOut que (execScataddU core strand ops s) := by
  unfold execScataddU
  dsimp only
  repeat' first
    | with_reducible assumption
    | with_reducible apply State.toLane_keeps
    | with_reducible apply State.commit_keeps
    | with_reducible apply State.noteClassV_keeps
    | with_reducible apply State.issue_keeps
    | intro _

theorem execVscan_keeps {core : Fin 20} {strand : Fin 128} {ops : BitVec 118} {s : State}
    (hs : Keeps que s) : KeepsOut que (execVscan core strand ops s) := by
  unfold execVscan
  dsimp only
  repeat' first
    | with_reducible assumption
    | with_reducible apply State.toLane_keeps
    | with_reducible apply State.commit_keeps
    | with_reducible apply State.issue_keeps
    | intro _

theorem execRngmask_keeps {core : Fin 20} {strand : Fin 128} {ops : BitVec 118} {s : State}
    (hs : Keeps que s) : KeepsOut que (execRngmask core strand ops s) := by
  unfold execRngmask
  try dsimp only
  repeat' first
    | with_reducible assumption
    | with_reducible apply State.fault_keeps
    | with_reducible apply State.readNow_keeps
    | with_reducible apply State.toLane_keeps
    | with_reducible apply State.commit_keeps
    | with_reducible apply State.failIssue_keeps
    | with_reducible apply State.issue_keeps
    | (simp only [keeps_mk]; with_reducible refine Keeps.parts ?_)
    | with_reducible apply keepsOut_next
    | split
    | intro _
    | with_reducible refine keeps_get (by assumption) ?_
    | with_reducible refine keeps_snd (by assumption) ?_
    | with_reducible refine keeps_fst (by assumption) ?_

theorem execRed_keeps {core : Fin 20} {strand : Fin 128} {ops : BitVec 118} {s : State}
    (hs : Keeps que s) : KeepsOut que (execRed core strand ops s) := by
  unfold execRed
  dsimp only
  repeat' first
    | with_reducible assumption
    | with_reducible apply State.toLane_keeps
    | with_reducible apply State.commit_keeps
    | with_reducible apply State.issue_keeps
    | intro _

theorem execQueuedVectorStart_keeps {core : Fin 20} {red : Bool} {s : State}
    (hs : Keeps que s) : KeepsOut que (execQueuedVectorStart core red s) := by
  unfold execQueuedVectorStart
  repeat' first
    | with_reducible assumption
    | with_reducible apply State.startNext_keeps
    | with_reducible apply keepsOut_next

end Sys2Proof.Machine
end

