-- ==== Sys2Proof/Laws/KeepsFabric.lean ====
section
/-! SUPPORT. What `Machine/Fabric.lean` changes keeps the state sound and its queue as it is. -/

namespace Sys2Proof.Machine

variable {que : List Instr}

theorem State.postPort_keeps {s : State} {n : Nat} (hs : Keeps que s) : Keeps que (State.postPort s n) := by
  unfold State.postPort
  dsimp only
  repeat' first
    | with_reducible assumption
    | with_reducible apply State.post_keeps

theorem State.notice_keeps {s : State} {n : Nat} (hs : Keeps que s) : Keeps que (State.notice s n) := by
  unfold State.notice
  dsimp only
  repeat' first
    | with_reducible assumption
    | with_reducible apply State.flood_keeps
    | (simp only [keeps_mk, Fabric.setLink_seen]; with_reducible refine Keeps.parts ?_)
    | with_reducible refine keeps_ite ?_ ?_

theorem State.twinLost_keeps {s : State} (hs : Keeps que s) : Keeps que (State.twinLost s) := by
  unfold State.twinLost
  dsimp only
  repeat' first
    | with_reducible assumption
    | with_reducible apply State.pauseAll_keeps
    | with_reducible apply State.postDivergence_keeps
    | (simp only [keeps_mk]; with_reducible refine Keeps.parts ?_)
    | with_reducible refine keeps_ite ?_ ?_

theorem State.checkReach_keeps {s : State} (hs : Keeps que s) : Keeps que (State.checkReach s) := by
  unfold State.checkReach
  dsimp only
  repeat' first
    | with_reducible assumption
    | with_reducible apply TaskRun.done_keeps
    | with_reducible apply TaskRun.fail_keeps
    | with_reducible refine keeps_foldl _ ?_ ?_
    | split
    | intro _

theorem State.markDown_keeps {s : State} {n : Nat} {reason : Nat} (hs : Keeps que s) : Keeps que (State.markDown s n reason) := by
  unfold State.markDown
  try dsimp only
  repeat' first
    | with_reducible assumption
    | with_reducible apply State.modPort_keeps
    | with_reducible apply State.dropWaiting_keeps
    | with_reducible apply State.failSet_keeps
    | with_reducible apply State.postPort_keeps
    | with_reducible apply State.notice_keeps
    | with_reducible apply State.twinLost_keeps
    | with_reducible apply State.checkReach_keeps
    | (simp only [keeps_mk]; with_reducible refine Keeps.parts ?_)
    | with_reducible refine keeps_ite ?_ ?_
    | split
    | intro _

theorem State.retrain_keeps {s : State} {n : Nat} (hs : Keeps que s) : Keeps que (State.retrain s n) := by
  unfold State.retrain
  repeat' first
    | with_reducible assumption
    | with_reducible apply State.charge_keeps
    | with_reducible apply State.modPort_keeps
    | with_reducible refine keeps_ite ?_ ?_

theorem execFlitReceive_keeps {port : Fin 8} {seq : BitVec 12} {check : FlitCheck} {symbols : Nat} {s : State}
    (hs : Keeps que s) : KeepsOut que (execFlitReceive port seq check symbols s) := by
  unfold execFlitReceive
  dsimp only
  repeat' first
    | with_reducible assumption
    | with_reducible apply State.emitPort_keeps
    | with_reducible apply State.charge_keeps
    | with_reducible apply State.modPort_keeps
    | with_reducible apply keepsOut_next
    | split

theorem execReplayRequest_keeps {port : Fin 8} {seq : BitVec 12} {s : State}
    (hs : Keeps que s) : KeepsOut que (execReplayRequest port seq s) := by
  unfold execReplayRequest
  dsimp only
  repeat' first
    | with_reducible assumption
    | with_reducible apply State.emitPort_keeps
    | with_reducible apply State.charge_keeps
    | with_reducible apply State.modPort_keeps
    | with_reducible apply State.retrain_keeps
    | with_reducible apply keepsOut_next
    | with_reducible refine keeps_ite ?_ ?_
    | split

theorem execFlitAcceptTimeout_keeps {port : Fin 8} {s : State}
    (hs : Keeps que s) : KeepsOut que (execFlitAcceptTimeout port s) := by
  unfold execFlitAcceptTimeout
  repeat' first
    | with_reducible assumption
    | with_reducible apply State.retrain_keeps
    | with_reducible apply keepsOut_next

theorem State.trainPort_keeps {s : State} {n : Nat} {t : TrainResult} (hs : Keeps que s) : Keeps que (State.trainPort s n t) := by
  unfold State.trainPort
  try dsimp only
  repeat' first
    | with_reducible assumption
    | with_reducible apply State.modPort_keeps
    | with_reducible apply State.flushPort_keeps
    | with_reducible apply State.dropWaiting_keeps
    | with_reducible apply State.postPort_keeps
    | with_reducible apply State.notice_keeps
    | with_reducible apply State.checkReach_keeps
    | with_reducible apply State.markDown_keeps
    | (simp only [keeps_mk]; with_reducible refine Keeps.parts ?_)
    | with_reducible refine keeps_ite ?_ ?_
    | split
    | intro _
    | with_reducible refine keeps_get (by assumption) ?_
    | with_reducible refine keeps_snd (by assumption) ?_
    | with_reducible refine keeps_fst (by assumption) ?_

theorem execPortTrained_keeps {port : Fin 8} {result : TrainResult} {s : State}
    (hs : Keeps que s) : KeepsOut que (execPortTrained port result s) := by
  unfold execPortTrained
  dsimp only
  repeat' first
    | with_reducible assumption
    | with_reducible apply State.trainPort_keeps
    | with_reducible apply keepsOut_next
    | split

theorem execPortRetrain_keeps {port : Fin 8} {s : State} (hs : Keeps que s) : KeepsOut que (execPortRetrain port s) := by
  unfold execPortRetrain
  repeat' first
    | with_reducible assumption
    | with_reducible apply State.retrain_keeps
    | with_reducible apply keepsOut_next
    | split

theorem execPortEnable_keeps {port : Fin 8} {s : State} (hs : Keeps que s) : KeepsOut que (execPortEnable port s) := by
  unfold execPortEnable
  dsimp only
  repeat' first
    | with_reducible assumption
    | with_reducible apply State.modPort_keeps
    | with_reducible apply keepsOut_next
    | split

theorem execPortDisable_keeps {port : Fin 8} {s : State} (hs : Keeps que s) : KeepsOut que (execPortDisable port s) := by
  unfold execPortDisable
  dsimp only
  repeat' first
    | with_reducible assumption
    | with_reducible apply State.modPort_keeps
    | with_reducible apply State.markDown_keeps
    | with_reducible apply keepsOut_next
    | with_reducible refine keeps_ite ?_ ?_
    | split

theorem execHeartbeatSend_keeps {s : State} (hs : Keeps que s) : KeepsOut que (execHeartbeatSend s) := by
  unfold execHeartbeatSend
  try dsimp only
  repeat' first
    | with_reducible assumption
    | with_reducible apply State.modPort_keeps
    | (simp only [keeps_mk]; with_reducible refine Keeps.parts ?_)
    | with_reducible apply keepsOut_next
    | with_reducible refine keeps_ite ?_ ?_
    | with_reducible refine keeps_foldl _ ?_ ?_
    | split
    | intro _

theorem execHeartbeatReceive_keeps {port : Fin 8} {neighbour : BitVec 15} {state : BitVec 2} {count : Word} {s : State}
    (hs : Keeps que s) : KeepsOut que (execHeartbeatReceive port neighbour state count s) := by
  unfold execHeartbeatReceive
  dsimp only
  repeat' first
    | with_reducible assumption
    | with_reducible apply State.modPort_keeps
    | with_reducible apply keepsOut_next
    | split

theorem execHeartbeatLoss_keeps {port : Fin 8} {s : State} (hs : Keeps que s) : KeepsOut que (execHeartbeatLoss port s) := by
  unfold execHeartbeatLoss
  dsimp only
  repeat' first
    | with_reducible assumption
    | with_reducible apply State.markDown_keeps
    | with_reducible apply keepsOut_next
    | split

theorem State.relayCtl_keeps {s : State} {port : Nat} {kind : Nat} {ctl : Ctl} {payload : List Byte}
    (hs : Keeps que s) : Keeps que (State.relayCtl s port kind ctl payload) := by
  unfold State.relayCtl
  repeat' first
    | with_reducible assumption
    | with_reducible apply State.forward_keeps
    | (simp only [keeps_mk]; with_reducible refine Keeps.partsSeen ?_ (Fabric.remember_seen _ _ _))

theorem execLinkStateNotice_keeps {port : Fin 6} {ctl : Ctl} {payload : List Byte} {s : State}
    (hs : Keeps que s) : KeepsOut que (execLinkStateNotice port ctl payload s) := by
  unfold execLinkStateNotice
  dsimp only
  repeat' first
    | with_reducible assumption
    | with_reducible apply State.checkReach_keeps
    | with_reducible apply State.relayCtl_keeps
    | (simp only [keeps_mk, Fabric.setLink_seen]; with_reducible refine Keeps.parts ?_)
    | (simp only [keeps_mk]; with_reducible refine Keeps.partsSeen ?_ (Fabric.remember_seen _ _ _))
    | with_reducible apply keepsOut_next
    | with_reducible refine keeps_ite ?_ ?_
    | split

theorem execPacketReceive_keeps {port : Fin 8} {packet : List Byte} {s : State}
    (hs : Keeps que s) : KeepsOut que (execPacketReceive port packet s) := by
  unfold execPacketReceive
  try dsimp only
  repeat' first
    | with_reducible assumption
    | (simp only [keeps_mk]; with_reducible refine Keeps.partsSeen ?_ (Fabric.remember_seen _ _ _))
    | with_reducible apply State.modPort_keeps
    | with_reducible apply State.sendPackets_keeps
    | (simp only [keeps_mk]; with_reducible refine Keeps.parts ?_)
    | with_reducible apply keepsOut_next
    | with_reducible refine keeps_ite ?_ ?_
    | split
    | intro _
    | with_reducible refine keeps_get (by assumption) ?_
    | with_reducible refine keeps_snd (by assumption) ?_
    | with_reducible refine keeps_fst (by assumption) ?_

theorem State.modRx_keeps {s : State} {origin : BitVec 15} {opId : Nat} {f : RxOp → RxOp}
    (hs : Keeps que s) : Keeps que (State.modRx s origin opId f) := by
  unfold State.modRx
  dsimp only
  repeat' first
    | with_reducible assumption
    | (simp only [keeps_mk]; with_reducible refine Keeps.parts ?_)

theorem State.receiveBlock_keeps {s : State} {params : List Byte} {index : Nat} {b : Block} (hs : Keeps que s) :
    Keeps que (s.receiveBlock params index b).1 := by
  unfold State.receiveBlock
  have hi {c : Prop} [Decidable c] {x y : State × Received} (hx : Keeps que x.1) (hy : Keeps que y.1) : Keeps que (if c then x else y).1 := by
    split
    · exact hx
    · exact hy
  have hg (num : Nat) (list : Nat × Nat) :
      Keeps que (s.regionGet ((s.findV num).getD 0) num list.1 (list.2 + 64 * index : Nat) 64).1 := State.regionGet_keeps hs
  refine hi hs (hi hs (hi hs ?_))
  split
  · rename_i heq
    have h := keeps_fst heq (hg _ _)
    split
    · exact h
    · refine hi h (hi h (hi h (hi h ?_)))
      dsimp only
      generalize Desc.writes _ _ _ _ _ _ = ws
      refine keeps_foldlP ws h fun st w h => ?_
      split
      · exact h
      · split <;> rename_i heq <;> have h' := keeps_fst heq (State.regionPut_keeps h)
        · exact keeps_ite h' (State.lateWrite_keeps h')
        · exact h'
  · rename_i heq
    exact keeps_fst heq (hg _ _)

theorem State.openColl_keeps {s : State} {group : Nat} {cid : Nat} {step : Word}
    (hs : Keeps que s) : Keeps que (State.openColl s group cid step) := by
  unfold State.openColl
  dsimp only
  repeat' first
    | with_reducible assumption
    | (simp only [keeps_mk]; with_reducible refine Keeps.parts ?_)
    | split

theorem State.showForm_keeps {s : State} {group : Nat} {step : Nat} {cid : Nat} {form : CollForm}
    (hs : Keeps que s) : Keeps que (State.showForm s group step cid form) := by
  unfold State.showForm
  try dsimp only
  repeat' first
    | with_reducible assumption
    | with_reducible apply TaskRun.done_keeps
    | with_reducible apply TaskRun.fail_keeps
    | with_reducible apply State.modColl_keeps
    | (simp only [keeps_mk]; with_reducible refine Keeps.parts ?_)
    | with_reducible refine keeps_ite ?_ ?_
    | with_reducible refine keeps_iteR ?_ ?_
    | split
    | intro _
    | with_reducible refine keeps_get (by assumption) ?_
    | with_reducible refine keepsOR_get (by assumption) ?_
    | with_reducible refine keeps_snd (by assumption) ?_
    | with_reducible refine keeps_fst (by assumption) ?_
    | with_reducible refine keeps_run (by assumption) ?_
    | with_reducible refine keeps_runS (by assumption) ?_

theorem State.receiveContrib_keeps {s : State} {group : Nat} {cid : Nat} {position : Nat} {index : Nat} {form : CollForm} {b : Block} {flags : BitVec 3}
    (hs : Keeps que s) : Keeps que (State.receiveContrib s group cid position index form b flags) := by
  unfold State.receiveContrib
  try dsimp only
  repeat' first
    | with_reducible assumption
    | with_reducible apply TaskRun.flags_keeps
    | with_reducible apply State.modColl_keeps
    | with_reducible apply State.openColl_keeps
    | with_reducible apply State.showForm_keeps
    | (simp only [keeps_mk]; with_reducible refine Keeps.parts ?_)
    | intro _

theorem State.keepRx_keeps {s : State} {h : HeldRx} {first : Bool} (hs : Keeps que s) : Keeps que (State.keepRx s h first) := by
  unfold State.keepRx
  dsimp only
  repeat' first
    | with_reducible assumption
    | with_reducible apply State.countHold_keeps
    | (simp only [keeps_mk]; with_reducible refine Keeps.parts ?_)
    | with_reducible refine keeps_ite ?_ ?_

theorem State.takeBlock_keeps {s : State} {h : HeldRx} {first : Bool} (hs : Keeps que s) : Keeps que (s.takeBlock h first) := by
  unfold State.takeBlock
  dsimp only
  split
  · exact State.sendAck_keeps hs
  · refine keeps_ite (State.sendAck_keeps hs) ?_
    split <;> rename_i heq <;> have h := keeps_fst heq (State.receiveBlock_keeps hs)
    · exact keeps_ite (State.keepRx_keeps (State.modRx_keeps h)) h
    · exact State.sendAck_keeps h
    · exact State.sendAck_keeps h
    · refine keeps_ite (State.addTokenV_keeps ?_) ?_ <;> exact State.sendAck_keeps (State.modRx_keeps h)

theorem State.retryRx_keeps {s : State} (hs : Keeps que s) : Keeps que (State.retryRx s) := by
  unfold State.retryRx
  try dsimp only
  repeat' first
    | with_reducible assumption
    | with_reducible apply State.modPort_keeps
    | with_reducible apply State.takeBlock_keeps
    | (simp only [keeps_mk]; with_reducible refine Keeps.parts ?_)
    | with_reducible refine keeps_ite ?_ ?_
    | with_reducible refine keeps_foldl _ ?_ ?_
    | split
    | intro _

theorem execBlockReceive_keeps {origin : BitVec 15} {job : Word} {opId : Word} {index : Word} {target : BlockTarget} {block : List Byte} {flags : BitVec 3} {s : State}
    (hs : Keeps que s) : KeepsOut que (execBlockReceive origin job opId index target block flags s) := by
  unfold execBlockReceive
  try dsimp only
  repeat' first
    | with_reducible assumption
    | with_reducible apply State.sendAck_keeps
    | with_reducible apply TaskRun.send_keeps
    | with_reducible apply TaskRun.flags_keeps
    | with_reducible apply State.receiveContrib_keeps
    | with_reducible apply State.takeBlock_keeps
    | (simp only [keeps_mk]; with_reducible refine Keeps.parts ?_)
    | with_reducible apply keepsOut_next
    | with_reducible refine keeps_ite ?_ ?_
    | split
    | with_reducible refine keeps_get (by assumption) ?_
    | with_reducible refine keeps_snd (by assumption) ?_
    | with_reducible refine keeps_fst (by assumption) ?_

theorem execOpenReceive_keeps {origin : BitVec 15} {job : Word} {opId : Word} {target : BlockTarget} {params : List Byte}
    {s : State}
    (hs : Keeps que s) : KeepsOut que (execOpenReceive origin job opId target params s) := by
  unfold execOpenReceive
  try dsimp only
  repeat' first
    | with_reducible assumption
    | with_reducible apply State.sendAck_keeps
    | with_reducible apply TaskRun.send_keeps
    | with_reducible apply State.modColl_keeps
    | with_reducible apply State.openColl_keeps
    | with_reducible apply State.showForm_keeps
    | (simp only [keeps_mk]; with_reducible refine Keeps.parts ?_)
    | with_reducible apply keepsOut_next
    | with_reducible refine keeps_ite ?_ ?_
    | split
    | intro _
    | with_reducible refine keeps_get (by assumption) ?_
    | with_reducible refine keeps_snd (by assumption) ?_
    | with_reducible refine keeps_fst (by assumption) ?_

theorem State.txRun_keeps {s : State} {o : TxOp} (hs : Keeps que s) : KeepsOR que (s.txRun o) := by
  intro r e
  obtain ⟨t, -, rfl⟩ := Option.map_eq_some_iff.1 e
  exact hs

theorem State.txFail_keeps {s : State} {o : TxOp} {desc : Nat} {id : Nat} {cause : Nat} {own : Word} {got : Word}
    (hs : Keeps que s) : Keeps que (State.txFail s o desc id cause own got) := by
  unfold State.txFail
  repeat' first
    | with_reducible assumption
    | with_reducible apply TaskRun.done_keeps
    | with_reducible apply TaskRun.fail_keeps
    | with_reducible apply State.txRun_keeps
    | with_reducible refine keepsOR_get (by assumption) ?_
    | split

theorem State.sweepTx_keeps {s : State} (hs : Keeps que s) : Keeps que (State.sweepTx s) := by
  unfold State.sweepTx
  dsimp only
  repeat' first
    | with_reducible assumption
    | (simp only [keeps_mk]; with_reducible refine Keeps.parts ?_)

theorem execAcknowledgeReceive_keeps {opId : Word} {index : Word} {outcome : AckOutcome} {s : State}
    (hs : Keeps que s) : KeepsOut que (execAcknowledgeReceive opId index outcome s) := by
  unfold execAcknowledgeReceive
  dsimp only
  repeat' first
    | with_reducible assumption
    | with_reducible apply TaskRun.done_keeps
    | with_reducible apply State.modTx_keeps
    | with_reducible apply TaskRun.chain_keeps
    | with_reducible apply State.txRun_keeps
    | with_reducible apply State.txFail_keeps
    | with_reducible apply State.sweepTx_keeps
    | with_reducible apply keepsOut_next
    | with_reducible refine keepsOR_get (by assumption) ?_
    | split
    | dsimp only

theorem execResendTimeout_keeps {opId : Word} {index : Word} {s : State}
    (hs : Keeps que s) : KeepsOut que (execResendTimeout opId index s) := by
  unfold execResendTimeout
  dsimp only
  repeat' first
    | with_reducible assumption
    | with_reducible apply State.sendBlock_keeps
    | with_reducible apply State.sendOpen_keeps
    | with_reducible apply State.modTx_keeps
    | with_reducible apply State.txFail_keeps
    | with_reducible apply State.sweepTx_keeps
    | (simp only [keeps_mk]; with_reducible refine Keeps.parts ?_)
    | with_reducible apply keepsOut_next
    | with_reducible refine keeps_get (by assumption) ?_
    | split

theorem TaskRun.captureRx_keeps {r : TaskRun} {c : Coll} {pos : Nat}
    (hr : Keeps que r.s) : Keeps que (TaskRun.captureRx r c pos).s := by
  unfold TaskRun.captureRx
  repeat' first
    | with_reducible assumption
    | with_reducible apply State.captureBlock_keeps
    | with_reducible refine keeps_foldl _ ?_ ?_
    | with_reducible refine keeps_iteR ?_ ?_
    | intro _

theorem State.replayContribs_keeps {s : State} {t : Task} {c : Coll} (hs : Keeps que s) : Keeps que (State.replayContribs s t c).1 := by
  unfold State.replayContribs
  try dsimp only
  repeat' first
    | with_reducible assumption
    | with_reducible apply State.captured_keeps
    | with_reducible apply TaskRun.flags_keeps
    | (simp only [keeps_mk]; with_reducible refine Keeps.parts ?_)
    | intro _

theorem TaskRun.deliverColl_keeps {r : TaskRun} {i : Nat} {outs : List Block}
    (hr : Keeps que r.s) : Keeps que (TaskRun.deliverColl r i outs).s := by
  unfold TaskRun.deliverColl
  try dsimp only
  repeat' first
    | with_reducible assumption
    | with_reducible apply TaskRun.modStage_keeps
    | with_reducible apply TaskRun.fail_keeps
    | with_reducible apply TaskRun.push_keeps
    | with_reducible apply TaskRun.endStage_keeps
    | (simp only [keeps_mk]; with_reducible refine Keeps.parts ?_)
    | with_reducible refine keeps_ite ?_ ?_
    | with_reducible refine keeps_iteR ?_ ?_
    | with_reducible refine keeps_foldl _ ?_ ?_
    | with_reducible refine keeps_foldlR _ ?_ ?_
    | split
    | intro _
    | with_reducible refine keeps_get (by assumption) ?_
    | with_reducible refine keepsOR_get (by assumption) ?_
    | with_reducible refine keeps_snd (by assumption) ?_
    | with_reducible refine keeps_fst (by assumption) ?_
    | with_reducible refine keeps_run (by assumption) ?_
    | with_reducible refine keeps_runS (by assumption) ?_

theorem execCollectiveComplete_keeps {group : Nat} {step : Nat} {cid : Nat} {s : State}
    (hs : Keeps que s) : KeepsOut que (execCollectiveComplete group step cid s) := by
  unfold execCollectiveComplete
  try dsimp only
  repeat' first
    | with_reducible assumption
    | with_reducible apply TaskRun.done_keeps
    | with_reducible apply TaskRun.modStage_keeps
    | with_reducible apply TaskRun.fail_keeps
    | with_reducible apply TaskRun.flags_keeps
    | with_reducible apply State.dropColl_keeps
    | with_reducible apply TaskRun.chain_keeps
    | with_reducible apply TaskRun.captureRx_keeps
    | with_reducible apply TaskRun.deliverColl_keeps
    | with_reducible apply State.replayContribs_keeps
    | (simp only [keeps_mk]; with_reducible refine Keeps.parts ?_)
    | with_reducible apply keepsOut_next
    | with_reducible refine keeps_ite ?_ ?_
    | with_reducible refine keeps_iteR ?_ ?_
    | split
    | intro _
    | with_reducible refine keeps_get (by assumption) ?_
    | with_reducible refine keepsOR_get (by assumption) ?_
    | with_reducible refine keeps_snd (by assumption) ?_
    | with_reducible refine keeps_fst (by assumption) ?_
    | with_reducible refine keeps_run (by assumption) ?_
    | with_reducible refine keeps_runS (by assumption) ?_

end Sys2Proof.Machine
end

