-- ==== Sys2Proof/Laws/KeepsIngest.lean ====
section
/-! SUPPORT. What `Machine/Ingest.lean` changes keeps the state sound and its queue as it is. -/

namespace Sys2Proof.Machine

variable {que : List Instr}

theorem State.putSlot_keeps {s : State} {x : Slot} (hs : Keeps que s) : Keeps que (State.putSlot s x) := by
  unfold State.putSlot
  dsimp only
  repeat' first
    | with_reducible assumption
    | (simp only [keeps_mk]; with_reducible refine Keeps.parts ?_)

theorem State.blockSlot_keeps {s : State} {x : Slot} {a : Nat} (hs : Keeps que s) : Keeps que (State.blockSlot s x a) := by
  unfold State.blockSlot
  repeat' first
    | with_reducible assumption
    | with_reducible apply State.queueFault_keeps
    | with_reducible apply State.putSlot_keeps

theorem execReleaseWordPoll_keeps {s : State} (hs : Keeps que s) : KeepsOut que (execReleaseWordPoll s) := by
  unfold execReleaseWordPoll
  try dsimp only
  repeat' first
    | with_reducible assumption
    | with_reducible apply State.readMem_keeps
    | with_reducible apply State.ingestEvent_keeps
    | (simp only [keeps_mk]; with_reducible refine Keeps.parts ?_)
    | with_reducible apply keepsOut_next
    | with_reducible refine keeps_ite ?_ ?_
    | split
    | intro _
    | with_reducible refine keeps_get (by assumption) ?_
    | with_reducible refine keeps_snd (by assumption) ?_
    | with_reducible refine keeps_fst (by assumption) ?_

theorem execIndexEntryRead_keeps {slot : Nat} {outcome : ReqOutcome} {s : State}
    (hs : Keeps que s) : KeepsOut que (execIndexEntryRead slot outcome s) := by
  unfold execIndexEntryRead
  dsimp only
  repeat' first
    | with_reducible assumption
    | with_reducible apply State.tlbRange_keeps
    | with_reducible apply State.ingestEvent_keeps
    | with_reducible apply State.putSlot_keeps
    | with_reducible apply State.blockSlot_keeps
    | (simp only [keeps_mk]; with_reducible refine Keeps.parts ?_)
    | with_reducible apply keepsOut_next
    | split

theorem execSampleCacheLookup_keeps {look : CacheLook} {s : State}
    (hs : Keeps que s) : KeepsOut que (execSampleCacheLookup look s) := by
  unfold execSampleCacheLookup
  try dsimp only
  repeat' first
    | with_reducible assumption
    | with_reducible apply State.spoil_keeps
    | with_reducible apply State.readMem_keeps
    | with_reducible apply State.tlbRange_keeps
    | with_reducible apply State.ingestEvent_keeps
    | with_reducible apply State.putSlot_keeps
    | (simp only [keeps_mk]; with_reducible refine Keeps.parts ?_)
    | with_reducible apply keepsOut_next
    | with_reducible refine keeps_ite ?_ ?_
    | split
    | with_reducible refine keeps_get (by assumption) ?_
    | with_reducible refine keeps_snd (by assumption) ?_
    | with_reducible refine keeps_fst (by assumption) ?_

theorem State.fillLine_keeps {s : State} {x : Slot} {src : List Byte} (hs : Keeps que s) : Keeps que (s.fillLine x src).1 := by
  unfold State.fillLine
  dsimp only
  split
  · exact hs
  · split
    · exact hs
    · exact State.writeMem_keeps (State.tlbRange_keeps hs)

theorem execSampleFetch_keeps {slot : Nat} {outcome : ReqOutcome} {s : State}
    (hs : Keeps que s) : KeepsOut que (execSampleFetch slot outcome s) := by
  unfold execSampleFetch
  try dsimp only
  repeat' first
    | with_reducible assumption
    | with_reducible apply State.spoil_keeps
    | with_reducible apply State.readMem_keeps
    | with_reducible apply State.tlbRange_keeps
    | with_reducible apply State.ingestEvent_keeps
    | with_reducible apply State.putSlot_keeps
    | with_reducible apply State.blockSlot_keeps
    | with_reducible apply State.fillLine_keeps
    | with_reducible refine MemSys.Sound.same (Keeps.sound (q := que) ?_) rfl rfl rfl rfl rfl rfl
    | (simp only [keeps_mk]; with_reducible refine Keeps.parts ?_)
    | with_reducible apply keepsOut_next
    | with_reducible refine keeps_ite ?_ ?_
    | split
    | with_reducible refine keeps_get (by assumption) ?_
    | with_reducible refine keeps_snd (by assumption) ?_
    | with_reducible refine keeps_fst (by assumption) ?_

theorem State.ingestWrite_keeps {s : State} {rid : Nat} {ws : List (Nat × List Byte)} (hs : Keeps que s) :
    (∀ t, s.ingestWrite rid ws = .inl t → Keeps que t) ∧ ∀ t n, s.ingestWrite rid ws = .inr (t, n) → Keeps que t := by
  induction ws generalizing s with
  | nil => exact ⟨fun t e => Sum.inl.inj e ▸ hs, fun t n e => nomatch e⟩
  | cons w ws ih =>
    obtain ⟨off, bs⟩ := w
    unfold State.ingestWrite
    split <;> rename_i heq <;> have h := keeps_fst heq (State.regionPut_keeps hs)
    · exact ih h
    · exact ⟨fun t e => (nomatch e), fun t n e => by cases e; exact h⟩
    · exact ⟨fun t e => (nomatch e), fun t n e => by cases e; exact h⟩

theorem State.slotBlocks_keeps {s : State} {x : Slot} {r : Shaped} {twin : Bool} {n : Nat}
    (hs : Keeps que s) : Keeps que (State.slotBlocks s x r twin n) := by
  unfold State.slotBlocks
  try dsimp only
  repeat' first
    | with_reducible assumption
    | with_reducible apply State.noteTwin_keeps
    | with_reducible apply State.putSlot_keeps
    | (simp only [keeps_mk]; with_reducible refine Keeps.parts ?_)
    | with_reducible refine keeps_ite ?_ ?_
    | with_reducible refine keeps_foldl _ ?_ ?_
    | split
    | intro _

theorem State.slotWritten_keeps {s : State} {x : Slot} {r : Shaped} (hs : Keeps que s) : Keeps que (State.slotWritten s x r) := by
  unfold State.slotWritten
  try dsimp only
  repeat' first
    | with_reducible assumption
    | with_reducible apply TaskRun.done_keeps
    | with_reducible apply State.putSlot_keeps
    | (simp only [keeps_mk]; with_reducible refine Keeps.parts ?_)
    | intro _

theorem execSampleDecode_keeps {slot : Nat} {slice : Fin 32} {s : State} (hs : Keeps que s) :
    KeepsOut que (execSampleDecode slot slice s) := by
  unfold execSampleDecode
  split
  · exact keepsOut_next hs
  · dsimp only
    split
    · exact keepsOut_next hs
    · split
      · exact keepsOut_next (keeps_ite (State.domainRequest_keeps hs) hs)
      · split <;> rename_i heq
        · exact keepsOut_next (State.ingestEvent_keeps ((State.ingestWrite_keeps hs).2 _ _ heq))
        · have h (x r t n) := State.slotBlocks_keeps (x := x) (r := r) (twin := t) (n := n) ((State.ingestWrite_keeps hs).1 _ heq)
          generalize (if s.job.twinRegion _ then s.twinSpace _ else _ : Nat) = n
          split
          · exact keepsOut_next (h _ _ _ _)
          · split <;> rename_i heq
            · exact keepsOut_next (State.ingestEvent_keeps ((State.ingestWrite_keeps (h _ _ _ _)).2 _ _ heq))
            · have h := (State.ingestWrite_keeps (h _ _ _ _)).1 _ heq
              split <;> rename_i heq
              · exact keepsOut_next (State.ingestEvent_keeps ((State.ingestWrite_keeps h).2 _ _ heq))
              · exact keepsOut_next (State.idleSlices_keeps (State.slotWritten_keeps ((State.ingestWrite_keeps h).1 _ heq)))

theorem execSlotComplete_keeps {slot : Nat} {s : State} (hs : Keeps que s) : KeepsOut que (execSlotComplete slot s) := by
  unfold execSlotComplete
  dsimp only
  repeat' first
    | with_reducible assumption
    | with_reducible apply State.addTokenV_keeps
    | (simp only [keeps_mk]; with_reducible refine Keeps.parts ?_)
    | with_reducible apply keepsOut_next
    | split

end Sys2Proof.Machine
end

