-- ==== Sys2Proof/Laws/KeepsWatch.lean ====
section
/-! SUPPORT. What `Machine/Watch.lean` changes keeps the state sound and its queue as it is. -/

namespace Sys2Proof.Machine

variable {que : List Instr}

theorem State.advanceWaiting_keeps {s : State} {p : Fin 20} {t : Nat} (hs : Keeps que s) : Keeps que (s.advanceWaiting p t) :=
  State.advanceFor_closed keeps_closed hs

theorem execTwaitComplete_keeps {core : Fin 20} {strand : Fin 128} {s : State}
    (hs : Keeps que s) : KeepsOut que (execTwaitComplete core strand s) := by
  unfold execTwaitComplete
  try dsimp only
  repeat' first
    | with_reducible assumption
    | with_reducible apply State.modV_keeps
    | with_reducible exact fun _ h => h
    | with_reducible apply State.noteToken_keeps
    | with_reducible apply State.commit_keeps
    | with_reducible apply State.advanceWaiting_keeps
    | (simp only [keeps_mk]; with_reducible refine Keeps.parts ?_)
    | with_reducible apply keepsOut_next
    | with_reducible refine keeps_ite ?_ ?_
    | split
    | with_reducible refine keeps_get (by assumption) ?_
    | with_reducible refine keeps_snd (by assumption) ?_
    | with_reducible refine keeps_fst (by assumption) ?_

theorem execClaimGrant_keeps {core : Fin 20} {strand : Fin 128} {s : State}
    (hs : Keeps que s) : KeepsOut que (execClaimGrant core strand s) := by
  unfold execClaimGrant
  try dsimp only
  repeat' first
    | with_reducible assumption
    | with_reducible apply State.modStrand_keeps
    | with_reducible apply State.advanceWaiting_keeps
    | (simp only [keeps_mk]; with_reducible refine Keeps.parts ?_)
    | with_reducible apply keepsOut_next
    | with_reducible refine keeps_ite ?_ ?_
    | split
    | intro _
    | with_reducible refine keeps_get (by assumption) ?_
    | with_reducible refine keeps_snd (by assumption) ?_
    | with_reducible refine keeps_fst (by assumption) ?_

theorem Core.settle_sound {k : CycleCodes} {per n top : Nat} {c : Core} (h : c.Fits top) : (Core.settle k per n c).Fits top := by
  induction n generalizing c with
  | zero => exact h
  | succ n ih =>
    unfold Core.settle
    split
    · exact h
    · exact ih (Core.nextCycle_sound h)

theorem State.drainedBy_keeps {s : State} {p : Fin 20} {quiet : Nat} (hs : Keeps que s) : KeepsO que (State.drainedBy s p quiet) := by
  unfold State.drainedBy
  try dsimp only
  repeat' first
    | with_reducible assumption
    | with_reducible apply State.modCore_keeps
    | exact fun _ h => Core.endTokens_sound (Core.settle_sound h)
    | with_reducible apply State.advanceWaiting_keeps
    | (simp only [keeps_mk]; with_reducible refine Keeps.parts ?_)
    | with_reducible apply keepsO_some
    | with_reducible apply keepsO_none
    | with_reducible refine keeps_ite ?_ ?_
    | with_reducible refine keeps_foldl _ ?_ ?_
    | split
    | with_reducible refine keeps_get (by assumption) ?_
    | with_reducible refine keeps_snd (by assumption) ?_
    | with_reducible refine keeps_fst (by assumption) ?_

theorem State.atPoint_keeps {s : State} {p : Fin 20} (hs : Keeps que s) : KeepsO que (State.atPoint s p) := by
  unfold State.atPoint
  try dsimp only
  repeat' first
    | with_reducible assumption
    | with_reducible apply State.drainedBy_keeps
    | (simp only [keeps_mk]; with_reducible refine Keeps.parts ?_)
    | with_reducible apply keepsO_some
    | with_reducible apply keepsO_none

theorem State.quiesced_keeps {s : State} {p : Fin 20} (hs : Keeps que s) : KeepsO que (State.quiesced s p) := by
  unfold State.quiesced
  try dsimp only
  repeat' first
    | with_reducible assumption
    | with_reducible apply State.drainedBy_keeps
    | (simp only [keeps_mk]; with_reducible refine Keeps.parts ?_)
    | with_reducible apply keepsO_some
    | with_reducible apply keepsO_none

theorem execMigratePointReached_keeps {core : Fin 20} {s : State} (hs : Keeps que s) : KeepsOut que (execMigratePointReached core s) := by
  unfold execMigratePointReached
  try dsimp only
  repeat' first
    | with_reducible assumption
    | with_reducible apply State.modCore_keeps
    | with_reducible apply State.modV_keeps
    | exact fun _ h => VCore.resumeMigrate_sound h
    | with_reducible refine Core.modV_sound ?_ ?_
    | exact fun _ h => Core.stop_sound h
    | with_reducible apply State.atPoint_keeps
    | (simp only [keeps_mk]; with_reducible refine Keeps.parts ?_)
    | with_reducible apply keepsOut_next
    | with_reducible refine keeps_ite ?_ ?_
    | split
    | intro _
    | with_reducible refine keeps_get (by assumption) ?_
    | with_reducible refine keeps_snd (by assumption) ?_
    | with_reducible refine keeps_fst (by assumption) ?_

theorem execDeadlock_keeps {core : Fin 20} {strand : Fin 128} {waitedMs : Nat} {s : State}
    (hs : Keeps que s) : KeepsOut que (execDeadlock core strand waitedMs s) := by
  unfold execDeadlock
  dsimp only
  repeat' first
    | with_reducible assumption
    | with_reducible apply State.modStrand_keeps
    | with_reducible apply State.fault_keeps
    | with_reducible apply keepsOut_next
    | split

end Sys2Proof.Machine
end

