-- ==== Sys2Proof/Laws/KeepsChecking.lean ====
section
/-! SUPPORT. What `Machine/Checking.lean` changes keeps the state sound and its queue as it is. -/

namespace Sys2Proof.Machine

variable {que : List Instr}

theorem execChkset_keeps {core : Fin 20} {strand : Fin 128} {ops : BitVec 118} {s : State}
    (hs : Keeps que s) : KeepsOut que (execChkset core strand ops s) := by
  unfold execChkset
  try dsimp only
  repeat' first
    | with_reducible assumption
    | with_reducible apply State.modV_keeps
    | with_reducible apply State.fault_keeps
    | with_reducible apply State.readNow_keeps
    | with_reducible apply State.audit_keeps
    | with_reducible apply State.commit_keeps
    | with_reducible apply State.issue_keeps
    | (simp only [keeps_mk]; with_reducible refine Keeps.parts ?_)
    | with_reducible apply keepsOut_next
    | split
    | intro _
    | with_reducible refine keeps_get (by assumption) ?_
    | with_reducible refine keeps_snd (by assumption) ?_
    | with_reducible refine keeps_fst (by assumption) ?_

theorem State.postPlacement_keeps {s : State} {num : Nat} {old : Nat} {new : Nat} {point : Nat} {step : Nat}
    (hs : Keeps que s) : Keeps que (State.postPlacement s num old new point step) := by
  unfold State.postPlacement
  repeat' first
    | with_reducible assumption
    | with_reducible apply State.post_keeps

theorem State.moveV_keeps {s : State} {src : Fin 20} {dst : Fin 20} {left : CoreKind}
    (hs : Keeps que s) : Keeps que (State.moveV s src dst left) := by
  have hc := Core.endTokens_sound (hs.core src)
  unfold State.moveV
  dsimp only
  split
  · exact hs
  · rename_i v hv
    repeat' first
      | with_reducible assumption
      | with_reducible apply State.powerCore_keeps
      | with_reducible apply State.setCore_keeps
      | exact holds_none
      | exact ⟨sound_some (Core.leaveV_sound (hc.resident v hv)), hc.partner, sound_none, VCore.preload_length, Nat.zero_le _⟩
      | with_reducible apply State.applyHeld_keeps
      | with_reducible apply State.postPlacement_keeps
      | split

theorem State.postLeft_keeps {s : State} {p : Fin 20} {reason : Nat}
    (hs : Keeps que s) : Keeps que (State.postLeft s p reason) := by
  unfold State.postLeft
  dsimp only
  repeat' first
    | with_reducible assumption
    | with_reducible apply State.post_keeps
    | with_reducible refine keeps_ite ?_ ?_

theorem State.takeOut_keeps {s : State} {p : Fin 20} {reason : Nat}
    (hs : Keeps que s) : Keeps que (State.takeOut s p reason) := by
  unfold State.takeOut
  dsimp only
  repeat' first
    | with_reducible assumption
    | with_reducible apply State.modCore_keeps
    | exact fun _ _ => holds_none
    | with_reducible apply State.postLeft_keeps
    | (simp only [keeps_mk]; with_reducible refine Keeps.parts ?_)

theorem State.startTest_keeps {s : State} {p : Fin 20} {k : Package} {home : Option Nat}
    (hs : Keeps que s) : Keeps que (State.startTest s p k home) := by
  unfold State.startTest
  dsimp only
  repeat' first
    | with_reducible assumption
    | with_reducible apply State.powerCore_keeps
    | with_reducible apply State.fresh_keeps
    | with_reducible apply State.modCore_keeps
    | exact fun _ h => ⟨sound_some testVCore_sound, h.partner, h.saved, VCore.preload_length, Nat.zero_le _⟩

theorem State.endForcedHold_keeps {s : State} {p : Fin 20} (hs : Keeps que s) : Keeps que (State.endForcedHold s p) := by
  unfold State.endForcedHold
  try dsimp only
  repeat' first
    | with_reducible assumption
    | with_reducible apply State.modCore_keeps
    | with_reducible apply State.modV_keeps
    | exact fun _ h => VCore.resumeStep_sound h
    | with_reducible refine Core.modV_sound ?_ ?_
    | with_reducible apply State.applyHeld_keeps
    | with_reducible apply State.resumeAll_keeps
    | (simp only [keeps_mk]; with_reducible refine Keeps.parts ?_)
    | with_reducible refine keeps_ite ?_ ?_
    | split
    | intro _

theorem State.forceTest_keeps {s : State} {p : Fin 20} (hs : Keeps que s) : Keeps que (State.forceTest s p) := by
  have h1 : Keeps que (s.modCore p fun c => { c with stepHold := false }) := State.modCore_keeps hs fun _ h => h
  unfold State.forceTest
  dsimp only
  split
  · exact hs
  · split
    · rename_i hv
      split
      · exact State.startTest_keeps (State.moveV_keeps (State.pauseAll_keeps h1))
      · exact State.startTest_keeps (State.postPlacement_keeps (State.modCore_keeps (State.pauseAll_keeps h1) fun _ h =>
          ⟨sound_none, h.partner, sound_some (Core.leaveV_sound ((h1.core p).resident _ hv)), h.lines, h.tasks⟩))
    · exact State.endForcedHold_keeps h1

theorem State.startForced_keeps {s : State} (hs : Keeps que s) : Keeps que (State.startForced s) := by
  unfold State.startForced
  try dsimp only
  repeat' first
    | with_reducible assumption
    | with_reducible apply State.forceTest_keeps
    | (simp only [keeps_mk]; with_reducible refine Keeps.parts ?_)
    | with_reducible refine keeps_ite ?_ ?_
    | with_reducible refine keeps_foldl _ ?_ ?_
    | split
    | intro _

theorem State.startTests_keeps {s : State} (hs : Keeps que s) : Keeps que (State.startTests s) := by
  unfold State.startTests
  try dsimp only
  repeat' first
    | with_reducible assumption
    | with_reducible apply State.startTest_keeps
    | with_reducible apply State.startForced_keeps
    | (simp only [keeps_mk]; with_reducible refine Keeps.parts ?_)
    | with_reducible refine keeps_ite ?_ ?_
    | split
    | intro _
    | with_reducible refine keeps_get (by assumption) ?_
    | with_reducible refine keeps_snd (by assumption) ?_
    | with_reducible refine keeps_fst (by assumption) ?_

theorem State.queueArb_keeps {s : State} {x : Arb} (hs : Keeps que s) : Keeps que (s.queueArb x) := by
  unfold State.queueArb
  dsimp only
  simp only [keeps_mk]
  exact Keeps.parts hs

theorem execCheckerVerdict_keeps {core : Fin 20} {s : State} (hs : Keeps que s) : KeepsOut que (execCheckerVerdict core s) := by
  unfold execCheckerVerdict
  dsimp only
  repeat' first
    | with_reducible assumption
    | with_reducible apply State.setCore_keeps
    | with_reducible apply State.modCore_keeps
    | with_reducible exact fun _ h => h
    | exact fun _ h => Core.stop_sound h
    | exact hs.core core
    | with_reducible apply State.post_keeps
    | with_reducible apply State.pauseAll_keeps
    | with_reducible apply State.advanceWaiting_keeps
    | with_reducible apply State.queueArb_keeps
    | (simp only [keeps_mk]; with_reducible refine Keeps.parts ?_)
    | with_reducible apply keepsOut_next
    | split

theorem State.arbDone_keeps {s : State} {core : Fin 20} {a : Arb} {run2 : List Byte} {run3 : Option (List Byte)} {spare : Nat} {outcome : Nat}
    (hs : Keeps que s) : Keeps que (State.arbDone s core a run2 run3 spare outcome) := by
  unfold State.arbDone
  try dsimp only
  repeat' first
    | with_reducible assumption
    | with_reducible apply State.modCore_keeps
    | with_reducible apply State.modV_keeps
    | with_reducible exact fun _ h => h
    | exact fun _ h => VCore.writeTile_sound h
    | exact fun _ h => Core.leave_sound h
    | with_reducible apply State.post_keeps
    | with_reducible apply State.pauseAll_keeps
    | with_reducible apply State.charge_keeps
    | with_reducible apply State.leave_keeps
    | with_reducible apply State.startTests_keeps
    | (simp only [keeps_mk]; with_reducible refine Keeps.parts ?_)
    | with_reducible refine keeps_ite ?_ ?_
    | split

theorem State.scratchOf_keeps {s t : State} {p : Fin 20} {r : Recheck} {out : List Byte} (hs : Keeps que s)
    (e : s.scratchOf p r = some (t, out)) : Keeps que t := by
  unfold State.scratchOf at e
  split at e
  · contradiction
  · split at e
    · contradiction
    · obtain ⟨u, hu, e⟩ := Option.bind_eq_some_iff.1 e
      obtain ⟨v, -, e⟩ := Option.map_eq_some_iff.1 e
      cases e
      exact State.quiesced_keeps hs _ hu

theorem execRecheckRun_keeps {core : Fin 20} {phase : RunPhase} {s : State}
    (hs : Keeps que s) : KeepsOut que (execRecheckRun core phase s) := by
  unfold execRecheckRun
  try dsimp only
  repeat' first
    | with_reducible assumption
    | with_reducible refine State.scratchOf_keeps ?_ (by assumption)
    | with_reducible apply State.modCore_keeps
    | with_reducible apply State.modV_keeps
    | with_reducible exact fun _ h => h
    | with_reducible apply State.quiesced_keeps
    | with_reducible apply State.arbDone_keeps
    | (simp only [keeps_mk]; with_reducible refine Keeps.parts ?_)
    | with_reducible apply keepsOut_next
    | with_reducible refine keeps_ite ?_ ?_
    | split
    | with_reducible refine keeps_get (by assumption) ?_
    | with_reducible refine keeps_snd (by assumption) ?_
    | with_reducible refine keeps_fst (by assumption) ?_

theorem execThirdRun_keeps {core : Fin 20} {phase : RunPhase} {s : State}
    (hs : Keeps que s) : KeepsOut que (execThirdRun core phase s) := by
  unfold execThirdRun
  try dsimp only
  repeat' first
    | with_reducible assumption
    | with_reducible refine State.scratchOf_keeps ?_ (by assumption)
    | with_reducible apply State.fresh_keeps
    | with_reducible apply State.modCore_keeps
    | with_reducible apply State.modV_keeps
    | exact fun _ h => VCore.addFlags_sound h
    | exact fun _ _ => Core.afterReset_sound
    | exact fun _ _ => ⟨sound_some Recheck.context_sound, sound_none, sound_none, VCore.preload_length, Nat.zero_le _⟩
    | with_reducible apply State.powerCore_keeps
    | with_reducible apply TaskRun.flags_keeps
    | with_reducible apply State.arbDone_keeps
    | (simp only [keeps_mk]; with_reducible refine Keeps.parts ?_)
    | with_reducible apply keepsOut_next
    | with_reducible refine keeps_ite ?_ ?_
    | split
    | with_reducible refine keeps_get (by assumption) ?_
    | with_reducible refine keeps_snd (by assumption) ?_
    | with_reducible refine keeps_fst (by assumption) ?_

theorem execChkResume_keeps {core : Fin 20} {s : State} (hs : Keeps que s) : KeepsOut que (execChkResume core s) := by
  unfold execChkResume
  repeat' first
    | with_reducible assumption
    | with_reducible apply State.modCore_keeps
    | with_reducible exact fun _ h => h
    | with_reducible apply keepsOut_next
    | split

theorem State.tryAgain_keeps {s : State} {p : Fin 20} {cause : Nat}
    (hs : Keeps que s) : Keeps que (State.tryAgain s p cause) := by
  unfold State.tryAgain
  dsimp only
  repeat' first
    | with_reducible assumption
    | with_reducible apply State.modCore_keeps
    | with_reducible exact fun _ h => h
    | with_reducible apply State.postFault_keeps
    | with_reducible apply State.rollbackFault_keeps
    | with_reducible apply State.resubmit_keeps
    | with_reducible refine keeps_ite ?_ ?_

theorem State.answerFault_keeps {s : State} {p : Fin 20} {ended : Bool} (hs : Keeps que s) : Keeps que (State.answerFault s p ended) := by
  unfold State.answerFault
  try dsimp only
  repeat' first
    | with_reducible assumption
    | with_reducible apply State.modCore_keeps
    | with_reducible exact fun _ h => h
    | with_reducible apply State.pauseAll_keeps
    | with_reducible apply State.postFault_keeps
    | with_reducible apply State.chargeFault_keeps
    | with_reducible apply State.rollbackFault_keeps
    | with_reducible apply State.tryAgain_keeps
    | (simp only [keeps_mk]; with_reducible refine Keeps.parts ?_)
    | with_reducible refine keeps_ite ?_ ?_
    | split
    | with_reducible refine keeps_get (by assumption) ?_
    | with_reducible refine keeps_snd (by assumption) ?_
    | with_reducible refine keeps_fst (by assumption) ?_

theorem execFaultResubmission_keeps {core : Fin 20} {s : State}
    (hs : Keeps que s) : KeepsOut que (execFaultResubmission core s) := by
  unfold execFaultResubmission
  try dsimp only
  repeat' first
    | with_reducible assumption
    | with_reducible apply State.modCore_keeps
    | with_reducible exact fun _ h => h
    | with_reducible apply State.answerFault_keeps
    | (simp only [keeps_mk]; with_reducible refine Keeps.parts ?_)
    | with_reducible apply keepsOut_next
    | with_reducible refine keeps_ite ?_ ?_
    | split
    | with_reducible refine keeps_get (by assumption) ?_
    | with_reducible refine keeps_snd (by assumption) ?_
    | with_reducible refine keeps_fst (by assumption) ?_

theorem execCoreFaultClear_keeps {core : Fin 20} {s : State} (hs : Keeps que s) : KeepsOut que (execCoreFaultClear core s) := by
  unfold execCoreFaultClear
  repeat' first
    | with_reducible assumption
    | with_reducible apply State.modCore_keeps
    | exact fun _ h => Core.clearFault_sound h
    | with_reducible apply keepsOut_next

theorem execQuarantine_keeps {core : Fin 20} {s : State} (hs : Keeps que s) : KeepsOut que (execQuarantine core s) := by
  unfold execQuarantine
  dsimp only
  repeat' first
    | with_reducible assumption
    | with_reducible apply State.moveV_keeps
    | with_reducible apply State.takeOut_keeps
    | with_reducible apply keepsOut_next
    | split

theorem execOversubscriptionSwap_keeps {core : Fin 20} {s : State} (hs : Keeps que s) : KeepsOut que (execOversubscriptionSwap core s) := by
  unfold execOversubscriptionSwap
  try dsimp only
  repeat' first
    | with_reducible assumption
    | with_reducible apply State.modCore_keeps
    | exact fun _ h => ⟨sound_some ((hs.core core).partner _ (by assumption)), sound_map h.resident fun _ hv => Core.leaveV_sound hv, h.saved,
        VCore.preload_length, h.tasks⟩
    | with_reducible apply State.applyHeld_keeps
    | with_reducible apply TaskRun.done_keeps
    | with_reducible apply State.quiesced_keeps
    | with_reducible apply State.postPlacement_keeps
    | (simp only [keeps_mk]; with_reducible refine Keeps.parts ?_)
    | with_reducible apply keepsOut_next
    | with_reducible refine keeps_ite ?_ ?_
    | split
    | intro _
    | with_reducible refine keeps_get (by assumption) ?_
    | with_reducible refine keeps_snd (by assumption) ?_
    | with_reducible refine keeps_fst (by assumption) ?_

theorem execMoveToSpare_keeps {src : Fin 20} {dst : Fin 20} {s : State}
    (hs : Keeps que s) : KeepsOut que (execMoveToSpare src dst s) := by
  unfold execMoveToSpare
  dsimp only
  repeat' first
    | with_reducible assumption
    | with_reducible apply State.moveV_keeps
    | with_reducible apply State.startTests_keeps
    | with_reducible apply keepsOut_next
    | split

end Sys2Proof.Machine
end

