-- ==== Sys2Proof/Laws/KeepsCairn.lean ====
section
/-! SUPPORT. What `Machine/Cairn.lean` changes keeps the state sound and its queue as it is. -/

namespace Sys2Proof.Machine

variable {que : List Instr}

theorem State.sendRequest_keeps {s : State} {request : Nat} {bucket : Nat} {level : Nat}
    (hs : Keeps que s) : Keeps que (State.sendRequest s request bucket level).2 := by
  unfold State.sendRequest
  dsimp only
  repeat' first
    | with_reducible assumption
    | with_reducible apply State.flood_keeps
    | with_reducible apply State.requestBoundary_keeps

theorem State.sendDrain_keeps {s : State} {b : Nat} (hs : Keeps que s) : Keeps que (State.sendDrain s b) := by
  unfold State.sendDrain
  dsimp only
  repeat' first
    | with_reducible assumption
    | with_reducible apply State.sendRequest_keeps
    | (simp only [keeps_mk]; with_reducible refine Keeps.parts ?_)
    | with_reducible refine keeps_ite ?_ ?_

theorem State.retireCore_keeps {s : State} {p : Fin 20} {reason : Nat}
    (hs : Keeps que s) : Keeps que (State.retireCore s p reason) := by
  unfold State.retireCore
  dsimp only
  repeat' first
    | with_reducible assumption
    | with_reducible apply State.modCore_keeps
    | exact fun _ h => Core.leave_sound h
    | with_reducible apply State.takeOut_keeps
    | with_reducible refine keeps_ite ?_ ?_

theorem State.bucketEntered_keeps {s : State} {b : Nat} {old : Bucket}
    (hs : Keeps que s) : Keeps que (State.bucketEntered s b old) := by
  unfold State.bucketEntered
  dsimp only
  repeat' first
    | with_reducible assumption
    | with_reducible apply State.post_keeps
    | with_reducible apply State.sendRequest_keeps
    | with_reducible apply State.sendDrain_keeps
    | with_reducible apply State.retireCore_keeps
    | (simp only [keeps_mk]; with_reducible refine Keeps.parts ?_)
    | with_reducible refine keeps_ite ?_ ?_

theorem execCairnTick_keeps {s : State} (hs : Keeps que s) : KeepsOut que (execCairnTick s) := by
  unfold execCairnTick
  dsimp only
  repeat' first
    | with_reducible assumption
    | with_reducible apply State.charge_keeps
    | with_reducible apply State.sendDrain_keeps
    | with_reducible apply State.bucketEntered_keeps
    | (simp only [keeps_mk]; with_reducible refine Keeps.parts ?_)
    | with_reducible refine keeps_foldl _ ?_ ?_
    | with_reducible apply keepsOut_next
    | with_reducible refine keeps_ite ?_ ?_
    | intro _

theorem State.saveHealth_keeps {s : State} (hs : Keeps que s) : Keeps que (State.saveHealth s) := by
  unfold State.saveHealth
  dsimp only
  repeat' first
    | with_reducible assumption
    | (simp only [keeps_mk]; with_reducible refine Keeps.parts ?_)

theorem execHealthRecordSave_keeps {s : State} (hs : Keeps que s) : KeepsOut que (execHealthRecordSave s) := by
  unfold execHealthRecordSave
  repeat' first
    | with_reducible assumption
    | with_reducible apply State.saveHealth_keeps
    | with_reducible apply keepsOut_next

theorem State.takeRequest_keeps {s : State} {port : Nat} {ctl : Ctl} {payload : List Byte} {request : Nat}
    (hs : Keeps que s) : Keeps que (State.takeRequest s port ctl payload request) := by
  unfold State.takeRequest
  dsimp only
  repeat' first
    | with_reducible assumption
    | with_reducible apply State.requestBoundary_keeps
    | with_reducible apply State.relayCtl_keeps
    | (simp only [keeps_mk]; with_reducible refine Keeps.partsSeen ?_ (Fabric.remember_seen _ _ _))
    | with_reducible refine keeps_ite ?_ ?_

theorem execEarlyCheckpointRequest_keeps {port : Fin 6} {ctl : Ctl} {payload : List Byte} {s : State}
    (hs : Keeps que s) : KeepsOut que (execEarlyCheckpointRequest port ctl payload s) := by
  unfold execEarlyCheckpointRequest
  repeat' first
    | with_reducible assumption
    | with_reducible apply State.takeRequest_keeps
    | with_reducible apply keepsOut_next

theorem execDrainAndReplacementRequest_keeps {port : Fin 6} {ctl : Ctl} {payload : List Byte} {s : State}
    (hs : Keeps que s) : KeepsOut que (execDrainAndReplacementRequest port ctl payload s) := by
  unfold execDrainAndReplacementRequest
  repeat' first
    | with_reducible assumption
    | with_reducible apply State.takeRequest_keeps
    | with_reducible apply keepsOut_next

theorem State.takePackage_keeps {s : State} {bs : List Byte} (hs : Keeps que s) : Keeps que (State.takePackage s bs).2 := by
  unfold State.takePackage
  dsimp only
  repeat' first
    | with_reducible assumption
    | with_reducible apply State.post_keeps
    | with_reducible apply State.startTests_keeps
    | (simp only [keeps_mk]; with_reducible refine Keeps.parts ?_)
    | split

theorem State.floodPackage_keeps {s : State} {bs : List Byte} (hs : Keeps que s) : Keeps que (State.floodPackage s bs) := by
  unfold State.floodPackage
  repeat' first
    | with_reducible assumption
    | with_reducible apply State.flood_keeps
    | with_reducible refine keeps_foldl _ ?_ ?_
    | intro _

theorem execFieldTestChunk_keeps {port : Fin 6} {ctl : Ctl} {payload : List Byte} {s : State}
    (hs : Keeps que s) : KeepsOut que (execFieldTestChunk port ctl payload s) := by
  unfold execFieldTestChunk
  split
  · exact keepsOut_next hs
  · extract_lets t id version index count len mine known a held others src bs
    have hs' : Keeps que t := keeps_mk.2 (hs.partsSeen (Fabric.remember_seen _ _ _))
    clear_value t
    have hb := hs'.bounded.assemblies
    split
    · exact keepsOut_next hs'
    · rename_i hfull
      have ho : (t.chk.assemblies.filter fun a => !mine a).length ≤ 3 := by
        cases hk : known with
        | none =>
          simp only [hk, Option.isNone_none, Bool.true_and, Bool.or_eq_true, decide_eq_true_eq, not_or] at hfull
          exact Nat.le_trans (List.length_filter_le _ _) (by omega)
        | some a =>
          have ha := List.mem_of_find?_eq_some hk
          have hm := List.find?_some hk
          have := List.length_filter_lt_length_iff_exists (p := fun a => !mine a) (l := t.chk.assemblies)
          have := this.2 ⟨a, ha, by simp [hm]⟩
          omega
      have ho : others.length ≤ 3 := ho
      split
      · exact keepsOut_next hs'
      · split
        · exact keepsOut_next (keeps_mk.2 (hs'.partsAssemblies (by simp only [List.length_append, List.length_singleton]; omega)))
        · split
          rename_i heq
          have h := keeps_snd heq (State.takePackage_keeps (keeps_mk.2 (hs'.partsAssemblies (Nat.le_succ_of_le ho))))
          exact keepsOut_next (keeps_ite (State.floodPackage_keeps h) h)

theorem execPackageAssemblyTimeout_keeps {package : DWord} {version : Word} {s : State}
    (hs : Keeps que s) : KeepsOut que (execPackageAssemblyTimeout package version s) :=
  keepsOut_next (keeps_mk.2 (hs.partsAssemblies (Nat.le_trans (List.length_filter_le _ _) hs.bounded.assemblies)))

theorem State.markTested_keeps {s : State} {p : Fin 20} {t : FieldTest} {passed : Bool}
    (hs : Keeps que s) : Keeps que (State.markTested s p t passed) := by
  unfold State.markTested
  dsimp only
  repeat' first
    | with_reducible assumption
    | (simp only [keeps_mk]; with_reducible refine Keeps.parts ?_)

theorem State.postTest_keeps {s : State} {p : Fin 20} {t : FieldTest} {result : Nat} {digest : List Byte}
    (hs : Keeps que s) : Keeps que (State.postTest s p t result digest) := by
  unfold State.postTest
  try dsimp only
  repeat' first
    | with_reducible assumption
    | with_reducible apply State.post_keeps
    | (simp only [keeps_mk]; with_reducible refine Keeps.parts ?_)

theorem State.endForced_keeps {s : State} {p : Fin 20} {failed : Bool} {home : Nat}
    (hs : Keeps que s) : Keeps que (State.endForced s p failed home) := by
  unfold State.endForced
  dsimp only
  repeat' first
    | with_reducible assumption
    | with_reducible apply State.powerCore_keeps
    | with_reducible apply State.setCore_keeps
    | with_reducible apply State.modCore_keeps
    | exact fun _ h => ⟨sound_some ((hs.core p).saved _ (by assumption)), h.partner, sound_none, VCore.preload_length, h.tasks⟩
    | exact fun _ h => ⟨h.resident, sound_none, sound_none, h.lines, h.tasks⟩
    | exact ⟨sound_some ((hs.core p).saved _ (by assumption)), (hs.core p).partner, sound_none, VCore.preload_length, Nat.zero_le _⟩
    | with_reducible apply State.rollbackFault_keeps
    | with_reducible apply State.postPlacement_keeps
    | with_reducible apply State.endForcedHold_keeps
    | with_reducible refine keeps_ite ?_ ?_
    | split

theorem State.endTest_keeps {s : State} {p : Fin 20} {t : FieldTest} {result : Nat} {digest : List Byte}
    (hs : Keeps que s) : Keeps que (State.endTest s p t result digest) := by
  have hk : Keeps que (((s.markTested p t (decide (result = 1))).setCore p
      { (s.core p).afterReset (s.core p).kind with
          saved := (s.core p).saved, partner := (s.core p).partner,
          pooled := (s.core p).pooled || (decide (result = 1) && (s.core p).saved.isNone) }).postTest p t result digest) := by
    refine State.postTest_keeps (State.setCore_keeps (State.markTested_keeps hs) ?_)
    exact ⟨sound_none, (hs.core p).partner, (hs.core p).saved, Nat.zero_le _, Nat.zero_le _⟩
  unfold State.endTest
  dsimp only
  generalize State.postTest _ p t result digest = t0 at hk ⊢
  split
  · exact State.startTest_keeps hk
  · refine State.startTests_keeps ?_
    have h3 : Keeps que (if result = 1 then t0
        else ((t0.charge (64 + p.val) 0 0 1).takeOut p 2).modCore p fun c =>
          { c with saved := ((t0.charge (64 + p.val) 0 0 1).core p).saved, partner := ((t0.charge (64 + p.val) 0 0 1).core p).partner }) :=
      keeps_ite hk (State.modCore_keeps (State.takeOut_keeps (State.charge_keeps hk)) fun _ hc =>
        ⟨hc.resident, (hk.core p).partner, (hk.core p).saved, hc.lines, hc.tasks⟩)
    split
    · exact State.endForced_keeps h3
    · exact h3

theorem execFieldTestEnd_keeps {core : Fin 20} {s : State} (hs : Keeps que s) : KeepsOut que (execFieldTestEnd core s) := by
  unfold execFieldTestEnd
  dsimp only
  repeat' first
    | with_reducible assumption
    | with_reducible apply State.quiesced_keeps
    | with_reducible apply State.endTest_keeps
    | with_reducible apply keepsOut_next
    | with_reducible refine keeps_get (by assumption) ?_
    | split

theorem execFieldTestTimeout_keeps {core : Fin 20} {elapsedMs : Nat} {s : State}
    (hs : Keeps que s) : KeepsOut que (execFieldTestTimeout core elapsedMs s) := by
  unfold execFieldTestTimeout
  repeat' first
    | with_reducible assumption
    | with_reducible apply State.endTest_keeps
    | with_reducible apply keepsOut_next
    | split

theorem execForcedFieldTest_keeps {core : Fin 20} {s : State} (hs : Keeps que s) : KeepsOut que (execForcedFieldTest core s) := by
  unfold execForcedFieldTest
  dsimp only
  repeat' first
    | with_reducible assumption
    | with_reducible apply State.modCore_keeps
    | with_reducible exact fun _ h => h
    | with_reducible apply State.postTest_keeps
    | with_reducible apply keepsOut_next
    | split

theorem execStepHoldReached_keeps {core : Fin 20} {s : State} (hs : Keeps que s) : KeepsOut que (execStepHoldReached core s) := by
  unfold execStepHoldReached
  dsimp only
  repeat' first
    | with_reducible assumption
    | with_reducible apply State.modCore_keeps
    | with_reducible exact fun _ h => h
    | with_reducible apply State.quiesced_keeps
    | with_reducible apply State.forceTest_keeps
    | with_reducible apply keepsOut_next
    | with_reducible refine keeps_get (by assumption) ?_
    | split

end Sys2Proof.Machine
end

