-- ==== Sys2Proof/Laws/KeepsReplay.lean ====
section
/-! SUPPORT. What `Machine/Replay.lean` changes keeps the state sound and its queue as it is. -/

namespace Sys2Proof.Machine

variable {que : List Instr}

theorem State.issueWtap_keeps {s : State} {p : Fin 20} {k : Fin 128} {w : IWord} {checks : Strand → List EncCheck}
    {body : State → VCore → Strand → Nat → State}
    (hs : Keeps que s) (hbody : ∀ s a0 a1 a2, Keeps que s → Keeps que (body s a0 a1 a2)) :
    KeepsOut que (State.issueWtap s p k w checks body) := by
  unfold State.issueWtap
  dsimp only
  repeat' first
    | with_reducible assumption
    | with_reducible apply hbody
    | with_reducible apply State.fault_keeps
    | with_reducible apply State.issue_keeps
    | split
    | intro _

theorem execWtapStart_keeps {core : Fin 20} {strand : Fin 128} {ops : BitVec 118} {s : State}
    (hs : Keeps que s) : KeepsOut que (execWtapStart core strand ops s) := by
  unfold execWtapStart
  dsimp only
  repeat' first
    | with_reducible assumption
    | with_reducible apply State.commit_keeps
    | with_reducible apply State.modUnit_keeps
    | with_reducible apply State.issueWtap_keeps
    | intro _

theorem execWtapFeed_keeps {core : Fin 20} {strand : Fin 128} {ops : BitVec 118} {s : State}
    (hs : Keeps que s) : KeepsOut que (execWtapFeed core strand ops s) := by
  unfold execWtapFeed
  dsimp only
  repeat' first
    | with_reducible assumption
    | with_reducible apply State.modCore_keeps
    | with_reducible apply State.fault_keeps
    | with_reducible apply State.audit_keeps
    | with_reducible apply State.correct_keeps
    | with_reducible apply State.commit_keeps
    | with_reducible apply State.modUnit_keeps
    | with_reducible apply State.issueWtap_keeps
    | split
    | intro _

theorem execWtapFinish_keeps {core : Fin 20} {strand : Fin 128} {ops : BitVec 118} {s : State}
    (hs : Keeps que s) : KeepsOut que (execWtapFinish core strand ops s) := by
  unfold execWtapFinish
  dsimp only
  repeat' first
    | with_reducible assumption
    | with_reducible apply State.audit_keeps
    | with_reducible apply State.commit_keeps
    | with_reducible apply State.modUnit_keeps
    | with_reducible apply State.issueWtap_keeps
    | intro _

theorem execWitnessRecord_keeps {unit : Fin 8} {s : State} (hs : Keeps que s) : KeepsOut que (execWitnessRecord unit s) := by
  unfold execWitnessRecord
  dsimp only
  repeat' first
    | with_reducible assumption
    | with_reducible apply State.writeBuf_keeps
    | with_reducible apply State.modUnit_keeps
    | (simp only [keeps_mk]; with_reducible refine Keeps.parts ?_)
    | with_reducible apply keepsOut_next
    | split

theorem execTwinRecordReceive_keeps {record : List Byte} {resubmitted : Bool} {s : State}
    (hs : Keeps que s) : KeepsOut que (execTwinRecordReceive record resubmitted s) := by
  unfold execTwinRecordReceive
  repeat' first
    | with_reducible assumption
    | with_reducible apply State.compareTwin_keeps
    | with_reducible apply keepsOut_next
    | split

theorem execTwinHaltSignal_keeps {s : State} (hs : Keeps que s) : KeepsOut que (execTwinHaltSignal s) := by
  unfold execTwinHaltSignal
  dsimp only
  repeat' first
    | with_reducible assumption
    | with_reducible apply State.pauseAll_keeps
    | with_reducible apply State.postDivergence_keeps
    | with_reducible apply State.sendHalt_keeps
    | (simp only [keeps_mk]; with_reducible refine Keeps.parts ?_)
    | with_reducible apply keepsOut_next
    | with_reducible refine keeps_ite ?_ ?_
    | split

theorem execTwinJobEnd_keeps {s : State} (hs : Keeps que s) : KeepsOut que (execTwinJobEnd s) := by
  unfold execTwinJobEnd
  repeat' first
    | with_reducible assumption
    | with_reducible apply State.twinLost_keeps
    | with_reducible apply keepsOut_next

end Sys2Proof.Machine
end

