-- ==== Sys2Proof/Laws/KeepsCkpt.lean ====
section
/-! SUPPORT. What `Machine/Ckpt.lean` changes keeps the state sound and its queue as it is. -/

namespace Sys2Proof.Machine

variable {que : List Instr}

theorem State.loadWitness_keeps {s : State} {r : List Byte} (hs : Keeps que s) : Keeps que (State.loadWitness s r) := by
  unfold State.loadWitness
  repeat' first
    | with_reducible assumption
    | with_reducible apply State.modUnit_keeps
    | with_reducible refine keeps_foldl _ ?_ ?_
    | intro _

theorem State.slotRead_keeps {s : State} {slotB : Bool} {off : Nat} {n : Nat}
    (hs : Keeps que s) : Keeps que (State.slotRead s slotB off n).1 := by
  unfold State.slotRead
  try dsimp only
  repeat' first
    | with_reducible assumption
    | with_reducible apply State.modMem_keeps
    | with_reducible refine MemSys.Sound.same (Keeps.sound (q := que) ?_) rfl rfl rfl rfl rfl rfl
    | (simp only [keeps_mk]; with_reducible refine Keeps.parts ?_)
    | with_reducible refine keeps_ite ?_ ?_
    | split
    | intro _
    | with_reducible refine keeps_get (by assumption) ?_
    | with_reducible refine keeps_snd (by assumption) ?_
    | with_reducible refine keeps_fst (by assumption) ?_

theorem State.slotReads_keeps {s : State} {slotB : Bool} {pieces : List (Nat × Nat)} (hs : Keeps que s) :
    Keeps que (s.slotReads slotB pieces).1 := keeps_foldlP _ hs fun _ _ h => State.slotRead_keeps h

theorem State.slotManifest_keeps {s : State} {slotB : Bool} (hs : Keeps que s) : Keeps que (State.slotManifest s slotB).1 := by
  unfold State.slotManifest
  try dsimp only
  repeat' first
    | with_reducible assumption
    | with_reducible apply State.slotRead_keeps
    | (simp only [keeps_mk]; with_reducible refine Keeps.parts ?_)
    | with_reducible refine keeps_ite ?_ ?_
    | split
    | with_reducible refine keeps_get (by assumption) ?_
    | with_reducible refine keeps_snd (by assumption) ?_
    | with_reducible refine keeps_fst (by assumption) ?_

theorem State.validPart_keeps {s : State} {slotB : Bool} (hs : Keeps que s) : Keeps que (State.validPart s slotB).1 := by
  unfold State.validPart
  try dsimp only
  repeat' first
    | with_reducible assumption
    | with_reducible apply State.slotReads_keeps
    | with_reducible apply State.slotManifest_keeps
    | (simp only [keeps_mk]; with_reducible refine Keeps.parts ?_)
    | with_reducible refine keeps_ite ?_ ?_
    | split
    | intro _
    | with_reducible refine keeps_get (by assumption) ?_
    | with_reducible refine keeps_snd (by assumption) ?_
    | with_reducible refine keeps_fst (by assumption) ?_

theorem State.sendUnits_keeps {s : State} {slotB : Bool} {b : Nat} {off : Nat} {bs : List Byte}
    (hs : Keeps que s) : Keeps que (State.sendUnits s slotB b off bs) := by
  unfold State.sendUnits
  try dsimp only
  repeat' first
    | with_reducible assumption
    | with_reducible apply State.toPartner_keeps
    | (simp only [keeps_mk]; with_reducible refine Keeps.parts ?_)
    | with_reducible refine keeps_foldl _ ?_ ?_
    | intro _

theorem State.ckptNote_keeps {s : State} {slotB : Bool} {unit : Nat} {code : Nat}
    (hs : Keeps que s) : Keeps que (State.ckptNote s slotB unit code) := by
  unfold State.ckptNote
  try dsimp only
  repeat' first
    | with_reducible assumption
    | with_reducible apply State.toPartner_keeps
    | (simp only [keeps_mk]; with_reducible refine Keeps.parts ?_)
    | with_reducible refine keeps_ite ?_ ?_
    | split

theorem State.sendPart_keeps {s : State} {off : Nat} {bs : List Byte}
    (hs : Keeps que s) : Keeps que (State.sendPart s off bs) := by
  unfold State.sendPart
  try dsimp only
  repeat' first
    | with_reducible assumption
    | with_reducible apply State.writeBuf_keeps
    | with_reducible apply State.sendUnits_keeps
    | (simp only [keeps_mk]; with_reducible refine Keeps.parts ?_)
    | with_reducible refine keeps_ite ?_ ?_
    | split
    | with_reducible refine keeps_get (by assumption) ?_
    | with_reducible refine keeps_snd (by assumption) ?_
    | with_reducible refine keeps_fst (by assumption) ?_

theorem execBoundaryHold_keeps {core : Fin 20} {s : State} (hs : Keeps que s) : KeepsOut que (execBoundaryHold core s) := by
  unfold execBoundaryHold
  try dsimp only
  repeat' first
    | with_reducible assumption
    | with_reducible apply State.modCore_keeps
    | with_reducible exact fun _ h => h
    | with_reducible apply State.showPhase_keeps
    | with_reducible apply State.quiesced_keeps
    | (simp only [keeps_mk]; with_reducible refine Keeps.parts ?_)
    | with_reducible apply keepsOut_next
    | with_reducible refine keeps_ite ?_ ?_
    | split
    | with_reducible refine keeps_get (by assumption) ?_
    | with_reducible refine keeps_snd (by assumption) ?_
    | with_reducible refine keeps_fst (by assumption) ?_

theorem State.releaseBoundary_keeps {s : State} (hs : Keeps que s) : Keeps que (State.releaseBoundary s) := by
  unfold State.releaseBoundary
  dsimp only
  refine keeps_foldl _ hs fun s p hs => ?_
  have hm := sound_map (hs.core p).partner (f := fun v => v.resumeStep (s.core p).resumeAt) fun _ hv => VCore.resumeStep_sound hv
  split
  · exact hs
  · split
    · exact State.forceTest_keeps (State.modCore_keeps hs fun _ h => { h with partner := hm })
    · exact State.modCore_keeps hs fun _ h => Holds.mapV { h with partner := hm } fun _ hv => VCore.resumeStep_sound hv

theorem State.putRecords_keeps {snap : Region} {b : Nat} {l : List (Fin 20 × VCore)} {a : State × List (Nat × Nat × Nat)}
    (h : Keeps que a.1) : Keeps que (l.foldl (fun (a : State × List (Nat × Nat × Nat)) (x : Fin 20 × VCore) =>
      ((a.1.writeMem (snap.base + recordRoom * x.2.num) (a.1.coreRecord x.2 b)).1,
        a.2 ++ [(x.2.num, snap.base + recordRoom * x.2.num, (a.1.coreRecord x.2 b).length)])) a).1 := by
  exact keeps_foldlP2 (f := fun (a : State × List (Nat × Nat × Nat)) (x : Fin 20 × VCore) =>
    (a.1.writeMem (snap.base + recordRoom * x.2.num) (a.1.coreRecord x.2 b)).1) l h fun x y h => State.writeMem_keeps h

theorem execSnapshotArm_keeps {s : State} (hs : Keeps que s) : KeepsOut que (execSnapshotArm s) := by
  unfold execSnapshotArm
  generalize zeros 2097152 = z
  split
  · exact keepsOut_next hs
  · rename_i b _
    have hb : (s.ckpt.pendingB.filter (· != b)).length ≤ 4 := Nat.le_trans (List.length_filter_le ..) hs.bounded.boundaries
    extract_lets c pending s' spoilt
    split
    · exact keepsOut_next hs
    · split
      · exact keepsOut_next (State.showPhase_keeps (State.releaseBoundary_keeps
          (keeps_mk.2 ⟨hs.queue, hs.sound, hs.cores, { hs.bounded with boundaries := hb }⟩)))
      · dsimp only
        generalize hr : List.foldl _ (s, ([] : List (Nat × Nat × Nat))) s.vcores = y
        obtain ⟨t, records⟩ := y
        have h : Keeps que t := keeps_fst hr (State.putRecords_keeps hs)
        dsimp only
        refine keepsOut_next (State.releaseBoundary_keeps ?_)
        have hu {c : Ckpt} (hc : c.pendingB = s.ckpt.pendingB.filter (· != b)) : Keeps que { t with ckpt := c } :=
          keeps_mk.2 ⟨h.queue, h.sound, h.cores, { h.bounded with boundaries := hc ▸ hb }⟩
        refine keeps_ite (State.failSet_keeps (State.releaseGuard_keeps (keeps_ite (hu rfl) (State.sendPart_keeps (hu rfl))))) ?_
        exact State.releaseGuard_keeps (keeps_ite (hu rfl) (State.sendPart_keeps (hu rfl)))

theorem State.partWritten_keeps {s : State} {digest : List Byte} (hs : Keeps que s) : Keeps que (State.partWritten s digest) := by
  unfold State.partWritten
  dsimp only
  repeat' first
    | with_reducible assumption
    | with_reducible apply State.post_keeps
    | (simp only [keeps_mk]; with_reducible refine Keeps.parts ?_)
    | with_reducible refine keeps_ite ?_ ?_

theorem execGranuleCopy_keeps {granule : Nat} {outcome : CopyOutcome} {s : State}
    (hs : Keeps que s) : KeepsOut que (execGranuleCopy granule outcome s) := by
  unfold execGranuleCopy
  try dsimp only
  repeat' first
    | with_reducible assumption
    | with_reducible apply State.soften_keeps
    | with_reducible apply State.spoil_keeps
    | with_reducible apply State.readMem_keeps
    | with_reducible apply State.tlbRange_keeps
    | with_reducible apply State.queueFault_keeps
    | with_reducible apply State.releaseGuard_keeps
    | with_reducible apply State.failSet_keeps
    | with_reducible apply State.sendPart_keeps
    | with_reducible refine MemSys.Sound.same (Keeps.sound (q := que) ?_) rfl rfl rfl rfl rfl rfl
    | (simp only [keeps_mk]; with_reducible refine Keeps.parts ?_)
    | with_reducible apply keepsOut_next
    | with_reducible refine keeps_ite ?_ ?_
    | split
    | intro _
    | with_reducible refine keeps_get (by assumption) ?_
    | with_reducible refine keeps_snd (by assumption) ?_
    | with_reducible refine keeps_fst (by assumption) ?_

theorem execManifestWrite_keeps {acknowledged : Bool} {s : State}
    (hs : Keeps que s) : KeepsOut que (execManifestWrite acknowledged s) := by
  unfold execManifestWrite
  dsimp only
  repeat' first
    | with_reducible assumption
    | with_reducible apply State.failSet_keeps
    | with_reducible apply State.sendPart_keeps
    | with_reducible apply State.partWritten_keeps
    | with_reducible apply keepsOut_next
    | split

theorem State.takeNote_keeps {s : State} {slotB : Bool} {unit : Nat} {code : Nat}
    (hs : Keeps que s) : Keeps que (State.takeNote s slotB unit code) := by
  unfold State.takeNote
  try dsimp only
  repeat' first
    | with_reducible assumption
    | with_reducible apply State.failSet_keeps
    | with_reducible apply State.slotReads_keeps
    | with_reducible apply State.slotManifest_keeps
    | with_reducible apply State.sendUnits_keeps
    | (simp only [keeps_mk]; with_reducible refine Keeps.parts ?_)
    | with_reducible refine keeps_ite ?_ ?_
    | with_reducible refine keeps_foldl _ ?_ ?_
    | split
    | intro _
    | with_reducible refine keeps_get (by assumption) ?_
    | with_reducible refine keeps_snd (by assumption) ?_
    | with_reducible refine keeps_fst (by assumption) ?_

theorem execCheckpointBlockReceive_keeps {slotB : Bool} {offset : Nat} {block : List Byte} {s : State}
    (hs : Keeps que s) : KeepsOut que (execCheckpointBlockReceive slotB offset block s) := by
  unfold execCheckpointBlockReceive
  dsimp only
  repeat' first
    | with_reducible assumption
    | exact keepsOut_next hs
    | exact keepsOut_next (State.takeNote_keeps hs)
    | exact keepsOut_next (State.ckptNote_keeps hs)
    | exact keepsOut_next (State.ckptNote_keeps (State.withMem_keeps hs (hs.sound.writeRun _ _)))
    | split

theorem execDrainComplete_keeps {s : State} (hs : Keeps que s) : KeepsOut que (execDrainComplete s) := by
  unfold execDrainComplete
  try dsimp only
  repeat' first
    | with_reducible assumption
    | with_reducible apply State.post_keeps
    | with_reducible apply State.writeBuf_keeps
    | with_reducible apply State.showPhase_keeps
    | with_reducible apply TaskRun.drain_keeps
    | with_reducible apply State.slotReads_keeps
    | with_reducible apply State.slotManifest_keeps
    | with_reducible apply State.ckptNote_keeps
    | (simp only [keeps_mk]; with_reducible refine Keeps.parts ?_)
    | with_reducible apply keepsOut_next
    | with_reducible refine keeps_ite ?_ ?_
    | with_reducible refine keeps_foldl _ ?_ ?_
    | split
    | intro _
    | with_reducible refine keeps_get (by assumption) ?_
    | with_reducible refine keeps_snd (by assumption) ?_
    | with_reducible refine keeps_fst (by assumption) ?_

theorem State.undefTile_keeps {s : State} {r : Region} (hs : Keeps que s) : Keeps que (State.undefTile s r) := by
  unfold State.undefTile
  dsimp only
  have hf : ∀ v : VCore, v.Sound →
      (if v.num = r.vcore then { v with tile := v.tile.refill r.base r.size (.undef s.fresh.1) } else v).Sound := fun v h => by
    split
    · exact VCore.refill_sound h
    · exact h
  exact State.mapCores_keeps (State.fresh_keeps hs) fun _ h =>
    ⟨sound_map h.resident hf, sound_map h.partner hf, sound_map h.saved hf, h.lines, h.tasks⟩

theorem State.undefineRegions_keeps {s : State} {keep : List Nat} {tiles : Bool}
    (hs : Keeps que s) : Keeps que (State.undefineRegions s keep tiles) := by
  unfold State.undefineRegions
  try dsimp only
  repeat' first
    | with_reducible assumption
    | with_reducible apply State.undefDev_keeps
    | with_reducible apply State.undefTile_keeps
    | (simp only [keeps_mk]; with_reducible refine Keeps.parts ?_)
    | with_reducible refine keeps_ite ?_ ?_
    | with_reducible refine keeps_foldl _ ?_ ?_
    | split
    | intro _

theorem State.restoreShard_keeps {s : State} {kind : Nat} {id : Nat} {bs : List Byte}
    (hs : Keeps que s) : Keeps que (State.restoreShard s kind id bs) := by
  have hf : ∀ v : VCore, v.Sound → (if v.num = id then v.loadRecord bs else v).Sound := fun v h => by
    split
    · exact VCore.loadRecord_sound h
    · exact h
  unfold State.restoreShard
  dsimp only
  split
  · split
    · exact State.writeMem_keeps (State.tlbRange_keeps hs)
    · exact hs
  · refine State.loadWitness_keeps (keeps_foldl _ hs fun s p hs => keeps_ite hs (State.setCore_keeps hs ?_))
    exact ⟨sound_map (hs.core p).resident hf, sound_map (hs.core p).partner hf, (hs.core p).saved, (hs.core p).lines, (hs.core p).tasks⟩

theorem State.postRestore_keeps {s : State} {gen : Nat} {b : Nat} {status : Nat} {shard : Nat}
    (hs : Keeps que s) : Keeps que (State.postRestore s gen b status shard) := by
  unfold State.postRestore
  repeat' first
    | with_reducible assumption
    | with_reducible apply State.post_keeps

theorem State.startIngest_keeps {s : State} {b : Nat} (hs : Keeps que s) : Keeps que (State.startIngest s b) := by
  unfold State.startIngest
  try dsimp only
  repeat' first
    | with_reducible assumption
    | with_reducible apply State.writeMem_keeps
    | with_reducible apply State.tlbRange_keeps
    | (simp only [keeps_mk]; with_reducible refine Keeps.parts ?_)
    | with_reducible refine keeps_ite ?_ ?_
    | split
    | with_reducible refine keeps_get (by assumption) ?_
    | with_reducible refine keeps_snd (by assumption) ?_
    | with_reducible refine keeps_fst (by assumption) ?_

theorem execRestoreEnded_keeps {source : Option RestoreSource} {s : State}
    (hs : Keeps que s) : KeepsOut que (execRestoreEnded source s) := by
  unfold execRestoreEnded
  try dsimp only
  repeat' first
    | with_reducible assumption
    | with_reducible apply State.mapCores_keeps
    | exact fun _ h => sound_ite h ⟨sound_map h.resident fun _ hv => hv, sound_map h.partner fun _ hv => hv, h.saved, h.lines, h.tasks⟩
    | with_reducible apply State.showPhase_keeps
    | with_reducible apply TaskRun.fail_keeps
    | with_reducible apply State.undefineRegions_keeps
    | with_reducible apply State.restoreShard_keeps
    | with_reducible apply State.postRestore_keeps
    | with_reducible apply State.startIngest_keeps
    | (simp only [keeps_mk]; with_reducible refine Keeps.parts ?_)
    | with_reducible apply keepsOut_next
    | with_reducible refine keeps_ite ?_ ?_
    | with_reducible refine keeps_foldl _ ?_ ?_
    | split
    | intro _
    | with_reducible refine keeps_get (by assumption) ?_
    | with_reducible refine keeps_snd (by assumption) ?_
    | with_reducible refine keeps_fst (by assumption) ?_

end Sys2Proof.Machine
end

