-- ==== Sys2Proof/Laws/KeepsRegs.lean ====
section
/-! SUPPORT. What `Machine/Regs.lean` changes keeps the state sound and its queue as it is. -/

namespace Sys2Proof.Machine

variable {que : List Instr}

theorem State.writeCore_keeps {s : State} {p : Fin 20} {off : Nat} {v : Nat}
    (hs : Keeps que s) : Keeps que (State.writeCore s p off v) := by
  unfold State.writeCore
  dsimp only
  repeat' first
    | with_reducible assumption
    | with_reducible apply State.modCore_keeps
    | with_reducible apply State.modV_keeps
    | with_reducible refine Core.modV_sound ?_ ?_
    | with_reducible apply Core.endTokens_sound
    | intro _
    | with_reducible refine keeps_ite ?_ ?_

theorem State.writeFabric_keeps {s : State} {off : Nat} {v : Nat} (hs : Keeps que s) : Keeps que (State.writeFabric s off v) := by
  unfold State.writeFabric
  dsimp only
  repeat' first
    | with_reducible assumption
    | with_reducible apply State.modPort_keeps
    | (simp only [keeps_mk]; with_reducible refine Keeps.parts ?_)
    | with_reducible refine keeps_ite ?_ ?_

theorem State.writePci_keeps {s : State} {off : Nat} {v : Nat} (hs : Keeps que s) : Keeps que (State.writePci s off v) := by
  unfold State.writePci
  try dsimp only
  repeat' first
    | with_reducible assumption
    | with_reducible apply State.pump_keeps
    | with_reducible apply TaskRun.pump_keeps
    | (simp only [keeps_mk]; with_reducible refine Keeps.parts ?_)
    | with_reducible refine keeps_ite ?_ ?_
    | split

theorem State.writeReg_keeps {s : State} {sp : RegSpace} {off : Nat} {v : Nat}
    (hs : Keeps que s) : Keeps que (State.writeReg s sp off v) := by
  unfold State.writeReg
  try dsimp only
  repeat' first
    | with_reducible assumption
    | with_reducible apply State.idleSlices_keeps
    | with_reducible apply State.writeCore_keeps
    | with_reducible apply State.writeFabric_keeps
    | with_reducible apply State.writePci_keeps
    | (simp only [keeps_mk]; with_reducible refine Keeps.parts ?_)
    | with_reducible refine keeps_ite ?_ ?_
    | split
    | with_reducible refine keeps_get (by assumption) ?_
    | with_reducible refine keeps_snd (by assumption) ?_
    | with_reducible refine keeps_fst (by assumption) ?_

theorem execRegisterWrite_keeps {space : RegSpace} {offset : Nat} {value : DWord} {s : State}
    (hs : Keeps que s) : KeepsOut que (execRegisterWrite space offset value s) := by
  unfold execRegisterWrite
  repeat' first
    | with_reducible assumption
    | with_reducible apply State.writeReg_keeps
    | with_reducible apply keepsOut_next

theorem execCntrdU_keeps {core : Fin 20} {strand : Fin 128} {ops : BitVec 118} {s : State}
    (hs : Keeps que s) : KeepsOut que (execCntrdU core strand ops s) := by
  unfold execCntrdU
  try dsimp only
  repeat' first
    | with_reducible assumption
    | with_reducible apply State.modCore_keeps
    | exact fun _ h => Core.putTile_sound h
    | with_reducible apply State.fault_keeps
    | with_reducible apply State.arrive_keeps
    | with_reducible apply State.leave_keeps
    | with_reducible apply State.audit_keeps
    | with_reducible apply State.commit_keeps
    | with_reducible apply State.noteClassV_keeps
    | with_reducible apply State.issue_keeps
    | with_reducible apply TaskRun.put_keeps
    | (simp only [keeps_mk]; with_reducible refine Keeps.parts ?_)
    | with_reducible apply keepsOut_next
    | split
    | intro _
    | with_reducible refine keeps_get (by assumption) ?_
    | with_reducible refine keeps_snd (by assumption) ?_
    | with_reducible refine keeps_fst (by assumption) ?_

end Sys2Proof.Machine
end

