-- ==== Sys2Proof/Laws/KeepsHost.lean ====
section
/-! SUPPORT. What `Machine/Host.lean` changes keeps the state sound and its queue as it is. -/

namespace Sys2Proof.Machine

variable {que : List Instr}

theorem State.logLine_keeps {s : State} (hs : Keeps que s) : Keeps que (State.logLine s) := by
  unfold State.logLine
  dsimp only
  repeat' first
    | with_reducible assumption
    | with_reducible apply State.fresh_keeps
    | with_reducible apply State.emitH_keeps
    | (simp only [keeps_mk]; with_reducible refine Keeps.parts ?_)
    | with_reducible refine keeps_ite ?_ ?_

theorem State.ring_keeps {s : State} {m : Nat} (hs : Keeps que s) : Keeps que (State.ring s m) := by
  unfold State.ring
  dsimp only
  repeat' first
    | with_reducible assumption
    | with_reducible apply State.modBox_keeps
    | (simp only [keeps_mk]; with_reducible refine Keeps.parts ?_)
    | with_reducible refine keeps_ite ?_ ?_

theorem State.boxWrite_keeps {s : State} {m : Nat} {o : Nat} {v : Nat}
    (hs : Keeps que s) : Keeps que (State.boxWrite s m o v) := by
  unfold State.boxWrite
  repeat' first
    | with_reducible assumption
    | with_reducible apply State.modBox_keeps
    | with_reducible apply State.ring_keeps
    | with_reducible refine keeps_ite ?_ ?_

theorem execMbxDoorbell_keeps {mbx : Fin 8} {s : State} (hs : Keeps que s) : KeepsOut que (execMbxDoorbell mbx s) := by
  unfold execMbxDoorbell
  repeat' first
    | with_reducible assumption
    | with_reducible apply State.ring_keeps
    | with_reducible apply keepsOut_next
    | with_reducible refine keeps_ite ?_ ?_

theorem execSidebandFrame_keeps {frame : List Byte} {s : State}
    (hs : Keeps que s) : KeepsOut que (execSidebandFrame frame s) := by
  unfold execSidebandFrame
  dsimp only
  repeat' first
    | with_reducible assumption
    | with_reducible apply State.emitH_keeps
    | with_reducible apply State.modBox_keeps
    | with_reducible apply State.ring_keeps
    | with_reducible apply keepsOut_next
    | split

theorem State.writeEvCtrl_keeps {s : State} {v : Nat} (hs : Keeps que s) : Keeps que (State.writeEvCtrl s v) := by
  unfold State.writeEvCtrl
  try dsimp only
  repeat' first
    | with_reducible assumption
    | with_reducible apply State.pump_keeps
    | with_reducible apply TaskRun.pump_keeps
    | (simp only [keeps_mk]; with_reducible refine Keeps.parts ?_)
    | with_reducible refine keeps_ite ?_ ?_
    | split

theorem State.writeEvTail_keeps {s : State} {v : Nat} (hs : Keeps que s) : Keeps que (State.writeEvTail s v) := by
  unfold State.writeEvTail
  dsimp only
  repeat' first
    | with_reducible assumption
    | with_reducible apply State.pump_keeps
    | (simp only [keeps_mk]; with_reducible refine Keeps.parts ?_)

theorem State.evWrite_keeps {s : State} {o : Nat} {v : Nat} (hs : Keeps que s) : Keeps que (State.evWrite s o v) := by
  unfold State.evWrite
  dsimp only
  repeat' first
    | with_reducible assumption
    | with_reducible apply State.writeEvCtrl_keeps
    | with_reducible apply State.writeEvTail_keeps
    | (simp only [keeps_mk]; with_reducible refine Keeps.parts ?_)
    | with_reducible refine keeps_ite ?_ ?_

theorem execEvrTailWrite_keeps {value : BitVec 16} {s : State} (hs : Keeps que s) : KeepsOut que (execEvrTailWrite value s) := by
  unfold execEvrTailWrite
  repeat' first
    | with_reducible assumption
    | with_reducible apply State.writeEvTail_keeps
    | with_reducible apply keepsOut_next
    | with_reducible refine keeps_ite ?_ ?_

theorem execEvrCtrlEnable_keeps {value : Word} {s : State} (hs : Keeps que s) : KeepsOut que (execEvrCtrlEnable value s) := by
  unfold execEvrCtrlEnable
  repeat' first
    | with_reducible assumption
    | with_reducible apply State.writeEvCtrl_keeps
    | with_reducible apply keepsOut_next
    | with_reducible refine keeps_ite ?_ ?_

theorem execEventInterruptCoalesce_keeps {s : State} (hs : Keeps que s) : KeepsOut que (execEventInterruptCoalesce s) := by
  unfold execEventInterruptCoalesce
  dsimp only
  repeat' first
    | with_reducible assumption
    | with_reducible apply State.raiseMsix_keeps
    | (simp only [keeps_mk]; with_reducible refine Keeps.parts ?_)
    | with_reducible apply keepsOut_next
    | split

theorem State.msixWrite_keeps {s : State} {o : Nat} {v : Nat} (hs : Keeps que s) : Keeps que (State.msixWrite s o v) := by
  unfold State.msixWrite
  dsimp only
  repeat' first
    | with_reducible assumption
    | with_reducible apply State.emit_keeps
    | (simp only [keeps_mk]; with_reducible refine Keeps.parts ?_)
    | with_reducible refine keeps_ite ?_ ?_

theorem State.debugWrite_keeps {s : State} {o : Nat} {n : Nat} {v : Nat}
    (hs : Keeps que s) : Keeps que (State.debugWrite s o n v) := by
  unfold State.debugWrite
  dsimp only
  repeat' first
    | with_reducible assumption
    | with_reducible apply State.modV_keeps
    | exact fun _ h => VCore.writeTile_sound h
    | (simp only [keeps_mk]; with_reducible refine Keeps.parts ?_)
    | with_reducible refine keeps_ite ?_ ?_
    | split

theorem State.bar0Write_keeps {s : State} {o : Nat} {v : Nat} (hs : Keeps que s) : Keeps que (State.bar0Write s o v) := by
  unfold State.bar0Write
  dsimp only
  repeat' first
    | with_reducible assumption
    | with_reducible apply State.boxWrite_keeps
    | with_reducible apply State.evWrite_keeps
    | with_reducible apply State.msixWrite_keeps
    | with_reducible apply State.debugWrite_keeps
    | (simp only [keeps_mk]; with_reducible refine Keeps.parts ?_)
    | with_reducible refine keeps_ite ?_ ?_

theorem State.bar0_keeps {s : State} {write : Bool} {o : Nat} {n : Nat} {v : Nat}
    (hs : Keeps que s) : Keeps que (State.bar0 s write o n v) := by
  unfold State.bar0
  dsimp only
  repeat' first
    | with_reducible assumption
    | with_reducible apply State.emit_keeps
    | with_reducible apply State.bar0Write_keeps
    | with_reducible refine keeps_ite ?_ ?_

theorem execBar0Access_keeps {write : Bool} {offset : Nat} {size : Nat} {value : DWord} {s : State}
    (hs : Keeps que s) : KeepsOut que (execBar0Access write offset size value s) := by
  unfold execBar0Access
  repeat' first
    | with_reducible assumption
    | with_reducible apply State.bar0_keeps
    | with_reducible apply keepsOut_next

theorem execDebugWindowAccess_keeps {write : Bool} {offset : Nat} {size : Nat} {value : DWord} {s : State}
    (hs : Keeps que s) : KeepsOut que (execDebugWindowAccess write offset size value s) := by
  unfold execDebugWindowAccess
  repeat' first
    | with_reducible assumption
    | with_reducible apply State.bar0_keeps
    | with_reducible apply keepsOut_next
    | with_reducible refine keeps_ite ?_ ?_

theorem execBar2Read_keeps {offset : Nat} {len : Nat} {s : State}
    (hs : Keeps que s) : KeepsOut que (execBar2Read offset len s) := by
  unfold execBar2Read
  try dsimp only
  repeat' first
    | with_reducible assumption
    | with_reducible apply State.emit_keeps
    | with_reducible apply State.countUnc_keeps
    | with_reducible apply State.meetDev_keeps
    | (simp only [keeps_mk]; with_reducible refine Keeps.parts ?_)
    | with_reducible apply keepsOut_next
    | with_reducible refine keeps_ite ?_ ?_
    | with_reducible refine keeps_foldl _ ?_ ?_
    | split
    | intro _

theorem execBar2Write_keeps {offset : Nat} {data : List Byte} {s : State}
    (hs : Keeps que s) : KeepsOut que (execBar2Write offset data s) := by
  unfold execBar2Write
  split
  · exact keepsOut_next hs
  · refine keepsOut_next (keeps_foldl _ hs fun s r hs => keeps_ite hs ?_)
    have h := State.meetDev_keeps (write := true) (a := r.1) (n := r.2) hs
    have hw (p : Place) (bs : List Byte) := State.modMem_keeps (f := fun m => (m.writeRun p bs).1) h (h.sound.writeRun p bs)
    exact keeps_ite (hw _ _) (State.emit_keeps (State.modMem_keeps' (hw _ _) (fun _ => rfl) (fun _ => rfl) (fun _ => rfl) (fun _ => rfl)
      (fun _ => rfl) (fun _ => rfl)))

theorem execShedLevelWindow_keeps {busyPercent : Nat} {quiet100ms : Bool} {s : State}
    (hs : Keeps que s) : KeepsOut que (execShedLevelWindow busyPercent quiet100ms s) := by
  unfold execShedLevelWindow
  dsimp only
  repeat' first
    | with_reducible assumption
    | with_reducible apply State.post_keeps
    | with_reducible apply State.logLine_keeps
    | (simp only [keeps_mk]; with_reducible refine Keeps.parts ?_)
    | with_reducible apply keepsOut_next
    | with_reducible refine keeps_ite ?_ ?_
    | split

theorem State.summary_keeps {s : State} (hs : Keeps que s) : Keeps que (State.summary s).2 := by
  unfold State.summary
  dsimp only
  repeat' first
    | with_reducible assumption
    | with_reducible apply State.fresh_keeps

theorem State.sampleMirror_keeps {s : State} (hs : Keeps que s) : Keeps que (State.sampleMirror s) := by
  unfold State.sampleMirror
  try dsimp only
  repeat' first
    | with_reducible assumption
    | with_reducible apply State.summary_keeps
    | (simp only [keeps_mk]; with_reducible refine Keeps.parts ?_)

theorem execTelemetryMirrorSample_keeps {s : State} (hs : Keeps que s) : KeepsOut que (execTelemetryMirrorSample s) := by
  unfold execTelemetryMirrorSample
  try dsimp only
  repeat' first
    | with_reducible assumption
    | with_reducible apply State.sampleMirror_keeps
    | (simp only [keeps_mk]; with_reducible refine Keeps.parts ?_)
    | with_reducible apply keepsOut_next
    | with_reducible refine keeps_ite ?_ ?_
    | split

end Sys2Proof.Machine
end

