-- ==== Sys2Proof/Laws/KeepsLoader.lean ====
section
/-! SUPPORT. What `Machine/Loader.lean` changes keeps the state sound and its queue as it is. -/

namespace Sys2Proof.Machine

variable {que : List Instr}

theorem State.placeCores_keeps {s : State} {m : Image} (hs : Keeps que s) : Keeps que (State.placeCores s m) := by
  unfold State.placeCores
  dsimp only
  refine State.startTests_keeps (keeps_foldl _ hs fun s i hs => State.modCore_keeps (State.fresh_keeps (State.fresh_keeps hs)) fun c _ => ?_)
  exact ⟨sound_some Image.vcore_sound, sound_if Image.vcore_sound, sound_none, VCore.preload_length, Nat.zero_le _⟩

theorem State.placeImage_keeps {s : State} {m : Image} (hs : Keeps que s) : Keeps que (s.placeImage m) := by
  unfold State.placeImage
  have h := State.placeCores_keeps (m := m) hs
  generalize s.placeCores m = t at h ⊢
  generalize m.ckptList = x
  obtain ⟨snap, ids⟩ := x
  dsimp only
  refine State.startIngest_keeps ?_
  refine h.withMem ?_ ?_ ?_ ?_
  · exact { h.sound with tlb := Nat.zero_le _ }
  · rfl
  · rfl
  · exact h.bounded

theorem State.load_keeps {s : State} {raw : List Byte} (hs : Keeps que s) : Keeps que (State.load s raw).2 := by
  unfold State.load
  dsimp only
  repeat' first
    | with_reducible assumption
    | with_reducible apply State.setJobState_keeps
    | with_reducible apply State.placeImage_keeps
    | split

theorem execImageRelay_keeps {port : Fin 6} {ctl : Ctl} {payload : List Byte} {s : State}
    (hs : Keeps que s) : KeepsOut que (execImageRelay port ctl payload s) := by
  unfold execImageRelay
  dsimp only
  repeat' first
    | with_reducible assumption
    | with_reducible apply State.relayCtl_keeps
    | with_reducible apply State.load_keeps
    | (simp only [keeps_mk]; with_reducible refine Keeps.parts ?_)
    | with_reducible apply keepsOut_next
    | split

end Sys2Proof.Machine
end

