-- ==== Sys2Proof/Laws/KeepsPower.lean ====
section
/-! SUPPORT. What `Machine/Power.lean` changes keeps the state sound and its queue as it is. -/

namespace Sys2Proof.Machine

variable {que : List Instr}

theorem State.writeRecords_keeps {s : State} {units : BitVec 37} {failed : BitVec 37}
    (hs : Keeps que s) : Keeps que (State.writeRecords s units failed) := by
  unfold State.writeRecords
  try dsimp only
  repeat' first
    | with_reducible assumption
    | with_reducible apply State.fresh_keeps
    | (simp only [keeps_mk]; with_reducible refine Keeps.parts ?_)
    | intro _

theorem State.coldReset_keeps {s : State} (hs : Keeps que s) : Keeps que s.coldReset := by
  unfold State.coldReset State.cold
  exact keeps_mk.2 ⟨hs.queue, MemSys.Sound.cold hs.sound.scree hs.sound.host _ _, SoundCores.replicate holds_none, bounded_empty⟩

theorem State.warmReset_keeps {s : State} (hs : Keeps que s) : Keeps que s.warmReset := by
  unfold State.warmReset
  exact keeps_mk.2 ⟨hs.queue, (MemSys.Sound.cold hs.sound.scree hs.sound.host s.mem.screePoison s.free).same rfl rfl rfl rfl rfl rfl,
    SoundCores.ofFn fun _ => holds_none, bounded_empty⟩

theorem execColdReset_keeps {s : State} (hs : Keeps que s) : KeepsOut que (execColdReset s) := by
  unfold execColdReset
  repeat' first
    | with_reducible assumption
    | with_reducible apply State.coldReset_keeps
    | with_reducible apply keepsOut_next

theorem execPerst_keeps {s : State} (hs : Keeps que s) : KeepsOut que (execPerst s) := by
  unfold execPerst
  dsimp only
  repeat' first
    | with_reducible assumption
    | with_reducible apply State.saveHealth_keeps
    | (simp only [keeps_mk]; with_reducible refine Keeps.parts ?_)
    | with_reducible apply keepsOut_next
    | with_reducible refine keeps_ite ?_ ?_
    | split

theorem execWarmReset_keeps {s : State} (hs : Keeps que s) : KeepsOut que (execWarmReset s) := by
  unfold execWarmReset
  dsimp only
  repeat' first
    | with_reducible assumption
    | with_reducible apply State.saveHealth_keeps
    | with_reducible apply State.warmReset_keeps
    | with_reducible apply keepsOut_next
    | with_reducible refine keeps_ite ?_ ?_
    | split

theorem execFunctionLevelReset_keeps {s : State} (hs : Keeps que s) : KeepsOut que (execFunctionLevelReset s) := by
  unfold execFunctionLevelReset
  split
  · exact keepsOut_next hs
  · exact keepsOut_next (keeps_mk.2 (hs.partsEvents
      (Nat.le_trans (List.filter_sublist.filter _).length_le hs.bounded.events)))

theorem execInstar0_keeps {s : State} (hs : Keeps que s) : KeepsOut que (execInstar0 s) := by
  unfold execInstar0
  split
  · exact keepsOut_next hs
  · exact keepsOut_next (keeps_mk.2 (hs.partsCores (SoundCores.ofFn fun p => hs.core p)))

theorem execInstar1_keeps {s : State} (hs : Keeps que s) : KeepsOut que (execInstar1 s) := by
  unfold execInstar1
  dsimp only
  repeat' first
    | with_reducible assumption
    | (simp only [keeps_mk]; with_reducible refine Keeps.parts ?_)
    | with_reducible apply keepsOut_next
    | split

theorem execInstar2_keeps {trained full : BitVec 24} {s : State}
    (hs : Keeps que s) : KeepsOut que (execInstar2 trained full s) := by
  unfold execInstar2
  dsimp only
  split
  · exact keepsOut_next hs
  · refine keepsOut_next ?_
    simp only [keeps_mk]
    exact hs.partsMem { hs.sound with gddr := Mem.zeroed_wf }

theorem execInstar3_keeps {links : LinkTraining} {s : State} (hs : Keeps que s) : KeepsOut que (execInstar3 links s) := by
  unfold execInstar3
  split
  · exact keepsOut_next hs
  · dsimp only
    refine keepsOut_next ?_
    simp only [keeps_mk]
    refine (keeps_foldl _ (keeps_foldl _ ?_ fun s n hs => State.trainPort_keeps hs) fun s n hs => State.modPort_keeps hs).parts
    simp only [keeps_mk]
    exact hs.partsMem (hs.sound.same rfl rfl rfl rfl rfl rfl)

theorem execInstar4_keeps {result : BringUpEnd} {s : State} (hs : Keeps que s) : KeepsOut que (execInstar4 result s) := by
  unfold execInstar4
  try dsimp only
  repeat' first
    | with_reducible assumption
    | with_reducible apply State.post_keeps
    | with_reducible apply State.notice_keeps
    | with_reducible apply State.startTests_keeps
    | with_reducible apply State.writeRecords_keeps
    | (simp only [keeps_mk]; with_reducible refine Keeps.parts ?_)
    | with_reducible apply keepsOut_next
    | with_reducible refine keeps_ite ?_ ?_
    | with_reducible refine keeps_foldl _ ?_ ?_
    | split
    | intro _
    | with_reducible refine keeps_get (by assumption) ?_
    | with_reducible refine keeps_snd (by assumption) ?_
    | with_reducible refine keeps_fst (by assumption) ?_

theorem execBringUpWatchdog_keeps {s : State} (hs : Keeps que s) : KeepsOut que (execBringUpWatchdog s) := by
  unfold execBringUpWatchdog
  dsimp only
  repeat' first
    | with_reducible assumption
    | with_reducible apply State.warmReset_keeps
    | (simp only [keeps_mk]; with_reducible refine Keeps.parts ?_)
    | with_reducible apply keepsOut_next
    | split

theorem State.trip_keeps {s : State} (hs : Keeps que s) : Keeps que s.trip := by
  unfold State.trip
  split
  rename_i e s heq
  have h : Keeps que s := keeps_snd heq (State.fresh_keeps hs)
  exact keeps_mk.2 ⟨h.queue, { h.sound with gddr := Mem.undefined_wf _ }, SoundCores.map h.cores fun _ _ => holds_none,
    { h.bounded with boundaries := Nat.zero_le _, twin := Nat.zero_le _ }⟩

theorem execThermalTrip_keeps {sensor : Fin 32} {temp : Nat} {s : State}
    (hs : Keeps que s) : KeepsOut que (execThermalTrip sensor temp s) := by
  unfold execThermalTrip
  dsimp only
  repeat' first
    | with_reducible assumption
    | with_reducible apply State.trip_keeps
    | (simp only [keeps_mk]; with_reducible refine Keeps.parts ?_)
    | with_reducible apply keepsOut_next
    | split

theorem State.postThrottle_keeps {s : State} {kind : Nat} (hs : Keeps que s) : Keeps que (State.postThrottle s kind) := by
  unfold State.postThrottle
  dsimp only
  repeat' first
    | with_reducible assumption
    | with_reducible apply State.post_keeps

theorem execThrottleTick_keeps {estimateW : Nat} {temps : Vector Nat 32} {s : State}
    (hs : Keeps que s) : KeepsOut que (execThrottleTick estimateW temps s) := by
  unfold execThrottleTick
  dsimp only
  repeat' first
    | with_reducible assumption
    | with_reducible apply State.trip_keeps
    | with_reducible apply State.postThrottle_keeps
    | (simp only [keeps_mk]; with_reducible refine Keeps.parts ?_)
    | with_reducible apply keepsOut_next
    | split

theorem execDomainPowerOnRequest_keeps {domain : Fin 148} {s : State}
    (hs : Keeps que s) : KeepsOut que (execDomainPowerOnRequest domain s) := by
  unfold execDomainPowerOnRequest
  repeat' first
    | with_reducible assumption
    | with_reducible apply State.domainRequest_keeps
    | with_reducible apply keepsOut_next

theorem execDomainPowerOffRequest_keeps {domain : Fin 148} {s : State}
    (hs : Keeps que s) : KeepsOut que (execDomainPowerOffRequest domain s) := by
  unfold execDomainPowerOffRequest
  repeat' first
    | with_reducible assumption
    | with_reducible apply State.domainRequest_keeps
    | with_reducible apply keepsOut_next

theorem State.domainLost_keeps {s : State} {d : Nat} (hs : Keeps que s) : Keeps que (State.domainLost s d) := by
  unfold State.domainLost
  split
  rename_i e t heq
  have h : Keeps que t := keeps_snd heq (State.fresh_keeps hs)
  refine keeps_ite (State.modV_keeps (keeps_ite (State.modCore_keeps h fun _ hc => { hc with lines := Nat.zero_le _ }) h) ?_) (keeps_ite h (keeps_ite (keeps_ite (State.markDown_keeps h) h)
    (keeps_ite (keeps_ite (State.modMem_keeps h ?_) h) (State.modMem_keeps' h ?_ ?_ ?_ ?_ ?_ ?_))))
  · intro v hv
    split
    · exact { hv with tile := Mem.undefined_wf _ }
    · exact { hv with acc := Mem.undefined_wf _ }
    · exact { hv with vt := Mem.undefined_wf _, vm := Mem.undefined_wf _ }
    · exact hv
  · exact { h.sound with gddr := Mem.stripe_wf h.sound.gddr _ _ _ }
  all_goals exact fun _ => rfl

theorem execDomainSequenceEnd_keeps {domain : Fin 148} {s : State}
    (hs : Keeps que s) : KeepsOut que (execDomainSequenceEnd domain s) := by
  unfold execDomainSequenceEnd
  dsimp only
  repeat' first
    | with_reducible assumption
    | with_reducible apply State.setDomain_keeps
    | with_reducible apply State.domainLost_keeps
    | with_reducible apply keepsOut_next
    | with_reducible refine keeps_ite ?_ ?_

theorem execDomainFault_keeps {domain : Fin 148} {s : State} (hs : Keeps que s) : KeepsOut que (execDomainFault domain s) := by
  unfold execDomainFault
  dsimp only
  repeat' first
    | with_reducible assumption
    | with_reducible apply State.post_keeps
    | with_reducible apply State.retireCore_keeps
    | with_reducible apply State.setDomain_keeps
    | with_reducible apply keepsOut_next
    | with_reducible refine keeps_ite ?_ ?_
    | split

theorem execRailOutOfWindow_keeps {s : State} (hs : Keeps que s) : KeepsOut que (execRailOutOfWindow s) := by
  unfold execRailOutOfWindow
  repeat' first
    | with_reducible assumption
    | with_reducible apply State.coldReset_keeps
    | with_reducible apply keepsOut_next

theorem execRegulatorFrame_keeps {s : State} (hs : Keeps que s) : KeepsOut que (execRegulatorFrame s) := by
  unfold execRegulatorFrame
  dsimp only
  repeat' first
    | with_reducible assumption
    | with_reducible apply State.fresh_keeps
    | with_reducible apply State.emitH_keeps
    | (simp only [keeps_mk]; with_reducible refine Keeps.parts ?_)
    | with_reducible apply keepsOut_next
    | split

theorem execRegulatorReply_keeps {valid : Bool} {seq : Byte} {mv : BitVec 10} {s : State}
    (hs : Keeps que s) : KeepsOut que (execRegulatorReply valid seq mv s) := by
  unfold execRegulatorReply
  dsimp only
  repeat' first
    | with_reducible assumption
    | (simp only [keeps_mk]; with_reducible refine Keeps.parts ?_)
    | with_reducible apply keepsOut_next
    | split

theorem State.linkError_keeps {s : State} {link : HostLink} (hs : Keeps que s) : Keeps que (State.linkError s link) := by
  unfold State.linkError
  dsimp only
  repeat' first
    | with_reducible assumption
    | with_reducible apply State.mapCores_keeps
    | exact fun _ h => Core.linkAbort_sound h
    | with_reducible apply State.modMem_keeps
    | with_reducible apply State.ingestEvent_keeps
    | with_reducible apply State.failSet_keeps
    | (simp only [keeps_mk]; with_reducible refine Keeps.parts ?_)
    | with_reducible refine keeps_foldl _ ?_ ?_
    | with_reducible refine keeps_ite ?_ ?_
    | with_reducible refine MemSys.Sound.same (Keeps.sound (q := que) ?_) rfl rfl rfl rfl rfl rfl
    | split
    | intro _

theorem execLaserPresent_keeps {input : Fin 22} {s : State} (hs : Keeps que s) : KeepsOut que (execLaserPresent input s) := by
  unfold execLaserPresent
  try dsimp only
  repeat' first
    | with_reducible assumption
    | with_reducible apply State.flushPort_keeps
    | (simp only [keeps_mk]; with_reducible refine Keeps.parts ?_)
    | with_reducible apply keepsOut_next
    | with_reducible refine keeps_ite ?_ ?_
    | split

theorem execLaserAbsent_keeps {input : Fin 22} {s : State} (hs : Keeps que s) : KeepsOut que (execLaserAbsent input s) := by
  unfold execLaserAbsent
  dsimp only
  repeat' first
    | with_reducible assumption
    | with_reducible apply State.linkError_keeps
    | (simp only [keeps_mk]; with_reducible refine Keeps.parts ?_)
    | with_reducible refine keeps_foldl _ ?_ ?_
    | with_reducible apply keepsOut_next
    | split
    | intro _

theorem execHostOrCxlLinkError_keeps {link : HostLink} {s : State}
    (hs : Keeps que s) : KeepsOut que (execHostOrCxlLinkError link s) := by
  unfold execHostOrCxlLinkError
  repeat' first
    | with_reducible assumption
    | with_reducible apply State.linkError_keeps
    | with_reducible apply keepsOut_next
    | with_reducible refine keeps_ite ?_ ?_

theorem State.linkRetry_keeps {s : State} (hs : Keeps que s) : Keeps que (State.linkRetry s) := by
  unfold State.linkRetry
  repeat' first
    | with_reducible assumption
    | with_reducible apply State.tryAgain_keeps
    | with_reducible refine keeps_foldl _ ?_ ?_
    | with_reducible refine keeps_ite ?_ ?_
    | split
    | intro _

theorem execHostOrCxlLinkUp_keeps {link : HostLink} {s : State}
    (hs : Keeps que s) : KeepsOut que (execHostOrCxlLinkUp link s) := by
  unfold execHostOrCxlLinkUp
  dsimp only
  repeat' first
    | with_reducible assumption
    | with_reducible apply State.pump_keeps
    | with_reducible apply State.modMem_keeps
    | with_reducible apply State.linkRetry_keeps
    | (simp only [keeps_mk]; with_reducible refine Keeps.parts ?_)
    | with_reducible apply keepsOut_next
    | with_reducible refine MemSys.Sound.same (Keeps.sound (q := que) ?_) rfl rfl rfl rfl rfl rfl
    | split

theorem execBusMasterEnable_keeps {s : State} (hs : Keeps que s) : KeepsOut que (execBusMasterEnable s) := by
  unfold execBusMasterEnable
  dsimp only
  repeat' first
    | with_reducible assumption
    | with_reducible apply State.pump_keeps
    | (simp only [keeps_mk]; with_reducible refine Keeps.parts ?_)
    | with_reducible apply keepsOut_next
    | split

theorem execPciePowerStateChange_keeps {d3hot : Bool} {s : State}
    (hs : Keeps que s) : KeepsOut que (execPciePowerStateChange d3hot s) := by
  unfold execPciePowerStateChange
  dsimp only
  repeat' first
    | with_reducible assumption
    | with_reducible apply State.pump_keeps
    | (simp only [keeps_mk]; with_reducible refine Keeps.parts ?_)
    | with_reducible apply keepsOut_next
    | split

end Sys2Proof.Machine
end

