-- ==== Sys2Proof/Laws/KeepsUmp.lean ====
section
/-! SUPPORT. What `Machine/Ump.lean` changes keeps the state sound and its queue as it is. -/

namespace Sys2Proof.Machine

variable {que : List Instr}

/-- The state that a reply may hold keeps. -/
def KeepsRep (que : List Instr) (r : Reply) : Prop := ∀ t n b, r = .done t n b → Keeps que t

theorem keepsRep_done {s : State} {n : Nat} {b : List Byte} (h : Keeps que s) : KeepsRep que (.done s n b) :=
  fun t _ _ e => by cases e; exact h

theorem keepsRep_wait : KeepsRep que .wait := fun _ _ _ e => nomatch e

theorem keepsRep_ite {c : Prop} [Decidable c] {a b : Reply} (h : KeepsRep que a) (h' : KeepsRep que b) :
    KeepsRep que (if c then a else b) := by
  split
  · exact h
  · exact h'

/-- The state beside the bytes that an option may hold keeps. -/
def KeepsOp (que : List Instr) (o : Option (List Byte × State)) : Prop := ∀ b t, o = some (b, t) → Keeps que t

theorem keepsOp_some {s : State} {b : List Byte} (h : Keeps que s) : KeepsOp que (some (b, s)) :=
  fun _ t e => by cases e; exact h

theorem keepsOp_none : KeepsOp que none := fun _ _ e => nomatch e

theorem keepsOp_get {o : Option (List Byte × State)} {b : List Byte} {s : State} (e : o = some (b, s)) (h : KeepsOp que o) :
    Keeps que s := h b s e

theorem State.complete_keeps {s : State} {h : Held} {status : Nat} {resp : List Byte} (hs : Keeps que s) :
    Keeps que (s.complete h status resp) := by
  have he (s : State) (e : List Byte) (b : Bool) (n : Nat) (hs : Keeps que s) :
      Keeps que { s with host := { s.host with evQueue := s.host.evQueue ++ [(e, b, some n)] } } :=
    keeps_mk.2 (hs.partsEvents (by rw [List.filter_append]; exact (List.append_nil _).symm ▸ hs.bounded.events))
  unfold State.complete
  refine keeps_ite (State.modBox_keeps hs) ?_
  have h1 (f : Mailbox → Mailbox) := State.modBox_keeps (m := h.mbx) (f := f) hs
  exact keeps_ite (State.pump_keeps (he _ _ _ _ (keeps_ite (State.emitH_keeps (h1 _)) (h1 _))))
    (State.freeBox_keeps (keeps_ite (State.emitH_keeps (h1 _)) (h1 _)))

theorem State.runUmp_keeps {s : State} {mbx : Fin 9} {mine : Nat → Bool} {act : State → List Byte → Reply} (hs : Keeps que s)
    (h : ∀ s b, Keeps que s → KeepsRep que (act s b)) : KeepsOut que (s.runUmp mbx mine act) := by
  unfold State.runUmp
  repeat' first
    | exact keepsOut_next hs
    | exact keepsOut_next (State.complete_keeps hs)
    | exact keepsOut_next (State.complete_keeps (h _ _ hs _ _ _ (by assumption)))
    | split

theorem State.withBuf_keeps {s : State} {ref : List Byte} {act : HostBuf → Reply}
    (hs : Keeps que s) (hact : ∀ b, KeepsRep que (act b)) : KeepsRep que (State.withBuf s ref act) := by
  unfold State.withBuf
  dsimp only
  repeat' first
    | with_reducible assumption
    | with_reducible apply hact
    | with_reducible apply keepsRep_done
    | with_reducible exact keepsRep_wait
    | with_reducible refine keepsRep_ite ?_ ?_
    | split

theorem State.withFull_keeps {s : State} {ref : List Byte} {act : HostBuf → Reply}
    (hs : Keeps que s) (hact : ∀ b, KeepsRep que (act b)) : KeepsRep que (State.withFull s ref act) := by
  unfold State.withFull
  repeat' first
    | with_reducible assumption
    | with_reducible apply hact
    | with_reducible apply State.withBuf_keeps
    | with_reducible apply keepsRep_done
    | with_reducible refine keepsRep_ite ?_ ?_
    | intro _

theorem execIdentify_keeps {mbx : Fin 9} {s : State} (hs : Keeps que s) : KeepsOut que (execIdentify mbx s) := by
  unfold execIdentify
  repeat' first
    | with_reducible assumption
    | with_reducible apply State.runUmp_keeps
    | with_reducible apply keepsRep_done
    | intro _

theorem execHello_keeps {mbx : Fin 9} {s : State} (hs : Keeps que s) : KeepsOut que (execHello mbx s) := by
  unfold execHello
  dsimp only
  repeat' first
    | with_reducible assumption
    | with_reducible apply State.runUmp_keeps
    | (simp only [keeps_mk]; with_reducible refine Keeps.parts ?_)
    | with_reducible apply keepsRep_done
    | split
    | intro _

theorem execCaps_keeps {mbx : Fin 9} {s : State} (hs : Keeps que s) : KeepsOut que (execCaps mbx s) := by
  unfold execCaps
  repeat' first
    | with_reducible assumption
    | with_reducible apply State.runUmp_keeps
    | with_reducible apply keepsRep_done
    | intro _

theorem execFwStage_keeps {mbx : Fin 9} {s : State} (hs : Keeps que s) : KeepsOut que (execFwStage mbx s) := by
  unfold execFwStage
  try dsimp only
  repeat' first
    | with_reducible assumption
    | with_reducible apply State.writeFw_keeps
    | with_reducible apply TaskRun.done_keeps
    | with_reducible apply State.runUmp_keeps
    | with_reducible apply State.withFull_keeps
    | with_reducible refine MemSys.Sound.same (Keeps.sound (q := que) ?_) rfl rfl rfl rfl rfl rfl
    | (simp only [keeps_mk]; with_reducible refine Keeps.parts ?_)
    | with_reducible apply keepsOut_next
    | with_reducible apply keepsRep_done
    | with_reducible exact keepsRep_wait
    | with_reducible refine keeps_ite ?_ ?_
    | with_reducible refine keepsRep_ite ?_ ?_
    | split
    | intro _

theorem State.selectTrial_keeps {s : State} {b : Bool} {reset : Bool}
    (hs : Keeps que s) : Keeps que (State.selectTrial s b reset) := by
  unfold State.selectTrial
  dsimp only
  repeat' first
    | with_reducible assumption
    | (simp only [keeps_mk]; with_reducible refine Keeps.parts ?_)

theorem execFwActivate_keeps {mbx : Fin 9} {s : State} (hs : Keeps que s) : KeepsOut que (execFwActivate mbx s) := by
  unfold execFwActivate
  dsimp only
  repeat' first
    | with_reducible assumption
    | with_reducible apply State.runUmp_keeps
    | with_reducible apply State.selectTrial_keeps
    | (simp only [keeps_mk]; with_reducible refine Keeps.parts ?_)
    | with_reducible apply keepsRep_done
    | split
    | intro _

theorem execAttest_keeps {mbx : Fin 9} {s : State} (hs : Keeps que s) : KeepsOut que (execAttest mbx s) := by
  unfold execAttest
  dsimp only
  repeat' first
    | with_reducible assumption
    | with_reducible apply State.writeBuf_keeps
    | with_reducible apply State.runUmp_keeps
    | with_reducible apply State.withFull_keeps
    | with_reducible apply keepsRep_done
    | with_reducible refine keepsRep_ite ?_ ?_
    | intro _

theorem State.jobReset_keeps {s : State} (hs : Keeps que s) : Keeps que s.jobReset := by
  unfold State.jobReset
  refine keeps_foldl _ ?_ fun s p hs => ?_
  · simp only [keeps_mk]
    exact ⟨hs.queue, { hs.sound with tlb := Nat.zero_le _, faults := Nat.zero_le _ }, SoundCores.map hs.cores fun _ _ => holds_none,
      { hs.bounded with boundaries := Nat.zero_le _, twin := Nat.zero_le _ }⟩
  · split
    · exact State.takeOut_keeps hs
    · exact hs

theorem execJobCreate_keeps {mbx : Fin 9} {s : State} (hs : Keeps que s) : KeepsOut que (execJobCreate mbx s) := by
  unfold execJobCreate
  dsimp only
  repeat' first
    | with_reducible assumption
    | with_reducible apply State.postJob_keeps
    | with_reducible apply State.failSet_keeps
    | with_reducible apply State.startTests_keeps
    | with_reducible apply State.runUmp_keeps
    | with_reducible apply State.withBuf_keeps
    | with_reducible apply State.withFull_keeps
    | with_reducible apply State.jobReset_keeps
    | (simp only [keeps_mk]; with_reducible refine Keeps.parts ?_)
    | with_reducible apply keepsRep_done
    | split
    | intro _

theorem execJobLoad_keeps {mbx : Fin 9} {s : State} (hs : Keeps que s) : KeepsOut que (execJobLoad mbx s) := by
  unfold execJobLoad
  dsimp only
  repeat' first
    | with_reducible assumption
    | with_reducible apply State.flood_keeps
    | with_reducible apply State.load_keeps
    | with_reducible apply State.runUmp_keeps
    | with_reducible apply State.withFull_keeps
    | with_reducible refine keeps_foldl _ ?_ ?_
    | with_reducible refine keeps_snd (by assumption) ?_
    | with_reducible apply keepsRep_done
    | split
    | intro _

theorem State.mapHost_keeps {s : State} {r : Region} {off : Nat} {b : HostBuf} (hs : Keeps que s) :
    Keeps que (s.mapHost r off b) := by
  unfold State.mapHost
  refine State.modMem_keeps hs ?_
  have hd := hs.sound.addDirs ((r.base + off - hostBase) / 4096) (cdiv b.total 4096)
  exact ⟨hd.gddr, hd.staging, hd.scree, hd.host, Nat.le_trans (List.length_filter_le ..) hs.sound.tlb, hd.faults⟩

theorem State.bindWhole_keeps {s : State} {id : Nat} {b : HostBuf}
    (hs : Keeps que s) : KeepsRep que (State.bindWhole s id b) := by
  unfold State.bindWhole
  dsimp only
  repeat' first
    | with_reducible assumption
    | with_reducible apply State.mapHost_keeps
    | (simp only [keeps_mk]; with_reducible refine Keeps.parts ?_)
    | with_reducible apply keepsRep_done
    | with_reducible refine keepsRep_ite ?_ ?_
    | split

theorem State.bindPages_keeps {s : State} {id : Nat} {off : Nat} {b : HostBuf}
    (hs : Keeps que s) : KeepsRep que (State.bindPages s id off b) := by
  unfold State.bindPages
  dsimp only
  repeat' first
    | with_reducible assumption
    | with_reducible apply State.retryPage_keeps
    | with_reducible apply State.mapHost_keeps
    | with_reducible refine keeps_foldl _ ?_ ?_
    | with_reducible apply keepsRep_done
    | with_reducible refine keepsRep_ite ?_ ?_
    | split

theorem execRegionBind_keeps {mbx : Fin 9} {s : State} (hs : Keeps que s) : KeepsOut que (execRegionBind mbx s) := by
  unfold execRegionBind
  dsimp only
  repeat' first
    | with_reducible assumption
    | with_reducible apply State.runUmp_keeps
    | with_reducible apply State.withFull_keeps
    | with_reducible apply State.bindWhole_keeps
    | with_reducible apply State.bindPages_keeps
    | (simp only [keeps_mk]; with_reducible refine Keeps.parts ?_)
    | with_reducible apply keepsRep_done
    | split
    | intro _

theorem State.sendTwinIdentity_keeps {s : State} (hs : Keeps que s) : Keeps que (State.sendTwinIdentity s) := by
  unfold State.sendTwinIdentity
  repeat' first
    | with_reducible assumption
    | with_reducible apply State.toPartner_keeps
    | with_reducible refine keeps_ite ?_ ?_

theorem scanCapture_keeps {n off : Nat} {s : State} (hs : Keeps que s) : Keeps que (scanCapture n off s).1 := by
  induction n generalizing off s with
  | zero => exact hs
  | succ n ih =>
    unfold scanCapture
    split
    rename_i heq
    have h := keeps_fst heq (State.readCapture_keeps hs)
    dsimp only
    split
    · exact h
    · exact ih h

theorem execJobStart_keeps {mbx : Fin 9} {s : State} (hs : Keeps que s) : KeepsOut que (execJobStart mbx s) := by
  unfold execJobStart
  try dsimp only
  repeat' first
    | with_reducible assumption
    | with_reducible apply scanCapture_keeps
    | with_reducible apply State.fresh_keeps
    | with_reducible apply State.mapCores_keeps
    | with_reducible apply State.setJobState_keeps
    | with_reducible apply State.checkComplete_keeps
    | with_reducible apply TaskRun.done_keeps
    | with_reducible apply State.runUmp_keeps
    | with_reducible apply State.sendTwinIdentity_keeps
    | (simp only [keeps_mk]; with_reducible refine Keeps.parts ?_)
    | with_reducible apply keepsOut_next
    | with_reducible apply keepsRep_done
    | with_reducible exact keepsRep_wait
    | with_reducible refine keeps_ite ?_ ?_
    | with_reducible refine keepsRep_ite ?_ ?_
    | split
    | intro _

theorem execJobPause_keeps {mbx : Fin 9} {s : State} (hs : Keeps que s) : KeepsOut que (execJobPause mbx s) := by
  unfold execJobPause
  repeat' first
    | with_reducible assumption
    | with_reducible apply State.pauseAll_keeps
    | with_reducible apply State.runUmp_keeps
    | with_reducible apply keepsRep_done
    | intro _

theorem execJobResume_keeps {mbx : Fin 9} {s : State} (hs : Keeps que s) : KeepsOut que (execJobResume mbx s) := by
  unfold execJobResume
  repeat' first
    | with_reducible assumption
    | with_reducible apply State.resumeAll_keeps
    | with_reducible apply State.runUmp_keeps
    | with_reducible apply keepsRep_done
    | intro _

theorem State.abortJob_keeps {s : State} {reason : Nat} (hs : Keeps que s) : Keeps que (s.abortJob reason) := by
  unfold State.abortJob
  have h := State.failSet_keeps (reason := 4) hs
  revert h
  generalize s.failSet 4 = s
  intro h
  have hp : Keeps que ({ s with ckpt := { s.ckpt with pendingB := [], restore := none } } : State).showPhase :=
    State.showPhase_keeps (keeps_mk.2 ⟨h.queue, h.sound, h.cores, { h.bounded with boundaries := Nat.zero_le _ }⟩)
  exact State.setJobState_keeps (State.mapCores_keeps (State.modMem_keeps hp { hp.sound with faults := Nat.zero_le _ }) fun _ hc =>
    sound_ite hc (sound_foldl _ hc fun _ _ h => Core.abortTask_sound h))

theorem execJobAbort_keeps {mbx : Fin 9} {s : State} (hs : Keeps que s) : KeepsOut que (execJobAbort mbx s) := by
  unfold execJobAbort
  dsimp only
  repeat' first
    | with_reducible assumption
    | with_reducible apply State.flood_keeps
    | with_reducible apply State.runUmp_keeps
    | with_reducible apply State.abortJob_keeps
    | (simp only [keeps_mk]; with_reducible refine Keeps.parts ?_)
    | with_reducible apply keepsRep_done
    | intro _

theorem execJobControlMessage_keeps {port : Fin 6} {ctl : Ctl} {payload : List Byte} {s : State}
    (hs : Keeps que s) : KeepsOut que (execJobControlMessage port ctl payload s) := by
  unfold execJobControlMessage
  dsimp only
  repeat' first
    | with_reducible assumption
    | with_reducible apply State.setJobState_keeps
    | with_reducible apply State.runOn_keeps
    | with_reducible apply State.relayCtl_keeps
    | with_reducible apply State.abortJob_keeps
    | (simp only [keeps_mk]; with_reducible refine Keeps.parts ?_)
    | with_reducible apply keepsOut_next
    | with_reducible refine keeps_ite ?_ ?_
    | split

theorem execCkptRequest_keeps {mbx : Fin 9} {s : State} (hs : Keeps que s) : KeepsOut que (execCkptRequest mbx s) := by
  unfold execCkptRequest
  repeat' first
    | with_reducible assumption
    | with_reducible apply State.requestBoundary_keeps
    | with_reducible apply State.sendRequest_keeps
    | with_reducible apply State.runUmp_keeps
    | with_reducible apply keepsRep_done
    | split
    | intro _

theorem State.slotRecord_keeps {s : State} {b : Bool} (hs : Keeps que s) : Keeps que (State.slotRecord s b).1 := by
  unfold State.slotRecord
  try dsimp only
  repeat' first
    | with_reducible assumption
    | with_reducible apply State.validPart_keeps
    | (simp only [keeps_mk]; with_reducible refine Keeps.parts ?_)
    | split
    | with_reducible refine keeps_get (by assumption) ?_
    | with_reducible refine keeps_snd (by assumption) ?_
    | with_reducible refine keeps_fst (by assumption) ?_

theorem State.trimCapture_keeps {s : State} {b : Nat} (hs : Keeps que s) : Keeps que (State.trimCapture s b) := by
  unfold State.trimCapture
  split
  rename_i heq
  have h := keeps_fst heq (keeps_foldlP _ hs fun _ _ h => State.readCapture_keeps h)
  exact keeps_mk.2 (State.writeCapture_keeps h).parts

theorem State.commitGen_keeps {s : State} {gen : Nat} (hs : Keeps que s) : KeepsRep que (State.commitGen s gen) := by
  unfold State.commitGen
  dsimp only
  repeat' first
    | with_reducible assumption
    | with_reducible apply State.trimCapture_keeps
    | (simp only [keeps_mk]; with_reducible refine Keeps.parts ?_)
    | with_reducible refine keeps_ite ?_ ?_
    | with_reducible apply keepsRep_done
    | with_reducible refine keepsRep_ite ?_ ?_

theorem State.beginDrain_keeps {s : State} {slot : Nat} {w : Nat} {rate : Nat}
    (hs : Keeps que s) : KeepsRep que (State.beginDrain s slot w rate) := by
  unfold State.beginDrain
  try dsimp only
  repeat' first
    | with_reducible assumption
    | with_reducible apply State.showPhase_keeps
    | with_reducible apply TaskRun.done_keeps
    | with_reducible apply TaskRun.drain_keeps
    | with_reducible apply State.ckptNote_keeps
    | with_reducible refine MemSys.Sound.same (Keeps.sound (q := que) ?_) rfl rfl rfl rfl rfl rfl
    | (simp only [keeps_mk]; with_reducible refine Keeps.parts ?_)
    | with_reducible apply keepsRep_done
    | with_reducible exact keepsRep_wait
    | with_reducible refine keeps_ite ?_ ?_
    | with_reducible refine keepsRep_ite ?_ ?_
    | split

theorem execCkptStatus_keeps {mbx : Fin 9} {s : State} (hs : Keeps que s) : KeepsOut que (execCkptStatus mbx s) := by
  unfold execCkptStatus
  try dsimp only
  repeat' first
    | with_reducible assumption
    | with_reducible apply TaskRun.done_keeps
    | with_reducible apply State.runUmp_keeps
    | with_reducible apply State.slotRecord_keeps
    | with_reducible apply State.commitGen_keeps
    | with_reducible apply State.beginDrain_keeps
    | (simp only [keeps_mk]; with_reducible refine Keeps.parts ?_)
    | with_reducible apply keepsOut_next
    | with_reducible apply keepsRep_done
    | with_reducible exact keepsRep_wait
    | split
    | intro _
    | with_reducible refine keeps_get (by assumption) ?_
    | with_reducible refine keeps_snd (by assumption) ?_
    | with_reducible refine keeps_fst (by assumption) ?_

theorem execRestore_keeps {mbx : Fin 9} {s : State} (hs : Keeps que s) : KeepsOut que (execRestore mbx s) := by
  unfold execRestore
  try dsimp only
  repeat' first
    | with_reducible assumption
    | with_reducible apply State.showPhase_keeps
    | with_reducible apply TaskRun.done_keeps
    | with_reducible apply State.ckptNote_keeps
    | with_reducible apply State.runUmp_keeps
    | (simp only [keeps_mk]; with_reducible refine Keeps.parts ?_)
    | with_reducible apply keepsOut_next
    | with_reducible apply keepsRep_done
    | with_reducible exact keepsRep_wait
    | with_reducible refine keeps_ite ?_ ?_
    | with_reducible refine keepsRep_ite ?_ ?_
    | split
    | intro _

theorem execTestPush_keeps {mbx : Fin 9} {s : State} (hs : Keeps que s) : KeepsOut que (execTestPush mbx s) := by
  unfold execTestPush
  dsimp only
  repeat' first
    | with_reducible assumption
    | with_reducible apply State.takePackage_keeps
    | with_reducible apply State.floodPackage_keeps
    | with_reducible apply State.runUmp_keeps
    | with_reducible apply State.withFull_keeps
    | with_reducible refine keeps_ite ?_ ?_
    | with_reducible apply keepsRep_done
    | split
    | intro _

theorem execTestStatus_keeps {mbx : Fin 9} {s : State} (hs : Keeps que s) : KeepsOut que (execTestStatus mbx s) := by
  unfold execTestStatus
  repeat' first
    | with_reducible assumption
    | with_reducible apply State.runUmp_keeps
    | with_reducible apply keepsRep_done
    | split
    | intro _

theorem State.memTelemetry_keeps {s : State} (hs : Keeps que s) : Keeps que (State.memTelemetry s).2 := by
  unfold State.memTelemetry
  dsimp only
  repeat' first
    | with_reducible assumption
    | with_reducible apply State.fresh_keeps

theorem State.telemetry_keeps {s : State} {selector : Nat} {unit : Nat}
    (hs : Keeps que s) : KeepsOp que (State.telemetry s selector unit) := by
  unfold State.telemetry
  dsimp only
  repeat' first
    | with_reducible assumption
    | with_reducible apply State.summary_keeps
    | with_reducible apply State.memTelemetry_keeps
    | with_reducible apply keepsOp_some
    | with_reducible exact keepsOp_none
    | split

theorem execTelemetry_keeps {mbx : Fin 9} {s : State} (hs : Keeps que s) : KeepsOut que (execTelemetry mbx s) := by
  unfold execTelemetry
  dsimp only
  repeat' first
    | with_reducible assumption
    | with_reducible apply State.writeBuf_keeps
    | with_reducible apply State.runUmp_keeps
    | with_reducible apply State.withFull_keeps
    | with_reducible apply State.telemetry_keeps
    | (simp only [keeps_mk]; with_reducible refine Keeps.parts ?_)
    | with_reducible apply keepsRep_done
    | with_reducible refine keepsRep_ite ?_ ?_
    | with_reducible refine keepsOp_get (by assumption) ?_
    | split
    | intro _

theorem execLogRead_keeps {mbx : Fin 9} {s : State} (hs : Keeps que s) : KeepsOut que (execLogRead mbx s) := by
  unfold execLogRead
  dsimp only
  repeat' first
    | with_reducible assumption
    | with_reducible apply State.writeBuf_keeps
    | with_reducible apply State.runUmp_keeps
    | with_reducible apply State.withFull_keeps
    | with_reducible apply keepsRep_done
    | intro _

theorem execPowerPolicy_keeps {mbx : Fin 9} {s : State} (hs : Keeps que s) : KeepsOut que (execPowerPolicy mbx s) := by
  unfold execPowerPolicy
  try dsimp only
  repeat' first
    | with_reducible assumption
    | with_reducible apply State.domainRequest_keeps
    | with_reducible apply State.idleSlices_keeps
    | with_reducible apply TaskRun.done_keeps
    | with_reducible apply State.runUmp_keeps
    | (simp only [keeps_mk]; with_reducible refine Keeps.parts ?_)
    | with_reducible apply keepsOut_next
    | with_reducible apply keepsRep_done
    | with_reducible exact keepsRep_wait
    | with_reducible refine keeps_ite ?_ ?_
    | with_reducible refine keepsRep_ite ?_ ?_
    | with_reducible refine keeps_foldl _ ?_ ?_
    | split
    | intro _

theorem State.linkRecord_keeps {s : State} {n : Nat} (hs : Keeps que s) : Keeps que (State.linkRecord s n).1 := by
  unfold State.linkRecord
  dsimp only
  repeat' first
    | with_reducible assumption
    | with_reducible apply State.fresh_keeps
    | split

theorem State.linkRecords_keeps {l : List Nat} {a : State × List Byte} (h : Keeps que a.1) :
    Keeps que (l.foldl (fun (a : State × List Byte) n => ((a.1.linkRecord n).1, a.2 ++ (a.1.linkRecord n).2)) a).1 :=
  keeps_foldlP2 (f := fun (a : State × List Byte) n => (a.1.linkRecord n).1) l h fun _ _ h => State.linkRecord_keeps h

theorem execLinkStatus_keeps {mbx : Fin 9} {s : State} (hs : Keeps que s) : KeepsOut que (execLinkStatus mbx s) := by
  unfold execLinkStatus
  refine State.runUmp_keeps hs fun s p h => ?_
  dsimp only
  split
  · exact keepsRep_done (State.linkRecord_keeps h)
  · exact keepsRep_ite (keepsRep_done (State.linkRecords_keeps h)) (keepsRep_done h)

theorem execCoreRetire_keeps {mbx : Fin 9} {s : State} (hs : Keeps que s) : KeepsOut que (execCoreRetire mbx s) := by
  unfold execCoreRetire
  dsimp only
  repeat' first
    | with_reducible assumption
    | with_reducible apply State.retireCore_keeps
    | with_reducible apply State.runUmp_keeps
    | with_reducible apply keepsRep_done
    | split
    | intro _

theorem execDebugAttach_keeps {mbx : Fin 9} {s : State} (hs : Keeps que s) : KeepsOut que (execDebugAttach mbx s) := by
  unfold execDebugAttach
  dsimp only
  repeat' first
    | with_reducible assumption
    | with_reducible apply State.modCore_keeps
    | exact fun _ h => Core.stop_sound h
    | with_reducible apply State.runUmp_keeps
    | with_reducible apply keepsRep_done
    | split
    | intro _

theorem execUnknownOpcode_keeps {mbx : Fin 9} {s : State} (hs : Keeps que s) : KeepsOut que (execUnknownOpcode mbx s) := by
  unfold execUnknownOpcode
  repeat' first
    | with_reducible assumption
    | with_reducible apply State.runUmp_keeps
    | with_reducible apply keepsRep_done
    | intro _

end Sys2Proof.Machine
end

