-- ==== Sys2Proof/Laws/KeepsTick.lean ====
section
/-! SUPPORT. What `Machine/Tick.lean` changes keeps the state sound and its queue as it is. -/

namespace Sys2Proof.Machine

variable {que : List Instr}

theorem State.period_keeps {s : State} {p : Fin 20} (hs : Keeps que s) : Keeps que (State.period s p) := by
  unfold State.period
  try dsimp only
  repeat' first
    | with_reducible assumption
    | with_reducible apply State.modCore_keeps
    | with_reducible exact fun _ h => h
    | with_reducible apply State.passTo_keeps
    | with_reducible apply State.freezeFor_keeps
    | (simp only [keeps_mk]; with_reducible refine Keeps.parts ?_)
    | with_reducible refine keeps_ite ?_ ?_
    | split

theorem State.idleScrub_keeps {s : State} {p : Fin 20} {clk : Nat} (hs : Keeps que s) : Keeps que (State.idleScrub s p clk) := by
  unfold State.idleScrub
  try dsimp only
  repeat' first
    | with_reducible assumption
    | with_reducible apply State.modCore_keeps
    | with_reducible apply State.modV_keeps
    | exact fun _ h => Core.raise_sound h
    | with_reducible apply State.charge_keeps
    | (simp only [keeps_mk]; with_reducible refine Keeps.parts ?_)
    | with_reducible refine keeps_ite ?_ ?_
    | with_reducible refine keeps_foldl _ ?_ ?_
    | split
    | intro _
    | with_reducible refine keeps_get (by assumption) ?_
    | with_reducible refine keeps_snd (by assumption) ?_
    | with_reducible refine keeps_fst (by assumption) ?_

theorem State.tickCore_keeps {s : State} {p : Fin 20} (hs : Keeps que s) : Keeps que (State.tickCore s p) := by
  unfold State.tickCore
  try dsimp only
  repeat' first
    | with_reducible assumption
    | with_reducible apply State.modCore_keeps
    | exact fun _ h => Core.upset_sound h
    | with_reducible apply State.writeTrace_keeps
    | with_reducible apply State.advanceWaiting_keeps
    | with_reducible apply State.period_keeps
    | with_reducible apply State.idleScrub_keeps
    | (simp only [keeps_mk]; with_reducible refine Keeps.parts ?_)
    | with_reducible refine keeps_ite ?_ ?_
    | split

theorem State.creditTick_keeps {s : State} {n : Nat} (hs : Keeps que s) : Keeps que (State.creditTick s n) := by
  unfold State.creditTick
  try dsimp only
  repeat' first
    | with_reducible assumption
    | with_reducible apply State.modPort_keeps
    | with_reducible apply State.flushPort_keeps
    | (simp only [keeps_mk]; with_reducible refine Keeps.parts ?_)
    | with_reducible refine keeps_ite ?_ ?_
    | split
    | intro _

theorem State.tick_keeps {s : State} (hs : Keeps que s) : Keeps que (State.tick s) := by
  unfold State.tick
  try dsimp only
  repeat' first
    | with_reducible assumption
    | with_reducible apply State.turnarounds_keeps
    | with_reducible apply State.memoryUpsets_keeps
    | with_reducible apply State.releaseGuard_keeps
    | with_reducible apply State.retryRx_keeps
    | with_reducible apply State.sampleMirror_keeps
    | with_reducible apply State.tickCore_keeps
    | with_reducible apply State.creditTick_keeps
    | (simp only [keeps_mk]; with_reducible refine Keeps.parts ?_)
    | with_reducible refine keeps_ite ?_ ?_
    | with_reducible refine keeps_foldl _ ?_ ?_
    | split
    | intro _

end Sys2Proof.Machine
end

