-- ==== Sys2Proof/Laws/Only.lean ====
section
/-! SUPPORT. The running instructions of a core change nothing outside it (`State.OnlyCore`). -/

namespace Sys2Proof.Machine

variable {p : Fin 20} {s t : State}

theorem State.charge_zero (s : State) (b : Nat) (h : b < 128) : (s.charge b 0 0 0).chk = s.chk := by
  unfold State.charge
  dsimp only
  rw [Vector.set!_eq_setIfInBounds, getElem!_pos s.chk.buckets b h]
  have e : s.chk.buckets.setIfInBounds b s.chk.buckets[b] = s.chk.buckets := by
    ext i hi
    by_cases hb : b = i
    · subst hb; simp
    · simp [hb]
  exact congrArg (fun v => { s.chk with buckets := v }) e

theorem State.charge_charge (s : State) (b m n : Nat) (h : b < 128) :
    ((s.charge b m 0 0).charge b n 0 0).chk = (s.charge b (m + n) 0 0).chk := by
  unfold State.charge
  dsimp only
  simp [Vector.set!_eq_setIfInBounds, getElem!_pos, h, Nat.add_assoc]

theorem State.charge_chk {s t : State} (h : t.chk = s.chk) (b n : Nat) : (t.charge b n 0 0).chk = (s.charge b n 0 0).chk := by
  unfold State.charge; rw [h]

theorem State.OnlyCore.refl (p : Fin 20) (s : State) : s.OnlyCore p s :=
  ⟨fun _ _ => rfl, rfl, rfl, ⟨s.rep.units, rfl⟩, rfl, ⟨0, (State.charge_zero s _ (by omega)).symm⟩, rfl, rfl, rfl, rfl, rfl, .inl rfl⟩

theorem State.onlyCore_closed (p : Fin 20) (s : State) : CoreClosed p (s.OnlyCore p) where
  core h _ := { h with others := fun q hq => (State.core_modCore_ne _ hq _).trans (h.others q hq) }
  fresh h := { h with others := h.others }
  unit {t u f} h := { h with
    others := h.others
    rep := by
      obtain ⟨units, e⟩ := h.rep
      exact ⟨t.rep.units.set! u (f t.rep.units[u]!), by simp [State.modUnit, e]⟩ }
  charge {t n} h := { h with
    others := h.others
    corrected := by
      obtain ⟨m, e⟩ := h.corrected
      exact ⟨m + n, ((State.charge_chk e _ _).trans (State.charge_charge s _ m n (by omega)))⟩ }

/-- Time passing on a core leaves everything outside it, corrected errors apart. -/
theorem State.advance_only (s : State) (p : Fin 20) (t : Nat) : s.OnlyCore p (s.advance p t) :=
  State.advance_closed (State.onlyCore_closed p s) (.refl p s)

/-- Time passing on a core leaves every other core. -/
theorem State.advance_core_ne {p q : Fin 20} (h : q ≠ p) (t : Nat) : (s.advance p t).core q = s.core q :=
  (s.advance_only p t).others q h

end Sys2Proof.Machine
end

