-- ==== Sys2Proof/Laws/Ports.lean ====
section
/-! SUPPORT. Reading and changing a fabric port by number and by index. -/

namespace Sys2Proof.Machine

variable (s : State) (port : Fin 8)

theorem Fabric.ports_fin (f : Fabric) : f.ports[port.val]! = f.ports[port] := by
  rw [getElem!_pos f.ports port.val port.isLt]; rfl

theorem State.port_fin : s.port port.val = s.fab.ports[port] := Fabric.ports_fin port s.fab

theorem State.modPort_port (f : Port → Port) : (s.modPort port.val f).port port.val = f s.fab.ports[port] := by
  rw [State.port_fin]; unfold State.modPort
  dsimp only
  rw [Fabric.ports_fin]
  rw [Vector.set!_eq_setIfInBounds]
  exact Vector.getElem_setIfInBounds_self port.isLt

end Sys2Proof.Machine
end

