-- ==== Sys2Proof/Laws/Ump.lean ====
section
/-! SUPPORT. What a UMP command that firmware takes comes to: its own action, on its host buffer where it names one. -/

namespace Sys2Proof.Machine
theorem State.runUmp_takes {s : State} {mbx : Fin 9} {op : Nat} {h : Held} {mine : Nat → Bool} {act : State → List Byte → Reply}
    (t : s.Takes mbx op h) (hm : mine op = true) :
    s.runUmp mbx mine act = match act s h.payload with
      | .wait => .next s
      | .done t status resp => .next (t.complete h status resp) := by
  unfold State.runUmp
  rw [t.serves, t.next]
  dsimp only
  rw [t.box, t.opcode, hm, t.passes, if_neg (by decide)]
  exact if_neg (by simp)

theorem State.withBuf_none {s : State} {ref : List Byte} {act : HostBuf → Reply} (h : natAt ref 12 4 = 0) :
    s.withBuf ref act = act ⟨[], 0⟩ := by
  unfold State.withBuf; dsimp only; rw [if_pos h]

theorem State.withBuf_of {s : State} {ref : List Byte} {b : HostBuf} {act : HostBuf → Reply} (h : s.HostBuffer ref b) :
    s.withBuf ref act = act b := by
  have hp : s.host.pcieUp = true := by
    have := h.dma
    unfold HostSide.dma at this
    simp only [Bool.and_eq_true] at this
    exact this.1.1
  unfold State.withBuf
  dsimp only
  rw [if_neg h.total, hp, h.dma, h.extents]
  simp

theorem State.HostBuffer.total_ne {s : State} {ref : List Byte} {b : HostBuf} (h : s.HostBuffer ref b) : b.total ≠ 0 := by
  have e := h.extents
  unfold State.extents at e
  split at e
  · cases e
  · dsimp only at e
    split at e
    · cases e; exact h.total
    · cases e

theorem State.withFull_of {s : State} {ref : List Byte} {b : HostBuf} {act : HostBuf → Reply} (h : s.HostBuffer ref b) :
    s.withFull ref act = act b := by
  unfold State.withFull
  rw [State.withBuf_of h, if_neg h.total_ne]
end Sys2Proof.Machine
end

