-- ==== Sys2Proof/Tests/Slice0.lean ====
section
/-! SUPPORT. Tests: what WellFormed refuses, and for each statement of Certificates/Slice0 a concrete state and operands that
meet its hypotheses. Packages and signatures are judged by free values of Config, so a hypothesis that one is authentic has no
closed witness. -/

namespace Sys2Proof.Tests

open Sys2Proof.Machine

-- One theorem at a time: every one that waits for the kernel would hold a thread's stack.
set_option Elab.async false

/-! ### WellFormed refuses each ill-formed operand -/

theorem test_wf_reserved_word : Instr.wf (.reservedOpcode 0 0 0x001) = false ∧ Instr.wf (.reservedOpcode 0 0 0x3FF) = true := by
  decide +kernel
theorem test_wf_move : Instr.wf (.moveToSpare 3 3) = false ∧ Instr.wf (.moveToSpare 3 16) = true := by decide +kernel
theorem test_wf_scrubs :
    Instr.wf (.patrolScrub 0 0x3E00000 0 .clean) = false ∧ Instr.wf (.patrolScrub 0 0x3DFFFFF 0 .clean) = true ∧
    Instr.wf (.tileMemoryScrub 0 0x280000 .clean) = false ∧ Instr.wf (.tileMemoryScrub 0 0x27FFFF .clean) = true := by decide +kernel
theorem test_wf_slots :
    Instr.wf (.indexEntryRead 4096 .ok) = false ∧ Instr.wf (.sampleCacheLookup ⟨4096, .ok⟩) = false ∧ Instr.wf (.sampleFetch 4096 .ok) = false ∧
    Instr.wf (.sampleDecode 4096 0) = false ∧ Instr.wf (.slotComplete 4096) = false ∧ Instr.wf (.slotComplete 4095) = true := by
  decide +kernel
theorem test_wf_packets :
    Instr.wf (.packetReceive 0 (zeros 31)) = false ∧ Instr.wf (.packetReceive 0 (zeros 4129)) = false ∧
    Instr.wf (.packetReceive 0 (zeros 32)) = true ∧ Instr.wf (.blockReceive 0 0 0 0 .send (zeros 32) 0) = false ∧
    Instr.wf (.openReceive 0 0 0 .send (zeros 31)) = false := by decide +kernel
theorem test_wf_messages :
    Instr.wf (.linkStateNotice 0 ⟨0, 0, 0⟩ (zeros 15)) = false ∧ Instr.wf (.jobControlMessage 0 ⟨0, 0, 0⟩ (zeros 17)) = false ∧
    Instr.wf (.earlyCheckpointRequest 0 ⟨0, 0, 0⟩ (zeros 31)) = false ∧
    Instr.wf (.drainAndReplacementRequest 0 ⟨0, 0, 0⟩ (zeros 33)) = false ∧
    Instr.wf (.fieldTestChunk 0 ⟨0, 0, 0⟩ (zeros 32)) = false ∧ Instr.wf (.imageRelay 0 ⟨0, 0, 0⟩ (zeros 4097)) = false ∧
    Instr.wf (.twinRecordReceive (zeros 31) false) = false := by decide +kernel
theorem test_wf_host :
    Instr.wf (.checkpointBlockReceive true 0x1FFFFFFFFF (zeros 2)) = false ∧ Instr.wf (.shedLevelWindow 101 false) = false ∧
    Instr.wf (.bar2Read 0 0) = false ∧ Instr.wf (.bar2Read 0 4097) = false ∧ Instr.wf (.bar2Write 0 []) = false ∧
    Instr.wf (.bar2Write 0 (zeros 513)) = false ∧ Instr.wf (.thermalTrip 0 107) = false := by decide +kernel

theorem test_wf_lengths (bs cs : List Byte) (hb : bs.length = 1048609) (hc : cs.length = 2097153) :
    Instr.wf (.blockReceive 0 0 0 0 .send bs 0) = false ∧ Instr.wf (.checkpointBlockReceive true 0 cs) = false := by
  simp [Instr.wf, hb, hc]
theorem test_wf_chunks :
    Instr.wf (.fieldTestChunk 0 ⟨0, 0, 0⟩ (zeros 4097)) = false ∧ Instr.wf (.imageRelay 0 ⟨0, 0, 0⟩ (zeros 32)) = false := by
  decide +kernel

/-! ### A job with one virtual core -/

/-- A virtual core with strand 0 live and every engine claimed, one data region and its code, the E4M3 mode loaded. -/
def vc : VCore :=
  { num := 0, strands := (Vector.replicate 128 Strand.idle).set 0 { Strand.idle with live := true, claims := 0xF },
    tokens := Vector.replicate 256 0, stepTag := 0, flags := .none, vt := .zeroed 32, vm := .zeroed 1, acc := .zeroed 32,
    slotTags := Vector.replicate 512 .fp32, accBad := [], accSoft := [], tile := .zeroed 8, tileBad := [],
    tileSoft := [], vtBad := [],
    regions := [⟨0, 0, 0x100000, true, true, false⟩, ⟨1, 0x100000, 0x1000, true, false, true⟩],
    bounds := Vector.replicate 2 ⟨.off, .off, 0⟩, active := ⟨true, .e4m3, 0, [], []⟩, shadow := .unloaded, armed := none,
    buffers := Vector.replicate 16 ⟨0, 0, 0, 0⟩, codeBase := 0x100000, codeLen := 64, vIssued := false, shadowOk := false,
    witness := [(0, 0)] }

/-- The same with strand 0 in a wait. -/
def vw (w : Wait) : VCore := vc.modStrand 0 fun st => { st with wait := w }

/-- The device in Imago with a running job of one rank. -/
def live : State :=
  { State.reset with pow := { State.reset.pow with boot := .imago },
                     job := { Job.empty with state := .running, n := 1, wdogMs := 10, hostTarget := true } }

/-- Core 0 holds `v`. -/
def onCore (v : VCore) : State := live.setCore 0 { Core.cleared .active with v := some v, ibuf := [0] }

/-- The word of an instruction row with bits `n` set above its opcode. -/
def wd (opcode n : Nat) : IWord := wordOf (BitVec.ofNat 118 (n / 1024)) opcode

/-- The conditions of `State.Runs` for strand 0 of core 0, decided. -/
def runsB (s : State) (w : IWord) (v : VCore) (classV : Bool) (engine : Engine) (checks : Core → VCore → Strand → List EncCheck) : Bool :=
  let c := s.core 0
  let t := issueCycle c v.strands[0] (fld w 11 8)
  let a := (s.advance 0 t).core 0
  let x := s.vcoreAt 0 v t
  (s.ready 0 0 && (!c.stopped || decide (t < c.stopAt)) && (!a.stopped || decide (t < a.stopAt))
    && (match laneOf w with
        | some l => (c.lane l).queued.isNone || (c.lane l).yields t
        | none => true)
    && !c.overdue t && v.strands[0].faulted != some t)
    && (decide (v.strands[0].pc.toNat < x.codeLen)
    && (firstBad (commonChecks w classV ++ checks a x v.strands[0])).isNone
    && (engine.mask &&& v.strands[0].claims.toNat) == engine.mask)

theorem runs_of {s : State} {w : IWord} {v : VCore} {classV : Bool} {engine : Engine} {checks : Core → VCore → Strand → List EncCheck}
    (hv : (s.core 0).v = some v) (h : runsB s w v classV engine checks = true) :
    s.Runs 0 0 w v (issueCycle (s.core 0) v.strands[0] (fld w 11 8)) classV engine checks := by
  simp only [runsB, Bool.and_eq_true, Bool.or_eq_true, Bool.not_eq_true', decide_eq_true_eq, bne_iff_ne, beq_iff_eq,
    Option.isNone_iff_eq_none] at h
  obtain ⟨⟨⟨⟨⟨⟨h1, h2⟩, h3⟩, h4⟩, h5⟩, h6⟩, ⟨h8, h9⟩, h10⟩ := h
  refine ⟨⟨hv, h1, rfl, h2, h3, ?_, h5, h6⟩, h8, h9, h10⟩
  intro l hl
  rw [hl] at h4
  simpa using h4

theorem wit_ControlInstructions :
    (let w := wd 0x002 0
     runsB (onCore vc) w vc false .none fun _ _ _ => [(fld w 24 2 != 3, 24), (fld w 24 2 != 0 || fld w 26 3 == 0, 26), resvFrom w 45]) = true ∧
    (let w := wd 0x004 (2 ^ 24)
     runsB (onCore vc) w vc false .none fun _ _ _ => [(fld w 24 3 != 0, 24), resvFrom w 59]) = true ∧
    (let w := wd 0x005 (2 ^ 24)
     runsB (onCore vc) w vc false .none fun _ _ _ => [(fld w 24 3 != 0, 24), resvFrom w 59]) = true ∧
    (let w := wd 0x003 0
     runsB (onCore vc) w vc false .none fun _ _ _ => [resvFrom w 66]) = true ∧
    (let v := vc.modStrand 0 fun st => { st with pc := 64 }
     (onCore v).ready 0 0 = true ∧ v.codeLen ≤ v.strands[0].pc.toNat) := by decide +kernel

theorem wit_StrandInstructions :
    (∀ op ∈ [0x001, 0x006], runsB (onCore vc) (wd op 0) vc false .none (fun _ _ _ => [resvFrom (wd op 0) 24]) = true) ∧
    (let w := wd 0x011 (2 ^ 24)
     runsB (onCore vc) w vc false .none (fun _ _ _ => [(fld w 24 4 != 0, 24), resvFrom w 28]) = true ∧
     (1#4 &&& ~~~vc.strands[0].claims = 0)) ∧
    (let w := wd 0x012 (2 ^ 32)
     runsB (onCore vc) w vc false .none (fun _ _ _ => [(fld w 32 13 != 0, 32), resvFrom w 45]) = true ∧
     (0 : Int) ≤ (vc.tokens[0]!).toNat + signedOf 13 1 ∧ (vc.tokens[0]!).toNat + signedOf 13 1 ≤ (65535 : Int)) ∧
    (65535 : Int) < (65535 : Nat) + signedOf 13 1 ∧ (0 : Nat) + signedOf 13 (2 ^ 12) < (0 : Int) := by decide +kernel

theorem wit_Waits :
    (let w := wd 0x007 0
     runsB (onCore vc) w vc false .none fun _ _ _ => [resvFrom w 40]) = true ∧
    (let w := wd 0x010 (2 ^ 24)
     runsB (onCore vc) w vc false .none fun _ _ _ => [(fld w 24 4 != 0, 24), resvFrom w 28]) = true ∧
    (let w := wd 0x013 (2 ^ 32)
     runsB (onCore vc) w vc false .none fun _ _ _ => [(fld w 32 16 != 0, 32), resvFrom w 49]) = true ∧
    (let v := vw (.token 3 0 true)
     (onCore v).running 0 = true ∧ v.strands[0].live = true ∧ ((onCore v).core 0).stopped = false ∧ ((onCore v).core 0).dryBefore 0 = false) ∧
    (let v := vw (.claim 2)
     (∀ j : Fin 128, j ≠ 0 → v.strands[j].live = true → v.strands[j].claims &&& 2 = 0) ∧
     (onCore v).waitsOnFault 0 v v.strands[0].wait = false ∧ (onCore v).host.pcieUp = false ∧ (onCore v).job.wdogMs < 11) := by
  decide +kernel

theorem wit_IllegalEncodings :
    (∀ o ∈ definedOpcodes, fld (wd 0x3FF 0) 0 10 ≠ o) ∧ runsB (onCore vc) (wd 0x3FF 0) vc false .none (fun _ _ _ => []) = true ∧
    (let w := wd 0x061 (3 * 2 ^ 27)
     fld w 27 2 = 3 ∧ flag w 10 = false ∧ fld w 19 5 = 0 ∧ runsB (onCore vc) w vc false .none (fun _ _ _ => []) = true) ∧
    (∀ op ∈ [0x004, 0x005], fld (wd op 0) 24 3 = 0 ∧ runsB (onCore vc) (wd op 0) vc false .none (fun _ _ _ => []) = true) := by
  decide +kernel

theorem wit_PointsAndLines :
    (let v := vw (.migrate 5)
     let s := onCore v
     s.running 0 = true ∧ (s.core 0).stopped = false ∧ v.liveStrands = [0] ∧ (s.quiesced 0).isSome = true) ∧
    (let s := (onCore vc).modCore 0 fun c => { c with ibuf := [] }
     vc.strands[0].live = true ∧ 0 ∉ (s.core 0).ibuf ∧ (vc.regions.any fun r => r.ex && r.holds 0x100000) = true ∧
     badWord vc.tileBad 0x100000 1024 = none) ∧
    (let v := { vc with regions := [] }
     (v.regions.all fun r => !(r.ex && r.holds 0x100000)) = true) ∧
    (({ Core.cleared .active with hold := .migrate } : Core).hold = .migrate) := by decide +kernel

theorem vc_sound : vc.Sound := ⟨Mem.zeroed_wf, Mem.zeroed_wf, Mem.zeroed_wf, Mem.zeroed_wf⟩

theorem onCore_sound : SoundCores (onCore vc).cores := by
  have h : ({ Core.cleared .active with v := some vc, ibuf := [0] } : Core).Sound :=
    ⟨sound_some vc_sound, sound_none, sound_none, (by decide : [0].length ≤ 64), Nat.zero_le _⟩
  exact SoundCores.set (SoundCores.replicate (holds_none : (Core.cleared .disabled).Sound)) 0 h

theorem wit_EveryStepKeepsTheInvariant :
    (onCore vc).Inv ∧ step (onCore vc) = .next (onCore vc).tick ∧ ∃ t, exec .coldReset (onCore vc) = .next t :=
  ⟨⟨⟨Mem.undefined_wf _, Mem.undefined_wf _, Mem.undefined_wf _, Mem.zeroed_wf, Nat.zero_le _, Nat.zero_le _⟩, onCore_sound, bounded_empty⟩,
    rfl, _, rfl⟩

theorem wit_InstructionsStayInTheirCore :
    issued (.xset 0 0 0) = some (0, 0, wordOf 0 0x004) ∧
    ∃ t, exec (.xset 0 0 0) (onCore vc) = .next t := ⟨rfl, _, rfl⟩

theorem wit_LoadsAndSwaps :
    (let w := wd 0x023 0
     runsB (onCore vc) w vc false .ma fun _ _ _ => [resvFrom w 24]) = true ∧
    (let s := (onCore vc).modCore 0 fun c => { c with swaps := [⟨3⟩] }
     (s.core 0).swaps = ⟨3⟩ :: [] ∧ (∀ q ∈ (s.core 0).pass.pending, q.swaps ≠ 0) ∧ (s.core 0).filling = false ∧
     (s.core 0).load.queued = none ∧ (s.core 0).dryBefore (max (3 + 1) (max (s.core 0).fillAt ((s.core 0).lastMultiply + 1))) = false) ∧
    (let s := (onCore vc).modCore 0 fun c => { c with filling := true, fillAt := 5 }
     (s.core 0).filling = true ∧ (s.core 0).dryBefore (s.core 0).fillAt = false) ∧
    (∀ wave ∈ [0, 1],
     let w := withBits (wordOf (BitVec.ofNat 118 (3 * 2 ^ 14)) 0x022) 30 1 wave
     let o := LoadOp.ofWord w vc.strands[0].x
     runsB (onCore vc) w vc false .ma (fun _ v st => mloadChecks w v st.x) = true ∧
     ((onCore vc).vcoreAt 0 vc 0).rangeFault (o.ranges w vc.strands[0].x) .read = none) ∧ live.job.latAudit = false := by decide +kernel

theorem wit_PassesIssue :
    (let w := wd 0x020 (3 * 2 ^ 24)
     let o := PassOp.ofWord w vc.strands[0].x none
     runsB (onCore vc) w vc false .ma (passChecks w false) = true ∧
     ((onCore vc).vcoreAt 0 vc 0).rangeFault ((if o.ssel then [] else [(taAt w vc.strands[0].x 80, o.srcLen)])
       ++ o.skip.toList.map fun _ => (taAt w vc.strands[0].x 104, o.skipLen)) .read = none) ∧
    (∀ count ∈ [0, 2],
     let v := vc.writeTile 0 (bytesOf 4 count)
     let s := onCore v
     let w := wd 0x021 (3 * 2 ^ 24)
     let x := s.vcoreAt 0 v 0
     let read := Access.read .tile 0 4 0 0 0
     let s2 := (s.advance 0 0).correct 0 false [read]
     let o := PassOp.ofWord w v.strands[0].x (some (natOf ((s2.core 0).tileAt x 0 4 0)))
     runsB s w v false .ma (passChecks w true) = true ∧ waAt w v.strands[0].x 103 = 0 ∧ x.regionFault 0 4 .read = none ∧
     x.badAccess read = none ∧ o.count = count ∧ o.count ≤ tileTokens o.ashape - o.tokoff ∧
     x.rangeFault (if o.ssel || o.count == 0 then [] else [(taAt w v.strands[0].x 80, o.srcLen)]) .read = none ∧
     s2.job.latAudit = false) ∧
    (∀ l ∈ [LaneId.pass, .drain, .load],
     let q : QInstr := .of vc.strands[0] 0 (wd 0x020 0) 0 [] 0 none
     let s := (onCore vc).modCore 0 fun c => c.setLane l { c.lane l with queued := some q, freeAt := 4 }
     ((s.core 0).lane l).head = some q ∧ q.swaps = 0 ∧ ((s.core 0).lane l).freeAt = 4 ∧ (s.core 0).dryBefore 4 = false) := by
  decide +kernel

theorem wit_DrainIssues :
    (let v := vc.writeTile 13 [1]
     let s := onCore v
     let w := wd 0x024 0
     let prm := prAt w v.strands[0].x 97
     let x := s.vcoreAt 0 v 0
     let read := Access.read .tile prm.toNat 32 0 0 0
     let s2 := (s.advance 0 0).correct 0 false [read]
     let record := (s2.core 0).tileAt x prm.toNat 32 0
     let o := DrainOp.ofWord w v.strands[0].x record
     runsB s w v false .ma (fun _ _ st => drainChecks w st) = true ∧ x.regionFault prm 32 .read = none ∧
     x.badAccess read = none ∧ firstBad (drainRecordChecks o record) = none ∧ o.tagsOk x = true ∧
     x.rangeFault o.readRanges .read = none ∧ x.rangeFault o.writeRanges .write = none ∧ s2.job.latAudit = false) ∧
    (let c := (onCore vc).core 0
     c.v.isSome = true ∧ c.clk < c.ports[0].idleAt + 65536 ∧ c.ports[0].scrub = false ∧ c.faultValid = false) ∧
    (let c := ((onCore vc).modCore 0 fun c => { c with clk := 65536 }).core 0
     c.v.isSome = true ∧ c.ports[0].idleAt + 65536 ≤ c.clk ∧ c.ports[0].scrub = false) := by decide +kernel

theorem wit_VectorInstructionsIssue :
    (runsB (onCore vc) (wd 0x030 0) vc false .ve (fun _ _ _ => vopChecks (wd 0x030 0)) = true) ∧
    (runsB (onCore vc) (wd 0x032 0) vc false .ve (fun _ _ _ => scanChecks (wd 0x032 0)) = true) ∧
    (runsB (onCore vc) (wd 0x034 0) vc false .ve (fun _ _ st => gathChecks (wd 0x034 0) st) = true) ∧
    (runsB (onCore vc) (wd 0x035 0) vc false .ve (fun _ _ st => gathChecks (wd 0x035 0) st) = true) ∧
    (runsB (onCore vc) (wd 0x040 (31 * 2 ^ 36)) vc false .ru (fun _ _ _ => redChecks (wd 0x040 (31 * 2 ^ 36))) = true) ∧
    (runsB (onCore vc) (wd 0x200 (2 ^ 10)) vc true .ve (fun _ _ st => gathChecks (wd 0x200 (2 ^ 10)) st) = true) ∧
    (let w := wd 0x031 (2 ^ 28)
     let o := CvtOp.ofWord w vc.strands[0].x []
     runsB (onCore vc) w vc false .ve (fun _ _ st => cvtChecks w st) = true ∧ o.usesRecord = false ∧
     (o.sfmt.isMx || o.tfmt.isMx) = false ∧ vc.rangeFault (o.memRange w vc.strands[0].x) (if o.toReg then .read else .write) = none) ∧
    -- FP32 to MXFP4 in tile memory with stochastic rounding: the record names the scales' place
    (let v := vc.writeTile 12 (bytesOf 4 256)
     let w := wd 0x031 (0 * 2 ^ 24 + 9 * 2 ^ 28 + 2 ^ 33 + 2 ^ 62 + 31 * 2 ^ 65)
     let record := v.readTile 0 16
     let o := CvtOp.ofWord w v.strands[0].x record
     runsB (onCore v) w v false .ve (fun _ _ st => cvtChecks w st) = true ∧ o.usesRecord = true ∧ prAt w v.strands[0].x 83 = 0 ∧
     v.regionFault 0 16 .read = none ∧ v.badAccess (.read .tile 0 16 0 0 0) = none ∧ (o.sfmt.isMx || o.tfmt.isMx) = true ∧
     o.mxAt = 256 ∧ v.rangeFault (o.memRange w v.strands[0].x) (if o.toReg then .read else .write) = none) ∧
    (let w := wd 0x033 0
     let o := TrnOp.ofWord w vc.strands[0].x
     runsB (onCore vc) w vc false .ve (fun _ _ st => trnChecks w st) = true ∧
     vc.regionFault (taAt w vc.strands[0].x 38) o.memLen (if o.stores then .write else .read) = none) ∧
    (let w := wd 0x036 0
     runsB (onCore vc) w vc false .ve (fun _ _ st => rngChecks w st) = true ∧
     vc.rangeFault [(waAt w vc.strands[0].x 59, 8), (waAt w vc.strands[0].x 84, 8)] .read = none ∧
     ([Access.read .tile 0 8 0 0 0, .read .tile 0 8 0 0 0].findSome? vc.badAccess) = none) ∧
    (let q : QInstr := .of vc.strands[0] 0 (wd 0x040 0) 0 [] 0 none
     let s := (onCore vc).modCore 0 fun c => { c with ru := { c.ru with queued := some q, freeAt := 4 } }
     ((s.core 0).lane .ru).head = some q ∧ q.swaps = 0 ∧ (s.core 0).dryBefore 4 = false ∧ fld q.word 0 10 = 0x040) ∧
    (∀ op ∈ [0x030, 0x031, 0x032, 0x033, 0x034, 0x035, 0x036, 0x200],
     let q : QInstr := .of vc.strands[0] 0 (wd op 0) 0 [] 0 none
     let s := (onCore vc).modCore 0 fun c => { c with ve := { c.ve with queued := some q, freeAt := 4 } }
     ((s.core 0).lane .ve).head = some q ∧ q.swaps = 0 ∧ (s.core 0).dryBefore 4 = false ∧ fld q.word 0 10 = op) := by decide +kernel

theorem wit_NumberStatements :
    ((∃ p ∈ [(⟨.nan, 0⟩ : Prod)], p.v = .nan) ∧ (∃ p ∈ [(⟨.inf true, 0⟩ : Prod)], p.v = .inf true)) ∧
    ([1, 2].Perm [2, 1]) ∧ ((0 : Int) < 1) ∧ e4m3 ∈ [fp32, bf16, fp16, e4m3, e5m2, e2m3, e3m2, e2m1] ∧
    0x38 < 2 ^ e4m3.width ∧ e4m3.decode 0x38 ≠ .nan ∧ e4m3.decode 0x7F = .nan ∧
    0x7F80 < 2 ^ bf16.width ∧ bf16.decode 0x7F80 ≠ .nan := by decide +kernel

theorem wit_MemoryReadsBack :
    (let m := { live.mem with channels := 1 }
     m.gddrBad = [] ∧ 0 + [1#8].length ≤ m.usable) ∧ vc.tileBad = [] := by decide +kernel

/-! ### Tasks, memory and fabric -/

/-- A task of one stage. -/
def stg (kind : StageKind) (raw : List Byte) : Stage := { (default : Stage) with kind, raw, ended := true }
def tsk (st : Stage) : Machine.Task := { (default : Machine.Task) with stages := [st] }
/-- A LOAD entry: list in region 0 at offset 0, one descriptor. -/
def loadRaw : List Byte := [1] ++ zeros 11 ++ bytesOf 4 1 ++ zeros 16
/-- Core 0 holds `vc` and runs one task; region 0 is its data region. -/
def onTask (t : Machine.Task) : State :=
  let s := (onCore vc).modCore 0 fun c => { c with tasks := [t], nextTask := 1 }
  { s with job := { s.job with regions := [⟨0, .tile, 0, 0x100000, true, true, false, false, false, 0, true⟩] } }

theorem wit_TasksAreAccepted :
    let v := vc.writeTile 0 ([1] ++ zeros 15 ++ loadRaw)
    let w := wd 0x050 0
    let u := wd 0x201 (2 ^ 10)
    let x := (onCore v).vcoreAt 0 v 0
    let read := Access.read .tile 0 208 0 0 0
    let s2 := ((onCore v).advance 0 0).correct 0 false [read]
    runsB (onCore v) w v false .sq (fun _ _ st => [alignedTo (taAt w st.x 24) 64 24, alignedTo (taAt w st.x 66) 64 66, resvFrom w 88]) = true ∧
    runsB (onCore v) u v true .sq (fun _ _ st => [alignedTo (taAt u st.x 24) 64 24, alignedTo (taAt u st.x 66) 64 66, resvFrom u 88]) = true ∧
    (s2.core 0).tasks.length < 64 ∧ x.rangeFault [(0, 208)] .read = none ∧ x.rangeFault [(0, 64)] .write = none ∧
    x.eccFault [(0, 208)] = none ∧ s2.job.latAudit = false ∧ commandFault x 1 false ((s2.core 0).tileAt x 0 208 0) = none ∧
    s2.job.rejects (stagesOf ((s2.core 0).tileAt x 0 208 0)) = false ∧
    (commandFault vc 1 false (vc.readTile 0 208)).isSome = true ∧ 64 ≤ (List.replicate 64 (tsk (stg .load loadRaw))).length ∧
    ({ s2.job with regions := [⟨9, .host, hostBase, 4096, true, true, false, false, false, 0, true⟩] } : Job).rejects
      [stg .load (zeros 16 ++ bytesOf 8 (9 * 2 ^ 48) ++ zeros 8), stg .dispatch (zeros 32)] = true := by decide +kernel

/-- A request for 64 bytes at address 0 of tile memory. -/
def rq : Req := ⟨0, 0, 0, 0, 0, 64, 0, true, false, 0, false, 0, none⟩

theorem wit_StreamsIssueRequests :
    (let t := tsk (stg .load loadRaw)
     let s := onTask t
     let r : TaskRun := { s, p := 0, t }
     s.task 0 0 = some t ∧ t.abort = none ∧ 0 < t.stages.length ∧ r.list 0 = some (0, 0, 1) ∧ min 64 (1 - 0) ≠ 0 ∧
     (s.core 0).cached + 1 ≤ 4096 ∧ r.room = true ∧
     (match s.regionRead 0 t.vcore 0 0 64 with | .ok bs => bs == zeros 64 | _ => false) = true ∧
     (match s.regionRead 0 t.vcore 1 0 64 with | .bad c _ => c == 2 | _ => false) = true) ∧
    (let t := tsk { stg .load loadRaw with descs := [zeros 64] }
     let s := onTask t
     s.task 0 0 = some t ∧ 0 + [zeros 64].length = 1) ∧
    (let t := tsk { stg .load loadRaw with reqs := [rq] }
     let s := onTask t
     let r : TaskRun := { s, p := 0, t }
     s.task 0 0 = some t ∧ (r.stage 0).reqs = rq :: []) ∧
    (let t := tsk { stg .load loadRaw with reqs := List.replicate 1024 rq }
     let r : TaskRun := { s := onTask t, p := 0, t }
     r.room = false) ∧
    (rq.held = false ∧ rq.len ≠ 0 ∧ rq.tile = true) ∧
    inHost hostBase = true ∧ live.host.dma = false := by decide +kernel

theorem wit_RequestsStayInOneGranule : 0 < 65536 ∧ ∀ x ∈ [((0 : Int), 64)], 0 < x.2 := by decide

theorem wit_TasksEnd :
    (let t := tsk { stg .load loadRaw with next := 1, descs := [zeros 64], dropped := 0, fin := 1 }
     let s := onTask { t with delivered := 1 }
     let r : TaskRun := { s, p := 0, t := { t with delivered := 1 } }
     (s.task 0 0).isSome = true ∧ t.resubmitted = false ∧ r.complete = true) ∧
    (let t := tsk (stg .load loadRaw)
     let r : TaskRun := { s := onTask t, p := 0, t }
     r.complete = false) ∧
    (let t := { tsk (stg .load loadRaw) with abort := some ⟨1, 0, 0, 0, 0, 0, 0⟩ }
     let s := onTask t
     s.task 0 0 = some t ∧ (∀ st ∈ t.stages, st.reqs = []) ∧ s.fab.tx = []) ∧
    (live.core 0).v = none ∧ (vc.regionFault 0x200000 64 .write).isSome = true ∧
    (let v := (vc.writeTile 0x1000 ([1] ++ zeros 15 ++ loadRaw)).writeTile 56 (bytesOf 4 0x1000)
     v.regionFault 0 64 .write = none ∧ natAt (v.readTile 0 64) 56 4 = 0x1000 ∧ v.regionFault 0x1000 208 .read = none ∧
     badWord v.tileBad 0x1000 208 = none ∧ commandFault v 1 false (v.readTile 0x1000 208) = none) := by decide +kernel

/-- R188. Of two feeds under way, the one issued first comes first in the message, whichever is read first. -/
theorem test_wtapOrder :
    let y := ((Witness.idle.add (.feed 0 [] 1)).add (.feed 1 [] 1)).add (.finish 7 9)
    let z := (y.take 1 [0xBB] 0).take 0 [0xAA] 0
    y.finish = [] ∧ z.finish = [(7, 9, Sha.init.feed [0xAA, 0xBB])] ∧ z.steps = [] ∧ z.queued = 2 := by decide +kernel

theorem wit_WitnessesAndTwins :
    (∀ wop ∈ [1, 2],
     let w := withBits (wordOf 0 0x061) 27 2 wop
     runsB (onCore vc) w vc false .none (fun _ _ _ => wtapIdle w) = true ∧ (fld w 24 3, 0) ∈ vc.witness) ∧
    (1, 0) ∉ vc.witness ∧
    (let w := withBits (wordOf 0 0x061) 27 2 0
     runsB (onCore vc) w vc false .none
       (fun _ _ st => [(fld w 27 2 != 3, 27), alignedTo (taAt w st.x 29) 64 29, resvFrom w 99]) = true ∧
     vc.rangeFault [(taAt w vc.strands[0].x 29, 64)] .read = none) ∧
    ((onCore vc).core 0).v.isSome = true ∧ vc.tileBad = [] ∧ vc.tileSoft = [] ∧ vc.accSoft = [] ∧
    (let s := live.modUnit 0 fun u => { u with finish := [(1, 0, .init)] }
     s.rep.units[0].finish = [(1, 0, .init)] ∧ s.job.wit.room 64 = false) ∧
    (let s := { live with host := { live.host with pcieUp := true, busMaster := true },
                          job := { live.job with wit := ⟨⟨[(0, 4096)], 4096⟩, 0⟩ } }
     s.job.wit.room 64 = true ∧ s.host.dma = true) ∧
    live.twinned = false ∧ live.rep.settling = false ∧ live.rep.mism = [] := by decide +kernel

theorem wit_MemoryUpkeep :
    (let f : XlatFault := ⟨3, screeBase, false, .stream 0, 0, false⟩
     let s := live.modMem fun m => { m with faults := [f], channels := 1 }
     (s.mem.faults.find? fun f => f.entry == 3) = some f ∧ (∀ x ∈ s.ing.slots, x.blocked ≠ some (pageKey f.addr)) ∧
     bitAt s.mem.channels.toNat 0 = true ∧ bitAt s.mem.channels.toNat 1 = false ∧ s.mem.lineAddr 0 0 = some 0 ∧
     s.mem.lineAddr 1 0 = none ∧ s.mem.gddrBad.contains 0 = false) ∧
    (live.mem.faults.find? fun f => f.entry == 3) = none ∧ ((onCore vc).core 0).v.isSome = true ∧ vc.tileBad.contains 0 = false := by
  decide +kernel

/-- A port that is up. -/
def upPort : Port := { Port.off with enable := true, state := .up, groups := 1, v3 := true, monitored := true }
/-- Port 0 in the state `q`. -/
def onPort (q : Port) : State := live.modPort 0 fun _ => q
/-- The same with light on the port's lanes. -/
def litPort (q : Port) : State := { onPort q with pow := { (onPort q).pow with lasers := 3 } }

theorem wit_FlitsArriveInOrder :
    (onPort upPort).fab.ports[0].state = .up ∧ (0 : BitVec 12) = upPort.rxSeq ∧ (1 : BitVec 12) ≠ upPort.rxSeq ∧ upPort.asking = false ∧
    ({ upPort with asking := true }).asking = true ∧ ({ upPort with replays := 63, replaySeq := 5 }).replays ≠ 0 := by decide +kernel

theorem wit_PortsTrainAndFail :
    (let s := litPort { upPort with state := .training }
     s.fab.ports[0].state = .training ∧ s.pow.litGroups 0 = 0xF ∧
     Port.trainOutcome { upPort with state := .training } ⟨0, 2, 3, false⟩ = .inr 1 ∧
     (match Port.trainOutcome { upPort with state := .training } ⟨0xF, 2, 3, false⟩ with | .inl m => m == (15, true) | .inr _ => false) = true) ∧
    (let s := onPort { Port.off with state := .down }
     let t : State := { s with fab := { s.fab with topo := 0x63 }, job := { s.job with rankTable := [0, 32] } }
     s.fab.ports[0].enable = false ∧ s.fab.ports[0].state = .down ∧ s.jobReaches 0 = false ∧
     { s.fab with topo := 0x63 }.usesPort 0 = true ∧ s.pow.boot = .imago ∧ t.fab.usesPort 0 = true) ∧
    (onPort Port.off).fab.ports[0].state = .off ∧ (onPort { upPort with missed := 8 }).fab.ports[0].missed = 8 ∧
    (litPort upPort).shines 0 = true := by decide +kernel

theorem wit_RoutesReachTheirDestination :
    (∀ d < 3, coord 35 d < ({ Fabric.off with topo := 0x63 }).dims.getD d 1) ∧
    ({ Fabric.off with topo := 0x63 } : Fabric).path 0 35 0 = [(0, 1), (3, 2)] := by decide +kernel

/-- A packet of `type` to device `dst` for job 0 with no payload. -/
def pkt (type dst : Nat) : List Byte := packetHeader type 0 0 0 true dst 0 0 0 0 0 0 0 0

theorem wit_PacketsAreRouted :
    headerOk (zeros 32) = false ∧ headerOk (pkt 1 0) = true ∧ natAt (pkt 1 0) 2 2 = live.ownAddr.toNat ∧ natAt (pkt 1 0) 0 1 % 16 = 1 ∧
    natAt (pkt 1 0) 8 4 = live.job.id.toNat ∧ natAt (pkt 1 1) 2 2 ≠ live.ownAddr.toNat ∧ live.job.state = .running ∧
    ({ Fabric.off with topo := 0x63 }).nextPort 0 1 0 = some 0 ∧ Fabric.off.nextPort 0 0 0 = none ∧ needsV3 (pkt 1 1) = false ∧
    (litPort upPort).portWaits 0 = false ∧ (onPort upPort).portWaits 0 = true := by decide +kernel

/-- A block of one zero INT32 element, and a descriptor of its place at offset 0x1000 of region 0. -/
def blk : Block := { (default : Block) with fmt := .int32, data := zeros 4, chk := crc32c (zeros 4) }
def blkDesc : List Byte :=
  bytesOf 8 0x1000 ++ (List.replicate 4 (bytesOf 4 1)).flatten ++ zeros 12 ++ [12, 0, 0, 0] ++ bytesOf 4 (crc32c (zeros 4)).toNat ++ zeros 20

theorem wit_BlocksAreAcknowledged :
    (let b := Block.ofBytes (blk.header ++ blk.data)
     let s0 := onTask (tsk (stg .load loadRaw))
     let s := s0.modV 0 fun v => v.writeTile 0 blkDesc
     let params := zeros 8 ++ bytesOf 4 1 ++ zeros 16
     let o : RxOp := { origin := 0, job := 0, opId := 5, target := .send, params, written := [], signalled := false, guarded := false }
     s.takes 0 = true ∧ s.job.replay = false ∧ crc32c b.data = b.chk ∧ 0 ∉ o.written ∧ s.job.addrOf 0 = 0 ∧ s.job.position 0 ≠ none ∧
     (s.fab.rx.find? fun o => o.origin == 0 && o.opId == 5) = none ∧ s.fab.collSeen = [] ∧ ((s.job.members 0).getD []).getD 0 65536 = 0 ∧
     (match (s.receiveBlock params 0 b).2 with | .written => true | _ => false) = true ∧
     s.fab.rxRoom (s.rxPlace 0 5 0).1 (s.rxPlace 0 5 0).2 = true ∧
     natAt params 8 4 ≤ 1) ∧
    (let t := tsk (stg .send (zeros 32))
     let b : TxBlock := ⟨0, 0, blk, true, false, 8⟩
     let o : TxOp := { opId := 7, core := 0, task := 0, stage := 0, dest := 1, params := [], opened := true, no := 0, target := .send, blocks := [b],
                       openResends := 0, node := 0 }
     let s := { onTask t with fab := { (onTask t).fab with tx := [o] } }
     (s.fab.tx.find? fun o => o.opId == 7) = some o ∧ (o.blocks.find? fun b => b.index == 0 && b.sent && !b.acked) = some b ∧
     (s.txRun o).any (fun r => r.t.abort.isSome) = false ∧ (s.txRun o).isSome = true ∧ s.fab.maxResends ≤ b.resends ∧
     0 < s.fab.maxResends) := by decide +kernel

theorem wit_ReductionTree : ([1, 2] : List Nat).length ≤ 2 ∧ 2 ≤ ([1, 2] : List Nat).length := by decide

/-- A COLL entry: all-reduce of FP32 sums in group 0, one block. -/
def collRaw : List Byte := [8, 0, 0, 0, 0, 0, 0, 0] ++ bytesOf 2 0 ++ bytesOf 2 1 ++ zeros 20

/-- A COLL entry: exchange in group 0 with its record at offset 0x100 of region 0; the record names one destination and no room. -/
def exchRaw : List Byte := [8, 0, 0, 0, 4, 0, 0, 0] ++ zeros 16 ++ bytesOf 8 0x100
def exchRec : List Byte := bytesOf 8 0x200 ++ bytesOf 4 1 ++ [1] ++ zeros 15 ++ bytesOf 8 0x240 ++ zeros 12

/-- An exchange of one member that received no row writes its counts. -/
theorem wit_ExchangeCompletes :
    let c : Coll := { group := 0, step := 0, cid := 0, core := some 0, task := 0, stage := 0, params := exchRaw, arrival := false,
                      contribs := [], opens := [], ownDone := true, delivered := 0, forms := [], no := 0 }
    let t : Machine.Task := { (default : Machine.Task) with stages := [{ stg .coll exchRaw with phase := 3, record := exchRec }] }
    let s0 := onTask t
    let s : State := { s0 with fab := { s0.fab with colls := [c] } }
    let r : TaskRun := { s, p := 0, t }
    let prm := CollParams.of c.params
    let ws : List Put := [⟨noDesc, 0, 0, 0x240, bytesOf 4 0⟩]
    s.coll 0 0 0 = some c ∧ prm.op = 4 ∧ c.ready prm 1 0 false c.contribs = true ∧
    (match r.exchangePlan 0 1 c.contribs with | .inl p => decide (p = (ws, 0)) | .inr _ => false) = true ∧
    s.job.position 0 = some 0 ∧ unsound c.contribs = none := by decide +kernel

theorem wit_CollectivesComplete :
    let b := { blk with fmt := .fp32 }
    let c : Coll := { group := 0, step := 0, cid := 0, core := some 0, task := 0, stage := 0, params := collRaw, arrival := false,
                      contribs := [⟨0, 0, b, .none⟩], opens := [], ownDone := true, delivered := 0, forms := [], no := 0 }
    let t : Machine.Task := { (default : Machine.Task) with stages := [{ stg .coll collRaw with phase := 3 }, stg .feed (zeros 32)] }
    let s0 := onTask t
    let s : State := { s0 with fab := { s0.fab with colls := [c] } }
    let r : TaskRun := { s, p := 0, t }
    let prm := CollParams.of c.params
    s.coll 0 0 0 = some c ∧ s.task 0 0 = some t ∧ s.job.position 0 = some 0 ∧ t.abort = none ∧
    c.ready prm 1 0 false c.contribs = true ∧ prm.op ≠ 4 ∧ unsound c.contribs = none ∧ (r.stage 0).phase = 3 ∧
    ({ c with ownDone := false }).ready prm 1 0 false c.contribs = false ∧
    (match collOutputs prm false s.job.ftz 1 0 t.step c.contribs with
     | some (outs, fl) => ((r.flags fl).deliverColl 0 outs).t.abort.isNone
     | none => false) = true := by decide +kernel

/-- A verdict with the reasons given. -/
def vd (reasons : Nat) (recheckable : Bool) : Verdict := { (default : Verdict) with reasons, recheckable }

theorem wit_ChecksTrip :
    (let w := wd 0x060 0
     runsB (onCore vc) w vc false .none (fun _ _ st => [alignedTo (taAt w st.x 25) 64 25, resvFrom w 47]) = true ∧
     vc.rangeFault [(taAt w vc.strands[0].x 25, 32)] .read = none ∧ vc.eccFault [(0, 32)] = none ∧ boundsFault (zeros 32) false = none ∧
     (boundsFault (List.replicate 32 0xFF) false).isSome = true) ∧
    (let w := wd 0x060 (2 ^ 43)
     runsB (onCore vc) w vc false .none (fun _ _ st => [alignedTo (taAt w st.x 25) 64 25, resvFrom w 47]) = true ∧
     (vc.rangeFault [(taAt w vc.strands[0].x 25, 32)] .read).isSome = true) ∧
    (let w := wd 0x202 (2 ^ 10 + 33 * 2 ^ 24)
     let off := 8 * fld w 24 12
     runsB (onCore vc) w vc true .none
        (fun c _ st => [(c.counterRows.any fun r => r.1 == off, 24), alignedTo (waAt w st.x 36) 8 36, resvFrom w 61]) = true ∧
     vc.rangeFault [(waAt w vc.strands[0].x 36, 8)] .write = none) ∧
    (∀ d ∈ [vd 0 false, vd 1 true, vd 1 false],
     let c := ((onCore vc).modCore 0 fun c => { c with verdicts := [d] }).core 0
     c.firstVerdict = some d ∧ ({ c with verdicts := c.verdicts.erase d } : Core).overdue (max c.cycle d.cycle) = false ∧ c.test = none) ∧
    (let a : Arb := ⟨0, vd 1 true, [], none⟩
     let s0 := onCore vc
     let s : State := { s0 with chk := { s0.chk with arbs := [a] }, job := { s0.job with rechecks := [⟨0, 0, 0, 0, 0, 0, []⟩] } }
     s.chk.arbs = a :: [] ∧ (s.quiesced 0).isSome = true ∧ (s.recheckOf 0 a.verdict).isSome = true ∧ s.hasSpare = false ∧ s.idleSpare = none) ∧
    (let s := (onCore vc).modCore 16 fun c => { c with kind := .spare }
     s.idleSpare = some 16 ∧ s.hasSpare = true) ∧
    (let s := (onCore vc).modCore 16 fun c => { c with kind := .spare, test := some ⟨1, 1, zeros 256, none, false⟩ }
     s.idleSpare = none ∧ s.hasSpare = true) := by decide +kernel

theorem wit_FaultsAndMoves :
    (∀ code ∈ [1, 7, 9],
     let c := ((onCore vc).modCore 0 fun c => { c with faultValid := true, faultCode := BitVec.ofNat 8 code }).core 0
     c.faultValid = true ∧ c.answer = none ∧ c.test = none) ∧
    (let c := ((onCore (vc.writeTile 0 [2, 1])).modCore 0 fun c => { c with faultValid := true, faultCode := 0xD, faultInfo := 0 }).core 0
     c.current.code = 0xD ∧ c.faultCause = 1) ∧
    (let c := ((onCore (vc.writeTile 0 [2, 6])).modCore 0 fun c => { c with faultValid := true, faultCode := 0xD, faultInfo := 0 }).core 0
     c.faultCause = 6 ∧ (onCore vc).linksUp = false) ∧
    (let f : FaultRec := ⟨9, 0, 0, 0, 0⟩
     let c := ((onCore vc).modCore 0 fun c => { c with faultValid := true, faultCode := 7, answer := some 2, later := [f] }).core 0
     c.answer = some 2 ∧ c.later = f :: [] ∧ c.faultValid = true ∧ c.test = none) ∧
    (let s := ((onCore vc).modCore 0 fun c => { c with hold := .migrate, leaving := some 4 }).modCore 16 fun c => { c with kind := .spare }
     let u := s.modCore 0 fun c => { c with leaving := none }
     let k : Package := ⟨1, 1, [], 1, 0, 0⟩
     let w : State := { u with chk := { u.chk with packages := [k] } }
     let c := s.core 0
     let e := s.core 16
     c.hold = .migrate ∧ c.test = none ∧ e.kind = .spare ∧ e.v = none ∧ e.saved = none ∧ e.test = none ∧ c.v.isSome = true ∧
     s.idleSpare = some 16 ∧ c.leaving ≠ none ∧ (u.core 0).leaving = none ∧ u.dueOn 0 = none ∧ w.dueOn 0 ≠ none) ∧
    (let c := (live.modCore 0 fun c => { c with leaving := some 4 }).core 0
     c.leaving = some 4 ∧ c.v = none ∧ c.saved = none ∧ c.test = none) ∧
    (let s := (onCore vc).modCore 0 fun c => { c with hold := .boundary, partner := some vc }
     (s.core 0).partner.isSome = true ∧ (s.quiesced 0).isSome = true) := by decide +kernel

theorem wit_CairnBuckets :
    live.chk.drainWanted = [] ∧ ({ Bucket.zero with enable := true }).enable = true ∧ 84 < 85 := by decide +kernel

/-- A field-test package of no output. -/
def ft : FieldTest := ⟨1, 1, zeros 256, none, false⟩

theorem wit_FieldTestsRun :
    (let v := { vc with strands := Vector.replicate 128 Strand.idle }
     let s := (onCore v).modCore 0 fun c => { c with test := some ft }
     let c := s.core 0
     c.test = some ft ∧ c.v.isSome = true ∧ v.liveStrands = [] ∧ c.stopped = false ∧ (s.quiesced 0).isSome = true) ∧
    (let s0 := onCore vc
     let s : State := { s0 with chk := { s0.chk with packages := [⟨1, 1, [], 1, 0, 0⟩] } }
     (s.dueOn 0).isSome = true ∧ (s.core 0).v.isSome = true ∧ (s.core 0).test = none ∧ (s.core 0).stepHold = false ∧ s.jobLive = true) ∧
    (let s := (onCore vc).modCore 0 fun c => { c with holdReq := .stepTest }
     (s.core 0).holdReq = .stepTest ∧ s.jobLive = true ∧ (s.quiesced 0).isSome = true) := by decide +kernel

theorem wit_ControlPlane :
    (let s := onPort upPort
     s.freshCtl 0 ⟨5, 1, 0⟩ = true ∧ s.freshCtl 0 ⟨5, 1, 48⟩ = false ∧ s.jobLive = true ∧
     (∀ l ∈ [1, 2, 3], let p := bytesOf 2 5 ++ [0, BitVec.ofNat 8 l] ++ zeros 12
       natAt p 3 1 = l ∧ natAt p 2 1 < 6) ∧ natAt (zeros 16) 3 1 = 0 ∧
     (∀ r ∈ [1, 2], let p := zeros 4 ++ [BitVec.ofNat 8 r] ++ zeros 27
       natAt p 0 4 = s.job.id.toNat ∧ natAt p 4 1 = r) ∧
     (∀ count ∈ [1, 2], let p := bytesOf 8 7 ++ bytesOf 4 1 ++ bytesOf 4 0 ++ bytesOf 4 count ++ bytesOf 4 1 ++ zeros 9
       s.chk.settled 7 1 = false ∧ 0 < natAt p 20 4 ∧ natAt p 20 4 ≤ 4064 ∧ natAt p 12 4 < natAt p 16 4 ∧ natAt p 16 4 = count ∧
       s.chk.assemblies.length < 4)) := by decide +kernel

/-- A plan of one list, one profile (RGB, BF16, 16 x 16, one picture) and one slot, with its regions. -/
def plan : List Byte :=
  bytesOf 8 1 ++ bytesOf 4 1 ++ bytesOf 2 1 ++ bytesOf 2 1 ++ [1, 1, 1, 0] ++ bytesOf 4 1 ++ bytesOf 8 (2 ^ 48) ++ zeros 32
  ++ (bytesOf 8 (2 ^ 49) ++ bytesOf 8 0 ++ bytesOf 8 1 ++ bytesOf 4 1 ++ zeros 4)
  ++ ([0, 0, 1, 16] ++ bytesOf 2 16 ++ bytesOf 2 16 ++ bytesOf 2 1 ++ zeros 54)
  ++ (zeros 6 ++ bytesOf 2 1 ++ bytesOf 8 0 ++ bytesOf 4 131072 ++ zeros 12)
def slt (phase : SlotPhase) (entry : List Byte) : Slot := ⟨0, 0, 0, phase, entry, [], [], false, none, 0⟩
/-- Ingest with one slot in flight; region 0 in GDDR7, region 1 in staging memory, region 2 in host memory. -/
def ingests (x : Slot) : State :=
  { live with
    ing := { live.ing with plan := plan, slots := [x], nextStep := [0] },
    job := { live.job with regions := [⟨0, .gddr, 0, 0x100000, true, true, false, false, false, 0, true⟩,
      ⟨1, .staging, stagingBase, 4096, true, true, false, false, false, 0, true⟩,
      ⟨2, .host, hostBase, 4096, true, true, false, false, false, 0, true⟩] },
    mem := { live.mem with channels := 1, staging := .zeroed 8, gddr := .zeroed 8, hostPages := [(0, 3), (1, 0x1003)],
                           hostDirs := [(0, 0, 1), (1, 0, 1), (2, 0, 1)] },
    host := { live.host with pcieUp := true, busMaster := true } }

/-- An index entry with sequence number 1 and its CRC; `n` bytes at address `a`. -/
def idx (a n : Nat) : List Byte :=
  let e := bytesOf 8 a ++ bytesOf 4 n ++ zeros 44 ++ bytesOf 4 1
  e ++ bytesOf 4 (crc32c e).toNat

/-- The plan with a cache of one line of 128 bytes at offset 1,024 of region 1. -/
def cachePlan : List Byte := splice (splice plan 32 (bytesOf 8 (2 ^ 48 + 1024))) 40 (bytesOf 4 1 ++ bytesOf 4 128)

theorem wit_SlotsGoThroughPhases :
    (let s := ingests (slt .entry [])
     let r := s.plan.listOf 0
     s.ingesting = true ∧ s.locAddr s.plan.releaseWord 0 4 false = some stagingBase ∧ (s.readMem stagingBase 4).2 = ([0, 0, 0, 0], none) ∧
     s.ing.oldest 0 .entry = some (slt .entry []) ∧ s.host.dma = true ∧
     s.locAddr (placeAt r 0) (64 * (0 - (listRange r).1)) 64 false = some hostBase ∧ s.mem.faultPage hostBase 64 false = none ∧
     natAt (idx 0 0) 56 4 = natAt r 24 4 ∧ natAt (idx 0 0) 60 4 = (crc32c ((idx 0 0).take 60)).toNat ∧ s.plan.lines = 0) ∧
    (let x := slt .fetch (idx (hostBase + 4096) 64)
     let s := ingests x
     s.ing.oldest 0 .fetch = some x ∧ natAt x.entry 0 8 = hostBase + 4096 ∧ natAt x.entry 8 4 = 64 ∧ natAt x.entry 12 4 = 0 ∧
     s.unmapped (hostBase + 4096) 64 = false ∧ s.mem.faultPage (hostBase + 4096) 64 false = none ∧
     ((s.tlbRange (hostBase + 4096) 64).readMem (hostBase + 4096) 64).2 = (zeros 64, none) ∧ x.hit = false ∧ (s.fillLine x (zeros 64)).2 = none) ∧
    -- a cache of one line of 128 bytes in staging memory, after the release word's region: a hit, another sample's line, bad bytes
    (∀ k ∈ [0, 1, 2],
     let e := idx (hostBase + 4096) 64
     let x := slt .lookup e
     let tag := cacheTag (if k = 1 then 5 else 0) 1 e (if k = 2 then [1] else zeros 64)
     let s0 := ingests x
     let s : State := { s0 with ing := { s0.ing with plan := cachePlan }, mem := { s0.mem with staging := s0.mem.staging.setRange 1024 tag } }
     let a := stagingBase + 1024
     let t := (s.mem.readDev a 64).1
     s.ing.oldest 0 .lookup = some x ∧ s.plan.lines ≠ 0 ∧ s.lineAddr 0 = some a ∧ natAt e 8 4 = 64 ∧ (s.readMem a 64).2 = (tag, none) ∧
     (s.readMem (a + 64) 64).2 = (zeros 64, none) ∧
     ((t.take 20 == (cacheTag 0 (natAt (s.plan.listOf 0) 24 4) e []).take 20 && decide (64 + 64 ≤ s.plan.lineSize)) = (k != 1)) ∧
     (natAt t 20 4 = (crc32c (zeros 64)).toNat ↔ k ≠ 2)) ∧
    (ingests (slt .done [])).ing.oldest 0 .done = some (slt .done []) ∧
    (let x := slt .decode (idx 0 0)
     let s0 := ingests x
     let s : State := { s0 with pow := { s0.pow with domains := s0.pow.domains.set 80 .on } }
     let e := s.plan.slot 0
     let r := s.plan.shapeSlot s.mem.usable x
     s.ing.oldest 0 .decode = some x ∧ s.pow.domains[80] = .on ∧ x.written = 0 ∧
     entryReserved s.mem.usable x.entry = true ∧
     (match s.ingestWrite (placeAt e 8).1 (r.payloads.take r.blocks.length) with
      | .inl s1 => (match (s1.slotBlocks x r false r.blocks.length).ingestWrite (placeAt e 20).1 r.audioRuns with
        | .inl s2 => (match s2.ingestWrite (placeAt e 8).1 r.runs with | .inl _ => true | .inr _ => false)
        | .inr _ => false)
      | .inr _ => false) = true) := by decide +kernel

theorem wit_CheckpointSets :
    (let s := (onCore vc).modCore 0 fun c => { c with holdReq := .boundary }
     (s.core 0).holdReq = .boundary ∧ (s.quiesced 0).isSome = true) ∧
    (let v := { vw .step with stepTag := 9 }
     let s0 := (onCore v).modCore 0 fun c => { c with hold := .boundary }
     let s : State := { s0 with ckpt := { s0.ckpt with pendingB := [9], phase := .holding },
                                job := { s0.job with hostTarget := false, snapshot := some 0,
                                                     regions := [⟨0, .gddr, 0, 2 ^ 26, true, true, false, false, false, 0, true⟩] } }
     s.heldBoundary = some 9 ∧ (s.job.snapshot.bind s.job.region).isSome = true ∧ (s.vcores.any fun x => x.2.spoilt) = false ∧ s.job.hostTarget = false) ∧
    (let s : State := { live with job := { live.job with hostTarget := false },
                                  mem := { live.mem with channels := 1, gddr := .zeroed 8, screeLinked := 3 },
                                  ckpt := { live.ckpt with phase := .copying, granules := [⟨0, 0, 0, 32, false, []⟩] } }
     s.ckpt.granules[0]? = some ⟨0, 0, 0, 32, false, []⟩ ∧ s.mem.readDev 0 32 = (zeros 32, none) ∧
     ((s.spoil 0).mem.readDev 0 32).2 = some 0 ∧ s.ckpt.phase = .copying ∧ s.mem.faultPage 0 32 false = none ∧
     ({ s with fab := { s.fab with topo := 0x80000000, pair := 0x10000 } } : State).holdsSlots = true ∧ s.mem.slotBase true = some (2 ^ 37) ∧ s.mem.slotBase false = some 0) ∧
    ((live.modPort 7 fun _ => upPort).port 7).state = .up ∧ live.mem.slotBase true = none ∧ crc32c (Block.ofBytes (blk.header ++ blk.data)).data = (Block.ofBytes (blk.header ++ blk.data)).chk ∧
    (let s : State := { live with host := { live.host with pcieUp := true, busMaster := true },
                                  ckpt := { live.ckpt with drain := some (true, 0, 1), restore := some (1, false, 0) },
                                  job := { live.job with drains := live.job.drains.set 0 (some ⟨[(0, 4096)], 4096⟩) } }
     s.ckpt.drain = some (true, 0, 1) ∧ s.job.drains[0]?.join = some ⟨[(0, 4096)], 4096⟩ ∧ s.host.dma = true ∧
     s.ckpt.restore = some (1, false, 0) ∧ (s.restoreFault 1 [] []) = some (2, 0)) := by decide +kernel

/-- The device with the PCIe link up. -/
def linked : State := { live with host := { live.host with pcieUp := true, busMaster := true } }

theorem wit_HostAccesses :
    linked.host.pcieUp = true ∧ (8 = 4 ∨ 8 = 8) ∧ 0x10 % 8 = 0 ∧ 0 + 512 ≤ 2 ^ linked.host.bar2Log2 ∧
    (let s := linked.modMem fun m => { m with channels := 1 }
     s.mem.gddrBad = [] ∧ s.host.bar2Base / 4096 = (s.host.bar2Base + 1 - 1) / 4096 ∧ s.host.bar2Base + 1 ≤ s.fwBase ∧
     s.fwBase ≤ s.mem.usable) := by decide +kernel

/-- A management frame with the command `cmd`. -/
def frame (cmd : List Byte) : List Byte := sidebandFrame 0 cmd

theorem wit_MailboxesAndEvents :
    (∀ m : Fin 8, linked.host.boxes[m.val]!.busy = false) ∧
    (let f := frame (zeros 32)
     linked.sidebandUp = true ∧ 39 ≤ f.length ∧ natAt f 0 2 = f.length - 7 ∧ natAt f 2 1 = 0 ∧ linked.host.boxes[8].busy = false ∧
     natAt f (f.length - 4) 4 = (crc32c (f.take (f.length - 4))).toNat) ∧
    linked.host.evEnable = false ∧ (3 : Word)[0] = true ∧ linked.host.dma = true ∧
    ({ linked.host with evDue := true }).evDue = true ∧ linked.host.shed < 3 ∧ ({ linked.host with shed := 1 }).shed = 1 ∧
    linked.pow.boot = .imago := by decide +kernel

/-- `s` with the command of opcode `op` and payload `p` waiting in mailbox 0. -/
def ump (s : State) (op : Nat) (p : List Byte) : State :=
  { s with host := { s.host with
      nego := 3, boxes := s.host.boxes.set 0 { s.host.boxes[0] with
        busy := true, nego := 3, cmd := bytesOf 2 op ++ bytesOf 2 0x0203 ++ bytesOf 4 1 ++ bytesOf 4 p.length ++ zeros 20 ++ p } } }

/-- `State.Takes` of mailbox 0, decided. -/
def takesB (s : State) (op : Nat) : Bool := s.serves && match s.nextCmd with
  | some h => h.mbx == 0 && h.op == op && (s.precheck h).isNone
  | none => false

theorem takes_of {s : State} {op : Nat} (h : takesB s op = true) : ∃ c, s.Takes 0 op c := by
  simp only [takesB, Bool.and_eq_true] at h
  obtain ⟨h1, h2⟩ := h
  split at h2
  · rename_i c hc
    simp only [Bool.and_eq_true, beq_iff_eq, Option.isNone_iff_eq_none] at h2
    exact ⟨c, h1, hc, h2.1.1, h2.1.2, h2.2⟩
  · cases h2

/-- A reference to one extent of 4,096 bytes at bus address 0x1000, listed at address 0, and host memory that lists it. -/
def bufRef : List Byte := bytesOf 8 0 ++ bytesOf 4 1 ++ bytesOf 4 4096
def listed (s : State) : State := s.modMem fun m => { m with host := m.host.setRange 0 (bytesOf 8 0x1000 ++ bytesOf 8 4096), channels := 1 }
/-- `State.HostBuffer`, decided. -/
def bufB (s : State) (ref : List Byte) : Bool :=
  s.host.dma && natAt ref 12 4 != 0 && (s.extents (natAt ref 0 8) (natAt ref 8 4) (natAt ref 12 4)).isSome

theorem buffer_of {s : State} {ref : List Byte} (h : bufB s ref = true) : ∃ b, s.HostBuffer ref b := by
  simp only [bufB, Bool.and_eq_true, bne_iff_ne] at h
  obtain ⟨b, hb⟩ := Option.isSome_iff_exists.1 h.2
  exact ⟨b, h.1.1, h.1.2, hb⟩

/-- A device with the link up and the job in state `j`. -/
def inJob (j : JobState) : State := listed { linked with job := { linked.job with state := j } }

theorem wit_CommandsAreTurnedAway :
    State.reset.serves = false ∧ linked.serves = true ∧ linked.nextCmd = none ∧
    (let s := ump linked 0x30 (zeros 11)
     s.serves = true ∧ (s.nextCmd.map fun h => (h.mbx, h.op, s.precheck h)) = some (0, 0x30, some 2)) ∧
    (let s := ump linked 0x99 []
     (s.nextCmd.map fun h => (decide (h.op ∈ knownOps), s.precheck h)) = some (false, some 3)) := by decide +kernel

theorem wit_IdentityAndFirmwareCommands :
    takesB (ump linked 0x01 []) 0x01 = true ∧ takesB (ump linked 0x02 (bytesOf 2 0x0200 ++ bytesOf 2 0x0203)) 0x02 = true ∧
    takesB (ump linked 0x03 []) 0x03 = true ∧ bufB (inJob .none) bufRef = true ∧ (inJob .none).mem.usable ≠ 0 ∧
    takesB (ump (inJob .none) 0x10 bufRef) 0x10 = true ∧ (∀ a ∈ [0, 1, 2, 3], takesB (ump (inJob .ended) 0x11 [BitVec.ofNat 8 a]) 0x11 = true) ∧
    takesB (ump (inJob .none) 0x12 (zeros 32 ++ bufRef)) 0x12 = true ∧ linked.pow.runningB = linked.pow.flash.selectedB := by
  decide +kernel

/-- A JOB_CREATE payload for job 7 of one rank. -/
def jobRec : List Byte := bytesOf 4 7 ++ bytesOf 4 1 ++ zeros 88 ++ bufRef ++ zeros 80

theorem wit_JobsAreMade :
    (let s := ump (inJob .none) 0x20 jobRec
     takesB s 0x20 = true ∧ bufB s (sub jobRec 96 16) = true ∧ natAt (sub jobRec 112 16) 12 4 = 0 ∧ natAt (sub jobRec 128 16) 12 4 = 0 ∧
     natAt (sub jobRec 144 16) 12 4 = 0 ∧ bitAt (natAt jobRec 25 1) 2 = false ∧ jobValuesOk jobRec = true ∧
     2 * natAt jobRec 4 4 ≤ natAt (sub jobRec 96 16) 12 4) ∧
    (let p := zeros 4 ++ bufRef ++ [0]
     takesB (ump (inJob .created) 0x21 p) 0x21 = true ∧ bufB (inJob .created) (sub p 4 16) = true ∧
     ((inJob .created).loadFault (Image.of [])).isSome = true) ∧
    (let r : Region := ⟨3, .host, hostBase, 4096, true, true, false, false, false, 0, false⟩
     let s0 := inJob .paused
     let s : State := { s0 with job := { s0.job with regions := [r] } }
     let p (form : Nat) := zeros 4 ++ [BitVec.ofNat 8 form] ++ zeros 1 ++ bytesOf 2 3 ++ zeros 8 ++ bufRef
     (∀ form ∈ [0, 1, 2], takesB (ump s 0x22 (p form)) 0x22 = true ∧ bufB s (sub (p form) 16 16) = true) ∧
     s.job.region 3 = some r ∧ s.mem.faults = []) := by decide +kernel

theorem wit_JobsAreRun :
    takesB (ump (inJob .loaded) 0x23 (zeros 4)) 0x23 = true ∧ (ump (inJob .loaded) 0x23 (zeros 4)).fresh.2.sendTwinIdentity.mayStart 0 = true ∧
    ({ inJob .loaded with job := { (inJob .loaded).job with restoreFailed := true } }).fresh.2.sendTwinIdentity.mayStart 0 = false ∧
    takesB (ump (inJob .running) 0x24 (zeros 4)) 0x24 = true ∧ takesB (ump (inJob .paused) 0x25 (zeros 4)) 0x25 = true ∧
    takesB (ump (inJob .running) 0x26 (zeros 4)) 0x26 = true ∧
    (∀ op ∈ [1, 2, 3], live.job.applies 1 op = true) ∧ live.job.applies 0 0 = false ∧
    (let p := zeros 8 ++ bytesOf 4 1 ++ bytesOf 4 1 ++ zeros 17
     natAt p 12 4 ≤ 4064 ∧ natAt p 4 4 < natAt p 8 4 ∧ natAt p 8 4 ≤ 0 + 1) ∧ (onPort upPort).freshCtl 0 ⟨5, 1, 0⟩ = true := by
  decide +kernel

theorem wit_CheckpointAndTestCommands :
    takesB (ump (inJob .running) 0x30 (zeros 12)) 0x30 = true ∧
    (∀ f ∈ [0, 1], takesB (ump (inJob .running) 0x31 (zeros 4 ++ [BitVec.ofNat 8 f] ++ zeros 14)) 0x31 = true) ∧
    (let s0 := inJob .running
     let s : State := { s0 with job := { s0.job with drains := s0.job.drains.set 0 (some ⟨[], 0⟩) }, mem := { s0.mem with screeLinked := 3 } }
     let p := zeros 4 ++ [2] ++ zeros 11 ++ [0, 0, 1]
     takesB (ump s 0x31 p) 0x31 = true ∧ natAt p 16 1 ≤ 1 ∧ natAt p 17 1 ≤ 3 ∧ natAt p 18 1 = 1 ∧ s.ckpt.drain = none ∧
     (s.job.drains[0]?.join).isSome = true ∧ (s.mem.slotBase false).isSome = true ∧ s.ckpt.phase = .idle) ∧
    takesB (ump (inJob .loaded) 0x32 (zeros 18)) 0x32 = true ∧ takesB (ump (inJob .none) 0x40 (bufRef ++ [0])) 0x40 = true ∧
    takesB (ump (inJob .none) 0x41 (zeros 8)) 0x41 = true ∧ (live.chk.packages.find? fun k => k.id.toNat == 0) = none ∧
    ([⟨1, 1, [], 0, 0, 0⟩].find? fun (k : Package) => k.id.toNat == 1).isSome = true := by decide +kernel

theorem wit_ServiceCommands :
    takesB (ump linked 0x50 (zeros 32)) 0x50 = true ∧ (linked.telemetry 10 0).isNone = true ∧ (linked.telemetry 3 0).isSome = true ∧
    takesB (ump linked 0x51 (zeros 8 ++ bufRef)) 0x51 = true ∧ takesB (ump linked 0x52 (zeros 32)) 0x52 = true ∧
    takesB (ump linked 0x52 (bytesOf 2 599 ++ zeros 30)) 0x52 = true ∧ takesB (ump linked 0x53 [7]) 0x53 = true ∧
    (let s := ump (onCore vc) 0x54 [0]
     takesB s 0x54 = true ∧ (s.core 0).kind = .active) ∧
    (let s0 := onCore vc
     let s1 : State := { s0 with job := { s0.job with debug := true } }
     takesB (ump s1 0x60 (zeros 4 ++ [1, 0])) 0x60 = true ∧ (s1.core 0).v.isSome = true ∧ s1.debugCore = none ∧
     (s1.modCore 0 fun c => { c with debugHeld := true }).debugCore = some 0) := by decide +kernel

theorem wit_Registers : ((onCore vc).core 0).v.isSome = true ∧ (live.core 0).v = none := by decide +kernel

theorem wit_ResetsRestart :
    live.pow.boot = .imago ∧ live.alive = true ∧ ({ live.pow with perst := true }).perst = true ∧ linked.host.pcieUp = true := by decide +kernel

/-- An authentic package depends on free values, so bring-up's hypotheses about one have no closed witness. -/
theorem wit_BringUpRuns :
    State.reset.pow.boot = .instar0 ∧
    (∀ b ∈ [Boot.instar1, .instar2, .instar3, .instar4], ({ State.reset.pow with boot := b }).boot = b) ∧
    (let s : State := { State.reset with pow := { State.reset.pow with boot := .instar2, runningTrial := true } }
     s.pow.runningTrial = true ∧ s.alive = true ∧ s.pow.boot ≠ .imago ∧ s.pow.boot ≠ .recovery) := by decide +kernel

theorem wit_Throttle :
    live.pow.g ≤ 48 ∧ (∀ p : Fin 20, live.pow.h[p] ≤ 48) ∧ live.pow.limitW < 1401 ∧ 100 * 1371 < 98 * live.pow.limitW ∧
    live.pow.tthrot ≤ 97 ∧ 95 + 2 ≤ live.pow.tthrot ∧
    live.pow.throttled = (live.pow.throttle 0 (Vector.replicate 32 30)).throttled ∧ live.pow.boot ≠ .tripped := by decide +kernel

theorem wit_PowerDomainsFollowTable :
    live.pow.fuses.off 76 = true ∧ live.pow.fuses.off 0 = false ∧ live.pow.domains[0] = .off ∧
    (∀ x ∈ [DomState.poweringOn, .onPendingOff, .poweringOff, .offPendingOn, .on, .fault], (live.pow.domains.set 0 x)[0] = x) := by
  decide +kernel

theorem wit_SuppliesAndLinks :
    live.pow.boot ≠ .instar0 ∧ live.pow.boot = .imago ∧ (0 : Byte) = live.pow.regSeq ∧ linked.host.pcieUp = true ∧ linked.ing.plan = [] ∧
    ({ linked.job with hostTarget := false }).hostTarget = false ∧ live.host.pcieUp = false ∧
    bitAt ({ live.mem with screeLinked := 3 }).screeLinked.toNat 1 = true ∧ bitAt live.mem.screeDown.toNat 1 = false ∧
    bitAt ({ live.mem with screeDown := 2 }).screeDown.toNat 1 = true ∧
    (let w := { live.pow with lasers := 0x3FFFFF }
     w.linkLit .host = true ∧ w.linkLit (.cxl 1) = true ∧ live.pow.linkLit .host = false) ∧
    (let s := litPort { upPort with sendq := [⟨pkt 1 1, false, none⟩] }
     s.fab.ports[0].state = .up ∧ s.fab.ports[0].sendq ≠ [] ∧ s.shines 0 = true) ∧
    (onPort { upPort with sendq := [⟨pkt 1 1, false, none⟩] }).shines 0 = false := by decide +kernel

/-- An image of one virtual core whose code is one HALT (R416 to R418). -/
def image : List Byte :=
  let raw := bytesOf 4 0x33444C53 ++ bytesOf 2 1 ++ bytesOf 2 1 ++ bytesOf 2 1 ++ zeros 6 ++ bytesOf 4 2 ++ zeros 4 ++ bytesOf 8 224 ++ zeros 32
    ++ (bytesOf 2 1 ++ bytesOf 2 0 ++ bytesOf 4 128 ++ bytesOf 8 16) ++ (bytesOf 2 4 ++ bytesOf 2 0xFFFF ++ bytesOf 4 192 ++ bytesOf 8 32)
    ++ zeros 32 ++ bytesOf 16 1 ++ zeros 48 ++ (bytesOf 2 0 ++ [1, 5] ++ zeros 4 ++ bytesOf 8 64 ++ zeros 16)
  splice raw 32 (sha256 raw)

theorem wit_LoadAccepted :
    ((inJob .created).modCore 0 fun c => { c with kind := .active }).loadFault (Image.of image) = none := by decide +kernel

theorem wit_RecordsComeBack :
    vc.strands[0].wait ≠ .step ∧ (vw .step).strands[0].wait = .step ∧ (∀ r ∈ vc.regions, r.id < 65536 ∧ r.base < 4294967296 ∧ r.len < 4294967296) ∧
    Bounds.off.nanMax < 65536 ∧ blk.id < 2 ^ 64 ∧ blk.region < 4096 ∧ blk.fmt ≠ .reserved ∧ blk.seq < 2 ^ 32 ∧ blk.data.length < 2 ^ 32 := by
  decide +kernel

theorem wit_TrainingOutcome :
    (let n := ((List.range 4).filter fun g => bitAt (0 : BitVec 4).toNat g).length
     min n (4 - upPort.maxWidth.toNat) = 0) ∧
    (let n := ((List.range 4).filter fun g => bitAt (6 : BitVec 4).toNat g).length
     min n (4 - upPort.maxWidth.toNat) = 2) ∧ min 1 3 < max 1 2 ∧ max 2 2 ≤ min 3 3 := by decide +kernel

theorem wit_StepRunsFront :
    State.reset.pending = [] ∧ State.reset.ownEvent = none ∧ State.reset.fab.rxBuf = [] ∧ State.reset.clocked 0 = false ∧
    live.clocked 0 = true ∧ (live.setJobState .ended 6).clocked 0 = false ∧
    ((live.setJobState .running 1).setJobState .ended 6).clocked 0 = true ∧ (live.core 0).v = none ∧ (live.core 0).runs = [] ∧
    ((onCore vc).modCore 0 fun c => { c with filling := true, fillAt := 0 }).ownEvent = some (.shadowSetComplete 0) := by decide +kernel

/-! ### Witnesses of further clauses -/

theorem wit2_Waits :
    (let v := vw (.token 3 1 true)
     let s := (onCore v).modCore 0 fun c => { c with sigNow := [⟨3, 1, none⟩] }
     (v.tokens[3]!).toNat < 1 ∧ 1 ≤ (((s.core 0).tokensNext v)[3]!).toNat ∧ s.running 0 = true ∧ (s.core 0).stopped = false ∧
     (s.core 0).dryBefore 1 = false) ∧
    (let v := vw (.token 3 1 true)
     (v.tokens[3]!).toNat < 1 ∧ ((((onCore v).core 0).tokensNext v)[3]!).toNat < 1) := by decide +kernel

/-- A word of tile memory that reads as uncorrectable when an instruction reads its operands at issue. -/
theorem wit2_ReadsAtIssue :
    let v := { vc with tileBad := [0] }
    let w := wd 0x031 (0 * 2 ^ 24 + 9 * 2 ^ 28 + 2 ^ 33 + 2 ^ 62 + 31 * 2 ^ 65)
    (v.badAccess (.read .tile 0 4 0 0 0)).isSome = true ∧ runsB (onCore v) (wd 0x021 (3 * 2 ^ 24)) v false .ma (passChecks (wd 0x021 (3 * 2 ^ 24)) true) = true ∧
    (v.badAccess (.read .tile 0 32 0 0 0)).isSome = true ∧ runsB (onCore v) (wd 0x024 0) v false .ma (fun _ _ st => drainChecks (wd 0x024 0) st) = true ∧
    runsB (onCore v) w v false .ve (fun _ _ st => cvtChecks w st) = true ∧
    runsB (onCore v) (wd 0x036 0) v false .ve (fun _ _ st => rngChecks (wd 0x036 0) st) = true := by decide +kernel

theorem wit2_StreamsIssueRequests :
    (let x : Xfer := ⟨⟨0, 0, 0, 0, []⟩, 64, false, 0, none⟩
     let t := tsk { stg .expand loadRaw with xfers := [x] }
     let r : TaskRun := { s := onTask t, p := 0, t }
     (onTask t).task 0 0 = some t ∧ (r.stage 0).xfers ≠ [] ∧ r.room = true) ∧
    (let t := tsk (stg .load loadRaw)
     let full : Machine.Task := { tsk { stg .load loadRaw with descs := List.replicate 4096 [] } with id := 1 }
     let s := (onTask t).modCore 0 fun c => { c with tasks := [t, full] }
     s.task 0 0 = some t ∧ 4096 < (s.core 0).cached + min 64 (1 - 0)) ∧
    (let t : Machine.Task := { (default : Machine.Task) with stages := [stg .coll ([8, 0, 0, 0, 0, 0, 0, 0] ++ bytesOf 2 0 ++ bytesOf 2 1 ++ zeros 20)] }
     let r : TaskRun := { s := onTask t, p := 0, t }
     (r.stage 0).kind = .coll ∧ (r.stage 0).phase < 4 ∧ r.room = true ∧ ((r.pump 1 0).done.task 0 0).isSome = true) ∧
    ({ stg .coll (zeros 32) with phase := 4 } : Stage).outputs = true := by decide +kernel

theorem wit2_TasksEnd :
    (let t := { tsk { stg .load loadRaw with next := 1, descs := [zeros 64], dropped := 0, fin := 1 } with delivered := 1, provBlock := some 5 }
     let r : TaskRun := { s := onTask t, p := 0, t }
     t.abort = none ∧ r.complete = true ∧ t.provBlock ≠ none ∧ (onTask t).host.dma = false) ∧
    (let v := vc.writeTile 56 (bytesOf 4 0x200000)
     v.regionFault 0 64 .write = none ∧ (v.regionFault (natAt (v.readTile 0 64) 56 4 : Nat) 208 .read).isSome = true) ∧
    (let v := { vc.writeTile 56 (bytesOf 4 0x1000) with tileBad := [0x200] }
     v.regionFault 0x1000 208 .read = none ∧ (badWord v.tileBad 0x1000 208).isSome = true) ∧
    (commandFault vc 1 false (vc.readTile 0x1000 208)).isSome = true := by decide +kernel

theorem wit2_WitnessesAndTwins :
    (let run := Run.start (.of vc.strands[0] 0 (wordOf 0 0x061) 0 [] 0 none) 0 [[(1, .feed 0)]]
     let s := ((onCore vc).modCore 0 fun c => { c with runs := [run] }).modUnit 0 fun u => { u with queued := 262144 }
     ((s.core 0).piecesDue 1).length = 1 ∧ s.bankDemand 0 1 ≠ 0 ∧ (s.core 0).tasks = []) ∧
    (let t : Machine.Task := { tsk (stg .store loadRaw) with provBlock := some 7 }
     let s : State := { live with job := { live.job with prov := ⟨⟨[(0, 4096)], 4096⟩, 20⟩ } }
     t.provBlock = some 7 ∧ 192 * (s.job.prov.next + 1) ≤ s.job.prov.buf.total ∧ live.job.prov.buf.total < 192 * (live.job.prov.next + 1)) := by
  decide +kernel

theorem wit2_MemoryUpkeep :
    (let m := { live.mem with screePages := [(0, 3)], hostPages := [(0, 0x5003)], hostDirs := [(0, 0, 1), (1, 0, 1), (2, 0, 1)] }
     inScree screeBase = true ∧ m.translate (screeBase + 7) true = some (.scree 7) ∧ inHost hostBase = true ∧
     m.translate (hostBase + 7) true = some (.host 0x5007) ∧ { m with hostDirs := [] }.translate hostBase false = none ∧
     { m with hostPages := [(0, 0x5007)] }.translate hostBase false = none ∧ { m with screePages := [(0, 1)] }.translate screeBase true = none) ∧
    (let m := { live.mem with tlb := [pageKey hostBase] }
     m.tlb.contains (pageKey hostBase) = true ∧ m.tlb.contains (pageKey (hostBase + 4096)) = false) := by decide +kernel

/-- A control-plane packet of the kind given, with no payload of its own. -/
def ctlPkt (kind : Nat) : List Byte := packetHeader pktControl 0 0 0 true 0 0 8 0 0 0 0 0 0 ++ bytesOf 1 kind ++ [0] ++ bytesOf 2 5 ++ bytesOf 4 1

theorem wit2_PacketsAreRouted :
    (∀ kind ∈ [0, 6], headerOk (ctlPkt kind) = true ∧ natAt (ctlPkt kind) 0 1 % 16 = pktControl ∧ natAt (ctlPkt kind) 32 1 = kind) ∧
    (onPort upPort).freshCtl 0 (ctlOf ((ctlPkt 0).drop 32)) = true ∧ ({ upPort with starved := true }).starved = true ∧ onData (packetHeader 1 1 0 0 true 1 0 0 0 0 0 0 0 0) = true := by
  decide +kernel

theorem wit2_BlocksAreAcknowledged :
    let b := Block.ofBytes (blk.header ++ blk.data)
    (match ((onCore vc).receiveBlock (zeros 8 ++ bytesOf 4 1 ++ zeros 16) 0 b).2 with | .bad => true | _ => false) = true ∧
    (match (({ live with job := (onTask (tsk (stg .load loadRaw))).job } : State).receiveBlock (zeros 8 ++ bytesOf 4 1 ++ zeros 16) 0 b).2 with | .wait guard => !guard | _ => false) = true := by decide +kernel

theorem wit2_ChecksTrip :
    (let a := Access.put .tile 0 64 3 9 0 5
     let b := Access.read .tile 32 8 4 1 6
     let c : Core := { (onCore vc).core 0 with tags := [a], cycle := 5, tokenOps := [⟨1, 2, 1, false, 4⟩] }
     a.races b = true ∧ c.earlyRead [b] = some (32 + 4294967296 * 9) ∧ (c.auditRaces [b]).raceDue.length = 1 ∧
     (c.auditRaces [b]).settleRaces.raceDue = [] ∧ c.earlyRead [] = none) ∧
    (let r : Recheck := ⟨0, 0, 0, 0, 0, 4, []⟩
     let idle := { vc with strands := Vector.replicate 128 Strand.idle }
     let s := (onCore idle).modCore 0 fun c => { c with recheck := some vc.strands }
     let u := (onCore vc).modCore 16 fun c => { c with kind := .spare, v := some idle, test := some ⟨0, 0, [], none, true⟩ }
     ((s.core 0).recheck.isSome = true ∧ (s.scratchOf 0 r).isSome = true ∧ (onCore vc).scratchOf 0 r = none) ∧
     u.thirdOn = some 16 ∧ (u.scratchOf 16 r).isSome = true ∧ (onCore vc).thirdOn = none) := by decide +kernel

theorem wit2_ControlPlane :
    (let s0 := onPort upPort
     let s : State := { s0 with mem := { s0.mem with channels := 1 } }
     let a : Assembly := ⟨7, 1, ⟨2, [(1, [3])]⟩⟩
     let u : State := { s with chk := { s.chk with assemblies := [a] } }
     s.mem.usable ≠ 0 ∧ s.chk.assemblies.length < 4 ∧ (u.chk.assemblies.find? fun x => x.id == 7 && x.version == 1) = some a ∧
     (∀ c ∈ a.chunks.held, c.1 ≠ 0) ∧ a.chunks.count ≤ (a.chunks.held ++ [(0, [1])]).length ∧
     4 ≤ (List.replicate 4 a).length) := by decide +kernel

theorem wit2_CheckpointSets :
    (let s : State := { live with ckpt := { live.ckpt with phase := .copying, zeroing := [3], buddyDrains := [live.ckpt.slotB] },
                                  job := { live.job with hostTarget := false } }
     s.ckpt.zeroing ≠ [] ∧ (3 : Nat) ∈ s.ckpt.zeroing ∧ s.ckpt.slotB ∈ s.ckpt.buddyDrains) ∧
    (∀ code ∈ [0, 1, 2, 3], natAt [BitVec.ofNat 8 code] 0 1 = code ∧ [BitVec.ofNat 8 code].length < 32) ∧ 0 < 2 ^ 37 := by decide +kernel

theorem wit2_HostAccessesOfBar2 :
    (let m := { linked.mem with channels := 1, gddrBad := [0], gddr := .zeroed 8, staging := .zeroed 8, stagingBad := [2] }
     let s : State := { linked with mem := m }
     s.host.bar2Base = 0 ∧ s.bar2Reaches 0 = true ∧ (s.bar2Run 0 64).2 ≠ [] ∧ (s.bar2Run 64 4).1 = zeros 4 ∧
     s.fwBase ≤ s.mem.usable ∧ 65 ≤ s.fwBase ∧ s.mem.usable ≤ stagingBase) ∧
    (let s : State := { linked with host := { linked.host with bar2Win := 0x04, bar2Log2 := 30 } }
     s.host.bar2Log2 = 30) := by decide +kernel

theorem wit2_ServiceCommands :
    ∀ link ∈ [0, 8, 9, 0xFF, 13], takesB (ump linked 0x53 [BitVec.ofNat 8 link]) 0x53 = true := by decide +kernel

theorem wit2_RegisterWrites :
    (let x := fp32.decode 0x3F800000
     x.isNan = false ∧ x.isInf = false ∧ x.lt (.zero false) = false) ∧ (fp32.decode 0xBF800000).lt (.zero false) = true ∧
    (fp32.decode 0x7FC00000).isNan = true ∧ (fp32.decode 0x7F800000).isInf = true ∧ linked.host.pcieUp = true ∧ live.jobLive = true ∧
    State.reset.jobLive = false := by decide +kernel

theorem wit2_PowerDomains :
    (let s := onCore vc
     s.domainNeeded 0 = true ∧ s.domainNeeded 4 = false) ∧
    (let w := { live.pow with h := Vector.replicate 20 5, setMv := 700, tthrot := 95 }
     let u := w.throttle 0 (Vector.replicate 32 30)
     max u.g u.h[0] < max w.g w.h[0] ∧ w.setMv < 800 ∧ u.raises[0] = some false) := by decide +kernel

/-- The worked example of R146: four FP32 elements in the order of Kogge and Stone. -/
theorem test_scanOrder :
    (scanChunk fp32 false true 0 [(0x3F800000, false), (0x33800000, false), (0x33800000, false), (0x33800000, false)]).1 =
      [0x3F800000, 0x3F800000, 0x3F800001, 0x3F800001] := by decide +kernel

/-- The worked example of R154, cases A to D, with the elements that decide. -/
theorem test_redBest :
    let two := fp32.decode 0x40000000
    let minus := fp32.decode 0xBF800000
    redBest true [(0, .zero false), (3, two), (9, two)] = some (3, two) ∧ redBest false [(0, .zero false), (3, two)] = some (0, .zero false) ∧
    redBest true [(0, minus), (5, .zero true), (6, minus)] = some (5, .zero true) ∧
    redBest true [(0, .zero true), (1, .zero false), (2, .zero true)] = some (1, .zero false) ∧
    redBest false [(0, .zero true), (1, .zero false)] = some (0, .zero true) ∧
    redBest true [(0, .zero false), (7, .nan), (20, .nan)] = some (7, .nan) := by decide +kernel

theorem wit_EnginesCompute :
    (fp32.decode 0x7FC00000).isNan = true ∧ (fp32.decode 0).isZero = true ∧ (fp32.decode 0x80000000).isZero = true ∧
    fp16.decode 0x3C00 = .fin false 1024 (-10) ∧ fp16.decode 0xBC00 = .fin true 1024 (-10) ∧ (List.replicate 32 (some 5 : Member)).length = 32 ∧
    (vopInt 0x00 0x7FFFFFFF 1 0) = (0x7FFFFFFF, ⟨false, false, true, false⟩) ∧ (vopInt 0x08 0x80000000 0 0).1 = 0x7FFFFFFF ∧
    (vopInt 0x14 0x80000000 33 0).1 = 0xC0000000 := by decide +kernel

theorem wit_CheckerAndShaperCompute :
    (tapUnit [.nan, .inf true, fp32.decode 0xC0000000, fp32.decode 1]).m = 0x40000000 ∧
    (tapUnit [.nan, .inf true, fp32.decode 0xC0000000, fp32.decode 1]).s = 0x40800000 ∧ (fp32.decode 1).isNan = false ∧
    (filterOf 63).sum = 128 ∧ Fmt.bf16.float = some bf16 ∧ 5 < 2 ^ 8 := by decide +kernel

end Sys2Proof.Tests
end

section
/-! SUPPORT. Host accesses of BAR0 and its debug window (O43). -/

namespace Sys2Proof.Machine

/-- The aperture takes an access exactly where it is naturally aligned and within 16 MiB (R16, R393). -/
theorem bar0Aligned_iff (o n : Nat) : bar0Aligned o n = true ↔ (n = 4 ∨ n = 8) ∧ o % n = 0 ∧ o + n ≤ 0x1000000 := by
  simp [bar0Aligned, and_assoc]

/-- R16: any other write is discarded, any other read is all ones. -/
theorem State.bar0_of_not_aligned {s : State} {o n : Nat} (up : s.host.pcieUp = true) (h : bar0Aligned o n = false) (v : Nat) :
    s.bar0 true o n v = s ∧ s.bar0 false o n v = s.emit (.hostData (List.replicate n 0xFF) false) := by
  simp [State.bar0, State.hostReaches, up, h]

theorem State.bar0_word {s : State} {o : Nat} (up : s.host.pcieUp = true) (h : bar0Aligned o 4 = true) (v : Nat) :
    s.bar0 true o 4 v = s.bar0Write o (v % 4294967296) ∧
      s.bar0 false o 4 v = s.emit (.hostData (bytesOf 4 (s.bar0Read o)) false) := by
  simp [State.bar0, State.hostReaches, up, h]

/-- A 64-bit access is two of 32 bits, low word first. -/
theorem State.bar0_dword {s : State} {o : Nat} (up : s.host.pcieUp = true) (h : bar0Aligned o 8 = true) (v : Nat) :
    s.bar0 true o 8 v = (s.bar0Write o (v % 4294967296)).bar0Write (o + 4) (v / 4294967296) ∧
      s.bar0 false o 8 v = s.emit (.hostData (bytesOf 4 (s.bar0Read o) ++ bytesOf 4 (s.bar0Read (o + 4))) false) := by
  simp [State.bar0, State.hostReaches, up, h]

end Sys2Proof.Machine

open Sys2Proof Sys2Proof.Machine

/-- Settles O43: the three sizes of access of BAR0, and the debug window as the part of BAR0 from 0x100000 on. -/
theorem hostAccessesOfBar0 : Obligations.HostAccessesOfBar0 := by
  intro s o n v up
  refine ⟨fun h => ?_, fun h h4 => ?_, fun h h8 => ?_, fun w ho => ?_⟩
  · have ha : bar0Aligned o n = false := by rwa [← Bool.not_eq_true, bar0Aligned_iff]
    obtain ⟨hw, hr⟩ := State.bar0_of_not_aligned up ha v.toNat
    exact ⟨congrArg _ hw, congrArg _ hr⟩
  · subst h4
    obtain ⟨hw, hr⟩ := State.bar0_word up ((bar0Aligned_iff o 4).2 h) v.toNat
    exact ⟨congrArg _ hw, congrArg _ hr⟩
  · subst h8
    obtain ⟨hw, hr⟩ := State.bar0_dword up ((bar0Aligned_iff o 8).2 h) v.toNat
    exact ⟨congrArg _ hw, congrArg _ hr⟩
  · exact ⟨s.bar0 w (0x100000 + o) n v.toNat, congrArg _ (if_pos ho), rfl⟩
end

section
/-! SUPPORT. Bit fields of the registers, in Mathlib's words. -/

namespace Sys2Proof.Machine

theorem bitAt_eq_testBit (n i : Nat) : bitAt n i = n.testBit i := by
  rw [bitAt, Nat.testBit, Nat.one_and_eq_mod_two]
  rcases Nat.mod_two_eq_zero_or_one (n >>> i) with h | h <;> simp [h]

theorem bitAt_toNat {w : Nat} (x : BitVec w) (i : Nat) (h : i < w) : bitAt x.toNat i = x[i] := by
  rw [bitAt_eq_testBit, BitVec.testBit_toNat, BitVec.getLsbD_eq_getElem h]

theorem bitsAt_eq_div_mod (n lo len : Nat) : bitsAt n lo len = n / 2 ^ lo % 2 ^ len := by
  rw [bitsAt, Nat.shiftRight_eq_div_pow]

end Sys2Proof.Machine
end

section
/-! SUPPORT. Register writes (O53). -/

namespace Sys2Proof.Machine

theorem State.modV_of_resident {s : State} {p : Fin 20} {v : VCore} (h : (s.core p).v = some v) (f : VCore → VCore) :
    s.modV p f = s.setCore p { s.core p with v := some (f v) } := by
  simp [State.modV, State.modCore, Core.modV, h]

/-- Bucket `b`'s block of the Cairn space is the 32 bytes from 32 × b on (Table 12.11). -/
theorem exec_registerWrite_cairn (s : State) {b o : Nat} (hb : b < 85) (ho : o < 0x20) (value : DWord) :
    exec (.registerWrite .cairn (0x20 * b + o) value) s =
      .next { s with chk := { s.chk with buckets := s.chk.buckets.set! b ((s.chk.buckets[b]!).write b o value.toNat) } } := by
  have hdiv : (0x20 * b + o) / 0x20 = b := by omega
  have hmod : (0x20 * b + o) % 0x20 = o := by omega
  simp only [exec_registerWrite, execRegisterWrite, State.writeReg, hdiv, hmod, if_pos hb]

/-- R362: what a Cairn configuration register takes. -/
theorem cairnValue_iff (value : DWord) : cairnValue value.toNat = true ↔
    (fp32.decode (value.setWidth 32).toNat).isNan = false ∧ (fp32.decode (value.setWidth 32).toNat).isInf = false ∧
      (fp32.decode (value.setWidth 32).toNat).lt (.zero false) = false := by
  simp [cairnValue, and_assoc]

/-- The configuration registers of a bucket keep their values when the value written is none that R362 takes. -/
theorem Bucket.write_refused (k : Bucket) (b : Nat) {o v : Nat} (ho : o ≠ 0) (ho' : o ≠ 0x18) (h : cairnValue v = false) :
    k.write b o v = k := by
  simp [Bucket.write, ho, ho', h]

/-- The block of port `n` in the fabric space (Table 11.10). -/
theorem State.writeFabric_port (s : State) (n : Fin 8) (v : Nat) :
    s.writeFabric (0x100 + 0x40 * n.val) v =
      s.modPort n.val fun q => { q with maxWidth := BitVec.ofNat 2 (v / 2), v2Allow := bitAt v 4 } := by
  have hn : n.val < 8 := n.isLt
  have hblock : (0x100 + 0x40 * n.val - 0x100) / 0x40 = n.val := by omega
  have hin : 0x100 ≤ 0x100 + 0x40 * n.val ∧ 0x100 + 0x40 * n.val < 0x300 ∧ (0x100 + 0x40 * n.val - 0x100) % 0x40 = 0 := by omega
  rw [State.writeFabric, if_neg (by omega), if_neg (by omega), if_neg (by omega), if_pos hin, hblock]

end Sys2Proof.Machine

open Sys2Proof Sys2Proof.Machine

/-- Settles O53: each register write is the field update of its access code. -/
theorem registerWrites : Obligations.RegisterWrites := by
  intro s
  refine ⟨fun p value v hv => ?core, fun p value => ?control, fun off value => rfl, fun value => ?ingest, fun value => ?replay,
    fun value => ?fabric, fun value => rfl, fun value b hb => ?cairn, fun value => ?power, fun value up => ?pci⟩
  case core =>
    refine ⟨v.flags.clear value.toNat, congrArg _ (State.modV_of_resident hv _), ?_⟩
    simp [ArithFlags.clear, bitAt_toNat]
  case control =>
    simp [execRegisterWrite, State.writeReg, State.writeCore, bitAt_toNat]
  case ingest =>
    simp [execRegisterWrite, State.writeReg, bitAt_toNat]
  case replay =>
    cases h : s.jobLive <;> simp [execRegisterWrite, State.writeReg, bitAt_toNat, h]
  case fabric =>
    refine ⟨rfl, rfl, rfl, fun n => ?_⟩
    rw [← bitAt_toNat value 4 (by decide)]
    exact congrArg _ (s.writeFabric_port n _)
  case cairn =>
    have run {o : Nat} (ho : o < 0x20) := exec_registerWrite_cairn s hb ho value
    refine ⟨run (o := 0) (by decide), (run (o := 0x18) (by decide)).trans ?_, fun takes => ?_, fun refuses o ho => ?_⟩
    · simp [Bucket.write, bitAt_toNat]
    · have hv := (cairnValue_iff value).2 takes
      refine ⟨(run (o := 4) (by decide)).trans ?_, (run (o := 8) (by decide)).trans ?_, (run (o := 0xC) (by decide)).trans ?_,
        (run (o := 0x10) (by decide)).trans ?_, (run (o := 0x14) (by decide)).trans ?_, (run (o := 0x1C) (by decide)).trans ?_⟩
      all_goals simp [Bucket.write, hv]
    · have hv : cairnValue value.toNat = false := by rwa [← Bool.not_eq_true, cairnValue_iff]
      have hoff : o < 0x20 ∧ o ≠ 0 ∧ o ≠ 0x18 := by revert o; decide
      rw [run hoff.1, Bucket.write_refused _ b hoff.2.1 hoff.2.2 hv]
  case power =>
    simp [execRegisterWrite, State.writeReg, Power.writeCtrl, bitAt_toNat, bitsAt_eq_div_mod]
  case pci =>
    simp [execRegisterWrite, State.writeReg, State.writePci, up, bitAt_toNat, bitsAt_eq_div_mod]
end

section
/-! SUPPORT. What the resets leave and clear (O54). -/

namespace Sys2Proof.Machine

/-- What a warm reset leaves and clears, whatever state it comes to (R430, Table 15.3). -/
structure State.WarmedFrom (s t : State) : Prop where
  boot : t.pow.boot = .instar1
  perst : t.pow.perst = false
  activate : t.pow.activateReset = false
  fuses : t.pow.fuses = s.pow.fuses
  requests : t.pow.reqs = 0
  scree : t.mem.scree = s.mem.scree
  hostMem : t.mem.host = s.mem.host
  job : t.job = .empty
  host : t.host = .off
  vacant : ∀ p : Fin 20, (t.core p).v = none
  packages : t.chk.packages = s.chk.packages
  levels : ∀ b : Fin 128, (t.chk.buckets[b]).level = (s.chk.buckets[b]).level

theorem State.warmReset_warmedFrom (s : State) : s.WarmedFrom s.warmReset where
  boot := rfl
  perst := rfl
  activate := rfl
  fuses := rfl
  requests := rfl
  scree := rfl
  hostMem := rfl
  job := rfl
  host := rfl
  vacant p := by simp [State.core, State.warmReset, Core.warm, Core.cleared]
  packages := rfl
  levels b := by simp [State.warmReset]

/-- A warm reset out of Imago saves the health record first, which changes nothing that the reset leaves. -/
theorem execWarmReset_warmedFrom {s : State} (alive : s.alive = true) (due : s.pow.perst = true ∨ s.pow.activateReset = true) :
    ∃ t, exec .warmReset s = .next t ∧ s.WarmedFrom t := by
  have runs : exec .warmReset s = .next (if s.pow.boot = .imago then s.saveHealth else s).warmReset := by
    have hd : (s.pow.perst || s.pow.activateReset) = true := by simpa using due
    simp [execWarmReset, alive, hd]
  refine ⟨_, runs, ?_⟩
  split
  · exact { s.saveHealth.warmReset_warmedFrom with }
  · exact s.warmReset_warmedFrom

end Sys2Proof.Machine

open Sys2Proof Sys2Proof.Machine

/-- Settles O54: cold reset, PERST, warm reset and function-level reset in turn. -/
theorem resetsRestart : Obligations.ResetsRestart := by
  intro s
  refine ⟨?cold, fun imago => ?perst, fun alive due => ?warm, fun up => ?flr⟩
  case cold =>
    refine ⟨s.coldReset, rfl, rfl, rfl, rfl, rfl, rfl, rfl, rfl, rfl, fun p => ?_, rfl⟩
    simp [State.core, State.coldReset, State.cold, Core.cleared]
  case perst =>
    have alive : s.alive = true := by simp [State.alive, imago]
    refine ⟨{ s.saveHealth with pow := { s.saveHealth.pow with perst := true } }, ?_, rfl, rfl, rfl, rfl, rfl, rfl⟩
    simp [execPerst, alive, imago]
  case warm =>
    obtain ⟨t, runs, w⟩ := execWarmReset_warmedFrom alive due
    exact ⟨t, runs, w.boot, w.perst, w.activate, w.fuses, w.scree, w.hostMem, w.job, w.host, w.vacant, w.requests, w.packages, w.levels⟩
  case flr =>
    have runs : exec .functionLevelReset s = .next _ := if_neg (by simp [State.hostReaches, up])
    refine ⟨_, runs, rfl, rfl, rfl, rfl, rfl, rfl, rfl, rfl, rfl, rfl, ?bus, ?sideband, fun m => ?idle⟩
    case bus => simp [HostSide.dma]
    case sideband => simp
    case idle =>
      have hm : m.val ≠ 8 := by omega
      have hm9 : m.val < 9 := by omega
      simp [hm, hm9, Mailbox.idle]
end

section
/-! SUPPORT. What leaves the device over its links and to the host changes nothing behind them: posting an event, a flood, packets on a port. -/

namespace Sys2Proof.Machine

@[simp] theorem Fabric.remember_rxBuf (f : Fabric) (origin seq : Nat) : (f.remember origin seq).rxBuf = f.rxBuf := by
  rw [Fabric.remember]

@[simp] theorem Fabric.setLink_rxBuf (f : Fabric) (addr port : Nat) (st : LinkState) : (f.setLink addr port st).rxBuf = f.rxBuf := rfl

/-- `t` differs from `s` at most in the link layers, the floods and the down map of the fabric, in the host side, in the memories and in what has
gone out. -/
structure State.Outward (s t : State) : Prop where
  cores : t.cores = s.cores
  job : t.job = s.job
  ing : t.ing = s.ing
  rep : t.rep = s.rep
  rxBuf : t.fab.rxBuf = s.fab.rxBuf
  chk : t.chk = s.chk
  ckpt : t.ckpt = s.ckpt
  pow : t.pow = s.pow
  free : t.free = s.free
  ticks : t.ticks = s.ticks
  pending : t.pending = s.pending

namespace State.Outward

variable {s t u : State}

theorem refl (s : State) : s.Outward s := ⟨rfl, rfl, rfl, rfl, rfl, rfl, rfl, rfl, rfl, rfl, rfl⟩

theorem trans (h : s.Outward t) (k : t.Outward u) : s.Outward u :=
  ⟨k.cores.trans h.cores, k.job.trans h.job, k.ing.trans h.ing, k.rep.trans h.rep, k.rxBuf.trans h.rxBuf, k.chk.trans h.chk,
    k.ckpt.trans h.ckpt, k.pow.trans h.pow, k.free.trans h.free, k.ticks.trans h.ticks, k.pending.trans h.pending⟩

/-- The parts that such a step may change. -/
theorem update (h : s.Outward t) {mem : MemSys} {host : HostSide} {out : List OutMsg} {fab : Fabric}
    (kept : fab.rxBuf = t.fab.rxBuf) : s.Outward { t with mem, host, out, fab } :=
  { h with rxBuf := kept.trans h.rxBuf }

theorem foldl (h : s.Outward t) {α : Type} {f : State → α → State} (step : ∀ (t : State) x, t.Outward (f t x)) (xs : List α) :
    s.Outward (xs.foldl f t) := closed_foldlS xs h fun t x ht => ht.trans (step t x)

/-! ### Events to the host -/

theorem emit (h : s.Outward t) (m : OutMsg) : s.Outward (t.emit m) := h.update rfl

theorem emitH (h : s.Outward t) (m : OutMsg) : s.Outward (t.emitH m) := by
  unfold State.emitH
  split
  · exact h.emit m
  · exact h

theorem raiseMsix (h : s.Outward t) (vec : Nat) : s.Outward (t.raiseMsix vec) := by
  unfold State.raiseMsix
  split
  · exact h.update rfl
  · exact h.emit _

theorem freeBox (h : s.Outward t) (box : Option Nat) : s.Outward (t.freeBox box) := by
  cases box with
  | none => exact h
  | some m => exact h.update rfl

theorem putEntry (h : s.Outward t) (e : List Byte) (irq : Bool) (box : Option Nat) : s.Outward (t.putEntry e irq box) := by
  unfold State.putEntry
  refine freeBox ?_ box
  split
  · exact raiseMsix (update (h.update rfl) rfl) _
  · exact update (h.update rfl) rfl

theorem pumpEvents (h : s.Outward t) (n : Nat) : s.Outward (t.pumpEvents n) := by
  induction n generalizing t with
  | zero => exact h
  | succ n ih =>
    unfold State.pumpEvents
    split
    · split
      · exact h
      · exact ih (putEntry (h.update rfl) _ _ _)
    · exact h

theorem pump (h : s.Outward t) : s.Outward t.pump := h.pumpEvents _

theorem post (h : s.Outward t) (code : Nat) (payload : List Byte) : s.Outward (t.post code payload) := by
  unfold State.post
  dsimp only
  split
  · exact emitH (h.update rfl) _
  · split
    · exact update (h.update rfl) rfl
    · exact pump (update (h.update rfl) rfl)

/-! ### Packets on the ports -/

theorem modPort (h : s.Outward t) (n : Nat) (f : Port → Port) : s.Outward (t.modPort n f) := h.update rfl

theorem linkOut (h : s.Outward t) (n : Nat) (ps : List (List Byte)) : s.Outward (t.linkOut n ps) := update (h.modPort _ _) rfl

theorem sendPackets (h : s.Outward t) (port : Option Nat) (v3 : Bool) (arrival : Option Nat) (ps : List (List Byte)) :
    s.Outward (t.sendPackets port v3 arrival ps) := by
  unfold State.sendPackets
  split
  · exact h.emit _
  · split
    · exact h.modPort _ _
    · exact h.linkOut _ _

theorem flushPort (h : s.Outward t) (n : Nat) : s.Outward (t.flushPort n) := by
  unfold State.flushPort
  dsimp only
  split
  · exact h
  · exact linkOut (h.modPort _ _) _ _

theorem sendAck (h : s.Outward t) (dst opId index outcome : Nat) (expected computed : Word) :
    s.Outward (t.sendAck dst opId index outcome expected computed) := by
  unfold State.sendAck
  split
  · exact h.sendPackets _ _ _ _
  · exact h

theorem sendControl (h : s.Outward t) (ports : List Nat) (kind : Nat) (ctl : Ctl) (payload : List Byte) :
    s.Outward (t.sendControl ports kind ctl payload) := h.foldl (fun t _ => (refl t).sendPackets _ _ _ _) ports

theorem flood (h : s.Outward t) (kind : Nat) (payload : List Byte) : s.Outward (t.flood kind payload) := by
  unfold State.flood
  dsimp only
  refine update (h.sendControl _ _ _ _) ?_
  simp only [Fabric.remember_rxBuf]

theorem notice (h : s.Outward t) (n : Nat) : s.Outward (t.notice n) := by
  unfold State.notice
  dsimp only
  split
  · exact h
  · refine flood (h.update ?_) _ _
    exact Fabric.setLink_rxBuf _ _ _ _

end State.Outward

end Sys2Proof.Machine
end

section
/-! SUPPORT. Bring-up (O55): sums of distinct powers of two, powering domains, training records, and the stages of Instar. -/

namespace Sys2Proof.Machine

/-! ### Numbers made of bits -/

/-- The number whose bits below `n` are those that `f` names. -/
theorem bitSum_spec (f : Nat → Bool) (n : Nat) :
    let sum := (((List.range n).filter f).map fun c => 2 ^ c).foldl (· + ·) 0
    sum < 2 ^ n ∧ ∀ c < n, sum.testBit c = f c := by
  induction n with
  | zero => simp
  | succ n ih =>
    obtain ⟨small, bits⟩ := ih
    simp only [List.range_succ, List.filter_append, List.map_append, List.foldl_append]
    by_cases hn : f n
    · simp only [List.filter_cons, hn, if_true, List.filter_nil, List.map_cons, List.map_nil, List.foldl_cons, List.foldl_nil]
      refine ⟨by rw [Nat.pow_succ]; omega, fun c hc => ?_⟩
      rw [Nat.add_comm]
      rcases Nat.lt_succ_iff_lt_or_eq.1 hc with hlt | rfl
      · rw [Nat.testBit_two_pow_add_gt hlt, bits c hlt]
      · rw [Nat.testBit_two_pow_add_eq, Nat.testBit_lt_two_pow small, hn]; rfl
    · have hf : f n = false := by simpa using hn
      simp only [List.filter_cons, hf, Bool.false_eq_true, if_false, List.filter_nil, List.map_nil, List.foldl_nil]
      refine ⟨Nat.lt_trans small (Nat.pow_lt_pow_right (by decide) n.lt_succ_self), fun c hc => ?_⟩
      rcases Nat.lt_succ_iff_lt_or_eq.1 hc with hlt | rfl
      · exact bits c hlt
      · rw [Nat.testBit_lt_two_pow small, hf]

/-- The four bits that `f` names, as Instar 3 forms the registers of the CXL ports. -/
def packed4 (f : Fin 4 → Bool) : BitVec 4 := BitVec.ofNat 4 (((List.finRange 4).map fun c => ofBool (f c) * 2 ^ c.val).foldl (· + ·) 0)

/-- Four values as a function of the place. -/
def fourBits (a b c d : Bool) : Fin 4 → Bool
  | 0 => a
  | 1 => b
  | 2 => c
  | 3 => d

theorem fourBits_self (f : Fin 4 → Bool) : fourBits (f 0) (f 1) (f 2) (f 3) = f := by
  funext i
  match i with
  | 0 => rfl
  | 1 => rfl
  | 2 => rfl
  | 3 => rfl

theorem packed4_getElem (f : Fin 4 → Bool) (c : Fin 4) : (packed4 f)[c] = f c := by
  have all : ∀ a b c d : Bool, ∀ i : Fin 4, (packed4 (fourBits a b c d))[i] = fourBits a b c d i := by decide
  rw [← fourBits_self f]
  exact all _ _ _ _ c

/-! ### Powering domains -/

/-- Powering domains changes their states and requests alone. -/
theorem Power.powerUp_eq (w : Power) (ds : List (Fin 148)) : ∃ domains reqs, w.powerUp ds = { w with domains, reqs } := by
  refine List.foldlRecOn (motive := fun v : Power => ∃ domains reqs, v = { w with domains, reqs }) ds _ ⟨_, _, rfl⟩ ?_
  rintro _ ⟨domains, reqs, rfl⟩ d -
  dsimp only
  split
  · exact ⟨domains, reqs, rfl⟩
  · exact ⟨_, _, rfl⟩

theorem Power.request_eq (w : Power) (d : Fin 148) (on : Bool) : ∃ domains reqs, w.request d on = { w with domains, reqs } := by
  unfold Power.request
  split
  · exact ⟨w.domains, w.reqs, rfl⟩
  · exact ⟨_, _, rfl⟩

/-- Asking for domains changes their states and requests alone. -/
theorem Power.ask_eq (w : Power) (ds : List (Fin 148)) : ∃ domains reqs, w.ask ds = { w with domains, reqs } := by
  refine List.foldlRecOn (motive := fun v : Power => ∃ domains reqs, v = { w with domains, reqs }) ds _ ⟨_, _, rfl⟩ ?_
  rintro _ ⟨domains, reqs, rfl⟩ d -
  obtain ⟨domains', reqs', h⟩ := Power.request_eq { w with domains, reqs } d true
  exact ⟨domains', reqs', h⟩

/-! ### Training records (R427, R428) -/

theorem State.newRecord_unit (s : State) (unit e : Nat) : (s.newRecord unit e).unit = unit := by
  unfold State.newRecord
  dsimp only
  split
  · rfl
  · split <;> rfl

theorem State.newRecord_format (s : State) (unit e : Nat) : (s.newRecord unit e).format = Config.recordFormat s.pow.fwBuild := by
  unfold State.newRecord
  dsimp only
  split
  · rfl
  · split <;> rfl

/-- The CRC that a new record bears is that of its own body. -/
theorem State.newRecord_crc (s : State) (unit e : Nat) : (s.newRecord unit e).crc = crc32c (recordBody (s.newRecord unit e)) := rfl

/-- Writing records changes flash's records and the count of undefined values alone. -/
theorem State.writeRecords_eq (s : State) (units failed : BitVec 37) : ∃ records, s.writeRecords units failed =
    { s with free := s.free + 1, pow := { s.pow with flash := { s.pow.flash with records } } } := ⟨_, rfl⟩

/-- The units whose records are written: those named that flash takes. -/
def recordUnits (units failed : BitVec 37) : List Nat := (List.range 37).filter fun u => bitAt units.toNat u && !bitAt failed.toNat u

theorem mem_recordUnits {units failed : BitVec 37} {u : Nat} :
    u ∈ recordUnits units failed ↔ u < 37 ∧ bitAt units.toNat u = true ∧ bitAt failed.toNat u = false := by
  simp [recordUnits]

/-- The records after a write: the old ones of the units not written, then the new ones. -/
theorem State.writeRecords_records (s : State) (units failed : BitVec 37) : (s.writeRecords units failed).pow.flash.records =
    (s.pow.flash.records.filter fun r => decide (r.unit ∉ recordUnits units failed)) ++
      (recordUnits units failed).map fun u => s.fresh.2.newRecord u s.free := by
  refine congrArg (· ++ _) (List.filter_congr fun r _ => ?_)
  have any_iff : (((recordUnits units failed).map fun u => s.fresh.2.newRecord u s.free).any fun t => t.unit == r.unit) = true ↔
      r.unit ∈ recordUnits units failed := by
    simp only [List.any_map, List.any_eq_true, Function.comp_apply, State.newRecord_unit, beq_iff_eq, exists_eq_right]
  rw [Bool.eq_iff_iff, decide_eq_true_iff, ← any_iff, Bool.not_eq_true', Bool.not_eq_true]
  rfl

/-- A record of a unit that is not written stays (R428). -/
theorem State.mem_writeRecords_of_not_written {s : State} {units failed : BitVec 37} {x : TrainRec} (hx : x ∈ s.pow.flash.records)
    (h : x.unit ∉ recordUnits units failed) : x ∈ (s.writeRecords units failed).pow.flash.records := by
  rw [s.writeRecords_records]
  exact List.mem_append_left _ (List.mem_filter.2 ⟨hx, decide_eq_true h⟩)

/-- A unit that is written has its new record and no other (R428). -/
theorem State.writeRecords_filter_unit (s : State) {units failed : BitVec 37} {u : Nat} (h : u ∈ recordUnits units failed) :
    ((s.writeRecords units failed).pow.flash.records.filter fun y => y.unit == u) = [s.fresh.2.newRecord u s.free] := by
  have once : (recordUnits units failed).filter (· == u) = [u] := by
    have nodup : (recordUnits units failed).Nodup := List.nodup_range.filter _
    rw [List.filter_beq, nodup.count, if_pos h]
    rfl
  have gone : ∀ y ∈ s.pow.flash.records.filter fun r => decide (r.unit ∉ recordUnits units failed), ¬ (y.unit == u) = true := by
    intro y hy hu
    exact of_decide_eq_true (List.mem_filter.1 hy).2 (beq_iff_eq.1 hu ▸ h)
  have unit_of : (fun y : TrainRec => y.unit == u) ∘ (fun x => s.fresh.2.newRecord x s.free) = (· == u) := by
    funext x
    simp [State.newRecord_unit]
  rw [s.writeRecords_records, List.filter_append, List.filter_eq_nil_iff.2 gone, List.filter_map, unit_of, once]
  rfl

/-! ### Stages of Instar -/

/-- R294: the channels that Instar 2 enables. -/
theorem execInstar2_runs {s : State} (trained full : BitVec 24) (boot : s.pow.boot = .instar2) :
    ∃ w : Power, w.boot = .instar3 ∧ exec (.instar2 trained full) s = .next { s with
      pow := w, mem := { s.mem with gddr := .zeroed 8, gddrBad := [], gddrSoft := [],
                                    channels := trained &&& BitVec.ofNat 24 ((((List.range 24).filter fun c =>
                                      s.pow.domainOk (dom (120 + c))).map fun c => 2 ^ c).foldl (· + ·) 0)
                                        &&& ~~~s.pow.flash.healthChannels } } :=
  ⟨_, rfl, if_neg (not_not_intro boot)⟩

/-- Bit `c` of MEM_G7_MAP as Instar 2 leaves it. -/
theorem bitAt_enabledChannels (trained health : BitVec 24) (ok : Nat → Bool) {c : Nat} (hc : c < 24) :
    bitAt (trained &&& BitVec.ofNat 24 ((((List.range 24).filter ok).map fun c => 2 ^ c).foldl (· + ·) 0) &&& ~~~health).toNat c = true ↔
      bitAt trained.toNat c = true ∧ bitAt health.toNat c = false ∧ ok c = true := by
  obtain ⟨-, bits⟩ := bitSum_spec ok 24
  simp only [bitAt_eq_testBit, BitVec.testBit_toNat, BitVec.getLsbD_and, BitVec.getLsbD_not, BitVec.getLsbD_ofNat, bits c hc,
    hc, decide_true, Bool.true_and, Bool.and_eq_true, Bool.not_eq_true']
  exact ⟨fun ⟨⟨train, powered⟩, kept⟩ => ⟨train, kept, powered⟩, fun ⟨train, kept, powered⟩ => ⟨⟨train, powered⟩, kept⟩⟩

/-- A memory of zeros reads as zero. -/
theorem Mem.get_zeroed (w a : Nat) : (Mem.zeroed w).get a = 0 := rfl

/-- Ports whose enable bit Instar 3 sets (R15, R427). -/
def State.enablePorts (s : State) (xs : List (Fin 8)) : State :=
  xs.foldl (fun (s : State) n => s.modPort n.val fun q => { q with enable := true }) s

theorem State.port_modPort (s : State) (m n : Fin 8) (f : Port → Port) :
    (s.modPort m.val f).port n.val = if m = n then f (s.port n.val) else s.port n.val := by
  simp only [State.port, State.modPort]
  by_cases h : m = n
  · subst h
    simp
  · simp [h, Fin.val_ne_of_ne h]

/-- Setting the enable bits of some ports changes nothing else of the ports, the host side, the memories and the cores. -/
theorem State.enablePorts_spec (xs : List (Fin 8)) (s : State) :
    (s.enablePorts xs).host = s.host ∧ (s.enablePorts xs).mem = s.mem ∧ (s.enablePorts xs).cores = s.cores ∧
      ∀ n : Fin 8, (s.enablePorts xs).port n.val = { s.port n.val with enable := (s.port n.val).enable || decide (n ∈ xs) } := by
  induction xs generalizing s with
  | nil => simp [State.enablePorts]
  | cons m xs ih =>
    obtain ⟨host, mem, cores, ports⟩ := ih (s.modPort m.val fun q => { q with enable := true })
    refine ⟨host, mem, cores, fun n => (ports n).trans ?_⟩
    rw [State.port_modPort]
    by_cases hm : m = n
    · simp [hm]
    · simp [hm, Ne.symm hm]

theorem State.enablePorts_enable (xs : List (Fin 8)) (s : State) (n : Fin 8) :
    ((s.enablePorts xs).port n.val).enable = true ↔ (s.port n.val).enable = true ∨ n ∈ xs := by
  obtain ⟨-, -, -, ports⟩ := s.enablePorts_spec xs
  simp [ports n]

/-- A CXL link that Instar 3 brings up: trained, with light, with the expander that R296 asks for, and powered. -/
def Power.cxlLinked (w : Power) (links : LinkTraining) (c : Fin 4) : Bool :=
  links.cxl[c].up && w.linkLit (.cxl c) && links.cxl[c].expanderOk && w.domainOk (dom (144 + c.val))

/-- The state of Instar 3 once the PCIe link and the CXL ports have trained. -/
def State.linksTrained (s : State) (links : LinkTraining) : State :=
  { s with
    host := { s.host with pcieUp := links.pcieUp && s.pow.linkLit .host }
    mem := { s.mem with
      screeLinked := packed4 (s.pow.cxlLinked links), screeOut := packed4 fun c => !s.pow.cxlLinked links c,
      screeX4 := packed4 fun c => s.pow.cxlLinked links c && links.cxl[c].x4,
      screeGt16 := packed4 fun c => s.pow.cxlLinked links c && links.cxl[c].gt16, screeDown := 0 } }

/-- The ports that a topology uses (R310). -/
def State.usedPorts (s : State) (topo : Word) : List (Fin 8) :=
  (List.finRange 8).filter fun n => ({ s.fab with topo } : Fabric).usesPort n.val

/-- The state of Instar 3 once the fabric ports in use have trained. -/
def State.portsTrained (s : State) (links : LinkTraining) : State :=
  (s.usedPorts (s.pow.flash.topology.getD (0, 0)).1).foldl (fun (s' : State) n => s'.trainPort n.val
    (if s.pow.domainOk (dom (112 + n.val)) then links.fabric[n] else { links.fabric[n] with groups := 0 })) (s.linksTrained links)

/-- A port that came up as its verified record says (R427). -/
def State.portRecorded (s u : State) (links : LinkTraining) (n : Fin 8) : Bool :=
  !links.fabric[n].full && (s.pow.recordOf (29 + n.val)).any fun r => r.width == 4 * (4 - (u.port n.val).width.toNat)

/-- The ports that Instar 3 enables: in use, up, and as recorded. -/
def State.readyPorts (s : State) (links : LinkTraining) : List (Fin 8) :=
  (s.usedPorts (s.pow.flash.topology.getD (0, 0)).1).filter fun n =>
    ((s.portsTrained links).port n.val).state == .up && s.portRecorded (s.portsTrained links) links n

theorem State.mem_readyPorts {s : State} {links : LinkTraining} {n : Fin 8} : n ∈ s.readyPorts links ↔
    n ∈ s.usedPorts (s.pow.flash.topology.getD (0, 0)).1 ∧ ((s.portsTrained links).port n.val).state = .up ∧
      links.fabric[n].full = false ∧
        ∃ r, s.pow.recordOf (29 + n.val) = some r ∧ r.width = 4 * (4 - ((s.portsTrained links).port n.val).width.toNat) := by
  simp [State.readyPorts, State.portRecorded, Option.any_eq_true]

theorem State.recordTopo_eq (s : State) : s.recordTopo = (s.pow.flash.topology.getD (0, 0)).1 := by
  unfold State.recordTopo
  cases s.pow.flash.topology <;> rfl

/-- Instar 3 trains the links, then the ports, then enables the ports in use that came up as recorded. -/
theorem execInstar3_runs {s : State} (links : LinkTraining) (boot : s.pow.boot = .instar3) :
    ∃ w : Power, w.boot = .instar4 ∧
      exec (.instar3 links) s = .next { (s.portsTrained links).enablePorts (s.readyPorts links) with pow := w } := by
  rw [State.readyPorts, State.portsTrained, ← s.recordTopo_eq]
  exact ⟨_, rfl, if_neg (not_not_intro boot)⟩

/-- Instar 4 up to the field tests: it enters Imago, writes the records of the units trained in full, and reports over its links. -/
theorem execInstar4_runs {s : State} (r : BringUpEnd) (boot : s.pow.boot = .instar4) :
    ∃ v u : State, exec (.instar4 r) s = .next u.startTests ∧ (v.writeRecords s.pow.trained r.failed).Outward u ∧
      v.pow.boot = .imago ∧ v.pow.fallback = none ∧ v.pow.fwBuild = s.pow.fwBuild ∧
      v.pow.flash = { s.pow.flash with trial := false } := by
  obtain ⟨domains, reqs, powered⟩ := s.pow.powerUp_eq s.coreDomains
  have runs : exec (.instar4 r) s = .next _ := if_neg (not_not_intro boot)
  rw [powered] at runs
  refine ⟨?entered, _, runs, ?out, ?kept⟩
  case out =>
    refine State.Outward.foldl ?_ (fun t n => (State.Outward.refl t).notice n) _
    split
    · refine State.Outward.post ?_ _ _
      refine State.Outward.post ?_ _ _
      exact State.Outward.refl _
    · refine State.Outward.post ?_ _ _
      exact State.Outward.refl _
  case kept => exact ⟨rfl, rfl, rfl, rfl⟩

end Sys2Proof.Machine

open Sys2Proof Sys2Proof.Machine

/-- Settles O55: Instar 0 to 4 in turn, and the bring-up watchdog. -/
theorem bringUpRuns : Obligations.BringUpRuns := by
  intro s
  refine ⟨fun boot => ?instar0, fun boot => ⟨fun none => ?recovery, fun b found => ?instar1⟩, fun trained full boot => ?instar2,
    fun links boot => ?instar3, fun r boot => ?instar4, fun trial alive notImago notRecovery => ?watchdog⟩
  case instar0 =>
    refine ⟨_, if_neg (not_not_intro boot), rfl, fun p => ?_⟩
    simp [State.core]
  case recovery =>
    simp [execInstar1, boot, none]
  case instar1 =>
    obtain ⟨domains, reqs, asked⟩ := s.pow.ask_eq ((List.range 24).map fun c => dom (120 + c))
    have runs : exec .instar1 s = _ := if_neg (not_not_intro boot)
    rw [found, asked] at runs
    exact ⟨_, runs, rfl, rfl, by simpa using List.find?_some found, rfl, rfl, rfl, rfl⟩
  case instar2 =>
    obtain ⟨w, next, runs⟩ := execInstar2_runs trained full boot
    exact ⟨_, runs, next, fun c hc => bitAt_enabledChannels trained s.pow.flash.healthChannels (fun c => s.pow.domainOk (dom (120 + c))) hc,
      Mem.get_zeroed 8, rfl, rfl⟩
  case instar3 =>
    obtain ⟨w, next, runs⟩ := execInstar3_runs links boot
    refine ⟨_, _, _, _, fun c => ⟨packed4_getElem _ c, packed4_getElem _ c, packed4_getElem _ c, packed4_getElem _ c⟩, _, runs, next, ?_⟩
    obtain ⟨host, mem, cores, ports⟩ := State.enablePorts_spec (s.readyPorts links) (s.portsTrained links)
    refine ⟨host, mem, cores, fun n => ⟨congrArg (·.state) (ports n), congrArg (·.width) (ports n), congrArg (·.v3) (ports n), ?_⟩⟩
    exact (State.enablePorts_enable _ _ n).trans (or_congr_right State.mem_readyPorts)
  case instar4 =>
    obtain ⟨v, u, runs, out, imago, fallback, build, flash⟩ := execInstar4_runs r boot
    have records : u.pow.flash.records = (v.writeRecords s.pow.trained r.failed).pow.flash.records := congrArg (·.flash.records) out.pow
    have old : v.pow.flash.records = s.pow.flash.records := congrArg (·.records) flash
    refine ⟨u, runs, (congrArg (·.boot) out.pow).trans imago, ?_, (congrArg (·.fallback) out.pow).trans fallback, fun x hx kept => ?_,
      fun unit small written taken => ?_⟩
    · exact (congrArg (·.flash.trial) out.pow).trans (congrArg (·.trial) flash)
    · rw [records]
      refine State.mem_writeRecords_of_not_written (old ▸ hx) fun h => ?_
      obtain ⟨-, written, taken⟩ := mem_recordUnits.1 h
      simp [written, taken] at kept
    · rw [records, State.writeRecords_filter_unit v (mem_recordUnits.2 ⟨small, written, taken⟩)]
      refine ⟨_, rfl, State.newRecord_crc _ _ _, ?_⟩
      rw [State.newRecord_format, ← build]
      rfl
  case watchdog =>
    refine ⟨({ s with pow := { s.pow with fallback := some (ofBool s.pow.runningB, 2, ofBool (!s.pow.runningB)) } } : State).warmReset,
      ?_, rfl, rfl⟩
    simp [execBringUpWatchdog, trial, alive, notImago, notRecovery]
end

section
/-! SUPPORT. What a clock period of one core changes outside it: nothing but the witness units that its feeds reach, the corrected errors that its
bucket counts, and the trace region (R12, R196, R273, R286). -/

namespace Sys2Proof.Machine

/-- `t` differs from `s` outside core `p` in what `State.OnlyCore` allows, and neither in the job nor in the queue. -/
structure State.StaysIn (p : Fin 20) (s t : State) : Prop extends State.OnlyCore p s t where
  sameJob : t.job = s.job
  queue : t.pending = s.pending

theorem State.StaysIn.refl (p : Fin 20) (s : State) : s.StaysIn p s := ⟨.refl p s, rfl, rfl⟩

/-- What a core's running instructions do stays in the core. -/
theorem State.staysIn_closed (p : Fin 20) (s : State) : CoreClosed p (s.StaysIn p) where
  core h sound := ⟨(State.onlyCore_closed p s).core h.toOnlyCore sound, h.sameJob, h.queue⟩
  fresh h := ⟨(State.onlyCore_closed p s).fresh h.toOnlyCore, h.sameJob, h.queue⟩
  charge h := ⟨(State.onlyCore_closed p s).charge h.toOnlyCore, h.sameJob, h.queue⟩
  unit h := ⟨(State.onlyCore_closed p s).unit h.toOnlyCore, h.sameJob, h.queue⟩

section
variable {p : Fin 20} {P : State → Prop} (hc : CoreClosed p P)
include hc

theorem State.advanceWaiting_closed {s : State} {t : Nat} (hs : P s) : P (s.advanceWaiting p t) := State.advanceFor_closed hc hs

theorem State.period_closed {s : State} (hs : P s) : P (s.period p) := by
  unfold State.period
  dsimp only
  repeat' refine closed_ite ?_ ?_
  · exact hc.core hs fun _ h => h
  · exact State.freezeFor_closed hc hs
  · exact State.freezeFor_closed hc hs
  · exact State.freezeFor_closed hc hs
  · exact State.passTo_closed hc hs

theorem State.idleScrub_closed {s : State} {clk : Nat} (hs : P s) : P (s.idleScrub p clk) := by
  refine closed_foldlS _ hs fun s col hs => ?_
  split
  · split
    · exact hs
    · split
      · exact hc.charge (hc.core (State.modV_closed hc hs fun _ h => h) fun _ h => h)
      · exact closed_ite (hc.core hs fun _ h => Core.raise_sound h) hs
  · exact hs

end

/-! ### Memories -/

/-- `t` differs from `s` at most in the memories and in the Cairn counts. -/
def State.OnlyMem (s t : State) : Prop := ∃ mem chk, t = { s with mem, chk }

namespace State.OnlyMem

variable {s t u : State}

theorem refl (s : State) : s.OnlyMem s := ⟨s.mem, s.chk, rfl⟩

theorem trans (h : s.OnlyMem t) (k : t.OnlyMem u) : s.OnlyMem u := by
  obtain ⟨_, _, rfl⟩ := h
  obtain ⟨mem, chk, rfl⟩ := k
  exact ⟨mem, chk, rfl⟩

theorem foldl (h : s.OnlyMem t) {α : Type} {f : State → α → State} (step : ∀ (t : State) x, t.OnlyMem (f t x)) (xs : List α) :
    s.OnlyMem (xs.foldl f t) := closed_foldlS xs h fun t x ht => ht.trans (step t x)

theorem setMem (h : s.OnlyMem t) (mem : MemSys) : s.OnlyMem { t with mem } := h.trans ⟨mem, t.chk, rfl⟩

theorem modMem (h : s.OnlyMem t) (f : MemSys → MemSys) : s.OnlyMem (t.modMem f) := h.setMem _

theorem charge (h : s.OnlyMem t) (b d1 d2 d3 : Nat) : s.OnlyMem (t.charge b d1 d2 d3) := h.trans ⟨t.mem, _, rfl⟩

theorem countUnc (h : s.OnlyMem t) (a : Nat) : s.OnlyMem (t.countUnc a) := by
  unfold State.countUnc
  split
  · exact (h.modMem _).charge _ _ _ _
  · exact h.charge _ _ _ _
  · exact h.modMem _
  · exact h

theorem correctDev (h : s.OnlyMem t) (units : List Nat) : s.OnlyMem (t.correctDev units) := by
  refine h.foldl (fun t a => ?_) units
  split
  · exact ((refl t).modMem _).charge _ _ _ _
  · exact ((refl t).modMem _).charge _ _ _ _
  · exact refl t

theorem soften (h : s.OnlyMem t) (units : List Nat) : s.OnlyMem (t.soften units) := by
  refine h.foldl (fun t a => ?_) units
  dsimp only
  split
  · exact (refl t).modMem _
  · exact (refl t).modMem _
  · exact refl t

theorem meetDev (h : s.OnlyMem t) (write : Bool) (a n : Nat) : s.OnlyMem (t.meetDev write a n) := by
  refine h.foldl (fun t r => ?_) (pageRuns a n)
  dsimp only
  split
  · exact closed_ite (refl t) (((refl t).modMem _).correctDev _)
  · exact closed_ite (refl t) (((refl t).modMem _).correctDev _)
  · exact refl t

theorem spoil (h : s.OnlyMem t) (a : Nat) : s.OnlyMem (t.spoil a) := by
  unfold State.spoil
  dsimp only
  split
  · exact h.modMem _
  · exact h.modMem _
  · exact h.modMem _
  · exact h

theorem readMem (h : s.OnlyMem t) (a n : Nat) : s.OnlyMem (t.readMem a n).1 := by
  unfold State.readMem
  dsimp only
  split
  · exact (h.meetDev _ _ _).countUnc _
  · exact h.meetDev _ _ _

theorem writeMem (h : s.OnlyMem t) (a : Nat) (bs : List Byte) : s.OnlyMem (t.writeMem a bs).1 := by
  unfold State.writeMem
  dsimp only
  split
  · exact ((h.meetDev _ _ _).setMem _).countUnc _
  · exact (h.meetDev _ _ _).setMem _

theorem writeTrace (h : s.OnlyMem t) (p : Fin 20) : s.OnlyMem (t.writeTrace p) := by
  unfold State.writeTrace
  exact closed_ite h (h.writeMem _ _)

theorem memoryUpsets (h : s.OnlyMem t) (n : Nat) : s.OnlyMem (t.memoryUpsets n) :=
  ((h.foldl (fun t a => (refl t).spoil a) _).soften _).foldl (fun t a => (refl t).readMem a 8) _

theorem tlbRange (h : s.OnlyMem t) (a n : Nat) : s.OnlyMem (t.tlbRange a n) := by
  refine h.foldl (fun t r => closed_ite ?_ (refl t)) (pageRuns a n)
  unfold State.tlbLook
  exact closed_ite (refl t) ((refl t).modMem _)

end State.OnlyMem

/-! ### Blocks that wait in the receive buffers (R326) -/

/-- `t` stands in the same clock period as `s`, with the same commands waiting. -/
structure State.SamePeriod (s t : State) : Prop where
  ticks : t.ticks = s.ticks
  pending : t.pending = s.pending

theorem State.OnlyMem.samePeriod {s t : State} (h : s.OnlyMem t) : s.SamePeriod t := by
  obtain ⟨_, _, rfl⟩ := h
  exact ⟨rfl, rfl⟩

theorem State.Outward.samePeriod {s t : State} (h : s.Outward t) : s.SamePeriod t := ⟨h.ticks, h.pending⟩

namespace State.SamePeriod

variable {s t u : State}

theorem refl (s : State) : s.SamePeriod s := ⟨rfl, rfl⟩

theorem trans (h : s.SamePeriod t) (k : t.SamePeriod u) : s.SamePeriod u := ⟨k.ticks.trans h.ticks, k.pending.trans h.pending⟩

theorem closed (p : Fin 20) (s : State) : CoreClosed p s.SamePeriod where
  core h _ := ⟨h.ticks, h.pending⟩
  fresh h := ⟨h.ticks, h.pending⟩
  charge h := ⟨h.ticks, h.pending⟩
  unit h := ⟨h.ticks, h.pending⟩

theorem regionMeet (h : s.SamePeriod t) (p : Fin 20) (rid : Nat) (off : Int) (n : Nat) (write done : Bool) :
    s.SamePeriod (t.regionMeet p rid off n write done) := by
  unfold State.regionMeet
  refine closed_ite (State.correct_closed (closed p s) h) (h.trans (State.OnlyMem.samePeriod (State.OnlyMem.meetDev ?_ _ _ _)))
  exact closed_ite (.refl t) ((OnlyMem.refl t).tlbRange _ _)

theorem countRead (h : s.SamePeriod t) (p : Fin 20) (tile : Bool) (a : Nat) : s.SamePeriod (t.countRead p tile a) := by
  unfold State.countRead
  refine closed_ite ⟨h.ticks, h.pending⟩ (h.trans (OnlyMem.samePeriod ((OnlyMem.refl t).countUnc a)))

theorem regionGet (h : s.SamePeriod t) (p : Fin 20) (num rid : Nat) (off : Int) (n : Nat) (done : Bool) :
    s.SamePeriod (t.regionGet p num rid off n done).1 := by
  unfold State.regionGet
  split
  · exact h.regionMeet _ _ _ _ _ _
  · exact closed_ite ((h.regionMeet _ _ _ _ _ _).countRead _ _ _) h
  · exact h

theorem regionWrite (h : s.SamePeriod t) (p : Fin 20) (num rid : Nat) (off : Int) (bs : List Byte) :
    s.SamePeriod (t.regionWrite p num rid off bs).1 := by
  unfold State.regionWrite
  dsimp only
  repeat' split
  all_goals exact ⟨h.ticks, h.pending⟩

theorem regionPut (h : s.SamePeriod t) (p : Fin 20) (num rid : Nat) (off : Int) (bs : List Byte) (done : Bool) :
    s.SamePeriod (t.regionPut p num rid off bs done).1 := by
  have written := (h.regionMeet p rid off bs.length true done).regionWrite p num rid off bs
  unfold State.regionPut
  split
  · exact written
  · exact closed_ite (written.countRead _ _ _) h
  · exact h

theorem post (h : s.SamePeriod t) (code : Nat) (payload : List Byte) : s.SamePeriod (t.post code payload) :=
  h.trans ((Outward.refl t).post code payload).samePeriod

theorem sendAck (h : s.SamePeriod t) (dst opId index outcome : Nat) (expected computed : Word) :
    s.SamePeriod (t.sendAck dst opId index outcome expected computed) :=
  h.trans ((Outward.refl t).sendAck dst opId index outcome expected computed).samePeriod

theorem failSet (h : s.SamePeriod t) (reason : Nat) : s.SamePeriod (t.failSet reason) := by
  unfold State.failSet
  dsimp only
  refine closed_ite (post ?_ _ _) h
  exact ⟨h.ticks, h.pending⟩

theorem lateWrite (h : s.SamePeriod t) (tag a : Nat) : s.SamePeriod (t.lateWrite tag a) := by
  unfold State.lateWrite
  exact closed_ite (h.failSet 2) h

theorem addTokenV (h : s.SamePeriod t) (num ctr inc : Nat) : s.SamePeriod (t.addTokenV num ctr inc) := by
  unfold State.addTokenV
  refine closed_ite h ?_
  split
  · exact ⟨h.ticks, h.pending⟩
  · exact ⟨h.ticks, h.pending⟩

theorem modRx (h : s.SamePeriod t) (origin : BitVec 15) (opId : Nat) (f : RxOp → RxOp) : s.SamePeriod (t.modRx origin opId f) :=
  ⟨h.ticks, h.pending⟩

theorem keepRx (h : s.SamePeriod t) (held : HeldRx) (first : Bool) : s.SamePeriod (t.keepRx held first) := by
  unfold State.keepRx
  exact closed_ite h (closed_ite ⟨h.ticks, h.pending⟩ ⟨h.ticks, h.pending⟩)

/-- The state of an answer that is known. -/
theorem of_fst {α : Type} {x : State × α} {a : α} (e : x = (u, a)) (h : s.SamePeriod x.1) : s.SamePeriod u := by
  subst e
  exact h

theorem receiveBlock (h : s.SamePeriod t) (params : List Byte) (index : Nat) (b : Block) : s.SamePeriod (t.receiveBlock params index b).1 := by
  have got := h.regionGet ((t.findV (natAt params 2 2)).getD 0) (natAt params 2 2) (locOf params 12).1
    ((locOf params 12).2 + 64 * index : Nat) 64 false
  unfold State.receiveBlock
  dsimp only
  split
  · exact h
  split
  · exact h
  split
  · exact h
  split
  next u raw read =>
    have hu : s.SamePeriod u := of_fst read got
    split
    · exact hu
    split
    · exact hu
    split
    · exact hu
    split
    · exact hu
    split
    · exact hu
    refine List.foldlRecOn (motive := fun x : State × Bool => s.SamePeriod x.1) _ _ hu fun x hx w _ => ?_
    split
    · exact hx
    have written := hx.regionPut ((t.findV (natAt params 2 2)).getD 0) (natAt params 2 2) w.region w.off w.bytes false
    split
    next v _ put =>
      have hv : s.SamePeriod v := of_fst put written
      exact closed_ite hv (hv.lateWrite _ _)
    next v _ _ put => exact of_fst put written
  next u _ _ read => exact of_fst read got

theorem takeBlock (h : s.SamePeriod t) (held : HeldRx) (first : Bool) : s.SamePeriod (t.takeBlock held first) := by
  unfold State.takeBlock
  dsimp only
  split
  · exact h.sendAck _ _ _ _ _ _
  · refine closed_ite (h.sendAck _ _ _ _ _ _) ?_
    have got (params : List Byte) := h.receiveBlock params held.index.toNat (Block.ofBytes held.bytes)
    split
    next u guard received =>
      have hu : s.SamePeriod u := of_fst received (got _)
      exact closed_ite ((hu.modRx _ _ _).keepRx _ _) hu
    next u received => exact (of_fst received (got _)).sendAck _ _ _ _ _ _
    next u x y received => exact (of_fst received (got _)).sendAck _ _ _ _ _ _
    next u received =>
      have hu : s.SamePeriod u := of_fst received (got _)
      exact closed_ite (((hu.modRx _ _ _).sendAck _ _ _ _ _ _).addTokenV _ _ _) ((hu.modRx _ _ _).sendAck _ _ _ _ _ _)

theorem retryRx (h : s.SamePeriod t) : s.SamePeriod t.retryRx := by
  unfold State.retryRx
  refine closed_foldlS _ ⟨h.ticks, h.pending⟩ fun u held hu => ?_
  exact closed_ite (hu.takeBlock held false) ⟨hu.ticks, hu.pending⟩

end State.SamePeriod

/-! ### One clock period of the device -/

/-- `t` has the job, the power state, the clock period and the queue of `s`, and the same blocks wait in its receive buffers. -/
structure State.SameControl (s t : State) : Prop extends s.SamePeriod t where
  job : t.job = s.job
  pow : t.pow = s.pow
  rxBuf : t.fab.rxBuf = s.fab.rxBuf

theorem State.StaysIn.sameControl {p : Fin 20} {s t : State} (h : s.StaysIn p t) : s.SameControl t :=
  ⟨⟨h.ticks, h.queue⟩, h.sameJob, h.pow, congrArg (·.rxBuf) h.fab⟩

theorem State.OnlyMem.sameControl {s t : State} (h : s.OnlyMem t) : s.SameControl t := by
  obtain ⟨_, _, rfl⟩ := h
  exact ⟨⟨rfl, rfl⟩, rfl, rfl, rfl⟩

theorem State.OnlyMem.core {s t : State} (h : s.OnlyMem t) (p : Fin 20) : t.core p = s.core p := by
  obtain ⟨_, _, rfl⟩ := h
  rfl

theorem State.Outward.sameControl {s t : State} (h : s.Outward t) : s.SameControl t := ⟨h.samePeriod, h.job, h.pow, h.rxBuf⟩

namespace State.SameControl

variable {s t u : State}

theorem refl (s : State) : s.SameControl s := ⟨.refl s, rfl, rfl, rfl⟩

theorem trans (h : s.SameControl t) (k : t.SameControl u) : s.SameControl u :=
  ⟨h.toSamePeriod.trans k.toSamePeriod, k.job.trans h.job, k.pow.trans h.pow, k.rxBuf.trans h.rxBuf⟩

theorem foldl (h : s.SameControl t) {α : Type} {f : State → α → State} (step : ∀ (t : State) x, t.SameControl (f t x)) (xs : List α) :
    s.SameControl (xs.foldl f t) := closed_foldlS xs h fun t x ht => ht.trans (step t x)

theorem mapCores (h : s.SameControl t) (f : Core → Core) : s.SameControl (t.mapCores f) := ⟨⟨h.ticks, h.pending⟩, h.job, h.pow, h.rxBuf⟩

end State.SameControl

@[simp] theorem State.core_mapCores (s : State) (f : Core → Core) (p : Fin 20) : (s.mapCores f).core p = f (s.core p) := by
  simp [State.core, State.mapCores]

/-- What changes requests of tasks alone leaves a core without tasks as it is. -/
theorem Core.mapReqs_of_no_tasks {c : Core} (h : c.tasks = []) (f : Req → Req) : c.mapReqs f = c := by
  cases c
  subst h
  rfl

/-! #### One core -/

/-- What a core does in a clock period stays in the core, but for the trace region of the race audit (R196). -/
theorem State.tickCore_eq (s : State) (p : Fin 20) : ∃ t, s.StaysIn p t ∧ t.OnlyMem (s.tickCore p) := by
  have hc := State.staysIn_closed p s
  unfold State.tickCore
  split
  · have stays := State.idleScrub_closed hc (clk := ((s.advanceWaiting p (s.core p).cycle).core p).clk)
      (hc.core (f := fun c => c.upset p.val) (State.period_closed hc (State.advanceWaiting_closed hc (t := (s.core p).cycle) (.refl p s)))
        fun _ h => Core.upset_sound h)
    exact ⟨_, stays, closed_ite ((OnlyMem.refl _).writeTrace p) (.refl _)⟩
  · exact ⟨s, .refl p s, .refl s⟩

theorem State.tickCore_sameControl (s : State) (p : Fin 20) : s.SameControl (s.tickCore p) := by
  obtain ⟨t, stays, mem⟩ := s.tickCore_eq p
  exact stays.sameControl.trans mem.sameControl

theorem State.tickCore_core_ne (s : State) {p q : Fin 20} (h : q ≠ p) : (s.tickCore p).core q = s.core q := by
  obtain ⟨t, stays, mem⟩ := s.tickCore_eq p
  exact (mem.core q).trans (stays.others q h)

/-- R223: a core without a clock stays. -/
theorem State.tickCore_of_not_clocked {s : State} {p : Fin 20} (h : s.clocked p = false) : s.tickCore p = s := by
  simp [State.tickCore, h]

theorem State.setCore_self (s : State) (p : Fin 20) : s.setCore p (s.core p) = s := by
  simp [State.setCore, State.core]

/-- A core without running instructions stands in the cycle to which it is to go on. -/
theorem State.advanceWaiting_idle {s : State} {p : Fin 20} (h : (s.core p).runs = []) : s.advanceWaiting p (s.core p).cycle = s := by
  simp [State.advanceWaiting, State.advanceFor, Core.pieces, h, State.passTo, Core.advanceTo, Core.passCycles, State.modCore,
    State.setCore_self]

theorem State.idleScrub_vacant {s : State} {p : Fin 20} (h : (s.core p).v = none) (clk : Nat) : s.idleScrub p clk = s := by
  refine List.foldlRecOn (motive := fun t : State => t = s) _ _ rfl fun t ht col _ => ?_
  subst ht
  simp only [h]

/-- An empty clocked core counts the period and does nothing else (R12, R223). -/
theorem State.tickCore_core_vacant {s : State} {p : Fin 20} (clocked : s.clocked p = true) (vacant : (s.core p).v = none)
    (idle : (s.core p).runs = []) : (s.tickCore p).core p = { s.core p with clk := (s.core p).clk + 1 } := by
  have counted : (s.period p).core p = { s.core p with clk := (s.core p).clk + 1 } := by simp [State.period, vacant]
  have stays : ((s.period p).modCore p fun c => c.upset p.val).core p = { s.core p with clk := (s.core p).clk + 1 } := by
    rw [State.core_modCore, counted]
    simp [Core.upset, Core.modV, vacant]
  have scrub := State.idleScrub_vacant (s := (s.period p).modCore p fun c => c.upset p.val) (p := p) (by rw [stays]; exact vacant)
    (s.core p).clk
  simp only [State.tickCore, clocked, if_true, State.advanceWaiting_idle idle, scrub]
  split
  · rw [((OnlyMem.refl _).writeTrace p).core p, stays]
  · exact stays

/-- The state after the cores' clock periods. -/
def State.coresTicked (s : State) : State := coreNums.foldl (fun (s : State) p => s.tickCore p) s

/-- The cores' clock periods one after the other: core `p` has its own, from a state in which it, the job and the power state are as before. -/
theorem State.coresTicked_core (s : State) (p : Fin 20) : ∃ t : State, s.SameControl t ∧ t.core p = s.core p ∧
    s.coresTicked.core p = (t.tickCore p).core p := by
  obtain ⟨before, after, split⟩ := List.append_of_mem (List.mem_finRange p)
  have nodup : (before ++ p :: after).Nodup := split ▸ List.nodup_finRange 20
  obtain ⟨-, nodupAfter, apart⟩ := List.nodup_append.1 nodup
  have others (xs : List (Fin 20)) (hp : p ∉ xs) (t : State) : (xs.foldl (fun (s : State) q => s.tickCore q) t).core p = t.core p := by
    refine List.foldlRecOn (motive := fun u : State => u.core p = t.core p) xs _ rfl fun u hu q hq => ?_
    exact (u.tickCore_core_ne fun e : p = q => hp (e ▸ hq)).trans hu
  refine ⟨before.foldl (fun (s : State) q => s.tickCore q) s, (SameControl.refl s).foldl tickCore_sameControl before,
    others before (fun h => apart p h p (List.mem_cons_self) rfl) s, ?_⟩
  rw [State.coresTicked, coreNums, split, List.foldl_append, List.foldl_cons]
  exact others after (List.nodup_cons.1 nodupAfter).1 _

/-! #### What else the device does in a clock period -/

/-- `t` has the control of `s`, and each core without tasks is as it was. -/
structure State.SparesIdle (s t : State) : Prop extends s.SameControl t where
  core : ∀ p, (s.core p).tasks = [] → t.core p = s.core p

namespace State.SparesIdle

variable {s t u : State}

theorem of_cores (h : s.SameControl t) (cores : t.cores = s.cores) : s.SparesIdle t := ⟨h, fun p _ => core_of_cores cores p⟩

theorem refl (s : State) : s.SparesIdle s := of_cores (.refl s) rfl

theorem trans (h : s.SparesIdle t) (k : t.SparesIdle u) : s.SparesIdle u where
  toSameControl := h.toSameControl.trans k.toSameControl
  core p idle := by
    have kept := h.core p idle
    exact (k.core p (by rwa [kept])).trans kept

theorem foldl (h : s.SparesIdle t) {α : Type} {f : State → α → State} (step : ∀ (t : State) x, t.SparesIdle (f t x)) (xs : List α) :
    s.SparesIdle (xs.foldl f t) := closed_foldlS xs h fun t x ht => ht.trans (step t x)

theorem mapCores (f : Core → Core) (spares : ∀ c : Core, c.tasks = [] → f c = c) : s.SparesIdle (s.mapCores f) :=
  ⟨(SameControl.refl s).mapCores f, fun p idle => (s.core_mapCores f p).trans (spares _ idle)⟩

theorem turnarounds (h : s.SparesIdle t) (n : Nat) : s.SparesIdle (t.turnarounds n) :=
  h.foldl (fun t _ => closed_ite (mapCores _ fun _ idle => Core.mapReqs_of_no_tasks idle _) (refl t)) _

theorem memoryUpsets (h : s.SparesIdle t) (n : Nat) : s.SparesIdle (t.memoryUpsets n) :=
  have upset := (OnlyMem.refl t).memoryUpsets n
  h.trans ⟨upset.sameControl, fun p _ => upset.core p⟩

theorem creditTick (h : s.SparesIdle t) (n : Nat) : s.SparesIdle (t.creditTick n) := by
  have gone : t.Outward (t.creditTick n) := by
    unfold State.creditTick
    exact closed_ite (.refl t) (((Outward.refl t).modPort _ _).flushPort _)
  exact h.trans (of_cores gone.sameControl gone.cores)

theorem retryRx (h : s.SparesIdle t) (empty : t.fab.rxBuf = []) : s.SparesIdle t.retryRx := by
  have same : t.retryRx = { t with fab := { t.fab with rxBuf := [] } } := by simp [State.retryRx, empty]
  rw [same]
  exact h.trans (of_cores ⟨⟨rfl, rfl⟩, rfl, rfl, empty.symm⟩ rfl)

theorem releaseGuard (h : s.SparesIdle t) : s.SparesIdle t.releaseGuard :=
  h.trans (mapCores _ fun c idle => by cases c; subst idle; rfl)

theorem sampleMirror (h : s.SparesIdle t) : s.SparesIdle t.sampleMirror := h.trans (of_cores ⟨⟨rfl, rfl⟩, rfl, rfl, rfl⟩ rfl)

end State.SparesIdle

/-- What the device does in a clock period before blocks in the receive buffers are tried again: the cores, the memories, the ports. -/
def State.beforeRetry (s : State) : State :=
  (List.range 8).foldl (fun (s : State) n => s.creditTick n) ((s.coresTicked.memoryUpsets s.coresTicked.ticks).turnarounds s.coresTicked.ticks)

/-- What it does after that, but for counting the period. -/
def State.afterRetry (s : State) : State :=
  if s.releaseGuard.pow.boot = .imago ∧ s.releaseGuard.host.mirrorAt ≤ s.releaseGuard.ticks then s.releaseGuard.sampleMirror
  else s.releaseGuard

theorem State.tick_eq (s : State) :
    s.tick = { s.beforeRetry.retryRx.afterRetry with ticks := s.beforeRetry.retryRx.afterRetry.ticks + 1 } := by
  unfold State.tick State.afterRetry State.beforeRetry State.coresTicked
  rfl

theorem State.coresTicked_sameControl (s : State) : s.SameControl s.coresTicked :=
  (SameControl.refl s).foldl tickCore_sameControl coreNums

theorem State.beforeRetry_sparesIdle (s : State) : s.coresTicked.SparesIdle s.beforeRetry :=
  (((SparesIdle.refl _).memoryUpsets _).turnarounds _).foldl (fun t n => (SparesIdle.refl t).creditTick n) _

theorem State.afterRetry_sparesIdle (s : State) : s.SparesIdle s.afterRetry := by
  have released := (SparesIdle.refl s).releaseGuard
  exact closed_ite released.sampleMirror released

/-- A clock period is counted, and no command comes or goes in it. -/
theorem State.tick_period (s : State) : s.tick.ticks = s.ticks + 1 ∧ s.tick.pending = s.pending := by
  have before : s.SamePeriod s.beforeRetry := s.coresTicked_sameControl.toSamePeriod.trans s.beforeRetry_sparesIdle.toSamePeriod
  have after : s.beforeRetry.retryRx.SamePeriod s.beforeRetry.retryRx.afterRetry := (State.afterRetry_sparesIdle _).toSamePeriod
  have all := before.retryRx.trans after
  rw [State.tick_eq]
  generalize s.beforeRetry.retryRx.afterRetry = t at all ⊢
  exact ⟨congrArg (· + 1) all.ticks, all.pending⟩

/-- With no block in the receive buffers, only the clock periods of the cores themselves change the job, the power state or a core without
tasks. -/
theorem State.tick_sparesIdle {s : State} (empty : s.fab.rxBuf = []) :
    ∃ t, s.coresTicked.SparesIdle t ∧ s.tick = { t with ticks := t.ticks + 1 } := by
  have before := s.beforeRetry_sparesIdle
  have still : s.beforeRetry.fab.rxBuf = [] := by rw [before.rxBuf, s.coresTicked_sameControl.rxBuf, empty]
  exact ⟨_, (before.retryRx still).trans (State.afterRetry_sparesIdle _), s.tick_eq⟩

/-- Whether a core has a clock rests on the core, the job and the power state alone (R223). -/
theorem State.clocked_congr {s t : State} {p : Fin 20} (control : s.SameControl t) (core : t.core p = s.core p) : t.clocked p = s.clocked p := by
  simp only [State.clocked, control.job, control.pow, core]

/-- R223: a core without a clock stays while the others run. -/
theorem State.coresTicked_core_unclocked {s : State} {p : Fin 20} (stopped : s.clocked p = false) : s.coresTicked.core p = s.core p := by
  obtain ⟨t, control, same, own⟩ := s.coresTicked_core p
  have still : t.clocked p = false := (clocked_congr control same).trans stopped
  rw [own, State.tickCore_of_not_clocked still, same]

theorem State.coresTicked_core_vacant {s : State} {p : Fin 20} (clocked : s.clocked p = true) (vacant : (s.core p).v = none)
    (idle : (s.core p).runs = []) : s.coresTicked.core p = { s.core p with clk := (s.core p).clk + 1 } := by
  obtain ⟨t, control, same, own⟩ := s.coresTicked_core p
  have runs : t.clocked p = true := (clocked_congr control same).trans clocked
  rw [own, State.tickCore_core_vacant runs (by rw [same]; exact vacant) (by rw [same]; exact idle), same]

/-- On an empty queue an event of the block's own that is due is run. -/
theorem step_of_ownEvent {s : State} {i : Instr} (empty : s.pending = []) (due : s.ownEvent = some i) : step s = exec i s := by
  unfold step
  rw [empty, due]

/-- On an empty queue a clock period passes when no event is due. -/
theorem step_of_no_ownEvent {s : State} (empty : s.pending = []) (none : s.ownEvent = none) : step s = .next s.tick := by
  unfold step
  rw [empty, none]

/-- Settles O1: the queue's front command by the definition of a step; the clock period from what each of its parts keeps. -/
theorem stepRunsFront : Obligations.StepRunsFront := by
  refine ⟨fun c rest s => rfl, fun s empty => ⟨fun i due => step_of_ownEvent empty due, fun none => ?_⟩⟩
  obtain ⟨counted, queue⟩ := s.tick_period
  refine ⟨step_of_no_ownEvent empty none, counted, queue.trans empty, fun noRx => ?_⟩
  obtain ⟨t, spares, ticked⟩ := State.tick_sparesIdle noRx
  have control := s.coresTicked_sameControl.trans spares.toSameControl
  rw [ticked]
  refine ⟨control.job, control.pow, fun p noTasks => ⟨fun stopped => ?_, fun clocked vacant idle => ?_⟩⟩
  · have own := State.coresTicked_core_unclocked stopped
    exact (spares.core p (by rw [own]; exact noTasks)).trans own
  · have own := State.coresTicked_core_vacant clocked vacant idle
    exact (spares.core p (by rw [own]; exact noTasks)).trans own

end Sys2Proof.Machine
end

section
/-! SUPPORT. Firmware's answers to core faults by their class, and moves of virtual cores (O35). -/

namespace Sys2Proof.Machine

/-! ### Classes of core faults (Table 12.5) -/

theorem faultClass_eq_p {code : Nat} (h : code ∈ [1, 2, 3, 4, 5, 6, 8, 0xA, 0xC, 0xE]) (cause : Nat) : faultClass code cause = .p := by
  have others : code ≠ 7 ∧ code ≠ 9 ∧ code ≠ 0xB ∧ code ≠ 0xD := by
    simp only [List.mem_cons, List.not_mem_nil, or_false] at h
    omega
  simp [faultClass, others]

theorem faultClass_eq_j {code : Nat} (h : code = 9 ∨ code = 0xB) (cause : Nat) : faultClass code cause = .j := by
  rcases h with rfl | rfl <;> rfl

theorem abortClass_eq_j {cause : Nat} (h : cause = 4 ∨ cause = 7) : abortClass cause = .j := by
  rcases h with rfl | rfl <;> rfl

theorem abortClass_eq_p {cause : Nat} (h : cause ∉ [1, 4, 6, 7]) : abortClass cause = .p := by
  simp only [List.mem_cons, List.not_mem_nil, or_false, not_or] at h
  simp [abortClass, h]

/-- Fault 0x07 counts as a mismatch (Table 6.13). -/
theorem Core.faultCause_of_mismatch {c : Core} (h : c.current.code = 7) : c.faultCause = 1 := if_pos h

/-! ### The answer to a fault of each class (R351) -/

/-- The class of the fault that firmware acts on. -/
def Core.currentClass (c : Core) : ErrClass := faultClass c.current.code c.faultCause

/-- What the answer to a fault of any class begins with: every rank pauses, and the fault is charged to its bucket. -/
def State.faultCharged (s : State) (p : Fin 20) : State := (s.pauseAll 2).chargeFault p (s.core p).current.code

/-- The answer that ends in a rollback, as it is reported for a fault of class `k`. -/
def State.answerRollback (s : State) (p : Fin 20) (k : ErrClass) : State :=
  ((s.modCore p fun c => { c with answer := some 3 }).postFault p k 3).rollbackFault p

section
variable {s : State} {p : Fin 20}

/-- Class P: the fault is reported and the job stays paused. -/
theorem State.answerFault_class_p (h : (s.core p).currentClass = .p) (ended : Bool) :
    s.answerFault p ended = ((s.faultCharged p).modCore p fun c => { c with answer := some 4 }).postFault p .p 4 := by
  have h : faultClass (s.core p).current.code (s.core p).faultCause = .p := h
  simp only [State.answerFault, h, State.faultCharged]

/-- Class J: rollback, whatever the faults before it ended in. -/
theorem State.answerFault_class_j (h : (s.core p).currentClass = .j) (ended : Bool) :
    s.answerFault p ended = (s.faultCharged p).answerRollback p .j := by
  have h : faultClass (s.core p).current.code (s.core p).faultCause = .j := h
  simp only [State.answerFault, h, State.faultCharged, State.answerRollback]

/-- Class R behind a fault that ended in a rollback or left the job paused: rollback (log 45). -/
theorem State.answerFault_class_r_ended (h : (s.core p).currentClass = .r) :
    s.answerFault p true = (s.faultCharged p).answerRollback p .r := by
  have h : faultClass (s.core p).current.code (s.core p).faultCause = .r := h
  simp only [State.answerFault, h, State.faultCharged, State.answerRollback, if_true]

/-- Class R else: the task is resubmitted, unless it aborted on a link that is still down. -/
theorem State.answerFault_class_r (h : (s.core p).currentClass = .r) (go : (s.core p).faultCause ≠ 6 ∨ (s.faultCharged p).linksUp = true) :
    s.answerFault p false = (s.faultCharged p).tryAgain p (s.core p).faultCause := by
  have h : faultClass (s.core p).current.code (s.core p).faultCause = .r := h
  have ready : ¬ ((decide ((s.core p).faultCause = 6) && !(s.faultCharged p).linksUp) = true) := by
    rcases go with other | up
    · simp [other]
    · simp [up]
  simp only [State.answerFault, h]
  exact if_neg ready

/-- A resubmission for a link that is down waits for it. -/
theorem State.answerFault_link_down (h : (s.core p).currentClass = .r) (link : (s.core p).faultCause = 6)
    (down : (s.faultCharged p).linksUp = false) :
    s.answerFault p false = (s.faultCharged p).modCore p fun c => { c with answer := some 0 } := by
  have h : faultClass (s.core p).current.code (s.core p).faultCause = .r := h
  have waits : (decide ((s.core p).faultCause = 6) && !(s.faultCharged p).linksUp) = true := by simp [link, down]
  simp only [State.answerFault, h]
  exact if_pos waits

end

/-! ### Whose turn it is (R351) -/

section
variable {s : State} {p : Fin 20} (valid : (s.core p).faultValid = true) (noTest : (s.core p).test = none)
include valid noTest

theorem execFaultResubmission_first (h : (s.core p).answer = none) : execFaultResubmission p s = .next (s.answerFault p false) := by
  simp [execFaultResubmission, valid, noTest, h]

/-- While an answer is under way, and once no fault is left, nothing happens. -/
theorem execFaultResubmission_rests {a : Nat} (answered : (s.core p).answer = some a) (h : a < 2 ∨ (s.core p).later = []) :
    execFaultResubmission p s = .next s := by
  cases later : (s.core p).later with
  | nil => simp [execFaultResubmission, valid, noTest, answered, later]
  | cons f fs =>
    have underWay : a < 2 := h.resolve_right (by simp [later])
    simp [execFaultResubmission, valid, noTest, answered, later, underWay]

theorem execFaultResubmission_next {a : Nat} {f : FaultRec} {fs : List FaultRec} (answered : (s.core p).answer = some a) (done : 2 ≤ a)
    (later : (s.core p).later = f :: fs) : execFaultResubmission p s =
      .next ((s.modCore p fun c => { c with acted := some f, later := fs }).answerFault p (decide (2 < a))) := by
  simp [execFaultResubmission, valid, noTest, answered, later, Nat.not_lt.2 done]

end

/-! ### Moves (R199, R306, R347, R358) -/

/-- A move from the held MIGRATE point of `src` is due: it leaves service, or a field test waits for it and no arbitration comes first. -/
def State.moveDue (s : State) (src : Fin 20) : Prop :=
  (s.core src).leaving ≠ none ∨ (s.dueOn src ≠ none ∧ s.chk.arbs = [])

theorem State.moveDue_iff {s : State} {src : Fin 20} :
    ((s.core src).leaving.isSome || ((s.dueOn src).isSome && s.chk.arbs.isEmpty)) = true ↔ s.moveDue src := by
  simp [State.moveDue, Option.isSome_iff_ne_none]

section
variable {s : State} {src dst : Fin 20}

theorem execMoveToSpare_due (held : (s.core src).hold = .migrate) (noTest : (s.core src).test = none) (spare : (s.core dst).idleSpare = true)
    (due : s.moveDue src) : execMoveToSpare src dst s =
      .next (s.moveV src dst (if (s.core src).leaving.isSome then .out else .spare)).startTests := by
  simp [execMoveToSpare, held, noTest, spare, State.moveDue_iff.2 due]

theorem execMoveToSpare_not_due (h : ¬ s.moveDue src) : execMoveToSpare src dst s = .next s := by
  have waits := Bool.eq_false_iff.2 fun due => h (State.moveDue_iff.1 due)
  simp [execMoveToSpare, waits]

end

section
variable {s : State} {p : Fin 20} {reason : Nat} (leaving : (s.core p).leaving = some reason) (noTest : (s.core p).test = none)
include leaving noTest

theorem execQuarantine_vacant (vacant : (s.core p).v = none) (unsaved : (s.core p).saved = none) :
    execQuarantine p s = .next (s.takeOut p reason) := by
  simp [execQuarantine, leaving, noTest, vacant, unsaved]

theorem execQuarantine_moves {v : VCore} {d : Fin 20} (resident : (s.core p).v = some v) (held : (s.core p).hold = .migrate)
    (spare : s.idleSpare = some d) : execQuarantine p s = .next ((s.moveV p d .out).takeOut p reason) := by
  simp [execQuarantine, leaving, noTest, resident, held, spare]

end

/-- The virtual core `v` resident on the core rests at a held point or a boundary hold, or it has ended: its pair may be swapped. -/
def Core.mayBeSwapped (c : Core) (v : VCore) : Prop :=
  c.hold = .migrate ∨ c.hold = .boundary ∨ (v.liveStrands = [] ∧ c.hold = .none ∧ c.stopped = false)

theorem execOversubscriptionSwap_swaps {s s1 : State} {p : Fin 20} {v w : VCore} (resident : (s.core p).v = some v)
    (partner : (s.core p).partner = some w) (may : (s.core p).mayBeSwapped v) (noTest : (s.core p).test = none)
    (drained : s.quiesced p = some s1) : execOversubscriptionSwap p s =
      .next ((((s1.modCore p fun c => { (c.takeV w (w.restsIn .boundary)) with partner := c.v.map fun v => c.leaveV v }).postPlacement
        v.num p.val 0xFF (s.core p).migPoint.toNat v.stepTag.toNat).postPlacement
        w.num 0xFF p.val (s.core p).migPoint.toNat w.stepTag.toNat).applyHeld p) := by
  rcases may with held | atBoundary | ⟨ended, free, runs⟩
  · simp [execOversubscriptionSwap, resident, partner, noTest, drained, held]
  · simp [execOversubscriptionSwap, resident, partner, noTest, drained, atBoundary]
  · simp [execOversubscriptionSwap, resident, partner, noTest, drained, ended, free, runs]

end Sys2Proof.Machine

open Sys2Proof Sys2Proof.Machine

/-- Settles O35: whose turn it is, then the answer by the class of the fault; a move, a core that leaves service and a swap from their guards. -/
theorem faultsAndMoves : Obligations.FaultsAndMoves := by
  refine ⟨fun s p => ⟨fun valid noTest => ?turns, ?answers, rfl⟩, fun s p => ⟨fun d held noTest spare => ?moves, fun reason leaving => ?leaves,
    fun v w s1 resident partner may noTest drained => execOversubscriptionSwap_swaps resident partner may noTest drained⟩⟩
  case turns =>
    exact ⟨execFaultResubmission_first valid noTest, fun a answered => ⟨execFaultResubmission_rests valid noTest answered,
      fun f fs done later => execFaultResubmission_next valid noTest answered done later⟩⟩
  case answers =>
    refine ⟨fun code => State.answerFault_class_p (faultClass_eq_p code _), fun code => State.answerFault_class_j (faultClass_eq_j code _),
      fun code => ?mismatch, fun code => ?aborted⟩
    case mismatch =>
      have cause := Core.faultCause_of_mismatch code
      have retry : (s.core p).currentClass = .r := by rw [Core.currentClass, code]; rfl
      refine ⟨?_, State.answerFault_class_r_ended retry⟩
      rw [State.answerFault_class_r retry (.inl (by simp [cause])), cause]
      rfl
    case aborted =>
      have byCause : (s.core p).currentClass = abortClass (s.core p).faultCause := by rw [Core.currentClass, code]; rfl
      refine ⟨fun cause => ?_, fun cause => ?_, fun cause => State.answerFault_class_j (byCause.trans (abortClass_eq_j cause)),
        fun cause => State.answerFault_class_p (byCause.trans (abortClass_eq_p cause))⟩
      · have retry : (s.core p).currentClass = .r := by rw [byCause, cause]; rfl
        exact ⟨State.answerFault_class_r retry (.inl (by simp [cause])), State.answerFault_class_r_ended retry⟩
      · have retry : (s.core p).currentClass = .r := by rw [byCause, cause]; rfl
        exact ⟨State.answerFault_class_r_ended retry, fun up => State.answerFault_class_r retry (.inr up),
          State.answerFault_link_down retry cause⟩
  case moves =>
    refine ⟨execMoveToSpare_due held noTest spare, fun stays waits => execMoveToSpare_not_due ?_⟩
    rintro (leaves | ⟨due, noArb⟩)
    · exact leaves stays
    · exact waits.elim due fun arb => arb noArb
  case leaves =>
    exact ⟨fun vacant unsaved noTest => execQuarantine_vacant leaving noTest vacant unsaved,
      fun v d resident held noTest spare => execQuarantine_moves leaving noTest resident held spare⟩
end

section
/-! SUPPORT. Table 3.3's classes of a group's result (O14), none of which looks at the order of the products (O15). -/

namespace Sys2Proof.Machine

@[simp] theorem Val.isNan_iff {v : Val} : v.isNan = true ↔ v = .nan := by
  cases v <;> simp [Val.isNan]

@[simp] theorem Val.isInf_iff {v : Val} : v.isInf = true ↔ ∃ neg, v = .inf neg := by
  cases v <;> simp [Val.isInf]

/-! ### What R79 computes -/

/-- The finite nonzero products, which alone enter the window. -/
def nonzeroProds (ps : List Prod) : List Prod := ps.filter fun p => !p.v.isZero

/-- emax of R79, none in a group without nonzero products. -/
def groupEmax (ps : List Prod) : Option Int := ((nonzeroProds ps).map Prod.e).max?

/-- The exact sum of the signed window values, in units of 2^(emax - 24). -/
def windowSum (emax : Int) (ps : List Prod) : Int := ((nonzeroProds ps).map fun p => windowTerm emax p.v).sum

/-- The group result of a window sum: never -0 (R81). -/
def Group.ofWindowSum (emax t : Int) : Group :=
  .val (if t = 0 then .zero false else .fin (decide (t < 0)) t.natAbs (emax - 24))

theorem groupEmax_eq_none_iff {ps : List Prod} : groupEmax ps = none ↔ nonzeroProds ps = [] := by
  rw [groupEmax, List.max?_eq_none_iff, List.map_eq_nil_iff]

theorem groupEmax_eq_some_iff {ps : List Prod} {emax : Int} :
    groupEmax ps = some emax ↔ (∃ p ∈ nonzeroProds ps, p.e = emax) ∧ ∀ p ∈ nonzeroProds ps, p.e ≤ emax := by
  simp [groupEmax, List.max?_eq_some_iff]

/-- The model's running maximum is emax. -/
theorem groupEmax_of_cons {ps rest : List Prod} {p : Prod} (h : nonzeroProds ps = p :: rest) :
    groupEmax ps = some (rest.foldl (fun a q => max a q.e) p.e) := by
  rw [groupEmax, h, List.map_cons, List.max?_cons', List.foldl_map]

/-- The model's running sum is the window sum. -/
theorem windowSum_eq_foldl (emax : Int) (ps : List Prod) :
    windowSum emax ps = (nonzeroProds ps).foldl (fun a q => a + windowTerm emax q.v) 0 := by
  rw [windowSum, List.sum_eq_foldl, List.foldl_map]

theorem groupEmax_perm {ps qs : List Prod} (h : ps.Perm qs) : groupEmax ps = groupEmax qs := by
  have nonzero : (nonzeroProds ps).Perm (nonzeroProds qs) := h.filter _
  ext emax
  simp only [groupEmax_eq_some_iff, nonzero.mem_iff]

theorem windowSum_perm {ps qs : List Prod} (h : ps.Perm qs) (emax : Int) : windowSum emax ps = windowSum emax qs := by
  have nonzero : (nonzeroProds ps).Perm (nonzeroProds qs) := h.filter _
  rw [windowSum_eq_foldl, windowSum_eq_foldl]
  exact nonzero.foldl_eq' (fun p _ q _ t => Int.add_right_comm t (windowTerm emax p.v) (windowTerm emax q.v)) 0

/-! ### The rows of Table 3.3 -/

section
variable {ps : List Prod}

theorem groupSum_of_nan (h : ∃ p ∈ ps, p.v = .nan) : groupSum ps = .val .nan :=
  if_pos (by simpa using h)

section
variable (noNan : ∀ p ∈ ps, p.v ≠ .nan)
include noNan

theorem groupSum_of_both_infs {neg : Bool} (one : ∃ p ∈ ps, p.v = .inf neg) (other : ∃ p ∈ ps, p.v = .inf !neg) :
    groupSum ps = .val .nan := by
  have noNan : ps.any (·.v.isNan) = false := by simpa using noNan
  have signed (sign : Bool) : ∃ p ∈ ps.filter (·.v.isInf), p.v.sign = sign := by
    obtain ⟨p, mem, v⟩ : ∃ p ∈ ps, p.v = .inf sign := by
      by_cases same : sign = neg
      · exact same ▸ one
      · exact Bool.eq_not.2 same ▸ other
    exact ⟨p, List.mem_filter.2 ⟨mem, by simp [v]⟩, by rw [v]; rfl⟩
  have minus : (ps.filter (·.v.isInf)).any (fun p => p.v.sign) = true := List.any_eq_true.2 (signed true)
  have plus : (ps.filter (·.v.isInf)).any (fun p => !p.v.sign) = true :=
    List.any_eq_true.2 (by simpa only [Bool.not_eq_true'] using signed false)
  simp only [groupSum, noNan, minus, plus, Bool.and_self, Bool.false_eq_true, if_false, if_true]

theorem groupSum_of_inf {neg : Bool} (one : ∃ p ∈ ps, p.v = .inf neg) (noOther : ∀ p ∈ ps, p.v ≠ .inf !neg) :
    groupSum ps = .val (.inf neg) := by
  have noNan : ps.any (·.v.isNan) = false := by simpa using noNan
  have alike : ∀ p ∈ ps.filter (·.v.isInf), p.v = .inf neg := by
    intro p hp
    obtain ⟨mem, sign, v⟩ : p ∈ ps ∧ ∃ sign, p.v = .inf sign := by simpa using hp
    have same : sign = neg := Bool.not_eq_not.1 fun e => noOther p mem (e ▸ v)
    rw [v, same]
  cases infs : ps.filter (·.v.isInf) with
  | nil =>
    obtain ⟨p, mem, v⟩ := one
    exact absurd (by simp [v]) (List.filter_eq_nil_iff.1 infs p mem)
  | cons p rest =>
    rw [infs] at alike
    have sign {q : Prod} (mem : q ∈ p :: rest) : q.v.sign = neg := by rw [alike q mem]; rfl
    have oneSign : ((p :: rest).any (fun q => q.v.sign) && (p :: rest).any (fun q => !q.v.sign)) = false := by
      cases neg
      · rw [List.any_eq_false.2 fun q mem => by simp [sign mem], Bool.false_and]
      · rw [Bool.and_comm, List.any_eq_false.2 fun q mem => by simp [sign mem], Bool.false_and]
    simp only [groupSum, noNan, infs, oneSign, Bool.false_eq_true, if_false, alike p List.mem_cons_self]

end

/-- The last two rows: the products are all finite, and the group is untouched where no emax exists. -/
theorem groupSum_of_finite (finite : ∀ p ∈ ps, p.v.isNan = false ∧ p.v.isInf = false) :
    groupSum ps = (groupEmax ps).elim .zero fun emax => .ofWindowSum emax (windowSum emax ps) := by
  have noNan : ps.any (·.v.isNan) = false := List.any_eq_false.2 fun p hp => by rw [(finite p hp).1]; exact Bool.false_ne_true
  have noInf : ps.filter (·.v.isInf) = [] := List.filter_eq_nil_iff.2 fun p hp => by rw [(finite p hp).2]; exact Bool.false_ne_true
  cases nonzero : nonzeroProds ps with
  | nil =>
    rw [groupEmax_eq_none_iff.2 nonzero]
    rw [nonzeroProds] at nonzero
    simp [groupSum, noNan, noInf, nonzero]
  | cons p rest =>
    rw [groupEmax_of_cons nonzero, Option.elim_some, windowSum_eq_foldl, nonzero]
    rw [nonzeroProds] at nonzero
    simp only [groupSum, noNan, noInf, nonzero, Group.ofWindowSum, Bool.false_eq_true, if_false, List.any_nil, Bool.and_false]

end
end Sys2Proof.Machine

open Sys2Proof Sys2Proof.Machine

/-- Settles O14: each row of Table 3.3 by its own lemma; in the last, the bound that a product reaches is emax. -/
theorem groupResultClasses : Obligations.GroupResultClasses := by
  intro ps
  refine ⟨groupSum_of_nan, fun noNan => ⟨fun neg one noOther => ?inf, fun plus minus => ?both⟩, fun finite allZero => ?untouched,
    fun finite emax upper reached => ?window⟩
  case inf => exact groupSum_of_inf noNan one noOther
  case both => exact groupSum_of_both_infs noNan plus minus
  case untouched => rw [groupSum_of_finite finite, groupEmax_eq_none_iff.2 allZero, Option.elim_none]
  case window =>
    have sum : groupSum ps = .ofWindowSum emax (windowSum emax ps) := by
      rw [groupSum_of_finite finite, groupEmax_eq_some_iff.2 ⟨reached, upper⟩, Option.elim_some]
    exact ⟨fun zero => sum.trans (congrArg Group.val (if_pos zero)), fun nonzero => sum.trans (congrArg Group.val (if_neg nonzero))⟩

/-- Settles O15: the row of Table 3.3 that a group meets, emax and the window sum are the same in every order. -/
theorem groupSumIgnoresOrder : Obligations.GroupSumIgnoresOrder := by
  intro ps qs perm
  by_cases nan : ∃ p ∈ ps, p.v = .nan
  case pos => rw [groupSum_of_nan nan, groupSum_of_nan (by simpa only [perm.mem_iff] using nan)]
  have noNan : ∀ p ∈ ps, p.v ≠ .nan := fun p mem v => nan ⟨p, mem, v⟩
  have noNan' : ∀ p ∈ qs, p.v ≠ .nan := by simpa only [perm.mem_iff] using noNan
  by_cases inf : ∃ neg, ∃ p ∈ ps, p.v = .inf neg
  · obtain ⟨neg, one⟩ := inf
    have one' : ∃ p ∈ qs, p.v = .inf neg := by simpa only [perm.mem_iff] using one
    by_cases other : ∃ p ∈ ps, p.v = .inf !neg
    · rw [groupSum_of_both_infs noNan one other, groupSum_of_both_infs noNan' one' (by simpa only [perm.mem_iff] using other)]
    · have noOther : ∀ p ∈ ps, p.v ≠ .inf !neg := fun p mem v => other ⟨p, mem, v⟩
      rw [groupSum_of_inf noNan one noOther, groupSum_of_inf noNan' one' (by simpa only [perm.mem_iff] using noOther)]
  · have finite : ∀ p ∈ ps, p.v.isNan = false ∧ p.v.isInf = false := fun p mem =>
      ⟨Bool.eq_false_iff.2 (mt Val.isNan_iff.1 (noNan p mem)),
        Bool.eq_false_iff.2 fun isInf => inf ((Val.isInf_iff.1 isInf).imp fun neg v => ⟨p, mem, v⟩)⟩
    have finite' : ∀ p ∈ qs, p.v.isNan = false ∧ p.v.isInf = false := by simpa only [perm.mem_iff] using finite
    rw [groupSum_of_finite finite, groupSum_of_finite finite', groupEmax_perm perm]
    exact congrArg (Option.elim _ _) (funext fun emax => congrArg _ (windowSum_perm perm emax))
end

section
/-! SUPPORT. Every command, every event of a core and every clock period keeps the state sound (O3). -/

namespace Sys2Proof.Machine

/-- A command keeps the state sound and its queue as it is, each by its own lemma. -/
theorem exec_keeps {que : List Instr} {s : State} (hs : Keeps que s) (i : Instr) : KeepsOut que (exec i s) := by
  cases i with
  | halt => rw [exec_halt]; exact execHalt_keeps hs
  | br => rw [exec_br]; exact execBr_keeps hs
  | loop => rw [exec_loop]; exact execLoop_keeps hs
  | xset => rw [exec_xset]; exact execXset_keeps hs
  | xadd => rw [exec_xadd]; exact execXadd_keeps hs
  | step => rw [exec_step]; exact execStep_keeps hs
  | migrate => rw [exec_migrate]; exact execMigrate_keeps hs
  | claim => rw [exec_claim]; exact execClaim_keeps hs
  | release => rw [exec_release]; exact execRelease_keeps hs
  | tsig => rw [exec_tsig]; exact execTsig_keeps hs
  | twait => rw [exec_twait]; exact execTwait_keeps hs
  | mpass => rw [exec_mpass]; exact execMpass_keeps hs
  | mpassP => rw [exec_mpassP]; exact execMpassP_keeps hs
  | broadcastMload => rw [exec_broadcastMload]; exact execBroadcastMload_keeps hs
  | wavefrontMload => rw [exec_wavefrontMload]; exact execWavefrontMload_keeps hs
  | mswap => rw [exec_mswap]; exact execMswap_keeps hs
  | mdrain => rw [exec_mdrain]; exact execMdrain_keeps hs
  | vop => rw [exec_vop]; exact execVop_keeps hs
  | vcvt => rw [exec_vcvt]; exact execVcvt_keeps hs
  | vscan => rw [exec_vscan]; exact execVscan_keeps hs
  | vtrn => rw [exec_vtrn]; exact execVtrn_keeps hs
  | vgath => rw [exec_vgath]; exact execVgath_keeps hs
  | vscat => rw [exec_vscat]; exact execVscat_keeps hs
  | rngmask => rw [exec_rngmask]; exact execRngmask_keeps hs
  | red => rw [exec_red]; exact execRed_keeps hs
  | scmd => rw [exec_scmd]; exact execScmd_keeps hs
  | chkset => rw [exec_chkset]; exact execChkset_keeps hs
  | wtapStart => rw [exec_wtapStart]; exact execWtapStart_keeps hs
  | wtapFeed => rw [exec_wtapFeed]; exact execWtapFeed_keeps hs
  | wtapFinish => rw [exec_wtapFinish]; exact execWtapFinish_keeps hs
  | scataddU => rw [exec_scataddU]; exact execScataddU_keeps hs
  | csumU => rw [exec_csumU]; exact execCsumU_keeps hs
  | cntrdU => rw [exec_cntrdU]; exact execCntrdU_keeps hs
  | reservedOpcode => rw [exec_reservedOpcode]; exact execReservedOpcode_keeps hs
  | twaitComplete => rw [exec_twaitComplete]; exact execTwaitComplete_keeps hs
  | claimGrant => rw [exec_claimGrant]; exact execClaimGrant_keeps hs
  | migratePointReached => rw [exec_migratePointReached]; exact execMigratePointReached_keeps hs
  | migRelease => rw [exec_migRelease]; exact execMigRelease_keeps hs
  | deadlock => rw [exec_deadlock]; exact execDeadlock_keeps hs
  | queuedPassStart => rw [exec_queuedPassStart]; exact execQueuedPassStart_keeps hs
  | queuedVectorStart => rw [exec_queuedVectorStart]; exact execQueuedVectorStart_keeps hs
  | shadowSetComplete => rw [exec_shadowSetComplete]; exact execShadowSetComplete_keeps hs
  | mswapFlip => rw [exec_mswapFlip]; exact execMswapFlip_keeps hs
  | forcedScrubWrite => rw [exec_forcedScrubWrite]; exact execForcedScrubWrite_keeps hs
  | lineFetch => rw [exec_lineFetch]; exact execLineFetch_keeps hs
  | checkerVerdict => rw [exec_checkerVerdict]; exact execCheckerVerdict_keeps hs
  | recheckRun => rw [exec_recheckRun]; exact execRecheckRun_keeps hs
  | thirdRun => rw [exec_thirdRun]; exact execThirdRun_keeps hs
  | chkResume => rw [exec_chkResume]; exact execChkResume_keeps hs
  | faultResubmission => rw [exec_faultResubmission]; exact execFaultResubmission_keeps hs
  | quarantine => rw [exec_quarantine]; exact execQuarantine_keeps hs
  | oversubscriptionSwap => rw [exec_oversubscriptionSwap]; exact execOversubscriptionSwap_keeps hs
  | moveToSpare => rw [exec_moveToSpare]; exact execMoveToSpare_keeps hs
  | strmResubmit => rw [exec_strmResubmit]; exact execStrmResubmit_keeps hs
  | coreAflagsSet => rw [exec_coreAflagsSet]; exact execCoreAflagsSet_keeps hs
  | coreFaultClear => rw [exec_coreFaultClear]; exact execCoreFaultClear_keeps hs
  | registerWrite => rw [exec_registerWrite]; exact execRegisterWrite_keeps hs
  | stageRequestIssue => rw [exec_stageRequestIssue]; exact execStageRequestIssue_keeps hs
  | descriptorRunFetch => rw [exec_descriptorRunFetch]; exact execDescriptorRunFetch_keeps hs
  | memoryRequestComplete => rw [exec_memoryRequestComplete]; exact execMemoryRequestComplete_keeps hs
  | taskEnd => rw [exec_taskEnd]; exact execTaskEnd_keeps hs
  | witnessRecord => rw [exec_witnessRecord]; exact execWitnessRecord_keeps hs
  | xlatFaultTimeout => rw [exec_xlatFaultTimeout]; exact execXlatFaultTimeout_keeps hs
  | xlatRespRetry => rw [exec_xlatRespRetry]; exact execXlatRespRetry_keeps hs
  | xlatRespUnresolvable => rw [exec_xlatRespUnresolvable]; exact execXlatRespUnresolvable_keeps hs
  | tlbInvalidateAll => rw [exec_tlbInvalidateAll]; exact execTlbInvalidateAll_keeps hs
  | tlbInvalidatePage => rw [exec_tlbInvalidatePage]; exact execTlbInvalidatePage_keeps hs
  | gddr7Refresh => rw [exec_gddr7Refresh]; exact execGddr7Refresh_keeps hs
  | patrolScrub => rw [exec_patrolScrub]; exact execPatrolScrub_keeps hs
  | tileMemoryScrub => rw [exec_tileMemoryScrub]; exact execTileMemoryScrub_keeps hs
  | releaseWordPoll => rw [exec_releaseWordPoll]; exact execReleaseWordPoll_keeps hs
  | indexEntryRead => rw [exec_indexEntryRead]; exact execIndexEntryRead_keeps hs
  | sampleCacheLookup => rw [exec_sampleCacheLookup]; exact execSampleCacheLookup_keeps hs
  | sampleFetch => rw [exec_sampleFetch]; exact execSampleFetch_keeps hs
  | sampleDecode => rw [exec_sampleDecode]; exact execSampleDecode_keeps hs
  | slotComplete => rw [exec_slotComplete]; exact execSlotComplete_keeps hs
  | flitReceive => rw [exec_flitReceive]; exact execFlitReceive_keeps hs
  | replayRequest => rw [exec_replayRequest]; exact execReplayRequest_keeps hs
  | flitAcceptTimeout => rw [exec_flitAcceptTimeout]; exact execFlitAcceptTimeout_keeps hs
  | portTrained => rw [exec_portTrained]; exact execPortTrained_keeps hs
  | portRetrain => rw [exec_portRetrain]; exact execPortRetrain_keeps hs
  | portEnable => rw [exec_portEnable]; exact execPortEnable_keeps hs
  | portDisable => rw [exec_portDisable]; exact execPortDisable_keeps hs
  | packetReceive => rw [exec_packetReceive]; exact execPacketReceive_keeps hs
  | blockReceive => rw [exec_blockReceive]; exact execBlockReceive_keeps hs
  | openReceive => rw [exec_openReceive]; exact execOpenReceive_keeps hs
  | acknowledgeReceive => rw [exec_acknowledgeReceive]; exact execAcknowledgeReceive_keeps hs
  | resendTimeout => rw [exec_resendTimeout]; exact execResendTimeout_keeps hs
  | collectiveComplete => rw [exec_collectiveComplete]; exact execCollectiveComplete_keeps hs
  | heartbeatSend => rw [exec_heartbeatSend]; exact execHeartbeatSend_keeps hs
  | heartbeatReceive => rw [exec_heartbeatReceive]; exact execHeartbeatReceive_keeps hs
  | heartbeatLoss => rw [exec_heartbeatLoss]; exact execHeartbeatLoss_keeps hs
  | linkStateNotice => rw [exec_linkStateNotice]; exact execLinkStateNotice_keeps hs
  | jobControlMessage => rw [exec_jobControlMessage]; exact execJobControlMessage_keeps hs
  | earlyCheckpointRequest => rw [exec_earlyCheckpointRequest]; exact execEarlyCheckpointRequest_keeps hs
  | drainAndReplacementRequest => rw [exec_drainAndReplacementRequest]; exact execDrainAndReplacementRequest_keeps hs
  | fieldTestChunk => rw [exec_fieldTestChunk]; exact execFieldTestChunk_keeps hs
  | packageAssemblyTimeout => rw [exec_packageAssemblyTimeout]; exact execPackageAssemblyTimeout_keeps hs
  | imageRelay => rw [exec_imageRelay]; exact execImageRelay_keeps hs
  | twinRecordReceive => rw [exec_twinRecordReceive]; exact execTwinRecordReceive_keeps hs
  | twinHaltSignal => rw [exec_twinHaltSignal]; exact execTwinHaltSignal_keeps hs
  | cairnTick => rw [exec_cairnTick]; exact execCairnTick_keeps hs
  | healthRecordSave => rw [exec_healthRecordSave]; exact execHealthRecordSave_keeps hs
  | fieldTestEnd => rw [exec_fieldTestEnd]; exact execFieldTestEnd_keeps hs
  | fieldTestTimeout => rw [exec_fieldTestTimeout]; exact execFieldTestTimeout_keeps hs
  | forcedFieldTest => rw [exec_forcedFieldTest]; exact execForcedFieldTest_keeps hs
  | stepHoldReached => rw [exec_stepHoldReached]; exact execStepHoldReached_keeps hs
  | boundaryHold => rw [exec_boundaryHold]; exact execBoundaryHold_keeps hs
  | snapshotArm => rw [exec_snapshotArm]; exact execSnapshotArm_keeps hs
  | granuleCopy => rw [exec_granuleCopy]; exact execGranuleCopy_keeps hs
  | checkpointBlockReceive => rw [exec_checkpointBlockReceive]; exact execCheckpointBlockReceive_keeps hs
  | manifestWrite => rw [exec_manifestWrite]; exact execManifestWrite_keeps hs
  | drainComplete => rw [exec_drainComplete]; exact execDrainComplete_keeps hs
  | restoreEnded => rw [exec_restoreEnded]; exact execRestoreEnded_keeps hs
  | mbxDoorbell => rw [exec_mbxDoorbell]; exact execMbxDoorbell_keeps hs
  | sidebandFrame => rw [exec_sidebandFrame]; exact execSidebandFrame_keeps hs
  | identify => rw [exec_identify]; exact execIdentify_keeps hs
  | hello => rw [exec_hello]; exact execHello_keeps hs
  | caps => rw [exec_caps]; exact execCaps_keeps hs
  | fwStage => rw [exec_fwStage]; exact execFwStage_keeps hs
  | fwActivate => rw [exec_fwActivate]; exact execFwActivate_keeps hs
  | attest => rw [exec_attest]; exact execAttest_keeps hs
  | jobCreate => rw [exec_jobCreate]; exact execJobCreate_keeps hs
  | jobLoad => rw [exec_jobLoad]; exact execJobLoad_keeps hs
  | regionBind => rw [exec_regionBind]; exact execRegionBind_keeps hs
  | jobStart => rw [exec_jobStart]; exact execJobStart_keeps hs
  | jobPause => rw [exec_jobPause]; exact execJobPause_keeps hs
  | jobResume => rw [exec_jobResume]; exact execJobResume_keeps hs
  | jobAbort => rw [exec_jobAbort]; exact execJobAbort_keeps hs
  | ckptRequest => rw [exec_ckptRequest]; exact execCkptRequest_keeps hs
  | ckptStatus => rw [exec_ckptStatus]; exact execCkptStatus_keeps hs
  | restore => rw [exec_restore]; exact execRestore_keeps hs
  | testPush => rw [exec_testPush]; exact execTestPush_keeps hs
  | testStatus => rw [exec_testStatus]; exact execTestStatus_keeps hs
  | telemetry => rw [exec_telemetry]; exact execTelemetry_keeps hs
  | logRead => rw [exec_logRead]; exact execLogRead_keeps hs
  | powerPolicy => rw [exec_powerPolicy]; exact execPowerPolicy_keeps hs
  | linkStatus => rw [exec_linkStatus]; exact execLinkStatus_keeps hs
  | coreRetire => rw [exec_coreRetire]; exact execCoreRetire_keeps hs
  | debugAttach => rw [exec_debugAttach]; exact execDebugAttach_keeps hs
  | unknownOpcode => rw [exec_unknownOpcode]; exact execUnknownOpcode_keeps hs
  | evrTailWrite => rw [exec_evrTailWrite]; exact execEvrTailWrite_keeps hs
  | evrCtrlEnable => rw [exec_evrCtrlEnable]; exact execEvrCtrlEnable_keeps hs
  | eventInterruptCoalesce => rw [exec_eventInterruptCoalesce]; exact execEventInterruptCoalesce_keeps hs
  | shedLevelWindow => rw [exec_shedLevelWindow]; exact execShedLevelWindow_keeps hs
  | telemetryMirrorSample => rw [exec_telemetryMirrorSample]; exact execTelemetryMirrorSample_keeps hs
  | bar0Access => rw [exec_bar0Access]; exact execBar0Access_keeps hs
  | bar2Read => rw [exec_bar2Read]; exact execBar2Read_keeps hs
  | bar2Write => rw [exec_bar2Write]; exact execBar2Write_keeps hs
  | debugWindowAccess => rw [exec_debugWindowAccess]; exact execDebugWindowAccess_keeps hs
  | coldReset => rw [exec_coldReset]; exact execColdReset_keeps hs
  | perst => rw [exec_perst]; exact execPerst_keeps hs
  | warmReset => rw [exec_warmReset]; exact execWarmReset_keeps hs
  | functionLevelReset => rw [exec_functionLevelReset]; exact execFunctionLevelReset_keeps hs
  | instar0 => rw [exec_instar0]; exact execInstar0_keeps hs
  | instar1 => rw [exec_instar1]; exact execInstar1_keeps hs
  | instar2 => rw [exec_instar2]; exact execInstar2_keeps hs
  | instar3 => rw [exec_instar3]; exact execInstar3_keeps hs
  | instar4 => rw [exec_instar4]; exact execInstar4_keeps hs
  | bringUpWatchdog => rw [exec_bringUpWatchdog]; exact execBringUpWatchdog_keeps hs
  | throttleTick => rw [exec_throttleTick]; exact execThrottleTick_keeps hs
  | thermalTrip => rw [exec_thermalTrip]; exact execThermalTrip_keeps hs
  | domainPowerOnRequest => rw [exec_domainPowerOnRequest]; exact execDomainPowerOnRequest_keeps hs
  | domainPowerOffRequest => rw [exec_domainPowerOffRequest]; exact execDomainPowerOffRequest_keeps hs
  | domainSequenceEnd => rw [exec_domainSequenceEnd]; exact execDomainSequenceEnd_keeps hs
  | domainFault => rw [exec_domainFault]; exact execDomainFault_keeps hs
  | laserPresent => rw [exec_laserPresent]; exact execLaserPresent_keeps hs
  | laserAbsent => rw [exec_laserAbsent]; exact execLaserAbsent_keeps hs
  | railOutOfWindow => rw [exec_railOutOfWindow]; exact execRailOutOfWindow_keeps hs
  | regulatorFrame => rw [exec_regulatorFrame]; exact execRegulatorFrame_keeps hs
  | regulatorReply => rw [exec_regulatorReply]; exact execRegulatorReply_keeps hs
  | hostOrCxlLinkError => rw [exec_hostOrCxlLinkError]; exact execHostOrCxlLinkError_keeps hs
  | hostOrCxlLinkUp => rw [exec_hostOrCxlLinkUp]; exact execHostOrCxlLinkUp_keeps hs
  | busMasterEnable => rw [exec_busMasterEnable]; exact execBusMasterEnable_keeps hs
  | pciePowerStateChange => rw [exec_pciePowerStateChange]; exact execPciePowerStateChange_keeps hs
  | twinJobEnd => rw [exec_twinJobEnd]; exact execTwinJobEnd_keeps hs

/-- Soundness does not speak of the queue. -/
theorem State.Inv.withPending {s : State} (h : s.Inv) (rest : List Instr) : ({ s with pending := rest } : State).Inv :=
  ⟨h.mem, h.cores, h.queues⟩

theorem step_inv {s t : State} (h : s.Inv) (run : step s = .next t) : t.Inv := by
  unfold step at run
  split at run
  next =>
    split at run
    next i own => exact (exec_keeps ⟨rfl, h⟩ i t run).inv
    next idle => exact (keepsOut_next (State.tick_keeps ⟨rfl, h⟩) t run).inv
  next i rest waiting => exact (exec_keeps ⟨rfl, h.withPending rest⟩ i t run).inv

end Sys2Proof.Machine

open Sys2Proof Sys2Proof.Machine

/-- Settles O3: a step is a command, an event of a core or a clock period, and each keeps the state sound. -/
theorem everyStepKeepsTheInvariant : Obligations.EveryStepKeepsTheInvariant :=
  ⟨fun _ _ => step_inv, fun i _ t h run => (exec_keeps ⟨rfl, h⟩ i t run).queue⟩
end

section
/-! SUPPORT. When the array's own events are due, and what the issue of a load comes to (O10). -/

namespace Sys2Proof.Machine

/-- A legal instruction that issues has its own effect. -/
theorem State.issue_of_runs {s : State} {p : Fin 20} {k : Fin 128} {w : IWord} {v : VCore} {t : Nat} {classV : Bool} {engine : Engine}
    {checks : Core → VCore → Strand → List EncCheck} (runs : s.Runs p k w v t classV engine checks)
    (body : State → VCore → Strand → Nat → State) :
    s.issue p k w classV engine checks body = .next (body (s.advance p t) (s.vcoreAt p v t) v.strands[k] t) :=
  have ⟨issues, legal⟩ := runs
  State.issue_next issues legal

/-! ### Events of the array that are due -/

variable {c : Core}

/-- R105: nothing issued before the oldest MSWAP is still to start or complete, so its flip can come. -/
theorem Core.flipDue_eq {sw : Swap} {rest : List Swap} (swaps : c.swaps = sw :: rest) (started : ∀ q ∈ c.pass.pending, q.swaps ≠ 0)
    (filled : c.filling = false) (noLoad : c.load.queued = none) (fed : c.dryBefore (c.flipCycle sw) = false) :
    c.flipDue = some (c.flipCycle sw) := by
  have noPass : (c.pass.pending.any fun q => q.swaps == 0) = false := by simpa using started
  simp [Core.flipDue, swaps, noPass, filled, noLoad, fed]

/-- R104. -/
theorem Core.fillDue_eq (filling : c.filling = true) (fed : c.dryBefore c.fillAt = false) : c.fillDue = some c.fillAt := by
  simp [Core.fillDue, filling, fed]

/-- R102. -/
theorem Core.startDue_eq {l : LaneId} {q : QInstr} (head : (c.lane l).head = some q) (flipped : q.swaps = 0)
    (fed : c.dryBefore (c.lane l).freeAt = false) : c.startDue l = some (c.lane l).freeAt := by
  simp [Core.startDue, head, flipped, fed]

/-! ### Loads -/

section
variable {s : State} {p : Fin 20} {k : Fin 128} {w : IWord} {v : VCore} {st : Strand} {t : Nat}
  (readable : v.rangeFault ((LoadOp.ofWord w st.x).ranges w st.x) .read = none)
include readable

theorem State.issueLoad_wavefront (wave : flag w 30 = true) : s.issueLoad p k w v st t =
    (s.modV p fun v => { v with armed := some (LoadOp.ofWord w st.x) }).commit p k t := by
  simp only [State.issueLoad, readable, wave, if_true]

theorem State.issueLoad_broadcast (broadcast : flag w 30 = false) (clear : s.ClearTo p .load (.of st k w v.stepTag [] 0 none) t []) :
    s.issueLoad p k w v st t = (((s.noted p .load (.of st k w v.stepTag [] 0 none) t []).modV p fun v => { v with
      shadow := { v.shadow with loaded := true, fmt := (LoadOp.ofWord w st.x).fmt, sparse := (LoadOp.ofWord w st.x).sparse } }).commit
        p k t).enqueue p .load (.of st k w v.stepTag [] 0 none) t := by
  simp only [State.issueLoad, readable, broadcast, Bool.false_eq_true, if_false, State.toLane_clear clear]

end

end Sys2Proof.Machine

open Sys2Proof Sys2Proof.Machine

/-- Settles O10: MSWAP and MLOAD by what their issue comes to, the flip and the end of a fill by the cycle in which they are due. -/
theorem loadsAndSwaps : Obligations.LoadsAndSwaps := by
  refine ⟨fun s p k ops v t => ⟨fun runs => ?mswap, fun sw rest swaps started filled noLoad fed => ?flip, fun filling fed => ?filled⟩,
    fun s p k ops v t w o => ?loads⟩
  case mswap =>
    rw [exec_mswap, execMswap]
    exact State.issue_of_runs runs _
  case flip =>
    have due := Core.flipDue_eq swaps started filled noLoad fed
    simp only [exec_mswapFlip, execMswapFlip, due]
    rfl
  case filled =>
    have due := Core.fillDue_eq filling fed
    simp only [exec_shadowSetComplete, execShadowSetComplete, due]
  case loads =>
    intro s1 q ofWord runs readable
    subst ofWord
    refine ⟨fun wave => ?wavefront, fun broadcast clear => ?broadcast⟩
    case wavefront =>
      have issued : exec (.wavefrontMload p k ops) s = .next (s1.issueLoad p k w (s.vcoreAt p v t) v.strands[k] t) := by
        subst wave
        rw [exec_wavefrontMload, execWavefrontMload]
        exact State.issue_of_runs runs _
      rw [issued, State.issueLoad_wavefront readable (wave ▸ flag_withBits_set _)]
    case broadcast =>
      have issued : exec (.broadcastMload p k ops) s = .next (s1.issueLoad p k w (s.vcoreAt p v t) v.strands[k] t) := by
        subst broadcast
        rw [exec_broadcastMload, execBroadcastMload]
        exact State.issue_of_runs runs _
      rw [issued, State.issueLoad_broadcast readable (broadcast ▸ flag_withBits_clear _) clear]
end

section
/-! SUPPORT. Reads at issue, and what the issue of a pass comes to (O11). -/

namespace Sys2Proof.Machine

/-! ### Reads at issue -/

/-- Issue without a read meets nothing. -/
@[simp] theorem State.readNow_nil (s : State) (p : Fin 20) : s.readNow p [] = s := by
  have noAccess : (s.core p).tileAccs [] = [] := by
    unfold Core.tileAccs
    split <;> simp
  have arrive : s.arrive p [] = s := by simp [State.arrive, noAccess]
  rw [State.readNow, arrive, State.correct]
  split <;> simp

/-- The virtual core as it stands in the issue cycle, looked up there again. -/
@[simp] theorem State.vNow_vcoreAt (s : State) (p : Fin 20) (v : VCore) (t : Nat) : (s.advance p t).vNow p (s.vcoreAt p v t) = s.vcoreAt p v t := by
  cases resident : ((s.advance p t).core p).v <;> simp [State.vNow, State.vcoreAt, resident]

/-- R102: a lane's next instruction starts where it is due. -/
theorem State.startNext_due {s : State} {p : Fin 20} {l : LaneId} {q : QInstr} (head : ((s.core p).lane l).head = some q)
    (flipped : q.swaps = 0) (fed : (s.core p).dryBefore ((s.core p).lane l).freeAt = false) : s.startNext p l =
      ((s.advance p ((s.core p).lane l).freeAt).modCore p fun c => c.setLane l (c.lane l).pop).start p l q ((s.core p).lane l).freeAt := by
  simp only [State.startNext, head, Core.startDue_eq head flipped fed]

/-! ### Passes -/

/-- MPASS.P has no skip index (R118). -/
theorem PassOp.skip_of_count (w : IWord) (x : Vector Word 7) (n : Nat) : (PassOp.ofWord w x (some n)).skip = none := rfl

section
variable (s : State) (p : Fin 20) (k : Fin 128) (w : IWord) (v : VCore) (st : Strand) (t : Nat)

/-- MPASS: the count of its word is at least 1, so it tags its tile and takes the armed load (R100, R120). -/
theorem State.issuePass_of_word (stands : s.vNow p v = v) :
    let o := PassOp.ofWord w st.x none
    let q := QInstr.of st k w v.stepTag [] (s.core p).swaps.length v.armed
    v.rangeFault ((if o.ssel then [] else [(taAt w st.x 80, o.srcLen)]) ++ o.skip.toList.map fun _ => (taAt w st.x 104, o.skipLen))
      .read = none → s.ClearTo p .pass q t [] →
    s.issuePass p k w false v st t =
      (((s.noted p .pass q t []).modV p fun v => { o.tagTile v with armed := none }).commit p k t).enqueue p .pass q t := by
  have nonzero : (PassOp.ofWord w st.x none).count ≠ 0 := Nat.succ_ne_zero _
  have notZero : ((PassOp.ofWord w st.x none).count == 0) = false := beq_eq_false_iff_ne.2 nonzero
  dsimp only
  intro readable clear
  simp only [State.issuePass, Bool.false_eq_true, if_false, State.readNow_nil, stands, List.findSome?_nil, Bool.false_and, notZero,
    Bool.or_false, readable, nonzero, State.toLane_clear clear]

section
variable (inRegion : v.regionFault (waAt w st.x 103) 4 .read = none)
include inRegion

/-- MPASS.P that reads its count (R118): a count of 0 leaves the tags and the armed load (log 60). -/
theorem State.issuePass_of_count :
    let a := waAt w st.x 103
    let read := Access.read .tile a.toNat 4 t k st.pc
    let s2 := s.readNow p [read]
    let y := s2.vNow p v
    let record := (s2.core p).tileAt y a.toNat 4 t
    let o := PassOp.ofWord w st.x (some (natOf record))
    let q := QInstr.of st k w y.stepTag record (s2.core p).swaps.length (if o.count = 0 then none else y.armed)
    y.badAccess read = none → o.count ≤ tileTokens o.ashape - o.tokoff →
    y.rangeFault (if o.ssel || o.count == 0 then [] else [(taAt w st.x 80, o.srcLen)]) .read = none → s2.ClearTo p .pass q t [read] →
    s.issuePass p k w true v st t = if o.count = 0 then ((s2.noted p .pass q t [read]).commit p k t).enqueue p .pass q t
      else (((s2.noted p .pass q t [read]).modV p fun v => { o.tagTile v with armed := none }).commit p k t).enqueue p .pass q t := by
  dsimp only
  intro clean fits readable clear
  have inTile := decide_eq_false (Nat.not_lt.2 fits)
  simp only [State.issuePass, if_true, inRegion, List.findSome?_cons, List.findSome?_nil, clean, Bool.true_and, inTile, Bool.false_eq_true, if_false,
    PassOp.skip_of_count, Option.toList_none, List.map_nil, List.append_nil, readable, State.toLane_clear clear]
  split <;> rfl

/-- MPASS.P whose count has an uncorrectable error (Table 6.7, log 70). -/
theorem State.issuePass_of_bad_count {f : Nat × Nat} {opcode : Nat} (op : fld w 0 10 = opcode) :
    let read := Access.read .tile (waAt w st.x 103).toNat 4 t k st.pc
    let s2 := s.readNow p [read]
    let o := PassOp.ofWord w st.x none
    (s2.vNow p v).badAccess read = some f →
    s.issuePass p k w true v st t = (s2.modV p fun v => o.tagTile v).failIssue p k f opcode t
      [.put .acc (o.wordAt 0) ((tileTokens o.ashape - o.tokoff) * o.words) t t k st.pc] := by
  dsimp only
  intro bad
  simp only [State.issuePass, if_true, inRegion, List.findSome?_cons, bad, op]

end
end

end Sys2Proof.Machine

open Sys2Proof Sys2Proof.Machine

/-- Settles O11: both passes by what their issue comes to, a queued instruction by the cycle in which its start is due. -/
theorem passesIssue : Obligations.PassesIssue := by
  intro s p k ops v t st s1 x tags tagged
  refine ⟨?mpass, ?mpassP, fun kind q => ?queued⟩
  case mpass =>
    intro w o q runs readable clear
    have issued : exec (.mpass p k ops) s = .next (s1.issuePass p k w false x st t) := by
      rw [exec_mpass, execMpass]
      exact State.issue_of_runs runs _
    exact issued.trans (congrArg _ (State.issuePass_of_word s1 p k w x st t (State.vNow_vcoreAt s p v t) readable clear))
  case mpassP =>
    intro w at0 read s2 y record o q runs inRegion
    have issued : exec (.mpassP p k ops) s = .next (s1.issuePass p k w true x st t) := by
      rw [exec_mpassP, execMpassP]
      exact State.issue_of_runs runs _
    refine ⟨fun clean fits readable clear => ?counted, fun f bad => ?uncorrectable⟩
    case counted => exact issued.trans (congrArg _ (State.issuePass_of_count s1 p k w x st t inRegion clean fits readable clear))
    case uncorrectable => exact issued.trans (congrArg _ (State.issuePass_of_bad_count s1 p k w x st t inRegion (fld_wordOf ops _) bad))
  case queued =>
    intro l t0 head flipped fed s2
    have started := State.startNext_due head flipped fed
    rw [exec_queuedPassStart]
    cases kind <;> exact congrArg _ started
end

section
/-! SUPPORT. Faults that a core raises, and forced scrub writes (O12). -/

namespace Sys2Proof.Machine

/-! ### A core that raises a fault (R192) -/

section
variable (c : Core) (code strand opcode pc info : Nat)

@[simp] theorem Core.raise_v : (c.raise code strand opcode pc info).v = c.v := by
  unfold Core.raise Core.stop
  dsimp only
  repeat' split
  all_goals rfl

@[simp] theorem Core.raise_faultStop : (c.raise code strand opcode pc info).faultStop = true := by
  unfold Core.raise
  dsimp only
  split <;> rfl

/-- The first fault is the one recorded. -/
theorem Core.raise_faultCode (first : c.faultValid = false) : (c.raise code strand opcode pc info).faultCode = BitVec.ofNat 8 code := by
  have unrecorded : c.stop.faultValid = false := by
    unfold Core.stop
    split <;> exact first
  simp [Core.raise, unrecorded]

end

/-! ### Forced scrub writes (R109) -/

/-- The state in which the scrubber has the column's port for its next cycle. -/
def State.scrubbed (s : State) (p : Fin 20) (column : Fin 32) : State :=
  s.modCore p fun c => { c with ports := c.ports.set column { c.ports[column] with scrub := true } }

theorem State.core_scrubbed_ne (s : State) {p q : Fin 20} (h : q ≠ p) (column : Fin 32) : (s.scrubbed p column).core q = s.core q :=
  s.core_modCore_ne h _

section
variable {s : State} {p : Fin 20} {column : Fin 32}

theorem execForcedScrubWrite_waits (ecc : Ecc)
    (waits : (s.core p).clk < (s.core p).ports[column].idleAt + 65536 ∨ (s.core p).ports[column].scrub = true) :
    execForcedScrubWrite p column ecc s = .next s := by
  unfold execForcedScrubWrite
  refine if_pos ?_
  rcases waits with early | taken
  · simp only [scrubForce, early, decide_true, Bool.or_true]
  · simp only [taken, Bool.or_true, Bool.true_or]

section
variable {v : VCore} (resident : (s.core p).v = some v) (due : (s.core p).ports[column].idleAt + 65536 ≤ (s.core p).clk)
  (free : (s.core p).ports[column].scrub = false)
include resident due free

/-- The guard of a forced scrub write lets it pass. -/
theorem forcedScrub_passes :
    ((s.core p).v.isNone || (s.core p).ports[column].scrub || decide ((s.core p).clk < (s.core p).ports[column].idleAt + scrubForce)) = false := by
  simp only [resident, Option.isNone_some, free, scrubForce, Nat.not_lt.2 due, decide_false, Bool.or_false]

theorem execForcedScrubWrite_clean : execForcedScrubWrite p column .clean s = .next (s.scrubbed p column) := by
  simp only [execForcedScrubWrite, forcedScrub_passes resident due free, Bool.false_eq_true, if_false, State.scrubbed]

theorem execForcedScrubWrite_corrected : execForcedScrubWrite p column .corrected s =
    .next (((s.scrubbed p column).charge (24 + p.val) 1 0 0).modCore p fun c => { c with accfix := c.accfix + 1 }) := by
  simp only [execForcedScrubWrite, forcedScrub_passes resident due free, Bool.false_eq_true, if_false, State.scrubbed]

/-- R122: the word that the scrub finds uncorrectable, and its fault. -/
theorem execForcedScrubWrite_uncorrectable : ∃ a, execForcedScrubWrite p column .uncorrectable s =
    .next ((s.scrubbed p column).fresh.2.modCore p fun c =>
      (c.modV fun v => { v with accBad := v.accBad ++ [a / 8] }).raise 9 0 0 0 a) := by
  simp only [execForcedScrubWrite, forcedScrub_passes resident due free, Bool.false_eq_true, if_false]
  exact ⟨_, rfl⟩

end
end

/-- In the period that a scrub takes, the column's results enter the skid buffer and nothing leaves it; a correction goes first (R109). -/
theorem ColPort.period_of_scrub {k : ColPort} (scrub : k.scrub = true) (new : List PortItem) (clk : Nat) : k.period new clk =
    if k.wants = 0 then { k with scrub := false, skid := k.skid ++ new } else { k with wants := k.wants - 1, skid := k.skid ++ new } := by
  unfold ColPort.period
  rcases Nat.eq_zero_or_pos k.wants with unwanted | wanted
  · rw [if_neg (by omega), if_pos scrub, if_pos unwanted]
  · rw [if_pos wanted, if_neg (by omega)]

end Sys2Proof.Machine

open Sys2Proof Sys2Proof.Machine

/-- Settles O12: a drain by what its issue comes to, a scrub write by its guard, the port's clock period by what has the port. -/
theorem drainIssues : Obligations.DrainIssues := by
  refine ⟨fun s p k ops v t => ?drain, fun s p column v ecc => ?scrub, fun new clk k scrub => ⟨fun unwanted => ?scrubs, fun wanted => ?corrects⟩⟩
  case drain =>
    dsimp only
    intro runs inRegion
    rw [exec_mdrain, execMdrain, State.issue_of_runs runs _]
    refine ⟨fun clean checked tags readable writable clear => ?enters, fun f bad => ?uncorrectable⟩
    case enters =>
      simp only [inRegion, clean, checked, tags, readable, writable, Bool.not_true, Bool.false_eq_true, if_false, Option.or_none,
        State.toLane_clear clear]
    case uncorrectable => simp only [inRegion, bad]
  case scrub =>
    intro c taken resident
    refine ⟨fun waits => execForcedScrubWrite_waits ecc waits, fun due free => ⟨execForcedScrubWrite_clean resident due free,
      execForcedScrubWrite_corrected resident due free, ?_⟩⟩
    obtain ⟨a, run⟩ := execForcedScrubWrite_uncorrectable resident due free
    have core : (s.scrubbed p column).fresh.2.core p = (s.scrubbed p column).core p := rfl
    have resident' : ((s.scrubbed p column).core p).v = some v := by rw [State.scrubbed, State.core_modCore]; exact resident
    refine ⟨_, { v with accBad := v.accBad ++ [a / 8] }, run, ?_, fun first => ?_, ?_, ?_, fun q other => ?_⟩
    · rw [State.core_modCore, Core.raise_faultStop]
    · rw [State.core_modCore]
      refine Core.raise_faultCode _ _ _ _ _ _ ?_
      rw [core, State.scrubbed, State.core_modCore]
      exact first
    · rw [State.core_modCore, Core.raise_v, core, Core.modV_v, resident']
      rfl
    · exact List.length_append
    · exact (State.core_modCore_ne _ other _).trans (s.core_scrubbed_ne other column)
  case scrubs => rw [ColPort.period_of_scrub scrub, if_pos unwanted]
  case corrects => rw [ColPort.period_of_scrub scrub, if_neg (Nat.ne_of_gt wanted)]
end

section
/-! SUPPORT. What the issue of a vector or reduction instruction comes to, and its start when it was queued (O13). -/

namespace Sys2Proof.Machine

section
variable {s : State} {p : Fin 20} {k : Fin 128} {w : IWord} {v : VCore} {t : Nat} {classV : Bool} {engine : Engine}
  {checks : Core → VCore → Strand → List EncCheck}

/-- R133: an instruction that reads nothing at issue enters its lane, whatever that lane does. -/
theorem State.issue_enters (runs : s.Runs p k w v t classV engine checks) (l : LaneId) (go : Nat → State → State) :
    let q := QInstr.of v.strands[k] k w (s.vcoreAt p v t).stepTag [] 0 none
    (s.advance p t).ClearTo p l q t [] →
    s.issue p k w classV engine checks (fun s v st t => s.toLane p l (.of st k w v.stepTag [] 0 none) t [] (go t)) =
      .next ((go t ((s.advance p t).noted p l q t [])).enqueue p l q t) := fun clear =>
  (State.issue_of_runs runs _).trans (congrArg _ (State.toLane_clear clear))

end

/-- Table 6.3: the opcodes of the vector engine's instructions, each with its start. -/
theorem State.start_ve {n : Nat} {go : State → Fin 20 → QInstr → Nat → State} {q : QInstr} (op : fld q.word 0 10 = n)
    (row : (n, go) ∈ [(0x030, State.startVop), (0x031, State.startVcvt), (0x032, State.startVscan), (0x033, State.startVtrn),
      (0x034, State.startIndexed), (0x035, State.startIndexed), (0x036, State.startRngmask), (0x200, State.startIndexed)])
    (s : State) (p : Fin 20) (t : Nat) : s.start p .ve q t = go s p q t := by
  simp only [List.mem_cons, List.not_mem_nil, or_false] at row
  rcases row with ⟨rfl, rfl⟩ | ⟨rfl, rfl⟩ | ⟨rfl, rfl⟩ | ⟨rfl, rfl⟩ | ⟨rfl, rfl⟩ | ⟨rfl, rfl⟩ |
      ⟨rfl, rfl⟩ | ⟨rfl, rfl⟩
  all_goals simp [State.start, op]

/-- The first failing read where there is at most one. -/
theorem findSome?_optionalRead (uses : Bool) (read : Access) (bad : Access → Option (Nat × Nat)) :
    (if uses = true then [read] else []).findSome? bad = if uses = true then bad read else none := by
  cases uses <;> simp

/-- R139: an MX conversion's scales lie below 2^25. -/
theorem CvtOp.scalesFit {o : CvtOp} (fit : (o.sfmt.isMx || o.tfmt.isMx) = true → o.mxAt < 2 ^ 25) :
    ((o.sfmt.isMx || o.tfmt.isMx) && decide (2 ^ 25 ≤ o.mxAt)) = false := by
  cases mx : o.sfmt.isMx || o.tfmt.isMx with
  | false => rfl
  | true => exact decide_eq_false (Nat.not_le.2 (fit mx))

end Sys2Proof.Machine

open Sys2Proof Sys2Proof.Machine

/-- Settles O13: what reads nothing at issue enters its lane alike; VCVT, VTRN and RNGMASK by their own checks; a queued instruction by the
cycle in which its start is due. -/
theorem vectorInstructionsIssue : Obligations.VectorInstructionsIssue := by
  refine ⟨fun s p k ops v t => ⟨?vop, ?vscan, ?vgath, ?vscat, ?red, ?scatadd⟩,
    fun s p k ops v t => ⟨?vcvt, ?vtrn, ?rngmask, fun red q => ?queued⟩⟩
  case vop => exact fun runs => State.issue_enters runs .ve fun t s => s.commit p k t
  case vscan => exact fun runs => State.issue_enters runs .ve fun t s => s.commit p k t
  case vgath => exact fun runs => State.issue_enters runs .ve fun t s => s.commit p k t
  case vscat => exact fun runs => State.issue_enters runs .ve fun t s => s.commit p k t
  case red => exact fun runs => State.issue_enters runs .ru fun t s => s.commit p k t
  case scatadd => exact fun runs => State.issue_enters runs .ve fun t s => (s.noteClassV p).commit p k t
  case vcvt =>
    dsimp only
    intro runs inRegion
    rw [exec_vcvt, execVcvt, State.issue_of_runs runs _]
    refine ⟨fun clean scales readable clear => ?enters, fun f uses bad => ?uncorrectable⟩
    case enters =>
      simp only [ite_eq_right_iff.2 inRegion, findSome?_optionalRead, ite_eq_right_iff.2 clean, CvtOp.scalesFit scales,
        Bool.false_eq_true, if_false, readable, State.toLane_clear clear]
    case uncorrectable =>
      simp only [uses, if_true] at inRegion bad ⊢
      simp only [inRegion True.intro, List.findSome?_cons, bad]
  case vtrn =>
    dsimp only
    intro runs inRegion clear
    rw [exec_vtrn, execVtrn, State.issue_of_runs runs _]
    simp only [ite_eq_left_iff.2 inRegion, State.toLane_clear clear]
  case rngmask =>
    dsimp only
    intro runs inRegion
    rw [exec_rngmask, execRngmask, State.issue_of_runs runs _]
    refine ⟨fun clean clear => ?enters, fun f bad => ?uncorrectable⟩
    case enters => simp only [inRegion, clean, State.toLane_clear clear]
    case uncorrectable => simp only [inRegion, bad]
  case queued =>
    intro l t0 head flipped fed s1
    have started := State.startNext_due head flipped fed
    refine ⟨fun isRed => ?_, fun n go row isVector op => ?_⟩
    · subst isRed
      exact congrArg _ started
    · subst isVector
      exact congrArg _ (started.trans (State.start_ve op row _ p t0))
end

section
/-! SUPPORT. The floating-point operations of the vector engine on special values (O59). -/

namespace Sys2Proof.Machine

/-! ### Flags -/

theorem ArithFlags.or_comm (a b : ArithFlags) : a.or b = b.or a := by
  simp only [ArithFlags.or, Bool.or_comm]

@[simp] theorem ArithFlags.none_or (a : ArithFlags) : ArithFlags.none.or a = a := by
  simp [ArithFlags.or, ArithFlags.none]

@[simp] theorem ArithFlags.or_none (a : ArithFlags) : a.or .none = a := by
  simp [ArithFlags.or, ArithFlags.none]

/-! ### Exact values -/

namespace Val

theorem isZero_iff {v : Val} : v.isZero = true ↔ ∃ s e, v = .fin s 0 e := by
  cases v <;> simp [isZero]

theorem add_comm (a b : Val) : a.add b = b.add a := by
  cases a <;> cases b <;> simp only [add]
  case inf.inf s t => cases s <;> cases t <;> rfl
  case fin.fin na ma ea nb mb eb =>
    simp only [Int.min_comm ea, Int.add_comm (scaledInt na ma ea _), Bool.and_comm na]

theorem mul_comm (a b : Val) : a.mul b = b.mul a := by
  cases a <;> cases b <;> simp only [mul, bne_comm, Nat.mul_comm, Int.add_comm]

section
variable {a b : Val} (h : a = .nan ∨ b = .nan)
include h

theorem add_of_nan : a.add b = .nan := by
  rcases h with rfl | rfl
  · rfl
  · cases a <;> rfl

theorem mul_of_nan : a.mul b = .nan := by
  rcases h with rfl | rfl
  · rfl
  · cases a <;> rfl

theorem subv_of_nan : a.subv b = .nan :=
  add_of_nan (h.imp_right (congrArg neg))

theorem lt_of_nan : a.lt b = false := by
  rcases h with rfl | rfl
  · rfl
  · cases a <;> rfl

theorem eqv_of_nan : a.eqv b = false := by
  rcases h with rfl | rfl <;> simp [eqv, isNan]

theorem isNan_or_of_nan : (a.isNan || b.isNan) = true := by
  rcases h with rfl | rfl <;> simp [isNan]

end

section
variable (s t : Bool) (d e : Int)

@[simp] theorem scaledInt_zero (base : Int) : scaledInt s 0 e base = 0 := by
  cases s <;> simp [scaledInt]

@[simp] theorem lt_zeros : (fin s 0 d).lt (fin t 0 e) = false := by
  simp [lt]

@[simp] theorem eqv_zeros : (fin s 0 d).eqv (fin t 0 e) = true := by
  simp [eqv, isNan]

/-- R136: −0 below +0. -/
@[simp] theorem below_zeros : below (fin s 0 d) (fin t 0 e) = (s && !t) := by
  simp [below, isZero, sign]

/-- R44: an exact zero sum of opposite signs is +0. -/
theorem add_opposite (m : Nat) : (fin s m e).add (fin (!s) m e) = .fin false 0 0 := by
  have cancels (base : Int) : scaledInt s m e base + scaledInt (!s) m e base = 0 := by
    cases s
    · exact Int.add_right_neg _
    · exact Int.add_left_neg _
  simp only [add, cancels, if_true, Bool.and_not_self]

end
end Val

/-! ### Operands of the vector engine -/

section
variable {emin : Int} {ftz : Bool} {v : Val}

@[simp] theorem iflushAt_off : iflushAt emin false v = (v, .none) := rfl

theorem iflushAt_nan : iflushAt emin ftz .nan = (.nan, .none) := by
  simp [iflushAt, belowNormal]

theorem iflushAt_zero (s : Bool) (e : Int) : iflushAt emin ftz (.fin s 0 e) = (.fin s 0 e, .none) := by
  simp [iflushAt, belowNormal]

end

/-- The value of an operand as it enters the engine, flushed under ftz (R60). -/
def FloatFmt.operand (ff : FloatFmt) (ftz : Bool) (n : Nat) : Val := (iflushAt ff.emin ftz (ff.decode n)).1

/-- The flags that an operand raises as it enters. -/
def FloatFmt.operandFlags (ff : FloatFmt) (ftz : Bool) (n : Nat) : ArithFlags := (iflushAt ff.emin ftz (ff.decode n)).2

section
variable {ff : FloatFmt} {ftz : Bool} {n m : Nat}

theorem FloatFmt.operand_of_nan (h : (ff.decode n).isNan = true) : ff.operand ftz n = .nan := by
  rw [FloatFmt.operand, Val.isNan_iff.1 h, iflushAt_nan]

theorem FloatFmt.operand_of_zero {s : Bool} {e : Int} (h : ff.decode n = .fin s 0 e) : ff.operand ftz n = .fin s 0 e := by
  rw [FloatFmt.operand, h, iflushAt_zero]

/-- Flushing keeps the sign, so operands that are opposite stay so. -/
theorem FloatFmt.operand_opposite {neg : Bool} {k : Nat} {e : Int} (hn : ff.decode n = .fin neg k e) (hm : ff.decode m = .fin (!neg) k e) :
    (ff.operand ftz n).add (ff.operand ftz m) = .fin false 0 0 := by
  rw [FloatFmt.operand, FloatFmt.operand, hn, hm]
  have alike : belowNormal ff.emin (.fin (!neg) k e) = belowNormal ff.emin (.fin neg k e) := rfl
  cases flushed : ftz && belowNormal ff.emin (.fin neg k e) <;>
    simp only [iflushAt, alike, flushed, Val.add_opposite, if_true, Bool.false_eq_true, if_false, Val.zero, Val.sign]

end

@[simp] theorem FloatFmt.rne_nan (ff : FloatFmt) (ftz : Bool) : ff.rne ftz .nan = (ff.nanBits, .none) := rfl

@[simp] theorem FloatFmt.rne_zero (ff : FloatFmt) (ftz s : Bool) (e : Int) : ff.rne ftz (.fin s 0 e) = (ff.signBit s, .none) := rfl

/-! ### Operations (Table 5.3) -/

section
variable (ff : FloatFmt) (ftz : Bool) (a b c : Nat)

/-- The rounded result of an operation on two operands that gives `v` exactly, with every flag. -/
def roundBinary (v : Val) : Rounded :=
  ((ff.rne ftz v).1, ((ff.operandFlags ftz a).or (ff.operandFlags ftz b)).or (ff.rne ftz v).2)

theorem roundBinary_comm (v : Val) : roundBinary ff ftz a b v = roundBinary ff ftz b a v := by
  rw [roundBinary, roundBinary, ArithFlags.or_comm (ff.operandFlags ftz a)]

theorem vopFloat_add : vopFloat ff ftz 0x00 a b c = roundBinary ff ftz a b ((ff.operand ftz a).add (ff.operand ftz b)) := by
  simp [vopFloat, vopUsesB, vopUsesC, roundBinary, FloatFmt.operand, FloatFmt.operandFlags]

theorem vopFloat_sub : vopFloat ff ftz 0x01 a b c = roundBinary ff ftz a b ((ff.operand ftz a).subv (ff.operand ftz b)) := by
  simp [vopFloat, vopUsesB, vopUsesC, roundBinary, FloatFmt.operand, FloatFmt.operandFlags]

theorem vopFloat_mul : vopFloat ff ftz 0x02 a b c = roundBinary ff ftz a b ((ff.operand ftz a).mul (ff.operand ftz b)) := by
  simp [vopFloat, vopUsesB, vopUsesC, roundBinary, FloatFmt.operand, FloatFmt.operandFlags]

/-- The bits of the compares, and of the choice that MIN and MAX make, on the operands. -/
theorem vopFloat_bits :
    let x := ff.operand ftz a
    let y := ff.operand ftz b
    let bits (op : Nat) : Nat := (vopFloat ff ftz op a b c).1
    let pick (v : Val) : Nat := if x.isNan || y.isNan then ff.nanBits else (ff.rne ftz v).1
    bits 0x05 = pick (if !below y x then x else y) ∧ bits 0x06 = pick (if !below x y then x else y) ∧
    bits 0x0A = ofBool (x.eqv y) ∧ bits 0x0B = ofBool (!x.eqv y) ∧ bits 0x0C = ofBool (x.lt y) ∧
    bits 0x0D = ofBool (x.lt y || x.eqv y) ∧ bits 0x0E = ofBool (x.isNan || y.isNan) := by
  refine ⟨?_, ?_, rfl, rfl, rfl, rfl, rfl⟩ <;> exact apply_ite Prod.fst _ _ _

/-- R135: FMA and FNMA round the exact value once. -/
theorem vopFloat_fma : vopFloat ff false 0x03 a b c = ff.rne false (((ff.decode a).mul (ff.decode b)).add (ff.decode c)) := by
  simp [vopFloat, vopUsesB, vopUsesC]

theorem vopFloat_fnma : vopFloat ff false 0x04 a b c = ff.rne false ((ff.decode c).add ((ff.decode a).mul (ff.decode b)).neg) := by
  simp [vopFloat, vopUsesB, vopUsesC, Val.subv]

section
variable {ff ftz a b c}

theorem vopFloat_of_nan (h : (ff.decode a).isNan = true ∨ (ff.decode b).isNan = true) :
    (∀ op ∈ [0x00, 0x01, 0x02, 0x05, 0x06], (vopFloat ff ftz op a b c).1 = ff.nanBits) ∧
    (∀ op ∈ [0x0A, 0x0C, 0x0D], (vopFloat ff ftz op a b c).1 = 0) ∧ ∀ op ∈ [0x0B, 0x0E], (vopFloat ff ftz op a b c).1 = 1 := by
  have nan : ff.operand ftz a = .nan ∨ ff.operand ftz b = .nan := h.imp FloatFmt.operand_of_nan FloatFmt.operand_of_nan
  obtain ⟨min, max, eq, ne, lt, le, un⟩ := vopFloat_bits ff ftz a b c
  simp only [Val.isNan_or_of_nan nan, if_true] at min max
  rw [Val.eqv_of_nan nan] at eq ne le
  rw [Val.lt_of_nan nan] at lt le
  rw [Val.isNan_or_of_nan nan] at un
  simp only [List.forall_mem_cons, List.not_mem_nil, false_implies, implies_true, and_true]
  refine ⟨⟨?_, ?_, ?_, min, max⟩, ⟨eq, lt, le⟩, ne, un⟩
  · rw [vopFloat_add, Val.add_of_nan nan, roundBinary, FloatFmt.rne_nan]
  · rw [vopFloat_sub, Val.subv_of_nan nan, roundBinary, FloatFmt.rne_nan]
  · rw [vopFloat_mul, Val.mul_of_nan nan, roundBinary, FloatFmt.rne_nan]

theorem vopFloat_of_zeros {s t : Bool} {d e : Int} (x : ff.decode a = .fin s 0 d) (y : ff.decode b = .fin t 0 e) :
    let bits (op : Nat) : Nat := (vopFloat ff ftz op a b c).1
    bits 0x0A = 1 ∧ bits 0x0B = 0 ∧ bits 0x0C = 0 ∧ bits 0x0D = 1 ∧ bits 0x05 = ff.signBit (s || t) ∧ bits 0x06 = ff.signBit (s && t) := by
  obtain ⟨min, max, eq, ne, lt, le, -⟩ := vopFloat_bits ff ftz a b c
  rw [FloatFmt.operand_of_zero x, FloatFmt.operand_of_zero y] at min max eq ne lt le
  rw [Val.eqv_zeros] at eq ne le
  rw [Val.lt_zeros] at lt
  refine ⟨eq, ne, lt, le.trans (by simp [ofBool]), min.trans ?_, max.trans ?_⟩
  all_goals cases s <;> cases t <;> simp [Val.isNan]

end

theorem vopFloat_comm : ∀ op ∈ [0x00, 0x02], vopFloat ff ftz op a b c = vopFloat ff ftz op b a c := by
  simp only [List.forall_mem_cons, List.not_mem_nil, false_implies, implies_true, and_true]
  constructor
  · rw [vopFloat_add, vopFloat_add, Val.add_comm, roundBinary_comm]
  · rw [vopFloat_mul, vopFloat_mul, Val.mul_comm, roundBinary_comm]

end
end Sys2Proof.Machine
end

section
/-! SUPPORT. INT32 results: exact, then clamped once (O59). -/

namespace Sys2Proof.Machine

theorem signedOf_bounds (n : Nat) : -2 ^ 31 ≤ signedOf 32 n ∧ signedOf 32 n < 2 ^ 31 := by
  unfold signedOf
  dsimp only
  split <;> omega

/-- The bit pattern of an integer within range reads back. -/
theorem signedOf_patternOf {i : Int} (low : -2 ^ 31 ≤ i) (high : i < 2 ^ 31) : signedOf 32 (patternOf 32 i) = i := by
  unfold signedOf patternOf
  dsimp only
  split <;> omega

theorem patternOf_lt (i : Int) : patternOf 32 i < 2 ^ 32 := by
  unfold patternOf
  omega

theorem clampSigned_eq (i : Int) : clampSigned 32 i = max (-2 ^ 31) (min i (2 ^ 31 - 1)) := by
  unfold clampSigned
  dsimp only
  split
  · omega
  · split <;> omega

theorem clampSigned_ne_iff (i : Int) : clampSigned 32 i ≠ i ↔ i < -2 ^ 31 ∨ 2 ^ 31 ≤ i := by
  rw [clampSigned_eq]
  omega

/-- An exact integer as an INT32 result, with isat where clamping changed it (R138). -/
def clamped (i : Int) : Rounded := (patternOf 32 (clampSigned 32 i), .onlyIsat (clampSigned 32 i != i))

theorem clamped_value (i : Int) : signedOf 32 (clamped i).1 = max (-2 ^ 31) (min i (2 ^ 31 - 1)) := by
  have bits : (clamped i).1 = patternOf 32 (clampSigned 32 i) := rfl
  rw [bits, clampSigned_eq]
  exact signedOf_patternOf (by omega) (by omega)

theorem clamped_lt (i : Int) : (clamped i).1 < 2 ^ 32 := patternOf_lt _

theorem clamped_flags (i : Int) : (clamped i).2 = ⟨false, false, decide (i < -2 ^ 31 ∨ 2 ^ 31 ≤ i), false⟩ := by
  have isat : (clampSigned 32 i != i) = decide (i < -2 ^ 31 ∨ 2 ^ 31 ≤ i) :=
    Bool.eq_iff_iff.2 (bne_iff_ne.trans ((clampSigned_ne_iff i).trans decide_eq_true_iff.symm))
  rw [clamped, ArithFlags.onlyIsat, isat]

/-- R138: the operations whose exact result is clamped. -/
theorem vopInt_eq_clamped {op a b c : Nat} {t : Int} (row :
    let x := signedOf 32 a
    let y := signedOf 32 b
    let z := signedOf 32 c
    (op, t) ∈ ([(0x00, x + y), (0x01, x - y), (0x02, x * y), (0x03, x * y + z), (0x04, z - x * y), (0x05, min x y),
      (0x06, max x y), (0x07, x.natAbs), (0x08, -x), (0x13, x * 2 ^ (b % 32))] : List (Nat × Int))) :
    vopInt op a b c = clamped t := by
  simp only [List.mem_cons, List.not_mem_nil, or_false] at row
  rcases row with ⟨rfl, rfl⟩ | ⟨rfl, rfl⟩ | ⟨rfl, rfl⟩ | ⟨rfl, rfl⟩ | ⟨rfl, rfl⟩ |
      ⟨rfl, rfl⟩ | ⟨rfl, rfl⟩ | ⟨rfl, rfl⟩ | ⟨rfl, rfl⟩ | ⟨rfl, rfl⟩
  all_goals rfl

/-- A quotient by a power of two lies no further from zero. -/
theorem signedOf_div_bounds (a n : Nat) : -2 ^ 31 ≤ signedOf 32 a / 2 ^ n ∧ signedOf 32 a / 2 ^ n < 2 ^ 31 := by
  obtain ⟨low, high⟩ := signedOf_bounds a
  have pos : (0 : Int) < 2 ^ n := Int.pow_pos (by decide)
  rw [Int.le_ediv_iff_mul_le pos, Int.ediv_lt_iff_lt_mul pos]
  generalize (2 : Int) ^ n = unit at pos
  omega

/-- R138: an arithmetic shift right. -/
theorem vopInt_sar (a b c : Nat) : signedOf 32 (vopInt 0x14 a b c).1 = signedOf 32 a / 2 ^ (b % 32) :=
  signedOf_patternOf (signedOf_div_bounds a _).1 (signedOf_div_bounds a _).2

/-- R138: a logical shift right. -/
theorem vopInt_shr (a b c : Nat) : (vopInt 0x15 a b c).1 = a / 2 ^ (b % 32) := Nat.shiftRight_eq_div_pow a _

/-- R153. -/
theorem redInt_eq_clamped (sq : Bool) (xs : List Int) : redInt sq xs = clamped (xs.map fun x => if sq then x * x else x).sum := by
  rw [List.sum_eq_foldl, List.foldl_map]
  rfl

end Sys2Proof.Machine
end

section
/-! SUPPORT. Scans: what a level of R145 does to an element, and the running sums of R146 (O59). -/

namespace Sys2Proof.Machine

theorem getD_of_lt {α : Type} {xs : List α} {j : Nat} (h : j < xs.length) (d : α) : xs.getD j d = xs[j] := by
  rw [List.getD_eq_getElem?_getD, List.getElem?_eq_getElem h, Option.getD_some]

theorem getD_of_length_le {α : Type} {xs : List α} {j : Nat} (h : xs.length ≤ j) (d : α) : xs.getD j d = d := by
  rw [List.getD_eq_getElem?_getD, List.getElem?_eq_none h, Option.getD_none]

/-! ### Floating-point chunks -/

section
variable (ff : FloatFmt) (ftz first : Bool) (carry : Nat)

theorem scanLevel_length (st : List (Nat × Bool) × ArithFlags) (d : Nat) : (scanLevel ff ftz st d).1.length = st.1.length := by
  simp [scanLevel]

/-- R145: one level at distance `d`. -/
theorem scanLevel_getD (xs : List (Nat × Bool)) (fl : ArithFlags) (d j : Nat) (h : j < xs.length) :
    let was := xs.getD j (0, false)
    let far := xs.getD (j - d) (0, false)
    (scanLevel ff ftz (xs, fl) d).1.getD j (0, false) =
      if j < d then was else if was.2 then was else ((addRne ff ftz far.1 was.1).1, far.2) := by
  dsimp only
  rw [getD_of_lt h, getD_of_lt (by rwa [scanLevel_length])]
  by_cases near : j < d
  · simp [scanLevel, near]
  · cases start : xs[j].2 with
    | false => simp [scanLevel, near, start]
    | true =>
      simp only [scanLevel, List.getElem_map, List.getElem_zipIdx, Nat.zero_add, near, if_false, start, Bool.true_or, if_true]
      exact Prod.ext rfl start.symm

/-- What levels leave of `xs` in `ys`: its length, every segment start, and element 0. -/
structure ScanKeeps (xs ys : List (Nat × Bool)) : Prop where
  length : ys.length = xs.length
  starts : ∀ j, j < xs.length → (xs.getD j (0, false)).2 = true → ys.getD j (0, false) = xs.getD j (0, false)
  first : ys.getD 0 (0, false) = xs.getD 0 (0, false)

theorem ScanKeeps.refl (xs : List (Nat × Bool)) : ScanKeeps xs xs := ⟨rfl, fun _ _ _ => rfl, rfl⟩

theorem ScanKeeps.level {xs : List (Nat × Bool)} {st : List (Nat × Bool) × ArithFlags} (keeps : ScanKeeps xs st.1) {d : Nat} (pos : 0 < d) :
    ScanKeeps xs (scanLevel ff ftz st d).1 := by
  refine ⟨(scanLevel_length ff ftz st d).trans keeps.length, fun j inside start => ?_, ?_⟩
  · have kept := keeps.starts j inside start
    rw [scanLevel_getD ff ftz st.1 st.2 d j (keeps.length ▸ inside), kept, if_pos start, ite_self]
  · rcases Nat.eq_zero_or_pos st.1.length with empty | nonempty
    · rw [getD_of_length_le (Nat.le_of_eq ((scanLevel_length ff ftz st d).trans empty)), ← keeps.first, getD_of_length_le (Nat.le_of_eq empty)]
    · rw [scanLevel_getD ff ftz st.1 st.2 d 0 nonempty, if_pos pos, keeps.first]

theorem ScanKeeps.levels {xs : List (Nat × Bool)} {ds : List Nat} (pos : ∀ d ∈ ds, 0 < d) (st : List (Nat × Bool) × ArithFlags)
    (keeps : ScanKeeps xs st.1) : ScanKeeps xs (ds.foldl (scanLevel ff ftz) st).1 := by
  induction ds generalizing st with
  | nil => exact keeps
  | cons d ds ih =>
    obtain ⟨here, later⟩ := List.forall_mem_cons.1 pos
    exact ih later _ (keeps.level ff ftz here)

/-- A chunk's elements after its five levels (R145). -/
def scanLevels (xs : List (Nat × Bool)) : List (Nat × Bool) := ([1, 2, 4, 8, 16].foldl (scanLevel ff ftz) (xs, .none)).1

theorem scanLevels_keeps (xs : List (Nat × Bool)) : ScanKeeps xs (scanLevels ff ftz xs) :=
  ScanKeeps.levels ff ftz (by decide) _ (.refl xs)

/-- The carry comes in last, where no segment start lies between. -/
theorem scanChunk_out (xs : List (Nat × Bool)) : (scanChunk ff ftz first carry xs).1 =
    (scanLevels ff ftz xs).map fun y => if !first && !y.2 then (addRne ff ftz carry y.1).1 else y.1 := by
  simp only [scanChunk, List.map_map, scanLevels]
  exact List.map_congr_left fun y _ => apply_ite Prod.fst _ _ _

theorem scanChunk_length (xs : List (Nat × Bool)) : (scanChunk ff ftz first carry xs).1.length = xs.length := by
  rw [scanChunk_out, List.length_map, (scanLevels_keeps ff ftz xs).length]

theorem scanChunk_getD (xs : List (Nat × Bool)) {j : Nat} (h : j < xs.length) : (scanChunk ff ftz first carry xs).1.getD j 0 =
    let y := (scanLevels ff ftz xs).getD j (0, false)
    if !first && !y.2 then (addRne ff ftz carry y.1).1 else y.1 := by
  have inside : j < (scanLevels ff ftz xs).length := by rwa [(scanLevels_keeps ff ftz xs).length]
  rw [scanChunk_out, getD_of_lt (by rwa [List.length_map]), List.getElem_map, getD_of_lt inside]

end

/-! ### INT32 chunks -/

theorem scanChunkInt_append (carry : Int) (xs ys : List (Nat × Bool)) :
    scanChunkInt carry (xs ++ ys) = scanChunkInt carry xs ++ scanChunkInt ((scanChunkInt carry xs).getLastD carry) ys := by
  induction xs generalizing carry with
  | nil => rfl
  | cons x xs ih => simp only [List.cons_append, scanChunkInt, ih, List.getLastD_cons]

/-- R146: without a segment start every output is the exact sum so far. -/
theorem scanChunkInt_of_no_start (carry : Int) {xs : List (Nat × Bool)} (h : ∀ x ∈ xs, x.2 = false) :
    scanChunkInt carry xs = (List.range xs.length).map fun j => carry + ((xs.take (j + 1)).map fun x => signedOf 32 x.1).sum := by
  induction xs generalizing carry with
  | nil => rfl
  | cons x xs ih =>
    obtain ⟨here, later⟩ := List.forall_mem_cons.1 h
    rw [scanChunkInt, ih _ later, List.length_cons, List.range_succ_eq_map, List.map_cons, List.map_map]
    simp [here, Int.add_assoc, Function.comp_def]

/-- R146: a segment start forgets what came before it. -/
theorem scanChunkInt_start (carry : Int) (n : Nat) (xs : List (Nat × Bool)) :
    scanChunkInt carry ((n, true) :: xs) = scanChunkInt 0 ((n, false) :: xs) := rfl

end Sys2Proof.Machine
end

section
/-! SUPPORT. The reduction unit's sums: chunks of 32, each a pairwise tree, joined left to right (R152), and its counts (R153) (O59). -/

namespace Sys2Proof.Machine

/-! ### Chunks -/

section
variable {α : Type} {k : Nat}

@[simp] theorem pieces_nil (fuel : Nat) : pieces fuel k ([] : List α) = [] := by
  cases fuel <;> rfl

theorem pieces_cons (fuel : Nat) (x : α) (xs : List α) :
    pieces (fuel + 1) k (x :: xs) = (x :: xs).take k :: pieces fuel k ((x :: xs).drop k) := rfl

theorem chunks_of_le {xs : List α} (nonempty : xs ≠ []) (fits : xs.length ≤ k) : chunks k xs = [xs] := by
  obtain ⟨x, xs, rfl⟩ := List.exists_cons_of_ne_nil nonempty
  rw [chunks, List.length_cons, pieces_cons, List.take_of_length_le fits, List.drop_of_length_le fits, pieces_nil]

theorem chunks_concat {xs : List α} (full : xs.length = k) (pos : 0 < k) (x : α) : chunks k (xs ++ [x]) = [xs, [x]] := by
  obtain ⟨y, ys, rfl⟩ := List.exists_cons_of_length_pos (full ▸ pos)
  have one : [x].length ≤ k := pos
  rw [chunks, List.length_append, List.length_cons, List.length_singleton, List.cons_append, pieces_cons, ← List.cons_append,
    List.take_left' full, List.drop_left' full, pieces_cons, List.take_of_length_le one, List.drop_of_length_le one, pieces_nil]

theorem mem_of_mem_pieces {fuel : Nat} {xs c : List α} (h : c ∈ pieces fuel k xs) : ∀ m ∈ c, m ∈ xs := by
  induction fuel generalizing xs with
  | zero => exact absurd h List.not_mem_nil
  | succ fuel ih =>
    cases xs with
    | nil => exact absurd h List.not_mem_nil
    | cons x xs =>
      rcases List.mem_cons.1 h with rfl | later
      · exact fun m => List.mem_of_mem_take
      · exact fun m inside => List.mem_of_mem_drop (ih later m inside)

end

/-! ### The tree of one chunk -/

/-- Induction over the pairs of one level. -/
theorem pairs_induction {α : Type} {motive : List α → Prop} (nil : motive []) (singleton : ∀ a, motive [a])
    (cons_cons : ∀ a b rest, motive rest → motive (a :: b :: rest)) : ∀ xs, motive xs
  | [] => nil
  | [a] => singleton a
  | a :: b :: rest => cons_cons a b rest (pairs_induction nil singleton cons_cons rest)

/-- Two members joined: an absent one leaves the other as it is. -/
def joinMembers (f : Nat → Nat → Rounded) : Member → Member → Member × ArithFlags
  | some x, some y => (some (f x y).1, (f x y).2)
  | some x, none => (some x, .none)
  | none, m => (m, .none)

/-- No member is present, and nothing raised a flag. -/
structure Absent (st : List Member × ArithFlags) : Prop where
  members : ∀ m ∈ st.1, m = none
  flags : st.2 = .none

section
variable {f : Nat → Nat → Rounded}

theorem joinMembers_isSome (a b : Member) : (joinMembers f a b).1.isSome = (a.isSome || b.isSome) := by
  cases a <;> cases b <;> rfl

theorem pairUp_two (a b : Member) (rest : List Member) : pairUp f (a :: b :: rest) =
    ((joinMembers f a b).1 :: (pairUp f rest).1, (pairUp f rest).2.or (joinMembers f a b).2) := by
  cases a <;> cases b <;> simp [pairUp, joinMembers]

theorem pairUp_length (ms : List Member) : (pairUp f ms).1.length = (ms.length + 1) / 2 := by
  induction ms using pairs_induction with
  | nil => rfl
  | singleton m => simp [pairUp]
  | cons_cons a b rest ih =>
    simp only [pairUp_two, List.length_cons, ih]
    omega

/-- Pairing loses no member that is present. -/
theorem pairUp_some (ms : List Member) : (pairUp f ms).1.any Option.isSome = ms.any Option.isSome := by
  induction ms using pairs_induction with
  | nil => rfl
  | singleton => rfl
  | cons_cons a b rest ih => simp only [pairUp_two, List.any_cons, joinMembers_isSome, ih, Bool.or_assoc]

theorem pairUp_absent {ms : List Member} (h : ∀ m ∈ ms, m = none) : Absent (pairUp f ms) := by
  induction ms using pairs_induction with
  | nil => exact ⟨h, rfl⟩
  | singleton => exact ⟨h, rfl⟩
  | cons_cons a b rest ih =>
    obtain ⟨rfl, rfl, later⟩ : a = none ∧ b = none ∧ ∀ m ∈ rest, m = none := by simpa using h
    obtain ⟨members, flags⟩ := ih later
    rw [pairUp_two]
    exact ⟨List.forall_mem_cons.2 ⟨rfl, members⟩, (ArithFlags.or_none _).trans flags⟩

theorem present_of_single {ms : List Member} (one : ms.length ≤ 1) (present : ms.any Option.isSome = true) : ∃ x, ms = [some x] := by
  match ms, one with
  | [], _ => simp at present
  | [m], _ =>
    obtain ⟨x, rfl⟩ : ∃ x, m = some x := Option.isSome_iff_exists.1 (by simpa using present)
    exact ⟨x, rfl⟩

/-- The tree of at most 2^n members, one of them present, comes down to one value. -/
theorem treeUp_some (n : Nat) (st : List Member × ArithFlags) (fits : st.1.length ≤ 2 ^ n) (present : st.1.any Option.isSome = true) :
    ∃ x, (treeUp f n st).1 = [some x] := by
  induction n generalizing st with
  | zero => exact present_of_single fits present
  | succ n ih =>
    rw [treeUp]
    split
    case isTrue one => exact present_of_single one present
    case isFalse =>
      refine ih ((pairUp f st.1).1, _) ?_ ((pairUp_some st.1).trans present)
      rw [pairUp_length]
      omega

theorem treeUp_absent (n : Nat) {st : List Member × ArithFlags} (h : Absent st) : Absent (treeUp f n st) := by
  induction n generalizing st with
  | zero => exact h
  | succ n ih =>
    rw [treeUp]
    split
    · exact h
    · obtain ⟨members, flags⟩ := pairUp_absent (f := f) h.members
      exact ih ⟨members, by rw [h.flags, flags]; rfl⟩

end

theorem squareUp_absent {ftz : Bool} {ms : List Member} (h : ∀ m ∈ ms, m = none) : Absent (squareUp ftz ms) := by
  induction ms using pairs_induction with
  | nil => exact ⟨h, rfl⟩
  | singleton m =>
    rw [h m List.mem_cons_self]
    exact ⟨fun _ => List.mem_singleton.1, rfl⟩
  | cons_cons a b rest ih =>
    obtain ⟨rfl, rfl, later⟩ : a = none ∧ b = none ∧ ∀ m ∈ rest, m = none := by simpa using h
    obtain ⟨members, flags⟩ := ih later
    exact ⟨List.forall_mem_cons.2 ⟨rfl, members⟩, flags⟩

/-! ### A whole set -/

section
variable (ftz squares : Bool)

/-- One chunk of a set as its tree leaves it. -/
def redChunk (c : List Member) : List Member × ArithFlags :=
  treeUp (addRne fp32 ftz) 6 (if squares then squareUp ftz c else (c, .none))

/-- What the chunks so far come to, joined with the next chunk's value. -/
def joinChunk (st : Member × ArithFlags) (c : List Member × ArithFlags) : Member × ArithFlags :=
  let r := joinMembers (addRne fp32 ftz) st.1 (c.1.headD none)
  (r.1, st.2.or r.2)

/-- R152. -/
theorem redFloat_eq (ms : List Member) : redFloat ftz squares ms =
    let cs := (chunks 32 ms).map (redChunk ftz squares)
    let join := cs.foldl (joinChunk ftz) (none, cs.foldl (fun a c => a.or c.2) .none)
    (join.1.getD 0, join.2) := by
  refine congrArg (fun join : Member × ArithFlags => (join.1.getD 0, join.2)) ?_
  refine congrArg (fun step => List.foldl step _ _) (funext fun st => funext fun c => ?_)
  obtain ⟨value, fl⟩ := st
  rw [joinChunk]
  generalize c.1.headD none = next
  cases value <;> cases next <;> simp [joinMembers]

variable {ftz squares}

theorem redChunk_absent {c : List Member} (h : ∀ m ∈ c, m = none) : Absent (redChunk ftz squares c) := by
  refine treeUp_absent 6 ?_
  cases squares with
  | false => exact ⟨h, rfl⟩
  | true => exact squareUp_absent h

theorem Absent.value {c : List Member × ArithFlags} (h : Absent c) : c.1.headD none = none := by
  obtain ⟨ms, fl⟩ := c
  cases ms with
  | nil => rfl
  | cons m ms => exact h.members m List.mem_cons_self

theorem foldl_flags_absent {cs : List (List Member × ArithFlags)} (absent : ∀ c ∈ cs, Absent c) :
    cs.foldl (fun a c => a.or c.2) ArithFlags.none = .none :=
  List.foldlRecOn (motive := (· = ArithFlags.none)) cs _ rfl fun fl held c mem => by rw [held, (absent c mem).flags]; rfl

theorem foldl_joinChunk_absent {cs : List (List Member × ArithFlags)} (absent : ∀ c ∈ cs, Absent c) :
    cs.foldl (joinChunk ftz) (none, .none) = (none, .none) :=
  List.foldlRecOn (motive := (· = (none, ArithFlags.none))) cs _ rfl fun st held c mem => by
    rw [held, joinChunk, (absent c mem).value]; rfl

/-- R152: an absent set. -/
theorem redFloat_absent {ms : List Member} (h : ∀ m ∈ ms, m = none) : redFloat ftz squares ms = (0, .none) := by
  have absent : ∀ c ∈ (chunks 32 ms).map (redChunk ftz squares), Absent c := by
    simp only [List.forall_mem_map]
    exact fun c chunk => redChunk_absent fun m inside => h m (mem_of_mem_pieces chunk m inside)
  rw [redFloat_eq]
  dsimp only
  rw [foldl_flags_absent absent, foldl_joinChunk_absent absent]
  rfl

/-- R152: one chunk's value is its tree's. -/
theorem redFloat_one_chunk {ms : List Member} (nonempty : ms ≠ []) (fits : ms.length ≤ 32) :
    (redFloat ftz squares ms).1 = ((redChunk ftz squares ms).1.headD none).getD 0 := by
  rw [redFloat_eq, chunks_of_le nonempty fits]
  rfl

theorem redFloat_next_chunk {ms : List Member} (full : ms.length = 32) (present : ms.any Option.isSome = true) (x : Nat) :
    (redFloat ftz false (ms ++ [some x])).1 = (addRne fp32 ftz (redFloat ftz false ms).1 x).1 := by
  obtain ⟨y, tree⟩ : ∃ y, (redChunk ftz false ms).1 = [some y] := treeUp_some 6 (ms, .none) (by simp [full]) present
  have nonempty : ms ≠ [] := fun e => absurd full (by simp [e])
  rw [redFloat_one_chunk nonempty (Nat.le_of_eq full), redFloat_eq, chunks_concat full (by decide)]
  simp only [List.map_cons, List.map_nil, List.foldl_cons, List.foldl_nil, joinChunk, tree]
  rfl

theorem redFloat_tree (a b x y : Nat) : (redFloat ftz false [some a, some b, some x, some y]).1 =
    (addRne fp32 ftz (addRne fp32 ftz a b).1 (addRne fp32 ftz x y).1).1 := rfl

theorem redFloat_absent_member (a x : Nat) : (redFloat ftz false [some a, none, some x]).1 = (addRne fp32 ftz a x).1 := rfl

theorem redFloat_square_pair (x y : Nat) : (redFloat ftz true [some x, some y]).1 =
    (fp32.rne ftz (((fp32.decode x).mul (fp32.decode x)).add ((fp32.decode y).mul (fp32.decode y)))).1 := rfl

end

/-! ### Counts (R153) -/

/-- The participating elements that are not zero as they enter. -/
def RedOp.nonzero (o : RedOp) (ftz : Bool) (xs : List (Nat × Nat)) : Nat :=
  (xs.filter fun x => !(o.fmt.iflush ftz (o.fmt.value true x.2)).1.isZero).length

section
variable {o : RedOp} {ftz : Bool} (len : Nat) (xs : List (Nat × Nat)) (op : o.op = 4)
include op

theorem RedOp.reduce_count_float {ff : FloatFmt} (float : o.fmt.float = some ff) (flush : o.fmt.iflush ftz = iflushAt ff.emin ftz)
    (value : o.fmt.value true = ff.decode) :
    ∃ fl, o.reduce ftz len xs = (some (o.nonzero ftz xs, 0), fl) := by
  simp only [RedOp.reduce, RedOp.nonzero, float, op, flush, value, List.filter_map, List.length_map]
  exact ⟨_, rfl⟩

theorem RedOp.reduce_count_int (fmt : o.fmt = .int32) :
    ∃ fl, o.reduce ftz len xs = (some (o.nonzero ftz xs, 0), fl) := by
  have zero (x : Nat × Nat) : (!(Fmt.int32.iflush ftz (Fmt.int32.value true x.2)).1.isZero) = (signedOf 32 x.2 != 0) :=
    Bool.eq_iff_iff.2 (by simp [Fmt.iflush, Fmt.isMx, Fmt.float, Fmt.value, Val.ofInt, Val.isZero])
  simp only [RedOp.reduce, RedOp.nonzero, fmt, Fmt.float, op, zero, List.filter_map, List.length_map]
  exact ⟨_, rfl⟩

theorem RedOp.reduce_count (fmt : o.fmt ∈ [.fp32, .bf16, .fp16, .int32]) :
    ∃ fl, o.reduce ftz len xs = (some (o.nonzero ftz xs, 0), fl) := by
  simp only [List.mem_cons, List.not_mem_nil, or_false] at fmt
  rcases fmt with fmt | fmt | fmt | fmt
  case inr.inr.inr => exact RedOp.reduce_count_int len xs op fmt
  all_goals exact RedOp.reduce_count_float len xs op (by rw [fmt]; rfl) (by rw [fmt]; rfl) (by rw [fmt]; rfl)

end
end Sys2Proof.Machine
end

section
/-! SUPPORT. The order in which MIN, MAX and the reduction unit's winners are chosen (R136, R154), as a linear order (O59). -/

namespace Sys2Proof.Machine

/-! ### The order of values that are no NaN -/

namespace Val

/-- The class of a value that is no NaN: −∞, finite, +∞. -/
def side : Val → Int
  | .inf neg => if neg then -1 else 1
  | _ => 0

/-- The exponent of a finite value. -/
def exponent : Val → Int
  | .fin _ _ e => e
  | _ => 0

/-- A finite value's place among those with exponents from `base` on: twice its integer in units of 2^base, −0 one below +0. -/
def place (base : Int) : Val → Int
  | .fin neg m e => 2 * scaledInt neg m e base - ofBool (m == 0 && neg)
  | _ => 0

theorem scaledInt_eq (neg : Bool) (m : Nat) (e base : Int) :
    scaledInt neg m e base = (if neg then -(m : Int) else m) * 2 ^ (e - base).toNat := by
  have shifted : ((m <<< (e - base).toNat : Nat) : Int) = m * 2 ^ (e - base).toNat := by
    rw [Nat.shiftLeft_eq, Int.natCast_mul, Int.natCast_pow]
    rfl
  cases neg with
  | false => exact shifted
  | true => exact (congrArg Neg.neg shifted).trans (Int.neg_mul _ _).symm

/-- Smaller units multiply every integer alike. -/
theorem scaledInt_rebase (neg : Bool) (m : Nat) {e low base : Int} (lower : low ≤ base) (fits : base ≤ e) :
    scaledInt neg m e low = scaledInt neg m e base * 2 ^ (base - low).toNat := by
  have shift : (e - low).toNat = (e - base).toNat + (base - low).toNat := by omega
  rw [scaledInt_eq, scaledInt_eq, shift, Int.pow_add, Int.mul_assoc]

theorem scaledInt_eq_zero_iff (neg : Bool) (m : Nat) (e base : Int) : scaledInt neg m e base = 0 ↔ m = 0 := by
  have unit : (2 : Int) ^ (e - base).toNat ≠ 0 := Int.ne_of_gt (Int.pow_pos (by decide))
  rw [scaledInt_eq, Int.mul_eq_zero, or_iff_left unit]
  cases neg <;> simp

/-- `lt` compares the integers in any units that both values are whole in. -/
theorem lt_fin_iff (a b : Bool) (m n : Nat) {d e base : Int} (hd : base ≤ d) (he : base ≤ e) :
    (fin a m d).lt (fin b n e) = true ↔ scaledInt a m d base < scaledInt b n e base := by
  have both : base ≤ min d e := by omega
  rw [lt, decide_eq_true_iff, scaledInt_rebase a m both (by omega), scaledInt_rebase b n both (by omega)]
  exact (Int.mul_lt_mul_right (Int.pow_pos (by decide))).symm

/-- R136: among finite values, `below` is the order of the places. -/
theorem below_fin_iff (a b : Bool) (m n : Nat) {d e base : Int} (hd : base ≤ d) (he : base ≤ e) :
    below (fin a m d) (fin b n e) = true ↔ place base (fin a m d) < place base (fin b n e) := by
  have zeroA := scaledInt_eq_zero_iff a m d base
  have zeroB := scaledInt_eq_zero_iff b n e base
  simp only [below, Bool.or_eq_true, lt_fin_iff a b m n hd he, isZero, sign, place, Bool.and_eq_true, beq_iff_eq, Bool.not_eq_true']
  cases a <;> cases b
  all_goals
    simp only [ofBool, Bool.and_false, Bool.and_true, beq_iff_eq, Bool.false_eq_true, if_false, and_true, and_false, or_false, reduceCtorEq]
    repeat' split
    all_goals omega

/-- R136: `below` is the order of the classes, and of the places within the finite one. -/
theorem below_iff {a b : Val} (noNan : a.isNan = false) (noNan' : b.isNan = false) {base : Int} (ha : base ≤ a.exponent)
    (hb : base ≤ b.exponent) :
    below a b = true ↔ a.side < b.side ∨ a.side = b.side ∧ a.place base < b.place base := by
  match a, b with
  | .inf s, .inf t => cases s <;> cases t <;> simp [below, lt, isZero, side, place]
  | .inf s, .fin t n e => cases s <;> simp [below, lt, isZero, side, place]
  | .fin s m d, .inf t => cases t <;> simp [below, lt, isZero, side, place]
  | .fin s m d, .fin t n e =>
    simp only [side, Int.lt_irrefl, false_or, true_and]
    exact below_fin_iff s t m n ha hb

section
variable {a b c : Val} (ha : a.isNan = false) (hb : b.isNan = false) (hc : c.isNan = false)
include ha hb hc

theorem below_trans (ab : below a b = true) (bc : below b c = true) : below a c = true := by
  obtain ⟨base, la, lb, lc⟩ : ∃ base, base ≤ a.exponent ∧ base ≤ b.exponent ∧ base ≤ c.exponent :=
    ⟨min a.exponent (min b.exponent c.exponent), by omega⟩
  rw [below_iff ha hb la lb] at ab
  rw [below_iff hb hc lb lc] at bc
  rw [below_iff ha hc la lc]
  omega

/-- Of two values, one is not below the third or the other is not above it. -/
theorem below_or_below (ac : below a c = true) : below a b = true ∨ below b c = true := by
  obtain ⟨base, la, lb, lc⟩ : ∃ base, base ≤ a.exponent ∧ base ≤ b.exponent ∧ base ≤ c.exponent :=
    ⟨min a.exponent (min b.exponent c.exponent), by omega⟩
  rw [below_iff ha hc la lc] at ac
  rw [below_iff ha hb la lb, below_iff hb hc lb lc]
  omega

end

end Val

/-! ### Winners (R154) -/

/-- Element `x`, read after `best`, takes its place. -/
def takesOver (isMax : Bool) (best x : Nat × Val) : Bool := if isMax then below best.2 x.2 else below x.2 best.2

/-- The winner after one more element. -/
def nextBest (isMax : Bool) (best : Option (Nat × Val)) (x : Nat × Val) : Option (Nat × Val) :=
  some (best.elim x fun b => if takesOver isMax b x then x else b)

/-- The first of the equal winners of `xs`: it takes over from all before it, and nothing after it takes over. -/
def WinsIn (isMax : Bool) (xs : List (Nat × Val)) (w : Nat × Val) : Prop :=
  ∃ pre post, xs = pre ++ w :: post ∧ (∀ y ∈ pre, takesOver isMax y w = true) ∧ ∀ y ∈ post, takesOver isMax w y = false

section
variable {isMax : Bool} {xs : List (Nat × Val)}

theorem takesOver_trans {x y z : Nat × Val} (hx : x.2.isNan = false) (hy : y.2.isNan = false) (hz : z.2.isNan = false)
    (xy : takesOver isMax x y = true) (yz : takesOver isMax y z = true) : takesOver isMax x z = true := by
  cases isMax with
  | true => exact Val.below_trans hx hy hz xy yz
  | false => exact Val.below_trans hz hy hx yz xy

/-- What takes over from `w` takes over from all that `w` stood up to. -/
theorem takesOver_of_not {w y z : Nat × Val} (hw : w.2.isNan = false) (hy : y.2.isNan = false) (hz : z.2.isNan = false)
    (wy : takesOver isMax w y = false) (wz : takesOver isMax w z = true) : takesOver isMax y z = true := by
  have stands : ¬ takesOver isMax w y = true := Bool.eq_false_iff.1 wy
  cases isMax with
  | true => exact (Val.below_or_below hw hy hz wz).resolve_left stands
  | false => exact (Val.below_or_below hz hy hw wz).resolve_right stands

/-- One more element leaves the first of the equal winners in `w`'s place, or takes it over. -/
theorem WinsIn.next {w x : Nat × Val} (wins : WinsIn isMax xs w) (noNan : ∀ y ∈ xs ++ [x], y.2.isNan = false) :
    WinsIn isMax (xs ++ [x]) (if takesOver isMax w x then x else w) := by
  obtain ⟨before, last⟩ := List.forall_mem_append.1 noNan
  have xNotNan : x.2.isNan = false := last x List.mem_cons_self
  obtain ⟨pre, post, split, pre_w, w_post⟩ := wins
  have wNotNan : w.2.isNan = false := before w (by simp [split])
  cases ousts : takesOver isMax w x with
  | true =>
    refine ⟨xs, [], rfl, fun y mem => ?_, fun _ mem => absurd mem List.not_mem_nil⟩
    have yNotNan := before y mem
    rw [split] at mem
    rcases List.mem_append.1 mem with inPre | inRest
    · exact takesOver_trans yNotNan wNotNan xNotNan (pre_w y inPre) ousts
    · rcases List.mem_cons.1 inRest with rfl | inPost
      · exact ousts
      · exact takesOver_of_not wNotNan yNotNan xNotNan (w_post y inPost) ousts
  | false =>
    refine ⟨pre, post ++ [x], by simp [split], pre_w, fun y mem => ?_⟩
    rcases List.mem_append.1 mem with inPost | isLast
    · exact w_post y inPost
    · exact List.mem_singleton.1 isLast ▸ ousts

/-- The winner of what has been read, `xs`, and of the elements still to come. -/
theorem foldl_nextBest_some {w : Nat × Val} (wins : WinsIn isMax xs w) (rest : List (Nat × Val))
    (noNan : ∀ y ∈ xs ++ rest, y.2.isNan = false) :
    ∃ u, rest.foldl (nextBest isMax) (some w) = some u ∧ WinsIn isMax (xs ++ rest) u := by
  induction rest generalizing xs w with
  | nil => exact ⟨w, rfl, (List.append_nil xs).symm ▸ wins⟩
  | cons x rest ih =>
    rw [List.append_cons] at noNan ⊢
    exact ih (wins.next (List.forall_mem_append.1 noNan).1) noNan

theorem redBest_of_nan {pre post : List (Nat × Val)} {x : Nat × Val} (split : xs = pre ++ x :: post)
    (before : ∀ y ∈ pre, y.2.isNan = false) (nan : x.2.isNan = true) : redBest isMax xs = some x := by
  have found : xs.find? (fun x => x.2.isNan) = some x :=
    List.find?_eq_some_iff_append.2 ⟨nan, pre, post, split, fun y mem => by rw [before y mem]; rfl⟩
  rw [redBest, found]

section
variable (noNan : ∀ y ∈ xs, y.2.isNan = false)
include noNan

theorem redBest_of_no_nan : redBest isMax xs = xs.foldl (nextBest isMax) none := by
  have notFound : xs.find? (fun x => x.2.isNan) = none := List.find?_eq_none.2 fun y mem => by rw [noNan y mem]; exact Bool.false_ne_true
  rw [redBest, notFound]
  refine congrArg (fun step => List.foldl step none xs) (funext fun best => funext fun x => ?_)
  cases best with
  | none => rfl
  | some b => exact (apply_ite some _ _ _).symm

theorem foldl_nextBest (nonempty : xs ≠ []) : ∃ w, xs.foldl (nextBest isMax) none = some w ∧ WinsIn isMax xs w := by
  obtain ⟨x, rest, rfl⟩ := List.exists_cons_of_ne_nil nonempty
  have alone : WinsIn isMax [x] x :=
    ⟨[], [], rfl, fun _ mem => absurd mem List.not_mem_nil, fun _ mem => absurd mem List.not_mem_nil⟩
  exact foldl_nextBest_some alone rest noNan

theorem redBest_wins {w : Nat × Val} (best : redBest isMax xs = some w) : WinsIn isMax xs w := by
  rw [redBest_of_no_nan noNan] at best
  have nonempty : xs ≠ [] := fun empty => by simp [empty] at best
  obtain ⟨u, folded, wins⟩ := foldl_nextBest noNan nonempty
  exact Option.some.inj (folded.symm.trans best) ▸ wins

end

/-- A winner exists but in an empty set. -/
theorem redBest_eq_none_iff : redBest isMax xs = none ↔ xs = [] := by
  constructor
  · intro best
    refine Classical.byContradiction fun nonempty => ?_
    by_cases nan : ∃ y ∈ xs, y.2.isNan = true
    · obtain ⟨x, found⟩ := Option.isSome_iff_exists.1 (List.find?_isSome.2 nan)
      rw [redBest, found] at best
      exact Option.some_ne_none x best
    · have noNan : ∀ y ∈ xs, y.2.isNan = false := fun y mem => Bool.eq_false_iff.2 fun isNan => nan ⟨y, mem, isNan⟩
      obtain ⟨w, folded, -⟩ := foldl_nextBest (isMax := isMax) noNan nonempty
      rw [redBest_of_no_nan noNan, folded] at best
      exact Option.some_ne_none w best
  · rintro rfl
    rfl

end
end Sys2Proof.Machine

open Sys2Proof Sys2Proof.Machine

/-- Settles O59: each engine's results by the lemmas of its own part above. -/
theorem enginesCompute : Obligations.EnginesCompute := by
  refine ⟨fun ff ftz a b c _ => ?floats, fun a b c => ?ints, fun ff ftz first carry xs => ?scans, fun carry xs ys => ?intScans,
    fun ftz sq x y a b ms => ?sums, fun sq xs => ?intSums, fun o ftz len xs op fmt => RedOp.reduce_count len xs op fmt, fun isMax xs => ?winners⟩
  case floats =>
    refine ⟨vopFloat_of_nan, fun x y => ?zeros, vopFloat_comm ff ftz a b c, fun neg m e _ x y => ?opposite, ?fused⟩
    case zeros =>
      obtain ⟨s, d, x⟩ := Val.isZero_iff.1 x
      obtain ⟨t, e, y⟩ := Val.isZero_iff.1 y
      simp only [x, y, Val.sign]
      exact vopFloat_of_zeros x y
    case opposite =>
      simp only [vopFloat_add, FloatFmt.operand_opposite x y]
      rfl
    case fused =>
      rintro rfl
      exact ⟨vopFloat_fma ff a b c, vopFloat_fnma ff a b c⟩
  case ints =>
    refine ⟨fun op t row => ?_, fun inWord => ⟨vopInt_sar a b c, vopInt_shr a b c⟩, ?logic⟩
    · rw [vopInt_eq_clamped row]
      exact ⟨clamped_value t, clamped_lt t, clamped_flags t⟩
    case logic =>
      simp only [List.forall_mem_cons, List.not_mem_nil, false_implies, implies_true, and_true]
      exact ⟨rfl, rfl, rfl, rfl, rfl⟩
  case scans =>
    have keeps := scanLevels_keeps ff ftz xs
    have pos (nonempty : xs ≠ []) : 0 < xs.length := List.length_pos_iff.2 nonempty
    refine ⟨scanChunk_length .., fun j inside start => ?start, fun nonempty isFirst => ?first, fun nonempty isLater noStart => ?carried,
      fun fl d j => scanLevel_getD ff ftz xs fl d j⟩
    case start =>
      rw [scanChunk_getD ff ftz first carry xs inside, keeps.starts j inside start]
      simp only [start, Bool.not_true, Bool.and_false, Bool.false_eq_true, if_false]
    case first =>
      rw [scanChunk_getD ff ftz first carry xs (pos nonempty), keeps.first, isFirst]
      rfl
    case carried =>
      rw [scanChunk_getD ff ftz first carry xs (pos nonempty), keeps.first, isLater]
      simp only [noStart, Bool.not_false, Bool.and_true, if_true]
  case intScans =>
    exact ⟨scanChunkInt_append carry xs ys, scanChunkInt_of_no_start carry, fun n => scanChunkInt_start carry n xs⟩
  case sums =>
    exact ⟨redFloat_tree a b x y, redFloat_absent_member a x, redFloat_square_pair x y,
      fun full present => redFloat_next_chunk full (List.any_eq_true.2 present) x, redFloat_absent⟩
  case intSums =>
    rw [redInt_eq_clamped]
    exact ⟨clamped_value _, clamped_flags _⟩
  case winners =>
    exact ⟨redBest_eq_none_iff, fun pre post x => redBest_of_nan, fun w noNan best => redBest_wins noNan best⟩
end

section
/-! SUPPORT. What an instruction that acts in its core alone does there (O4). -/

namespace Sys2Proof.Machine

namespace State.OnlyCore

variable {p : Fin 20} {k : Fin 128} {s t : State}

section
variable (h : s.OnlyCore p t)
include h

theorem modCore (f : Core → Core) : s.OnlyCore p (t.modCore p f) :=
  { h with others := fun q hq => (State.core_modCore_ne _ hq _).trans (h.others q hq) }

theorem modV (f : VCore → VCore) : s.OnlyCore p (t.modV p f) := h.modCore _

theorem modStrand (f : Strand → Strand) : s.OnlyCore p (t.modStrand p k f) := h.modV _

theorem commit (n : Nat) : s.OnlyCore p (t.commit p k n) := h.modStrand _

theorem fault (code opcode info : Nat) : s.OnlyCore p (t.fault p k code opcode info) := h.modCore _

theorem advance (n : Nat) : s.OnlyCore p (t.advance p n) := State.advance_closed (State.onlyCore_closed p s) h

theorem readNow (accs : List Access) : s.OnlyCore p (t.readNow p accs) := State.readNow_closed (State.onlyCore_closed p s) h

theorem arrive (accs : List Access) : s.OnlyCore p (t.arrive p accs) := State.arrive_closed (State.onlyCore_closed p s) h

theorem leave (accs : List Access) : s.OnlyCore p (t.leave p accs) := State.leave_closed (State.onlyCore_closed p s) h

theorem noteToken (o : TokenOp) : s.OnlyCore p (t.noteToken p o) := State.noteToken_closed (State.onlyCore_closed p s) h

theorem failIssue (fault : Nat × Nat) (opcode n : Nat) (dst : List Access) : s.OnlyCore p (t.failIssue p k fault opcode n dst) :=
  (((State.onlyCore_closed p s).fresh (h.fault (k := k) _ _ _)).modCore _).commit n

/-- The instruction of class V marks its virtual core and the job (R190, R266). -/
theorem noteClassV : s.OnlyCore p (t.noteClassV p) :=
  { h.modV fun v => { v with vIssued := true } with
    job := .inr <| by rcases h.job with same | tainted <;> simp [State.noteClassV, State.modV, *] }

/-- Differing MIGRATE points are a fault of the core (R197). -/
theorem checkPoints (opcode : Nat) (pc : BitVec 16) : s.OnlyCore p (t.checkPoints p k opcode pc) := by
  unfold State.checkPoints
  dsimp only
  split
  · exact h
  · split
    · exact h
    · split
      · exact h.modCore _
      · exact h

theorem audit {opcode : Nat} {reads writes : List Access} {go : State → State} (goes : ∀ u, s.OnlyCore p u → s.OnlyCore p (go u)) :
    s.OnlyCore p (t.audit p k opcode reads writes go) := State.audit_closed (State.onlyCore_closed p s) h goes

theorem toLane {l : LaneId} {q : QInstr} {n : Nat} {reads : List Access} {go : State → State}
    (goes : ∀ u, s.OnlyCore p u → s.OnlyCore p (go u)) : s.OnlyCore p (t.toLane p l q n reads go) :=
  State.toLane_closed (State.onlyCore_closed p s) h goes

theorem issueLoad (w : IWord) (v : VCore) (st : Strand) (n : Nat) : s.OnlyCore p (t.issueLoad p k w v st n) := by
  unfold State.issueLoad
  dsimp only
  split
  · exact h.fault _ _ _
  · split
    · exact (h.modV _).commit _
    · exact h.toLane fun u hu => (hu.modV _).commit _

theorem issuePass (w : IWord) (counted : Bool) (v : VCore) (st : Strand) (n : Nat) :
    s.OnlyCore p (t.issuePass p k w counted v st n) := by
  have read (accs : List Access) := h.readNow accs
  unfold State.issuePass
  dsimp only
  split
  · exact h.fault _ _ _
  · split
    · exact ((read _).modV _).failIssue _ _ _ _
    · refine closed_ite ((read _).fault _ _ _) ?_
      split
      · exact (read _).fault _ _ _
      · exact (read _).toLane fun u hu => (closed_ite hu (hu.modV _)).commit _

end
end State.OnlyCore

/-- Whatever state an outcome answers, it differs from `s` only in core `p`. -/
def State.Confines (p : Fin 20) (s : State) (o : Host.Outcome State Fault Refusal) : Prop := ∀ t, o = .next t → s.OnlyCore p t

section
variable {p : Fin 20} {k : Fin 128} {s t : State} {w : IWord} {classV : Bool} {engine : Engine} {checks : Core → VCore → Strand → List EncCheck}

theorem State.confines_next (h : s.OnlyCore p t) : s.Confines p (.next t) := fun _ e => by
  cases e
  exact h

theorem State.confines_ite {c : Prop} [Decidable c] {o o' : Host.Outcome State Fault Refusal} (h : s.Confines p o) (h' : s.Confines p o') :
    s.Confines p (if c then o else o') := by
  split
  · exact h
  · exact h'

/-- Issue waits, or raises a fault of the core, or does in the issue cycle what the instruction itself does. -/
theorem State.issue_confines {body : State → VCore → Strand → Nat → State}
    (does : ∀ u v st n, s.OnlyCore p u → s.OnlyCore p (body u v st n)) : s.Confines p (s.issue p k w classV engine checks body) := by
  have on (n : Nat) := s.advance_only p n
  have waits : s.Confines p (.next s) := confines_next (.refl p s)
  unfold State.issue
  dsimp only
  split
  · exact waits
  · refine confines_ite waits (confines_ite (confines_next ((on _).fault _ _ _)) ?_)
    split
    · exact confines_next ((on _).fault _ _ _)
    · exact confines_ite (confines_next ((on _).fault _ _ _)) (confines_next (does _ _ _ _ (on _)))

/-- An instruction that reads nothing at issue enters its lane. -/
theorem State.issue_lane_confines (l : LaneId) : s.Confines p (s.issue p k w classV engine checks fun u v st n =>
    u.toLane p l (.of st k w v.stepTag [] 0 none) n [] fun u => u.commit p k n) :=
  issue_confines fun _ _ _ _ hu => hu.toLane fun _ hx => hx.commit _

end

/-! ### The instructions one by one -/

section
variable (p : Fin 20) (k : Fin 128) (ops : BitVec 118) (s : State)

theorem exec_br_confines : s.Confines p (exec (.br p k ops) s) := by
  rw [exec_br, execBr]
  exact State.issue_confines fun _ _ _ _ hu => hu.modStrand _

theorem exec_loop_confines : s.Confines p (exec (.loop p k ops) s) := by
  rw [exec_loop, execLoop]
  exact State.issue_confines fun _ _ _ _ hu => hu.modStrand _

theorem exec_xset_confines : s.Confines p (exec (.xset p k ops) s) := by
  rw [exec_xset, execXset]
  exact State.issue_confines fun _ _ _ _ hu => hu.modStrand _

theorem exec_xadd_confines : s.Confines p (exec (.xadd p k ops) s) := by
  rw [exec_xadd, execXadd]
  exact State.issue_confines fun _ _ _ _ hu => hu.modStrand _

theorem exec_migrate_confines : s.Confines p (exec (.migrate p k ops) s) := by
  rw [exec_migrate, execMigrate]
  exact State.issue_confines fun _ _ _ _ hu => (hu.modStrand _).checkPoints _ _

theorem exec_claim_confines : s.Confines p (exec (.claim p k ops) s) := by
  rw [exec_claim, execClaim]
  exact State.issue_confines fun _ _ _ _ hu => hu.modStrand _

theorem exec_release_confines : s.Confines p (exec (.release p k ops) s) := by
  rw [exec_release, execRelease]
  refine State.issue_confines fun _ _ _ _ hu => ?_
  dsimp only
  split
  · exact hu.fault _ _ _
  · exact (hu.modCore _).modStrand _

theorem exec_tsig_confines : s.Confines p (exec (.tsig p k ops) s) := by
  rw [exec_tsig, execTsig]
  exact State.issue_confines fun _ _ _ _ hu => ((hu.noteToken _).modCore _).commit _

theorem exec_twait_confines : s.Confines p (exec (.twait p k ops) s) := by
  rw [exec_twait, execTwait]
  exact State.issue_confines fun _ _ _ _ hu => hu.modStrand _

theorem exec_mpass_confines : s.Confines p (exec (.mpass p k ops) s) := by
  rw [exec_mpass, execMpass]
  exact State.issue_confines fun _ _ _ _ hu => hu.issuePass _ _ _ _ _

theorem exec_mpassP_confines : s.Confines p (exec (.mpassP p k ops) s) := by
  rw [exec_mpassP, execMpassP]
  exact State.issue_confines fun _ _ _ _ hu => hu.issuePass _ _ _ _ _

theorem exec_broadcastMload_confines : s.Confines p (exec (.broadcastMload p k ops) s) := by
  rw [exec_broadcastMload, execBroadcastMload]
  exact State.issue_confines fun _ _ _ _ hu => hu.issueLoad _ _ _ _

theorem exec_wavefrontMload_confines : s.Confines p (exec (.wavefrontMload p k ops) s) := by
  rw [exec_wavefrontMload, execWavefrontMload]
  exact State.issue_confines fun _ _ _ _ hu => hu.issueLoad _ _ _ _

theorem exec_vop_confines : s.Confines p (exec (.vop p k ops) s) := by
  rw [exec_vop, execVop]
  exact State.issue_lane_confines _

theorem exec_vscan_confines : s.Confines p (exec (.vscan p k ops) s) := by
  rw [exec_vscan, execVscan]
  exact State.issue_lane_confines _

theorem exec_vgath_confines : s.Confines p (exec (.vgath p k ops) s) := by
  rw [exec_vgath, execVgath]
  exact State.issue_lane_confines _

theorem exec_vscat_confines : s.Confines p (exec (.vscat p k ops) s) := by
  rw [exec_vscat, execVscat]
  exact State.issue_lane_confines _

theorem exec_red_confines : s.Confines p (exec (.red p k ops) s) := by
  rw [exec_red, execRed]
  exact State.issue_lane_confines _

theorem exec_mswap_confines : s.Confines p (exec (.mswap p k ops) s) := by
  rw [exec_mswap, execMswap]
  exact State.issue_confines fun _ _ _ _ hu => (hu.modCore _).commit _

theorem exec_mdrain_confines : s.Confines p (exec (.mdrain p k ops) s) := by
  rw [exec_mdrain, execMdrain]
  refine State.issue_confines fun u v st n hu => ?_
  have read (accs : List Access) := hu.readNow accs
  dsimp only
  split
  · exact hu.fault _ _ _
  · split
    · exact (read _).failIssue _ _ _ _
    · split
      · exact (read _).fault _ _ _
      · split
        · exact (read _).fault _ _ _
        · split
          · exact (read _).fault _ _ _
          · exact (read _).toLane fun _ hx => hx.commit _

theorem exec_vcvt_confines : s.Confines p (exec (.vcvt p k ops) s) := by
  rw [exec_vcvt, execVcvt]
  refine State.issue_confines fun u v st n hu => ?_
  have read (accs : List Access) := hu.readNow accs
  dsimp only
  split
  · exact hu.fault _ _ _
  · split
    · exact (read _).failIssue _ _ _ _
    · refine closed_ite ((read _).fault _ _ _) ?_
      split
      · exact (read _).fault _ _ _
      · exact (read _).toLane fun _ hx => hx.commit _

theorem exec_vtrn_confines : s.Confines p (exec (.vtrn p k ops) s) := by
  rw [exec_vtrn, execVtrn]
  refine State.issue_confines fun u v st n hu => ?_
  dsimp only
  split
  · exact hu.fault _ _ _
  · exact hu.toLane fun _ hx => hx.commit _

theorem exec_rngmask_confines : s.Confines p (exec (.rngmask p k ops) s) := by
  rw [exec_rngmask, execRngmask]
  refine State.issue_confines fun u v st n hu => ?_
  have read (accs : List Access) := hu.readNow accs
  dsimp only
  split
  · exact hu.fault _ _ _
  · split
    · exact (read _).failIssue _ _ _ _
    · exact (read _).toLane fun _ hx => hx.commit _

theorem exec_scataddU_confines : s.Confines p (exec (.scataddU p k ops) s) := by
  rw [exec_scataddU, execScataddU]
  exact State.issue_confines fun _ _ _ _ hu => hu.toLane fun _ hx => hx.noteClassV.commit _

theorem exec_chkset_confines : s.Confines p (exec (.chkset p k ops) s) := by
  rw [exec_chkset, execChkset]
  refine State.issue_confines fun u v st n hu => ?_
  have read (accs : List Access) := hu.readNow accs
  dsimp only
  split
  · exact hu.fault _ _ _
  · split
    · exact (read _).fault _ _ _
    · refine (read _).audit fun x hx => ?_
      split
      · exact hx.fault _ _ _
      · exact (hx.modV _).commit _

theorem exec_cntrdU_confines : s.Confines p (exec (.cntrdU p k ops) s) := by
  rw [exec_cntrdU, execCntrdU]
  refine State.issue_confines fun u v st n hu => ?_
  dsimp only
  split
  · exact hu.fault _ _ _
  · exact hu.audit fun _ hx => (((hx.arrive _).modCore _).leave _).noteClassV.commit _

end

theorem issued_eq {p q : Fin 20} {k j : Fin 128} {w x : IWord} (row : some (q, j, x) = some (p, k, w)) : q = p ∧ j = k ∧ x = w := by
  simpa using row

/-- Table 6.3: the instructions that act in their core alone. -/
theorem exec_confines {i : Instr} {p : Fin 20} {k : Fin 128} {w : IWord} (s : State) (row : issued i = some (p, k, w))
    (inside : inCore i = true) : s.Confines p (exec i s) := by
  cases i with
  | br => obtain ⟨rfl, rfl, -⟩ := issued_eq row; exact exec_br_confines _ _ _ _
  | loop => obtain ⟨rfl, rfl, -⟩ := issued_eq row; exact exec_loop_confines _ _ _ _
  | xset => obtain ⟨rfl, rfl, -⟩ := issued_eq row; exact exec_xset_confines _ _ _ _
  | xadd => obtain ⟨rfl, rfl, -⟩ := issued_eq row; exact exec_xadd_confines _ _ _ _
  | migrate => obtain ⟨rfl, rfl, -⟩ := issued_eq row; exact exec_migrate_confines _ _ _ _
  | claim => obtain ⟨rfl, rfl, -⟩ := issued_eq row; exact exec_claim_confines _ _ _ _
  | release => obtain ⟨rfl, rfl, -⟩ := issued_eq row; exact exec_release_confines _ _ _ _
  | tsig => obtain ⟨rfl, rfl, -⟩ := issued_eq row; exact exec_tsig_confines _ _ _ _
  | twait => obtain ⟨rfl, rfl, -⟩ := issued_eq row; exact exec_twait_confines _ _ _ _
  | mpass => obtain ⟨rfl, rfl, -⟩ := issued_eq row; exact exec_mpass_confines _ _ _ _
  | mpassP => obtain ⟨rfl, rfl, -⟩ := issued_eq row; exact exec_mpassP_confines _ _ _ _
  | broadcastMload => obtain ⟨rfl, rfl, -⟩ := issued_eq row; exact exec_broadcastMload_confines _ _ _ _
  | wavefrontMload => obtain ⟨rfl, rfl, -⟩ := issued_eq row; exact exec_wavefrontMload_confines _ _ _ _
  | mswap => obtain ⟨rfl, rfl, -⟩ := issued_eq row; exact exec_mswap_confines _ _ _ _
  | mdrain => obtain ⟨rfl, rfl, -⟩ := issued_eq row; exact exec_mdrain_confines _ _ _ _
  | vop => obtain ⟨rfl, rfl, -⟩ := issued_eq row; exact exec_vop_confines _ _ _ _
  | vscan => obtain ⟨rfl, rfl, -⟩ := issued_eq row; exact exec_vscan_confines _ _ _ _
  | vgath => obtain ⟨rfl, rfl, -⟩ := issued_eq row; exact exec_vgath_confines _ _ _ _
  | vscat => obtain ⟨rfl, rfl, -⟩ := issued_eq row; exact exec_vscat_confines _ _ _ _
  | red => obtain ⟨rfl, rfl, -⟩ := issued_eq row; exact exec_red_confines _ _ _ _
  | vcvt => obtain ⟨rfl, rfl, -⟩ := issued_eq row; exact exec_vcvt_confines _ _ _ _
  | vtrn => obtain ⟨rfl, rfl, -⟩ := issued_eq row; exact exec_vtrn_confines _ _ _ _
  | rngmask => obtain ⟨rfl, rfl, -⟩ := issued_eq row; exact exec_rngmask_confines _ _ _ _
  | scataddU => obtain ⟨rfl, rfl, -⟩ := issued_eq row; exact exec_scataddU_confines _ _ _ _
  | chkset => obtain ⟨rfl, rfl, -⟩ := issued_eq row; exact exec_chkset_confines _ _ _ _
  | cntrdU => obtain ⟨rfl, rfl, -⟩ := issued_eq row; exact exec_cntrdU_confines _ _ _ _
  | _ => cases inside

end Sys2Proof.Machine

open Sys2Proof Sys2Proof.Machine

/-- Settles O4: row by row, by what issue leaves outside the core. -/
theorem instructionsStayInTheirCore : Obligations.InstructionsStayInTheirCore := fun _ _ _ _ s t row inside runs =>
  exec_confines s row inside t runs
end

section
/-! SUPPORT. Which rule of an encoding is reported, and what every word that a strand fetches goes through (O5, O8). -/

namespace Sys2Proof.Machine

/-! ### Rules of an encoding -/

theorem firstBad_eq_min? (cs : List EncCheck) : firstBad cs = ((cs.filter fun c => !c.1).map (·.2)).min? := by
  unfold firstBad
  cases cs.filter fun c => !c.1 with
  | nil => rfl
  | cons c rest => rw [List.map_cons, List.min?_cons', List.foldl_map]

theorem firstBad_eq_none_iff {cs : List EncCheck} : firstBad cs = none ↔ ∀ c ∈ cs, c.1 = true := by
  simp [firstBad_eq_min?]

/-- R180: of several offending bits the lowest is reported. -/
theorem firstBad_eq_some {cs : List EncCheck} {n : Nat} (broken : (false, n) ∈ cs) (lowest : ∀ m, (false, m) ∈ cs → n ≤ m) :
    firstBad cs = some n := by
  rw [firstBad_eq_min?, List.min?_eq_some_iff]
  simpa using ⟨broken, lowest⟩

/-- R184: X0 is no register to set. -/
theorem firstBad_of_x0 {w : IWord} (xd : fld w 24 3 = 0) (class0 : flag w 10 = false) (spare : fld w 19 5 = 0) :
    firstBad (commonChecks w false ++ [(fld w 24 3 != 0, 24), resvFrom w 59]) = some 24 := by
  refine firstBad_eq_some ?_ fun m broken => ?_
  · simp [xd]
  · simp [commonChecks, xd, class0, spare, resvFrom] at broken
    omega

/-- A rule of a legal word holds. -/
theorem State.Runs.check {s : State} {p : Fin 20} {k : Fin 128} {w : IWord} {v : VCore} {t : Nat} {classV : Bool} {engine : Engine}
    {checks : Core → VCore → Strand → List EncCheck} (runs : s.Runs p k w v t classV engine checks) {c : EncCheck}
    (rule : c ∈ checks ((s.advance p t).core p) (s.vcoreAt p v t) v.strands[k]) : c.1 = true :=
  have ⟨_, legal⟩ := runs
  firstBad_eq_none_iff.1 legal.encoding c (List.mem_append_right _ rule)

/-! ### Index registers (R163) -/

theorem xreg_of_ne_zero {x : Vector Word 7} {i : Nat} (h : i ≠ 0) : xreg x i = x[i - 1]! := if_neg h

theorem setXreg_of_ne_zero {x : Vector Word 7} {i : Nat} (h : i ≠ 0) (v : Word) : setXreg x i v = x.set! (i - 1) v := if_neg h

/-! ### Fetched words -/

section
variable {s : State} {p : Fin 20} {k : Fin 128} {w : IWord}

/-- The fault of an illegal encoding names the word's opcode. -/
theorem State.issue_reports {v : VCore} {t op pos : Nat} {classV : Bool} {engine : Engine} {checks : Core → VCore → Strand → List EncCheck}
    {body : State → VCore → Strand → Nat → State} (opcode : fld w 0 10 = op) (issues : s.Issues p k w v t)
    (inCode : v.strands[k].pc.toNat < (s.vcoreAt p v t).codeLen)
    (bad : firstBad (commonChecks w classV ++ checks ((s.advance p t).core p) (s.vcoreAt p v t) v.strands[k]) = some pos) :
    s.issue p k w classV engine checks body = .next ((s.advance p t).fault p k 1 op pos) :=
  opcode ▸ State.issue_illegal issues inCode bad

/-- The outcome is that of issuing the word `w`, whatever the word does then. -/
def State.Fetches (s : State) (p : Fin 20) (k : Fin 128) (w : IWord) (o : Host.Outcome State Fault Refusal) : Prop :=
  ∃ classV engine checks body, o = s.issue p k w classV engine checks body

theorem State.issue_fetches (classV : Bool) (engine : Engine) (checks : Core → VCore → Strand → List EncCheck)
    (body : State → VCore → Strand → Nat → State) : s.Fetches p k w (s.issue p k w classV engine checks body) := ⟨_, _, _, _, rfl⟩

/-- Table 6.3: every row is fetched. -/
theorem exec_row_fetches {i : Instr} (row : issued i = some (p, k, w)) : s.Fetches p k w (exec i s) := by
  cases i with
  | halt => obtain ⟨rfl, rfl, rfl⟩ := issued_eq row; rw [exec_halt, execHalt]; exact State.issue_fetches _ _ _ _
  | br => obtain ⟨rfl, rfl, rfl⟩ := issued_eq row; rw [exec_br, execBr]; exact State.issue_fetches _ _ _ _
  | loop => obtain ⟨rfl, rfl, rfl⟩ := issued_eq row; rw [exec_loop, execLoop]; exact State.issue_fetches _ _ _ _
  | xset => obtain ⟨rfl, rfl, rfl⟩ := issued_eq row; rw [exec_xset, execXset]; exact State.issue_fetches _ _ _ _
  | xadd => obtain ⟨rfl, rfl, rfl⟩ := issued_eq row; rw [exec_xadd, execXadd]; exact State.issue_fetches _ _ _ _
  | step => obtain ⟨rfl, rfl, rfl⟩ := issued_eq row; rw [exec_step, execStep]; exact State.issue_fetches _ _ _ _
  | migrate => obtain ⟨rfl, rfl, rfl⟩ := issued_eq row; rw [exec_migrate, execMigrate]; exact State.issue_fetches _ _ _ _
  | claim => obtain ⟨rfl, rfl, rfl⟩ := issued_eq row; rw [exec_claim, execClaim]; exact State.issue_fetches _ _ _ _
  | release => obtain ⟨rfl, rfl, rfl⟩ := issued_eq row; rw [exec_release, execRelease]; exact State.issue_fetches _ _ _ _
  | tsig => obtain ⟨rfl, rfl, rfl⟩ := issued_eq row; rw [exec_tsig, execTsig]; exact State.issue_fetches _ _ _ _
  | twait => obtain ⟨rfl, rfl, rfl⟩ := issued_eq row; rw [exec_twait, execTwait]; exact State.issue_fetches _ _ _ _
  | mpass => obtain ⟨rfl, rfl, rfl⟩ := issued_eq row; rw [exec_mpass, execMpass]; exact State.issue_fetches _ _ _ _
  | mpassP => obtain ⟨rfl, rfl, rfl⟩ := issued_eq row; rw [exec_mpassP, execMpassP]; exact State.issue_fetches _ _ _ _
  | broadcastMload => obtain ⟨rfl, rfl, rfl⟩ := issued_eq row; rw [exec_broadcastMload, execBroadcastMload]; exact State.issue_fetches _ _ _ _
  | wavefrontMload => obtain ⟨rfl, rfl, rfl⟩ := issued_eq row; rw [exec_wavefrontMload, execWavefrontMload]; exact State.issue_fetches _ _ _ _
  | mswap => obtain ⟨rfl, rfl, rfl⟩ := issued_eq row; rw [exec_mswap, execMswap]; exact State.issue_fetches _ _ _ _
  | mdrain => obtain ⟨rfl, rfl, rfl⟩ := issued_eq row; rw [exec_mdrain, execMdrain]; exact State.issue_fetches _ _ _ _
  | vop => obtain ⟨rfl, rfl, rfl⟩ := issued_eq row; rw [exec_vop, execVop]; exact State.issue_fetches _ _ _ _
  | vcvt => obtain ⟨rfl, rfl, rfl⟩ := issued_eq row; rw [exec_vcvt, execVcvt]; exact State.issue_fetches _ _ _ _
  | vscan => obtain ⟨rfl, rfl, rfl⟩ := issued_eq row; rw [exec_vscan, execVscan]; exact State.issue_fetches _ _ _ _
  | vtrn => obtain ⟨rfl, rfl, rfl⟩ := issued_eq row; rw [exec_vtrn, execVtrn]; exact State.issue_fetches _ _ _ _
  | vgath => obtain ⟨rfl, rfl, rfl⟩ := issued_eq row; rw [exec_vgath, execVgath]; exact State.issue_fetches _ _ _ _
  | vscat => obtain ⟨rfl, rfl, rfl⟩ := issued_eq row; rw [exec_vscat, execVscat]; exact State.issue_fetches _ _ _ _
  | rngmask => obtain ⟨rfl, rfl, rfl⟩ := issued_eq row; rw [exec_rngmask, execRngmask]; exact State.issue_fetches _ _ _ _
  | red => obtain ⟨rfl, rfl, rfl⟩ := issued_eq row; rw [exec_red, execRed]; exact State.issue_fetches _ _ _ _
  | scmd => obtain ⟨rfl, rfl, rfl⟩ := issued_eq row; rw [exec_scmd, execScmd]; exact State.issue_fetches _ _ _ _
  | chkset => obtain ⟨rfl, rfl, rfl⟩ := issued_eq row; rw [exec_chkset, execChkset]; exact State.issue_fetches _ _ _ _
  | scataddU => obtain ⟨rfl, rfl, rfl⟩ := issued_eq row; rw [exec_scataddU, execScataddU]; exact State.issue_fetches _ _ _ _
  | csumU => obtain ⟨rfl, rfl, rfl⟩ := issued_eq row; rw [exec_csumU, execCsumU]; exact State.issue_fetches _ _ _ _
  | cntrdU => obtain ⟨rfl, rfl, rfl⟩ := issued_eq row; rw [exec_cntrdU, execCntrdU]; exact State.issue_fetches _ _ _ _
  | _ => cases row

/-- R180: a word that no row spells goes through issue, with a rule that it breaks. -/
theorem execReservedOpcode_issues (reserved : reservedWord w = true) :
    let wtap := fld w 0 10 == 0x061 && fld w 27 2 == 3
    execReservedOpcode p k w s =
      s.issue p k w (flag w 10 && !wtap) .none (fun _ _ _ => [(false, if wtap then 27 else 0)]) fun s _ _ _ => s := by
  have spelt : (definedOpcodes.contains (fld w 0 10) && !(fld w 0 10 == 0x061 && fld w 27 2 == 3)) = false := by
    change (!(definedOpcodes.contains (fld w 0 10)) || (fld w 0 10 == 0x061 && fld w 27 2 == 3)) = true at reserved
    rcases Bool.or_eq_true_iff.1 reserved with unspelt | wtap
    · rw [Bool.not_eq_true'] at unspelt
      rw [unspelt, Bool.false_and]
    · rw [wtap, Bool.not_true, Bool.and_false]
  exact if_neg (by rw [Bool.not_eq_true]; exact spelt)

end

end Sys2Proof.Machine

open Sys2Proof Sys2Proof.Machine

/-- Settles O5: each instruction by what its issue comes to; a fetch outside the code section by the first fault of issue. -/
theorem controlInstructions : Obligations.ControlInstructions := by
  intro s p k ops v t
  refine ⟨?br, ?xset, ?xadd, ?loop, fun i w spells issues outside => ?outside⟩
  case br =>
    intro w z runs
    rw [exec_br, execBr, State.issue_of_runs runs _]
    simp only [Bool.or_eq_true, Bool.and_eq_true, Bool.not_eq_true', beq_iff_eq, beq_eq_false_iff_ne, or_assoc]
    rfl
  case xset =>
    intro w runs
    have xd : fld w 24 3 ≠ 0 := bne_iff_ne.1 (runs.check List.mem_cons_self)
    rw [exec_xset, execXset, State.issue_of_runs runs _]
    simp only [← setXreg_of_ne_zero xd]
    rfl
  case xadd =>
    intro w runs
    have xd : fld w 24 3 ≠ 0 := bne_iff_ne.1 (runs.check List.mem_cons_self)
    rw [exec_xadd, execXadd, State.issue_of_runs runs _]
    simp only [← setXreg_of_ne_zero xd, ← xreg_of_ne_zero xd]
    rfl
  case loop =>
    intro w lc remaining runs
    rw [exec_loop, execLoop]
    exact State.issue_of_runs runs _
  case outside =>
    rcases spells with row | ⟨rfl, rfl⟩ | ⟨rfl, rfl⟩ | ⟨rfl, rfl⟩ | ⟨rfl, reserved⟩
    · obtain ⟨_, _, _, _, runs⟩ := exec_row_fetches (s := s) row
      exact runs.trans (State.issue_outside issues outside)
    · rw [exec_wtapStart, execWtapStart, State.issueWtap]
      exact State.issue_outside issues outside
    · rw [exec_wtapFeed, execWtapFeed, State.issueWtap]
      exact State.issue_outside issues outside
    · rw [exec_wtapFinish, execWtapFinish, State.issueWtap]
      exact State.issue_outside issues outside
    · rw [exec_reservedOpcode, execReservedOpcode_issues reserved]
      exact State.issue_outside issues outside

/-- Settles O8: in each case the rules that the word breaks, and the lowest of their positions. -/
theorem illegalEncodings : Obligations.IllegalEncodings := by
  intro s p k v t
  refine ⟨fun word unspelt issues inCode => ?unspelt, fun word op wop class0 spare issues inCode => ?wtap, fun ops => ?xset, fun ops => ?xadd⟩
  case unspelt =>
    have known : definedOpcodes.contains (fld word 0 10) = false := by simpa using fun mem => unspelt _ mem rfl
    have reserved : reservedWord word = true := by
      change (!(definedOpcodes.contains (fld word 0 10)) || _) = true
      rw [known, Bool.not_false, Bool.true_or]
    have notWtap : fld word 0 10 ≠ 0x061 := unspelt _ (by decide)
    rw [exec_reservedOpcode, execReservedOpcode_issues reserved]
    refine State.issue_illegal issues inCode (firstBad_eq_some ?_ fun _ _ => Nat.zero_le _)
    simp [notWtap]
  case wtap =>
    have reserved : reservedWord word = true := by
      change (_ || (fld word 0 10 == 0x061 && fld word 27 2 == 3)) = true
      rw [op, wop]
      exact Bool.or_true _
    rw [exec_reservedOpcode, execReservedOpcode_issues reserved]
    refine State.issue_reports op issues inCode (firstBad_eq_some ?_ fun m broken => ?_)
    · simp [op, wop]
    · simp [commonChecks, op, wop, class0, spare] at broken
      omega
  case xset =>
    intro w xd class0 spare issues inCode
    rw [exec_xset, execXset]
    refine State.issue_reports (fld_wordOf ops 0x004) issues inCode ?_
    exact firstBad_of_x0 xd class0 spare
  case xadd =>
    intro w xd class0 spare issues inCode
    rw [exec_xadd, execXadd]
    refine State.issue_reports (fld_wordOf ops 0x005) issues inCode ?_
    exact firstBad_of_x0 xd class0 spare
end

section
/-! SUPPORT. A STEP on its core, and changes of the token counters (O6). -/

namespace Sys2Proof.Machine

/-! ### The virtual core of a core -/

/-- Core `p` holds `v`, and every other core is as in `s`. -/
structure State.Seats (p : Fin 20) (v : VCore) (s t : State) : Prop where
  resident : (t.core p).v = some v
  others : ∀ q, q ≠ p → t.core q = s.core q

namespace State.Seats

variable {p : Fin 20} {v : VCore} {s t u : State} (h : s.Seats p v t)
include h

theorem of_cores (same : u.cores = t.cores) : s.Seats p v u where
  resident := (State.core_of_cores same p) ▸ h.resident
  others q hq := (State.core_of_cores same q).trans (h.others q hq)

theorem modCore {f : Core → Core} (keeps : ∀ c, (f c).v = c.v) : s.Seats p v (t.modCore p f) where
  resident := by rw [State.core_modCore, keeps, h.resident]
  others q hq := (State.core_modCore_ne _ hq f).trans (h.others q hq)

theorem modV (f : VCore → VCore) : s.Seats p (f v) (t.modV p f) where
  resident := by rw [State.core_modV, Core.modV_v, h.resident, Option.map_some]
  others q hq := (State.core_modV_ne _ hq f).trans (h.others q hq)

theorem modStrand (k : Fin 128) (f : Strand → Strand) : s.Seats p (v.modStrand k f) (t.modStrand p k f) :=
  h.modV fun v => v.modStrand k f

theorem noteAccesses (news : List Access) : s.Seats p v (t.noteAccesses p news) := by
  have races (c : Core) : (c.auditRaces news).v = c.v := by
    unfold Core.auditRaces
    induction news generalizing c with
    | nil => rfl
    | cons n news ih => exact ih _
  unfold State.noteAccesses
  split
  · refine h.modCore fun c => ?_
    dsimp only
    split
    · exact races c
    · rfl
  · exact h

end State.Seats

/-! ### STEP (R176) -/

section
variable {s : State} {p : Fin 20} {v : VCore}

/-- A boundary that STEP asks for leaves every core (R365). -/
theorem State.Seats.requestBoundary {t : State} (h : s.Seats p v t) (due : Bool) (b origin : Nat) :
    s.Seats p v (if due then t.requestBoundary b origin else t) := by
  split
  · exact h.of_cores (State.requestBoundary_cores _ _ _)
  · exact h

@[simp] theorem Core.stop_v (c : Core) : c.stop.v = c.v := by
  unfold Core.stop
  split <;> rfl

/-- A strand that STEP holds has not completed it (R359, R368). -/
theorem State.Seats.holdAtStep {t : State} (h : s.Seats p v t) (k : Fin 128) (n : Nat) (held : Hold) :
    s.Seats p (v.modStrand k fun st => { st with wait := .step, since := n }) (t.holdAtStep p k n held) :=
  (h.modStrand k _).modCore (f := fun c => { c.stop with holdReq := held }) Core.stop_v

/-- A STEP that has counted is held for a boundary, or for a forced field test, or is done. -/
theorem State.Seats.stepEnds {t : State} (h : s.Seats p v t) (k : Fin 128) (n : Nat) (boundary test : Prop) [Decidable boundary]
    [Decidable test] : ∃ u f, (.next (if boundary then t.holdAtStep p k n .boundary else if test then t.holdAtStep p k n .stepTest
        else t.commit p k n) : Host.Outcome State Fault Refusal) = .next u ∧ s.Seats p (v.modStrand k f) u ∧
      (f = (Strand.issued · n) ∨ f = fun st => { st with wait := .step, since := n }) := by
  split
  · exact ⟨_, _, rfl, h.holdAtStep k n _, .inr rfl⟩
  · split
    · exact ⟨_, _, rfl, h.holdAtStep k n _, .inr rfl⟩
    · exact ⟨_, _, rfl, h.modStrand k _, .inl rfl⟩

end

/-- What STEP does, below its greatest tag: the tag grows by 1, and the strand goes on or is held there. -/
theorem execStep_runs {s : State} {p : Fin 20} {k : Fin 128} {ops : BitVec 118} {v x : VCore} {t : Nat}
    (runs : s.Runs p k (wordOf ops 0x006) v t false .none (fun _ _ _ => [resvFrom (wordOf ops 0x006) 24]))
    (here : s.vcoreAt p v t = x) (resident : ((s.advance p t).core p).v = some x) (below : x.stepTag ≠ 0xFFFFFFFF) :
    ∃ u f, execStep p k ops s = .next u ∧ (s.advance p t).Seats p (VCore.modStrand { x with stepTag := x.stepTag + 1 } k f) u ∧
      (f = (Strand.issued · t) ∨ f = fun st => { st with wait := .step, since := t }) := by
  have start : (s.advance p t).Seats p x (s.advance p t) := ⟨resident, fun _ _ => rfl⟩
  rw [execStep, State.issue_of_runs runs _, here]
  simp only [if_neg below, State.audit_clear (State.clear_nil _ _)]
  have tagged (due : Bool) (b origin : Nat) (news : List Access) (log : Core → Core) (keeps : ∀ c, (log c).v = c.v) :=
    (((start.requestBoundary due b origin).noteAccesses news).modCore keeps).modV fun v => { v with stepTag := v.stepTag + 1 }
  refine State.Seats.stepEnds ?_ k t _ _
  exact tagged _ _ _ _ _ fun _ => rfl

/-! ### Token counters (R172, R173) -/

theorem Core.changeToken_inRange {c : Core} {v : VCore} {ctr : Nat} {delta : Int} (resident : c.v = some v)
    (signal : Option (Fin 128 × BitVec 16)) (low : 0 ≤ (v.tokens[ctr]!).toNat + delta) (high : (v.tokens[ctr]!).toNat + delta ≤ 65535) :
    c.changeToken ⟨ctr, delta, signal⟩ =
      { c with v := some { v with tokens := v.tokens.set! ctr (BitVec.ofNat 16 ((v.tokens[ctr]!).toNat + delta).toNat) } } := by
  simp [Core.changeToken, resident, low, high, Core.modV]

/-- The core as the first fault leaves it. -/
theorem Core.raise_first {c : Core} (first : c.faultValid = false) (code strand opcode pc info : Nat) :
    (c.raise code strand opcode pc info).faultStrand = BitVec.ofNat 7 strand ∧
      (c.raise code strand opcode pc info).faultOpcode = BitVec.ofNat 10 opcode ∧
      (c.raise code strand opcode pc info).faultPc = BitVec.ofNat 16 pc := by
  have unrecorded : c.stop.faultValid = false := by
    unfold Core.stop
    split <;> exact first
  simp [Core.raise, unrecorded]

/-- A TSIG whose result is out of range: its fault, at its strand, and the counters stay (R172). -/
theorem Core.changeToken_outOfRange {c : Core} {v : VCore} {ctr old : Nat} {delta : Int} (resident : c.v = some v)
    (stood : (v.tokens[ctr]!).toNat = old) (k : Fin 128) (pc : BitVec 16) (code : Nat)
    (out : (65535 : Int) < old + delta ∧ code = 4 ∨ old + delta < (0 : Int) ∧ code = 5) :
    ∃ d, c.changeToken ⟨ctr, delta, some (k, pc)⟩ = d ∧ d.faultStop = true ∧
      (c.faultValid = false → d.faultCode = BitVec.ofNat 8 code ∧ d.faultStrand = k.val ∧ d.faultOpcode = 0x012 ∧ d.faultPc = pc.toNat) ∧
      ∃ x, d.v = some x ∧ x.tokens = v.tokens := by
  have outside : ¬(decide (0 ≤ (old : Int) + delta) && decide ((old : Int) + delta ≤ 65535)) = true := by
    simp only [Bool.and_eq_true, decide_eq_true_eq]
    omega
  have which : (if (old : Int) + delta < 0 then 5 else 4) = code := by
    split <;> omega
  have runs : c.changeToken ⟨ctr, delta, some (k, pc)⟩ = (c.raise code k.val 0x012 pc.toNat (ctr + 256 * old)).modV fun v =>
      v.modStrand k fun st => { st with pc, faulted := some c.cycle } := by
    simp only [Core.changeToken, resident, stood, if_neg outside, which]
  refine ⟨_, runs, Core.raise_faultStop _ _ _ _ _ _, fun first => ?_, ?_⟩
  · obtain ⟨hstrand, hopcode, hpc⟩ := Core.raise_first first code k.val 0x012 pc.toNat (ctr + 256 * old)
    exact ⟨Core.raise_faultCode _ _ _ _ _ _ first, hstrand, hopcode, hpc⟩
  · rw [Core.modV_v, Core.raise_v, resident]
    exact ⟨_, rfl, rfl⟩

/-- A change comes after `x` in its cycle: a TSIG's of a higher strand, or, for a TSIG, every external increment (R173). -/
def TokenChange.later (x y : TokenChange) : Bool :=
  match x.signal, y.signal with
  | some a, some b => decide (a.1 < b.1)
  | some _, none => true
  | none, _ => false

theorem TokenChange.place_cons (x y : TokenChange) (l : List TokenChange) :
    x.place (y :: l) = if x.later y then x :: y :: l else y :: x.place l := by
  rw [TokenChange.place, TokenChange.later]
  cases x.signal <;> cases y.signal <;> simp

theorem TokenChange.place_splits (x : TokenChange) (l : List TokenChange) :
    ∃ before rest, l = before ++ rest ∧ x.place l = before ++ x :: rest ∧ (∀ y ∈ before, x.later y = false) ∧
      ∀ y, rest.head? = some y → x.later y = true := by
  induction l with
  | nil => exact ⟨[], [], rfl, rfl, by simp, by simp⟩
  | cons y l ih =>
    rw [TokenChange.place_cons]
    cases first : x.later y with
    | true => exact ⟨[], y :: l, rfl, rfl, by simp, by simpa using first⟩
    | false =>
      obtain ⟨before, rest, rfl, placed, earlier, next⟩ := ih
      exact ⟨y :: before, rest, rfl, by simp [placed], by simpa [first] using earlier, next⟩

end Sys2Proof.Machine

open Sys2Proof Sys2Proof.Machine

/-- Settles O6: HALT, STEP, RELEASE and TSIG by what their issue comes to; a token change by whether its result is in range. -/
theorem strandInstructions : Obligations.StrandInstructions := by
  refine ⟨fun s p k ops v t => ?halt, fun s p k ops v t => ?step, fun s p k ops v t => ?release, fun s p k ops v t => ?tsig,
    fun c v ctr delta k pc => ?change, fun x l => ?place⟩
  case halt =>
    intro w runs
    rw [exec_halt, execHalt]
    exact State.issue_of_runs runs _
  case step =>
    intro w x runs resident
    refine ⟨fun greatest => ?overflow, fun below => ?steps⟩
    case overflow =>
      rw [exec_step, execStep, State.issue_of_runs runs _]
      exact congrArg _ (if_pos greatest)
    case steps =>
      obtain ⟨u, f, run, seats, strand⟩ := execStep_runs runs rfl resident below
      refine ⟨u, _, (exec_step _ _ _ _).trans run, seats.resident, rfl, rfl, rfl, rfl, rfl, rfl, rfl,
        fun j other => VCore.modStrand_strand_ne _ other _, ?_, fun q other => (seats.others q other).trans (State.advance_core_ne other t)⟩
      rw [VCore.modStrand_strand]
      exact strand.imp (congrFun · _) (congrFun · _)
  case release =>
    intro w e held runs
    rw [exec_release, execRelease, State.issue_of_runs runs _]
    exact ⟨fun allHeld => congrArg _ (if_neg fun some => bne_iff_ne.1 some allHeld), fun unheld => congrArg _ (if_pos (bne_iff_ne.2 unheld))⟩
  case tsig =>
    intro w ctr delta runs
    rw [exec_tsig, execTsig]
    exact State.issue_of_runs runs _
  case change =>
    intro old resident
    exact ⟨fun low high signal => Core.changeToken_inRange resident signal low high,
      fun above => Core.changeToken_outOfRange resident rfl k pc 4 (.inl ⟨above, rfl⟩),
      fun below => Core.changeToken_outOfRange resident rfl k pc 5 (.inr ⟨below, rfl⟩)⟩
  case place => exact x.place_splits l
end

section
/-! SUPPORT. When a wait ends: a TWAIT's counter, a CLAIM's engines, the watchdog (O7). -/

namespace Sys2Proof.Machine

theorem VCore.mem_liveStrands {v : VCore} {k : Fin 128} : k ∈ v.liveStrands ↔ v.strands[k].live = true := by
  simp [VCore.liveStrands]

/-! ### TWAIT (R173) -/

section
variable {v : VCore} {k : Fin 128} {ctr : BitVec 8} {n : Nat} {consume : Bool} {tokens : Vector (BitVec 16) 256}

theorem VCore.tokenReady_iff {j : Fin 128} : v.tokenReady tokens ctr j = true ↔
    v.strands[j].live = true ∧ ∃ m b, v.strands[j].wait = .token ctr m b ∧ m ≤ (tokens[ctr.toNat]!).toNat := by
  rw [VCore.tokenReady, Bool.and_eq_true]
  refine and_congr_right fun _ => ?_
  cases v.strands[j].wait with
  | token d m b =>
    rw [Bool.and_eq_true, beq_iff_eq, decide_eq_true_eq]
    constructor
    · rintro ⟨rfl, le⟩
      exact ⟨m, b, rfl, le⟩
    · rintro ⟨_, _, same, le⟩
      cases same
      exact ⟨rfl, le⟩
  | _ => simp

variable (live : v.strands[k].live = true) (wait : v.strands[k].wait = .token ctr n consume)
include live wait

theorem VCore.tokenReady_self : v.tokenReady tokens ctr k = decide (n ≤ (tokens[ctr.toNat]!).toNat) := by
  rw [Bool.eq_iff_iff, VCore.tokenReady_iff, decide_eq_true_eq]
  constructor
  · rintro ⟨-, _, _, same, le⟩
    rw [wait] at same
    cases same
    exact le
  · exact fun le => ⟨live, n, consume, wait, le⟩

omit live wait in
/-- No lower strand on the same counter is satisfied by `tokens`. -/
theorem VCore.lower_unready (alone : ∀ j m b, j < k → v.strands[j].live = true → v.strands[j].wait = .token ctr m b →
    (tokens[ctr.toNat]!).toNat < m) : (v.liveStrands.any fun j => decide (j < k) && v.tokenReady tokens ctr j) = false := by
  rw [List.any_eq_false]
  intro j _ ready
  obtain ⟨lower, ready⟩ := (Bool.and_eq_true_iff.1 ready)
  obtain ⟨live, m, b, wait, le⟩ := VCore.tokenReady_iff.1 ready
  exact absurd (alone j m b (of_decide_eq_true lower) live wait) (by omega)

/-- The counter stood at n or above at the end of the cycle before. -/
theorem Core.tokenDue_now {c : Core} (enough : n ≤ (v.tokens[ctr.toNat]!).toNat)
    (alone : ∀ j m b, j < k → v.strands[j].live = true → v.strands[j].wait = .token ctr m b → (v.tokens[ctr.toNat]!).toNat < m) :
    c.tokenDue v k = some c.cycle := by
  simp only [Core.tokenDue, wait, VCore.tokenReady_self live wait, VCore.lower_unready alone, enough, decide_true, Bool.not_false,
    Bool.and_self, if_true]

/-- The changes of this cycle bring the counter to n. -/
theorem Core.tokenDue_next {c : Core} (less : (v.tokens[ctr.toNat]!).toNat < n)
    (alone : ∀ j m b, j < k → v.strands[j].live = true → v.strands[j].wait = .token ctr m b → (v.tokens[ctr.toNat]!).toNat < m)
    (enough : n ≤ ((c.tokensNext v)[ctr.toNat]!).toNat)
    (first : ∀ j m b, j < k → v.strands[j].live = true → v.strands[j].wait = .token ctr m b → ((c.tokensNext v)[ctr.toNat]!).toNat < m) :
    c.tokenDue v k = some (c.cycle + 1) := by
  have unready : v.tokenReady v.tokens ctr k = false := by
    rw [VCore.tokenReady_self live wait, decide_eq_false (Nat.not_le.2 less)]
  have upTo : (v.liveStrands.any fun j => decide (j ≤ k) && v.tokenReady v.tokens ctr j) = false := by
    rw [List.any_eq_false]
    intro j mem ready
    obtain ⟨atMost, satisfied⟩ := Bool.and_eq_true_iff.1 ready
    obtain lower | rfl : j < k ∨ j = k := by have := of_decide_eq_true atMost; omega
    · exact List.any_eq_false.1 (VCore.lower_unready alone) j mem (Bool.and_eq_true_iff.2 ⟨decide_eq_true lower, satisfied⟩)
    · exact Bool.false_ne_true (unready.symm.trans satisfied)
  simp only [Core.tokenDue, wait, unready, upTo, Bool.false_and, Bool.false_eq_true, if_false, VCore.tokenReady_self live wait (tokens := c.tokensNext v),
    VCore.lower_unready first, enough, decide_true, Bool.not_false, Bool.and_self, Bool.not_true, Bool.or_self]

/-- The counter stays below n. -/
theorem Core.tokenDue_none {c : Core} (less : (v.tokens[ctr.toNat]!).toNat < n) (stays : ((c.tokensNext v)[ctr.toNat]!).toNat < n) :
    c.tokenDue v k = none := by
  simp only [Core.tokenDue, wait, VCore.tokenReady_self live wait, decide_eq_false (Nat.not_le.2 less), decide_eq_false (Nat.not_le.2 stays),
    Bool.false_and, Bool.false_eq_true, if_false, Bool.not_false, Bool.or_true, if_true]

end

/-- Nothing stops a wait of core `c` from ending in cycle `t`. -/
theorem Core.ends_of {c : Core} {t : Nat} (going : c.stopped = false ∨ t < c.stopAt) (fed : c.dryBefore t = false) :
    (c.stopped && decide (c.stopAt ≤ t) || c.dryBefore t) = false := by
  rw [fed, Bool.or_false]
  rcases going with going | going
  · rw [going, Bool.false_and]
  · rw [decide_eq_false (Nat.not_le.2 going), Bool.and_false]

section
variable {s : State} {p : Fin 20} {k : Fin 128} {v : VCore} (resident : (s.core p).v = some v)
include resident

theorem execTwaitComplete_due {ctr : BitVec 8} {n t : Nat} {consume : Bool} (running : s.running p = true)
    (wait : v.strands[k].wait = .token ctr n consume) (due : (s.core p).tokenDue v k = some t)
    (going : (s.core p).stopped = false ∨ t < (s.core p).stopAt) (fed : (s.core p).dryBefore t = false) :
    execTwaitComplete p k s = .next ((((s.advanceWaiting p t).noteToken p ⟨k.val, ctr.toNat, n, true, t⟩).modV p fun u =>
      if consume then { u with tokens := u.tokens.set! ctr.toNat (u.tokens[ctr.toNat]! - BitVec.ofNat 16 n) } else u).commit p k t) := by
  simp only [execTwaitComplete, resident, wait, due, running, Bool.not_true, Bool.false_or, Core.ends_of going fed, Bool.false_eq_true, if_false]

theorem execTwaitComplete_waits (notDue : (s.core p).tokenDue v k = none) : execTwaitComplete p k s = .next s := by
  simp only [execTwaitComplete, resident, notDue]
  cases v.strands[k].wait <;> rfl

end

/-! ### CLAIM (R170) -/

theorem foldl_or_and_eq_zero {α : Type} {w : Nat} (f : α → BitVec w) (e : BitVec w) (l : List α) (a : BitVec w) :
    l.foldl (fun a j => a ||| f j) a &&& e = 0 ↔ a &&& e = 0 ∧ ∀ j ∈ l, f j &&& e = 0 := by
  induction l generalizing a with
  | nil => simp
  | cons j l ih =>
    rw [List.foldl_cons, ih, BitVec.and_or_distrib_right, List.forall_mem_cons, ← and_assoc]
    exact and_congr_left fun _ => BitVec.or_eq_zero_iff

/-- Engines are free for strand `k` when no other strand holds one of them or freed one in this cycle. -/
theorem Core.claimable_iff {c : Core} {v : VCore} {k : Fin 128} {e : BitVec 4} : c.claimable v k e = true ↔
    (∀ j, j ≠ k → v.strands[j].live = true → v.strands[j].claims &&& e = 0) ∧ c.relNow &&& ~~~v.strands[k].claims &&& e = 0 := by
  rw [Core.claimable, beq_iff_eq, BitVec.and_comm, BitVec.and_or_distrib_right]
  refine BitVec.or_eq_zero_iff.trans (and_congr_left fun _ => ?_)
  refine (foldl_or_and_eq_zero (fun j : Fin 128 => v.strands[j].claims) e _ 0).trans ?_
  simp [VCore.mem_liveStrands, and_comm]

/-- Strand `j`'s pending CLAIM can be granted and asks for an engine of `e`. -/
def Core.claimMeets (c : Core) (v : VCore) (j : Fin 128) (e : BitVec 4) : Bool :=
  match v.strands[j].wait with
  | .claim d => c.claimable v j d && (d &&& e) != 0
  | _ => false

section
variable {c : Core} {v : VCore} {k : Fin 128} {e : BitVec 4} (wait : v.strands[k].wait = .claim e)
include wait

theorem Core.claimDue_of_claim : c.claimDue v k =
    let now := c.claimable v k e
    let c1 := if now then c else { c with relNow := 0 }
    if !v.strands[k].live || (v.liveStrands.any fun j => decide (j < k) && c1.claimMeets v j e) || !c1.claimable v k e then none
    else some (if now then c.cycle else c.cycle + 1) := by
  rw [Core.claimDue, wait]
  rfl

theorem Core.claimDue_held (held : ∃ j, j ≠ k ∧ v.strands[j].live = true ∧ v.strands[j].claims &&& e ≠ 0) : c.claimDue v k = none := by
  obtain ⟨j, other, live, holds⟩ := held
  have busy (d : Core) : d.claimable v k e = false :=
    Bool.eq_false_iff.2 fun free => holds ((Core.claimable_iff.1 free).1 j other live)
  simp only [Core.claimDue_of_claim wait, busy, Bool.not_false, Bool.or_true, if_true]

/-- The engines of a CLAIM that no other strand holds are free now or, freed in this cycle, from the next. -/
theorem Core.claimDue_free (live : v.strands[k].live = true) (free : ∀ j, j ≠ k → v.strands[j].live = true → v.strands[j].claims &&& e = 0)
    (first : ∀ j d, j < k → v.strands[j].live = true → v.strands[j].wait = .claim d → d &&& e = 0) :
    c.claimDue v k = some (if c.relNow &&& ~~~v.strands[k].claims &&& e = 0 then c.cycle else c.cycle + 1) := by
  have noLower (d : Core) : (v.liveStrands.any fun j => decide (j < k) && d.claimMeets v j e) = false := by
    rw [List.any_eq_false]
    intro j mem lower
    obtain ⟨lower, asks⟩ := Bool.and_eq_true_iff.1 lower
    unfold Core.claimMeets at asks
    split at asks
    · rename_i g pending
      have apart := first j g (of_decide_eq_true lower) (VCore.mem_liveStrands.1 mem) pending
      exact bne_iff_ne.1 (Bool.and_eq_true_iff.1 asks).2 apart
    · cases asks
  have now : c.claimable v k e = decide (c.relNow &&& ~~~v.strands[k].claims &&& e = 0) := by
    rw [Bool.eq_iff_iff, Core.claimable_iff, decide_eq_true_eq]
    exact and_iff_right free
  have next : Core.claimable { c with relNow := 0 } v k e = true := Core.claimable_iff.2 ⟨free, by simp⟩
  by_cases unfreed : c.relNow &&& ~~~v.strands[k].claims &&& e = 0
  · rw [decide_eq_true unfreed] at now
    simp only [Core.claimDue_of_claim wait, now, if_true, noLower, live, unfreed, Bool.not_true, Bool.or_self, Bool.false_eq_true, if_false]
  · rw [decide_eq_false unfreed] at now
    simp only [Core.claimDue_of_claim wait, now, next, noLower, live, unfreed, Bool.not_true, Bool.or_self, Bool.false_eq_true, if_false]

end

section
variable {s : State} {p : Fin 20} {k : Fin 128} {v : VCore} (resident : (s.core p).v = some v)
include resident

theorem execClaimGrant_due {e : BitVec 4} {t : Nat} (running : s.running p = true) (wait : v.strands[k].wait = .claim e)
    (due : (s.core p).claimDue v k = some t) (going : (s.core p).stopped = false ∨ t < (s.core p).stopAt)
    (fed : (s.core p).dryBefore t = false) : execClaimGrant p k s =
      .next ((s.advanceWaiting p t).modStrand p k fun st => { st.issued t with claims := st.claims ||| e }) := by
  simp only [execClaimGrant, resident, wait, due, running, Bool.not_true, Bool.false_or, Core.ends_of going fed, Bool.false_eq_true, if_false]

theorem execClaimGrant_waits (notDue : (s.core p).claimDue v k = none) : execClaimGrant p k s = .next s := by
  simp only [execClaimGrant, resident, notDue]
  cases v.strands[k].wait <;> rfl

/-! ### The watchdog (R174) -/

/-- The fault of a wait that is too long; its instruction is issued again. -/
def State.deadlocked (s : State) (p : Fin 20) (k : Fin 128) (opcode info : Nat) : State :=
  (s.fault p k 6 opcode info).modStrand p k fun st => { st with wait := .none }

theorem execDeadlock_early {ms : Nat} (early : ms ≤ s.job.wdogMs) : execDeadlock p k ms s = .next s := by
  simp only [execDeadlock, resident, early, decide_true, Bool.or_true, Bool.true_or, if_true]

theorem execDeadlock_late {ms : Nat} (boot : s.pow.boot = .imago) (runs : s.job.state = .running) (untested : (s.core p).test = none)
    (going : (s.core p).stopped = false) (live : v.strands[k].live = true) (counts : s.waitsOnFault p v v.strands[k].wait = false)
    (host : s.host.pcieUp = false ∨ s.host.busMaster = true) (late : s.job.wdogMs < ms) :
    execDeadlock p k ms s = match v.strands[k].wait with
      | .token ctr _ _ => .next (s.deadlocked p k 0x013 ctr.toNat)
      | .claim e => .next (s.deadlocked p k 0x010 (e.toNat + 0x100))
      | .migrate _ => .next (s.deadlocked p k 0x007 0x200)
      | .tracker op => .next (s.deadlocked p k op 0x200)
      | _ => .next s := by
  have reaches : (s.host.pcieUp && !s.host.busMaster) = false := by
    rcases host with h | h <;> simp [h]
  simp only [execDeadlock, resident, boot, runs, untested, going, live, counts, reaches, decide_eq_false (Nat.not_le.2 late), bne_self_eq_false,
    Option.isSome_none, Bool.not_true, Bool.or_self, Bool.false_eq_true, if_false]
  rfl

end

end Sys2Proof.Machine

open Sys2Proof Sys2Proof.Machine

/-- Settles O7: each wait starts by what its issue comes to, and ends by the cycle in which its end is due. -/
theorem waits : Obligations.Waits := by
  refine ⟨fun s p k ops v t => ⟨fun runs => ?migrate, fun runs => ?claim, fun runs => ?twait⟩,
    fun s p k v ctr n consume => ?completes, fun s p k v e => ?granted, fun s p k v ms => ?deadlock⟩
  case migrate =>
    rw [exec_migrate, execMigrate]
    exact State.issue_of_runs runs _
  case claim =>
    rw [exec_claim, execClaim]
    exact State.issue_of_runs runs _
  case twait =>
    rw [exec_twait, execTwait]
    exact State.issue_of_runs runs _
  case completes =>
    intro c now next alone goes resident running live wait
    rw [exec_twaitComplete]
    exact ⟨fun enough first => execTwaitComplete_due resident running wait (Core.tokenDue_now live wait enough first),
      fun less alone enough first => execTwaitComplete_due resident running wait (Core.tokenDue_next live wait less alone enough first),
      fun less stays => execTwaitComplete_waits resident (Core.tokenDue_none live wait less stays)⟩
  case granted =>
    intro c t resident running live wait
    rw [exec_claimGrant]
    exact ⟨fun held => execClaimGrant_waits resident (Core.claimDue_held wait held),
      fun free first => execClaimGrant_due resident running wait (Core.claimDue_free wait live free first)⟩
  case deadlock =>
    intro c resident boot runs untested going live counts host
    rw [exec_deadlock]
    refine ⟨execDeadlock_early resident, fun late => ?_⟩
    rw [execDeadlock_late resident boot runs untested going live counts host late]
    refine ⟨fun ctr n b wait => ?_, fun e wait => ?_, fun q wait => ?_, fun op wait => ?_⟩
    all_goals
      rw [wait]
      rfl
end

section
/-! SUPPORT. When a MIGRATE point is reached, and what a miss of the instruction buffer comes to (O9). -/

namespace Sys2Proof.Machine

/-! ### MIGRATE points (R197, R198) -/

theorem filterMap_eq_map_of_forall_some {α β : Type} {f : α → Option β} {g : α → β} {xs : List α} (h : ∀ x ∈ xs, f x = some (g x)) :
    xs.filterMap f = xs.map g := by
  induction xs with
  | nil => rfl
  | cons x xs ih =>
    rw [List.filterMap_cons_some (h x List.mem_cons_self), List.map_cons, ih fun y mem => h y (List.mem_cons_of_mem x mem)]

section
variable {v : VCore} {q : BitVec 16} (same : ∀ k ∈ v.liveStrands, v.strands[k].wait = .migrate q)
include same

theorem VCore.points_of_same : v.points = v.liveStrands.map fun _ => q := by
  refine filterMap_eq_map_of_forall_some fun k mem => ?_
  rw [same k mem]

theorem VCore.allMigrate_of_same (inhabited : v.liveStrands ≠ []) : v.allMigrate = true := by
  rw [VCore.allMigrate, Bool.and_eq_true]
  refine ⟨by simpa using inhabited, List.all_eq_true.2 fun k mem => ?_⟩
  rw [same k mem]

/-- R197, R198. Every live strand waits at one point and the core has drained. -/
theorem execMigratePointReached_reached {s u : State} {p : Fin 20} (resident : (s.core p).v = some v) (running : s.running p = true)
    (going : (s.core p).stopped = false) (inhabited : v.liveStrands ≠ []) (drained : s.atPoint p = some u) :
    let u := u.modCore p fun c => { c with migPoint := q }
    execMigratePointReached p s = .next (u.modCore p fun d =>
      if (s.core p).migHold ∨ u.testWaits p then { d.stop with hold := .migrate } else d.modV fun v => v.resumeMigrate (d.cycle + 1)) := by
  obtain ⟨k, ks, live⟩ := List.exists_cons_of_ne_nil inhabited
  have points : v.points = q :: ks.map fun _ => q := by rw [VCore.points_of_same same, live, List.map_cons]
  have agree : ((ks.map fun _ => q).all (· == q)) = true := by simp
  simp only [execMigratePointReached, resident, points, running, going, VCore.allMigrate_of_same same inhabited, agree, drained, Bool.not_true,
    Bool.or_self, Bool.false_eq_true, if_false, Bool.or_eq_true]
  split <;> rfl

end

/-! ### Lines of the code section (R167, R182, R286) -/

/-- The state in which a miss at strand `k` of `v` has frozen the core and read its line. -/
def State.fetchedLine (s : State) (p : Fin 20) (k : Fin 128) (v : VCore) : State :=
  (s.freezeFor p ((s.core p).cycle + 1) 1 8).readNow p
    [.read .tile (v.codeBase + 1024 * (v.strands[k].pc.toNat / 64)) 1024 (s.core p).cycle k v.strands[k].pc]

/-- A region with execute permission holds the strand's next instruction. -/
def VCore.executes (v : VCore) (pc : Nat) : Bool := v.regions.any fun r => r.ex && r.holds (v.codeBase + 16 * pc : Nat)

theorem VCore.executes_eq_false_iff {v : VCore} {pc : Nat} : v.executes pc = false ↔
    ∀ r ∈ v.regions, r.ex = true → r.holds (v.codeBase + 16 * pc : Nat) = false := by
  simp [VCore.executes]

theorem VCore.executes_iff {v : VCore} {pc : Nat} : v.executes pc = true ↔
    ∃ r ∈ v.regions, r.ex = true ∧ r.holds (v.codeBase + 16 * pc : Nat) = true := by
  simp [VCore.executes]

/-- The line takes its place in the instruction buffer; the oldest of 64 makes room (log 18). -/
def Core.takeLine (c : Core) (line corrected : Nat) : Core :=
  { c with ibuf := (c.ibuf ++ [line]).drop (c.ibuf.length + 1 - 64), tmCorr := c.tmCorr + corrected }

section
variable {s : State} {p : Fin 20} {k : Fin 128} {v : VCore} {ecc : Ecc}
  (resident : (s.core p).v = some v) (running : s.running p = true) (going : (s.core p).stopped = false)
  (live : v.strands[k].live = true) (ready : v.strands[k].wait = .none) (miss : v.strands[k].pc.toNat / 64 ∉ (s.core p).ibuf)
  (inCode : v.strands[k].pc.toNat < v.codeLen)
include resident running going live ready miss inCode

theorem execLineFetch_misses {t : State} {x : VCore} {pc : Nat} (fetched : s.fetchedLine p k v = t) (now : t.vNow p v = x)
    (stands : v.strands[k].pc.toNat = pc) :
    let line := pc / 64
    let addr := v.codeBase + 1024 * line
    execLineFetch p k ecc s = if !x.executes pc then .next (t.fault p k 2 0 (x.codeBase + 16 * pc))
      else match (badWord x.tileBad addr 1024).or (if ecc = .uncorrectable then some addr else none) with
        | some a => .next (t.fault p k 0x0B 0 a)
        | none => .next ((t.charge (24 + p.val) (ofBool (ecc == .corrected)) 0 0).modCore p fun c =>
            c.takeLine line (if ecc == .corrected then 1 else 0)) := by
  have missed : (s.core p).ibuf.contains (v.strands[k].pc.toNat / 64) = false := by simpa using miss
  subst fetched now stands
  simp only [execLineFetch, resident, running, going, live, ready, missed, decide_eq_false (Nat.not_le.2 inCode), bne_self_eq_false,
    Bool.not_true, Bool.or_self, Bool.false_eq_true, if_false, beq_iff_eq, State.fetchedLine, VCore.executes, Core.takeLine]
  generalize badWord _ _ _ = found
  cases found <;> rfl

end

end Sys2Proof.Machine

open Sys2Proof Sys2Proof.Machine

/-- Settles O9: a point by the state in which the core has drained, a line by what its fetch meets. -/
theorem pointsAndLines : Obligations.PointsAndLines := by
  refine ⟨fun s p v q => ⟨?reached, fun held => ?released, fun free => ?unheld⟩, fun s p k v ecc => ?line⟩
  case reached =>
    intro resident running going inhabited same u drained
    rw [exec_migratePointReached]
    exact execMigratePointReached_reached same resident running going inhabited drained
  case released =>
    rw [exec_migRelease]
    exact if_pos held
  case unheld =>
    rw [exec_migRelease]
    exact if_neg free
  case line =>
    intro c pc line fetched x resident running going live ready miss inCode
    have run := execLineFetch_misses (ecc := ecc) resident running going live ready miss inCode (t := fetched) (x := x) (pc := pc) rfl rfl rfl
    rw [exec_lineFetch, run]
    refine ⟨fun denied => ?_, fun allowed => ?_⟩
    · rw [VCore.executes_eq_false_iff.2 denied]
      rfl
    · rw [VCore.executes_iff.2 allowed]
      refine ⟨fun a bad => by rw [bad]; rfl, fun good => ?_⟩
      rw [good]
      refine ⟨?_, ?_, ?_⟩
      all_goals
        rintro rfl
        rfl
end

section
/-! SUPPORT. What the issue of SCMD and CSUM.U comes to (O20). -/

namespace Sys2Proof.Machine

/-- The task that core `c` makes of the command record which an SCMD or CSUM.U names in cycle `t` (R208, R213). -/
def Core.taskOf (c : Core) (v : VCore) (k : Fin 128) (w : IWord) (csum : Bool) (st : Strand) (t : Nat) : Machine.Task :=
  let step := BitVec.ofNat 32 (c.stepTagAt v t)
  { id := c.nextTask, vcore := v.num, strand := k.val, step, cmd := (taAt w st.x 24).toNat, crec := (taAt w st.x 66).toNat, tok := fld w 46 8,
    tinc := fld w 54 12, pc := st.pc.toNat, opcode := fld w 0 10, taskNo := if st.taskStep = step then st.taskNo else 0, resubmitted := false,
    arrival := csum, stages := stagesOf (c.tileAt v (taAt w st.x 24).toNat 208 t), reqNo := 0, delivered := 0, merged := 0, spilled := 0,
    abort := none, provChks := [], provBlock := none, touched := [], met := [] }

/-- The task has its number in the strand's step, and its completion record's address is known as its own (R219, Table 9.3). -/
def State.numberTask (s : State) (p : Fin 20) (k : Fin 128) (x : Machine.Task) : State :=
  (s.modStrand p k fun st => { st with taskNo := x.taskNo + 1, taskStep := x.step }).modCore p fun c =>
    { c with issuedFor := (x.crec, x.opcode, x.pc, x.taskNo) :: c.issuedFor.filter fun e => e.1 != x.crec }

section
variable {s : State} {p : Fin 20} {k : Fin 128} {w : IWord} {csum : Bool} {v : VCore} {st : Strand} {t : Nat} {live : State → State}

/-- R165, R213: without room in the tracker the strand waits. -/
theorem State.issueTask_full (full : 64 ≤ (s.core p).tasks.length) : s.issueTask p k w csum v st t live =
    s.modStrand p k fun st => { st with wait := .tracker (fld w 0 10), since := match st.wait with | .tracker _ => st.since | _ => t } :=
  if_pos full

variable {read : Access} {y : VCore} {s2 : State} (names : Access.read .tile (taAt w st.x 24).toNat 208 t k st.pc = read)
  (sees : (s.readNow p [read]).vNow p v = y) (notes : (s.readNow p [read]).noteAccesses p [read] = s2)
  (room : (s.core p).tasks.length < 64) (readable : v.rangeFault [(taAt w st.x 24, 208)] .read = none)
  (writable : v.rangeFault [(taAt w st.x 66, 64)] .write = none) (sound : v.eccFault [((taAt w st.x 24).toNat, 208)] = none)
  (clear : (s.readNow p [read]).Clear p [read])
include names sees notes room readable writable sound clear

/-- With room in the tracker the record is read, and its command is taken, refused or rejected. -/
theorem State.issueTask_room : s.issueTask p k w csum v st t live =
    let task := (s2.core p).taskOf y k w csum st t
    match commandFault y s2.job.n csum ((s2.core p).tileAt y (taAt w st.x 24).toNat 208 t) with
    | some b => s2.fault p k 1 (fld w 0 10) (65536 + b)
    | none =>
      if (s2.numberTask p k task).job.rejects task.stages then
        ((s2.numberTask p k task).writeRecord p task 3).fault p k 8 task.opcode task.crec
      else ((live (s2.numberTask p k task)).commit p k t).launch p task := by
  subst names sees notes
  simp only [State.issueTask, Nat.not_le.2 room, if_false, readable, writable, Option.or_none, sound, State.audit_clear clear]
  rfl

theorem State.issueTask_illegal {b : Nat}
    (refused : commandFault y s2.job.n csum ((s2.core p).tileAt y (taAt w st.x 24).toNat 208 t) = some b) :
    s.issueTask p k w csum v st t live = s2.fault p k 1 (fld w 0 10) (65536 + b) := by
  simp only [State.issueTask_room names sees notes room readable writable sound clear, refused]

section
variable {task : Machine.Task} (becomes : (s2.core p).taskOf y k w csum st t = task)
  (legal : commandFault y s2.job.n csum ((s2.core p).tileAt y (taAt w st.x 24).toNat 208 t) = none)
include becomes legal

/-- R219. -/
theorem State.issueTask_rejected (rejects : (s2.numberTask p k task).job.rejects task.stages = true) :
    s.issueTask p k w csum v st t live = ((s2.numberTask p k task).writeRecord p task 3).fault p k 8 task.opcode task.crec := by
  simp only [State.issueTask_room names sees notes room readable writable sound clear, legal, becomes, rejects, if_true]

theorem State.issueTask_accepted (accepts : (s2.numberTask p k task).job.rejects task.stages = false) :
    s.issueTask p k w csum v st t live = ((live (s2.numberTask p k task)).commit p k t).launch p task := by
  simp only [State.issueTask_room names sees notes room readable writable sound clear, legal, becomes, accepts, Bool.false_eq_true, if_false]

end
end

end Sys2Proof.Machine

open Sys2Proof Sys2Proof.Machine

/-- Settles O20: SCMD and CSUM.U by what the issue of a task comes to. -/
theorem tasksAreAccepted : Obligations.TasksAreAccepted := by
  intro s p k ops v t st x s1 read y task s2 numbered checks waits room refused rejected
  refine ⟨fun runs => ?scmd, fun runs => ?csum⟩
  case' scmd =>
    have opcode : fld (wordOf ops 0x050) 0 10 = 0x050 := fld_wordOf ops 0x050
    have issued : exec (.scmd p k ops) s =
        .next (s1.issueTask p k (wordOf ops 0x050) (fld (wordOf ops 0x050) 0 10 == 0x201) x st t fun s => s) := by
      rw [exec_scmd, execScmd, opcode]
      exact State.issue_of_runs runs _
    rw [issued]
  case' csum =>
    have opcode : fld (wordOf ops 0x201) 0 10 = 0x201 := fld_wordOf ops 0x201
    have issued : exec (.csumU p k ops) s =
        .next (s1.issueTask p k (wordOf ops 0x201) (fld (wordOf ops 0x201) 0 10 == 0x201) x st t fun s => s.noteClassV p) := by
      rw [exec_csumU, execCsumU, opcode]
      exact State.issue_of_runs runs _
    rw [issued]
  all_goals
    refine ⟨fun full => congrArg _ (State.issueTask_full full), fun ⟨room, readable, writable, sound, clear⟩ => ⟨fun b refuses => ?_, fun legal =>
      ⟨fun rejects => ?_, fun accepts => ?_⟩⟩⟩
    · rw [State.issueTask_illegal rfl rfl rfl room readable writable sound clear refuses, opcode]
    · exact congrArg _ (State.issueTask_rejected rfl rfl rfl room readable writable sound clear rfl legal rejects)
    · exact congrArg _ (State.issueTask_accepted rfl rfl rfl room readable writable sound clear rfl legal accepts)
end

section
/-! SUPPORT. Byte strings made of fields, and the length of a digest. -/

namespace Sys2Proof.Machine

@[simp] theorem length_bytesOf (n v : Nat) : (bytesOf n v).length = n := by
  induction n generalizing v with
  | zero => rfl
  | succ n ih => rw [bytesOf, List.length_cons, ih]

@[simp] theorem length_zeros (n : Nat) : (zeros n).length = n := List.length_replicate

@[simp] theorem length_padTo (n : Nat) (bs : List Byte) : (padTo n bs).length = n := by
  rw [padTo, List.length_take, List.length_append, length_zeros]
  omega

theorem natOf_bytesOf (n v : Nat) : natOf (bytesOf n v) = v % 256 ^ n := by
  induction n generalizing v with
  | zero => rw [Nat.pow_zero, Nat.mod_one]; rfl
  | succ n ih =>
    have grows : 256 ^ (n + 1) = 256 * 256 ^ n := Nat.pow_succ'
    rw [bytesOf, natOf, ih, BitVec.toNat_ofNat, grows]
    exact Nat.mod_mul.symm

theorem natOf_zeros (n : Nat) : natOf (zeros n) = 0 := by
  induction n with
  | zero => rfl
  | succ n ih => rw [zeros, List.replicate_succ, natOf, ← zeros, ih]; rfl

theorem natOf_append (a b : List Byte) : natOf (a ++ b) = natOf a + 256 ^ a.length * natOf b := by
  induction a with
  | nil => simp [natOf]
  | cons x a ih => rw [List.cons_append, natOf, natOf, ih, List.length_cons, Nat.pow_succ', Nat.mul_add, Nat.mul_assoc, Nat.add_assoc]

/-! ### A field of a byte string -/

/-- A field behind the first. -/
theorem sub_append_skip {a b : List Byte} {off n : Nat} (h : a.length ≤ off) : sub (a ++ b) off n = sub b (off - a.length) n := by
  rw [sub, sub, List.drop_append, List.drop_of_length_le h, List.nil_append]

/-- A field within the first part. -/
theorem sub_append_within {a b : List Byte} {off n : Nat} (h : off + n ≤ a.length) : sub (a ++ b) off n = sub a off n := by
  rw [sub, sub, List.drop_append_of_le_length (by omega), List.take_append_of_le_length (by rw [List.length_drop]; omega)]

theorem sub_whole {a : List Byte} {n : Nat} (h : a.length = n) : sub a 0 n = a := by
  rw [sub, List.drop_zero, List.take_of_length_le (Nat.le_of_eq h)]

/-- The first field. -/
theorem sub_append_first {a b : List Byte} {n : Nat} (h : a.length = n) : sub (a ++ b) 0 n = a := by
  rw [sub_append_within (by omega), sub_whole h]

/-! ### SHA-256 makes 32 bytes -/

theorem shaRound_length {v : List Nat} (kw : Nat × Nat) (h : v.length = 8) : (shaRound v kw).length = 8 := by
  simp only [shaRound, List.length_append, List.length_cons, List.length_take, List.length_drop, h]
  rfl

theorem shaBlock_length {h : List Nat} (blk : List Byte) (h8 : h.length = 8) : (shaBlock h blk).length = 8 := by
  have rounds (l : List (Nat × Nat)) {v : List Nat} (v8 : v.length = 8) : (l.foldl shaRound v).length = 8 := by
    induction l generalizing v with
    | nil => exact v8
    | cons kw l ih => exact ih (shaRound_length kw v8)
  rw [shaBlock, List.length_zipWith, h8, rounds _ h8]
  rfl

@[simp] theorem sha256_length (m : List Byte) : (sha256 m).length = 32 := by
  have blocks (l : List (List Byte)) {h : List Nat} (h8 : h.length = 8) : (l.foldl shaBlock h).length = 8 := by
    induction l generalizing h with
    | nil => exact h8
    | cons blk l ih => exact ih (shaBlock_length blk h8)
  have words := blocks (chunks 64 (shaPad m)) (h := shaInit) rfl
  have four (v : Nat) : (beBytes 4 v).length = 4 := by rw [beBytes, List.length_reverse, length_bytesOf]
  simp only [sha256, List.length_flatMap, four, List.map_const', words]
  rfl

end Sys2Proof.Machine
end

section
/-! SUPPORT. Provenance records (R267 to R269, Tables 9.2 and 9.3). -/

namespace Sys2Proof.Machine

variable (s : State) (t : Machine.Task)

/-- Table 9.2, the flag byte with the reserved one behind it as one field. -/
theorem State.preimage_eq (step : Nat) : s.preimage step = padTo 32 s.job.digest ++ (padTo 32 s.job.weights ++ (s.inputDigest step ++
    (bytesOf 8 s.job.seed ++ (bytesOf 4 step ++ (bytesOf 2 s.job.v ++ (bytesOf 2 s.job.n ++ (bytesOf 2 s.job.contract ++
      ((bytesOf 1 (ofBool s.job.ftz + 2 * ofBool s.job.strict) ++ zeros 1) ++ (bytesOf 4 s.job.rank ++ zeros 8))))))))) := by
  simp only [State.preimage, List.append_assoc]

@[simp] theorem State.inputDigest_length (step : Nat) : (s.inputDigest step).length = 32 := sha256_length _

@[simp] theorem State.preimage_length (step : Nat) : (s.preimage step).length = 128 := by
  simp [State.preimage_eq]

/-- The 192 bytes of Table 9.3. -/
def State.provRecord (first : Nat) : List Byte :=
  s.preimage t.step.toNat ++ (sha256 (s.preimage t.step.toNat) ++ (bytesOf 2 t.vcore ++ (bytesOf 1 t.strand ++ (bytesOf 1 (ofBool t.resubmitted) ++
    (bytesOf 4 t.taskNo ++ (bytesOf 8 first ++ (bytesOf 4 t.provChks.length ++
      (bytesOf 4 (crc32c (t.provChks.flatMap fun c => bytesOf 4 c.toNat)).toNat ++ (bytesOf 4 s.job.prov.next ++ zeros 4)))))))))

/-- The fields of the preimage. -/
theorem State.preimage_fields (step : Nat) :
    let pre := s.preimage step
    sub pre 0 32 = padTo 32 s.job.digest ∧ sub pre 32 32 = padTo 32 s.job.weights ∧ sub pre 64 32 = s.inputDigest step ∧
      natAt pre 96 8 = s.job.seed % 2 ^ 64 ∧ natAt pre 104 4 = step % 2 ^ 32 ∧ natAt pre 108 2 = s.job.v % 65536 ∧
      natAt pre 110 2 = s.job.n % 65536 ∧ natAt pre 112 2 = s.job.contract % 65536 ∧
      natAt pre 114 2 = ofBool s.job.ftz + 2 * ofBool s.job.strict ∧ natAt pre 116 4 = s.job.rank % 2 ^ 32 ∧ natAt pre 120 8 = 0 := by
  have flags : natOf (bytesOf 1 (ofBool s.job.ftz + 2 * ofBool s.job.strict) ++ zeros 1) = ofBool s.job.ftz + 2 * ofBool s.job.strict := by
    rw [natOf_append, natOf_bytesOf, natOf_zeros]
    cases s.job.ftz <;> cases s.job.strict <;> rfl
  simp only [State.preimage_eq]
  refine ⟨?_, ?_, ?_, ?_, ?_, ?_, ?_, ?_, ?_, ?_, ?_⟩
  all_goals simp [natAt, sub_append_skip, sub_append_first, sub_whole, natOf_bytesOf, natOf_zeros, flags, -List.append_assoc]

/-- The record begins with the preimage. -/
theorem State.provRecord_preimage {first off n : Nat} (h : off + n ≤ 128) :
    sub (s.provRecord t first) off n = sub (s.preimage t.step.toNat) off n := by
  rw [State.provRecord, sub_append_within (by rw [State.preimage_length]; exact h)]

/-- The preimage's fields in the record. -/
theorem State.provRecord_inputs (first : Nat) :
    let record := s.provRecord t first
    sub record 0 32 = padTo 32 s.job.digest ∧ sub record 32 32 = padTo 32 s.job.weights ∧ sub record 64 32 = s.inputDigest t.step.toNat ∧
      natAt record 96 8 = s.job.seed % 2 ^ 64 ∧ natAt record 104 4 = t.step.toNat ∧ natAt record 108 2 = s.job.v % 65536 ∧
      natAt record 110 2 = s.job.n % 65536 ∧ natAt record 112 2 = s.job.contract % 65536 ∧
      natAt record 114 2 = ofBool s.job.ftz + 2 * ofBool s.job.strict ∧ natAt record 116 4 = s.job.rank % 2 ^ 32 ∧
      natAt record 120 8 = 0 := by
  have stepWord : t.step.toNat % 2 ^ 32 = t.step.toNat := Nat.mod_eq_of_lt t.step.isLt
  have inputs := s.preimage_fields t.step.toNat
  rw [stepWord] at inputs
  simpa only [natAt, State.provRecord_preimage, Nat.reduceAdd, Nat.reduceLeDiff] using inputs

/-- The fields behind the preimage. -/
theorem State.provRecord_fields (first : Nat) :
    let record := s.provRecord t first
    record.length = 192 ∧ sub record 128 32 = sha256 (sub record 0 128) ∧ natAt record 160 2 = t.vcore % 65536 ∧
      natAt record 162 1 = t.strand % 256 ∧ natAt record 163 1 = ofBool t.resubmitted ∧ natAt record 164 4 = t.taskNo % 2 ^ 32 ∧
      natAt record 168 8 = first % 2 ^ 64 ∧ natAt record 176 4 = t.provChks.length % 2 ^ 32 ∧
      natAt record 180 4 = (crc32c (t.provChks.flatMap fun c => bytesOf 4 c.toNat)).toNat ∧
      natAt record 184 4 = s.job.prov.next % 2 ^ 32 ∧ natAt record 188 4 = 0 := by
  have resubmitted : natOf (bytesOf 1 (ofBool t.resubmitted)) = ofBool t.resubmitted := by
    cases t.resubmitted <;> rfl
  have check : natOf (bytesOf 4 (crc32c (t.provChks.flatMap fun c => bytesOf 4 c.toNat)).toNat) =
      (crc32c (t.provChks.flatMap fun c => bytesOf 4 c.toNat)).toNat := by
    rw [natOf_bytesOf]
    exact Nat.mod_eq_of_lt (crc32c _).isLt
  refine ⟨by simp [State.provRecord], ?_, ?_, ?_, ?_, ?_, ?_, ?_, ?_, ?_, ?_⟩
  all_goals simp [State.provRecord, natAt, sub_append_skip, sub_append_first, sub_whole, resubmitted, check, natOf_bytesOf, natOf_zeros,
    -List.append_assoc]

variable {s t}

/-- A task that stored into no result region forms no record (R267). -/
theorem State.provenance_none (h : t.provBlock = none) : s.provenance t = s := by
  rw [State.provenance, h]

theorem State.provenance_lost {first : Nat} (h : t.provBlock = some first) (full : s.job.prov.buf.total < 192 * (s.job.prov.next + 1)) :
    s.provenance t = ({ s with rep := { s.rep with provLost := s.rep.provLost + 1 } } : State).post 0x0902
      (bytesOf 4 t.step.toNat ++ bytesOf 2 t.vcore ++ bytesOf 1 t.strand) := by
  have noRoom : s.job.prov.room 192 = false := decide_eq_false (by omega)
  simp only [State.provenance, h, noRoom, Bool.false_eq_true, if_false]

theorem State.provenance_appends {first : Nat} (h : t.provBlock = some first) (room : 192 * (s.job.prov.next + 1) ≤ s.job.prov.buf.total) :
    s.provenance t = { s.writeBuf s.job.prov.buf (192 * s.job.prov.next) (s.provRecord t first) with
      job := { (s.writeBuf s.job.prov.buf (192 * s.job.prov.next) (s.provRecord t first)).job with
        prov := { s.job.prov with next := s.job.prov.next + 1 } } } := by
  have hasRoom : s.job.prov.room 192 = true := decide_eq_true (by omega)
  simp only [State.provenance, h, hasRoom, if_true, State.provRecord, List.append_assoc]

end Sys2Proof.Machine
end

section
/-! SUPPORT. Witness units: what an issued WTAP comes to, how a feed is read, and how long a full queue holds the core (O24). -/

namespace Sys2Proof.Machine

section
variable {s : State} {p : Fin 20} {k : Fin 128} {w : IWord} {v : VCore} {t : Nat} {checks : Strand → List EncCheck}
  (runs : s.Runs p k w v t false .none fun _ _ st => checks st) (body : State → VCore → Strand → Nat → State)
include runs

/-- R188: the image assigns the unit to another strand or to none. -/
theorem State.issueWtap_unassigned (unassigned : (fld w 24 3, k.val) ∉ (s.vcoreAt p v t).witness) :
    s.issueWtap p k w checks body = .next ((s.advance p t).fault p k 3 0x061 (fld w 24 3 + 0x10)) := by
  have no : (s.vcoreAt p v t).witness.contains (fld w 24 3, k.val) = false := by simpa using unassigned
  rw [State.issueWtap, State.issue_of_runs runs _, no]
  rfl

theorem State.issueWtap_assigned (assigned : (fld w 24 3, k.val) ∈ (s.vcoreAt p v t).witness) :
    s.issueWtap p k w checks body = .next (body (s.advance p t) (s.vcoreAt p v t) v.strands[k] t) := by
  have yes : (s.vcoreAt p v t).witness.contains (fld w 24 3, k.val) = true := by simpa using assigned
  rw [State.issueWtap, State.issue_of_runs runs _, yes]
  rfl

end

/-! ### Reading a feed -/

section
variable {s : State} {p : Fin 20} {v : VCore} (resident : (s.core p).v = some v)
include resident

/-- Without accepted tasks no access of an instruction crosses one's (R211). -/
theorem State.arrive_of_no_tasks (idle : (s.core p).tasks = []) (accs : List Access) : s.arrive p accs = s := by
  have none : (s.core p).tileAccs accs = [] := by simp [Core.tileAccs, resident, idle]
  simp [State.arrive, none]

/-- Where no correctable error stands, SEC-DED corrects nothing. -/
theorem State.correct_of_clean (tile : v.tileSoft = []) (acc : v.accSoft = []) (pair : Bool) (accs : List Access) :
    s.correct p pair accs = s := by
  simp [State.correct, resident, tile, acc]

/-- A read of tile memory in which no error stands, on a core without tasks, meets nothing. -/
theorem State.meet_of_clean (idle : (s.core p).tasks = []) (bad : v.tileBad = []) (tile : v.tileSoft = []) (acc : v.accSoft = []) (r : Run)
    (lo len cycle : Nat) : s.meet p r false [r.read .tile lo len cycle] = (s, r) := by
  have sound : v.badAccess (r.read .tile lo len cycle) = none := by
    simp [VCore.badAccess, Run.read, Access.read, bad, badWord]
  rw [State.meet, State.arrive_of_no_tasks resident idle, State.meetErrors, State.correct_of_clean resident tile acc]
  simp [resident, sound]

end

/-! ### Full queues (R273) -/

/-- The wait of `Witness.full64` is as long as 64 bytes have no room, and no longer. -/
theorem Witness.full64_least (y : Witness) (clk : Nat) (now : y.since ≤ clk) :
    y.left (clk + y.full64 clk) + 64 ≤ 262144 ∧ ∀ n < y.full64 clk, 262144 < y.left (clk + n) + 64 := by
  have left (m : Nat) : y.left (clk + m) = y.queued - 16 * (clk + m - y.since) / 5 := if_neg (by omega)
  have left0 : y.left clk = y.queued - 16 * (clk - y.since) / 5 := left 0
  simp only [left]
  by_cases fits : y.left clk + 64 ≤ 262144
  · have zero : y.full64 clk = 0 := if_pos fits
    rw [zero]
    exact ⟨by omega, fun n sooner => by omega⟩
  · have wait : y.full64 clk = (5 * (y.queued + 64 - 262144) + 16 - 1) / 16 - (clk - y.since) := if_neg fits
    rw [wait]
    exact ⟨by omega, fun n sooner => by omega⟩

theorem foldl_max_ge (xs : List Nat) (m : Nat) : m ≤ xs.foldl max m ∧ ∀ x ∈ xs, x ≤ xs.foldl max m := by
  induction xs generalizing m with
  | nil => simp
  | cons y ys ih =>
    obtain ⟨start, rest⟩ := ih (max m y)
    rw [List.foldl_cons, List.forall_mem_cons]
    exact ⟨by omega, by omega, rest⟩

theorem le_maxOf {xs : List Nat} {x : Nat} (h : x ∈ xs) : x ≤ maxOf xs := (foldl_max_ge xs 0).2 x h

/-- A feed whose queue is full asks for the periods until there is room. -/
theorem State.full64_le_bankDemand {s : State} {p : Fin 20} {n i : Nat} {r : Run} (due : (r, .feed i) ∈ (s.core p).piecesDue n) :
    (s.rep.units[fld r.q.word 24 3]!).full64 (s.core p).clk ≤ s.bankDemand p n :=
  Nat.le_trans (Nat.le_max_right _ _) (le_maxOf (List.mem_map_of_mem due))

/-- The clock period before a cycle for which the core has to wait is frozen under code 0x01. -/
theorem State.period_of_bankDemand {s : State} {p : Fin 20} (resident : (s.core p).v ≠ none)
    (waits : s.bankDemand p ((s.core p).cycle + 1) ≠ 0) : s.period p = s.freezeFor p ((s.core p).cycle + 1) 1 1 := by
  have here : ¬(s.core p).v.isNone = true := by rwa [Option.isNone_iff_eq_none]
  simp only [State.period, if_neg here, if_pos waits]

end Sys2Proof.Machine

open Sys2Proof Sys2Proof.Machine

/-- Settles O24: WTAP by the rule of an issue that runs to its end, the record of a digest unit by the branches of its instruction,
the provenance record by the fields of its two parts, and the wait of a full queue as the least that makes room for 64 bytes. -/
theorem witnessesAndTwins : Obligations.WitnessesAndTwins := by
  refine ⟨fun s p k ops v t w u => ?wtap, fun y rest => ⟨rfl, rfl, fun tag step => rfl, fun t0 bytes n => ⟨rfl, rfl⟩⟩,
    fun s p r i v => ?feed, Witness.full64_least, fun s p n r i => State.full64_le_bankDemand, fun s p => State.period_of_bankDemand,
    fun s unit tag step msg rest => ?record, fun s t => ?provenance, fun s record resubmitted => ?twin⟩
  case wtap =>
    intro x unit
    subst unit
    refine ⟨fun start runs => ?start, fun feed wop => ?feeds, fun finish runs => ?finish⟩
    case start =>
      subst start
      rw [exec_wtapStart, execWtapStart]
      exact ⟨State.issueWtap_unassigned runs _, State.issueWtap_assigned runs _⟩
    case feeds =>
      intro a n reads runs
      rw [exec_wtapFeed, execWtapFeed]
      rw [show (if fld (wordOf ops 0x061) 27 2 = 3 then wordOf ops 0x061 else withBits (wordOf ops 0x061) 27 2 0) = w from
        (if_neg wop).trans feed.symm]
      refine ⟨State.issueWtap_unassigned runs _, fun assigned readable clear =>
        (State.issueWtap_assigned runs _ assigned).trans (congrArg Host.Outcome.next ?_)⟩
      have readable' : (s.vcoreAt p v t).rangeFault [(taAt w v.strands[k].x 29, 64 * (fld w 51 16 + 1))] .read = none := readable
      simp only [readable']
      exact (State.audit_clear clear).trans (by rw [List.append_nil])
    case finish =>
      subst finish
      rw [exec_wtapFinish, execWtapFinish]
      refine ⟨State.issueWtap_unassigned runs _, fun assigned clear => (State.issueWtap_assigned runs _ assigned).trans ?_⟩
      simp only [State.audit_clear clear]
      rfl
  case feed =>
    intro u a resident idle defined bad tile acc
    simp only [State.feedPiece, State.meet_of_clean resident idle bad tile acc, defined, resident]
    rfl
  case record =>
    intro u ring clk s1 formed
    have formed' : s.rep.units[unit].finish = (tag, step, msg) :: rest := formed
    rw [exec_witnessRecord]
    simp only [execWitnessRecord, formed']
    refine ⟨fun full => ?full, fun room dma => ?appends⟩
    case full => rw [if_pos (by rw [full]; rfl)]
    case appends =>
      rw [if_neg (by rw [room]; decide), if_neg (by rw [dma]; decide)]
  case provenance =>
    refine ⟨State.provenance_none, fun first => State.provenance_lost, fun first h room =>
      ⟨s.provRecord t first, ?_, State.provenance_appends h room, ?_⟩⟩
    case refine_1 => exact (s.provRecord_fields t first).1
    case refine_2 =>
      obtain ⟨digest, weights, input, seed, step, v, n, contract, flags, rank, zero⟩ := s.provRecord_inputs t first
      obtain ⟨-, outputs⟩ := s.provRecord_fields t first
      exact ⟨digest, weights, input, seed, step, v, n, contract, flags, rank, zero, outputs⟩
  case twin =>
    refine ⟨fun twinned => ⟨if_pos twinned, ?_⟩, fun single => ⟨?_, ?_, ?_⟩, rfl⟩
    · rw [exec_twinHaltSignal, execTwinHaltSignal, twinned]
      rfl
    · exact if_neg (by rw [single]; decide)
    · rw [exec_twinHaltSignal, execTwinHaltSignal, single]
      rfl
    · rw [exec_twinJobEnd, execTwinJobEnd, State.twinLost, single]
      rfl
end

section
/-! SUPPORT. The bytes that one memory request carries (O22). -/

namespace Sys2Proof.Machine

@[simp] theorem takeRuns_zero (runs : List (Int × Nat)) : takeRuns 0 runs = [] := by
  cases runs <;> rfl

theorem takeRuns_within {n : Nat} {r : Int × Nat} (some_ : n ≠ 0) (within : n < r.2) (rs : List (Int × Nat)) :
    takeRuns n (r :: rs) = [(r.1, n)] := by
  rw [takeRuns, if_neg some_, if_neg (by omega)]

theorem takeRuns_past {r : Int × Nat} (nonempty : 0 < r.2) (n : Nat) (rs : List (Int × Nat)) :
    takeRuns (r.2 + n) (r :: rs) = r :: takeRuns n rs := by
  rw [takeRuns, if_neg (by omega), if_pos (by omega), Nat.add_sub_cancel_left]

/-- No byte fits, or the next run lies in another granule than the bytes before it. -/
theorem requestLen_stop {base : Int} {gran room : Nat} {key : Option Int} {r : Int × Nat} (rs : List (Int × Nat))
    (stop : room = 0 ∨ ∃ k ∈ key, k ≠ (base + r.1) / (gran : Int)) : requestLen base gran room key (r :: rs) = 0 := by
  rw [requestLen]
  refine if_pos ?_
  rcases stop with full | ⟨k, rfl, other⟩
  · simp [full]
  · simp [other]

/-- The part of the first run that a request with room takes, up to the end of the run's first granule. -/
theorem requestLen_first {base : Int} {gran room : Nat} {key : Option Int} {r : Int × Nat} (rs : List (Int × Nat)) (free : room ≠ 0)
    (same : ∀ k ∈ key, k = (base + r.1) / (gran : Int)) :
    let m := min (min r.2 room) ((((base + r.1) / (gran : Int) + 1) * gran - (base + r.1)).toNat)
    requestLen base gran room key (r :: rs) =
      if m = r.2 then m + requestLen base gran (room - m) (some ((base + r.1) / (gran : Int))) rs else m := by
  rw [requestLen]
  refine if_neg ?_
  cases key with
  | none => simp [free]
  | some k => simp [free, same k rfl]

/-- What lies between a byte and the end of its granule lies in that granule. -/
theorem last_in_granule {a : Int} {gran m : Nat} (size : 0 < gran) (some_ : 0 < m) (fits : (m : Int) ≤ (a / (gran : Int) + 1) * gran - a) :
    (a + m - 1) / (gran : Int) = a / (gran : Int) := by
  have positive : (0 : Int) < gran := by exact_mod_cast size
  have reached := Int.ediv_mul_le a (Int.ne_of_gt positive)
  have upper : (a + m - 1) / (gran : Int) < a / (gran : Int) + 1 := Int.ediv_lt_of_lt_mul positive (by omega)
  have lower : a / (gran : Int) ≤ (a + m - 1) / (gran : Int) := Int.le_ediv_of_mul_le positive (by omega)
  omega

/-- A request carries at most the bytes that it has room for, in one granule, which is that of the bytes before it. -/
theorem requestLen_in_granule {base : Int} {gran : Nat} (size : 0 < gran) {runs : List (Int × Nat)} (nonempty : ∀ x ∈ runs, 0 < x.2)
    (room : Nat) (key : Option Int) :
    requestLen base gran room key runs ≤ room ∧
    ∃ g : Int, (∀ k ∈ key, k = g) ∧ ∀ x ∈ takeRuns (requestLen base gran room key runs) runs,
      (base + x.1) / (gran : Int) = g ∧ (base + x.1 + x.2 - 1) / (gran : Int) = g := by
  have keyed (key : Option Int) : ∀ k ∈ key, k = key.getD 0 := fun k h => by rw [Option.mem_def.1 h]; rfl
  induction runs generalizing room key with
  | nil => exact ⟨Nat.zero_le _, _, keyed key, fun x h => nomatch h⟩
  | cons r rs ih =>
    by_cases stop : room = 0 ∨ ∃ k ∈ key, k ≠ (base + r.1) / (gran : Int)
    · rw [requestLen_stop rs stop, takeRuns_zero]
      exact ⟨Nat.zero_le _, _, keyed key, fun x h => nomatch h⟩
    · have free : room ≠ 0 := fun full => stop (.inl full)
      have same : ∀ k ∈ key, k = (base + r.1) / (gran : Int) := fun k h => Decidable.byContradiction fun other => stop (.inr ⟨k, h, other⟩)
      have first := requestLen_first rs free same
      extract_lets m at first
      have filled : 0 < r.2 := nonempty r List.mem_cons_self
      have ahead : base + r.1 < ((base + r.1) / (gran : Int) + 1) * gran := Int.lt_ediv_add_one_mul_self _ (by exact_mod_cast size)
      have taken : 0 < m := by omega
      have lies : (base + r.1 + m - 1) / (gran : Int) = (base + r.1) / (gran : Int) := last_in_granule size taken (by omega)
      rw [first]
      by_cases whole : m = r.2
      · obtain ⟨short, g, next, rest⟩ := ih (fun x h => nonempty x (List.mem_cons_of_mem _ h)) (room - m) (some ((base + r.1) / (gran : Int)))
        obtain rfl := next _ rfl
        rw [whole] at short rest lies
        rw [if_pos whole, whole, takeRuns_past filled]
        exact ⟨by omega, _, same, List.forall_mem_cons.2 ⟨⟨rfl, lies⟩, rest⟩⟩
      · rw [if_neg whole, takeRuns_within (by omega) (by omega)]
        exact ⟨by omega, _, same, List.forall_mem_singleton.2 ⟨rfl, lies⟩⟩

end Sys2Proof.Machine

open Sys2Proof Sys2Proof.Machine

/-- Settles O22: by induction on the runs, with the granule of the bytes already taken as the key. -/
theorem requestsStayInOneGranule : Obligations.RequestsStayInOneGranule := by
  intro base gran room runs size nonempty
  obtain ⟨fits, g, -, inside⟩ := requestLen_in_granule size nonempty room none
  exact ⟨fits, g, inside⟩
end

section
/-! SUPPORT. Records made of little-endian fields, read back (O42). -/

namespace Sys2Proof.Machine

/-! ### A field's number -/

@[simp] theorem natAt_append_skip {a b : List Byte} {off n : Nat} (behind : a.length ≤ off) : natAt (a ++ b) off n = natAt b (off - a.length) n :=
  congrArg natOf (sub_append_skip behind)

@[simp] theorem natAt_bytesOf_append (n v : Nat) (rest : List Byte) : natAt (bytesOf n v ++ rest) 0 n = v % 256 ^ n := by
  rw [natAt, sub_append_first (length_bytesOf n v), natOf_bytesOf]

@[simp] theorem natAt_bytesOf (n v : Nat) : natAt (bytesOf n v) 0 n = v % 256 ^ n := by
  rw [natAt, sub_whole (length_bytesOf n v), natOf_bytesOf]

/-- A field at a place `m` behind a first part. -/
theorem natAt_append_at {a b : List Byte} {off m n : Nat} (place : a.length + m = off) : natAt (a ++ b) off n = natAt b m n := by
  subst place
  rw [natAt_append_skip (Nat.le_add_right ..), Nat.add_sub_cancel_left]

/-- Field `i` of equally long ones. -/
theorem natAt_flatMap_bytesOf {α : Type} {f : α → Nat} {n : Nat} {xs : List α} {i : Nat} (h : i < xs.length) (rest : List Byte) :
    natAt (xs.flatMap (fun x => bytesOf n (f x)) ++ rest) (n * i) n = f xs[i] % 256 ^ n := by
  induction xs generalizing i with
  | nil => exact absurd h (Nat.not_lt_zero i)
  | cons x xs ih =>
    rw [List.flatMap_cons, List.append_assoc]
    cases i with
    | zero => exact natAt_bytesOf_append n (f x) _
    | succ i =>
      rw [natAt_append_at (by rw [length_bytesOf, Nat.mul_succ, Nat.add_comm])]
      exact ih (Nat.lt_of_succ_lt_succ h)

theorem length_flatMap_bytesOf {α : Type} (f : α → Nat) (n : Nat) (xs : List α) :
    (xs.flatMap fun x => bytesOf n (f x)).length = xs.length * n := by
  simp only [List.length_flatMap, length_bytesOf, List.map_const', List.sum_replicate_nat]

/-- A word's four bytes spell the word. -/
theorem ofNat_toNat_mod {w : Nat} (x : BitVec w) {n : Nat} (h : 2 ^ w ∣ n) : BitVec.ofNat w (x.toNat % n) = x := by
  apply BitVec.eq_of_toNat_eq
  rw [BitVec.toNat_ofNat, Nat.mod_mod_of_dvd _ h, Nat.mod_eq_of_lt x.isLt]

/-- Three flags stand in the bits of a field in order. -/
theorem bitAt_flags (a b c : Bool) : let n := ofBool a + 2 * ofBool b + 4 * ofBool c
    n < 8 ∧ bitAt n 0 = a ∧ bitAt n 1 = b ∧ bitAt n 2 = c := by
  revert a b c
  decide

/-! ### The records -/

theorem TileRegion.ofBytes_bytes {r : TileRegion} (id : r.id < 65536) (base : r.base < 4294967296) (len : r.len < 4294967296) :
    TileRegion.ofBytes r.bytes = r := by
  obtain ⟨small, rd, wr, ex⟩ := bitAt_flags r.rd r.wr r.ex
  simp [TileRegion.ofBytes, TileRegion.bytes, Nat.mod_eq_of_lt, id, base, len, Nat.lt_trans small, rd, wr, ex]

theorem Bounds.ofRecord_bytes {b : Bounds} (nan : b.nanMax < 65536) (inf : b.infMax < 65536) : Bounds.ofRecord b.bytes = b := by
  have enable : bitAt (ofBool b.enable % 256) 0 = b.enable := by cases b.enable <;> rfl
  simp [Bounds.ofRecord, Bounds.bytes, Nat.mod_eq_of_lt, nan, inf, enable, ofNat_toNat_mod]

theorem Fmt.code_lt (f : Fmt) : f.code < 16 := by cases f <;> decide
theorem Fmt.ofCode_code (f : Fmt) : Fmt.ofCode f.code = f := by cases f <;> rfl

/-- A block header and what follows it, field after field. -/
theorem Block.header_append (b : Block) (rest : List Byte) : b.header ++ rest =
    bytesOf 8 b.id ++ (bytesOf 4 b.step.toNat ++ (bytesOf 2 (b.region + 4096 * b.fmt.code) ++
      (bytesOf 2 (ofBool b.transposed + 2 * ofBool b.concealed + 4 * ofBool false) ++ (bytesOf 4 b.seq ++ (bytesOf 4 b.data.length ++
        (zeros 4 ++ (bytesOf 4 b.chk.toNat ++ rest))))))) := by
  simp only [Block.header, List.append_assoc]
  rfl

theorem Block.ofBytes_header {b : Block} (id : b.id < 18446744073709551616) (region : b.region < 4096) (seq : b.seq < 4294967296)
    (len : b.data.length < 4294967296) :
    Block.ofBytes (b.header ++ b.data) = { b with ext0 := 1 } := by
  have coded := b.fmt.code_lt
  have fits : b.region + 4096 * b.fmt.code < 65536 := by omega
  have low : (b.region + 4096 * b.fmt.code) % 4096 = b.region := by omega
  have high : (b.region + 4096 * b.fmt.code) / 4096 = b.fmt.code := by omega
  obtain ⟨small, transposed, concealed, -⟩ := bitAt_flags b.transposed b.concealed false
  have small' := Nat.lt_trans small (by decide : 8 < 65536)
  rw [Block.header_append]
  simp [Block.ofBytes, sub_append_skip, sub_whole, Nat.mod_eq_of_lt, id, fits, low, high, Fmt.ofCode_code, small', transposed, concealed, seq, len,
    ofNat_toNat_mod]

/-! ### A strand -/

/-- The code index that a strand's record holds: after a STEP held at the boundary. -/
def Strand.savedPc (st : Strand) : BitVec 16 := if st.wait = .step then st.pc + 1 else st.pc

/-- A loop counter in its field. -/
def loopField : Option (BitVec 24) → Nat
  | some n => n.toNat + 2 ^ 31
  | none => 0

theorem loopField_reads (l : Option (BitVec 24)) :
    (if bitAt (loopField l % 2 ^ 32) 31 then some (BitVec.ofNat 24 (loopField l % 2 ^ 32)) else none) = l := by
  cases l with
  | none => rfl
  | some n =>
    have small := n.isLt
    have active : bitAt (loopField (some n) % 2 ^ 32) 31 = true := by
      simp [loopField, bitAt, Nat.shiftRight_eq_div_pow]
      omega
    have count : BitVec.ofNat 24 (loopField (some n) % 2 ^ 32) = n := by
      apply BitVec.eq_of_toNat_eq
      rw [BitVec.toNat_ofNat, loopField]
      omega
    rw [if_pos active, count]

theorem Strand.bytes_eq (st : Strand) : st.bytes =
    (bytesOf 2 st.savedPc.toNat ++ bytesOf 1 st.claims.toNat ++ bytesOf 1 (ofBool st.live)) ++
      ((st.x.toList.flatMap fun x => bytesOf 4 x.toNat) ++ ((st.lc.toList.flatMap fun l => bytesOf 4 (loopField l)) ++ [])) := by
  simp only [Strand.bytes, List.append_assoc, List.append_nil]
  rfl

theorem Strand.natAt_register (st : Strand) {i : Nat} (h : i < 7) : natAt st.bytes (4 + 4 * i) 4 = st.x[i].toNat % 2 ^ 32 := by
  rw [Strand.bytes_eq, natAt_append_at (m := 4 * i) (by simp), natAt_flatMap_bytesOf (by simpa using h)]
  rfl

theorem Strand.natAt_counter (st : Strand) {i : Nat} (h : i < 4) : natAt st.bytes (32 + 4 * i) 4 = loopField st.lc[i] % 2 ^ 32 := by
  rw [Strand.bytes_eq, natAt_append_at (m := 28 + 4 * i) (by simp; omega),
    natAt_append_at (m := 4 * i) (by rw [length_flatMap_bytesOf, Vector.length_toList]), natAt_flatMap_bytesOf (by simpa using h)]
  rfl

/-- What comes back of a strand. -/
theorem Strand.ofBytes_bytes (st : Strand) : let u := Strand.ofBytes st.bytes
    u.pc = st.savedPc ∧ u.claims = st.claims ∧ u.live = st.live ∧ u.x = st.x ∧ u.lc = st.lc := by
  have live : (ofBool st.live % 256 == 1) = st.live := by cases st.live <;> rfl
  refine ⟨?_, ?_, ?_, ?_, ?_⟩
  · simp [Strand.ofBytes, Strand.bytes_eq, ofNat_toNat_mod]
  · simp [Strand.ofBytes, Strand.bytes_eq, ofNat_toNat_mod]
  · simp [Strand.ofBytes, Strand.bytes_eq, live]
  · refine Vector.ext fun i h => (Vector.getElem_ofFn h).trans ?_
    rw [st.natAt_register h, ofNat_toNat_mod _ (Nat.dvd_refl _)]
  · refine Vector.ext fun i h => (Vector.getElem_ofFn h).trans ?_
    rw [st.natAt_counter h]
    exact loopField_reads _

end Sys2Proof.Machine

open Sys2Proof Sys2Proof.Machine

/-- Settles O42: every field by its place in the record. -/
theorem recordsComeBack : Obligations.RecordsComeBack := by
  refine ⟨fun st other => ?strand, fun st held => ?held, fun r id base len => TileRegion.ofBytes_bytes id base len,
    fun b nan inf => Bounds.ofRecord_bytes nan inf, fun b id region fmt seq len => Block.ofBytes_header id region seq len⟩
  case strand =>
    obtain ⟨pc, rest⟩ := st.ofBytes_bytes
    exact ⟨pc.trans (if_neg other), rest⟩
  case held => exact st.ofBytes_bytes.1.trans (if_pos held)
end

section
/-! SUPPORT. Descriptor runs, and the issue and end of a stage's requests (O21). -/

namespace Sys2Proof.Machine

/-! ### Which stages issue requests over descriptors -/

theorem Stage.reads_iff (st : Stage) (i : Nat) : st.reads i = true ↔ st.kind = .load ∨ st.kind = .coll ∧ i = 0 ∧ st.phase < 4 := by
  simp [Stage.reads, and_assoc]

theorem Stage.writes_iff (st : Stage) : st.writes = true ↔ st.kind = .store ∨ st.outputs = true := by
  simp [Stage.writes]

theorem Stage.kind_of_outputs {st : Stage} (h : st.outputs = true) : st.kind = .coll ∧ st.phase = 4 := by
  simp only [Stage.outputs, Bool.and_eq_true, beq_iff_eq] at h
  exact h.1

/-- A writing stage reads no block from memory. -/
theorem Stage.reads_of_writes {st : Stage} (i : Nat) (writes : st.writes = true) : st.reads i = false := by
  rw [Bool.eq_false_iff, Ne, Stage.reads_iff]
  rcases st.writes_iff.1 writes with store | outputs
  · simp [store]
  · obtain ⟨coll, phase⟩ := Stage.kind_of_outputs outputs
    simp [coll, phase]

/-- A stage that neither loads nor stores, and no collective at its input or output, issues no request over its descriptors. -/
theorem Stage.works {st : Stage} {i : Nat} (kind : st.kind ∈ [StageKind.expand, .epilogue, .feed, .send, .dispatch] ∨
    st.kind = .coll ∧ ¬(st.kind = .coll ∧ i = 0 ∧ st.phase < 4) ∧ st.outputs = false) : st.reads i = false ∧ st.writes = false := by
  rw [Bool.eq_false_iff, Ne, Stage.reads_iff, Bool.eq_false_iff, Ne, Stage.writes_iff]
  rcases kind with other | ⟨coll, later, inner⟩
  · have notColl : st.kind ≠ .coll := fun coll => by simp [coll] at other
    refine ⟨?_, ?_⟩
    · rintro (load | ⟨coll, -⟩)
      · simp [load] at other
      · exact notColl coll
    · rintro (store | outputs)
      · simp [store] at other
      · exact notColl (kind_of_outputs outputs).1
  · simp only [coll, true_and] at later
    simp [coll, inner, later]

/-! ### Descriptor runs (R214) -/

section
variable {r : TaskRun} {i rid off len first n : Nat} (list : r.list i = some (rid, off, len))
  (held : (r.stage i).dropped + (r.stage i).descs.length = first) (run : min 64 (len - first) = n)
include list held run

theorem TaskRun.fetchRun_full (full : n = 0 ∨ 4096 < (r.s.core r.p).cached + n) : r.fetchRun i = r := by
  subst held run
  simp only [TaskRun.fetchRun, list]
  exact if_pos (by simpa using full)

section
variable (some_ : n ≠ 0) (room : (r.s.core r.p).cached + n ≤ 4096) {r1 : TaskRun}
include some_ room

theorem TaskRun.fetchRun_reads {bs : List Byte} (got : r.get rid (off + 64 * first : Nat) (64 * n) = (r1, .ok bs)) :
    let r2 := r1.modStage i fun st => { st with descs := st.descs ++ chunks 64 bs }
    r.fetchRun i = if (r1.s.job.region rid).any fun q => q.kind == .gddr
      then { r2 with s := r2.s.modCore r2.p fun c => { c with dfetchCnt := c.dfetchCnt + 1 } } else r2 := by
  subst held run
  simp only [TaskRun.fetchRun, list, got]
  exact if_neg (by simp only [Bool.or_eq_true, decide_eq_true_eq]; omega)

theorem TaskRun.fetchRun_bad {c a : Nat} (got : r.get rid (off + 64 * first : Nat) (64 * n) = (r1, .bad c a)) :
    r.fetchRun i = r1.fail i first 0 c a := by
  subst held run
  simp only [TaskRun.fetchRun, list, got]
  exact if_neg (by simp only [Bool.or_eq_true, decide_eq_true_eq]; omega)

end
end

/-- A stage of a running task's chain passes the guard of its commands. -/
theorem stage_unguarded {t : Machine.Task} {stage : Fin 6} (running : t.abort = none) (inChain : stage.val < t.stages.length) :
    (t.abort.isSome || decide (t.stages.length ≤ stage.val)) = false := by
  rw [running, decide_eq_false (Nat.not_le.2 inChain)]
  rfl

section
variable {s : State} {p : Fin 20} {task : Nat} {stage : Fin 6} {t : Machine.Task} {r : TaskRun} (held : s.task p task = some t)
  (run : ({ s, p, t } : TaskRun) = r)
include held run

section
variable (running : t.abort = none)
include running

section
variable (noXfers : (r.stage stage.val).xfers = [])
include noXfers

/-- A stage that reads or writes blocks waits while 1,024 requests are outstanding (R213). -/
theorem execStageRequestIssue_full (accesses : (r.stage stage.val).reads stage.val = true ∨ (r.stage stage.val).writes = true)
    (full : r.room = false) : execStageRequestIssue p task stage s = .next s := by
  subst run
  simp only [execStageRequestIssue, held, running, noXfers, full]
  rcases accesses with reads | writes
  · simp [reads]
  · simp [writes]
end

variable (inChain : stage.val < t.stages.length)
include inChain

theorem execDescriptorRunFetch_of : execDescriptorRunFetch p task stage s = .next (r.fetchRun stage.val).done := by
  subst run
  simp only [execDescriptorRunFetch, held, stage_unguarded running inChain, Bool.false_eq_true, if_false]

/-! ### Issue of a request (R212, R213) -/

theorem execStageRequestIssue_xfers (own : (r.stage stage.val).xfers ≠ []) : execStageRequestIssue p task stage s =
    if r.room then .next (r.issueXfer stage.val).done else .next s := by
  have own' := List.isEmpty_eq_false_iff.2 own
  subst run
  simp only [execStageRequestIssue, held, stage_unguarded running inChain, own', Bool.false_eq_true, if_false, Bool.not_false, if_true]
  cases ({ s, p, t } : TaskRun).room <;> rfl

variable (noXfers : (r.stage stage.val).xfers = [])
include noXfers

theorem execStageRequestIssue_load (load : (r.stage stage.val).kind = .load) (room : r.room = true) :
    execStageRequestIssue p task stage s = .next (r.issueRead stage.val).done := by
  have reads := ((r.stage stage.val).reads_iff stage.val).2 (.inl load)
  have notColl : (r.stage stage.val).kind ≠ .coll := by rw [load]; decide
  subst run
  simp only [execStageRequestIssue, held, stage_unguarded running inChain, noXfers, List.isEmpty_nil, reads, room, if_neg notColl, Bool.not_true,
    Bool.false_eq_true, if_false, if_true]

/-- A COLL stage runs its chain first, then reads for the task as it stands then. -/
theorem execStageRequestIssue_coll {t2 : Machine.Task} (coll : (r.stage stage.val).kind = .coll)
    (reads : (r.stage stage.val).reads stage.val = true) (room : r.room = true) (still : (r.chain stage.val).task p task = some t2) :
    execStageRequestIssue p task stage s = .next (TaskRun.issueRead { s := r.chain stage.val, p, t := t2 } stage.val).done := by
  subst run
  simp only [TaskRun.chain] at still ⊢
  simp only [execStageRequestIssue, held, stage_unguarded running inChain, noXfers, List.isEmpty_nil, reads, room, if_pos coll, still, Bool.not_true,
    Bool.false_eq_true, if_false, if_true]

theorem execStageRequestIssue_writes (writes : (r.stage stage.val).writes = true) (room : r.room = true) :
    execStageRequestIssue p task stage s = .next (r.issueWrite stage.val).done := by
  have reads := Stage.reads_of_writes stage.val writes
  subst run
  simp only [execStageRequestIssue, held, stage_unguarded running inChain, noXfers, List.isEmpty_nil, reads, writes, room, Bool.not_true,
    Bool.false_eq_true, if_false, if_true]

theorem execStageRequestIssue_works (reads : (r.stage stage.val).reads stage.val = false) (writes : (r.stage stage.val).writes = false) :
    execStageRequestIssue p task stage s = .next (r.chain stage.val) := by
  subst run
  simp only [execStageRequestIssue, held, stage_unguarded running inChain, noXfers, List.isEmpty_nil, reads, writes, Bool.not_true,
    Bool.false_eq_true, if_false]

end

/-! ### The end of a request (R213, R431) -/

theorem execMemoryRequestComplete_of {outcome : ReqOutcome} {q : Req} {qs : List Req} (oldest : (r.stage stage.val).reqs = q :: qs) :
    execMemoryRequestComplete p task stage outcome s =
    if q.held || (!q.tile && inHost q.addr && !s.host.dma && outcome != .linkError) then .next s
    else .next (if (r.endRequest stage.val q outcome).t.abort.isSome then (r.endRequest stage.val q outcome).done
      else (r.endRequest stage.val q outcome).chain stage.val) := by
  subst run
  simp only [execMemoryRequestComplete, held, oldest]

end

end Sys2Proof.Machine

open Sys2Proof Sys2Proof.Machine

/-- Settles O21: a descriptor run by the room for it, an issue by the kind of the stage, the end of a request by whether it can proceed. -/
theorem streamsIssueRequests : Obligations.StreamsIssueRequests := by
  refine ⟨fun s p task stage t rid off len => ?fetch, fun s p task stage t => ?issue, fun s p task stage outcome t q qs => ?ends⟩
  case fetch =>
    intro r st first n held running inChain list
    rw [exec_descriptorRunFetch, execDescriptorRunFetch_of held rfl running inChain]
    refine ⟨fun full => ?_, fun some_ room r1 => ⟨fun bs got => ?_, fun c a got => ?_⟩⟩
    · rw [TaskRun.fetchRun_full list rfl rfl full]
    · rw [TaskRun.fetchRun_reads list rfl rfl some_ room got, apply_ite TaskRun.done]
    · rw [TaskRun.fetchRun_bad list rfl rfl some_ room got]
  case issue =>
    intro r st input chained held running inChain
    rw [exec_stageRequestIssue]
    refine ⟨fun own => ?own, fun noXfers => ⟨fun load room => execStageRequestIssue_load held rfl running inChain noXfers load room,
      fun first room t2 still => ?coll, fun out room => ?write, fun any full => ?full, fun works => ?works⟩⟩
    case own =>
      rw [execStageRequestIssue_xfers held rfl running inChain own]
      exact ⟨fun room => if_pos room, fun full => if_neg (by rw [full]; decide)⟩
    case coll =>
      exact execStageRequestIssue_coll held rfl running inChain noXfers first.1 ((st.reads_iff _).2 (.inr first)) room still
    case write => exact execStageRequestIssue_writes held rfl running inChain noXfers (st.writes_iff.2 out) room
    case full =>
      refine execStageRequestIssue_full held rfl running noXfers ?_ full
      rw [Stage.reads_iff, Stage.writes_iff, or_assoc]
      exact any
    case works =>
      obtain ⟨reads, writes⟩ := Stage.works works
      exact execStageRequestIssue_works held rfl running inChain noXfers reads writes
  case ends =>
    intro r r2 held oldest
    rw [exec_memoryRequestComplete, execMemoryRequestComplete_of held rfl oldest]
    refine ⟨fun waits => ?_, fun free proceeds => ?_, fun free tile host blocked alive => ?_⟩
    · rw [waits]
      rfl
    · rw [if_neg (by rcases proceeds with tile | near | dma | error <;> simp [*])]
      refine ⟨fun runs => ?_, fun a aborts => ?_⟩
      · rw [runs]
        rfl
      · rw [aborts]
        rfl
    · exact if_pos (by simp [tile, host, blocked, alive])
end

section
/-! SUPPORT. The end of a task, and what a write to STRM_RESUBMIT comes to (O23). -/

namespace Sys2Proof.Machine

@[simp] theorem State.charge_job (s : State) (b d1 d2 d3 : Nat) : (s.charge b d1 d2 d3).job = s.job := rfl

@[simp] theorem State.chargeTile_job (s : State) (p : Fin 20) : (s.chargeTile p).job = s.job := rfl

@[simp] theorem State.correct_job (s : State) (p : Fin 20) (pair : Bool) (accs : List Access) : (s.correct p pair accs).job = s.job := by
  unfold State.correct
  split
  · rfl
  · split
    · rfl
    · exact State.charge_job ..

/-! ### The end of a task (R215, R216) -/

section
variable {s : State} {p : Fin 20} {task : Nat} {t : Machine.Task} (held : s.task p task = some t)
include held

/-- R431: the provenance record waits for host memory. -/
theorem execTaskEnd_waits (running : t.abort = none) (record : t.provBlock ≠ none) (dma : s.host.dma = false) :
    execTaskEnd p task s = .next s := by
  simp [execTaskEnd, held, running, record, dma]

variable {r : TaskRun} (run : ({ s, p, t } : TaskRun) = r)
include run

section
variable (running : t.abort = none)
include running

theorem execTaskEnd_incomplete (incomplete : r.complete = false) : execTaskEnd p task s = .next s := by
  subst run
  simp [execTaskEnd, held, running, incomplete]

theorem execTaskEnd_complete (complete : r.complete = true) (writable : t.provBlock = none ∨ s.host.dma = true) :
    execTaskEnd p task s = .next r.finish := by
  subst run
  simp [execTaskEnd, held, running, complete, writable]

end

/-- R216: an aborted task ends once its requests and its sent blocks are back. -/
theorem execTaskEnd_aborted {a : AbortInfo} (aborted : t.abort = some a) (back : ∀ st ∈ t.stages, st.reqs = [])
    (answered : ∀ o ∈ s.fab.tx, o.core = p.val → o.task = task → o.target = .send → o.awaits = false) :
    execTaskEnd p task s = .next r.finish := by
  have sent : (s.fab.tx.any fun o => o.core == p.val && o.task == task && o.target == .send && o.awaits) = false := by
    simpa using answered
  subst run
  simp only [execTaskEnd, held, aborted, Option.isSome_some, if_true, sent]
  exact if_pos (by simpa using back)

end

/-! ### Resubmission (R218) -/

/-- The task that a completion record at `crec` names, with the command that its core issued for it. -/
def Core.recordTask (c : Core) (v : VCore) (crec : Nat) : Machine.Task :=
  let record := v.readTile crec 64
  let info := natAt record 48 8
  let cmd := natAt record 56 4
  let known := match c.issuedFor.find? fun e => e.1 == crec with
    | some e => e.2
    | none => (0x050, 0, 0)
  { id := c.nextTask, vcore := v.num, strand := bitsAt info 20 7, step := BitVec.ofNat 32 (natAt record 28 4), cmd, crec,
    tok := bitsAt info 0 8, tinc := bitsAt info 8 12, pc := known.2.1, opcode := known.1, taskNo := known.2.2, resubmitted := true,
    arrival := known.1 == 0x201, stages := stagesOf (v.readTile cmd 208), reqNo := 0, delivered := 0, merged := 0, spilled := 0,
    abort := none, provChks := [], provBlock := none, touched := [], met := [] }

/-- A task whose command cannot be taken again ends at once, aborted with a cause. -/
def State.endAtOnce (s : State) (p : Fin 20) (t : Machine.Task) (cause a : Nat) : State :=
  let t := { t with stages := [], abort := some ⟨cause, 0, noDesc, 0, 0, 0, a⟩ }
  ((s.writeRecord p t 2).modCore p fun c => c.raise 0x0D 0 0 0 t.crec).resubmissionEnded p t

/-- Why the command record of a task is not taken again, as cause and address: it lies outside its region, cannot be read or breaks a rule. -/
def VCore.refusal (v : VCore) (ranks : Nat) (t : Machine.Task) : Option (Nat × Nat) :=
  match v.regionFault t.cmd 208 .read with
  | some a => some (2, infoAddr a)
  | none => match badWord v.tileBad t.cmd 208 with
    | some a => some (4, a)
    | none => if (commandFault v ranks t.arrival (v.readTile t.cmd 208)).isSome then some (3, 0) else none

theorem VCore.refusal_outside {v : VCore} {t : Machine.Task} {a : Int} (outside : v.regionFault t.cmd 208 .read = some a) (ranks : Nat) :
    v.refusal ranks t = some (2, infoAddr a) := by
  simp only [VCore.refusal, outside]

section
variable {v : VCore} {t : Machine.Task} (within : v.regionFault t.cmd 208 .read = none)
include within

theorem VCore.refusal_unreadable {a : Nat} (bad : badWord v.tileBad t.cmd 208 = some a) (ranks : Nat) : v.refusal ranks t = some (4, a) := by
  simp only [VCore.refusal, within, bad]

variable (readable : badWord v.tileBad t.cmd 208 = none) {ranks : Nat}
include readable

theorem VCore.refusal_illegal {b : Nat} (illegal : commandFault v ranks t.arrival (v.readTile t.cmd 208) = some b) :
    v.refusal ranks t = some (3, 0) := by
  simp only [VCore.refusal, within, readable, illegal, Option.isSome_some, if_true]

theorem VCore.refusal_legal (legal : commandFault v ranks t.arrival (v.readTile t.cmd 208) = none) : v.refusal ranks t = none := by
  simp only [VCore.refusal, within, readable, legal, Option.isSome_none, Bool.false_eq_true, if_false]

end

/-- The resubmission reads `n` bytes at tile address `a`. -/
def State.readAgain (s : State) (p : Fin 20) (a n : Nat) : State := s.correct p false [⟨.tile, a, n, false, 0, 0, 0, 0, false, []⟩]

section
variable {s : State} {p : Fin 20} {crec : Nat}

theorem State.resubmit_empty (empty : (s.core p).v = none) : s.resubmit p crec = s.modCore p fun c => { c with resubLost := true } := by
  simp only [State.resubmit, empty]

variable {v : VCore} (resident : (s.core p).v = some v)
include resident

theorem State.resubmit_lost (lost : 64 ≤ (s.core p).tasks.length ∨ (v.regionFault crec 64 .write).isSome = true) :
    s.resubmit p crec = s.modCore p fun c => { c with resubLost := true } := by
  simp only [State.resubmit, resident]
  exact if_pos (by simpa using lost)

variable (room : (s.core p).tasks.length < 64) (inside : v.regionFault crec 64 .write = none) {task : Machine.Task}
  (names : (s.core p).recordTask v crec = task)
include room inside names

/-- The record is read, then the command record where its region holds it; the command is refused, rejected or launched. -/
theorem State.resubmit_of : s.resubmit p crec =
    let s1 := s.readAgain p crec 64
    let s2 := if (v.regionFault task.cmd 208 .read).isSome then s1 else s1.readAgain p task.cmd 208
    (v.refusal s.job.n task).elim
      (if s.job.rejects task.stages then (s2.writeRecord p task 3).modCore p fun c => c.raise 8 0 0 0 crec else s2.launch p task)
      fun e => (if e.1 = 4 then s2.chargeTile p else s2).endAtOnce p task e.1 e.2 := by
  subst names
  have command : ((s.core p).recordTask v crec).cmd = natAt (v.readTile crec 64) 56 4 := rfl
  have job1 : (s.readAgain p crec 64).job = s.job := State.correct_job ..
  have job2 : ((s.readAgain p crec 64).readAgain p (natAt (v.readTile crec 64) 56 4) 208).job = s.job := (State.correct_job ..).trans job1
  unfold State.readAgain at *
  simp only [State.resubmit, resident, inside, VCore.refusal, command]
  rw [if_neg (by simp; omega)]
  unfold State.endAtOnce Core.recordTask
  rcases v.regionFault (natAt (v.readTile crec 64) 56 4 : Nat) 208 .read with _ | a
  case some => rfl
  rcases badWord v.tileBad (natAt (v.readTile crec 64) 56 4) 208 with _ | a
  case some => rfl
  simp only [Option.isSome_none, Bool.false_eq_true, if_false, job2]
  generalize commandFault v s.job.n _ _ = fault
  cases fault <;> rfl

theorem State.resubmit_outside {a : Int} (outside : v.regionFault task.cmd 208 .read = some a) :
    s.resubmit p crec = (s.readAgain p crec 64).endAtOnce p task 2 (infoAddr a) := by
  simp only [State.resubmit_of resident room inside names, VCore.refusal_outside outside, outside]
  rfl

section
variable (within : v.regionFault task.cmd 208 .read = none)
include within

theorem State.resubmit_unreadable {a : Nat} (bad : badWord v.tileBad task.cmd 208 = some a) :
    s.resubmit p crec = (((s.readAgain p crec 64).readAgain p task.cmd 208).chargeTile p).endAtOnce p task 4 a := by
  simp only [State.resubmit_of resident room inside names, VCore.refusal_unreadable within bad, within]
  rfl

variable (readable : badWord v.tileBad task.cmd 208 = none)
include readable

theorem State.resubmit_illegal {b : Nat} (illegal : commandFault v s.job.n task.arrival (v.readTile task.cmd 208) = some b) :
    s.resubmit p crec = ((s.readAgain p crec 64).readAgain p task.cmd 208).endAtOnce p task 3 0 := by
  simp only [State.resubmit_of resident room inside names, VCore.refusal_illegal within readable illegal, within]
  rfl

theorem State.resubmit_legal (legal : commandFault v s.job.n task.arrival (v.readTile task.cmd 208) = none) :
    s.resubmit p crec =
      let s2 := (s.readAgain p crec 64).readAgain p task.cmd 208
      if s.job.rejects task.stages then (s2.writeRecord p task 3).modCore p fun c => c.raise 8 0 0 0 crec else s2.launch p task := by
  simp only [State.resubmit_of resident room inside names, VCore.refusal_legal within readable legal, within]
  rfl

end
end

/-! ### How a task ends -/

theorem TaskRun.finish_complete {r : TaskRun} (running : r.t.abort = none) : r.finish =
    let s := ((((r.s.writeRecord r.p r.t 1).dropTask r.p r.t.id).modCore r.p fun c => { c with xspillCnt := c.xspillCnt + r.t.spilled }).provenance
      r.t).modCore r.p fun c => c.addToken r.t.tok r.t.tinc
    (if r.t.resubmitted then s.resubmissionEnded r.p r.t else s).checkComplete := by
  simp only [TaskRun.finish, running]

end Sys2Proof.Machine

open Sys2Proof Sys2Proof.Machine

/-- Settles O23: the end of a task by what holds it up and how it stands; a resubmission by what the record and its command record show. -/
theorem tasksEnd : Obligations.TasksEnd := by
  refine ⟨fun s p task t => ?ends, fun s p value => ?resubmit⟩
  case ends =>
    intro r answered held
    rw [exec_taskEnd]
    refine ⟨fun running _ record dma => execTaskEnd_waits held running record dma, fun running complete writable => ?complete,
      fun running incomplete => execTaskEnd_incomplete held rfl running incomplete, fun a aborted back sent => ?aborted⟩
    case complete =>
      rw [execTaskEnd_complete held rfl running complete writable, TaskRun.finish_complete running]
    case aborted =>
      rw [execTaskEnd_aborted held rfl aborted back sent]
      simp only [TaskRun.finish, aborted]
      rfl
  case resubmit =>
    intro crec c lost
    rw [exec_strmResubmit, execStrmResubmit]
    refine ⟨fun empty => congrArg _ (State.resubmit_empty empty), fun full => ?_, fun v resident a outside =>
      congrArg _ (State.resubmit_lost resident (.inr (by rw [outside]; rfl))), fun v resident room inside => ?_⟩
    · cases resident : c.v with
      | none => exact congrArg _ (State.resubmit_empty resident)
      | some v => exact congrArg _ (State.resubmit_lost resident (.inl full))
    · extract_lets record info cmd raw read s1 s2 known op task ends
      have names : c.recordTask v crec = task := by
        simp only [Core.recordTask, task, op, known]
        cases c.issuedFor.find? fun e => e.1 == crec <;> rfl
      refine ⟨fun a outside => congrArg _ (State.resubmit_outside resident room inside names outside), fun within =>
        ⟨fun a bad => congrArg _ (State.resubmit_unreadable resident room inside names within bad), fun readable =>
          ⟨fun b illegal => congrArg _ (State.resubmit_illegal (task := task) resident room inside names within readable illegal), fun legal =>
            congrArg _ (State.resubmit_legal resident room inside names within readable legal)⟩⟩⟩
end

section
/-! SUPPORT. Answers to a translation fault, the walk and the TLB, refresh and scrubs (O25). -/

namespace Sys2Proof.Machine

/-! ### Requests that translate again -/

theorem State.mem_zipIdx_cores {s : State} {c : Core × Nat} (h : c ∈ s.cores.toList.zipIdx) : ∃ p : Fin 20, c.1 = s.core p := by
  obtain ⟨i, hi, core⟩ := List.getElem_of_mem (List.fst_mem_of_mem_zipIdx h)
  exact ⟨⟨i, by simpa using hi⟩, core.symm⟩

theorem State.mapCores_congr {s : State} {f g : Core → Core} (same : ∀ p : Fin 20, f (s.core p) = g (s.core p)) : s.mapCores f = s.mapCores g := by
  have : s.cores.map f = s.cores.map g := Vector.map_congr_left fun c h => by
    obtain ⟨i, hi, rfl⟩ := Vector.getElem_of_mem h
    exact same ⟨i, hi⟩
  rw [State.mapCores, this, State.mapCores]

theorem Core.mapReqs_congr {c : Core} {f g : Req → Req} (same : ∀ t ∈ c.tasks, ∀ st ∈ t.stages, ∀ r ∈ st.reqs, f r = g r) :
    c.mapReqs f = c.mapReqs g := by
  have : ∀ t ∈ c.tasks, ({ t with stages := t.stages.map fun st => { st with reqs := st.reqs.map f } } : Machine.Task) =
      { t with stages := t.stages.map fun st => { st with reqs := st.reqs.map g } } := fun t ht => by
    have : ∀ st ∈ t.stages, ({ st with reqs := st.reqs.map f } : Stage) = { st with reqs := st.reqs.map g } := fun st hst => by
      rw [List.map_congr_left (same t ht st hst)]
    rw [List.map_congr_left this]
  rw [Core.mapReqs, List.map_congr_left this, Core.mapReqs]

/-- A request that waits on the page of `key` is translated again with the tables of `m`. -/
def Req.freed (r : Req) (m : MemSys) (key : Nat) : Req :=
  if r.waitsOn key then { r with held := false, cause := if inScree r.addr then 9 else 0, entry := m.entryOf r.addr } else r

/-- The slots that wait on a page ask again. -/
def State.unblock (s : State) (key : Nat) : State :=
  { s with ing := { s.ing with slots := s.ing.slots.map fun (x : Slot) => if x.blocked == some key then { x with blocked := none } else x } }

/-- Where every request that waits on the page translates, "retry" frees them all and none faults again. -/
theorem State.retryPage_frees {s : State} {f : XlatFault} (mapped : ∀ (p : Fin 20) (t : Machine.Task) (st : Stage) (r : Req),
      t ∈ (s.core p).tasks → st ∈ t.stages → r ∈ st.reqs → r.waitsOn (pageKey f.addr) = true →
        (s.dropFault f.entry).mem.faultPage r.waitAt 1 r.write = none) :
    s.retryPage f = (((s.dropFault f.entry).unblock (pageKey f.addr)).mapCores fun c =>
      c.mapReqs fun r => r.freed (s.dropFault f.entry).mem (pageKey f.addr)).refillFaults := by
  unfold State.retryPage
  extract_lets key u again m free slots u2
  have none_ : again = [] := by
    simp only [again, List.flatMap_eq_nil_iff, List.map_eq_nil_iff, List.filter_eq_nil_iff, Bool.and_eq_true, not_and]
    intro c hc t ht st hst r hr waits
    obtain ⟨p, core⟩ := State.mem_zipIdx_cores hc
    have translated := mapped p t st r (by rw [core] at ht; exact ht) hst hr waits
    simp [u, translated]
  rw [none_]
  refine congrArg State.refillFaults (State.mapCores_congr fun p => Core.mapReqs_congr fun t ht st hst r hr => ?_)
  by_cases waits : r.waitsOn key = true
  · have translated : m.faultPage r.waitAt 1 r.write = none := mapped p t st r ht hst hr waits
    have frees : (r.waitsOn key && (m.faultPage r.waitAt 1 r.write).isNone) = true := by rw [waits, translated]; rfl
    exact (if_pos frees).trans (if_pos waits).symm
  · exact (if_neg (by simp [waits])).trans (if_neg waits).symm

/-! ### The walk (R302, Table 10.4) -/

theorem not_inScree_of_inHost {a : Nat} (host : inHost a = true) : inScree a = false := by
  unfold inHost hostBase at host
  unfold inScree screeBase
  simp only [Bool.and_eq_true, decide_eq_true_eq, Bool.and_eq_false_iff, decide_eq_false_iff_not] at host ⊢
  omega

/-- An entry that may be used: present, and writable where the access writes. -/
def entryOpens (e : Nat) (write : Bool) : Prop := bitAt e 0 = true ∧ (write = true → bitAt e 1 = true)

theorem entryOpens_iff (e : Nat) (write : Bool) : entryOpens e write ↔ (!bitAt e 0 || (write && !bitAt e 1)) = false := by
  cases write <;> simp [entryOpens]

theorem entryPlace_closed {e : Nat} {write : Bool} (closed : ¬entryOpens e write) (a : Nat) : entryPlace e a write = none := by
  rw [entryOpens_iff, Bool.not_eq_false] at closed
  exact if_pos closed

theorem entryPlace_scree {e a : Nat} {write : Bool} (scree : inScree a = true) (opens : entryOpens e write) :
    entryPlace e a write = if bitsAt e 4 17 = 0 ∧ bitsAt e 37 27 = 0 then
      some (.scree (bitsAt e 2 2 * 2 ^ 37 + bitsAt e 21 16 * 2097152 + a % 2097152)) else none := by
  simp only [entryPlace, (entryOpens_iff e write).1 opens, Bool.false_eq_true, if_false, scree, if_true]
  by_cases low : bitsAt e 4 17 = 0 <;> by_cases high : bitsAt e 37 27 = 0 <;> simp [low, high]

theorem entryPlace_host {e a : Nat} {write : Bool} (host : inHost a = true) (opens : entryOpens e write) :
    entryPlace e a write = if bitsAt e 2 10 = 0 then some (.host (bitsAt e 12 52 * 4096 + a % 4096)) else none := by
  simp only [entryPlace, (entryOpens_iff e write).1 opens, Bool.false_eq_true, if_false, not_inScree_of_inHost host]
  by_cases low : bitsAt e 2 10 = 0 <;> simp [low]

section
variable {m : MemSys} {a : Nat} {write : Bool}

theorem MemSys.translate_scree (scree : inScree a = true) :
    m.translate a write = entryPlace (entryAt m.screePages ((a - screeBase) / 2097152)) a write := by
  simp [MemSys.translate, MemSys.walks, MemSys.entryOf, scree]

/-- Levels 0 to 2 above a host page are present and without reserved bits. -/
def MemSys.dirsOpen (m : MemSys) (page : Nat) : Prop :=
  ∀ level < 3, bitAt (m.dirOf level page) 0 = true ∧ bitsAt (m.dirOf level page) 1 11 = 0 ∧ bitsAt (m.dirOf level page) 48 16 = 0

theorem MemSys.walks_host (host : inHost a = true) : m.walks a = true ↔ m.dirsOpen ((a - hostBase) / 4096) := by
  simp [MemSys.walks, MemSys.dirsOpen, not_inScree_of_inHost host, and_assoc]

theorem MemSys.translate_host (host : inHost a = true) (up : m.dirsOpen ((a - hostBase) / 4096)) :
    m.translate a write = entryPlace (entryAt m.hostPages ((a - hostBase) / 4096)) a write := by
  rw [MemSys.translate, if_pos ((MemSys.walks_host host).2 up), MemSys.entryOf, not_inScree_of_inHost host]
  rfl

theorem MemSys.translate_stuck (host : inHost a = true) (stuck : ¬m.dirsOpen ((a - hostBase) / 4096)) : m.translate a write = none :=
  if_neg (mt (MemSys.walks_host host).1 stuck)

end

/-- A level's entry, where the table holds one value for it. -/
theorem MemSys.dirOf_of_mem {m : MemSys} {level i : Nat} {e : DWord} (written : (level, i / 2 ^ (27 - 9 * level), e) ∈ m.hostDirs)
    (only : ∀ x ∈ m.hostDirs, x.1 = level → x.2.1 = i / 2 ^ (27 - 9 * level) → x.2.2 = e) : m.dirOf level i = e.toNat := by
  unfold MemSys.dirOf
  cases found : m.hostDirs.find? fun e => e.1 == level && e.2.1 == i / 2 ^ (27 - 9 * level) with
  | none => simpa using List.find?_eq_none.1 found _ written
  | some x =>
    have matches_ := List.find?_some found
    simp only [Bool.and_eq_true, beq_iff_eq] at matches_
    exact congrArg BitVec.toNat (only x (List.mem_of_find?_eq_some found) matches_.1 matches_.2)

/-! ### The TLB (R302, R304) -/

section
variable {s : State} {a : Nat}

theorem State.tlbLook_hit (hit : s.mem.tlb.contains (pageKey a) = true) : s.tlbLook a = s := if_pos hit

variable (miss : s.mem.tlb.contains (pageKey a) = false)
include miss

theorem State.tlbLook_miss : s.tlbLook a = s.modMem fun m => { m with
    tlbMisses := m.tlbMisses + 1,
    tlb := if (m.translate a false).isSome then (m.tlb ++ [pageKey a]).drop (m.tlb.length + 1 - 8192) else m.tlb } :=
  if_neg (by rw [miss]; decide)

/-- A page that translates takes a place among 8,192; a full TLB gives up its oldest. -/
theorem State.tlbLook_loads (mapped : (s.mem.translate a false).isSome = true) (size : s.mem.tlb.length ≤ 8192) :
    s.tlbLook a = { s with mem := { s.mem with
      tlbMisses := s.mem.tlbMisses + 1, tlb := (if s.mem.tlb.length < 8192 then s.mem.tlb else s.mem.tlb.drop 1) ++ [pageKey a] } } := by
  have places : (s.mem.tlb ++ [pageKey a]).drop (s.mem.tlb.length + 1 - 8192) =
      (if s.mem.tlb.length < 8192 then s.mem.tlb else s.mem.tlb.drop 1) ++ [pageKey a] := by
    by_cases free : s.mem.tlb.length < 8192
    · rw [if_pos free, Nat.sub_eq_zero_of_le free, List.drop_zero]
    · rw [if_neg free, show s.mem.tlb.length + 1 - 8192 = 1 by omega, List.drop_append_of_le_length (by omega)]
  simp only [State.tlbLook_miss miss, State.modMem, mapped, if_true, places]

theorem State.tlbLook_faults (unmapped : (s.mem.translate a false).isSome = false) :
    s.tlbLook a = { s with mem := { s.mem with tlbMisses := s.mem.tlbMisses + 1 } } := by
  simp only [State.tlbLook_miss miss, State.modMem, unmapped, Bool.false_eq_true, if_false]

end

/-! ### Refresh and scrubs (R286, R288, R292, R293) -/

section
variable {s : State}

/-- Every stream request of the state that waits at the channel for nothing else. -/
theorem State.channelBusy_eq (channel : Nat) : s.channelBusy channel = s.mapCores fun c => c.mapReqs fun r =>
    if (r.tile = false ∧ r.held = false ∧ r.cause = 0 ∧ r.addr < s.mem.usable) ∧
      s.mem.channelList.getD (r.addr / 4096 % s.mem.channelCount) 24 = channel then { r with cause := 3 } else r := by
  simp [State.channelBusy, and_assoc]

theorem execGddr7Refresh_of {channel : Fin 24} (on : bitAt s.mem.channels.toNat channel.val = true) : execGddr7Refresh channel s =
    .next ((s.modMem fun m => { m with refreshes := m.refreshes.set channel (m.refreshes[channel] + 1) }).channelBusy channel.val) :=
  if_neg (by rw [on]; decide)

theorem State.correctDev_gddr {a x : Nat} (place : s.mem.place a = .gddr x) :
    s.correctDev [a] = (s.modMem fun m => { m with g7Corr := m.g7Corr + 1 }).charge
      (s.mem.channelList.getD (x / 4096 % s.mem.channelCount) 0) 1 0 0 := by
  simp only [State.correctDev, List.foldl_cons, List.foldl_nil, place, State.modMem, MemSys.channelCount, MemSys.channelList]

theorem State.correctDev_staging {a x : Nat} (place : s.mem.place a = .staging x) :
    s.correctDev [a] = (s.modMem fun m => { m with stgCorr := m.stgCorr + 1 }).charge (44 + x / 12582912) 1 0 0 := by
  simp only [State.correctDev, List.foldl_cons, List.foldl_nil, place]

section
variable {channel : Fin 24} {line : Nat} (sectors : Fin 3) (ecc : Ecc)

theorem execPatrolScrub_none (off : s.mem.lineAddr channel.val line = none) : execPatrolScrub channel line sectors ecc s = .next s := by
  simp only [execPatrolScrub, off]

theorem execPatrolScrub_of {a : Nat} (at_ : s.mem.lineAddr channel.val line = some a) : execPatrolScrub channel line sectors ecc s =
    if s.mem.gddrBad.contains (a / 64) = true ∨ ecc = .uncorrectable then .next (((s.scrubPass channel line).spoil a).countUnc a)
    else .next ((if ecc = .corrected then (s.scrubPass channel line).soften ((List.range sectors.val).map fun i => a + 32 * i)
      else s.scrubPass channel line).meetDev false a 64) := by
  simp only [execPatrolScrub, at_, Bool.or_eq_true, beq_iff_eq]

end

section
variable {p : Fin 20} {word : Nat} {v : VCore} (resident : (s.core p).v = some v) (inside : word < 2621440)
include resident inside

theorem execTileMemoryScrub_bad (bad : v.tileBad.contains word = true) (ecc : Ecc) :
    execTileMemoryScrub p word ecc s = .next (s.chargeTile p) := by
  simp only [execTileMemoryScrub, resident, Nat.not_le.2 inside, bad, if_false, if_true]

theorem execTileMemoryScrub_of (good : v.tileBad.contains word = false) (ecc : Ecc) :
    execTileMemoryScrub p word ecc s =
      if ecc = .uncorrectable then
        .next ((s.modV p fun v => { v with tileBad := v.tileBad ++ [word], tileSoft := v.tileSoft.filter (· != word) }).chargeTile p)
      else if ecc = .corrected ∨ v.tileSoft.contains word = true then
        .next (((s.modV p fun v => { v with tileSoft := v.tileSoft.filter (· != word) }).modCore p
          fun c => { c with tmCorr := c.tmCorr + 1 }).charge (24 + p.val) 1 0 0)
      else .next s := by
  simp only [execTileMemoryScrub, resident, Nat.not_le.2 inside, good, if_false, Bool.false_eq_true, Bool.or_eq_true, beq_iff_eq]

end
end

end Sys2Proof.Machine

open Sys2Proof Sys2Proof.Machine

/-- Settles O25: a fault's answer by the entry it names, a walk by what its entries show, a look-up by whether the TLB holds the page, a scrub by
what it finds. -/
theorem memoryUpkeep : Obligations.MemoryUpkeep := by
  refine ⟨fun s entry => ⟨fun absent => ?absent, fun f found => ?answered⟩, fun m a write => ?walk, fun s a => ?look, fun s => ?upkeep⟩
  case absent =>
    simp only [exec_xlatFaultTimeout, execXlatFaultTimeout, exec_xlatRespUnresolvable, execXlatRespUnresolvable, exec_xlatRespRetry,
      execXlatRespRetry, absent]
    exact ⟨trivial, trivial, trivial⟩
  case answered =>
    intro key u failed slots
    simp only [exec_xlatFaultTimeout, execXlatFaultTimeout, exec_xlatRespUnresolvable, execXlatRespUnresolvable, exec_xlatRespRetry,
      execXlatRespRetry, found]
    exact ⟨rfl, rfl, trivial, State.retryPage_frees⟩
  case walk =>
    refine ⟨fun scree => ?scree, fun host => ?host, fun level i e _ written only => MemSys.dirOf_of_mem written only⟩
    case scree =>
      rw [MemSys.translate_scree scree]
      refine ⟨fun opens low high => (entryPlace_scree scree opens).trans (if_pos ⟨low, high⟩), fun refuses => ?_⟩
      by_cases opens : entryOpens (entryAt m.screePages ((a - screeBase) / 2097152)) write
      · refine (entryPlace_scree scree opens).trans (if_neg fun ⟨low, high⟩ => ?_)
        exact refuses.elim (fun closed => closed opens) fun wrong => wrong.elim (fun wrong => wrong low) fun wrong => wrong high
      · exact entryPlace_closed opens a
    case host =>
      refine ⟨fun up opens low => ?_, fun refuses => ?_⟩
      · rw [MemSys.translate_host host up, entryPlace_host host opens]
        exact if_pos low
      · by_cases up : m.dirsOpen ((a - hostBase) / 4096)
        · rw [MemSys.translate_host host up]
          by_cases opens : entryOpens (entryAt m.hostPages ((a - hostBase) / 4096)) write
          · refine (entryPlace_host host opens).trans (if_neg fun low => ?_)
            exact refuses.elim (fun stuck => stuck up) fun wrong => wrong.elim (fun closed => closed opens) fun wrong => wrong low
          · exact entryPlace_closed opens a
        · exact MemSys.translate_stuck host up
  case look => exact ⟨State.tlbLook_hit, fun miss => ⟨State.tlbLook_faults miss, State.tlbLook_loads miss⟩⟩
  case upkeep =>
    refine ⟨rfl, fun page => rfl, fun channel off => ?off, fun channel on => ?refresh, fun a x => ⟨State.correctDev_gddr, State.correctDev_staging⟩,
      fun channel line sectors ecc => ⟨execPatrolScrub_none sectors ecc, fun a at_ => ?patrol⟩,
      fun p word ecc v resident inside bad => execTileMemoryScrub_bad resident inside bad ecc, fun p word v resident inside good => ?tile⟩
    case off => exact if_pos (by rw [off]; rfl)
    case refresh =>
      rw [exec_gddr7Refresh, execGddr7Refresh_of on, State.channelBusy_eq]
      rfl
    case patrol =>
      rw [exec_patrolScrub, execPatrolScrub_of sectors ecc at_]
      refine ⟨fun bad => if_pos bad, fun good corrected => ?_, fun good clean => ?_⟩
      · subst corrected
        rw [if_neg (by rw [good]; decide)]
        rfl
      · subst clean
        rw [if_neg (by rw [good]; decide)]
        rfl
    case tile =>
      refine ⟨execTileMemoryScrub_of resident inside good .corrected, execTileMemoryScrub_of resident inside good .uncorrectable,
        (execTileMemoryScrub_of resident inside good .clean).trans ?_⟩
      rw [if_neg (by decide)]
      cases v.tileSoft.contains word <;> rfl
end

section
/-! SUPPORT. How a collective or an exchange completes, and where its outputs go (O33). -/

namespace Sys2Proof.Machine

/-! ### A stage that has been changed -/

theorem TaskRun.stage_modStage {r : TaskRun} {i : Nat} (inChain : i < r.t.stages.length) (f : Stage → Stage) :
    (r.modStage i f).stage i = f (r.stage i) := by
  simp [TaskRun.modStage, TaskRun.stage, inChain]

/-- A COLL stage that is no exchange writes its outputs through its output list once its collective has completed (R329). -/
theorem TaskRun.list_of_outputs {r : TaskRun} {i : Nat} (coll : (r.stage i).kind = .coll) (outputs : (r.stage i).outputs = true) :
    r.list i = some ((locOf (r.stage i).raw 24).1, (locOf (r.stage i).raw 24).2, r.s.job.collOut (CollParams.of (r.stage i).raw)) := by
  simp only [TaskRun.list, coll, outputs, if_true]

/-! ### Delivery (R207, R329) -/

section
variable {r : TaskRun} {i : Nat} (outs : List Block)

theorem TaskRun.deliverColl_inner (inner : r.isLast i = false) :
    r.deliverColl i outs = ((outs.foldl (fun r b => r.push i b) r).modStage i fun st => { st with phase := 5 }).endStage i :=
  if_pos (by rw [inner]; rfl)

variable (last : r.isLast i = true)
include last

theorem TaskRun.deliverColl_translated {a : Nat} (far : r.s.job.mustBeLocal [(locOf (r.stage i).raw 24).1] = some a) :
    r.deliverColl i outs = r.fail i noDesc 0 2 a := by
  simp only [TaskRun.deliverColl, last, far]
  rfl

theorem TaskRun.deliverColl_local (near : r.s.job.mustBeLocal [(locOf (r.stage i).raw 24).1] = none) :
    r.deliverColl i outs = r.modStage i fun st =>
      { st with phase := 4, inq := outs, ended := true, descs := [], dropped := 0, next := 0, off := 0, got := [], fin := 0 } := by
  simp only [TaskRun.deliverColl, last, near]
  rfl

end

/-! ### Completion (R204, R282, R329, R331, R334) -/

/-- A collective with sound contributions delivers its outputs and the chain goes on behind it, unless its members differ (R329, R330). -/
def TaskRun.concludeColl (closed : TaskRun) (c : Coll) (ftz : Bool) (g pos : Nat) (cs : List Contrib) : State :=
  match collOutputs (CollParams.of c.params) c.arrival ftz g pos closed.t.step cs with
  | none => (closed.fail c.stage noDesc 0 3).done
  | some (outs, fl) =>
    let r := ((closed.captureRx c pos).flags fl).deliverColl c.stage outs
    if r.t.abort.isSome then r.done else r.chain (c.stage + 1)

section
variable {closed : TaskRun} {c : Coll} {ftz : Bool} {g pos : Nat} {cs : List Contrib}

theorem TaskRun.concludeColl_differ (differ : collOutputs (CollParams.of c.params) c.arrival ftz g pos closed.t.step cs = none) :
    closed.concludeColl c ftz g pos cs = (closed.fail c.stage noDesc 0 3).done := by
  simp only [TaskRun.concludeColl, differ]

theorem TaskRun.concludeColl_delivers {outs : List Block} {fl : ArithFlags}
    (same : collOutputs (CollParams.of c.params) c.arrival ftz g pos closed.t.step cs = some (outs, fl)) {r1 : TaskRun}
    (delivered : ((closed.captureRx c pos).flags fl).deliverColl c.stage outs = r1) :
    closed.concludeColl c ftz g pos cs = if r1.t.abort.isSome then r1.done else r1.chain (c.stage + 1) := by
  subst delivered
  simp only [TaskRun.concludeColl, same]

end

/-- An exchange with sound contributions lists the writes of its receive side, for a stage of the state `s` (R334). -/
def TaskRun.concludeExchange (closed : TaskRun) (s : State) (c : Coll) (g pos : Nat) (cs : List Contrib) : State :=
  match closed.exchangePlan c.stage g cs with
  | .inr e => (closed.fail c.stage noDesc 0 e.1 e.2).done
  | .inl (ws, n) => ((closed.captureRx c pos).modStage c.stage fun st =>
      { st with phase := 4, fin := n, xfers := s.writeXfers (ws.map fun w => (w, none)) }).done

section
variable {closed : TaskRun} {c : Coll} {g pos : Nat} {cs : List Contrib} (s : State)

theorem TaskRun.concludeExchange_fails {cause a : Nat} (fails : closed.exchangePlan c.stage g cs = .inr (cause, a)) :
    closed.concludeExchange s c g pos cs = (closed.fail c.stage noDesc 0 cause a).done := by
  unfold TaskRun.concludeExchange
  rw [fails]

theorem TaskRun.concludeExchange_writes {ws : List Put} {n : Nat} (plan : closed.exchangePlan c.stage g cs = .inl (ws, n)) :
    closed.concludeExchange s c g pos cs = ((closed.captureRx c pos).modStage c.stage fun st =>
      { st with phase := 4, fin := n, xfers := s.writeXfers (ws.map fun w => (w, none)) }).done := by
  unfold TaskRun.concludeExchange
  rw [plan]

end

/-- The end of a collective or an exchange with sound contributions. -/
def TaskRun.conclude (closed : TaskRun) (s : State) (c : Coll) (g pos : Nat) (cs : List Contrib) : State :=
  if (CollParams.of c.params).op = 4 then closed.concludeExchange s c g pos cs else closed.concludeColl c s.job.ftz g pos cs

section
variable {s : State} {group step cid : Nat} {c : Coll} {p : Fin 20} {t : Machine.Task} {pos : Nat} (known : s.coll group step cid = some c)
  (member : c.core = some p.val) (held : s.task p c.task = some t) (place : s.job.position group = some pos)
  {src : State × List Contrib × Option Nat} (source : (if s.job.replay then s.replayContribs t c else (s, c.contribs, none)) = src)
  {r : TaskRun} (run : ({ s := src.1, p, t } : TaskRun) = r)
include known member held place source run

theorem execCollectiveComplete_waits (waits : t.abort ≠ none ∨ (r.stage c.stage).phase ≠ 3 ∨
    c.ready (CollParams.of c.params) (s.job.groupSize group) pos s.job.replay src.2.1 = false) :
    execCollectiveComplete group step cid s = .next s := by
  subst run
  have core : Fin.ofNat 20 p.val = p := Fin.ofNat_val_eq_self p
  simp only [execCollectiveComplete, known, member, core, held, place, source]
  refine if_pos ?_
  rcases waits with aborted | early | incomplete
  · simp [Option.isSome_iff_ne_none.2 aborted]
  · simp [early]
  · simp [incomplete]

section
variable (running : t.abort = none) (phase : (r.stage c.stage).phase = 3)
  (ready : c.ready (CollParams.of c.params) (s.job.groupSize group) pos s.job.replay src.2.1 = true)
include running phase ready

/-- A poisoned line among captured blocks comes first, then a contribution that is not sound; otherwise the collective closes. -/
theorem execCollectiveComplete_ready : execCollectiveComplete group step cid s = .next (src.2.2.elim
    ((unsound src.2.1).elim
      (TaskRun.conclude { r with s := r.s.dropColl group step cid } s c (s.job.groupSize group) pos src.2.1)
      fun x => (r.fail c.stage x.index x.block.id 1 0 x.block.chk (crc32c x.block.data)).done)
    fun a => (r.fail c.stage noDesc 0 4 a).done) := by
  subst run
  have core : Fin.ofNat 20 p.val = p := Fin.ofNat_val_eq_self p
  simp only [execCollectiveComplete, known, member, core, held, place, source, running, phase, ready]
  rw [if_neg (by decide)]
  rcases src.2.2 with _ | a
  case some => rfl
  rcases unsound src.2.1 with _ | x
  case some => rfl
  unfold TaskRun.conclude
  by_cases exchange : (CollParams.of c.params).op = 4
  · simp only [if_pos exchange, Option.elim_none]
    unfold TaskRun.concludeExchange
    cases TaskRun.exchangePlan _ c.stage (s.job.groupSize group) src.2.1 <;> rfl
  · simp only [if_neg exchange, Option.elim_none]
    unfold TaskRun.concludeColl
    cases collOutputs (CollParams.of c.params) c.arrival s.job.ftz (s.job.groupSize group) pos t.step src.2.1 <;> rfl

end
end

end Sys2Proof.Machine

open Sys2Proof Sys2Proof.Machine

/-- Settles O33: a collective by its readiness and its contributions, a delivery by whether the stage is the last. -/
theorem collectivesComplete : Obligations.CollectivesComplete := by
  refine ⟨fun s group step cid c p t pos => ?completes, fun r i outs => ?delivers⟩
  case completes =>
    intro prm g src cs r closed known member held place
    rw [exec_collectiveComplete]
    refine ⟨fun waits => execCollectiveComplete_waits known member held place rfl rfl waits, fun running phase ready => ?_⟩
    rw [execCollectiveComplete_ready known member held place rfl rfl running phase ready]
    refine ⟨fun a poisoned => ?_, fun x clean bad => ?_, fun clean sound collective => ?collective, fun clean sound exchange => ?exchange⟩
    · rw [show src.2.2 = some a from poisoned]
      rfl
    · rw [show src.2.2 = none from clean, show unsound src.2.1 = some x from bad]
      rfl
    all_goals rw [show src.2.2 = none from clean, show unsound src.2.1 = none from sound, Option.elim_none, Option.elim_none, TaskRun.conclude]
    case collective =>
      rw [if_neg collective]
      refine ⟨fun differ => congrArg _ (TaskRun.concludeColl_differ differ), fun outs fl same => ?_⟩
      intro r1
      rw [TaskRun.concludeColl_delivers (r1 := r1) same rfl]
      exact ⟨fun aborted => congrArg _ (if_pos (Option.isSome_iff_ne_none.2 aborted)), fun goes => congrArg _ (if_neg (by rw [goes]; decide))⟩
    case exchange =>
      rw [if_pos exchange]
      exact ⟨fun cause a fails => congrArg _ (TaskRun.concludeExchange_fails s fails), fun ws n plan =>
        congrArg _ (TaskRun.concludeExchange_writes s plan)⟩
  case delivers =>
    intro list
    refine ⟨TaskRun.deliverColl_inner outs, fun a last far => TaskRun.deliverColl_translated outs last far, fun last near =>
      ⟨_, rfl, ?_, fun inChain => ?_⟩⟩
    · rw [TaskRun.deliverColl_local outs last near]
      rfl
    · rw [TaskRun.deliverColl_local outs last near]
      have changed := TaskRun.stage_modStage inChain fun st =>
        { st with phase := 4, inq := outs, ended := true, descs := [], dropped := 0, next := 0, off := 0, got := [], fin := 0 }
      refine ⟨by rw [changed], by rw [changed], by rw [changed], fun coll collective => ?_⟩
      rw [TaskRun.list_of_outputs (by rw [changed]; exact coll) (by rw [changed]; simp [Stage.outputs, coll, collective]), changed]
      rfl
end

section
/-! SUPPORT. Laser inputs, the regulator link, and the links to the host and the expanders (O58). -/

namespace Sys2Proof.Machine

/-! ### One input of the 22 (R453) -/

theorem getElem_ofNat_two_pow {w : Nat} (i j : Fin w) : (BitVec.ofNat w (2 ^ i.val))[j] = decide (i = j) := by
  have bit : (BitVec.ofNat w (2 ^ i.val))[j] = (BitVec.ofNat w (2 ^ i.val)).toNat.testBit j.val := (BitVec.testBit_toNat _).symm
  rw [bit, BitVec.toNat_ofNat, Nat.testBit_mod_two_pow, Nat.testBit_two_pow]
  simp [Fin.ext_iff]

/-- Setting one bit. -/
theorem getElem_set_bit {w : Nat} (x : BitVec w) (i : Fin w) :
    (x ||| BitVec.ofNat w (2 ^ i.val))[i] = true ∧ ∀ j : Fin w, j ≠ i → (x ||| BitVec.ofNat w (2 ^ i.val))[j] = x[j] := by
  have bit (j : Fin w) : (x ||| BitVec.ofNat w (2 ^ i.val))[j] = (x[j] || decide (i = j)) := by
    rw [← getElem_ofNat_two_pow]
    exact BitVec.getElem_or ..
  exact ⟨by rw [bit]; simp, fun j other => by rw [bit]; simp [other.symm]⟩

/-- Clearing one bit. -/
theorem getElem_clear_bit {w : Nat} (x : BitVec w) (i : Fin w) :
    (x &&& ~~~BitVec.ofNat w (2 ^ i.val))[i] = false ∧ ∀ j : Fin w, j ≠ i → (x &&& ~~~BitVec.ofNat w (2 ^ i.val))[j] = x[j] := by
  have bit (j : Fin w) : (x &&& ~~~BitVec.ofNat w (2 ^ i.val))[j] = (x[j] && !decide (i = j)) := by
    rw [← getElem_ofNat_two_pow]
    exact (BitVec.getElem_and ..).trans (congrArg _ (BitVec.getElem_not ..))
  exact ⟨by rw [bit]; simp, fun j other => by rw [bit]; simp [other.symm]⟩

/-! ### Light for a port (R311, R314, R453) -/

/-- A packet need not wait for credits (R314). -/
def Port.may (q : Port) (w : Waiting) : Bool := !(q.starved && onData w.packet)

/-- What waits in a port's send queues and need not wait. -/
def Port.ready (q : Port) : List (List Byte) := (q.sendq.filter q.may).map fun w => w.packet

section
variable {s : State} {n : Nat}

theorem State.flushPort_stays (stays : (s.port n).ready = [] ∨ s.shines n = false) : s.flushPort n = s := by
  refine if_pos ?_
  rw [Bool.or_eq_true, State.portWaits, Bool.or_eq_true]
  rcases stays with none_ | dark
  · exact .inr (List.isEmpty_iff.2 none_)
  · exact .inl (.inr (by rw [dark]; rfl))

theorem State.flushPort_sends (up : (s.port n).state = .up) (some_ : (s.port n).ready ≠ []) (lit : s.shines n = true) : s.flushPort n =
    (s.modPort n fun q => { q with sendq := q.sendq.filter fun w => !(s.port n).may w }).linkOut n
      ((s.port n).ready.filter isCheckpoint ++ (s.port n).ready.filter fun p => !isCheckpoint p) := by
  have goes : ¬(s.portWaits n || (s.port n).ready.isEmpty) = true := by
    have state : s.fab.ports[n]!.state = .up := up
    simp [State.portWaits, state, lit, some_]
  exact if_neg goes

end

/-! ### The regulator link (R455, R456) -/

theorem State.nextSetpoint_before_imago {s : State} (boot : s.pow.boot ≠ .imago) (n : Nat) : s.nextSetpoint n = 800 := if_pos boot

/-- In Imago the setpoint falls only while every core in use is slowed, and stays in the regulator's range. -/
theorem State.nextSetpoint_lowers {s : State} {n : Nat} (boot : s.pow.boot = .imago) (lower : s.nextSetpoint n < s.pow.setMv) :
    650 ≤ s.nextSetpoint n ∧ s.nextSetpoint n ≤ 800 ∧ ∀ p : Fin 20, (s.core p).kind = .active → 0 < max s.pow.g s.pow.h[p] := by
  have range := Nat.mod_lt (Config.setpoint n) (by decide : 0 < 31)
  have value : s.nextSetpoint n =
      if decide (650 + 5 * (Config.setpoint n % 31) < s.pow.setMv) &&
        !(coreNums.all fun p => (s.core p).kind != .active || decide (0 < max s.pow.g s.pow.h[p])) then s.pow.setMv
      else 650 + 5 * (Config.setpoint n % 31) := if_neg fun other => other boot
  cases slowed : coreNums.all fun p => (s.core p).kind != .active || decide (0 < max s.pow.g s.pow.h[p]) with
  | false =>
    simp only [slowed, Bool.not_false, Bool.and_true, decide_eq_true_eq] at value
    split at value <;> omega
  | true =>
    simp only [slowed, Bool.not_true, Bool.and_false, Bool.false_eq_true, if_false] at value
    refine ⟨by omega, by omega, fun p active => ?_⟩
    simpa [active] using List.all_eq_true.1 slowed p (List.mem_finRange p)

/-- What a frame leaves: the next setpoint and sequence number, and a link that is down where the last reply is still missing. -/
def Power.frameSent (w : Power) (mv : Nat) : Power :=
  { w with setMv := mv, regSeq := w.regSeq + 1, regLink := w.regLink && !w.regWaits, regWaits := true,
           raises := w.raises.map fun r => r.map fun _ => true }

/-- The bytes of a setpoint frame (R455). -/
def setpointFrame (seq : Byte) (mv : Nat) : List Byte :=
  [0x01, seq] ++ bytesOf 2 mv ++ bytesOf 4 (crc32c ([0x01, seq] ++ bytesOf 2 mv)).toNat

theorem execRegulatorFrame_of {s : State} (boot : s.pow.boot ≠ .instar0) : execRegulatorFrame s =
    let mv := s.fresh.2.nextSetpoint s.fresh.1
    .next (({ s.fresh.2 with pow := s.pow.frameSent mv } : State).emitH (.regulator (setpointFrame (s.pow.regSeq + 1) mv))) :=
  if_neg boot

/-! ### What H sends (R452, R453) -/

theorem State.emitH_pow (s : State) (m : OutMsg) : (s.emitH m).pow = s.pow := by
  unfold State.emitH
  split <;> rfl

theorem State.emitH_out (s : State) (m : OutMsg) : (s.emitH m).out = s.out ++ if s.pow.hLit then [m] else [] := by
  unfold State.emitH
  split
  · rfl
  · exact (List.append_nil _).symm

/-! ### Links (R216, R392, R431, R453) -/

theorem State.linkLive_pow (s : State) (w : Power) (l : HostLink) : ({ s with pow := w } : State).linkLive l = s.linkLive l := by
  cases l <;> rfl

/-- A failed host link without a plan of ingest or a set towards the host. -/
theorem State.linkError_host {s : State} (noPlan : s.ing.plan = []) (noSet : s.job.hostTarget = false) : s.linkError .host =
    { s.mapCores (fun c => c.linkAbort s.mem .host) with host := { s.host with pcieUp := false } } := by
  have idle : s.ingesting = false := by simp [State.ingesting, noPlan]
  simp only [State.linkError, idle]
  have noSet' : (s.mapCores fun c => c.linkAbort s.mem .host).job.hostTarget = false := noSet
  exact if_neg (by simpa using noSet')

end Sys2Proof.Machine

open Sys2Proof Sys2Proof.Machine

/-- Settles O58: laser inputs bit by bit, the regulator link by its frames, a link by whether it is in service. -/
theorem suppliesAndLinks : Obligations.SuppliesAndLinks := by
  refine ⟨fun s => ⟨fun i => ?lasers, fun boot => ?frame, fun seq mv => ?reply⟩, fun s => ⟨fun up => ?host, fun up noPlan noSet => ?fails,
    fun down boot lit => ?hostUp, fun n linked on => ?cxl, fun n down lit => ?cxlUp⟩⟩
  case lasers =>
    obtain ⟨set_, kept⟩ := getElem_set_bit s.pow.lasers i
    obtain ⟨cleared, kept'⟩ := getElem_clear_bit s.pow.lasers i
    refine ⟨_, _, ⟨set_, cleared, fun j other => ⟨kept j other, kept' j other⟩⟩, ?present, ?absent⟩
    case present =>
      intro t n q may go
      rw [exec_laserPresent, execLaserPresent]
      refine ⟨fun stays => congrArg _ ?_, fun port up some_ lit => congrArg _ ?_⟩
      · by_cases flushes : (decide (n < 8) && (t.port n).state == .up) = true
        · refine (if_pos flushes).trans (State.flushPort_stays ?_)
          rw [Bool.and_eq_true, decide_eq_true_eq, beq_iff_eq] at flushes
          rcases stays with far | down | stays
          · omega
          · exact absurd flushes.2 down
          · exact stays
        · exact if_neg flushes
      · refine (if_pos ?_).trans (State.flushPort_sends (s := t) up some_ lit)
        rw [Bool.and_eq_true, decide_eq_true_eq, beq_iff_eq]
        exact ⟨port, up⟩
    case absent =>
      intro u dark
      rw [exec_laserAbsent, execLaserAbsent]
      refine congrArg _ ?_
      rw [List.foldl_filter]
      rfl
  case frame =>
    let mv := s.fresh.2.nextSetpoint s.fresh.1
    refine ⟨_, mv, execRegulatorFrame_of boot, ?_⟩
    rw [State.emitH_pow, State.emitH_out]
    refine ⟨rfl, rfl, fun early => State.nextSetpoint_before_imago early _, rfl, rfl, fun p => Vector.getElem_map .., fun imago lower => ?_, rfl⟩
    exact State.nextSetpoint_lowers (s := s.fresh.2) imago lower
  case reply =>
    exact ⟨fun same => if_pos (by simp [same]), fun other => if_neg (by simp [other]), rfl⟩
  case host =>
    refine ⟨congrArg _ (if_pos up), if_pos up, fun d3 => if_pos up⟩
  case fails =>
    refine ⟨_, (congrArg _ (if_pos up)).trans (congrArg _ (State.linkError_host noPlan noSet)), rfl, fun p => State.core_mapCores ..⟩
  case hostUp => exact if_neg (by simp [down, boot, lit])
  case cxl =>
    exact congrArg _ (if_pos (by simp [State.linkLive, linked, on]))
  case cxlUp => exact if_pos (by rw [down, lit]; rfl)
end

section
/-! SUPPORT. The shuffle as a permutation: the rounds of the Feistel network can be undone, and walking a cycle is the first return to the
samples (O40). -/

namespace Sys2Proof.Machine

/-- `f` orders the numbers below `n` anew: it stays within them and names none twice. -/
structure PermutesBelow (n : Nat) (f : Nat → Nat) : Prop where
  maps : ∀ x < n, f x < n
  inj : ∀ x < n, ∀ y < n, f x = f y → x = y

/-! ### The Feistel network -/

/-- One round of R231's network: the halves change places, and the new right half is masked by a function of the old one. -/
def feistelRound (k0 k1 h : Nat) (lr : Nat × Nat) (i : Nat) : Nat × Nat :=
  (lr.2, lr.1 ^^^ ((philox k0 k1 lr.2 0 i 0).headD 0 % 2 ^ h))

theorem feistel_eq (k0 k1 h y : Nat) : feistel k0 k1 h y =
    ((List.range 6).foldl (feistelRound k0 k1 h) (y / 2 ^ h, y % 2 ^ h)).1 * 2 ^ h +
      ((List.range 6).foldl (feistelRound k0 k1 h) (y / 2 ^ h, y % 2 ^ h)).2 := rfl

theorem xor_right_cancel {a b m : Nat} (same : a ^^^ m = b ^^^ m) : a = b :=
  calc a
    _ = a ^^^ m ^^^ m := by rw [Nat.xor_assoc, Nat.xor_self, Nat.xor_zero]
    _ = b ^^^ m ^^^ m := by rw [same]
    _ = b := by rw [Nat.xor_assoc, Nat.xor_self, Nat.xor_zero]

theorem feistelRound_injective {k0 k1 h i : Nat} {a b : Nat × Nat} (same : feistelRound k0 k1 h a i = feistelRound k0 k1 h b i) : a = b := by
  obtain ⟨l, r⟩ := a
  obtain ⟨l', r'⟩ := b
  obtain ⟨rfl, masked⟩ := Prod.ext_iff.1 same
  exact congrArg (·, r) (xor_right_cancel masked)

theorem foldl_feistelRound_injective {k0 k1 h : Nat} (is : List Nat) {a b : Nat × Nat}
    (same : is.foldl (feistelRound k0 k1 h) a = is.foldl (feistelRound k0 k1 h) b) : a = b := by
  induction is generalizing a b with
  | nil => exact same
  | cons i is ih => exact feistelRound_injective (ih same)

theorem foldl_feistelRound_lt {k0 k1 h : Nat} (is : List Nat) {lr : Nat × Nat} (hl : lr.1 < 2 ^ h) (hr : lr.2 < 2 ^ h) :
    (is.foldl (feistelRound k0 k1 h) lr).1 < 2 ^ h ∧ (is.foldl (feistelRound k0 k1 h) lr).2 < 2 ^ h := by
  induction is generalizing lr with
  | nil => exact ⟨hl, hr⟩
  | cons i is ih => exact ih hr (Nat.xor_lt_two_pow hl (Nat.mod_lt _ (Nat.two_pow_pos h)))

theorem feistel_halves_lt {k0 k1 h y : Nat} (hy : y < 2 ^ h * 2 ^ h) :
    ((List.range 6).foldl (feistelRound k0 k1 h) (y / 2 ^ h, y % 2 ^ h)).1 < 2 ^ h ∧
      ((List.range 6).foldl (feistelRound k0 k1 h) (y / 2 ^ h, y % 2 ^ h)).2 < 2 ^ h :=
  foldl_feistelRound_lt _ (Nat.div_lt_of_lt_mul hy) (Nat.mod_lt _ (Nat.two_pow_pos h))

theorem joined_halves_lt {b l r : Nat} (hl : l < b) (hr : r < b) : l * b + r < b * b :=
  calc l * b + r
    _ < l * b + b := Nat.add_lt_add_left hr _
    _ = (l + 1) * b := (Nat.succ_mul l b).symm
    _ ≤ b * b := Nat.mul_le_mul_right b hl

theorem joined_halves_inj {b l r l' r' : Nat} (hr : r < b) (hr' : r' < b) (same : l * b + r = l' * b + r') : l = l' ∧ r = r' := by
  have pos : 0 < b := Nat.zero_lt_of_lt hr
  have left := congrArg (· / b) same
  have right := congrArg (· % b) same
  simp only [Nat.add_comm _ r, Nat.add_comm _ r', Nat.add_mul_div_right _ _ pos, Nat.div_eq_of_lt hr, Nat.div_eq_of_lt hr', Nat.zero_add] at left
  simp only [Nat.add_comm _ r, Nat.add_comm _ r', Nat.add_mul_mod_self_right, Nat.mod_eq_of_lt hr, Nat.mod_eq_of_lt hr'] at right
  exact ⟨left, right⟩

/-- Both halves can be read off the result, and each round can be undone. -/
theorem feistel_permutes (k0 k1 h : Nat) : PermutesBelow (2 ^ h * 2 ^ h) (feistel k0 k1 h) where
  maps x hx := by
    obtain ⟨hl, hr⟩ := feistel_halves_lt (k0 := k0) (k1 := k1) hx
    rw [feistel_eq]
    exact joined_halves_lt hl hr
  inj x hx y hy same := by
    obtain ⟨-, hxr⟩ := feistel_halves_lt (k0 := k0) (k1 := k1) hx
    obtain ⟨-, hyr⟩ := feistel_halves_lt (k0 := k0) (k1 := k1) hy
    rw [feistel_eq, feistel_eq] at same
    obtain ⟨left, right⟩ := joined_halves_inj hxr hyr same
    obtain ⟨(hdiv : x / 2 ^ h = y / 2 ^ h), (hmod : x % 2 ^ h = y % 2 ^ h)⟩ := Prod.ext_iff.1 (foldl_feistelRound_injective _ (Prod.ext left right))
    rw [← Nat.div_add_mod x (2 ^ h), ← Nat.div_add_mod y (2 ^ h), hdiv, hmod]

/-! ### Walking a cycle -/

/-- A number of passes of `f`. -/
def passes (f : Nat → Nat) : Nat → Nat → Nat
  | 0, y => y
  | n + 1, y => passes f n (f y)

theorem passes_add (f : Nat → Nat) (m n y : Nat) : passes f (m + n) y = passes f n (passes f m y) := by
  induction m generalizing y with
  | zero => rw [Nat.zero_add, passes]
  | succ m ih => rw [Nat.add_right_comm, passes, passes, ih]

namespace PermutesBelow

variable {N s : Nat} {f : Nat → Nat}

theorem passes (h : PermutesBelow N f) (n : Nat) : PermutesBelow N (passes f n) := by
  induction n with
  | zero => exact ⟨fun x hx => hx, fun x _ y _ same => same⟩
  | succ n ih => exact ⟨fun x hx => ih.maps _ (h.maps x hx), fun x hx y hy same => h.inj x hx y hy (ih.inj _ (h.maps x hx) _ (h.maps y hy) same)⟩

/-- Of N + 1 results below N, two are the same. -/
theorem exists_passes_eq (h : PermutesBelow N f) {x : Nat} (hx : x < N) :
    ∃ i j, i < j ∧ j ≤ N ∧ Machine.passes f i x = Machine.passes f j x := by
  refine Classical.byContradiction fun none_ => ?_
  have nodup : ((List.range (N + 1)).map fun i => Machine.passes f i x).Nodup :=
    List.pairwise_map.2 (List.pairwise_lt_range.imp_of_mem fun {i j} _ hj lt same =>
      none_ ⟨i, j, lt, Nat.le_of_lt_succ (List.mem_range.1 hj), same⟩)
  have subset : ((List.range (N + 1)).map fun i => Machine.passes f i x) ⊆ List.range N := fun y hy => by
    obtain ⟨i, -, rfl⟩ := List.mem_map.1 hy
    exact List.mem_range.2 ((h.passes i).maps x hx)
  have few := nodup.length_le_of_subset subset
  rw [List.length_map, List.length_range, List.length_range] at few
  omega

/-- A value is on a cycle, which comes back to it within N passes. -/
theorem exists_passes_eq_self (h : PermutesBelow N f) {x : Nat} (hx : x < N) : ∃ k < N, Machine.passes f (k + 1) x = x := by
  obtain ⟨i, j, lt, le, same⟩ := h.exists_passes_eq hx
  have split : Machine.passes f j x = Machine.passes f i (Machine.passes f (j - i) x) := by
    rw [← passes_add, Nat.sub_add_cancel (Nat.le_of_lt lt)]
  refine ⟨j - i - 1, by omega, ?_⟩
  rw [Nat.sub_add_cancel (by omega)]
  exact ((h.passes i).inj x hx _ ((h.passes (j - i)).maps x hx) (same.trans split)).symm

/-- Two first returns below s to the same value set out from the same one: the longer way would have come by the start of the other. -/
theorem eq_of_firstReturn_eq (h : PermutesBelow N f) (hs : s ≤ N) {x y n n' : Nat} (hx : x < s) (hy : y < s) (le : n ≤ n')
    (before : ∀ i < n', s ≤ Machine.passes f i (f y)) (same : Machine.passes f n (f x) = Machine.passes f n' (f y)) : x = y := by
  obtain ⟨d, rfl⟩ := Nat.exists_eq_add_of_le le
  have meet : Machine.passes f (n + 1) x = Machine.passes f (n + 1) (Machine.passes f d y) := by
    rw [← passes_add, ← Nat.add_assoc, Nat.add_comm d n]
    exact same
  have back := (h.passes (n + 1)).inj x (by omega) _ ((h.passes d).maps y (by omega)) meet
  cases d with
  | zero => exact back
  | succ d =>
    have outside : s ≤ Machine.passes f (d + 1) y := before d (by omega)
    omega

end PermutesBelow

/-- R231's walk stops at the first value on the cycle that lies below s. -/
theorem cycleWalk_eq_passes {k0 k1 h s fuel y : Nat} (returns : ∃ k < fuel, passes (feistel k0 k1 h) k y < s) :
    ∃ k, cycleWalk k0 k1 h s fuel y = passes (feistel k0 k1 h) k y ∧ passes (feistel k0 k1 h) k y < s ∧
      ∀ i < k, s ≤ passes (feistel k0 k1 h) i y := by
  induction fuel generalizing y with
  | zero =>
    obtain ⟨k, hk, -⟩ := returns
    exact absurd hk (Nat.not_lt_zero k)
  | succ fuel ih =>
    rw [cycleWalk]
    by_cases hy : y < s
    · exact ⟨0, if_pos hy, hy, fun i hi => absurd hi (Nat.not_lt_zero i)⟩
    · obtain ⟨k, hk, below⟩ := returns
      cases k with
      | zero => exact absurd below hy
      | succ k =>
        obtain ⟨n, walk, found, before⟩ := ih ⟨k, Nat.lt_of_succ_lt_succ hk, below⟩
        refine ⟨n + 1, (if_neg hy).trans walk, found, fun i hi => ?_⟩
        cases i with
        | zero => exact Nat.le_of_not_lt hy
        | succ i => exact before i (Nat.lt_of_succ_lt_succ hi)

/-- The walk from the image of a sample comes back to the samples, and two samples that end at the same one set out from the same one. -/
theorem cycleWalk_permutes {k0 k1 h s N : Nat} (hN : N = 2 ^ h * 2 ^ h) (hs : s ≤ N) :
    PermutesBelow s fun x => cycleWalk k0 k1 h s N (feistel k0 k1 h x) := by
  subst hN
  have perm := feistel_permutes k0 k1 h
  have first {x : Nat} (hx : x < s) := cycleWalk_eq_passes (y := feistel k0 k1 h x) (by
    obtain ⟨k, hk, back⟩ := perm.exists_passes_eq_self (Nat.lt_of_lt_of_le hx hs)
    exact ⟨k, hk, Nat.lt_of_le_of_lt (Nat.le_of_eq back) hx⟩)
  refine ⟨fun x hx => ?_, fun x hx y hy same => ?_⟩
  · obtain ⟨n, walk, found, -⟩ := first hx
    exact Nat.lt_of_le_of_lt (Nat.le_of_eq walk) found
  · obtain ⟨n, walk, -, before⟩ := first hx
    obtain ⟨n', walk', -, before'⟩ := first hy
    have meet := walk.symm.trans (same.trans walk')
    rcases Nat.le_total n n' with le | le
    · exact perm.eq_of_firstReturn_eq hs hx hy le before' meet
    · exact (perm.eq_of_firstReturn_eq hs hy hx le before meet.symm).symm

theorem lt_two_pow_bitLen (n : Nat) : n < 2 ^ bitLen n := by
  rw [bitLen]
  split
  · next zero => rw [zero]; exact Nat.two_pow_pos 0
  · exact Nat.lt_log2_self

end Sys2Proof.Machine

open Sys2Proof Sys2Proof.Machine

/-- Settles O40: with at most one sample by the constant order, with more by the first return of a permutation of 2^m values. -/
theorem epochOrderIsAPermutation : Obligations.EpochOrderIsAPermutation := by
  intro seed samples epoch
  by_cases few : samples ≤ 1
  · simp only [shuffle, if_pos few]
    exact ⟨fun x hx => by omega, fun x hx y hy _ => by omega⟩
  · have fits := lt_two_pow_bitLen (samples - 1)
    simp only [shuffle, if_neg few]
    generalize hbits : max 2 (bitLen (samples - 1)) = bits
    have square : 2 ^ (bits + bits % 2) = 2 ^ ((bits + bits % 2) / 2) * 2 ^ ((bits + bits % 2) / 2) := by
      rw [← Nat.pow_add, show (bits + bits % 2) / 2 + (bits + bits % 2) / 2 = bits + bits % 2 by omega]
    have grows : 2 ^ bitLen (samples - 1) ≤ 2 ^ (bits + bits % 2) := Nat.pow_le_pow_right (by decide) (by omega)
    have le : samples ≤ 2 ^ (bits + bits % 2) := by omega
    exact ⟨(cycleWalk_permutes square le).maps, (cycleWalk_permutes square le).inj⟩
end

section
/-! SUPPORT. The range checker's quantities and reasons (R342), and rounding an encoding of FP32 to itself (O60). -/

namespace Sys2Proof.Machine

theorem list_snoc_induction {α : Type} {P : List α → Prop} (nil : P []) (snoc : ∀ xs x, P xs → P (xs ++ [x])) (xs : List α) : P xs := by
  rw [← List.reverse_reverse xs]
  induction xs.reverse with
  | nil => exact nil
  | cons x ys ih =>
    rw [List.reverse_cons]
    exact snoc _ x ih

theorem tapUnit_snoc (vs : List Val) (v : Val) : tapUnit (vs ++ [v]) = (tapUnit vs).add v := List.foldl_append

theorem Tap.add_of_nan (t : Tap) {v : Val} (h : (fp32.decode (tapBits v)).isNan = true) : t.add v = { t with nans := t.nans + 1 } := by
  rw [Tap.add]
  cases x : fp32.decode (tapBits v) <;> simp_all [Val.isNan]

theorem Tap.add_of_inf (t : Tap) {v : Val} (h : (fp32.decode (tapBits v)).isInf = true) : t.add v = { t with infs := t.infs + 1 } := by
  rw [Tap.add]
  cases x : fp32.decode (tapBits v) <;> simp_all [Val.isInf]

theorem Tap.add_of_finite (t : Tap) {v : Val} (h : (fp32.decode (tapBits v)).isNan = false) (h' : (fp32.decode (tapBits v)).isInf = false) :
    t.add v = { t with
      m := max t.m (tapBits v % 2 ^ 31),
      s := (fp32.rne true ((fp32.decode t.s).add (fp32.decode (fp32.rne true ((fp32.decode (tapBits v)).mul (fp32.decode (tapBits v)))).1))).1 } := by
  rw [Tap.add]
  cases x : fp32.decode (tapBits v) <;> simp_all [Val.isNan, Val.isInf]

theorem Val.isInf_of_isNan : ∀ {v : Val}, v.isNan = true → v.isInf = false
  | .nan, _ => rfl

/-- R342's counts, and its m as the largest magnitude among the finite elements. -/
theorem tapUnit_counts (vs : List Val) :
    (tapUnit vs).nans = (vs.filter fun v => (fp32.decode (tapBits v)).isNan).length ∧
    (tapUnit vs).infs = (vs.filter fun v => (fp32.decode (tapBits v)).isInf).length ∧
    (∀ v ∈ vs, (!(fp32.decode (tapBits v)).isNan && !(fp32.decode (tapBits v)).isInf) = true → tapBits v % 2 ^ 31 ≤ (tapUnit vs).m) ∧
    ((tapUnit vs).m = 0 ∨
      ∃ v ∈ vs, (!(fp32.decode (tapBits v)).isNan && !(fp32.decode (tapBits v)).isInf) = true ∧ tapBits v % 2 ^ 31 = (tapUnit vs).m) := by
  induction vs using list_snoc_induction with
  | nil => exact ⟨rfl, rfl, by simp, .inl rfl⟩
  | snoc vs v ih =>
    obtain ⟨nans, infs, bound, largest⟩ := ih
    rw [tapUnit_snoc]
    by_cases nan : (fp32.decode (tapBits v)).isNan = true
    · rw [Tap.add_of_nan _ nan]
      have inf := Val.isInf_of_isNan nan
      refine ⟨by simp [nan, nans], by simp [inf, infs], ?_, largest.imp_right ?_⟩
      · simpa [or_imp, forall_and, nan] using bound
      · exact fun ⟨w, hw, fits⟩ => ⟨w, List.mem_append_left _ hw, fits⟩
    · rw [Bool.not_eq_true] at nan
      by_cases inf : (fp32.decode (tapBits v)).isInf = true
      · rw [Tap.add_of_inf _ inf]
        refine ⟨by simp [nan, nans], by simp [inf, infs], ?_, largest.imp_right ?_⟩
        · simpa [or_imp, forall_and, inf] using bound
        · exact fun ⟨w, hw, fits⟩ => ⟨w, List.mem_append_left _ hw, fits⟩
      · rw [Bool.not_eq_true] at inf
        rw [Tap.add_of_finite _ nan inf]
        refine ⟨by simp [nan, nans], by simp [inf, infs], fun w hw fits => ?_, ?_⟩
        · rcases List.mem_append.1 hw with hw | hw
          · exact Nat.le_trans (bound w hw fits) (Nat.le_max_left ..)
          · rw [List.mem_singleton.1 hw]
            exact Nat.le_max_right ..
        · rcases Nat.le_total (tapUnit vs).m (tapBits v % 2 ^ 31) with le | le
          · exact .inr ⟨v, by simp, by simp [nan, inf], (Nat.max_eq_right le).symm⟩
          · simp only [Nat.max_eq_left le]
            exact largest.imp_right fun ⟨w, hw, fits⟩ => ⟨w, List.mem_append_left _ hw, fits⟩

theorem tapUnit_snoc_s (vs : List Val) (v : Val) : (tapUnit (vs ++ [v])).s =
    if (!(fp32.decode (tapBits v)).isNan && !(fp32.decode (tapBits v)).isInf) = true then
      (fp32.rne true ((fp32.decode (tapUnit vs).s).add
        (fp32.decode (fp32.rne true ((fp32.decode (tapBits v)).mul (fp32.decode (tapBits v)))).1))).1
    else (tapUnit vs).s := by
  rw [tapUnit_snoc]
  cases nan : (fp32.decode (tapBits v)).isNan with
  | true => rw [Tap.add_of_nan _ nan]; rfl
  | false =>
    cases inf : (fp32.decode (tapBits v)).isInf with
    | true => rw [Tap.add_of_inf _ inf]; rfl
    | false => rw [Tap.add_of_finite _ nan inf]; rfl

/-- Four flags as the bits of a number. -/
theorem bitAt_four_flags (a b c d : Bool) :
    let n := ofBool a + 2 * ofBool b + 4 * ofBool c + 8 * ofBool d
    bitAt n 0 = a ∧ bitAt n 1 = b ∧ bitAt n 2 = c ∧ bitAt n 3 = d ∧ n < 16 := by
  revert a b c d; decide

theorem Tap.reasons_of_enable (t : Tap) {b : Bounds} (h : b.enable = true) : t.reasons b =
    ofBool ((fp32.decode b.amax.toNat).lt (fp32.decode t.m)) + 2 * ofBool (decide (b.nanMax < t.nans))
      + 4 * ofBool (decide (b.infMax < t.infs)) + 8 * ofBool ((fp32.decode b.l2max.toNat).lt (fp32.decode t.s)) := by
  simp [Tap.reasons, h]

theorem bitLen_of_range {k n : Nat} (lower : 2 ^ k ≤ n) (upper : n < 2 ^ (k + 1)) : bitLen n = k + 1 := by
  have pos : n ≠ 0 := Nat.ne_of_gt (Nat.lt_of_lt_of_le (Nat.two_pow_pos k) lower)
  rw [bitLen, if_neg pos, (Nat.log2_eq_iff pos).2 ⟨lower, upper⟩]

theorem bitLen_le_of_lt {k n : Nat} (h : n < 2 ^ k) : bitLen n ≤ k := by
  rw [bitLen]
  split
  · exact Nat.zero_le k
  · exact (Nat.log2_lt ‹_›).2 h

theorem roundUnits_self (mode : Rmode) (m : Nat) (e : Int) : roundUnits mode m e e = m := by
  simp [roundUnits]

/-- A normal value of a format rounds to its own encoding. -/
theorem FloatFmt.roundFin_of_normal {f : FloatFmt} (mode : Rmode) (sat ftz neg : Bool) {m : Nat} {e : Int} (lower : 2 ^ f.fbits ≤ m)
    (upper : m < 2 ^ (f.fbits + 1)) (he : f.emin ≤ e + f.fbits)
    (small : (e + f.fbits + f.bias).toNat * 2 ^ f.fbits + (m - 2 ^ f.fbits) ≤ f.maxBits) :
    f.roundFin mode sat ftz neg m e = (f.signBit neg + ((e + f.fbits + f.bias).toNat * 2 ^ f.fbits + (m - 2 ^ f.fbits)), .none) := by
  have unit : max (Val.topExp m e) f.emin - f.fbits = e := by
    rw [Val.topExp, bitLen_of_range lower upper]
    push_cast
    omega
  have pos : m ≠ 0 := Nat.ne_of_gt (Nat.lt_of_lt_of_le (Nat.two_pow_pos _) lower)
  simp only [FloatFmt.roundFin, unit, roundUnits_self, if_neg pos, ge_iff_le, decide_eq_false (Nat.not_le.2 upper), Bool.false_eq_true, ↓reduceIte,
    if_neg (Nat.not_lt.2 lower), gt_iff_lt, if_neg (Nat.not_lt.2 small)]

/-- A subnormal value of a format is flushed to a zero of its sign (R60). -/
theorem FloatFmt.roundFin_of_subnormal {f : FloatFmt} (mode : Rmode) (sat neg : Bool) {m : Nat} (pos : m ≠ 0) (upper : m < 2 ^ f.fbits) :
    (f.roundFin mode sat true neg m (f.emin - f.fbits)).1 = f.signBit neg := by
  have len := bitLen_le_of_lt upper
  have unit : max (Val.topExp m (f.emin - f.fbits)) f.emin - f.fbits = f.emin - f.fbits := by
    rw [Val.topExp]
    omega
  have carry : ¬ 2 ^ (f.fbits + 1) ≤ m := Nat.not_le.2 (Nat.lt_trans upper (Nat.pow_lt_pow_right (by decide) (by omega)))
  simp only [FloatFmt.roundFin, unit, roundUnits_self, if_neg pos, ge_iff_le, decide_eq_false carry, Bool.false_eq_true, ↓reduceIte,
    if_pos upper]

theorem fp32_signBit_bitAt {n : Nat} (hn : n < 2 ^ 32) : fp32.signBit (bitAt n 31) = n / 2 ^ 31 * 2 ^ 31 := by
  rcases (by omega : n / 2 ^ 31 = 0 ∨ n / 2 ^ 31 = 1) with h | h <;> rw [bitAt, Nat.shiftRight_eq_div_pow, h] <;> rfl

/-- R59: an encoding of FP32 that is no NaN is seen as it is, except that a subnormal is seen as a zero. -/
theorem tapBits_decode {n : Nat} (hn : n < 2 ^ 32) (number : (fp32.decode n).isNan = false) :
    tapBits (fp32.decode n) = if n % 2 ^ 31 < 2 ^ 23 then n / 2 ^ 31 * 2 ^ 31 else n := by
  have sign := fp32_signBit_bitAt hn
  have dec : fp32.decode n =
      if n / 2 ^ 23 % 2 ^ 8 = 255 then (if n % 2 ^ 23 = 0 then .inf (bitAt n 31) else .nan)
      else if n / 2 ^ 23 % 2 ^ 8 = 0 then .fin (bitAt n 31) (n % 2 ^ 23) (-149)
      else .fin (bitAt n 31) (2 ^ 23 + n % 2 ^ 23) (((n / 2 ^ 23 % 2 ^ 8 : Nat) : Int) - 150) := by
    simp [FloatFmt.decode, fp32, bitsAt_eq_div_mod, Int.sub_sub]
  rw [tapBits, FloatFmt.rne, dec]
  by_cases top : n / 2 ^ 23 % 2 ^ 8 = 255
  · by_cases frac : n % 2 ^ 23 = 0
    · rw [if_pos top, if_pos frac, if_neg (by omega)]
      change fp32.signBit (bitAt n 31) + (2 ^ 8 - 1) * 2 ^ 23 = n
      omega
    · rw [dec, if_pos top, if_neg frac] at number
      exact absurd number (by decide)
  · rw [if_neg top]
    by_cases low : n / 2 ^ 23 % 2 ^ 8 = 0
    · rw [if_pos low, if_pos (by omega), FloatFmt.round]
      split
      · exact sign
      · exact (FloatFmt.roundFin_of_subnormal (f := fp32) _ _ _ ‹_› (Nat.mod_lt _ (by decide))).trans sign
    · have ex : ((((n / 2 ^ 23 % 2 ^ 8 : Nat) : Int) - 150) + 23 + 127).toNat = n / 2 ^ 23 % 2 ^ 8 := by omega
      have normal := FloatFmt.roundFin_of_normal (f := fp32) .rne false true (bitAt n 31) (m := 2 ^ 23 + n % 2 ^ 23)
        (e := ((n / 2 ^ 23 % 2 ^ 8 : Nat) : Int) - 150) (Nat.le_add_right ..) (by change _ < 2 ^ 24; omega) (by change (-126 : Int) ≤ _ + 23; omega)
        (by change (((n / 2 ^ 23 % 2 ^ 8 : Nat) : Int) - 150 + 23 + 127).toNat * 2 ^ 23 + (2 ^ 23 + n % 2 ^ 23 - 2 ^ 23) ≤ 255 * 2 ^ 23 - 1; omega)
      rw [if_neg low, if_neg (by omega), FloatFmt.round, if_neg (by omega), normal]
      change fp32.signBit (bitAt n 31) + ((((n / 2 ^ 23 % 2 ^ 8 : Nat) : Int) - 150 + 23 + 127).toNat * 2 ^ 23 + (2 ^ 23 + n % 2 ^ 23 - 2 ^ 23)) = n
      omega

end Sys2Proof.Machine
end

section
/-! SUPPORT. The frame shaper: crop windows, phases, resizing, colour and elements (R247 to R251) (O60). -/

namespace Sys2Proof.Machine

/-- The window that the crop mode alone names, before R247 makes it even where chroma is subsampled. -/
def Profile.cropped (f : Profile) (q : Picture) : Nat × Nat × Nat × Nat :=
  let w := q.width
  let h := q.height
  let full := (0, 0, w, h)
  if f.crop = 1 then
    if w * f.ho > h * f.wo then let wc := h * f.wo / f.ho; ((w - wc) / 2, 0, wc, h)
    else let hc := w * f.ho / f.wo; (0, (h - hc) / 2, w, hc)
  else if f.crop = 2 then
    let fx := f.fixed.getD 0 0
    let fy := f.fixed.getD 1 0
    let x1 := min w (fx + f.fixed.getD 2 0)
    let y1 := min h (fy + f.fixed.getD 3 0)
    if x1 ≤ fx || y1 ≤ fy then full else (fx, fy, x1 - fx, y1 - fy)
  else full

theorem Profile.window_eq (f : Profile) (q : Picture) :
    let sx := q.cwidth != 0 && decide (q.cwidth < q.width)
    let sy := q.cheight != 0 && decide (q.cheight < q.height)
    let (x, y, wc, hc) := f.cropped q
    f.window q = (if sx then x / 2 * 2 else x, if sy then y / 2 * 2 else y, if sx then wc / 2 * 2 else wc, if sy then hc / 2 * 2 else hc) := rfl

theorem Profile.cropped_inside (f : Profile) (q : Picture) :
    (f.cropped q).1 + (f.cropped q).2.2.1 ≤ q.width ∧ (f.cropped q).2.1 + (f.cropped q).2.2.2 ≤ q.height := by
  simp only [Profile.cropped]
  by_cases centre : f.crop = 1
  · rw [if_pos centre]
    by_cases wide : q.width * f.ho > q.height * f.wo
    · have fits : q.height * f.wo / f.ho ≤ q.width := Nat.div_le_of_le_mul (by rw [Nat.mul_comm f.ho]; exact Nat.le_of_lt wide)
      simp only [if_pos wide]
      omega
    · have fits : q.width * f.ho / f.wo ≤ q.height := Nat.div_le_of_le_mul (by rw [Nat.mul_comm f.wo]; exact Nat.not_lt.1 wide)
      simp only [if_neg wide]
      omega
  · rw [if_neg centre]
    by_cases fixed : f.crop = 2
    · rw [if_pos fixed]
      split
      · simp
      · next room =>
        simp only [Bool.or_eq_true, decide_eq_true_eq, not_or] at room
        obtain ⟨roomX, roomY⟩ := room
        dsimp only
        omega
    · simp [if_neg fixed]

theorem even_part (b : Bool) (n : Nat) : (if b then n / 2 * 2 else n) ≤ n ∧ (b = true → (if b then n / 2 * 2 else n) % 2 = 0) := by
  cases b with
  | false => exact ⟨Nat.le_refl _, fun h => absurd h (by decide)⟩
  | true => exact ⟨Nat.div_mul_le_self n 2, fun _ => Nat.mul_mod_left _ 2⟩

/-- R247: the window lies inside the picture, and is even in each direction in which chroma is subsampled. -/
theorem Profile.window_inside (f : Profile) (q : Picture) :
    (f.window q).1 + (f.window q).2.2.1 ≤ q.width ∧ (f.window q).2.1 + (f.window q).2.2.2 ≤ q.height ∧
    (q.cwidth ≠ 0 → q.cwidth < q.width → (f.window q).1 % 2 = 0 ∧ (f.window q).2.2.1 % 2 = 0) ∧
    (q.cheight ≠ 0 → q.cheight < q.height → (f.window q).2.1 % 2 = 0 ∧ (f.window q).2.2.2 % 2 = 0) := by
  obtain ⟨insideX, insideY⟩ := f.cropped_inside q
  rw [f.window_eq q]
  refine ⟨Nat.le_trans (Nat.add_le_add (even_part ..).1 (even_part ..).1) insideX, Nat.le_trans (Nat.add_le_add (even_part ..).1 (even_part ..).1) insideY,
    fun some_ less => ?_, fun some_ less => ?_⟩
  all_goals exact ⟨(even_part ..).2 (by simp [some_, less]), (even_part ..).2 (by simp [some_, less])⟩

/-- R249: every phase has eight coefficients that sum to 128, and the phases above 32 mirror those below. -/
theorem filterOf_rows : ∀ ph < 64, (filterOf ph).length = 8 ∧ (filterOf ph).sum = 128 ∧
    (32 < ph → ∀ k < 8, (filterOf ph).getD k 0 = (filterOf (64 - ph)).getD (7 - k) 0) := by
  decide +kernel

/-- R248: where input and output have the same length, every position is a sample, in phase 0. -/
theorem filterSum_same (input : Nat → Int) {n j : Nat} (hj : j < n) : filterSum input n n j = 128 * input j := by
  have pos : (((2 * j + 1) * n * 65536 : Nat) : Int) / ((2 * n : Nat) : Int) - 32768 = 65536 * j := by
    have whole : (2 * j + 1) * n * 65536 = (2 * j + 1) * 32768 * (2 * n) := by
      rw [Nat.mul_right_comm, Nat.mul_assoc _ 32768 (2 * n), ← Nat.mul_assoc 32768 2 n, Nat.mul_comm (32768 * 2) n, ← Nat.mul_assoc,
        Nat.mul_right_comm]
    rw [whole, ← Int.natCast_ediv, Nat.mul_div_cancel _ (by omega)]
    omega
  have sample : (min (max ((j : Int) - 3 + (3 : Nat)) 0) ((n : Int) - 1)).toNat = j := by omega
  have phase : filterOf 0 = [0, 0, 0, 128, 0, 0, 0, 0] := by decide
  simp only [filterSum, pos, Int.mul_ediv_cancel_left _ (show (65536 : Int) ≠ 0 by decide), Int.mul_emod_right, Int.toNat_zero, Nat.zero_div, phase]
  simp only [List.zipIdx_cons, List.zipIdx_nil, List.foldl_cons, List.foldl_nil, sample, Int.zero_mul, Int.add_zero, Int.zero_add]

theorem resizePlane_same (plane : Array Nat) (pitch x y : Nat) {w h depth i j : Nat} (hi : i < h) (hj : j < w)
    (hv : plane.getD ((y + i) * pitch + x + j) 0 < 2 ^ depth) :
    ((resizePlane plane pitch x y w h w h depth).getD i #[]).getD j 0 = ((16 * plane.getD ((y + i) * pitch + x + j) 0 : Nat) : Int) := by
  have top : plane.getD ((y + i) * pitch + x + j) 0 ≤ 2 ^ depth - 1 := by omega
  simp only [resizePlane, Array.getD_eq_getD_getElem?, Array.getElem?_map, Array.getElem?_range, hi, hj, if_true, Option.map_some, Option.getD_some,
    filterSum_same _ hi, filterSum_same _ hj] at top ⊢
  push_cast
  omega

/-- A value within the range of a plane. -/
theorem fit_mem {x top : Int} (h : 0 ≤ top) : 0 ≤ min (max x 0) top ∧ min (max x 0) top ≤ top := by omega

theorem colourConsts_full (matrix : Nat) : (colourConsts matrix true).getD 0 0 = 8192 := by
  unfold colourConsts
  split <;> simp_all

theorem Profile.channels_length (f : Profile) (signalled lines depth : Nat) (full : Bool) (y cb cr : Int) :
    (f.channels signalled lines depth full y cb cr).length = f.c := by
  unfold Profile.channels Profile.c
  split
  · simp_all
  · split <;> rfl

/-- R250: RGB channels are within the range of their depth, and with neutral chroma all three are the luma, in full range unchanged. -/
theorem Profile.channels_rgb (f : Profile) (signalled lines depth : Nat) (full : Bool) (y cb cr : Int) (h1 : f.colour ≠ 1) (h2 : f.colour ≠ 2) :
    (∀ v ∈ f.channels signalled lines depth full y cb cr, 0 ≤ v ∧ v ≤ ((2 ^ depth - 1) * 16 : Nat)) ∧
    (cb = 128 * ((2 ^ (depth - 8) * 16 : Nat) : Int) → cr = 128 * ((2 ^ (depth - 8) * 16 : Nat) : Int) →
      ∃ v, f.channels signalled lines depth full y cb cr = [v, v, v] ∧
        ((f.range = 2 ∨ f.range = 0 ∧ full = true) → 0 ≤ y → y ≤ ((2 ^ depth - 1) * 16 : Nat) → v = y)) := by
  simp only [Profile.channels, if_neg h1, if_neg h2]
  refine ⟨fun v hv => ?_, fun hcb hcr => ?_⟩
  · simp only [List.mem_cons, List.not_mem_nil, or_false] at hv
    rcases hv with rfl | rfl | rfl <;> exact fit_mem (Int.natCast_nonneg _)
  · subst hcb hcr
    simp only [Int.sub_self, Int.mul_zero, Int.add_zero, Int.sub_zero]
    refine ⟨_, rfl, fun inFull low high => ?_⟩
    have whole : (if f.range = 0 then full else f.range == 2) = true := by
      rcases inFull with two | ⟨zero, rfl⟩
      · simp [two]
      · simp [zero]
    simp only [whole, if_true, colourConsts_full, Int.sub_zero]
    omega

/-- R61: a saturating conversion that flushes subnormals gives a zero or a magnitude up to the largest finite one. -/
theorem FloatFmt.roundFin_saturates (f : FloatFmt) (mode : Rmode) (neg : Bool) (m : Nat) (e : Int) :
    ∃ k ≤ f.maxBits, (f.roundFin mode true true neg m e).1 = f.signBit neg + k := by
  rw [FloatFmt.roundFin]
  split
  · exact ⟨0, Nat.zero_le _, rfl⟩
  · extract_lets
    split
    · exact ⟨0, Nat.zero_le _, rfl⟩
    · split
      · exact ⟨_, Nat.le_refl _, rfl⟩
      · exact ⟨_, Nat.not_lt.1 ‹_›, rfl⟩

theorem FloatFmt.round_fin_saturates (f : FloatFmt) (mode : Rmode) (neg : Bool) (m : Nat) (e : Int) :
    ∃ k ≤ f.maxBits, (f.round mode true true (.fin neg m e)).1 = f.signBit neg + k := by
  rw [FloatFmt.round]
  split
  · exact ⟨0, Nat.zero_le _, rfl⟩
  · exact f.roundFin_saturates mode neg m e

/-- An encoding is finite where its exponent is not all ones, or where it is E4M3's and not its one NaN (R41, R42). -/
theorem FloatFmt.decode_finite {f : FloatFmt} {n : Nat} (h : bitsAt n f.fbits f.ebits ≠ 2 ^ f.ebits - 1 ∨
      f.special = .e4m3 ∧ bitsAt n 0 f.fbits ≠ 2 ^ f.fbits - 1) : (f.decode n).isNan = false ∧ (f.decode n).isInf = false := by
  have finite {s : Bool} {m : Nat} {e : Int} : (Val.fin s m e).isNan = false ∧ (Val.fin s m e).isInf = false := ⟨rfl, rfl⟩
  have notTop : (f.special = .ieee && bitsAt n f.fbits f.ebits == 2 ^ f.ebits - 1) = false ∧
      (f.special = .e4m3 && bitsAt n f.fbits f.ebits == 2 ^ f.ebits - 1 && bitsAt n 0 f.fbits == 2 ^ f.fbits - 1) = false := by
    rcases h with ex | ⟨special, frac⟩
    · simp [ex]
    · simp [special, frac]
  simp only [FloatFmt.decode, notTop.1, notTop.2, Bool.false_eq_true, if_false]
  split <;> exact finite

theorem FloatFmt.decode_signBit_add_finite {f : FloatFmt} (hf : f ∈ [Machine.bf16, Machine.e4m3, Machine.e5m2]) (s : Bool) {k : Nat} (hk : k ≤ f.maxBits) :
    (f.decode (f.signBit s + k)).isNan = false ∧ (f.decode (f.signBit s + k)).isInf = false := by
  apply FloatFmt.decode_finite
  simp only [bitsAt_eq_div_mod]
  simp only [List.mem_cons, List.not_mem_nil, or_false] at hf
  rcases hf with rfl | rfl | rfl <;> cases s <;>
    simp [FloatFmt.maxBits, FloatFmt.signBit, bf16, Machine.e4m3, e5m2] at hk ⊢ <;> omega

/-- The formats that a profile names for its elements (Table 8.5). -/
theorem Fmt.float_of_output {o : Fmt} {ff : FloatFmt} (ho : o ∈ [Fmt.bf16, .e4m3, .e5m2]) (h : o.float = some ff) :
    ff ∈ [Machine.bf16, Machine.e4m3, Machine.e5m2] := by
  simp only [List.mem_cons, List.not_mem_nil, or_false] at ho
  rcases ho with rfl | rfl | rfl <;> cases h <;> simp

theorem Profile.element_eq {f : Profile} {ff : FloatFmt} (h : f.ofmt.float = some ff) (c : Nat) (value : Int) :
    f.element c value = (ff.round .rne true true (.fin (decide (value * f.ms.getD c 0 + f.offs.getD c 0 < 0))
      (value * f.ms.getD c 0 + f.offs.getD c 0).natAbs (-((f.es.getD c 0 : Nat) : Int)))).1 := by
  simp only [Profile.element, convert, h]

end Sys2Proof.Machine

open Sys2Proof Sys2Proof.Machine

/-- Settles O60: the checker by its running quantities, the shaper stage by stage. -/
theorem checkerAndShaperCompute : Obligations.CheckerAndShaperCompute := by
  refine ⟨fun vs => ?unit, fun n hn number => tapBits_decode hn number, fun t b => ⟨fun off => ?off, fun on => ?on⟩,
    fun f q => f.window_inside q, filterOf_rows, fun plane pitch x y w h depth i j hi hj hv => resizePlane_same plane pitch x y hi hj hv,
    fun f signalled lines depth full y cb cr => ?colour, fun f c value ff ho hff => ?element⟩
  case unit =>
    obtain ⟨nans, infs, bound, largest⟩ := tapUnit_counts vs
    exact ⟨nans, infs, bound, largest, tapUnit_snoc_s vs⟩
  case off => simp [Tap.reasons, off]
  case on =>
    rw [t.reasons_of_enable on]
    exact bitAt_four_flags ..
  case colour =>
    exact ⟨f.channels_length .., fun ycc => if_pos ycc, fun grey => by simp [Profile.channels, grey],
      fun h1 h2 => f.channels_rgb signalled lines depth full y cb cr h1 h2⟩
  case element =>
    rw [f.element_eq hff]
    obtain ⟨k, hk, bits⟩ := ff.round_fin_saturates .rne (decide (value * f.ms.getD c 0 + f.offs.getD c 0 < 0))
      (value * f.ms.getD c 0 + f.offs.getD c 0).natAbs (-((f.es.getD c 0 : Nat) : Int))
    rw [bits]
    obtain ⟨nan, inf⟩ := FloatFmt.decode_signBit_add_finite (Fmt.float_of_output ho hff) (decide (value * f.ms.getD c 0 + f.offs.getD c 0 < 0)) hk
    refine ⟨nan, inf, fun zero => ?_⟩
    rw [← bits, zero]
    rfl
end

section
/-! SUPPORT. The ingest path, phase by phase: what each of its commands comes to (O39). -/

namespace Sys2Proof.Machine

variable {s s1 s2 : State} {slot : Nat} {x : Slot}

/-- The steps of slot j that start when the release value becomes `release` (R234): those from its next one up to release + D. -/
def State.slotStarts (s : State) (release j : Nat) : List Slot :=
  (List.range (release + s.plan.depth - s.ing.nextStep.getD j release)).map fun k =>
    { j, step := s.ing.nextStep.getD j release + k, sample := s.job.sampleOf s.plan (s.ing.nextStep.getD j release + k) j, phase := .entry,
      entry := [], src := [], init := [], hit := false, blocked := none, written := 0 }

theorem State.slotStarts_mem {release j : Nat} {y : Slot} (h : y ∈ s.slotStarts release j) :
    y.j = j ∧ y.step < release + s.plan.depth ∧ y.sample = s.job.sampleOf s.plan y.step j ∧ y.phase = .entry ∧ y.written = 0 ∧
      s.ing.nextStep.getD j release ≤ y.step := by
  obtain ⟨k, hk, rfl⟩ := List.mem_map.1 h
  rw [List.mem_range] at hk
  exact ⟨rfl, by dsimp only; omega, rfl, rfl, rfl, Nat.le_add_right ..⟩

/-- R234: a poll of the release word reads memory, raises the release value and starts slots. -/
theorem execReleaseWordPoll_of (live : s.ingesting = true) {a : Nat} (place : s.locAddr s.plan.releaseWord 0 4 false = some a) {bs : List Byte}
    (read : s.readMem a 4 = (s1, bs, none)) :
    execReleaseWordPoll s = .next { s with
      mem := s1.mem, chk := s1.chk,
      ing := { s.ing with
        release := max s.ing.release (natAt bs 0 4),
        slots := s.ing.slots ++ (List.range s.plan.nslots).flatMap (s.slotStarts (max s.ing.release (natAt bs 0 4))),
        nextStep := (List.range s.plan.nslots).map fun j =>
          max (s.ing.nextStep.getD j (max s.ing.release (natAt bs 0 4))) (max s.ing.release (natAt bs 0 4) + s.plan.depth) } } := by
  obtain ⟨mem, chk, rfl⟩ : s.OnlyMem s1 := by
    have kept := (State.OnlyMem.refl s).readMem a 4
    rwa [read] at kept
  simp only [execReleaseWordPoll, live, Bool.not_true, Bool.false_eq_true, if_false, place, read, List.flatMap_map, id_eq]
  rfl

/-! ### Index entries (R236, R237) -/

section Entry

variable (live : s.ingesting = true) (old : s.ing.oldest slot .entry = some x)

include live old

theorem execIndexEntryRead_linkError : execIndexEntryRead slot .linkError s = .next (s.ingestEvent 3 x.j x.step) := by
  simp [execIndexEntryRead, old, live]

variable (dma : s.host.dma = true)

include dma

theorem execIndexEntryRead_refused
    (place : s.locAddr (placeAt (s.plan.listOf x.sample) 0) (64 * (x.sample - (listRange (s.plan.listOf x.sample)).1)) 64 false = none) :
    execIndexEntryRead slot .ok s = .next (s.ingestEvent 4 x.j x.step) := by
  simp [execIndexEntryRead, old, live, dma, place]

variable {a : Nat}
  (place : s.locAddr (placeAt (s.plan.listOf x.sample) 0) (64 * (x.sample - (listRange (s.plan.listOf x.sample)).1)) 64 false = some a)

include place

theorem execIndexEntryRead_waits {g : Nat} (fault : s.mem.faultPage a 64 false = some g) :
    execIndexEntryRead slot .ok s = .next (s.blockSlot x g) := by
  simp [execIndexEntryRead, old, live, dma, place, fault]

variable (mapped : s.mem.faultPage a 64 false = none)

include mapped

theorem execIndexEntryRead_accepts
    (fits : natAt (s.mem.readDev a 64).1 56 4 = natAt (s.plan.listOf x.sample) 24 4 ∧
      natAt (s.mem.readDev a 64).1 60 4 = (crc32c ((s.mem.readDev a 64).1.take 60)).toNat) :
    execIndexEntryRead slot .ok s = .next
      (({ s.tlbRange a 64 with ing := { (s.tlbRange a 64).ing with
          accepted := (s.tlbRange a 64).ing.accepted.filter (fun b => !(b.1 == x.step && b.2.1 == x.j)) ++
            [(x.step, x.j, (s.mem.readDev a 64).1)] } } : State).putSlot
        { x with entry := (s.mem.readDev a 64).1,
                 phase := if entryUnreadable (s.tlbRange a 64).mem.usable (s.mem.readDev a 64).1 then .decode else .lookup }) := by
  simp [execIndexEntryRead, old, live, dma, place, mapped, fits]

theorem execIndexEntryRead_polls
    (differs : ¬ (natAt (s.mem.readDev a 64).1 56 4 = natAt (s.plan.listOf x.sample) 24 4 ∧
      natAt (s.mem.readDev a 64).1 60 4 = (crc32c ((s.mem.readDev a 64).1.take 60)).toNat)) :
    execIndexEntryRead slot .ok s =
      .next { s.tlbRange a 64 with ing := { (s.tlbRange a 64).ing with polls := (s.tlbRange a 64).ing.polls + 1 } } := by
  simp [execIndexEntryRead, old, live, dma, place, mapped, differs]

end Entry

/-! ### The sample cache (R239) -/

section Lookup

variable (live : s.ingesting = true) (old : s.ing.oldest slot .lookup = some x)

include live old

theorem execSampleCacheLookup_noCache (outcome : ReqOutcome) (none_ : s.plan.lines = 0) :
    execSampleCacheLookup ⟨slot, outcome⟩ s = .next (s.putSlot { x with phase := .fetch }) := by
  simp [execSampleCacheLookup, old, live, none_]

variable (some_ : s.plan.lines ≠ 0) {a : Nat} (line : s.lineAddr x.sample = some a)

include some_ line

theorem execSampleCacheLookup_linkError : execSampleCacheLookup ⟨slot, .linkError⟩ s = .next (s.ingestEvent 3 x.j x.step) := by
  simp [execSampleCacheLookup, old, live, some_, line]

variable {tag : List Byte} (readTag : (s.tlbRange a (64 + natAt x.entry 8 4)).readMem a 64 = (s1, tag, none))

include readTag

theorem execSampleCacheLookup_unnamed
    (named : (tag.take 20 == (cacheTag x.sample (natAt (s.plan.listOf x.sample) 24 4) x.entry []).take 20 &&
      decide (64 + natAt x.entry 8 4 ≤ s.plan.lineSize)) = false) :
    execSampleCacheLookup ⟨slot, .ok⟩ s =
      .next (({ s1 with ing := { s1.ing with misses := s1.ing.misses + 1 } } : State).putSlot { x with phase := .fetch }) := by
  simp [execSampleCacheLookup, old, live, some_, line, readTag, named]

variable (named : (tag.take 20 == (cacheTag x.sample (natAt (s.plan.listOf x.sample) 24 4) x.entry []).take 20 &&
    decide (64 + natAt x.entry 8 4 ≤ s.plan.lineSize)) = true)
  {bs : List Byte} (readLine : s1.readMem (a + 64) (natAt x.entry 8 4) = (s2, bs, none))

include named readLine

theorem execSampleCacheLookup_badBytes (differs : natAt tag 20 4 ≠ (crc32c bs).toNat) :
    execSampleCacheLookup ⟨slot, .ok⟩ s =
      .next (({ s2 with ing := { s2.ing with bads := s2.ing.bads + 1, misses := s2.ing.misses + 1 } } : State).putSlot
        { x with phase := .fetch }) := by
  simp [execSampleCacheLookup, old, live, some_, line, readTag, named, readLine, differs]

theorem execSampleCacheLookup_hit (same : natAt tag 20 4 = (crc32c bs).toNat) :
    execSampleCacheLookup ⟨slot, .ok⟩ s =
      .next (({ s2 with ing := { s2.ing with hits := s2.ing.hits + 1 } } : State).putSlot { x with src := bs, hit := true, phase := .fetch }) := by
  simp [execSampleCacheLookup, old, live, some_, line, readTag, named, readLine, same]

end Lookup

/-! ### Fetch (R238) -/

/-- The bytes of src that a slot's fetch reads: none where the sample cache held them. -/
def Slot.srcLen (x : Slot) : Nat := if x.hit then 0 else natAt x.entry 8 4

theorem Slot.srcLen_def (x : Slot) : (if x.hit = true then 0 else natAt x.entry 8 4) = x.srcLen := rfl

section Fetch

variable (live : s.ingesting = true) (old : s.ing.oldest slot .fetch = some x)

include live old

theorem execSampleFetch_linkError : execSampleFetch slot .linkError s = .next (s.ingestEvent 3 x.j x.step) := by
  simp [execSampleFetch, old, live]

variable (dma : s.host.dma = true)

include dma

theorem execSampleFetch_unmapped (no : x.srcLen ≠ 0 ∧ s.unmapped (natAt x.entry 0 8) x.srcLen = true ∨
      natAt x.entry 12 4 ≠ 0 ∧ s.unmapped (natAt x.entry 16 8) (natAt x.entry 12 4) = true) :
    execSampleFetch slot .ok s = .next (s.ingestEvent 1 x.j x.step) := by
  have cond : ((x.srcLen != 0 && s.unmapped (natAt x.entry 0 8) x.srcLen) ||
      (natAt x.entry 12 4 != 0 && s.unmapped (natAt x.entry 16 8) (natAt x.entry 12 4))) = true := by simpa using no
  simp only [execSampleFetch, old, Slot.srcLen_def, live, dma, cond, reduceCtorEq, Bool.not_true, Bool.and_false, Bool.false_and, Bool.or_self,
    Bool.false_eq_true, if_false, if_true]

variable (src : x.srcLen ≠ 0 → s.unmapped (natAt x.entry 0 8) x.srcLen = false)
  (init : natAt x.entry 12 4 ≠ 0 → s.unmapped (natAt x.entry 16 8) (natAt x.entry 12 4) = false)

include src init

omit live old dma in
theorem State.srcAndInit_mapped : ((x.srcLen != 0 && s.unmapped (natAt x.entry 0 8) x.srcLen) ||
    (natAt x.entry 12 4 != 0 && s.unmapped (natAt x.entry 16 8) (natAt x.entry 12 4))) = false := by
  simpa using ⟨src, init⟩

theorem execSampleFetch_waits {g : Nat} (some_ : x.srcLen ≠ 0) (fault : s.mem.faultPage (natAt x.entry 0 8) x.srcLen false = some g) :
    execSampleFetch slot .ok s = .next (s.blockSlot x g) := by
  simp only [execSampleFetch, old, Slot.srcLen_def, live, dma, State.srcAndInit_mapped src init, reduceCtorEq, Bool.not_true, Bool.and_false, Bool.false_and,
    Bool.or_self, Bool.false_eq_true, if_false, if_neg some_, fault, Option.some_or]

variable (srcPages : x.srcLen ≠ 0 → s.mem.faultPage (natAt x.entry 0 8) x.srcLen false = none)
  (initPages : natAt x.entry 12 4 ≠ 0 → s.mem.faultPage (natAt x.entry 16 8) (natAt x.entry 12 4) false = none)
  {a b : List Byte} {ua ub : Option Nat}
  (readSrc : (s.tlbRange (natAt x.entry 0 8) x.srcLen).readMem (natAt x.entry 0 8) x.srcLen = (s1, a, ua))
  (readInit : (s1.tlbRange (natAt x.entry 16 8) (natAt x.entry 12 4)).readMem (natAt x.entry 16 8) (natAt x.entry 12 4) = (s2, b, ub))

include srcPages initPages readSrc readInit

/-- With every page in place the slot has its bytes, from the cache line or from memory, unless they are uncorrectable or a fill fails. -/
theorem execSampleFetch_reads : execSampleFetch slot .ok s =
    if ua.isSome || ub.isSome then .next (s2.ingestEvent 2 x.j x.step)
    else
      let filled := if x.hit then (s2, none) else s2.fillLine x a
      filled.2.elim (.next (filled.1.putSlot { x with src := if x.hit then x.src else a, init := b, phase := .decode }))
        fun code => .next (filled.1.ingestEvent code x.j x.step) := by
  rw [execSampleFetch, old]
  dsimp only
  generalize len : (if x.hit = true then 0 else natAt x.entry 8 4) = n
  obtain rfl : x.srcLen = n := len
  simp only [live, dma, State.srcAndInit_mapped src init, reduceCtorEq, Bool.not_true, Bool.and_false, Bool.false_and, Bool.or_self, Bool.false_eq_true,
    if_false, ite_eq_left_iff.2 srcPages, ite_eq_left_iff.2 initPages, Option.or_none, readSrc, readInit]
  split
  · rfl
  · cases x.hit with
    | true => rfl
    | false => cases filled : (s2.fillLine x a).2 <;> simp [filled]

end Fetch

/-! ### Decode and completion (R235, R242, R253, R254) -/

theorem execSlotComplete_of (live : s.ingesting = true) (old : s.ing.oldest slot .done = some x)
    (first : ∀ y ∈ s.ing.slots, y.j = x.j → x.step ≤ y.step) :
    execSlotComplete slot s = .next
      (({ s with ing := { s.ing with slots := s.ing.slots.filter fun y => !(y.j == x.j && y.step == x.step) } } : State).addTokenV
        (natAt (s.plan.slot x.j) 2 2) (natAt (s.plan.slot x.j) 4 1) (natAt (s.plan.slot x.j) 6 2)) := by
  have none_ : (s.ing.slots.any fun y => y.j == x.j && decide (y.step < x.step)) = false := by simpa using first
  simp only [execSlotComplete, old, live, none_, Bool.not_true, Bool.or_self, Bool.false_eq_true, if_false]

/-- R435: a slice that is not ON decodes nothing, and is asked for where it idles off. -/
theorem execSampleDecode_off (live : s.ingesting = true) (old : s.ing.oldest slot .decode = some x) {slice : Fin 32}
    (off : s.pow.domains[80 + slice.val] ≠ .on) :
    execSampleDecode slot slice s = .next (if s.pow.sliceIdleOff then s.domainRequest (dom (80 + slice.val)) true else s) := by
  simp [execSampleDecode, old, live, off]

/-- What a slice in state ON does with a slot whose shape is `r`: `n` of the `left` blocks that stand to be written complete now. -/
def State.decodeSlot (s : State) (x : Slot) (r : Shaped) (twin : Bool) (left n : Nat) : Host.Outcome State Fault Refusal :=
  let buffer := (placeAt (s.plan.slot x.j) 8).1
  let audio := (placeAt (s.plan.slot x.j) 20).1
  match s.ingestWrite buffer ((r.payloads.drop x.written).take n) with
  | .inr (s, code) => .next (s.ingestEvent code x.j x.step)
  | .inl s =>
    let s := s.slotBlocks x r twin n
    if n < left then .next s
    else match s.ingestWrite audio r.audioRuns with
      | .inr (s, code) => .next (s.ingestEvent code x.j x.step)
      | .inl s => match s.ingestWrite buffer r.runs with
        | .inr (s, code) => .next (s.ingestEvent code x.j x.step)
        | .inl s => .next (s.slotWritten x r).idleSlices

theorem execSampleDecode_on (live : s.ingesting = true) (old : s.ing.oldest slot .decode = some x) {slice : Fin 32}
    (on : s.pow.domains[80 + slice.val] = .on) :
    let r := s.plan.shapeSlot s.mem.usable x
    let twin := s.job.twinRegion (placeAt (s.plan.slot x.j) 8).1
    let left := r.blocks.length - x.written
    execSampleDecode slot slice s = s.decodeSlot x r twin left (if twin then s.twinSpace left else left) := by
  rw [execSampleDecode, old]
  exact (if_neg (by simp [live])).trans (if_neg (by simp [on]))

section DecodeSlot

variable {r : Shaped} {twin : Bool} {left n code : Nat} {s3 s4 : State}

theorem State.decodeSlot_payloadsFail
    (pays : s.ingestWrite (placeAt (s.plan.slot x.j) 8).1 ((r.payloads.drop x.written).take n) = .inr (s1, code)) :
    s.decodeSlot x r twin left n = .next (s1.ingestEvent code x.j x.step) := by
  simp only [State.decodeSlot, pays]

variable (pays : s.ingestWrite (placeAt (s.plan.slot x.j) 8).1 ((r.payloads.drop x.written).take n) = .inl s1)

include pays

theorem State.decodeSlot_part (part : n < left) : s.decodeSlot x r twin left n = .next (s1.slotBlocks x r twin n) := by
  simp only [State.decodeSlot, pays, if_pos part]

variable (all : left ≤ n)

include all

theorem State.decodeSlot_audioFails
    (audio : (s1.slotBlocks x r twin n).ingestWrite (placeAt (s.plan.slot x.j) 20).1 r.audioRuns = .inr (s3, code)) :
    s.decodeSlot x r twin left n = .next (s3.ingestEvent code x.j x.step) := by
  simp only [State.decodeSlot, pays, if_neg (Nat.not_lt.2 all), audio]

variable (audio : (s1.slotBlocks x r twin n).ingestWrite (placeAt (s.plan.slot x.j) 20).1 r.audioRuns = .inl s3)

include audio

theorem State.decodeSlot_runsFail (runs : s3.ingestWrite (placeAt (s.plan.slot x.j) 8).1 r.runs = .inr (s4, code)) :
    s.decodeSlot x r twin left n = .next (s4.ingestEvent code x.j x.step) := by
  simp only [State.decodeSlot, pays, if_neg (Nat.not_lt.2 all), audio, runs]

theorem State.decodeSlot_all (runs : s3.ingestWrite (placeAt (s.plan.slot x.j) 8).1 r.runs = .inl s4) :
    s.decodeSlot x r twin left n = .next (s4.slotWritten x r).idleSlices := by
  simp only [State.decodeSlot, pays, if_neg (Nat.not_lt.2 all), audio, runs]

end DecodeSlot

/-! ### What a slot delivers (R243, R244, R253, R254) -/

/-- R244: however few pictures the clip has, the slot has the profile's number. -/
theorem Slot.deliver_length (x : Slot) (usable : Nat) (f : Profile) : (x.deliver usable f).2.1.length = f.nframes := by
  simp only [Slot.deliver]
  generalize (if entryReserved usable x.entry = true then _ else _ : Clip) = clip
  split
  · exact List.length_replicate
  · simp only [List.length_append, List.length_take, List.length_replicate]
    omega

/-- R243: an entry with a reserved value makes its sample unsupported, and every picture of it is concealed. -/
theorem Slot.deliver_of_reserved (x : Slot) {usable : Nat} (f : Profile) (h : entryReserved usable x.entry = true) :
    (x.deliver usable f).1.supported = false ∧ ∀ q ∈ (x.deliver usable f).2.1, q.concealed = true := by
  simp only [Slot.deliver, h, if_true, Bool.not_false, true_and]
  exact fun q hq => (List.eq_of_mem_replicate hq) ▸ rfl

theorem Plan.shapeSlot_deliver (p : Plan) (usable : Nat) (x : Slot) :
    (p.shapeSlot usable x).clip = (x.deliver usable (p.profile x.j)).1 ∧ (p.shapeSlot usable x).pics = (x.deliver usable (p.profile x.j)).2.1 :=
  ⟨rfl, rfl⟩

/-- R253, R254: the headers of a slot's blocks. -/
theorem Plan.shapeSlot_blocks (p : Plan) (usable : Nat) (x : Slot) {i : Nat} {b : Block} (h : (p.shapeSlot usable x).blocks[i]? = some b) :
    b.id = (p.profile x.j).blockId x.sample i ∧ b.chk = crc32c b.data ∧ b.step = BitVec.ofNat 32 x.step ∧ b.fmt = (p.profile x.j).ofmt := by
  simp only [Plan.shapeSlot, List.getElem?_map] at h
  obtain ⟨k, hk, rfl⟩ := Option.map_eq_some_iff.1 h
  obtain ⟨_, rfl⟩ := List.getElem?_eq_some_iff.1 hk
  rw [List.getElem_range]
  exact ⟨rfl, rfl, rfl, rfl⟩

theorem map_snd_placed (bs : List Block) (place : Block × Nat → Nat) :
    (bs.zipIdx.map fun b => (place b, b.1.data)).map (·.2) = bs.map (·.data) :=
  calc (bs.zipIdx.map fun b => (place b, b.1.data)).map (·.2)
    _ = (bs.zipIdx.map Prod.fst).map (·.data) := by rw [List.map_map, List.map_map]; rfl
    _ = bs.map (·.data) := by rw [List.zipIdx_map_fst]

theorem Plan.shapeSlot_payloads (p : Plan) (usable : Nat) (x : Slot) :
    (p.shapeSlot usable x).payloads.map (·.2) = (p.shapeSlot usable x).blocks.map (·.data) :=
  map_snd_placed ..

end Sys2Proof.Machine

open Sys2Proof Sys2Proof.Machine

/-- Settles O39: each phase of a slot by the branch of its command that the hypotheses name, the blocks by what the shaper makes. -/
theorem slotsGoThroughPhases : Obligations.SlotsGoThroughPhases := by
  refine ⟨fun s a bs live place s1 read => ?release, fun s slot x live => ⟨fun old dma => ?entry, fun old none_ outcome => ?noCache,
    fun a old some_ line => ?lookup, fun old dma => ?fetch, fun old first => execSlotComplete_of live old first⟩,
    fun s slot slice x live old => ⟨fun off => execSampleDecode_off live old off, ?decode⟩, fun p usable x => ?blocks⟩
  case release =>
    refine ⟨_, execReleaseWordPoll_of live place read, rfl, rfl, rfl, _, rfl, fun y hy => ?_⟩
    obtain ⟨j, hj, hy⟩ := List.mem_flatMap.1 hy
    obtain ⟨rfl, below, sample, phase, written, next⟩ := State.slotStarts_mem hy
    exact ⟨List.mem_range.1 hj, below, sample, phase, written, fun known => by
      rwa [getD_of_lt known] at next ⊢⟩
  case entry =>
    exact ⟨execIndexEntryRead_linkError live old, execIndexEntryRead_refused live old dma,
      fun a g place fault => execIndexEntryRead_waits live old dma place fault,
      fun a place mapped => ⟨execIndexEntryRead_accepts live old dma place mapped, execIndexEntryRead_polls live old dma place mapped⟩⟩
  case noCache => exact execSampleCacheLookup_noCache live old outcome none_
  case lookup =>
    refine ⟨execSampleCacheLookup_linkError live old some_ line, fun tag bs s2 s3 readTag readLine => ⟨fun unnamed => ?_, fun named differs => ?_,
      fun named same => ?_⟩⟩
    · exact execSampleCacheLookup_unnamed live old some_ line readTag unnamed
    · exact execSampleCacheLookup_badBytes live old some_ line readTag named readLine differs
    · exact execSampleCacheLookup_hit live old some_ line readTag named readLine same
  case fetch =>
    refine ⟨execSampleFetch_linkError live old, execSampleFetch_unmapped live old dma, fun src init =>
      ⟨fun g some_ fault => execSampleFetch_waits live old dma src init some_ fault,
        fun a b ua ub s1 s2 srcPages initPages readSrc readInit => ?_⟩⟩
    have run := execSampleFetch_reads live old dma src init srcPages initPages readSrc readInit
    refine ⟨fun bad => ?_, fun okSrc okInit => ?_⟩
    · rw [← Option.isSome_iff_ne_none, ← Option.isSome_iff_ne_none, ← Bool.or_eq_true] at bad
      exact run.trans (if_pos bad)
    · subst okSrc okInit
      refine ⟨fun hit => ?_, fun miss => ⟨fun filled => ?_, fun code fails => ?_⟩⟩
      · simpa [hit] using run
      · simpa [miss, filled] using run
      · simpa [miss, fails] using run
  case decode =>
    have delivered := s.plan.shapeSlot_deliver s.mem.usable x
    obtain ⟨clip, pics⟩ := delivered
    refine ⟨fun on => ?_, ?_, fun reserved => ?_⟩
    · have run := execSampleDecode_on live old on
      refine ⟨fun s1 code pays => run.trans (State.decodeSlot_payloadsFail pays), fun s1 pays => ⟨fun part => ?_, fun all => ⟨?_, ?_, ?_⟩⟩⟩
      · exact run.trans (State.decodeSlot_part pays part)
      · exact fun s3 code audio => run.trans (State.decodeSlot_audioFails pays all audio)
      · exact fun s3 s4 code audio runs => run.trans (State.decodeSlot_runsFail pays all audio runs)
      · exact fun s3 s4 audio runs => run.trans (State.decodeSlot_all pays all audio runs)
    · rw [pics, x.deliver_length]
    · rw [clip, pics]
      exact x.deliver_of_reserved _ reserved
  case blocks =>
    refine ⟨p.shapeSlot_payloads usable x, fun b hb => ?_, fun i b at_ => (p.shapeSlot_blocks usable x at_).1⟩
    obtain ⟨i, at_⟩ := List.mem_iff_getElem?.1 hb
    exact (p.shapeSlot_blocks usable x at_).2
end

section
/-! SUPPORT. SHA-256 in progress: cutting a message at a whole number of pieces, and feeding it in parts (O18). -/

namespace Sys2Proof.Machine

/-! ### Cutting a list into pieces -/

section
variable {α : Type} {k : Nat}

/-- Fuel beyond the number of elements changes nothing. -/
theorem pieces_eq_of_length_le (pos : 0 < k) {n m : Nat} {xs : List α} (hn : xs.length ≤ n) (hm : xs.length ≤ m) :
    pieces n k xs = pieces m k xs := by
  induction n generalizing m xs with
  | zero => rw [List.length_eq_zero_iff.1 (Nat.le_zero.1 hn), pieces_nil, pieces_nil]
  | succ n ih =>
    cases xs with
    | nil => rw [pieces_nil, pieces_nil]
    | cons x xs =>
      obtain ⟨m, rfl⟩ := Nat.exists_eq_succ_of_ne_zero (Nat.ne_of_gt (Nat.lt_of_lt_of_le (Nat.zero_lt_succ _) hm))
      have shorter : ((x :: xs).drop k).length ≤ xs.length := by
        rw [List.length_drop, List.length_cons]
        omega
      rw [pieces_cons, pieces_cons, ih (Nat.le_trans shorter (Nat.le_of_succ_le_succ hn)) (Nat.le_trans shorter (Nat.le_of_succ_le_succ hm))]

/-- The first piece, and the pieces of the rest. -/
theorem chunks_append_piece (pos : 0 < k) {p : List α} (full : p.length = k) (xs : List α) : chunks k (p ++ xs) = p :: chunks k xs := by
  obtain ⟨x, ys, rfl⟩ := List.exists_cons_of_length_pos (full ▸ pos)
  have fuel : ((x :: ys) ++ xs).length = (ys ++ xs).length + 1 := rfl
  have enough : xs.length ≤ (ys ++ xs).length := by simp
  rw [chunks, fuel, List.cons_append, pieces_cons, ← List.cons_append, List.take_left' full, List.drop_left' full,
    pieces_eq_of_length_le pos enough (Nat.le_refl _), ← chunks]

/-- What ends at a piece's end is cut by itself. -/
theorem chunks_append (pos : 0 < k) {n : Nat} {xs : List α} (whole : xs.length = n * k) (ys : List α) :
    chunks k (xs ++ ys) = chunks k xs ++ chunks k ys := by
  induction n generalizing xs with
  | zero =>
    rw [List.length_eq_zero_iff.1 (whole.trans (Nat.zero_mul k)), List.nil_append]
    rfl
  | succ n ih =>
    have first : (xs.take k).length = k := by rw [List.length_take, whole, Nat.succ_mul]; omega
    have rest : (xs.drop k).length = n * k := by rw [List.length_drop, whole, Nat.succ_mul]; omega
    calc chunks k (xs ++ ys)
      _ = chunks k (xs.take k ++ (xs.drop k ++ ys)) := by rw [← List.append_assoc, List.take_append_drop]
      _ = xs.take k :: (chunks k (xs.drop k) ++ chunks k ys) := by rw [chunks_append_piece pos first, ih rest]
      _ = chunks k (xs.take k ++ xs.drop k) ++ chunks k ys := by rw [chunks_append_piece pos first, List.cons_append]
      _ = chunks k xs ++ chunks k ys := by rw [List.take_append_drop]

end

/-! ### Feeding a message (R274) -/

/-- The part of a message that its whole 64-byte blocks make. -/
def wholeBlocks (m : List Byte) : List Byte := m.take (m.length / 64 * 64)

/-- The bytes behind the last whole block. -/
def partBlock (m : List Byte) : List Byte := m.drop (m.length / 64 * 64)

theorem wholeBlocks_append_partBlock (m : List Byte) : wholeBlocks m ++ partBlock m = m := List.take_append_drop ..

theorem wholeBlocks_length (m : List Byte) : (wholeBlocks m).length = m.length / 64 * 64 := by
  rw [wholeBlocks, List.length_take]
  exact Nat.min_eq_left (Nat.div_mul_le_self _ _)

/-- A message's whole blocks are compressed in the same way whatever stands behind the message. -/
theorem chunks_wholeBlocks (m rest : List Byte) : chunks 64 (m ++ rest) = chunks 64 (wholeBlocks m) ++ chunks 64 (partBlock m ++ rest) := by
  rw [← chunks_append (by decide) (wholeBlocks_length m), ← List.append_assoc, wholeBlocks_append_partBlock]

theorem Sha.feed_eq (x : Sha) (bs : List Byte) :
    x.feed bs = ⟨(chunks 64 (wholeBlocks (x.tail ++ bs))).foldl shaBlock x.h, partBlock (x.tail ++ bs), x.count + bs.length⟩ := rfl

/-- What stands behind a message joins the bytes behind its last whole block. -/
theorem wholeBlocks_append (m rest : List Byte) : wholeBlocks (m ++ rest) = wholeBlocks m ++ wholeBlocks (partBlock m ++ rest) ∧
    partBlock (m ++ rest) = partBlock (partBlock m ++ rest) := by
  have split : m ++ rest = wholeBlocks m ++ (partBlock m ++ rest) := by rw [← List.append_assoc, wholeBlocks_append_partBlock]
  have blocks : (m ++ rest).length / 64 * 64 = (wholeBlocks m).length + (partBlock m ++ rest).length / 64 * 64 := by
    rw [split, List.length_append, wholeBlocks_length]
    omega
  constructor
  · calc wholeBlocks (m ++ rest)
      _ = (wholeBlocks m ++ (partBlock m ++ rest)).take ((m ++ rest).length / 64 * 64) := by rw [← split]; rfl
      _ = wholeBlocks m ++ wholeBlocks (partBlock m ++ rest) := by rw [blocks, List.take_length_add_append]; rfl
  · calc partBlock (m ++ rest)
      _ = (wholeBlocks m ++ (partBlock m ++ rest)).drop ((m ++ rest).length / 64 * 64) := by rw [← split]; rfl
      _ = partBlock (partBlock m ++ rest) := by rw [blocks, List.drop_length_add_append]; rfl

/-- Feeding in two parts is feeding at once. -/
theorem Sha.feed_append (x : Sha) (a b : List Byte) : (x.feed a).feed b = x.feed (a ++ b) := by
  obtain ⟨whole, part⟩ := wholeBlocks_append (x.tail ++ a) b
  rw [x.feed_eq (a ++ b), ← List.append_assoc, whole, part, chunks_append (by decide) (wholeBlocks_length _), List.foldl_append, List.length_append,
    ← Nat.add_assoc]
  rfl

theorem Sha.foldl_feed (pieces : List (List Byte)) (x : Sha) (m : List Byte) : pieces.foldl Sha.feed (x.feed m) = x.feed (m ++ pieces.flatten) := by
  induction pieces generalizing m with
  | nil => rw [List.flatten_nil, List.append_nil]; rfl
  | cons p pieces ih => rw [List.foldl_cons, Sha.feed_append, ih, List.flatten_cons, List.append_assoc]

/-- The digest of a message fed at once is its SHA-256. -/
theorem Sha.digest_feed_init (m : List Byte) : (Sha.init.feed m).digest = sha256 m := by
  rw [sha256, shaPad, List.append_assoc, chunks_wholeBlocks, List.foldl_append, ← List.append_assoc, Sha.digest, Sha.feed_eq]
  simp only [Sha.init, List.nil_append, Nat.zero_add]

end Sys2Proof.Machine

open Sys2Proof Sys2Proof.Machine

/-- Settles O18: what was fed so far stands as its whole blocks compressed and its rest, so feeding in parts is feeding the message at once. -/
theorem digestOfTheWholeMessage : Obligations.DigestOfTheWholeMessage := by
  intro pieces
  have nothing : Sha.init = Sha.init.feed [] := rfl
  rw [nothing, Sha.foldl_feed, List.nil_append, Sha.digest_feed_init]
end

section
/-! SUPPORT. Blocks, contributions and opens as they arrive, and acknowledges and resends of what this device sends (O31). -/

namespace Sys2Proof.Machine

/-! ### A block of a SEND (R324, R326, R327) -/

section
variable {s : State} {params : List Byte} {index : Nat} {b : Block}

theorem State.receiveBlock_mismatch (wrong : crc32c b.data ≠ b.chk) :
    s.receiveBlock params index b = (s, .mismatch b.chk (crc32c b.data)) := if_pos wrong

theorem State.receiveBlock_beyond (right : crc32c b.data = b.chk) (beyond : natAt params 8 4 ≤ index) :
    s.receiveBlock params index b = (s, .bad) := (if_neg (not_not_intro right)).trans (if_pos beyond)

end

/-- The SEND that a block belongs to, as its open made it known. -/
def State.rxOp (s : State) (origin : BitVec 15) (opId : Word) : Option RxOp :=
  s.fab.rx.find? fun o => o.origin == origin && o.opId == opId.toNat

/-- Answer a block with an outcome. -/
def State.ackRx (s : State) (h : HeldRx) (outcome : Nat) (x y : Word) : State := s.sendAck h.origin.toNat h.opId.toNat h.index.toNat outcome x y

/-- What the device does as the write of a new block of SEND `o` ends: it keeps the block, or answers it. -/
def State.answerRx (s : State) (h : HeldRx) (first : Bool) (o : RxOp) : Received → State
  | .wait guard => if guard then (s.modRx h.origin h.opId.toNat fun o => { o with guarded := true }).keepRx h first else s
  | .bad => s.ackRx h 3 0 0
  | .mismatch x y => s.ackRx h 2 x y
  | .written =>
    let all := o.written.length + 1 == natAt o.params 8 4
    let s2 := (s.modRx h.origin h.opId.toNat fun o =>
      { o with written := o.written ++ [h.index.toNat], signalled := all,
               guarded := s.fab.rxBuf.any fun g => g.origin == h.origin && g.opId == h.opId }).ackRx h 1 0 0
    if all then s2.addTokenV (natAt o.params 2 2) (natAt o.params 4 1) (natAt o.params 6 2) else s2

section TakeBlock
variable {s s1 : State} (h : HeldRx) {first : Bool} {o : RxOp}

theorem State.takeBlock_unknown (unknown : s.rxOp h.origin h.opId = none) : s.takeBlock h first = s.ackRx h 3 0 0 := by
  unfold State.rxOp at unknown
  rw [State.takeBlock, unknown]
  rfl

variable (known : s.rxOp h.origin h.opId = some o)
include known

theorem State.takeBlock_again (written : h.index.toNat ∈ o.written) : s.takeBlock h first = s.ackRx h 1 0 0 := by
  unfold State.rxOp at known
  rw [State.takeBlock, known]
  exact if_pos (List.contains_iff_mem.2 written)

theorem State.takeBlock_new (new : h.index.toNat ∉ o.written) {outcome : Received}
    (ends : s.receiveBlock o.params h.index.toNat (Block.ofBytes h.bytes) = (s1, outcome)) :
    s.takeBlock h first = s1.answerRx h first o outcome := by
  unfold State.rxOp at known
  rw [State.takeBlock, known]
  refine (if_neg (mt List.contains_iff_mem.1 new)).trans ?_
  rw [ends]
  cases outcome <;> rfl

end TakeBlock

section BlockReceive
variable {s : State} {origin : BitVec 15} {job opId index : Word} {block : List Byte} {flags : BitVec 3}

/-- The block comes into a device without the job, into a replay job or into a full buffer (R282, R321, R326). -/
def State.rxShut (s : State) (origin : BitVec 15) (job opId index : Word) : Bool :=
  let place := s.rxPlace origin.toNat opId.toNat index.toNat
  !s.takes job || s.job.replay || !s.fab.rxRoom place.1 place.2

theorem State.rxShut_iff : s.rxShut origin job opId index = true ↔ (s.takes job = false ∨ s.job.replay = true) ∨
    s.fab.rxRoom (s.rxPlace origin.toNat opId.toNat index.toNat).1 (s.rxPlace origin.toNat opId.toNat index.toNat).2 = false := by
  simp [State.rxShut]

theorem State.rxShut_of_taken (takes : s.takes job = true) (live : s.job.replay = false)
    (room : s.fab.rxRoom (s.rxPlace origin.toNat opId.toNat index.toNat).1 (s.rxPlace origin.toNat opId.toNat index.toNat).2 = true) :
    ¬s.rxShut origin job opId index = true := fun shut => by
  simp [State.rxShut_iff, takes, live, room] at shut

theorem execBlockReceive_shut (shut : s.rxShut origin job opId index = true) (target : BlockTarget) :
    execBlockReceive origin job opId index target block flags s = .next s := if_pos shut

/-- A block of a SEND with the buffer that it came into. -/
def State.rxHeld (s : State) (origin : BitVec 15) (job opId index : Word) (block : List Byte) (flags : BitVec 3) : HeldRx :=
  let place := s.rxPlace origin.toNat opId.toNat index.toNat
  ⟨place.1, place.2, origin, job, opId, index, .send, block, flags⟩

variable (taken : ¬s.rxShut origin job opId index = true)
include taken

theorem execBlockReceive_send {t : State} (takes : s.takeBlock (s.rxHeld origin job opId index block flags) true = t) :
    execBlockReceive origin job opId index .send block flags s = .next t :=
  (if_neg taken).trans (congrArg _ takes)

/-! ### A contribution to a collective (R324, R329) -/

variable {group cid position : Nat} {form : CollForm}

theorem execBlockReceive_coll_again (seen : (origin.toNat, opId.toNat, index.toNat) ∈ s.fab.collSeen) :
    execBlockReceive origin job opId index (.coll group cid position form) block flags s =
      .next (s.sendAck origin.toNat opId.toNat index.toNat 1 0 0) :=
  (if_neg taken).trans (if_pos (List.contains_iff_mem.2 seen))

variable (new : (origin.toNat, opId.toNat, index.toNat) ∉ s.fab.collSeen)
include new

theorem execBlockReceive_coll_mismatch (wrong : crc32c (Block.ofBytes block).data ≠ (Block.ofBytes block).chk) :
    execBlockReceive origin job opId index (.coll group cid position form) block flags s =
      .next (s.sendAck origin.toNat opId.toNat index.toNat 2 (Block.ofBytes block).chk (crc32c (Block.ofBytes block).data)) :=
  (if_neg taken).trans ((if_neg (mt List.contains_iff_mem.1 new)).trans (if_pos wrong))

variable (right : crc32c (Block.ofBytes block).data = (Block.ofBytes block).chk)
include right

theorem execBlockReceive_coll_bad (bad : s.job.addrOf (((s.job.members group).getD []).getD position 65536) ≠ origin.toNat ∨
      s.job.position group = none) :
    execBlockReceive origin job opId index (.coll group cid position form) block flags s =
      .next (s.sendAck origin.toNat opId.toNat index.toNat 3 0 0) :=
  (if_neg taken).trans ((if_neg (mt List.contains_iff_mem.1 new)).trans ((if_neg (not_not_intro right)).trans (if_pos (by simpa using bad))))

theorem execBlockReceive_coll_new (member : s.job.addrOf (((s.job.members group).getD []).getD position 65536) = origin.toNat)
    (here : s.job.position group ≠ none) :
    execBlockReceive origin job opId index (.coll group cid position form) block flags s =
      .next ((({ s with fab := { s.fab with collSeen := s.fab.collSeen ++ [(origin.toNat, opId.toNat, index.toNat)] } } : State).receiveContrib
        group cid position index.toNat form (Block.ofBytes block) flags).sendAck origin.toNat opId.toNat index.toNat 1 0 0) :=
  (if_neg taken).trans ((if_neg (mt List.contains_iff_mem.1 new)).trans ((if_neg (not_not_intro right)).trans (if_neg (by rw [member]; simp [here]))))

end BlockReceive

/-! ### Opens (R327, R334) -/

section OpenReceive
variable {s : State} {origin : BitVec 15} {job opId : Word} {params : List Byte}

theorem execOpenReceive_ignored (away : s.takes job = false ∨ s.job.replay = true) (target : BlockTarget) :
    execOpenReceive origin job opId target params s = .next s :=
  if_pos (by rcases away with h | h <;> simp [h])

/-- Acknowledge an open. -/
def State.ackOpen (s : State) (origin : BitVec 15) (opId : Word) : State := s.sendAck origin.toNat opId.toNat 0xFFFFFFFF 1 0 0

variable (takes : s.takes job = true) (live : s.job.replay = false)
include takes live

theorem execOpenReceive_send_new (unknown : s.rxOp origin opId = none) :
    execOpenReceive origin job opId .send params s = .next (({ s with fab := { s.fab with rx := s.fab.rx ++
      [{ origin, job, opId := opId.toNat, target := .send, params, written := [], signalled := false, guarded := false }] } } : State).ackOpen
        origin opId) := by
  have fresh := List.find?_eq_none.1 unknown
  refine (if_neg (by simp [takes, live])).trans (if_neg ?_)
  simpa using fresh

theorem execOpenReceive_send_again (known : s.rxOp origin opId ≠ none) :
    execOpenReceive origin job opId .send params s = .next (s.ackOpen origin opId) := by
  obtain ⟨o, known⟩ := Option.ne_none_iff_exists'.1 known
  refine (if_neg (by simp [takes, live])).trans (if_pos ?_)
  unfold State.rxOp at known
  have names := List.find?_some (p := fun o : RxOp => o.origin == origin && o.opId == opId.toNat) known
  exact List.any_eq_true.2 ⟨o, List.mem_of_find?_eq_some known, names⟩

variable {group cid position : Nat} {form : CollForm}

theorem execOpenReceive_coll_again (seen : (origin.toNat, opId.toNat, 0xFFFFFFFF) ∈ s.fab.collSeen) :
    execOpenReceive origin job opId (.coll group cid position form) params s = .next (s.ackOpen origin opId) :=
  (if_neg (by simp [takes, live])).trans (if_pos (List.contains_iff_mem.2 seen))

theorem execOpenReceive_coll_new (new : (origin.toNat, opId.toNat, 0xFFFFFFFF) ∉ s.fab.collSeen) :
    let once : State := { s with fab := { s.fab with collSeen := s.fab.collSeen ++ [(origin.toNat, opId.toNat, 0xFFFFFFFF)] } }
    execOpenReceive origin job opId (.coll group cid position form) params s =
      .next ((((once.openColl group cid (BitVec.ofNat 32 (natAt params 4 4))).modColl group (natAt params 4 4) cid fun c =>
        if c.opens.any fun o => o.1 == position then c else { c with opens := c.opens ++ [(position, natAt params 0 4)] }).showForm
          group (natAt params 4 4) cid form).ackOpen origin opId) :=
  (if_neg (by simp [takes, live])).trans (if_neg (mt List.contains_iff_mem.1 new))

end OpenReceive

/-! ### Acknowledges (R325) -/

/-- An operation with one of its blocks acknowledged. -/
def TxOp.acked (o : TxOp) (index : Nat) : TxOp :=
  { o with blocks := o.blocks.map fun b => if b.index = index then { b with acked := true } else b }

/-- A block is acknowledged as written: those that a SEND delivered count in list order (R216, R327). -/
def State.settleBlock (s : State) (o acked : TxOp) : Host.Outcome State Fault Refusal :=
  match o.target, s.txRun o with
  | .send, some r => .next { r with t := { r.t with delivered := (acked.blocks.takeWhile fun (b : TxBlock) => b.acked).length } }.done
  | _, _ => .next s.sweepTx

section
variable {s : State} {o acked : TxOp}

theorem State.settleBlock_delivers {r : TaskRun} (send : o.target = .send) (run : s.txRun o = some r) : s.settleBlock o acked =
    .next { r with t := { r.t with delivered := (acked.blocks.takeWhile fun (b : TxBlock) => b.acked).length } }.done := by
  rw [State.settleBlock, send, run]

theorem State.settleBlock_sweeps (other : o.target ≠ .send ∨ s.txRun o = none) : s.settleBlock o acked = .next s.sweepTx := by
  unfold State.settleBlock
  split
  next send run => exact absurd other (by simp [send, run])
  next => rfl

end

section Acknowledge
variable {s : State} {opId index : Word} {o : TxOp} (found : (s.fab.tx.find? fun o => o.opId == opId.toNat) = some o)
include found

theorem execAcknowledgeReceive_replay (replay : s.job.replay = true) (outcome : AckOutcome) :
    execAcknowledgeReceive opId index outcome s = .next s := by
  simp [execAcknowledgeReceive, found, Option.filter, replay]

variable (live : s.job.replay = false)
include live

/-- The operation that an acknowledge of a job other than a replay acts on. -/
theorem tx_filter_live : (s.fab.tx.find? fun o => o.opId == opId.toNat).filter (fun _ => !s.job.replay) = some o := by
  rw [found, live]
  rfl

section
variable (block : index ≠ 0xFFFFFFFF)
include block

section
variable {b : TxBlock} (at_ : (o.blocks.find? fun b => b.index == index.toNat) = some b)
include at_

theorem execAcknowledgeReceive_badDestination : execAcknowledgeReceive opId index .badDestination s =
    .next ((s.modTx opId.toNat fun o => o.drop index.toNat).txFail o index.toNat b.block.id 2 0 0).sweepTx := by
  simp only [execAcknowledgeReceive, tx_filter_live found live, at_, block, if_false]

theorem execAcknowledgeReceive_mismatch (x y : Word) : execAcknowledgeReceive opId index (.mismatch x y) s =
    .next ((s.modTx opId.toNat fun o => o.drop index.toNat).txFail o index.toNat b.block.id 1 x y).sweepTx := by
  simp only [execAcknowledgeReceive, tx_filter_live found live, at_, block, if_false]

end

theorem execAcknowledgeReceive_written : execAcknowledgeReceive opId index .written s =
    (s.modTx opId.toNat fun _ => o.acked index.toNat).settleBlock o (o.acked index.toNat) := by
  unfold execAcknowledgeReceive
  rw [tx_filter_live found live]
  exact if_neg block

end

theorem execAcknowledgeReceive_opened {r : TaskRun} (isOpen : index = 0xFFFFFFFF)
    (run : (s.modTx opId.toNat fun o => { o with opened := true }).txRun o = some r) (running : r.t.abort = none) :
    execAcknowledgeReceive opId index .written s = .next (r.chain o.stage) := by
  simp only [execAcknowledgeReceive, tx_filter_live found live, isOpen, if_true, run]
  exact if_neg (by simp [running])

end Acknowledge

/-! ### Resends (R216, R325, R329) -/

/-- The operation is a contribution to a collective, which stands whatever became of its task. -/
def TxOp.contributes (o : TxOp) : Bool :=
  match o.target with
  | .send => false
  | .coll _ _ _ _ => true

/-- The task of an operation has aborted. -/
def State.txAborted (s : State) (o : TxOp) : Bool := (s.txRun o).any fun r => r.t.abort.isSome

/-- One more resend counts. -/
def State.countResend (s : State) : State := { s with fab := { s.fab with resends := s.fab.resends + 1 } }

/-- The operation with one more resend of a block. -/
def State.blockResent (s : State) (opId : Word) (b : TxBlock) : State := s.modTx opId.toNat fun o =>
  { o with blocks := o.blocks.map fun x => if x.index = b.index then { x with resends := x.resends + 1 } else x }

/-- What comes of a block that no acknowledge came for. -/
def State.resendBlock (s : State) (opId index : Word) (o : TxOp) (b : TxBlock) : Host.Outcome State Fault Refusal :=
  let lost (s : State) : State := s.modTx opId.toNat fun o => o.drop index.toNat
  if s.txAborted o && !o.contributes then .next (lost s)
  else if s.fab.maxResends ≤ b.resends then .next ((lost s).txFail o index.toNat b.block.id 7 0 0).sweepTx
  else match (s.blockResent opId b).sendBlock o.dest o.opId b.index o.node o.contributes b.block with
    | some s => .next s.countResend
    | none => .next ((lost (s.blockResent opId b)).txFail o index.toNat b.block.id 7 0 0).sweepTx

/-- The operation with one more resend of its open. -/
def State.openResent (s : State) (opId : Word) : State := s.modTx opId.toNat fun o => { o with openResends := o.openResends + 1 }

/-- What comes of an open that no acknowledge came for. -/
def State.resendOpen (s : State) (opId : Word) (o : TxOp) : Host.Outcome State Fault Refusal :=
  let lost := s.modTx opId.toNat fun o => { o with opened := true }
  if o.opened || s.txAborted o && !o.contributes then .next s
  else if s.fab.maxResends ≤ o.openResends then .next (lost.txFail o noDesc 0 7 0 0).sweepTx
  else match (s.openResent opId).sendOpen o.dest o.opId o.contributes o.params with
    | some s => .next s.countResend
    | none => .next (lost.txFail o noDesc 0 7 0 0).sweepTx

section Resend
variable {s t : State} {opId index : Word} {o : TxOp}

theorem execResendTimeout_block (found : (s.fab.tx.find? fun o => o.opId == opId.toNat) = some o) (block : index ≠ 0xFFFFFFFF) {b : TxBlock}
    (waits : (o.blocks.find? fun b => b.index == index.toNat && b.sent && !b.acked) = some b) :
    execResendTimeout opId index s = s.resendBlock opId index o b := by
  unfold execResendTimeout
  rw [found]
  refine (if_neg block).trans ?_
  rw [waits]
  rfl

theorem execResendTimeout_open (found : (s.fab.tx.find? fun o => o.opId == opId.toNat) = some o) (isOpen : index = 0xFFFFFFFF) :
    execResendTimeout opId index s = s.resendOpen opId o := by
  unfold execResendTimeout
  rw [found]
  exact if_pos isOpen

section
variable {b : TxBlock}

theorem State.resendBlock_aborted (send : o.contributes = false) (aborted : s.txAborted o = true) :
    s.resendBlock opId index o b = .next (s.modTx opId.toNat fun o => o.drop index.toNat) := if_pos (by simp [send, aborted])

variable (wanted : o.contributes = true ∨ s.txAborted o = false)
include wanted

theorem State.resendBlock_spent (spent : s.fab.maxResends ≤ b.resends) : s.resendBlock opId index o b =
    .next ((s.modTx opId.toNat fun o => o.drop index.toNat).txFail o index.toNat b.block.id 7 0 0).sweepTx :=
  (if_neg (by rcases wanted with h | h <;> simp [h])).trans (if_pos spent)

variable (left : b.resends < s.fab.maxResends)
include left

theorem State.resendBlock_sent (sent : (s.blockResent opId b).sendBlock o.dest o.opId b.index o.node o.contributes b.block = some t) :
    s.resendBlock opId index o b = .next t.countResend := by
  refine (if_neg (by rcases wanted with h | h <;> simp [h])).trans ((if_neg (Nat.not_le.2 left)).trans ?_)
  rw [sent]

theorem State.resendBlock_unsent (unsent : (s.blockResent opId b).sendBlock o.dest o.opId b.index o.node o.contributes b.block = none) :
    s.resendBlock opId index o b =
      .next (((s.blockResent opId b).modTx opId.toNat fun o => o.drop index.toNat).txFail o index.toNat b.block.id 7 0 0).sweepTx := by
  refine (if_neg (by rcases wanted with h | h <;> simp [h])).trans ((if_neg (Nat.not_le.2 left)).trans ?_)
  rw [unsent]

end

section
variable (opening : o.opened = false) (wanted : o.contributes = true ∨ s.txAborted o = false)
include opening wanted

theorem State.resendOpen_spent (spent : s.fab.maxResends ≤ o.openResends) : s.resendOpen opId o =
    .next ((s.modTx opId.toNat fun o => { o with opened := true }).txFail o noDesc 0 7 0 0).sweepTx :=
  (if_neg (by rcases wanted with h | h <;> simp [opening, h])).trans (if_pos spent)

theorem State.resendOpen_sent (left : o.openResends < s.fab.maxResends)
    (sent : (s.openResent opId).sendOpen o.dest o.opId o.contributes o.params = some t) :
    s.resendOpen opId o = .next t.countResend := by
  refine (if_neg (by rcases wanted with h | h <;> simp [opening, h])).trans ((if_neg (Nat.not_le.2 left)).trans ?_)
  rw [sent]

end
end Resend

end Sys2Proof.Machine

open Sys2Proof Sys2Proof.Machine

/-- Settles O31: a block by what is known of its SEND and how its write ends, a contribution and an open by whether they came before, an
acknowledge by its outcome, a resend by what is left of the limit. -/
theorem blocksAreAcknowledged : Obligations.BlocksAreAcknowledged := by
  refine ⟨fun s origin job opId index block flags params => ⟨fun away target => ⟨execBlockReceive_shut (State.rxShut_iff.2 (.inl away)) target,
      execOpenReceive_ignored away target⟩, fun full => execBlockReceive_shut (State.rxShut_iff.2 (.inr full)), fun takes live room => ?blocks,
      fun takes live => ?opens⟩,
    fun s opId index o found => ⟨execAcknowledgeReceive_replay found, fun b live at_ block => ?refused, fun live block => ?written,
      fun r live => execAcknowledgeReceive_opened found live, ?aborted, ?resend, ?resendOpen⟩⟩
  case blocks =>
    have taken : ¬s.rxShut origin job opId index = true := State.rxShut_of_taken takes live room
    let held := s.rxHeld origin job opId index block flags
    refine ⟨fun unknown => execBlockReceive_send taken (State.takeBlock_unknown held unknown),
      fun o known written => execBlockReceive_send taken (State.takeBlock_again held known written), fun o known new => ?send,
      fun group cid position form => ⟨execBlockReceive_coll_again taken, execBlockReceive_coll_mismatch taken, execBlockReceive_coll_bad taken,
        execBlockReceive_coll_new taken⟩⟩
    case send =>
      have answers {s1 : State} {outcome : Received} (ends : s.receiveBlock o.params index.toNat (Block.ofBytes block) = (s1, outcome)) :
          exec (.blockReceive origin job opId index .send block flags) s = .next (s1.answerRx held true o outcome) :=
        execBlockReceive_send taken (State.takeBlock_new held known new ends)
      exact ⟨fun wrong => answers (State.receiveBlock_mismatch wrong), fun right beyond => answers (State.receiveBlock_beyond right beyond),
        fun s1 => ⟨answers, fun x y => answers, answers, answers, answers⟩⟩
  case opens =>
    exact ⟨execOpenReceive_send_new takes live, execOpenReceive_send_again takes live, fun group cid position form =>
      ⟨execOpenReceive_coll_again takes live, execOpenReceive_coll_new takes live⟩⟩
  case refused => exact ⟨execAcknowledgeReceive_badDestination found live block at_, execAcknowledgeReceive_mismatch found live block at_⟩
  case written =>
    have run := execAcknowledgeReceive_written found live block
    exact ⟨fun r send delivers => run.trans (State.settleBlock_delivers send delivers), fun other => run.trans (State.settleBlock_sweeps other)⟩
  case aborted =>
    exact fun b block send aborted waits => (execResendTimeout_block found block waits).trans (State.resendBlock_aborted send aborted)
  case resend =>
    intro b block wanted waits
    have run := execResendTimeout_block found block waits
    exact ⟨fun spent => run.trans (State.resendBlock_spent wanted spent), fun left => ⟨fun t sent =>
      run.trans (State.resendBlock_sent wanted left sent), fun unsent => run.trans (State.resendBlock_unsent wanted left unsent)⟩⟩
  case resendOpen =>
    intro isOpen opening wanted
    have run := execResendTimeout_open found isOpen
    exact ⟨fun spent => run.trans (State.resendOpen_spent opening wanted spent), fun left t sent =>
      run.trans (State.resendOpen_sent opening wanted left sent)⟩
end

section
/-! SUPPORT. Checkpoint sets: the hold at a boundary, the snapshot, copies and the manifest, the buddy, a drain and a restore (O41). -/

namespace Sys2Proof.Machine

/-! ### The boundary hold (R368) -/

section
variable (s : State)

@[simp] theorem State.showPhase_core (p : Fin 20) : s.showPhase.core p = s.core p := by
  unfold State.showPhase; split <;> rfl

@[simp] theorem State.showPhase_mem : s.showPhase.mem = s.mem := by
  unfold State.showPhase; split <;> rfl

@[simp] theorem State.showPhase_job : s.showPhase.job = s.job := by
  unfold State.showPhase; split <;> rfl

end

theorem Ckpt.busy_iff (c : Ckpt) : c.busy = true ↔ c.phase = .copying ∨ c.phase = .manifest := by
  simp [Ckpt.busy]

theorem State.restPhase_of_held {s : State} {p : Fin 20} (held : (s.core p).hold = .boundary) :
    s.restPhase = if s.ckpt.restore = none then .holding else .restoring := by
  have some_ : (coreNums.any fun p => (s.core p).hold == .boundary) = true := List.any_eq_true.2 ⟨p, List.mem_finRange p, by rw [held]; rfl⟩
  cases restore : s.ckpt.restore <;> simp [State.restPhase, restore, some_]

theorem State.showPhase_phase_of_held {s : State} {p : Fin 20} (held : (s.core p).hold = .boundary) :
    s.showPhase.ckpt.phase = if s.ckpt.phase = .copying ∨ s.ckpt.phase = .manifest then s.ckpt.phase
      else if s.ckpt.restore = none then .holding else .restoring := by
  rw [← State.restPhase_of_held held, State.showPhase]
  simp only [Ckpt.busy_iff]
  split <;> rfl

theorem execBoundaryHold_of {s s1 : State} {p : Fin 20} (asked : (s.core p).holdReq = .boundary) (drained : s.quiesced p = some s1) :
    execBoundaryHold p s = .next (s1.modCore p fun c => { c with holdReq := .none, hold := .boundary }).showPhase := by
  simp only [execBoundaryHold, drained]
  exact if_neg (not_not_intro asked)

/-! ### The snapshot (R369) -/

/-- Write the record of one virtual core behind those that are written. -/
def Region.putRecord (snap : Region) (b : Nat) (a : State × List (Nat × Nat × Nat)) (x : Fin 20 × VCore) : State × List (Nat × Nat × Nat) :=
  ((a.1.writeMem (snap.base + recordRoom * x.2.num) (a.1.coreRecord x.2 b)).1,
    a.2 ++ [(x.2.num, snap.base + recordRoom * x.2.num, (a.1.coreRecord x.2 b).length)])

/-- The 64 KiB units of the shards. -/
def granulesOf (shards : List (Shard × Nat)) : List Granule :=
  shards.zipIdx.flatMap fun x => (List.range (cdiv x.1.1.len 65536)).map fun u =>
    { shard := x.2, unit := u, addr := x.1.2 + 65536 * u, len := min 65536 (x.1.1.len - 65536 * u), copied := false, digest := [] : Granule }

/-- A set begins with the records written: the boundary is pending no longer, and the guard is armed for it under the next generation. -/
def State.beginSet (s : State) (pending : List Nat) (b : Nat) (shards : List (Shard × Nat)) : State :=
  let s1 : State := { s with ckpt := { s.ckpt with
    pendingB := pending, b, armed := true, phase := .copying, gen := s.ckpt.committed + 1, copied := 0, granules := granulesOf shards,
    shards := shards.map (·.1), zeroing := if s.job.hostTarget then [] else List.range 32 } }
  (if s1.job.hostTarget then s1 else s1.sendPart 0 (zeros 2097152)).releaseGuard

section
variable {s : State} {b : Nat} (stands : s.heldBoundary = some b)
include stands

theorem execSnapshotArm_waits (busy : (s.ckpt.busy || s.ckpt.restore.isSome || s.targetDrains) = true) : execSnapshotArm s = .next s := by
  simp only [execSnapshotArm, stands]
  exact if_pos busy

variable (free : (s.ckpt.busy || s.ckpt.restore.isSome || s.targetDrains) = false)
include free

/-- A rank without a snapshot region passes the boundary (log 54). -/
theorem execSnapshotArm_passes (none_ : s.job.snapshot.bind s.job.region = none) : execSnapshotArm s =
    .next ({ s with ckpt := { s.ckpt with pendingB := s.ckpt.pendingB.filter (· != b), drainB := s.ckpt.drainB.filter (· != b) } } :
      State).releaseBoundary.showPhase := by
  simp only [execSnapshotArm, stands, none_]
  exact if_neg (by simp [free])

theorem execSnapshotArm_arms {snap : Region} (some_ : s.job.snapshot.bind s.job.region = some snap) :
    let r := s.vcores.foldl (snap.putRecord b) (s, [])
    let s2 := r.1.beginSet (s.ckpt.pendingB.filter (· != b)) b (r.1.planShards r.2)
    execSnapshotArm s = .next (if s.vcores.any fun x => x.2.spoilt then s2.failSet 3 else s2).releaseBoundary := by
  simp only [execSnapshotArm, stands, some_]
  exact if_neg (by simp [free])

end

/-- Nothing is in the way of a set (R369 step 1, R382). -/
theorem State.setFree_of {s : State} (copying : s.ckpt.phase ≠ .copying) (manifest : s.ckpt.phase ≠ .manifest) (restore : s.ckpt.restore = none)
    (host : s.job.hostTarget = true → ∀ d, s.ckpt.drain = some d → d.2.1 ≠ ofBool ((s.ckpt.committed + 1) % 2 == 0))
    (buddy : s.job.hostTarget = false → ((s.ckpt.committed + 1) % 2 == 0) ∉ s.ckpt.buddyDrains) :
    (s.ckpt.busy || s.ckpt.restore.isSome || s.targetDrains) = false := by
  have drains : s.targetDrains = false := by
    unfold State.targetDrains
    cases target : s.job.hostTarget with
    | true => simpa [Option.any_eq_false] using host target
    | false => simpa using buddy target
  simp [Ckpt.busy, copying, manifest, restore, drains]

theorem State.setBlocked_of {s : State} (blocked : s.ckpt.phase = .copying ∨ s.ckpt.phase = .manifest ∨ s.ckpt.restore ≠ none ∨
      (s.job.hostTarget = false ∧ ((s.ckpt.committed + 1) % 2 == 0) ∈ s.ckpt.buddyDrains)) :
    (s.ckpt.busy || s.ckpt.restore.isSome || s.targetDrains) = true := by
  rcases blocked with phase | phase | restore | ⟨target, drains⟩
  · simp [Ckpt.busy, phase]
  · simp [Ckpt.busy, phase]
  · simp [Option.isSome_iff_ne_none.2 restore]
  · simp [State.targetDrains, target, drains]

/-! ### Copies and the manifest (R373, R378, R381) -/

/-- What an outcome says of the source's error protection, before the unit is read. -/
def State.metSource (s : State) (g : Granule) : CopyOutcome → State
  | .sourceUncorrectable => s.spoil g.addr
  | .corrected units => s.soften (units.filter fun a => decide (g.addr ≤ a) && decide (a < g.addr + g.len))
  | _ => s

/-- The units of the set once this one is copied. -/
def State.withCopied (s : State) (granule : Nat) (g : Granule) (bs : List Byte) : List Granule :=
  s.ckpt.granules.set granule { g with copied := true, digest := sha256 bs }

/-- A unit's bytes go to the target, its digest is kept, and the guard goes off it. -/
def State.sendCopy (s : State) (granule : Nat) (g : Granule) (bs : List Byte) : State :=
  let s1 := if s.job.hostTarget && !s.ckpt.granules.any (·.copied) then s.sendPart 0 (zeros 2097152) else s
  ({ s1 with ckpt := { s1.ckpt with granules := s.withCopied granule g bs, copied := s1.ckpt.copied + 65536 } } : State).releaseGuard.sendPart
    ((s.ckpt.shards.getD g.shard default).offset + 65536 * g.unit) bs

/-- What a copy comes to once its source has been looked up. -/
def State.copyUnit (s : State) (granule : Nat) (g : Granule) (outcome : CopyOutcome) : Host.Outcome State Fault Refusal :=
  match s.mem.faultPage g.addr g.len false with
  | some a => .next (s.queueFault a false .checkpoint)
  | none => match s.readMem g.addr g.len with
    | (s, _, some _) => .next (s.failSet 3)
    | (s, bs, none) =>
      let t := s.sendCopy granule g bs
      if outcome = .badAcknowledge && !t.job.hostTarget then .next (t.failSet 1)
      else if (s.withCopied granule g bs).all (·.copied) then .next { t with ckpt := { t.ckpt with phase := .manifest } }
      else .next t

theorem execGranuleCopy_zeroing {s : State} (zeroing : s.ckpt.zeroing ≠ []) (granule : Nat) (outcome : CopyOutcome) :
    execGranuleCopy granule outcome s = .next s := by
  unfold execGranuleCopy
  cases s.ckpt.granules[granule]? with
  | none => rfl
  | some g => exact if_pos (by simp [zeroing])

theorem execGranuleCopy_copies {s : State} {granule : Nat} {g : Granule} (at_ : s.ckpt.granules[granule]? = some g)
    (copying : s.ckpt.phase = .copying) (new : g.copied = false) (zeroed : s.ckpt.zeroing = [])
    (reached : s.job.hostTarget = false ∨ s.host.dma = true) (outcome : CopyOutcome) :
    execGranuleCopy granule outcome s = ((s.metSource g outcome).tlbRange g.addr g.len).copyUnit granule g outcome := by
  unfold execGranuleCopy
  rw [at_]
  exact if_neg (by rcases reached with h | h <;> simp [copying, new, zeroed, h])

section
variable {s s1 : State} {granule : Nat} {g : Granule} {outcome : CopyOutcome}

theorem State.copyUnit_unmapped {a : Nat} (fault : s.mem.faultPage g.addr g.len false = some a) :
    s.copyUnit granule g outcome = .next (s.queueFault a false .checkpoint) := by
  rw [State.copyUnit, fault]

variable (mapped : s.mem.faultPage g.addr g.len false = none) {bs : List Byte}
include mapped

theorem State.copyUnit_uncorrectable {a : Nat} (read : s.readMem g.addr g.len = (s1, bs, some a)) :
    s.copyUnit granule g outcome = .next (s1.failSet 3) := by
  rw [State.copyUnit, mapped, read]

variable (read : s.readMem g.addr g.len = (s1, bs, none))
include read

theorem State.copyUnit_refused (bad : outcome = .badAcknowledge) (buddy : (s1.sendCopy granule g bs).job.hostTarget = false) :
    s.copyUnit granule g outcome = .next ((s1.sendCopy granule g bs).failSet 1) := by
  rw [State.copyUnit, mapped, read]
  exact if_pos (by simp [bad, buddy])

theorem State.copyUnit_kept (good : outcome ≠ .badAcknowledge ∨ (s1.sendCopy granule g bs).job.hostTarget = true) :
    let t := s1.sendCopy granule g bs
    s.copyUnit granule g outcome =
      .next (if (s1.withCopied granule g bs).all (·.copied) then { t with ckpt := { t.ckpt with phase := .manifest } } else t) := by
  rw [State.copyUnit, mapped, read]
  exact (if_neg (by rcases good with h | h <;> simp [h])).trans (apply_ite _ _ _ _).symm

end

theorem execManifestWrite_of {s : State} (phase : s.ckpt.phase = .manifest) (reached : s.job.hostTarget = false ∨ s.host.dma = true)
    (acknowledged : Bool) :
    let m := sealManifest s.manifest
    let s1 := s.sendPart 0 m
    execManifestWrite acknowledged s = .next (if acknowledged || s1.job.hostTarget then s1.partWritten (sub m 224 32) else s1.failSet 1) :=
  (if_neg (by rcases reached with h | h <;> simp [phase, h])).trans (apply_ite _ _ _ _).symm

/-! ### The buddy (R378, R382) -/

/-- The place of the slot that this device holds for its partner. -/
def State.buddySlot (s : State) (slotB : Bool) : Option Nat := if s.holdsSlots then s.mem.slotBase slotB else none

/-- What a whole block of a slot that is not being drained comes to. -/
def State.storeUnit (s : State) (slotB : Bool) (offset : Nat) (b : Block) : Host.Outcome State Fault Refusal :=
  let answer (u : State) (good : Bool) : State := u.ckptNote slotB (offset / 65536) (ofBool good)
  match s.buddySlot slotB with
  | none => .next (answer s false)
  | some a =>
    if crc32c b.data ≠ b.chk || 2 ^ 37 < offset + b.data.length then .next (answer s false)
    else
      let (m, u) := s.mem.writeRun (.scree (a + offset)) b.data
      .next (answer { s with mem := m } u.isNone)

section
variable {s : State} {slotB : Bool} {offset : Nat} {block : List Byte} (up : (s.port 7).state = .up)
include up

theorem execCheckpointBlockReceive_note (short : block.length < 32) :
    execCheckpointBlockReceive slotB offset block s = .next (s.takeNote slotB (offset / 65536) (natAt block 0 1)) :=
  (if_neg (not_not_intro up)).trans (if_pos short)

variable (whole : 32 ≤ block.length)
include whole

theorem execCheckpointBlockReceive_waits (draining : (s.ckpt.drain.any fun d => d.1 == slotB) = true) :
    execCheckpointBlockReceive slotB offset block s = .next s :=
  (if_neg (not_not_intro up)).trans ((if_neg (Nat.not_lt.2 whole)).trans (if_pos draining))

variable (free : (s.ckpt.drain.any fun d => d.1 == slotB) = false)
include free

theorem execCheckpointBlockReceive_stores :
    execCheckpointBlockReceive slotB offset block s = s.storeUnit slotB offset (Block.ofBytes block) :=
  (if_neg (not_not_intro up)).trans ((if_neg (Nat.not_lt.2 whole)).trans (if_neg (by simp [free])))

end

section
variable {s : State} {slotB : Bool} {offset : Nat} {b : Block}

theorem State.storeUnit_written {a : Nat} (slot : s.buddySlot slotB = some a) (right : crc32c b.data = b.chk)
    (within : offset + b.data.length ≤ 2 ^ 37) :
    let w := s.mem.writeRun (.scree (a + offset)) b.data
    s.storeUnit slotB offset b = .next (({ s with mem := w.1 } : State).ckptNote slotB (offset / 65536) (ofBool w.2.isNone)) := by
  unfold State.storeUnit
  rw [slot]
  exact if_neg (by simpa [right] using within)

theorem State.storeUnit_refused (bad : s.buddySlot slotB = none ∨ crc32c b.data ≠ b.chk ∨ 2 ^ 37 < offset + b.data.length) :
    s.storeUnit slotB offset b = .next (s.ckptNote slotB (offset / 65536) (ofBool false)) := by
  unfold State.storeUnit
  cases slot : s.buddySlot slotB with
  | none => rfl
  | some a =>
    have wrong := bad.resolve_left (by simp [slot])
    exact if_pos (by simpa using wrong)

/-- Bytes written to the Scree tier read back, and no other byte changes. -/
theorem MemSys.writeRun_scree_get (m : MemSys) (a : Nat) (bs : List Byte) (x : Nat) :
    (m.writeRun (.scree a) bs).1.scree.get x = if a ≤ x ∧ x < a + bs.length then bs.getD (x - a) 0 else m.scree.get x := by
  have set : (m.writeRun (.scree a) bs).1.scree = m.scree.setRange a bs := rfl
  rw [set]
  split
  next inside =>
    obtain ⟨i, rfl⟩ := Nat.exists_eq_add_of_le inside.1
    have within : i < bs.length := by omega
    rw [Mem.get_setRange_in _ _ _ _ within, Nat.add_sub_cancel_left,
      List.getD_eq_getElem?_getD, List.getElem?_eq_getElem within, Option.getD_some]
  next outside => exact Mem.get_setRange_other _ _ _ _ (by omega)

end

/-! ### A partner's short messages (R378, R382; log 32) -/

section
variable {s : State} {slotB : Bool} {unit : Nat}

/-- The message is about a unit of the manifest area of the set in progress here. -/
def State.zeroes (s : State) (slotB : Bool) (unit : Nat) : Prop :=
  s.ckpt.phase = .copying ∧ slotB = s.ckpt.slotB ∧ unit ∈ s.ckpt.zeroing

theorem State.zeroes_iff : s.zeroes slotB unit ↔
    (s.ckpt.phase == .copying && slotB == s.ckpt.slotB && s.ckpt.zeroing.contains unit) = true := by
  simp [State.zeroes, and_assoc]

theorem State.takeNote_bad (mine : s.zeroes slotB unit) : s.takeNote slotB unit 0 = s.failSet 1 := if_pos (State.zeroes_iff.1 mine)

theorem State.takeNote_good (mine : s.zeroes slotB unit) : s.takeNote slotB unit 1 =
    { s with ckpt := { s.ckpt with zeroing := s.ckpt.zeroing.filter (· != unit) } } := if_pos (State.zeroes_iff.1 mine)

theorem State.takeNote_other {code : Nat} (acknowledge : code ≤ 1) (other : ¬s.zeroes slotB unit) : s.takeNote slotB unit code = s := by
  have not_mine := mt State.zeroes_iff.2 other
  obtain rfl | rfl : code = 0 ∨ code = 1 := by omega
  · exact if_neg not_mine
  · exact if_neg not_mine

theorem State.takeNote_drains (x : Bool) : x ∈ (s.takeNote slotB unit 2).ckpt.buddyDrains ↔ x ∈ s.ckpt.buddyDrains ∨ x = slotB := by
  change x ∈ (if s.ckpt.buddyDrains.contains slotB then s.ckpt.buddyDrains else s.ckpt.buddyDrains ++ [slotB]) ↔ _
  split
  next known => exact ⟨.inl, fun h => h.elim id fun same => same ▸ List.contains_iff_mem.1 known⟩
  next => simp

theorem State.takeNote_drained (x : Bool) : x ∈ (s.takeNote slotB unit 3).ckpt.buddyDrains ↔ x ∈ s.ckpt.buddyDrains ∧ x ≠ slotB := by
  change x ∈ s.ckpt.buddyDrains.filter (· != slotB) ↔ _
  simp

end

/-! ### A drain and a restore (R382, R384, R385) -/

theorem execDrainComplete_of {s : State} {slotB : Bool} {w : Nat} {extra : Nat} {buf : HostBuf} (drain : s.ckpt.drain = some (slotB, w, extra))
    (window : s.job.drains[w]?.join = some buf) (dma : s.host.dma = true) :
    let r := s.slotManifest slotB
    let m := r.2.getD []
    let parts := r.1.slotReads slotB (shardPlaces m)
    let s3 := ((parts.2.zip (shardPlaces m)).foldl (fun (s : State) x => s.writeBuf buf x.2.1 (x.1.getD [])) parts.1).writeBuf buf 0 m
    let s4 := ({ s3 with ckpt := { s3.ckpt with drain := none } } : State).showPhase.ckptNote slotB 0 3
    execDrainComplete s = .next (s4.post 0x0D04
      (bytesOf 8 (natAt m 8 8) ++ bytesOf 4 (natAt m 16 4) ++ bytesOf 4 (natAt m 20 4) ++ bytesOf 1 (ofBool slotB))) := by
  unfold execDrainComplete
  rw [drain]
  dsimp only
  rw [window]
  exact if_neg (by simp [dma])

/-- The device once no restore is in progress. -/
def State.unrestoring (s : State) : State := ({ s with ckpt := { s.ckpt with restore := none } } : State).showPhase

/-- A failed restore leaves every region undefined. -/
def State.restoreLost (s : State) : State :=
  let u := s.undefineRegions [] true
  { u with job := { u.job with restored := false, restoreFailed := true } }

/-- The shards of a set that checks out are put back. -/
def State.restoreSet (s : State) (gen : Nat) (r : RestoreSource) : State :=
  let m := r.manifest
  let s2 := (List.range (natAt m 4 4)).foldl (fun (s : State) i =>
    let d := manifestShard m i
    s.restoreShard d.1 d.2.1 (r.shards.getD i [])) (s.undefineRegions s.job.covered false)
  { s2 with job := { s2.job with restored := true, restoreFailed := false, firstStep := natAt m 16 4, weights := sub m 80 32, corpus := sub m 112 32,
                                 vTainted := s2.job.vTainted || bitAt (natAt m 36 1) 2 },
            ckpt := { s2.ckpt with committed := gen } }

/-- Every virtual core of the rank, here or waiting, stands at a step; a field test's does not. -/
def State.tagStep (s : State) (b : Nat) : State :=
  s.mapCores fun c => if c.test.isSome then c else
    { c with v := c.v.map fun v => { v with stepTag := BitVec.ofNat 32 b },
             partner := c.partner.map fun v => { v with stepTag := BitVec.ofNat 32 b } }

/-- What a restore comes to that streamed a manifest and shards. -/
def State.restoreFrom (s : State) (gen : Nat) (r : RestoreSource) : Host.Outcome State Fault Refusal :=
  let b := natAt r.manifest 16 4
  match s.restoreFault gen r.manifest r.shards with
  | some (status, i) => .next (s.restoreLost.postRestore gen b status i)
  | none => .next ((((s.restoreSet gen r).tagStep b).startIngest b).postRestore gen b 1 0)

section
variable {s : State} {gen : Nat} {r : RestoreSource}

theorem State.restoreFrom_faulty {status i : Nat} (fault : s.restoreFault gen r.manifest r.shards = some (status, i)) :
    s.restoreFrom gen r = .next (s.restoreLost.postRestore gen (natAt r.manifest 16 4) status i) := by
  rw [State.restoreFrom, fault]

theorem State.restoreFrom_sound (sound : s.restoreFault gen r.manifest r.shards = none) :
    let b := natAt r.manifest 16 4
    s.restoreFrom gen r = .next ((((s.restoreSet gen r).tagStep b).startIngest b).postRestore gen b 1 0) := by
  rw [State.restoreFrom, sound]

variable {w : Nat} (restore : s.ckpt.restore = some (gen, false, w))
include restore

theorem execRestoreEnded_lost : execRestoreEnded none s = .next (s.unrestoring.restoreLost.postRestore gen 0 4 0) := by
  unfold execRestoreEnded
  rw [restore]
  rfl

theorem execRestoreEnded_streamed : execRestoreEnded (some r) s = s.unrestoring.restoreFrom gen r := by
  unfold execRestoreEnded
  rw [restore]
  rfl

end

/-- A set that checks out was written under the job's own flush-to-zero mode. -/
theorem State.ftz_of_restoreFault {s : State} {gen : Nat} {m : List Byte} {shards : List (List Byte)} (sound : s.restoreFault gen m shards = none) :
    bitAt (natAt m 36 1) 0 = s.job.ftz := by
  by_cases digest : m.length < 256 ∨ sub m 224 32 ≠ sha256 (splice m 224 (zeros 32))
  · have fault : s.restoreFault gen m shards = some (2, 0) := if_pos (by simpa using digest)
    exact absurd (sound.symm.trans fault) nofun
  · refine Decidable.byContradiction fun differs => ?_
    have fault : s.restoreFault gen m shards = some (5, 0) := (if_neg (by simpa using digest)).trans (if_pos (by simp [differs]))
    exact absurd (sound.symm.trans fault) nofun

end Sys2Proof.Machine

open Sys2Proof Sys2Proof.Machine

/-- Settles O41: a hold and a snapshot by what is in the way, a copy by what its source and its target answer, the buddy by what comes over F7,
a drain and a restore by what they read. -/
theorem checkpointSets : Obligations.CheckpointSets := by
  refine ⟨fun s => ⟨fun p s1 asked drained => ?hold, fun b stands copying manifest restore host buddy => ?snapshot,
      fun b stands blocked => execSnapshotArm_waits stands (State.setBlocked_of blocked)⟩,
    fun s => ⟨fun granule outcome zeroing => execGranuleCopy_zeroing zeroing granule outcome,
      fun granule g outcome at_ copying new zeroed reached => ?copy, fun phase reached => ?manifest⟩,
    fun s slotB offset block up => ?buddy, fun s => ⟨fun slotB w extra buf drain window dma => ?drain, fun gen w restore => ?restore⟩⟩
  case hold =>
    have held : ((s1.modCore p fun c => { c with holdReq := .none, hold := .boundary }).core p).hold = .boundary := by
      rw [State.core_modCore]
    refine ⟨_, execBoundaryHold_of asked drained, ?_, ?_, ?_, State.showPhase_phase_of_held held⟩
    · rw [State.showPhase_core, State.core_modCore]
    · rw [State.showPhase_mem, State.modCore_mem]
    · rw [State.showPhase_job, State.modCore_job]
  case snapshot =>
    have free := State.setFree_of copying manifest restore host buddy
    exact ⟨execSnapshotArm_passes stands free, fun snap some_ => execSnapshotArm_arms stands free some_⟩
  case copy =>
    have run := execGranuleCopy_copies at_ copying new zeroed reached outcome
    refine ⟨fun a fault => run.trans (State.copyUnit_unmapped fault), fun mapped s2 bs bad read => ⟨fun uncorrectable => ?_, fun good => ?_⟩⟩
    · obtain ⟨a, rfl⟩ := Option.ne_none_iff_exists'.1 uncorrectable
      exact run.trans (State.copyUnit_uncorrectable mapped read)
    · subst good
      exact ⟨fun bad buddy => run.trans (State.copyUnit_refused mapped read bad buddy), fun good =>
        run.trans (State.copyUnit_kept mapped read good)⟩
  case manifest =>
    exact ⟨execManifestWrite_of phase reached true, execManifestWrite_of phase reached false⟩
  case buddy =>
    have drains : (s.ckpt.drain.any fun d => d.1 == slotB) = true ↔ ∃ w x, s.ckpt.drain = some (slotB, w, x) := by
      simp [Option.any_eq_true]
    have not_draining (free : ¬∃ w x, s.ckpt.drain = some (slotB, w, x)) : (s.ckpt.drain.any fun d => d.1 == slotB) = false :=
      Bool.eq_false_iff.2 (mt drains.1 free)
    refine ⟨fun whole draining => execCheckpointBlockReceive_waits up whole (drains.2 draining), fun a whole free slot right within =>
      ⟨?written, ?bytes⟩, fun whole free bad => ?refused, fun short => ?message⟩
    case written =>
      exact (execCheckpointBlockReceive_stores up whole (not_draining free)).trans (State.storeUnit_written slot right within)
    case bytes => exact s.mem.writeRun_scree_get _ _
    case refused => exact (execCheckpointBlockReceive_stores up whole (not_draining free)).trans (State.storeUnit_refused bad)
    case message =>
      have run := execCheckpointBlockReceive_note (slotB := slotB) (offset := offset) up short
      refine ⟨fun zero mine => ?_, fun one mine => ?_, fun acknowledge other => ?_, fun two => ?_, fun three => ?_⟩
      · rw [zero] at run
        exact run.trans (congrArg _ (State.takeNote_bad mine))
      · rw [one] at run
        exact run.trans (congrArg _ (State.takeNote_good mine))
      · exact run.trans (congrArg _ (State.takeNote_other acknowledge other))
      · rw [two] at run
        exact ⟨_, run, rfl, rfl, State.takeNote_drains⟩
      · rw [three] at run
        exact ⟨_, run, rfl, rfl, State.takeNote_drained⟩
  case drain =>
    intro s1 held manifest m s2 parts reads
    have run := execDrainComplete_of drain window dma
    rw [manifest] at run
    dsimp only at run
    rw [reads] at run
    exact run
  case restore =>
    have run {r : RestoreSource} := execRestoreEnded_streamed (r := r) restore
    exact ⟨execRestoreEnded_lost restore, fun r status i fault => run.trans (State.restoreFrom_faulty fault), fun r sound =>
      ⟨run.trans (State.restoreFrom_sound sound), State.ftz_of_restoreFault sound⟩⟩
end

section
/-! SUPPORT. How a job starts, pauses, resumes and ends on every rank, and what a message that goes on leaves here (O49). -/

namespace Sys2Proof.Machine

/-! ### Messages that go on (R336) -/

namespace State.Outward
variable {s t : State} (h : s.Outward t)
include h

theorem forward (port kind : Nat) (ctl : Ctl) (payload : List Byte) : s.Outward (t.forward port kind ctl payload) := by
  unfold State.forward
  split
  · exact h
  · exact h.sendControl _ _ _ _

theorem relayCtl (port kind : Nat) (ctl : Ctl) (payload : List Byte) : s.Outward (t.relayCtl port kind ctl payload) :=
  forward (h.update (Fabric.remember_rxBuf _ _ _)) port kind ctl payload

end State.Outward

/-- Sending a message on leaves the job as it is. -/
theorem State.relayCtl_job (s : State) (port kind : Nat) (ctl : Ctl) (payload : List Byte) : (s.relayCtl port kind ctl payload).job = s.job :=
  ((State.Outward.refl s).relayCtl port kind ctl payload).job

/-! ### JOB_START (R276, R282, R306, R406) -/

/-- The state from which the strands start: pairs hold at their MIGRATE points, twins are linked, and a replay has indexed its capture. -/
def State.readied (u : State) : State :=
  let s1 := u.mapCores fun c => if c.partner.isSome then { c with migHold := true } else c
  let s2 : State := { s1 with rep := { s1.rep with linked := s1.job.twin } }
  let scan := if s2.job.replay then scanCapture (s2.job.capSize / capHead) 0 s2 else (s2, s2.job.capIndex)
  { scan.1 with job := { scan.1.job with capIndex := scan.2 } }

/-- What firmware answers to JOB_START. -/
def State.startReply (s : State) : Reply :=
  let u := s.fresh.2.sendTwinIdentity
  if !u.mayStart s.fresh.1 then .done u 8 [] else .done (u.readied.setJobState .running 1).checkComplete 0 []

section
variable {s : State} {mbx : Fin 9} {h : Held} (takes : s.Takes mbx 0x23 h)
include takes

theorem State.Takes.jobStart {t : State} {status : Nat} {resp : List Byte} (reply : s.startReply = .done t status resp) :
    execJobStart mbx s = .next (t.complete h status resp) := by
  refine (State.runUmp_takes (act := fun s _ => s.startReply) takes rfl).trans ?_
  rw [reply]

theorem State.Takes.jobStart_refused (refused : s.fresh.2.sendTwinIdentity.mayStart s.fresh.1 = false) :
    execJobStart mbx s = .next (s.fresh.2.sendTwinIdentity.complete h 8 []) :=
  takes.jobStart (if_pos (by rw [refused]; rfl))

theorem State.Takes.jobStart_starts (may : s.fresh.2.sendTwinIdentity.mayStart s.fresh.1 = true) :
    execJobStart mbx s = .next (((s.fresh.2.sendTwinIdentity.readied.setJobState .running 1).checkComplete).complete h 0 []) :=
  takes.jobStart (if_neg (by rw [may]; decide))

end

/-! ### Pause, resume and abort on every rank (R407, R408) -/

section
variable {s : State} {mbx : Fin 9} {h : Held}

theorem State.Takes.jobPause (takes : s.Takes mbx 0x24 h) : execJobPause mbx s = .next ((s.pauseAll 1).complete h 0 []) :=
  (State.runUmp_takes takes rfl).trans rfl

theorem State.Takes.jobResume (takes : s.Takes mbx 0x25 h) : execJobResume mbx s = .next ((s.resumeAll 1).complete h 0 []) :=
  (State.runUmp_takes takes rfl).trans rfl

theorem State.Takes.jobAbort (takes : s.Takes mbx 0x26 h) :
    let e := s.job.epoch + 1
    let s1 := s.flood 2 (jobMessage s.job.id.toNat e 3 7 s.ownAddr.toNat)
    execJobAbort mbx s = .next ((({ s1 with job := { s1.job with epoch := e, epochOp := 3 } } : State).abortJob 7).complete h 0 []) :=
  (State.runUmp_takes takes rfl).trans rfl

end

/-! ### Messages of another rank (R407, R408) -/

section
variable {s : State} {port : Fin 6} {ctl : Ctl} {payload : List Byte}

/-- The state in which a message's operation is applied: it has gone on, and its epoch is the job's. -/
def State.applied (s : State) (port : Fin 6) (ctl : Ctl) (payload : List Byte) : State :=
  let s1 := s.relayCtl port.val 2 ctl payload
  { s1 with job := { s1.job with epoch := natAt payload 4 4, epochOp := natAt payload 8 1 } }

theorem State.applied_jobState : (s.applied port ctl payload).job.state = s.job.state :=
  congrArg (·.state) (s.relayCtl_job port.val 2 ctl payload)

/-- Apply an operation of R407. -/
def State.applyOp (t : State) (op reason : Nat) : Host.Outcome State Fault Refusal :=
  match op with
  | 1 => .next (if t.job.state = .running then t.setJobState .paused reason else t)
  | 2 => .next (if t.job.state = .paused then t.runOn reason else t)
  | _ => .next (t.abortJob reason)

variable (fresh : s.freshCtl port.val ctl = true)
include fresh

theorem execJobControlMessage_old (old : s.job.applies (natAt payload 4 4) (natAt payload 8 1) = false) :
    execJobControlMessage port ctl payload s = .next (s.relayCtl port.val 2 ctl payload) :=
  (if_neg (by simp [fresh])).trans (if_pos (by simp [State.relayCtl_job, old]))

section
variable (unended : s.job.state ≠ .none ∧ s.job.state ≠ .ended) (mine : natAt payload 0 4 = s.job.id.toNat)
  (applies : s.job.applies (natAt payload 4 4) (natAt payload 8 1) = true)
include unended mine applies

theorem execJobControlMessage_applies : execJobControlMessage port ctl payload s =
    (s.applied port ctl payload).applyOp (natAt payload 8 1) (natAt payload 9 1) :=
  (if_neg (by simp [fresh])).trans (if_neg (by simp [State.relayCtl_job, unended, mine, applies]))

theorem execJobControlMessage_pause (pause : natAt payload 8 1 = 1) (running : s.job.state = .running) :
    execJobControlMessage port ctl payload s = .next ((s.applied port ctl payload).setJobState .paused (natAt payload 9 1)) := by
  rw [execJobControlMessage_applies fresh unended mine applies, pause]
  exact congrArg _ (if_pos (State.applied_jobState.trans running))

theorem execJobControlMessage_resume (resume : natAt payload 8 1 = 2) (paused : s.job.state = .paused) :
    execJobControlMessage port ctl payload s = .next ((s.applied port ctl payload).runOn (natAt payload 9 1)) := by
  rw [execJobControlMessage_applies fresh unended mine applies, resume]
  exact congrArg _ (if_pos (State.applied_jobState.trans paused))

theorem execJobControlMessage_abort (abort : natAt payload 8 1 = 3) :
    execJobControlMessage port ctl payload s = .next ((s.applied port ctl payload).abortJob (natAt payload 9 1)) := by
  rw [execJobControlMessage_applies fresh unended mine applies, abort]
  rfl

end

/-! ### A relayed image (R422) -/

theorem execImageRelay_passes (other : s.job.state ≠ .created) :
    execImageRelay port ctl payload s = .next (s.relayCtl port.val 5 ctl payload) :=
  (if_neg (by simp [fresh])).trans (if_pos (.inl (by rwa [State.relayCtl_job])))

/-- The chunks that are held once one more has come. -/
def Job.heldWith (j : Job) (payload : List Byte) : List (Nat × List Byte) :=
  j.relay.held ++ [(natAt payload 4 4, sub payload 32 (natAt payload 12 4))]

variable (created : s.job.state = .created) (mine : natAt payload 0 4 = s.job.id.toNat) (len : natAt payload 12 4 ≤ 4064)
  (within : natAt payload 4 4 < natAt payload 8 4) (new : ∀ c ∈ s.job.relay.held, c.1 ≠ natAt payload 4 4)
include created mine len within new

theorem execImageRelay_joins : execImageRelay port ctl payload s =
    let s1 := s.relayCtl port.val 5 ctl payload
    let held := s.job.heldWith payload
    if held.length < natAt payload 8 4 then .next { s1 with job := { s1.job with relay := ⟨natAt payload 8 4, held⟩ } }
    else .next (({ s1 with job := { s1.job with relay := ⟨0, []⟩ } } : State).load
      ((List.range (natAt payload 8 4)).flatMap fun i => ((held.find? fun c => c.1 == i).map (·.2)).getD [])).2 := by
  rw [← State.relayCtl_job s port.val 5 ctl payload]
  refine (if_neg (by simp [fresh])).trans (if_neg ?_)
  rw [State.relayCtl_job]
  have unheld : ¬(s.job.relay.held.any fun c => c.1 == natAt payload 4 4) = true := fun any => by
    obtain ⟨c, member, same⟩ := List.any_eq_true.1 any
    exact new c member (beq_iff_eq.1 same)
  simp [created, mine, Nat.not_lt.2 len, Nat.not_le.2 within, unheld]

theorem execImageRelay_holds (more : s.job.relay.held.length + 1 < natAt payload 8 4) :
    let s1 := s.relayCtl port.val 5 ctl payload
    execImageRelay port ctl payload s = .next { s1 with job := { s1.job with relay := ⟨natAt payload 8 4, s.job.heldWith payload⟩ } } :=
  (execImageRelay_joins fresh created mine len within new).trans (if_pos (by simpa [Job.heldWith] using more))

theorem execImageRelay_loads (last : natAt payload 8 4 ≤ s.job.relay.held.length + 1) :
    let s1 := s.relayCtl port.val 5 ctl payload
    execImageRelay port ctl payload s = .next (({ s1 with job := { s1.job with relay := ⟨0, []⟩ } } : State).load
      ((List.range (natAt payload 8 4)).flatMap fun i => (((s.job.heldWith payload).find? fun c => c.1 == i).map (·.2)).getD [])).2 :=
  (execImageRelay_joins fresh created mine len within new).trans (if_neg (by simpa [Job.heldWith] using last))

end

end Sys2Proof.Machine

open Sys2Proof Sys2Proof.Machine

/-- Settles O49: each command by what it comes to when firmware takes it, a message by what its epoch says, a chunk by what is held already. -/
theorem jobsAreRun : Obligations.JobsAreRun := by
  refine ⟨fun s mbx h => ⟨fun takes => ⟨takes.jobStart_refused, takes.jobStart_starts⟩, State.Takes.jobPause, State.Takes.jobResume,
    State.Takes.jobAbort, fun port ctl payload fresh made unended mine => ⟨execJobControlMessage_old fresh, fun applies => ?message⟩⟩,
    fun s port ctl payload fresh => ⟨execImageRelay_passes fresh, fun created mine len within new => ?image⟩⟩
  case message =>
    exact ⟨execJobControlMessage_pause fresh ⟨made, unended⟩ mine applies, execJobControlMessage_resume fresh ⟨made, unended⟩ mine applies,
      execJobControlMessage_abort fresh ⟨made, unended⟩ mine applies⟩
  case image =>
    exact ⟨execImageRelay_holds fresh created mine len within new, execImageRelay_loads fresh created mine len within new⟩
end

section
/-! SUPPORT. What control-plane messages come to on a port, new or seen before, and the chunks of a package (O38). -/

namespace Sys2Proof.Machine

variable {s : State} {port : Fin 6} {ctl : Ctl} {payload : List Byte}

/-! ### Messages seen before (R336) -/

section
variable (seen : s.freshCtl port.val ctl = false)
include seen

theorem execLinkStateNotice_seen : execLinkStateNotice port ctl payload s = .next s := if_pos (by simp [seen])

theorem State.takeRequest_seen (request : Nat) : s.takeRequest port.val ctl payload request = s := if_pos (by simp [seen])

theorem execFieldTestChunk_seen : execFieldTestChunk port ctl payload s = .next s := if_pos (by simp [seen])

theorem execJobControlMessage_seen : execJobControlMessage port ctl payload s = .next s := if_pos (by simp [seen])

theorem execImageRelay_seen : execImageRelay port ctl payload s = .next s := if_pos (by simp [seen])

end

/-! ### New notices and requests (R365, R367, R466) -/

section
variable (fresh : s.freshCtl port.val ctl = true)
include fresh

theorem execLinkStateNotice_link {l : LinkState}
    (names : (natAt payload 3 1 = 1 ∧ l = .down) ∨ (natAt payload 3 1 = 2 ∧ l = .v3) ∨ (natAt payload 3 1 = 3 ∧ l = .v2))
    (within : natAt payload 2 1 < 6) :
    let s1 : State := { s with fab := s.fab.setLink (natAt payload 0 2 % 32768) (natAt payload 2 1) l }
    execLinkStateNotice port ctl payload s = .next (s1.relayCtl port.val 1 ctl payload).checkReach := by
  unfold execLinkStateNotice
  rcases names with ⟨code, rfl⟩ | ⟨code, rfl⟩ | ⟨code, rfl⟩ <;> simp [fresh, code, within]

theorem execLinkStateNotice_reserved (reserved : natAt payload 3 1 = 0 ∨ 3 < natAt payload 3 1) :
    execLinkStateNotice port ctl payload s =
      .next { s with fab := { s.fab.remember ctl.origin.toNat ctl.seq with noticeDrops := s.fab.noticeDrops + 1 } } := by
  unfold execLinkStateNotice
  simp only [fresh, Bool.not_true, Bool.false_eq_true, if_false]
  split
  next => rfl
  next link named => split at named <;> simp_all

/-- A request goes on, and the job it names keeps its boundary. -/
theorem State.takeRequest_fresh {request : Nat} (kind : natAt payload 4 1 = request) (live : s.jobLive = true)
    (mine : natAt payload 0 4 = s.job.id.toNat) :
    s.takeRequest port.val ctl payload request =
      (s.relayCtl port.val 3 ctl payload).requestBoundary (s.job.boundaryOf (natAt payload 8 4)) (natAt payload 6 2) := by
  have job := s.relayCtl_job port.val 3 ctl payload
  have live : (s.relayCtl port.val 3 ctl payload).jobLive = true := by rwa [State.jobLive, job]
  unfold State.takeRequest
  simp [fresh, kind, live, mine, job]

end

/-! ### Packages and their assemblies (R364) -/

/-- The assembly is that of the chunk's package. -/
def Assembly.takes (a : Assembly) (payload : List Byte) : Bool :=
  a.id == BitVec.ofNat 64 (natAt payload 0 8) && a.version == BitVec.ofNat 32 (natAt payload 8 4)

/-- The assembly of the chunk's package, if one has begun. -/
def State.assemblyOf (s : State) (payload : List Byte) : Option Assembly := s.chk.assemblies.find? fun a => a.takes payload

/-- The assembly that the first chunk of a package begins. -/
def newAssembly (payload : List Byte) : Assembly :=
  ⟨BitVec.ofNat 64 (natAt payload 0 8), BitVec.ofNat 32 (natAt payload 8 4), ⟨natAt payload 16 4, []⟩⟩

/-- A whole package is verified, and once accepted sent on. -/
def State.assembled (s : State) (bs : List Byte) : State :=
  let r := s.takePackage bs
  if r.1 then r.2.floodPackage bs else r.2

/-- What the assembly `a` comes to with the chunk as its newest. -/
def State.joinChunk (s : State) (payload : List Byte) (a : Assembly) : State :=
  let others := s.chk.assemblies.filter fun a => !a.takes payload
  let held := a.chunks.held ++ [(natAt payload 12 4, sub payload 32 (natAt payload 20 4))]
  if held.length < a.chunks.count then
    { s with chk := { s.chk with assemblies := others ++ [{ a with chunks := ⟨a.chunks.count, held⟩ }] } }
  else
    ({ s with chk := { s.chk with assemblies := others } } : State).assembled
      ((List.range a.chunks.count).flatMap fun i => ((held.find? fun c => c.1 == i).map (·.2)).getD [])

/-- A package of one chunk is whole with it. -/
theorem State.joinChunk_only (one : natAt payload 16 4 = 1) (within : natAt payload 12 4 < natAt payload 16 4) :
    s.joinChunk payload (newAssembly payload) =
      ({ s with chk := { s.chk with assemblies := s.chk.assemblies.filter fun a => !a.takes payload } } : State).assembled
        (sub payload 32 (natAt payload 20 4)) := by
  have first : natAt payload 12 4 = 0 := by omega
  simp [State.joinChunk, newAssembly, one, first]

/-! ### Chunks (R295, R364) -/

/-- The state in which a new chunk is looked at: its flood is remembered. -/
def State.chunkSeen (s : State) (ctl : Ctl) : State := { s with fab := s.fab.remember ctl.origin.toNat ctl.seq }

/-- The chunk may count: the device has GDDR7 and has not settled the version, and the chunk is well formed. -/
structure State.ChunkCounts (s : State) (payload : List Byte) : Prop where
  memory : s.mem.usable ≠ 0
  unsettled : s.chk.settled (BitVec.ofNat 64 (natAt payload 0 8)) (BitVec.ofNat 32 (natAt payload 8 4)) = false
  carries : 0 < natAt payload 20 4
  fits : natAt payload 20 4 ≤ 4064
  within : natAt payload 12 4 < natAt payload 16 4

/-- The chunk's package has an assembly, `a`, or there is room for it to begin as one. -/
def State.Assembles (s : State) (payload : List Byte) (a : Assembly) : Prop :=
  s.assemblyOf payload = some a ∨ s.assemblyOf payload = none ∧ s.chk.assemblies.length < 4 ∧ a = newAssembly payload

theorem State.Assembles.room {a : Assembly} (known : s.Assembles payload a) :
    ((s.assemblyOf payload).isNone && decide (4 ≤ s.chk.assemblies.length)) = false := by
  obtain known | ⟨-, room, -⟩ := known
  · simp [known]
  · simp [room]

theorem State.Assembles.getD {a : Assembly} (known : s.Assembles payload a) : (s.assemblyOf payload).getD (newAssembly payload) = a := by
  obtain known | ⟨new, -, rfl⟩ := known
  · rw [known, Option.getD_some]
  · rw [new, Option.getD_none]

section
variable (fresh : s.freshCtl port.val ctl = true)
include fresh

theorem execFieldTestChunk_ignored (ignored : s.chk.settled (BitVec.ofNat 64 (natAt payload 0 8)) (BitVec.ofNat 32 (natAt payload 8 4)) = true ∨
      s.mem.usable = 0 ∨ natAt payload 20 4 = 0 ∨ 4064 < natAt payload 20 4 ∨ natAt payload 16 4 ≤ natAt payload 12 4) :
    execFieldTestChunk port ctl payload s = .next (s.chunkSeen ctl) := by
  refine (if_neg (by simp [fresh])).trans (if_pos ?_)
  rcases ignored with h | h | h | h | h <;> simp [h]

theorem execFieldTestChunk_fifth (new : s.assemblyOf payload = none) (full : 4 ≤ s.chk.assemblies.length) :
    execFieldTestChunk port ctl payload s = .next (s.chunkSeen ctl) := by
  unfold State.assemblyOf Assembly.takes at new
  refine (if_neg (by simp [fresh])).trans (if_pos ?_)
  simp [new, full]

variable (counts : s.ChunkCounts payload) {a : Assembly} (known : s.Assembles payload a)
include counts known

/-- A chunk that counts is a repeat or joins its assembly. -/
theorem execFieldTestChunk_counts : execFieldTestChunk port ctl payload s =
    if a.chunks.held.any fun c => c.1 == natAt payload 12 4 then .next (s.chunkSeen ctl) else .next ((s.chunkSeen ctl).joinChunk payload a) := by
  obtain ⟨memory, unsettled, carries, fits, within⟩ := counts
  have room := known.room
  have mine := known.getD
  unfold State.assemblyOf Assembly.takes at room mine
  unfold newAssembly at mine
  refine (if_neg (by simp [fresh])).trans ((if_neg ?_).trans ?_)
  · simp [memory, unsettled, room, Nat.ne_of_gt carries, fits, within]
  · dsimp only
    rw [mine, State.chunkSeen]
    -- the table of floods is long, and no part of what follows: Lean must not compare two of them
    generalize s.fab.remember ctl.origin.toNat ctl.seq = fab
    exact if_congr Iff.rfl rfl (apply_ite Host.Outcome.next _ _ _).symm

theorem execFieldTestChunk_repeated (held : ∃ c ∈ a.chunks.held, c.1 = natAt payload 12 4) :
    execFieldTestChunk port ctl payload s = .next (s.chunkSeen ctl) :=
  (execFieldTestChunk_counts fresh counts known).trans (if_pos (by simpa using held))

theorem execFieldTestChunk_joins (new : ∀ c ∈ a.chunks.held, c.1 ≠ natAt payload 12 4) :
    execFieldTestChunk port ctl payload s = .next ((s.chunkSeen ctl).joinChunk payload a) :=
  (execFieldTestChunk_counts fresh counts known).trans (if_neg fun any => by
    obtain ⟨c, member, same⟩ := List.any_eq_true.1 any
    exact new c member (beq_iff_eq.1 same))

end

end Sys2Proof.Machine

open Sys2Proof Sys2Proof.Machine

/-- Settles O38: a message by whether it was seen before and what it names, a chunk by the assembly that it joins. -/
theorem controlPlane : Obligations.ControlPlane := by
  refine ⟨fun s port ctl payload => ⟨fun seen => ?seen, fun fresh => ⟨fun l names within => execLinkStateNotice_link fresh names within,
    execLinkStateNotice_reserved fresh, fun live mine => ⟨?early, ?drain⟩⟩⟩, fun s port ctl payload => ⟨execFieldTestChunk_ignored,
    execFieldTestChunk_fifth, ?known, ?first, fun _ _ => rfl⟩⟩
  case seen =>
    exact ⟨execLinkStateNotice_seen seen, congrArg _ (State.takeRequest_seen seen 1), congrArg _ (State.takeRequest_seen seen 2),
      execFieldTestChunk_seen seen, execJobControlMessage_seen seen, execImageRelay_seen seen⟩
  case early => exact fun kind => congrArg _ (State.takeRequest_fresh fresh kind live mine)
  case drain => exact fun kind => congrArg _ (State.takeRequest_fresh fresh kind live mine)
  case known =>
    intro a fresh memory unsettled carries fits within known
    have counts : s.ChunkCounts payload := ⟨memory, unsettled, carries, fits, within⟩
    refine ⟨execFieldTestChunk_repeated fresh counts (.inl known), fun new => ?_⟩
    have joins := execFieldTestChunk_joins fresh counts (.inl known) new
    exact ⟨fun more => joins.trans (congrArg _ (if_pos more)), fun last => joins.trans (congrArg _ (if_neg (Nat.not_lt.2 last)))⟩
  case first =>
    intro fresh memory unsettled carries fits within unknown room
    have counts : s.ChunkCounts payload := ⟨memory, unsettled, carries, fits, within⟩
    have joins := execFieldTestChunk_joins fresh counts (.inr ⟨unknown, room, rfl⟩) (fun _ none => absurd none List.not_mem_nil)
    exact ⟨fun more => joins.trans (congrArg _ (if_pos more)), fun one => joins.trans (congrArg _ (State.joinChunk_only one within))⟩
end

section
/-! SUPPORT. Device addresses page by page, and what a write does to the bytes and the protection units that it reaches (R286, R288, R292)
(O19, O44). -/

namespace Sys2Proof.Machine

/-! ### Runs on one page -/

theorem pageRuns_within {a n : Nat} (pos : 0 < n) (page : a % 4096 + n ≤ 4096) : pageRuns a n = [(a, n)] := by
  have one : (a + n - 1) / 4096 - a / 4096 + 1 = 1 := by omega
  rw [pageRuns, if_neg (by omega), one, List.range_one, List.map_singleton, if_pos rfl]
  exact congrArg (fun k => [(a, k)]) (by omega)

/-- What fills its page up comes first. -/
theorem pageRuns_across {a k n : Nat} (fills : a % 4096 + k = 4096) (pos : 0 < n) :
    pageRuns a (k + n) = (a, k) :: pageRuns (a + k) n := by
  have pages : (a + (k + n) - 1) / 4096 - a / 4096 + 1 = (a + k + n - 1) / 4096 - (a + k) / 4096 + 1 + 1 := by omega
  rw [pageRuns, pageRuns, if_neg (by omega), if_neg (by omega), pages, List.range_succ_eq_map, List.map_cons, List.map_map, if_pos rfl]
  refine congr (congrArg _ (Prod.ext rfl (by dsimp only; omega))) (List.map_congr_left fun i _ => ?_)
  dsimp only [Function.comp_apply]
  rw [if_neg (Nat.succ_ne_zero i)]
  split <;> exact Prod.ext (by dsimp only; omega) (by dsimp only; omega)

/-- What holds of a step over each run within a range, and carries over from two ranges that meet at a page's end to both together, holds of the
steps over a whole access. -/
theorem foldl_pageRuns {β : Type} {f : β → Nat × Nat → β} {R : Nat → Nat → β → β → Prop} {lo hi : Nat}
    (one : ∀ {x k b}, lo ≤ x → x + k ≤ hi → 0 < k → R x k b (f b (x, k)))
    (join : ∀ {x k n b c d}, lo ≤ x → (x + k) % 4096 = 0 → R x k b c → R (x + k) n c d → R x (k + n) b d) {x n : Nat} {b : β} (low : lo ≤ x)
    (high : x + n ≤ hi) (pos : 0 < n) : R x n b ((pageRuns x n).foldl f b) := by
  induction n using Nat.strong_induction_on generalizing x b with
  | _ n ih =>
    by_cases page : x % 4096 + n ≤ 4096
    · rw [pageRuns_within pos page]
      exact one low high pos
    · obtain ⟨rest, rfl⟩ : ∃ rest, n = (4096 - x % 4096) + rest := ⟨n - (4096 - x % 4096), by omega⟩
      rw [pageRuns_across (by omega) (by omega), List.foldl_cons]
      exact join low (by omega) (one low (by omega) (by omega)) (ih rest (by omega) (by omega) (by omega) (by omega))

/-! ### Units that a write covers whole or in part -/

/-- A write of `n` bytes at `x` covers the unit whole. -/
def WholeUnit (unit x n u : Nat) : Prop := x ≤ u * unit ∧ (u + 1) * unit ≤ x + n

/-- A write of `n` bytes at `x` does not change byte `y`, which lies in an uncorrectable unit that it covers in part only. -/
def KeepsByte (unit : Nat) (bad : List Nat) (x n y : Nat) : Prop := y / unit ∈ bad ∧ ¬WholeUnit unit x n (y / unit)

/-- The uncorrectable units that a write covers in part. -/
def partUnits (unit : Nat) (bad : List Nat) (x n : Nat) : List Nat :=
  bad.filter fun b => decide (b * unit < x + n) && decide (x < (b + 1) * unit) && partUnit unit x n b

/-- The uncorrectable units that a write leaves so. -/
def unitsLeft (unit : Nat) (bad : List Nat) (x n : Nat) : List Nat :=
  bad.filter fun b => !(decide (x ≤ b * unit) && decide ((b + 1) * unit ≤ x + n))

section
variable {unit x k n u y : Nat} {bad : List Nat}

theorem mem_unitsLeft : u ∈ unitsLeft unit bad x n ↔ u ∈ bad ∧ ¬WholeUnit unit x n u := by
  simp [unitsLeft, WholeUnit, -not_and, not_and_or]

/-- A unit lies on one side of a cut between units. -/
theorem wholeUnit_add (cut : unit ∣ x + k) : WholeUnit unit x (k + n) u ↔ WholeUnit unit x k u ∨ WholeUnit unit (x + k) n u := by
  obtain ⟨c, cut⟩ := cut
  rw [Nat.mul_comm] at cut
  have side : (u + 1) * unit ≤ x + k ∨ x + k ≤ u * unit := by
    rw [cut]
    exact (Nat.lt_or_ge u c).imp (Nat.mul_le_mul_right unit) (Nat.mul_le_mul_right unit)
  unfold WholeUnit
  omega

theorem keepsByte_before (cut : unit ∣ x + k) (before : y < x + k) : KeepsByte unit bad x (k + n) y ↔ KeepsByte unit bad x k y := by
  have begins := Nat.div_mul_le_self y unit
  have later : ¬WholeUnit unit (x + k) n (y / unit) := fun whole => by have := whole.1; omega
  simp only [KeepsByte, wholeUnit_add cut, later, or_false]

theorem keepsByte_after {left : List Nat} (cut : unit ∣ x + k) (units : ∀ u, u ∈ left ↔ u ∈ bad ∧ ¬WholeUnit unit x k u) :
    KeepsByte unit bad x (k + n) y ↔ KeepsByte unit left (x + k) n y := by
  simp only [KeepsByte, wholeUnit_add cut, units, not_or, and_assoc]

variable (pos : 0 < unit)
include pos

theorem mem_partUnits (low : x ≤ y) (high : y < x + n) : y / unit ∈ partUnits unit bad x n ↔ KeepsByte unit bad x n y := by
  have begins : y / unit * unit < x + n := Nat.lt_of_le_of_lt (Nat.div_mul_le_self y unit) high
  have ends : x < (y / unit + 1) * unit := Nat.lt_of_le_of_lt low (Nat.lt_mul_of_div_lt (Nat.lt_succ_self _) pos)
  simp [partUnits, partUnit, KeepsByte, WholeUnit, begins, ends, -not_and, not_and_or]

/-- Part of an uncorrectable unit is written just where a byte keeps its value. -/
theorem partUnits_eq_nil (bytes : 0 < n) : partUnits unit bad x n = [] ↔ ∀ y, x ≤ y → y < x + n → ¬KeepsByte unit bad x n y := by
  refine ⟨fun empty y low high kept => ?_, fun free => List.eq_nil_iff_forall_not_mem.2 fun u part => ?_⟩
  · simpa [empty] using (mem_partUnits pos low high).2 kept
  · obtain ⟨⟨begins, ends⟩, -⟩ : (u * unit < x + n ∧ x < (u + 1) * unit) ∧ _ := by simpa using List.of_mem_filter part
    have grows : u * unit < (u + 1) * unit := Nat.mul_lt_mul_of_pos_right (Nat.lt_succ_self u) pos
    have here : max x (u * unit) / unit = u := Nat.div_eq_of_lt_le (by omega) (by omega)
    refine free (max x (u * unit)) (by omega) (by omega) ((mem_partUnits pos (by omega) (by omega)).1 ?_)
    rwa [here]

end

/-! ### Bytes written -/

theorem Mem.get_setRange (c : Mem 8) (x : Nat) (bs : List Byte) (y : Nat) :
    (c.setRange x bs).get y = if x ≤ y ∧ y < x + bs.length then bs.getD (y - x) 0 else c.get y := by
  split
  next inside =>
    obtain ⟨i, rfl⟩ := Nat.exists_eq_add_of_le inside.1
    have within : i < bs.length := by omega
    rw [Mem.get_setRange_in _ _ _ _ within, Nat.add_sub_cancel_left, List.getD_eq_getElem _ _ within]
  next outside => exact Mem.get_setRange_other _ _ _ _ (by omega)

/-- Bytes written from `x` on, but none in the units `part`. -/
def Mem.setAround (c : Mem 8) (unit : Nat) (part : List Nat) (x : Nat) (bs : List Byte) : Mem 8 :=
  if part.isEmpty then c.setRange x bs
  else (bs.zipIdx).foldl (fun c b => if part.contains ((x + b.2) / unit) then c else c.set (x + b.2) b.1) c

theorem get_foldl_set (unit : Nat) (part : List Nat) (x y : Nat) (bs : List Byte) (i : Nat) (c : Mem 8) :
    ((bs.zipIdx i).foldl (fun c b => if part.contains ((x + b.2) / unit) then c else c.set (x + b.2) b.1) c).get y =
      if x + i ≤ y ∧ y < x + i + bs.length ∧ y / unit ∉ part then bs.getD (y - (x + i)) 0 else c.get y := by
  induction bs generalizing i c with
  | nil => exact (if_neg (by simp; omega)).symm
  | cons b bs ih =>
    have first : (if part.contains ((x + i) / unit) then c else c.set (x + i) b).get y =
        if y = x + i ∧ y / unit ∉ part then b else c.get y := by
      by_cases here : y = x + i
      · subst here
        by_cases kept : (x + i) / unit ∈ part <;> simp [kept, Mem.get_set]
      · split <;> simp [here, Mem.get_set]
    rw [List.zipIdx_cons, List.foldl_cons, ih, first]
    rcases Nat.lt_trichotomy y (x + i) with before | here | after
    · rw [if_neg (by omega), if_neg (by omega), if_neg (by omega)]
    · subst here
      simp [List.length_cons]
    · have behind : y - (x + i) = y - (x + (i + 1)) + 1 := by omega
      have inside : (x + (i + 1) ≤ y ∧ y < x + (i + 1) + bs.length ∧ y / unit ∉ part) ↔
          x + i ≤ y ∧ y < x + i + (b :: bs).length ∧ y / unit ∉ part := by
        rw [List.length_cons]
        exact and_congr ⟨fun _ => by omega, fun _ => after⟩ (and_congr_left fun _ => by omega)
      have other : ¬(y = x + i ∧ y / unit ∉ part) := by omega
      rw [if_neg other, behind, List.getD_cons_succ]
      exact if_congr inside rfl rfl

theorem Mem.get_setAround (c : Mem 8) (unit : Nat) (part : List Nat) (x : Nat) (bs : List Byte) (y : Nat) :
    (c.setAround unit part x bs).get y =
      if x ≤ y ∧ y < x + bs.length ∧ y / unit ∉ part then bs.getD (y - x) 0 else c.get y := by
  cases part with
  | nil => exact (c.get_setRange x bs y).trans (if_congr (by simp) rfl rfl)
  | cons u part => exact get_foldl_set unit (u :: part) x y bs 0 c

/-- A memory `old` with the uncorrectable units `bad` has taken a write of `n` bytes at `x`, of which byte `y` is `byte y`. -/
structure Stored (unit : Nat) (byte : Nat → Byte) (x n : Nat) (old : Mem 8) (bad : List Nat) (new : Mem 8) (left : List Nat) : Prop where
  outside : ∀ y, ¬(x ≤ y ∧ y < x + n) → new.get y = old.get y
  kept : ∀ y, x ≤ y → y < x + n → KeepsByte unit bad x n y → new.get y = old.get y
  taken : ∀ y, x ≤ y → y < x + n → ¬KeepsByte unit bad x n y → new.get y = byte y
  units : ∀ u, u ∈ left ↔ u ∈ bad ∧ ¬WholeUnit unit x n u

theorem stored_setAround {unit : Nat} (pos : 0 < unit) {byte : Nat → Byte} {x n : Nat} {bs : List Byte} (length : bs.length = n)
    (bytes : ∀ i, i < n → bs.getD i 0 = byte (x + i)) (c : Mem 8) (bad : List Nat) :
    Stored unit byte x n c bad (c.setAround unit (partUnits unit bad x n) x bs) (unitsLeft unit bad x n) where
  outside y out := by rw [Mem.get_setAround, length, if_neg fun h => out ⟨h.1, h.2.1⟩]
  kept y low high kept := by rw [Mem.get_setAround, if_neg fun h => h.2.2 ((mem_partUnits pos low high).2 kept)]
  taken y low high free := by
    rw [Mem.get_setAround, length, if_pos ⟨low, high, mt (mem_partUnits pos low high).1 free⟩, bytes _ (by omega), Nat.add_sub_cancel' low]
  units _ := mem_unitsLeft

namespace Stored
variable {unit : Nat} {byte : Nat → Byte} {x k n : Nat} {a b c : Mem 8} {bad left rest : List Nat}

/-- Two writes that meet between two units are one write. -/
theorem join (cut : unit ∣ x + k) (first : Stored unit byte x k a bad b left) (second : Stored unit byte (x + k) n b left c rest) :
    Stored unit byte x (k + n) a bad c rest where
  outside y out := (second.outside y (by omega)).trans (first.outside y (by omega))
  kept y low high kept := by
    rcases Nat.lt_or_ge y (x + k) with before | after
    · exact (second.outside y (by omega)).trans (first.kept y low before ((keepsByte_before cut before).1 kept))
    · exact (second.kept y after (by omega) ((keepsByte_after cut first.units).1 kept)).trans (first.outside y (by omega))
  taken y low high free := by
    rcases Nat.lt_or_ge y (x + k) with before | after
    · exact (second.outside y (by omega)).trans (first.taken y low before (mt (keepsByte_before cut before).2 free))
    · exact second.taken y after (by omega) (mt (keepsByte_after cut first.units).2 free)
  units u := by simp only [second.units, first.units, wholeUnit_add cut, not_or, and_assoc]

/-- The bytes of a memory that has taken a write. -/
theorem get (h : Stored unit byte x n a bad b left)
    (y : Nat) {_ : Decidable (KeepsByte unit bad x n y)} :
    b.get y = if x ≤ y ∧ y < x + n then (if KeepsByte unit bad x n y then a.get y else byte y) else a.get y := by
  split
  next inside =>
    split
    next kept => exact h.kept y inside.1 inside.2 kept
    next free => exact h.taken y inside.1 inside.2 free
  next outside => exact h.outside y outside

end Stored

/-! ### The die's two memories -/

theorem Place.unit_pos (p : Place) : 0 < p.unit := by cases p <;> exact Nat.succ_pos _

/-- Memories `m` have taken a write of `n` bytes at `x` in the one that `ofAddr` names, and stand otherwise in `m'` as they stood. -/
structure MemSys.Writes (ofAddr : Nat → Place) (byte : Nat → Byte) (x n : Nat) (m m' : MemSys) : Prop where
  stored : Stored (ofAddr 0).unit byte x n (m.cellsOf (ofAddr 0)) (m.badOf (ofAddr 0)) (m'.cellsOf (ofAddr 0)) (m'.badOf (ofAddr 0))
  others : ∀ p : Place, p.ctorIdx ≠ (ofAddr 0).ctorIdx → m'.cellsOf p = m.cellsOf p
  usable : m'.usable = m.usable
  place : m'.place = m.place

section
variable {ofAddr : Nat → Place} (onDie : ofAddr = .gddr ∨ ofAddr = .staging)
include onDie

/-- Pages end between units. -/
theorem unit_dvd_page : (ofAddr 0).unit ∣ 4096 := by rcases onDie with rfl | rfl <;> decide

namespace MemSys

theorem writeRun_writes (m : MemSys) {byte : Nat → Byte} {x n : Nat} {bs : List Byte} (length : bs.length = n)
    (bytes : ∀ i, i < n → bs.getD i 0 = byte (x + i)) : Writes ofAddr byte x n m (m.writeRun (ofAddr x) bs).1 := by
  subst length
  rcases onDie with rfl | rfl
  · refine ⟨stored_setAround (by decide) rfl bytes _ _, fun p other => ?_, rfl, rfl⟩
    cases p with
    | gddr => exact absurd rfl other
    | _ => rfl
  · refine ⟨stored_setAround (by decide) rfl bytes _ _, fun p other => ?_, rfl, rfl⟩
    cases p with
    | staging => exact absurd rfl other
    | _ => rfl

theorem Writes.join {byte : Nat → Byte} {x k n : Nat} {m m' m'' : MemSys} (cut : (x + k) % 4096 = 0) (first : Writes ofAddr byte x k m m')
    (second : Writes ofAddr byte (x + k) n m' m'') : Writes ofAddr byte x (k + n) m m'' where
  stored := first.stored.join ((unit_dvd_page onDie).trans (Nat.dvd_of_mod_eq_zero cut)) second.stored
  others p other := (second.others p other).trans (first.others p other)
  usable := second.usable.trans first.usable
  place := second.place.trans first.place

end MemSys
end

end Sys2Proof.Machine
end

section
/-! SUPPORT. Device memory as it is written and read (R286, R290, R292), and tile memory (O19). -/

namespace Sys2Proof.Machine

/-! ### GDDR7 and what lies beside it -/

theorem MemSys.place_gddr {m : MemSys} {a : Nat} (within : a < m.usable) : m.place a = .gddr a := if_pos within

theorem MemSys.place_staging {m : MemSys} {a : Nat} (beyond : m.usable ≤ a) (inside : inStaging a = true) :
    m.place a = .staging (a - stagingBase) := (if_neg (Nat.not_lt.2 beyond)).trans (if_pos inside)

/-- Only a usable address of GDDR7 leads there. -/
theorem MemSys.place_beyond {m : MemSys} {a : Nat} (beyond : m.usable ≤ a) : (m.place a).ctorIdx ≠ (Place.gddr 0).ctorIdx := by
  have elsewhere (e : Nat) (write : Bool) : (((entryPlace e a write).getD .hole).ctorIdx) ≠ (Place.gddr 0).ctorIdx := by
    unfold entryPlace
    repeat' split
    all_goals exact Nat.succ_ne_zero _
  unfold MemSys.place MemSys.translate
  rw [if_neg (Nat.not_lt.2 beyond)]
  split
  · exact Nat.succ_ne_zero _
  · split
    · split
      · exact elsewhere _ _
      · exact Nat.succ_ne_zero _
    · exact Nat.succ_ne_zero _

/-- One byte of a read. -/
theorem MemSys.readDev_one (m : MemSys) (x : Nat) : (m.readDev x 1).1 = [(m.cellsOf (m.place x)).get (m.place x).addr] := by
  rw [MemSys.readDev, pageRuns_within Nat.one_pos (by omega)]
  rfl

theorem getD_sub {bs : List Byte} {off n i : Nat} (within : i < n) : (sub bs off n).getD i 0 = bs.getD (off + i) 0 := by
  rw [sub, List.getD_eq_getElem?_getD, List.getElem?_take_of_lt within, List.getElem?_drop, List.getD_eq_getElem?_getD]

theorem length_sub {bs : List Byte} {off n : Nat} (within : off + n ≤ bs.length) : (sub bs off n).length = n := by
  rw [sub, List.length_take, List.length_drop]
  omega

/-- A write to device memory takes one run: what `MemSys.writeDev` does for each. -/
def MemSys.writeDevRun (a : Nat) (bs : List Byte) (st : MemSys × Option Nat) (r : Nat × Nat) : MemSys × Option Nat :=
  let p := st.1.place r.1
  let (m, bad) := st.1.writeRun p (sub bs (r.1 - a) r.2)
  (m, st.2.or (bad.map fun u => r.1 + u * p.unit - p.addr))

theorem MemSys.writeDev_eq_foldl (m : MemSys) (a : Nat) (bs : List Byte) :
    m.writeDev a bs = (pageRuns a bs.length).foldl (writeDevRun a bs) (m, none) := rfl

/-- Bytes written to GDDR7. -/
theorem MemSys.writeDev_writes {m : MemSys} {a : Nat} {bs : List Byte} (pos : 0 < bs.length) (within : a + bs.length ≤ m.usable) :
    m.Writes .gddr (fun y => bs.getD (y - a) 0) a bs.length (m.writeDev a bs).1 := by
  rw [MemSys.writeDev_eq_foldl]
  refine foldl_pageRuns (f := writeDevRun a bs) (lo := a) (hi := a + bs.length) (b := (m, none))
    (R := fun x n st st' => st.1.usable = m.usable → st.1.Writes .gddr (fun y => bs.getD (y - a) 0) x n st'.1) ?_ ?_ le_rfl le_rfl pos rfl
  · intro x k st low high _ usable
    rw [writeDevRun, MemSys.place_gddr (by omega)]
    refine MemSys.writeRun_writes (.inl rfl) _ (length_sub (by omega)) fun i small => ?_
    rw [getD_sub small]
    congr 1
    omega
  · intro x k n st st' st'' _ cut first second usable
    exact (first usable).join (.inl rfl) cut (second ((first usable).usable.trans usable))

/-! ### Tile memory (R286) -/

theorem VCore.readTile_one (v : VCore) (x : Nat) : v.readTile x 1 = [v.tile.get x] := rfl

theorem VCore.writeTile_clean {v : VCore} (clean : v.tileBad = []) (a : Nat) (bs : List Byte) : (v.writeTile a bs).tile = v.tile.setRange a bs := by
  rw [VCore.writeTile, clean]
  rfl

end Sys2Proof.Machine

open Sys2Proof Sys2Proof.Machine

/-- Settles O19: a device address by whether it lies in GDDR7, a tile address by whether it was written. -/
theorem memoryReadsBack : Obligations.MemoryReadsBack := by
  refine ⟨fun m a x bs clean within => ?device, fun v a x bs clean => ?tile⟩
  case tile =>
    rw [VCore.readTile_one, VCore.readTile_one, VCore.writeTile_clean clean, Mem.get_setRange]
    split <;> rfl
  case device =>
    rcases Nat.eq_zero_or_pos bs.length with empty | pos
    · rw [List.eq_nil_of_length_eq_zero empty, if_neg (by simp)]
      rfl
    obtain ⟨stored, others, -, place⟩ := MemSys.writeDev_writes pos within
    rw [MemSys.readDev_one, MemSys.readDev_one, place]
    rcases Nat.lt_or_ge x m.usable with inside | beyond
    · rw [MemSys.place_gddr inside]
      split
      next written => exact congrArg (fun b => [b]) (stored.taken x written.1 written.2 fun kept => by simpa [MemSys.badOf, clean] using kept.1)
      next other => exact congrArg (fun b => [b]) (stored.outside x other)
    · rw [others _ (MemSys.place_beyond beyond), if_neg (by omega)]
end

section
/-! SUPPORT. What BAR2 reads and writes of device memory (R288, R292, R396) (O44). -/

namespace Sys2Proof.Machine

/-! ### Errors that are corrected and counted -/

/-- Every byte, every uncorrectable unit and every device address stand in `m'` as in `m`. -/
structure MemSys.SameBytes (m m' : MemSys) : Prop where
  cells : m'.cellsOf = m.cellsOf
  bad : m'.badOf = m.badOf
  usable : m'.usable = m.usable
  place : m'.place = m.place

namespace MemSys.SameBytes
variable {m m' m'' : MemSys} {ofAddr : Nat → Place} {byte : Nat → Byte} {x n : Nat}

theorem refl (m : MemSys) : m.SameBytes m := ⟨rfl, rfl, rfl, rfl⟩

theorem trans (h : m.SameBytes m') (k : m'.SameBytes m'') : m.SameBytes m'' :=
  ⟨k.cells.trans h.cells, k.bad.trans h.bad, k.usable.trans h.usable, k.place.trans h.place⟩

/-- What the error logic counts and corrects, and nothing else. -/
theorem counts (m : MemSys) (gddrSoft stagingSoft : List Nat) (g7Corr g7Unc stgCorr : Nat) :
    m.SameBytes { m with gddrSoft, stagingSoft, g7Corr, g7Unc, stgCorr } :=
  ⟨funext fun p => by cases p <;> rfl, funext fun p => by cases p <;> rfl, rfl, rfl⟩

theorem writes (h : m.SameBytes m') (w : m'.Writes ofAddr byte x n m'') : m.Writes ofAddr byte x n m'' where
  stored := by rw [← h.cells, ← h.bad]; exact w.stored
  others p other := (w.others p other).trans (congrFun h.cells p)
  usable := w.usable.trans h.usable
  place := w.place.trans h.place

end MemSys.SameBytes

/-- What is counted after a write. -/
theorem MemSys.Writes.counted {m m' m'' : MemSys} {ofAddr : Nat → Place} {byte : Nat → Byte} {x n : Nat} (w : m.Writes ofAddr byte x n m')
    (h : m'.SameBytes m'') : m.Writes ofAddr byte x n m'' where
  stored := by rw [h.cells, h.bad]; exact w.stored
  others p other := (congrFun h.cells p).trans (w.others p other)
  usable := h.usable.trans w.usable
  place := h.place.trans w.place

/-- Correcting an error changes no byte. -/
theorem State.correctDev_sameBytes {s t : State} (h : s.mem.SameBytes t.mem) (units : List Nat) : s.mem.SameBytes (t.correctDev units).mem := by
  refine closed_foldlS (P := fun t => s.mem.SameBytes t.mem) units h fun t a h => ?_
  split
  · exact h.trans (.counts t.mem _ _ _ _ _)
  · exact h.trans (.counts t.mem _ _ _ _ _)
  · exact h

theorem State.meetDev_sameBytes (s : State) (write : Bool) (a n : Nat) : s.mem.SameBytes (s.meetDev write a n).mem := by
  refine closed_foldlS (P := fun t => s.mem.SameBytes t.mem) (pageRuns a n) (.refl _) fun t r h => ?_
  dsimp only
  split
  · refine closed_ite (P := fun t => s.mem.SameBytes t.mem) h (State.correctDev_sameBytes ?_ _)
    exact h.trans (.counts t.mem _ _ _ _ _)
  · refine closed_ite (P := fun t => s.mem.SameBytes t.mem) h (State.correctDev_sameBytes ?_ _)
    exact h.trans (.counts t.mem _ _ _ _ _)
  · exact h

/-! ### Reads -/

/-- BAR2 reads by the state that the corrected units have left. -/
def State.bar2Met (s : State) (a n : Nat) : State :=
  (pageRuns a n).foldl (fun (s : State) r => if s.bar2Reaches r.1 then s.meetDev false r.1 r.2 else s) s

/-- What a read of BAR2 answers for each run. -/
def State.bar2Runs (s : State) (a n : Nat) : List (List Byte × List Nat) := (pageRuns a n).map fun r => (s.bar2Met a n).bar2Run r.1 r.2

/-- A read of BAR2 is answered: each uncorrectable unit counts, and the host is told of them. -/
def State.bar2Answer (s : State) (data : List Byte) (units : List Nat) : State :=
  let t := (units.foldl (fun (s : State) u => s.countUnc u) s).emit (.hostData data !units.isEmpty)
  if !units.isEmpty then t.emit (.aer false) else t

theorem State.bar2Answer_good {s : State} {data : List Byte} {units : List Nat} (good : units = []) :
    s.bar2Answer data units = { s with out := s.out ++ [OutMsg.hostData data false] } := by
  subst good
  rfl

theorem State.bar2Answer_bad {s : State} {data : List Byte} {units : List Nat} (bad : units ≠ []) :
    let t := units.foldl (fun (s : State) u => s.countUnc u) s
    s.bar2Answer data units = { t with out := t.out ++ [OutMsg.hostData data true] ++ [OutMsg.aer false] } := by
  cases units with
  | nil => exact absurd rfl bad
  | cons u units => rfl

section
variable {s : State} {offset len : Nat} (up : s.host.pcieUp = true)
include up

theorem State.host_reaches : s.hostReaches = true := up

theorem execBar2Read_outside (outside : 2 ^ s.host.bar2Log2 < offset + len) : execBar2Read offset len s = .next s :=
  if_pos (by simp [State.host_reaches up, outside])

variable (within : offset + len ≤ 2 ^ s.host.bar2Log2)
include within

theorem execBar2Read_within : execBar2Read offset len s =
    let runs := s.bar2Runs (s.host.bar2Base + offset) len
    .next ((s.bar2Met (s.host.bar2Base + offset) len).bar2Answer (runs.flatMap (·.1)) (runs.flatMap (·.2))) :=
  if_neg (by simp [State.host_reaches up, Nat.not_lt.2 within])

end

section
variable {s : State} {a : Nat} (n : Nat)

theorem State.bar2Run_beyond (beyond : s.bar2Reaches a = false) : s.bar2Run a n = (List.replicate n 0xFF, []) := if_pos (by simp [beyond])

variable (reached : s.bar2Reaches a = true)
include reached

theorem State.bar2Run_reached : (s.bar2Run a n).1 = (List.range n).map fun i =>
    if (s.mem.badUnits (s.mem.place a) n).contains (((s.mem.place a).addr + i) / (s.mem.place a).unit) then 0xFF
    else (s.mem.cellsOf (s.mem.place a)).get ((s.mem.place a).addr + i) :=
  congrArg Prod.fst (if_neg (by simp [reached]))

/-- A byte that a run reads is all ones in an uncorrectable unit, else the byte of its memory. -/
theorem State.bar2Run_getD {i : Nat} (within : i < n) : (s.bar2Run a n).1.getD i 0 =
    let p := s.mem.place a
    if (p.addr + i) / p.unit ∈ s.mem.badOf p then 0xFF else (s.mem.cellsOf p).get (p.addr + i) := by
  rw [State.bar2Run_reached n reached]
  generalize s.mem.place a = p
  have begins : (p.addr + i) / p.unit * p.unit < p.addr + n := Nat.lt_of_le_of_lt (Nat.div_mul_le_self _ _) (by omega)
  have ends : p.addr < ((p.addr + i) / p.unit + 1) * p.unit :=
    Nat.lt_of_le_of_lt (Nat.le_add_right _ i) (Nat.lt_mul_of_div_lt (Nat.lt_succ_self _) p.unit_pos)
  have touched : (p.addr + i) / p.unit ∈ s.mem.badUnits p n ↔ (p.addr + i) / p.unit ∈ s.mem.badOf p := by
    simp [MemSys.badUnits, begins, ends]
  simp [within, touched]

end

/-! ### Writes -/

/-- A write of BAR2 takes one run: what `execBar2Write` does for each. -/
def State.bar2Store (a : Nat) (data : List Byte) (s : State) (r : Nat × Nat) : State :=
  if !s.bar2Reaches r.1 then s
  else
    let p := s.mem.place r.1
    let part := (s.mem.badUnits p r.2).filter fun u => partUnit p.unit p.addr r.2 u
    let t := (s.meetDev true r.1 r.2).modMem fun m => (m.writeRun p (sub data (r.1 - a) r.2)).1
    if part.isEmpty then t
    else (t.modMem fun m => { m with g7Unc := m.g7Unc + if p.isGddr then part.length else 0 }).emit (.aer true)

theorem execBar2Write_within {s : State} {offset : Nat} {data : List Byte} (up : s.host.pcieUp = true)
    (within : offset + data.length ≤ 2 ^ s.host.bar2Log2) : execBar2Write offset data s =
      .next ((pageRuns (s.host.bar2Base + offset) data.length).foldl (State.bar2Store (s.host.bar2Base + offset) data) s) :=
  if_neg (by simp [State.host_reaches up, Nat.not_lt.2 within])

/-- BAR2 has written `n` bytes at `x` of the memory that `ofAddr` names, and has reported that some kept their value just where some did. -/
structure State.Bar2Wrote (ofAddr : Nat → Place) (byte : Nat → Byte) (x n : Nat) (s t : State) : Prop where
  writes : s.mem.Writes ofAddr byte x n t.mem
  cores : t.cores = s.cores
  reports : ∃ k, t.out = s.out ++ List.replicate k (OutMsg.aer true) ∧
    (k = 0 ↔ ∀ y, x ≤ y → y < x + n → ¬KeepsByte (ofAddr 0).unit (s.mem.badOf (ofAddr 0)) x n y)

section
variable {ofAddr : Nat → Place} (onDie : ofAddr = .gddr ∨ ofAddr = .staging) {byte : Nat → Byte} {x k n : Nat} {s t u : State}

theorem State.Bar2Wrote.bar2Reaches (h : s.Bar2Wrote ofAddr byte x n t) : t.bar2Reaches = s.bar2Reaches := by
  have areas : t.saveAreas = s.saveAreas := by
    unfold State.saveAreas State.core
    rw [h.cores]
  funext d
  rw [State.bar2Reaches, State.bar2Reaches, State.fwBase, State.fwBase, h.writes.usable, areas]

include onDie

theorem State.Bar2Wrote.join (cut : (x + k) % 4096 = 0) (first : s.Bar2Wrote ofAddr byte x k t) (second : t.Bar2Wrote ofAddr byte (x + k) n u) :
    s.Bar2Wrote ofAddr byte x (k + n) u where
  writes := first.writes.join onDie cut second.writes
  cores := second.cores.trans first.cores
  reports := by
    obtain ⟨i, out, silent⟩ := first.reports
    obtain ⟨j, out', silent'⟩ := second.reports
    have cut : (ofAddr 0).unit ∣ x + k := (unit_dvd_page onDie).trans (Nat.dvd_of_mod_eq_zero cut)
    refine ⟨i + j, by rw [out', out, List.append_assoc, List.replicate_add], ?_⟩
    rw [Nat.add_eq_zero_iff, silent, silent']
    constructor
    · rintro ⟨free, free'⟩ y low high kept
      rcases Nat.lt_or_ge y (x + k) with before | after
      · exact free y low before ((keepsByte_before cut before).1 kept)
      · exact free' y after (by omega) ((keepsByte_after cut first.writes.stored.units).1 kept)
    · intro free
      exact ⟨fun y low high kept => free y low (by omega) ((keepsByte_before cut high).2 kept),
        fun y low high kept => free y (by omega) (by omega) ((keepsByte_after cut first.writes.stored.units).2 kept)⟩

/-- One run of a write of BAR2. -/
theorem State.bar2Store_wrote {a d : Nat} {data : List Byte} (pos : 0 < k) (reached : s.bar2Reaches d = true) (place : s.mem.place d = ofAddr x)
    (length : (sub data (d - a) k).length = k) (bytes : ∀ i, i < k → (sub data (d - a) k).getD i 0 = byte (x + i)) :
    s.Bar2Wrote ofAddr byte x k (State.bar2Store a data s (d, k)) := by
  have unit : (ofAddr x).unit = (ofAddr 0).unit := by rcases onDie with rfl | rfl <;> rfl
  have bad : s.mem.badOf (ofAddr x) = s.mem.badOf (ofAddr 0) := by rcases onDie with rfl | rfl <;> rfl
  have addr : (ofAddr x).addr = x := by rcases onDie with rfl | rfl <;> rfl
  have parts : (s.mem.badUnits (ofAddr x) k).filter (fun u => partUnit (ofAddr x).unit (ofAddr x).addr k u) =
      partUnits (ofAddr 0).unit (s.mem.badOf (ofAddr 0)) x k := by
    rw [MemSys.badUnits, List.filter_filter, unit, bad, addr]
    exact List.filter_congr fun u _ => Bool.and_comm _ _
  obtain ⟨mem, chk, met⟩ := (State.OnlyMem.refl s).meetDev true d k
  have same : s.mem.SameBytes mem := by simpa [met] using s.meetDev_sameBytes true d k
  have writes := same.writes (MemSys.writeRun_writes onDie mem length bytes)
  have silent := partUnits_eq_nil (bad := s.mem.badOf (ofAddr 0)) (x := x) (ofAddr 0).unit_pos pos
  unfold State.bar2Store
  rw [if_neg (by simp [reached]), place]
  dsimp only
  rw [parts, met]
  split
  next empty => exact ⟨writes, rfl, 0, (List.append_nil _).symm, by simpa using silent.1 (List.isEmpty_iff.1 empty)⟩
  next part => exact ⟨writes.counted (.counts _ _ _ _ _ _), rfl, 1, rfl, by simpa [← silent] using part⟩

/-- A write of BAR2 to one memory, which begins at device address `o`. -/
theorem State.bar2Store_foldl_wrote {a o : Nat} {data : List Byte} (aligned : o % 4096 = 0) (above : o ≤ a) (pos : 0 < data.length)
    (reached : ∀ d, a ≤ d → d < a + data.length → s.bar2Reaches d = true)
    (place : ∀ d, a ≤ d → d < a + data.length → s.mem.place d = ofAddr (d - o)) :
    s.Bar2Wrote ofAddr (fun y => data.getD (y - (a - o)) 0) (a - o) data.length ((pageRuns a data.length).foldl (State.bar2Store a data) s) := by
  refine foldl_pageRuns (f := State.bar2Store a data) (lo := a) (hi := a + data.length) (b := s) (R := fun d n t u => t.mem.place = s.mem.place →
    t.bar2Reaches = s.bar2Reaches → t.Bar2Wrote ofAddr (fun y => data.getD (y - (a - o)) 0) (d - o) n u) ?_ ?_ le_rfl le_rfl pos rfl rfl
  · intro d k t low high pos samePlace sameReach
    refine State.bar2Store_wrote onDie pos ?_ ?_ (length_sub (by omega)) fun i small => ?_
    · rw [sameReach, reached d low (by omega)]
    · rw [samePlace, place d low (by omega)]
    · rw [getD_sub small]
      congr 1
      omega
  · intro d k n t u v low cut first second samePlace sameReach
    have first := first samePlace sameReach
    have meets : d + k - o = d - o + k := by omega
    rw [meets] at second
    exact first.join onDie (by omega) (second (first.writes.place.trans samePlace) (first.bar2Reaches.trans sameReach))

end

end Sys2Proof.Machine

open Sys2Proof Sys2Proof.Machine

/-- Settles O44: a read run by run, a write as the writes of its runs, joined where pages meet. -/
theorem hostAccessesOfBar2 : Obligations.HostAccessesOfBar2 := by
  refine fun s offset up => ⟨fun len within => ⟨fun good => (execBar2Read_within up within).trans (congrArg _ (State.bar2Answer_good good)),
      fun bad => (execBar2Read_within up within).trans (congrArg _ (State.bar2Answer_bad bad))⟩, fun len => execBar2Read_outside up,
    fun a n => State.bar2Run_beyond n, fun a n reached => ⟨?length, fun i => State.bar2Run_getD n reached⟩,
    fun data pos within => ⟨fun below area => ?gddr, fun usable low high => ?staging⟩⟩
  case length => rw [State.bar2Run_reached n reached, List.length_map, List.length_range]
  case gddr =>
    obtain ⟨⟨stored, others, -, -⟩, -, k, out, silent⟩ := State.bar2Store_foldl_wrote (s := s) (a := s.host.bar2Base + offset) (o := 0)
      (.inl rfl) rfl (Nat.zero_le _) pos (fun d _ high => by simp [State.bar2Reaches, show d < s.fwBase by omega])
      (fun d _ high => MemSys.place_gddr (by omega))
    exact ⟨_, k, execBar2Write_within up within, fun x => stored.get x, others (.staging 0) (by decide), others (.scree 0) (by decide),
      others (.host 0) (by decide), out, silent, stored.units⟩
  case staging =>
    have inside (d : Nat) (low' : s.host.bar2Base + offset ≤ d) (high' : d < s.host.bar2Base + offset + data.length) : inStaging d = true := by
      simp only [inStaging, Bool.and_eq_true, decide_eq_true_eq]
      omega
    obtain ⟨⟨stored, others, -, -⟩, -, k, out, silent⟩ := State.bar2Store_foldl_wrote (s := s) (a := s.host.bar2Base + offset)
      (o := stagingBase) (.inr rfl) rfl low pos (fun d low' high' => by simp [State.bar2Reaches, inside d low' high'])
      (fun d low' high' => MemSys.place_staging (by omega) (inside d low' high'))
    exact ⟨_, k, execBar2Write_within up within, fun x => stored.get x, others (.gddr 0) (by decide), others (.scree 0) (by decide),
      others (.host 0) (by decide), out, silent, stored.units⟩
end

section
/-! SUPPORT. Addresses by their coordinates, and the legs of a route (O30). -/

namespace Sys2Proof.Machine

/-! ### Coordinates -/

theorem coord_eq_div_mod (a d : Nat) : coord a d = a / 2 ^ (5 * d) % 32 := bitsAt_eq_div_mod a (5 * d) 5

theorem coord_setCoord {a d e v : Nat} (hd : d < 3) (he : e < 3) (hv : v < 32) :
    coord (setCoord a d v) e = if e = d then v else coord a e := by
  simp only [setCoord, coord_eq_div_mod, Nat.shiftLeft_eq]
  interval_cases d <;> interval_cases e <;> simp <;> omega

theorem setCoord_lt {a d v : Nat} (hd : d < 3) (ha : a < 32768) (hv : v < 32) : setCoord a d v < 32768 := by
  simp only [setCoord, coord_eq_div_mod, Nat.shiftLeft_eq]
  interval_cases d <;> simp <;> omega

theorem eq_of_coords {a b : Nat} (ha : a < 32768) (hb : b < 32768) (same : ∀ d < 3, coord a d = coord b d) : a = b := by
  have h0 := same 0 (by decide)
  have h1 := same 1 (by decide)
  have h2 := same 2 (by decide)
  simp only [coord_eq_div_mod] at h0 h1 h2
  omega

/-! ### Rings: the distance from `c` on to `t` among `n` places -/

theorem ring_dist {n c t : Nat} (hc : c < n) (ht : t < n) : (t + n - c) % n = if c ≤ t then t - c else t + n - c := by
  split
  · rw [show t + n - c = t - c + n by omega, Nat.add_mod_right, Nat.mod_eq_of_lt (by omega)]
  · rw [Nat.mod_eq_of_lt (by omega)]

theorem ring_next {n c : Nat} (hc : c < n) : (c + 1) % n = if c + 1 = n then 0 else c + 1 := by
  split
  next last => rw [last, Nat.mod_self]
  next => rw [Nat.mod_eq_of_lt (by omega)]

theorem ring_prev {n c : Nat} (hc : c < n) : (c + n - 1) % n = if c = 0 then n - 1 else c - 1 := by
  split
  · rw [Nat.mod_eq_of_lt (by omega)]
    omega
  · rw [show c + n - 1 = c - 1 + n by omega, Nat.add_mod_right, Nat.mod_eq_of_lt (by omega)]

namespace Fabric

variable (f : Fabric)

/-! ### Addresses of the torus and their neighbours -/

/-- An address whose coordinates lie within the dimension sizes of FAB_TOPO. -/
structure Holds (a : Nat) : Prop where
  small : a < 32768
  coords : ∀ d < 3, coord a d < f.dims.getD d 1

theorem dims_le (d : Nat) : f.dims.getD d 1 ≤ 32 := by
  have five (lo : Nat) : bitsAt f.topo.toNat lo 5 < 32 := Nat.mod_lt _ (by decide)
  match d with
  | 0 | 1 | 2 => exact five _
  | _ + 3 => exact Nat.one_le_of_lt (by decide : 31 < 32)

variable {f} {a dst port : Nat}

/-- A hop moves the coordinate of its port's dimension by one place of the ring and leaves the others. -/
theorem coord_neighbourOf {d : Nat} (holds : f.Holds a) (hp : port < 6) (hd : d < 3) : coord (f.neighbourOf a port) d =
    if d = port / 2 then (if port % 2 = 0 then (coord a d + 1) % f.dims.getD d 1 else (coord a d + f.dims.getD d 1 - 1) % f.dims.getD d 1)
    else coord a d := by
  have hdim : port / 2 < 3 := by omega
  have pos := holds.coords (port / 2) hdim
  have le := f.dims_le (port / 2)
  have mod (x : Nat) : x % f.dims.getD (port / 2) 1 < 32 := (Nat.mod_lt x (by omega)).trans_le le
  rw [neighbourOf, coord_setCoord hdim hd (by split <;> exact mod _)]
  split
  next same => rw [same]
  next => rfl

theorem Holds.neighbourOf (holds : f.Holds a) (hp : port < 6) : f.Holds (f.neighbourOf a port) where
  small := by
    have hdim : port / 2 < 3 := by omega
    have pos := holds.coords (port / 2) hdim
    have mod (x : Nat) : x % f.dims.getD (port / 2) 1 < 32 := (Nat.mod_lt x (by omega)).trans_le (f.dims_le _)
    exact setCoord_lt hdim holds.small (by split <;> exact mod _)
  coords d hd := by
    have lt := holds.coords d hd
    rw [coord_neighbourOf holds hp hd]
    split
    · split <;> exact Nat.mod_lt _ (by omega)
    · exact lt

/-! ### The move of one dimension -/

variable (f) in
/-- Places from an address on to its destination in the + direction of a dimension. -/
def ahead (a dst d : Nat) : Nat := (coord dst d + f.dims.getD d 1 - coord a d) % f.dims.getD d 1

variable (f) in
/-- The hops that a dimension needs, the shorter way round. -/
def hops (a dst d : Nat) : Nat := min (f.ahead a dst d) (f.dims.getD d 1 - f.ahead a dst d)

theorem move_eq (a dst d : Nat) : f.move a dst d =
    (if f.ahead a dst d ≤ f.dims.getD d 1 - f.ahead a dst d then 2 * d else 2 * d + 1, f.hops a dst d) := by
  by_cases h : f.ahead a dst d ≤ f.dims.getD d 1 - f.ahead a dst d
  · rw [if_pos h, hops, min_eq_left h]
    exact if_pos h
  · rw [if_neg h, hops, min_eq_right (by omega)]
    exact if_neg h

theorem hops_congr {b d : Nat} (same : coord a d = coord b d) : f.hops a dst d = f.hops b dst d := by
  rw [hops, hops, ahead, ahead, same]

theorem ahead_eq {d : Nat} (ha : f.Holds a) (hb : f.Holds dst) (hd : d < 3) : f.ahead a dst d =
    if coord a d ≤ coord dst d then coord dst d - coord a d else coord dst d + f.dims.getD d 1 - coord a d :=
  ring_dist (ha.coords d hd) (hb.coords d hd)

theorem hops_eq_zero {d : Nat} (ha : f.Holds a) (hb : f.Holds dst) (hd : d < 3) : f.hops a dst d = 0 ↔ coord a d = coord dst d := by
  have := ha.coords d hd
  have := hb.coords d hd
  rw [hops, ahead_eq ha hb hd]
  split <;> omega

/-- A hop in the + direction leaves one place fewer ahead, one in the - direction one more, round the ring. -/
theorem ahead_neighbourOf {d : Nat} (ha : f.Holds a) (hb : f.Holds dst) (hd : d < 3) (dim : port / 2 = d) :
    f.ahead (f.neighbourOf a port) dst d =
      if port % 2 = 0 then (if f.ahead a dst d = 0 then f.dims.getD d 1 - 1 else f.ahead a dst d - 1)
      else if f.ahead a dst d + 1 = f.dims.getD d 1 then 0 else f.ahead a dst d + 1 := by
  have lt := ha.coords d hd
  have lt' := hb.coords d hd
  have hp : port < 6 := by omega
  have next := coord_neighbourOf ha hp hd
  rw [if_pos dim.symm, ring_next lt, ring_prev lt] at next
  rw [ahead_eq (ha.neighbourOf hp) hb hd, ahead_eq ha hb hd, next]
  split_ifs <;> omega

/-- The first hop of a dimension brings its destination one hop nearer, and the next one, if any, leaves by the same port. -/
theorem move_next {d n : Nat} (ha : f.Holds a) (hb : f.Holds dst) (hd : d < 3) (hop : f.move a dst d = (port, n + 1)) :
    port / 2 = d ∧ f.hops (f.neighbourOf a port) dst d = n ∧ (n ≠ 0 → f.move (f.neighbourOf a port) dst d = (port, n)) := by
  have within : f.ahead a dst d < f.dims.getD d 1 := Nat.mod_lt _ (Nat.zero_lt_of_lt (ha.coords d hd))
  rw [move_eq] at hop
  have out := congrArg (·.1) hop
  have more := congrArg (·.2) hop
  dsimp only at out more
  have dim : port / 2 = d := by split at out <;> omega
  have next := ahead_neighbourOf ha hb hd dim
  rw [move_eq]
  unfold hops at more ⊢
  generalize f.ahead (f.neighbourOf a port) dst d = k' at next ⊢
  have left : min k' (f.dims.getD d 1 - k') = n := by split_ifs at out next <;> omega
  refine ⟨dim, left, fun pos => ?_⟩
  rw [left]
  congr 1
  split_ifs at out next ⊢ <;> omega

/-! ### The legs of a route -/

variable (f) in
/-- The links of a route that has yet to go through some dimensions. -/
def legs (dst : Nat) : List Nat → Nat → List (Nat × Nat)
  | [], _ => []
  | d :: ds, a =>
    let r := f.walk (f.move a dst d).1 (f.move a dst d).2 a
    r.1 ++ legs dst ds r.2

theorem path_eq_legs (src order : Nat) : f.path src dst order = f.legs dst (orderDims order) src := by
  have fold (ds : List Nat) (acc : List (Nat × Nat)) (a : Nat) : (ds.foldl (fun (st : List (Nat × Nat) × Nat) d =>
      let m := f.move st.2 dst d
      let r := f.walk m.1 m.2 st.2
      (st.1 ++ r.1, r.2)) (acc, a)).1 = acc ++ f.legs dst ds a := by
    induction ds generalizing acc a with
    | nil => exact (List.append_nil acc).symm
    | cons d ds ih => rw [List.foldl_cons, ih, legs, List.append_assoc]
  exact fold _ [] src

theorem legs_of_hops_eq_zero {d : Nat} (arrived : f.hops a dst d = 0) (ds : List Nat) : f.legs dst (d :: ds) a = f.legs dst ds a := by
  rw [legs, move_eq, arrived, walk, List.nil_append]

theorem legs_of_move {d n : Nat} (hop : f.move a dst d = (port, n + 1)) (ds : List Nat) : f.legs dst (d :: ds) a =
    (a, port) :: ((f.walk port n (f.neighbourOf a port)).1 ++ f.legs dst ds (f.walk port n (f.neighbourOf a port)).2) := by
  rw [legs, hop]
  rfl

/-- The first link of a route leaves the device that it starts at, in a dimension still to go, and the neighbour goes on by the rest. -/
theorem legs_next {ds : List Nat} {l : Nat × Nat} {rest : List (Nat × Nat)} (ha : f.Holds a) (hb : f.Holds dst) (hds : ∀ d ∈ ds, d < 3)
    (nodup : ds.Nodup) (path : f.legs dst ds a = l :: rest) :
    l.1 = a ∧ l.2 / 2 ∈ ds ∧ f.legs dst ds (f.neighbourOf a l.2) = rest := by
  induction ds with
  | nil => cases path
  | cons d ds ih =>
    have hd : d < 3 := hds d List.mem_cons_self
    match hop : f.move a dst d with
    | (port, 0) =>
      have arrived : f.hops a dst d = 0 := congrArg (·.2) ((move_eq a dst d).symm.trans hop)
      rw [legs_of_hops_eq_zero arrived] at path
      obtain ⟨start, dim, go⟩ := ih (fun e he => hds e (List.mem_cons_of_mem d he)) nodup.of_cons path
      have dim3 := hds _ (List.mem_cons_of_mem d dim)
      have other : d ≠ l.2 / 2 := fun e => (List.nodup_cons.1 nodup).1 (e ▸ dim)
      have stays : f.hops (f.neighbourOf a l.2) dst d = f.hops a dst d :=
        hops_congr ((coord_neighbourOf ha (by omega) hd).trans (if_neg other))
      exact ⟨start, List.mem_cons_of_mem d dim, (legs_of_hops_eq_zero (stays.trans arrived) ds).trans go⟩
    | (port, n + 1) =>
      obtain ⟨dim, left, same⟩ := move_next ha hb hd hop
      rw [legs_of_move hop] at path
      obtain ⟨rfl, rfl⟩ := List.cons.inj path
      refine ⟨rfl, by simp [dim], ?_⟩
      match n with
      | 0 => exact legs_of_hops_eq_zero left ds
      | n + 1 => rw [legs, same (by simp)]

theorem length_walk (port n a : Nat) : (f.walk port n a).1.length = n := by
  induction n generalizing a with
  | zero => rfl
  | succ n ih => exact congrArg (· + 1) (ih _)

theorem walk_holds {d : Nat} (ha : f.Holds a) (hd : d < 3) (n : Nat) (dim : port / 2 = d) : f.Holds (f.walk port n a).2 ∧
    ∀ e < 3, e ≠ d → coord (f.walk port n a).2 e = coord a e := by
  induction n generalizing a with
  | zero => exact ⟨ha, fun _ _ _ => rfl⟩
  | succ n ih =>
    have hp : port < 6 := by omega
    obtain ⟨holds, others⟩ := ih (ha.neighbourOf hp)
    exact ⟨holds, fun e he ne => (others e he ne).trans ((coord_neighbourOf ha hp he).trans (if_neg (dim ▸ ne)))⟩

/-- A route takes in each dimension the fewest hops. -/
theorem length_legs {ds : List Nat} (ha : f.Holds a) (hds : ∀ d ∈ ds, d < 3) (nodup : ds.Nodup) :
    (f.legs dst ds a).length = (ds.map (f.hops a dst)).sum := by
  induction ds generalizing a with
  | nil => rfl
  | cons d ds ih =>
    have hds' : ∀ e ∈ ds, e < 3 := fun e he => hds e (List.mem_cons_of_mem d he)
    have dim : (f.move a dst d).1 / 2 = d := by
      rw [move_eq]
      dsimp only
      split <;> omega
    obtain ⟨holds, others⟩ := walk_holds ha (hds d List.mem_cons_self) (f.move a dst d).2 dim
    have same : ds.map (f.hops (f.walk (f.move a dst d).1 (f.move a dst d).2 a).2 dst) = ds.map (f.hops a dst) :=
      List.map_congr_left fun e he => hops_congr (others e (hds' e he) fun eq => (List.nodup_cons.1 nodup).1 (eq ▸ he))
    rw [legs, List.length_append, length_walk, ih holds hds' nodup.of_cons, same, List.map_cons, List.sum_cons, move_eq]

end Fabric

theorem orderDims_perm (order : Nat) : (orderDims order).Perm (List.range 3) := by
  unfold orderDims
  split <;> decide

/-! ### A whole route -/

namespace Fabric

variable {f : Fabric} {src dst order : Nat}

variable (f) in
/-- The device that a route has reached after `i` links. -/
def deviceAt (src : Nat) (path : List (Nat × Nat)) (i : Nat) : Nat := (path.take i).foldl (fun a l => f.neighbourOf a l.2) src

theorem deviceAt_succ {path : List (Nat × Nat)} {i : Nat} (h : i < path.length) :
    f.deviceAt src path (i + 1) = f.neighbourOf (f.deviceAt src path i) path[i].2 := by
  rw [deviceAt, List.take_succ_eq_append_getElem h, List.foldl_append]
  rfl

theorem path_next {a : Nat} {l : Nat × Nat} {rest : List (Nat × Nat)} (ha : f.Holds a) (hb : f.Holds dst)
    (path : f.path a dst order = l :: rest) : l.1 = a ∧ l.2 < 6 ∧ f.path (f.neighbourOf a l.2) dst order = rest := by
  have dims : ∀ d ∈ orderDims order, d < 3 := fun d hd => List.mem_range.1 ((orderDims_perm order).mem_iff.1 hd)
  rw [path_eq_legs] at path
  obtain ⟨start, dim, go⟩ := legs_next ha hb dims ((orderDims_perm order).nodup_iff.2 List.nodup_range) path
  have := dims _ dim
  exact ⟨start, by omega, (path_eq_legs _ _).trans go⟩

theorem length_path (ha : f.Holds src) : (f.path src dst order).length = ((List.range 3).map (f.hops src dst)).sum := by
  have dims : ∀ d ∈ orderDims order, d < 3 := fun d hd => List.mem_range.1 ((orderDims_perm order).mem_iff.1 hd)
  rw [path_eq_legs, length_legs ha dims ((orderDims_perm order).nodup_iff.2 List.nodup_range)]
  exact ((orderDims_perm order).map _).sum_eq

theorem eq_of_path_nil (ha : f.Holds src) (hb : f.Holds dst) (arrived : f.path src dst order = []) : src = dst := by
  have none : ((List.range 3).map (f.hops src dst)).sum = 0 := by rw [← length_path ha, arrived, List.length_nil]
  refine eq_of_coords ha.small hb.small fun d hd => (hops_eq_zero ha hb hd).1 ?_
  exact List.sum_eq_zero_iff.1 none _ (List.mem_map_of_mem (List.mem_range.2 hd))

theorem path_deviceAt (ha : f.Holds src) (hb : f.Holds dst) {i : Nat} (h : i ≤ (f.path src dst order).length) :
    f.Holds (f.deviceAt src (f.path src dst order) i) ∧
      f.path (f.deviceAt src (f.path src dst order) i) dst order = (f.path src dst order).drop i := by
  induction i with
  | zero => exact ⟨ha, rfl⟩
  | succ i ih =>
    obtain ⟨holds, rest⟩ := ih (Nat.le_of_succ_le h)
    rw [List.drop_eq_getElem_cons h] at rest
    obtain ⟨-, port, go⟩ := path_next holds hb rest
    rw [deviceAt_succ h]
    exact ⟨holds.neighbourOf port, go⟩

end Fabric
end Sys2Proof.Machine

open Sys2Proof Sys2Proof.Machine

/-- Settles O30: the route that a device on the way makes is the rest of the one that it stands on, and its hops are those of the ring. -/
theorem routesReachTheirDestination : Obligations.RoutesReachTheirDestination := by
  intro f src dst order D inside small small' path at_
  have ha : f.Holds src := ⟨small, fun d hd => (inside d hd).1⟩
  have hb : f.Holds dst := ⟨small', fun d hd => (inside d hd).2⟩
  refine ⟨fun i h => ?link, ?arrives, ?fewest⟩
  case link =>
    obtain ⟨holds, rest⟩ := Fabric.path_deviceAt ha hb h.le
    obtain ⟨start, port, -⟩ := Fabric.path_next holds hb (rest.trans (List.drop_eq_getElem_cons h))
    exact ⟨start, port, rest⟩
  case arrives =>
    obtain ⟨holds, rest⟩ := Fabric.path_deviceAt ha hb (le_refl path.length)
    exact Fabric.eq_of_path_nil holds hb (rest.trans List.drop_length)
  case fewest =>
    exact Fabric.length_path ha
end

section
/-! SUPPORT. The reduction tree (O32). -/

namespace Sys2Proof.Machine

/-- With two contributions or more the fold joins what it makes of the two halves. -/
theorem treeFold_halves {α : Type} {combine : α → α → α} {fuel : Nat} {xs : List α} {a b : α} (two : 2 ≤ xs.length)
    (left : treeFold combine fuel (xs.take ((xs.length + 1) / 2)) = some a)
    (right : treeFold combine fuel (xs.drop ((xs.length + 1) / 2)) = some b) :
    treeFold combine (fuel + 1) xs = some (combine a b) := by
  match xs, two with
  | x :: y :: rest, _ => simp only [treeFold, left, right]

/-- The tree over some contribution has a value, the same whatever the fuel beyond their number. -/
theorem treeFold_eq_some {α : Type} (combine : α → α → α) (xs : List α) (nonempty : xs ≠ []) :
    ∃ a, ∀ fuel, xs.length ≤ fuel → treeFold combine fuel xs = some a := by
  induction h : xs.length using Nat.strong_induction_on generalizing xs with
  | _ n ih =>
    subst h
    match xs, nonempty with
    | [x], _ => exact ⟨x, fun fuel _ => by cases fuel <;> rfl⟩
    | x :: y :: rest, _ =>
      have two : 2 ≤ (x :: y :: rest).length := by simp
      generalize x :: y :: rest = xs at two ih
      have half (ys : List α) (pos : 0 < ys.length) (fewer : ys.length < xs.length) := ih _ fewer ys (List.length_pos_iff.1 pos) rfl
      obtain ⟨a, left⟩ := half (xs.take ((xs.length + 1) / 2)) (by simp; omega) (by simp; omega)
      obtain ⟨b, right⟩ := half (xs.drop ((xs.length + 1) / 2)) (by simp; omega) (by simp; omega)
      refine ⟨combine a b, fun fuel fits => ?_⟩
      obtain ⟨fuel, rfl⟩ := Nat.exists_eq_succ_of_ne_zero (show fuel ≠ 0 by omega)
      exact treeFold_halves two (left _ (by simp; omega)) (right _ (by simp; omega))

end Sys2Proof.Machine

open Sys2Proof Sys2Proof.Machine

/-- Settles O32: the two halves have values of their own, which no further fuel changes. -/
theorem reductionTree : Obligations.ReductionTree := by
  intro combine fuel xs fits
  refine ⟨fun x single => ?_, fun two => ?_⟩
  · subst single
    cases fuel <;> rfl
  · have value (ys : List Node) (pos : 0 < ys.length) := treeFold_eq_some combine ys (List.length_pos_iff.1 pos)
    obtain ⟨a, left⟩ := value (xs.take ((xs.length + 1) / 2)) (by simp; omega)
    obtain ⟨b, right⟩ := value (xs.drop ((xs.length + 1) / 2)) (by simp; omega)
    obtain ⟨fuel, rfl⟩ := Nat.exists_eq_succ_of_ne_zero (show fuel ≠ 0 by omega)
    exact ⟨a, b, left _ (by simp), right _ (by simp), treeFold_halves two (left _ (by simp; omega)) (right _ (by simp; omega))⟩
end

section
/-! SUPPORT. The throttle's levels and the trip (O56). -/

namespace Sys2Proof.Machine

section
variable {l : Nat} {up down : Bool}

theorem moveLevel_up (low : l < 48) : moveLevel l true down = l + 1 := by
  simp only [moveLevel, if_true]
  omega

theorem moveLevel_down : moveLevel l false true = l - 1 := rfl

theorem moveLevel_stays : moveLevel l false false = l := rfl

/-- Within 0 to 48 a level moves by at most one, and stays there (R436). -/
theorem moveLevel_bounds (within : l ≤ 48) : moveLevel l up down ≤ 48 ∧ moveLevel l up down ≤ l + 1 ∧ l ≤ moveLevel l up down + 1 := by
  unfold moveLevel
  split
  · omega
  · split <;> omega

end

section
variable (w : Power) (estimateW : Nat) (temps : Vector Nat 32) (p : Fin 20)

/-- Some sensor outside the cores is at the throttle's temperature. -/
def Power.outsideHot : Bool := (List.range 32).any fun i => decide (20 ≤ i) && decide (w.tthrot ≤ temps[i]!)

theorem Power.outsideHot_iff : w.outsideHot temps = true ↔ ∃ i, 20 ≤ i ∧ i < 32 ∧ w.tthrot ≤ temps[i]! := by
  simp only [outsideHot, List.any_eq_true, List.mem_range, Bool.and_eq_true, decide_eq_true_eq]
  exact ⟨fun ⟨i, lt, le, hot⟩ => ⟨i, le, lt, hot⟩, fun ⟨i, le, lt, hot⟩ => ⟨i, lt, le, hot⟩⟩

theorem Power.throttle_g : (w.throttle estimateW temps).g =
    moveLevel w.g (decide (w.limitW < estimateW)) (decide (100 * estimateW < 98 * w.limitW)) := rfl

theorem Power.throttle_h : (w.throttle estimateW temps).h[p] =
    moveLevel w.h[p] (decide (w.tthrot ≤ temps[p.val]!) || w.outsideHot temps) (decide (temps[p.val]! + 2 ≤ w.tthrot)) :=
  Vector.getElem_ofFn p.isLt

/-- A core whose level falls waits for the regulator where the setpoint, or the voltage last measured, is low (R456). -/
theorem Power.throttle_raises : (w.throttle estimateW temps).raises[p] =
    if (decide (w.setMv < 800) || (w.regLink && decide (w.measMv < w.setMv)))
        && decide (max (w.throttle estimateW temps).g (w.throttle estimateW temps).h[p] < max w.g w.h[p]) then some false
    else w.raises[p] :=
  Vector.getElem_ofFn p.isLt

end

/-- A tick with no sensor at 108 degrees that neither enters nor leaves the throttle moves the levels and does nothing else. -/
theorem execThrottleTick_quiet {s : State} {estimateW : Nat} {temps : Vector Nat 32} (runs : s.pow.boot ≠ .tripped)
    (cool : ∀ i : Fin 32, temps[i] < 108) (same : s.pow.throttled = (s.pow.throttle estimateW temps).throttled) :
    execThrottleTick estimateW temps s = .next { s with pow := s.pow.throttle estimateW temps } := by
  have noTrip : (temps.toList.any fun t => decide (108 ≤ t)) = false := by
    simp only [List.any_eq_false, decide_eq_true_eq, Vector.mem_toList_iff, Vector.mem_iff_getElem]
    rintro t ⟨i, lt, rfl⟩
    exact Nat.not_le.2 (cool ⟨i, lt⟩)
  simp only [execThrottleTick, if_neg runs, noTrip, same]
  simp

/-- The trip loses the job and every switched domain, and keeps what is in flash and in the Scree tier (R438). -/
theorem State.trip_spec (s : State) : s.trip.pow.boot = .tripped ∧ s.trip.job = .empty ∧
    (∀ d : Fin 148, s.trip.pow.domains[d] = .off ∨ s.trip.pow.domains[d] = .fault) ∧ (∀ p : Fin 20, (s.trip.core p).v = none) ∧
    s.trip.pow.flash = s.pow.flash ∧ s.trip.mem.scree = s.mem.scree ∧
    ∃ text, s.trip.out = s.out ++ if s.pow.hLit then consoleFrames text else [] := by
  refine ⟨rfl, rfl, fun d => ?_, fun p => ?_, rfl, rfl, _, rfl⟩
  · have switched : s.trip.pow.domains[d] = if s.pow.domains[d] = .fault then .fault else .off := Vector.getElem_map _ d.isLt
    rw [switched]
    split <;> simp
  · simp [State.core, State.trip, Core.cleared]

end Sys2Proof.Machine

open Sys2Proof Sys2Proof.Machine

/-- Settles O56: the levels by the moves of one tick, the tick by what it reports, and the trip. -/
theorem throttle : Obligations.Throttle := by
  refine ⟨fun w estimateW temps hg hh => ?levels, fun s => ⟨fun estimateW temps tripped => ?tripped, fun estimateW temps imago cool same => ?tick,
    fun sensor temp hot runs => ?trip⟩⟩
  case levels =>
    have g := w.throttle_g estimateW temps
    have h := w.throttle_h estimateW temps
    have raises := w.throttle_raises estimateW temps
    dsimp only
    generalize w.throttle estimateW temps = u at g h raises ⊢
    refine ⟨g ▸ moveLevel_bounds hg, fun busy room => ?_, fun under => ?_, fun fits near => ?_, fun p falls low => ?_, fun p rises => ?_, fun p =>
      ⟨h p ▸ moveLevel_bounds (hh p), fun hot room => ?_, fun hot room => ?_, fun cool under => ?_⟩⟩
    · rw [g, decide_eq_true busy, moveLevel_up room]
    · rw [g, decide_eq_false (by omega), decide_eq_true under, moveLevel_down]
    · rw [g, decide_eq_false (by omega), decide_eq_false (by omega), moveLevel_stays]
    · rw [raises]
      simp only [Bool.and_eq_true, Bool.or_eq_true, decide_eq_true_eq]
      exact if_pos ⟨low, falls⟩
    · rw [raises]
      simp only [Bool.and_eq_true, decide_eq_true_eq]
      exact if_neg fun both => Nat.not_lt.2 rises both.2
    · rw [h, decide_eq_true hot, Bool.true_or, moveLevel_up room]
    · rw [h, (w.outsideHot_iff temps).2 hot, Bool.or_true, moveLevel_up room]
    · have outside : w.outsideHot temps = false := by
        rw [← Bool.not_eq_true, w.outsideHot_iff]
        rintro ⟨i, le, lt, hot⟩
        exact Nat.not_le.2 (cool i le lt) hot
      rw [h, outside, decide_eq_false (by omega), decide_eq_true under, Bool.or_false, moveLevel_down]
  case tripped => exact if_pos tripped
  case tick => exact execThrottleTick_quiet (by simp [imago]) cool same
  case trip =>
    exact ⟨_, if_neg (by simp [runs, hot]), State.trip_spec _⟩
end

section
/-! SUPPORT. A port after its update, and the flits, replay requests and retrains of a port that is up (O26). -/

namespace Sys2Proof.Machine

variable {s : State} {port : Fin 8}

@[simp] theorem State.charge_port (s : State) (b d1 d2 d3 n : Nat) : (s.charge b d1 d2 d3).port n = s.port n := rfl

@[simp] theorem State.port_modPort_self (s : State) (port : Fin 8) (f : Port → Port) :
    (s.modPort port.val f).port port.val = f (s.port port.val) := by
  rw [State.modPort_port, State.port_fin]

/-- A flit that came whole. -/
def goodFlit (check : FlitCheck) : Bool := check.crcOk && check.codewords == 0

theorem goodFlit_iff (crcOk : Bool) (codewords : Nat) : goodFlit ⟨crcOk, codewords⟩ = true ↔ crcOk = true ∧ codewords = 0 := by
  simp [goodFlit]

/-- Corrected symbols and uncorrectable codewords of a flit counted (R315). -/
def State.countFlit (s : State) (n codewords symbols : Nat) : State :=
  (s.modPort n fun q => { q with fec := q.fec + symbols, unc := q.unc + codewords }).charge (48 + n) symbols codewords 0

/-- R313. What becomes of a flit on a port that is up, once it is counted. -/
theorem execFlitReceive_up (up : (s.port port.val).state = .up) (seq : BitVec 12) (check : FlitCheck) (symbols : Nat) :
    execFlitReceive port seq check symbols s =
      if goodFlit check && seq = (s.port port.val).rxSeq then
        .next ((s.countFlit port.val check.codewords symbols).modPort port.val fun q => { q with rxSeq := q.rxSeq + 1, asking := false })
      else if (s.port port.val).asking && (goodFlit check || seq != (s.port port.val).rxSeq) then
        .next (s.countFlit port.val check.codewords symbols)
      else .next (((s.countFlit port.val check.codewords symbols).modPort port.val fun q => { q with asking := true }).emitPort port.val
        (.replayAsk port.val (s.port port.val).rxSeq)) := by
  simp only [execFlitReceive, if_neg (not_not_intro up), State.charge_port, State.port_modPort_self]
  rfl

/-- The replays of one flit in a row that a request for it brings (R313). -/
def Port.again (q : Port) (seq : BitVec 12) : Nat := if q.replays ≠ 0 ∧ q.replaySeq = seq then q.replays + 1 else 1

theorem execReplayRequest_up (up : (s.port port.val).state = .up) (seq : BitVec 12) :
    let t := ((s.modPort port.val fun q => { q with retry := q.retry + 1, replaySeq := seq, replays := (s.port port.val).again seq }).charge
      (56 + port.val) 1 0 0).emitPort port.val (.replaySend port.val ((s.port port.val).kept.dropWhile fun f => f.seq != seq))
    execReplayRequest port seq s = .next (if 64 ≤ (s.port port.val).again seq then t.retrain port.val else t) := by
  have again : (if (s.port port.val).replays ≠ 0 && (s.port port.val).replaySeq = seq then (s.port port.val).replays + 1 else 1) =
      (s.port port.val).again seq := by simp [Port.again]
  simp only [execReplayRequest, if_neg (not_not_intro up), State.charge_port, State.port_modPort_self, again]

theorem State.retrain_up (up : (s.port port.val).state = .up) : s.retrain port.val =
    (s.modPort port.val fun q => { q with state := .retraining, asking := false, replays := 0 }).charge (56 + port.val) 0 1 0 := if_pos up

end Sys2Proof.Machine

open Sys2Proof Sys2Proof.Machine

/-- Settles O26: the cases of a received flit, of a replay request, and the retrains. -/
theorem flitsArriveInOrder : Obligations.FlitsArriveInOrder := by
  intro s port n q up
  refine ⟨fun seq crcOk codewords symbols => ?flit, fun seq => ?replay, congrArg _ (State.retrain_up up), ?written⟩
  case flit =>
    have flit := execFlitReceive_up up seq ⟨crcOk, codewords⟩ symbols
    have whole := goodFlit_iff crcOk codewords
    have known (early : seq ≠ q.rxSeq) (asked : q.asking = true) : exec (.flitReceive port seq ⟨crcOk, codewords⟩ symbols) s =
        .next (s.countFlit n codewords symbols) :=
      flit.trans ((if_neg (by simp [early, q, n])).trans (if_pos (by simp [early, asked, q, n])))
    refine ⟨fun good due => flit.trans (if_pos ?due), fun _ => known, fun _ => known,
      fun out ask => flit.trans ((if_neg ?out).trans (if_neg ?ask))⟩
    case due => simp [whole.2 good, due, q, n]
    case out => simpa [whole] using out
    case ask => rcases ask with quiet | ⟨bad, due⟩ <;> simp_all [q, n]
  case replay =>
    have replay := execReplayRequest_up up seq
    exact ⟨fun few => replay.trans (congrArg _ (if_neg (Nat.not_le.2 few))), fun many => replay.trans (congrArg _ (if_pos many))⟩
  case written =>
    rw [exec_portRetrain, execPortRetrain, State.retrain_up up]
    split <;> rfl
end

section
/-! SUPPORT. What a training reaches (O27). -/

namespace Sys2Proof.Machine

/-- The lane groups of a mask, lowest first. -/
def lanesOf (mask : Nat) : List Nat := (List.range 4).filter fun g => bitAt mask g

/-- The first `k` groups of a mask are `k`, all of the mask's, and none of the mask's below one of them is left out. -/
theorem firstGroups_lowest (groups : BitVec 4) {k : Nat} (h : k ≤ (lanesOf groups.toNat).length) :
    (lanesOf (firstGroups groups.toNat k)).length = k ∧ ∀ g < 4, bitAt (firstGroups groups.toNat k) g = true →
      bitAt groups.toNat g = true ∧ ∀ h < g, bitAt groups.toNat h = true → bitAt (firstGroups groups.toNat k) h = true := by
  have all : ∀ groups : Fin 16, ∀ k ≤ (lanesOf groups).length,
      (lanesOf (firstGroups groups k)).length = k ∧ ∀ g < 4, bitAt (firstGroups groups k) g = true →
        bitAt groups g = true ∧ ∀ h < g, bitAt groups h = true → bitAt (firstGroups groups k) h = true := by decide
  exact all groups.toFin k h

/-- The groups that a training takes into use: those that trained, as far as max_width allows. -/
def Port.groupsUsed (q : Port) (t : TrainResult) : Nat := min (lanesOf t.groups.toNat).length (4 - q.maxWidth.toNat)

theorem Port.trainOutcome_eq (q : Port) (t : TrainResult) : q.trainOutcome t =
    if q.groupsUsed t = 0 then .inr (if q.state = .retraining then 4 else 1)
    else if min t.peerMax 3 < max t.peerMin (if q.v2Allow then 2 else 3) then .inr 2
    else .inl (firstGroups t.groups.toNat (q.groupsUsed t), min t.peerMax 3 == 3) := rfl

end Sys2Proof.Machine

open Sys2Proof Sys2Proof.Machine

/-- Settles O27: the three branches of the outcome, the last with the lowest groups that trained. -/
theorem trainingOutcome : Obligations.TrainingOutcome := by
  intro q t lo hi n k
  have outcome := q.trainOutcome_eq t
  refine ⟨fun noLane => outcome.trans (if_pos noLane), fun lanes apart => outcome.trans ((if_neg lanes).trans (if_pos apart)),
    fun lanes common => ⟨_, outcome.trans ((if_neg lanes).trans (if_neg (Nat.not_lt.2 common))), ?_⟩⟩
  exact firstGroups_lowest t.groups (Nat.min_le_left _ _)
end

section
/-! SUPPORT. The state after reset (O2). -/

namespace Sys2Proof.Machine

theorem State.cold_inv (fuses : Fuses) (flash : Flash) {scree host : Mem 8} (hs : scree.wf) (hh : host.wf) (poison : List Nat) (free : Nat) :
    (State.cold fuses flash scree host poison free).Inv :=
  ⟨MemSys.Sound.cold hs hh _ _, SoundCores.replicate holds_none, bounded_empty⟩

end Sys2Proof.Machine

open Sys2Proof Sys2Proof.Machine

/-- Settles O2: a cold start over memories in canonical form, and its values as the reset tables give them. -/
theorem resetIsSound : Obligations.ResetIsSound := by
  refine ⟨State.cold_inv _ _ (Mem.undefined_wf 0) Mem.zeroed_wf _ _, rfl, rfl, rfl, rfl, fun p => ?_, fun q => ?_⟩
  · simp [State.core, State.reset, State.cold, Core.cleared]
  · simp [State.reset, State.cold, Fabric.off, Port.off]
end

section
/-! SUPPORT. Field tests and forced ones (O37). -/

namespace Sys2Proof.Machine

variable {s : State} {p : Fin 20}

/-- R357. A test whose strands have halted and whose core has quiesced ends by the digest of its output. -/
theorem execFieldTestEnd_halted {s1 : State} {t : FieldTest} {v : VCore} (test : (s.core p).test = some t) (first : t.third = false)
    (resident : (s.core p).v = some v) (halted : v.liveStrands = []) (going : (s.core p).stopped = false) (drained : s.quiesced p = some s1) :
    let digest := sha256 (((s1.core p).v.map fun v => v.readTile 0 (natAt t.bytes 60 4)).getD [])
    execFieldTestEnd p s = .next (s1.endTest p t (if digest = sub t.bytes 28 32 then 1 else 2) digest) := by
  simp [execFieldTestEnd, test, resident, first, halted, going, drained]

theorem execFieldTestTimeout_running {t : FieldTest} (elapsedMs : Nat) (test : (s.core p).test = some t) : execFieldTestTimeout p elapsedMs s =
    .next (if t.third = false ∧ natAt t.bytes 20 4 < elapsedMs then s.endTest p t 3 [] else s) := by
  cases third : t.third
  · by_cases late : natAt t.bytes 20 4 < elapsedMs <;> simp [execFieldTestTimeout, test, third, late]
  · simp [execFieldTestTimeout, test, third]

theorem execForcedFieldTest_due {k : Package} {v : VCore} (due : s.dueOn p = some k) (resident : (s.core p).v = some v)
    (noTest : (s.core p).test = none) (free : (s.core p).stepHold = false) (live : s.jobLive = true) :
    execForcedFieldTest p s = .next (s.modCore p fun c => { c with stepHold := true }) := by
  simp [execForcedFieldTest, due, resident, noTest, free, live]

/-- R348. An arbitration comes before a forced test. -/
theorem State.forceTest_of_arbs (arbs : s.chk.arbs ≠ []) : s.forceTest p = s := if_pos (by simp [arbs])

/-- R359. With a spare idle, the virtual core moves there and the test runs in its place. -/
theorem State.forceTest_moves {k : Package} {v : VCore} {d : Fin 20} (noArbs : s.chk.arbs = []) (due : s.dueOn p = some k)
    (resident : (s.core p).v = some v) (spare : ((s.modCore p fun c => { c with stepHold := false }).pauseAll 2).idleSpare = some d) :
    s.forceTest p = (((s.modCore p fun c => { c with stepHold := false }).pauseAll 2).moveV p d .spare).startTest p k (some d.val) := by
  have due' : (s.modCore p fun c => { c with stepHold := false }).dueOn p = some k := due
  simp [State.forceTest, noArbs, due', resident, spare]

/-- R359. A core that has drained at the STEP of a forced test holds there. -/
def State.heldAtStep (s : State) (p : Fin 20) : State := s.modCore p fun c => { c with holdReq := .none, hold := .stepTest }

theorem execStepHoldReached_drained {s1 : State} (asked : (s.core p).holdReq = .stepTest) (live : s.jobLive = true)
    (drained : s.quiesced p = some s1) : execStepHoldReached p s = .next ((s1.heldAtStep p).forceTest p) := by
  simp [execStepHoldReached, asked, live, drained, State.heldAtStep]

end Sys2Proof.Machine

open Sys2Proof Sys2Proof.Machine

/-- Settles O37: the end of a test by digest or by time, and a forced test from its hold on. -/
theorem fieldTestsRun : Obligations.FieldTestsRun := by
  intro s p c
  refine ⟨fun t v s1 test first resident halted going drained => execFieldTestEnd_halted test first resident halted going drained,
    fun t elapsedMs test => execFieldTestTimeout_running elapsedMs test,
    fun k v due resident noTest free live => execForcedFieldTest_due due resident noTest free live, fun s1 asked live drained => ?_⟩
  have held := execStepHoldReached_drained asked live drained
  exact ⟨held, fun arbs => held.trans (congrArg _ (State.forceTest_of_arbs arbs)),
    fun k v d noArbs due resident spare => held.trans (congrArg _ (State.forceTest_moves noArbs due resident spare))⟩
end

section
/-! SUPPORT. Power domains (O57). -/

namespace Sys2Proof.Machine

variable {s : State} {d : Fin 148}

/-- A domain that is fused off or in FAULT takes no request (R434). -/
theorem State.domainRequest_refused (refuses : s.pow.fuses.off d.val = true ∨ s.pow.domains[d] = .fault) (on : Bool) :
    s.domainRequest d on = s := by
  have same : s.pow.request d on = s.pow := by
    have no : s.pow.domainOk d = false := by
      rcases refuses with fused | fault
      · simp [Power.domainOk, fused]
      · simp only [Power.domainOk, fault]
        simp
    simp [Power.request, no]
  unfold State.domainRequest
  rw [same]
  split <;> rfl

theorem Power.request_taken {w : Power} (powered : w.fuses.off d.val = false) (sound : w.domains[d] ≠ .fault) (on : Bool) :
    w.request d on = { w with domains := w.domains.set d (if on then w.domains[d].reqOn else w.domains[d].reqOff),
                              reqs := if on then w.reqs ||| BitVec.ofNat 148 (2 ^ d.val) else w.reqs &&& ~~~BitVec.ofNat 148 (2 ^ d.val) } := by
  have ok : w.domainOk d = true := by simp only [Power.domainOk, powered]; simpa using sound
  simp [Power.request, ok]

/-- What a request of 1 makes of a domain's state (Table 15.5). -/
def reqOnTable : List (DomState × DomState) :=
  [(.off, .poweringOn), (.poweringOn, .poweringOn), (.on, .on), (.poweringOff, .offPendingOn), (.offPendingOn, .offPendingOn),
    (.onPendingOff, .poweringOn)]

/-- What a request of 0 makes of a domain's state (Table 15.5). -/
def reqOffTable : List (DomState × DomState) :=
  [(.off, .off), (.poweringOn, .onPendingOff), (.on, .poweringOff), (.poweringOff, .poweringOff), (.offPendingOn, .poweringOff),
    (.onPendingOff, .onPendingOff)]

theorem reqOn_of_mem : ∀ r ∈ reqOnTable, r.1 ≠ .fault ∧ r.1.reqOn = r.2 := by decide

theorem reqOff_of_mem : ∀ r ∈ reqOffTable, r.1 ≠ .fault ∧ r.1.reqOff = r.2 := by decide

/-- The sequence in progress at a domain ends; with its power gone, so is what it held (R434). -/
theorem execDomainSequenceEnd_of {x : DomState} (stands : s.pow.domains[d] = x) : execDomainSequenceEnd d s =
    .next (if x = .poweringOff || x = .offPendingOn then (s.setDomain d x.seqEnd).domainLost d.val else s.setDomain d x.seqEnd) := by
  subst stands
  rfl

theorem execDomainFault_rising (rising : s.pow.domains[d] = .poweringOn ∨ s.pow.domains[d] = .onPendingOff) :
    let t := (s.setDomain d .fault).post 0x0F03 (bytesOf 2 d.val ++ bytesOf 1 (if d.val < 80 then d.val / 4 else 0xFF))
    execDomainFault d s = .next (if d.val < 80 then t.retireCore (Fin.ofNat 20 (d.val / 4)) 4 else t) := by
  have rises : (decide (s.pow.domains[d] = .poweringOn) || decide (s.pow.domains[d] = .onPendingOff)) = true := by simpa using rising
  simp only [execDomainFault, if_pos rises, decide_eq_true_eq]

end Sys2Proof.Machine

open Sys2Proof Sys2Proof.Machine

/-- Settles O57: Table 15.5 row by row, for both requests and for the end of a sequence. -/
theorem powerDomainsFollowTable : Obligations.PowerDomainsFollowTable := by
  intro s d x
  refine ⟨fun refuses => ⟨congrArg _ (State.domainRequest_refused refuses true), congrArg _ (State.domainRequest_refused refuses false)⟩,
    fun powered => ⟨fun y row => ?on, fun y row => ⟨fun idle => ?off, fun needed => ?needed⟩⟩, execDomainSequenceEnd_of, execDomainSequenceEnd_of,
    execDomainSequenceEnd_of, execDomainSequenceEnd_of, execDomainFault_rising⟩
  case on =>
    obtain ⟨sound, next⟩ := reqOn_of_mem _ row
    have taken := Power.request_taken powered sound true
    rw [if_pos rfl, if_pos rfl, next] at taken
    exact congrArg (fun w => Host.Outcome.next { s with pow := w }) taken
  case off =>
    obtain ⟨sound, next⟩ := reqOff_of_mem _ row
    have taken := Power.request_taken powered sound false
    rw [if_neg Bool.false_ne_true, if_neg Bool.false_ne_true, next] at taken
    have request : s.domainRequest d false = { s with pow := s.pow.request d false } := if_neg (by simp [idle])
    exact congrArg Host.Outcome.next (request.trans (by rw [taken]))
  case needed => exact congrArg Host.Outcome.next (if_pos (by simp [needed]))
end

section
/-! SUPPORT. The update of a Cairn bucket (O36). -/

namespace Sys2Proof.Machine

/-- The warning state of a bucket at a level: set at WARN, cleared below half of it, else as it was (R352). -/
def Bucket.warns (k : Bucket) (level : Word) : Bool :=
  if !(flushed level).lt (flushed k.warn) then true
  else if ((flushed level).add (flushed level)).lt (flushed k.warn) then false else k.warning

/-- An update of an enabled bucket changes its level, its two states and the events that it has taken, and nothing else. -/
theorem Bucket.update_enabled {k : Bucket} {b : Nat} (enabled : k.enable = true) (used : b < 85) : ∃ level, k.update b =
    { k with level, warning := k.warns level, failed := k.failed || !(flushed level).lt (flushed k.fail), d1 := 0, d2 := 0, d3 := 0 } := by
  have updates : ¬ ((!k.enable || decide (85 ≤ b)) = true) := by simp [enabled, used]
  exact ⟨_, if_neg updates⟩

theorem Bucket.warns_at {k : Bucket} {level : Word} (reached : (flushed level).lt (flushed k.warn) = false) : k.warns level = true := by
  simp [warns, reached]

theorem Bucket.warns_below_half {k : Bucket} {level : Word} (below : (flushed level).lt (flushed k.warn) = true)
    (half : ((flushed level).add (flushed level)).lt (flushed k.warn) = true) : k.warns level = false := by
  simp [warns, below, half]

theorem Bucket.warns_between {k : Bucket} {level : Word} (below : (flushed level).lt (flushed k.warn) = true)
    (half : ((flushed level).add (flushed level)).lt (flushed k.warn) = false) : k.warns level = k.warning := by
  simp [warns, below, half]

end Sys2Proof.Machine

open Sys2Proof Sys2Proof.Machine

/-- Settles O36: the tick and the hourly save as they are defined, and the states that an update of a bucket leaves. -/
theorem cairnBuckets : Obligations.CairnBuckets := by
  refine ⟨fun s => ⟨rfl, rfl⟩, fun k b enabled used => ?_⟩
  obtain ⟨level, updated⟩ := Bucket.update_enabled enabled used
  intro n x
  have hx : x = flushed level := by simp only [x, n, updated]
  have hn : n = k.update b := rfl
  rw [hx, hn, updated]
  exact ⟨⟨rfl, rfl, rfl⟩, ⟨rfl, rfl, rfl, rfl, rfl, rfl, enabled⟩, by simp, Bucket.warns_at, Bucket.warns_below_half, Bucket.warns_between⟩
end

section
/-! SUPPORT. Where a received packet goes (O29). -/

namespace Sys2Proof.Machine

section
variable (s : State) (packet : List Byte) (port : Fin 8)

/-- The packet's job runs on the device. -/
def State.runsPacket : Prop := (s.job.state = .running ∨ s.job.state = .paused) ∧ natAt packet 8 4 = s.job.id.toNat

/-- A control-plane message of a reserved kind (R336). -/
def reservedKind : Prop := natAt packet 0 1 % 16 = pktControl ∧ (natAt packet 32 1 = 0 ∨ 6 ≤ natAt packet 32 1)

/-- A packet that a port does not let in: the port is not up, or the buffer for its data is full (R326). -/
def State.shuts : Prop := (s.port port.val).state ≠ .up ∨
  (onData packet = true ∧ s.fab.rxRoom port.val (bitsAt (natAt packet 0 1) 4 2) = false)

/-- A packet of no job that runs here, of a type that needs one. -/
def State.foreign : Prop := ¬ s.runsPacket packet ∧ natAt packet 0 1 % 16 ≠ pktControl ∧ natAt packet 0 1 % 16 ≠ pktCheckpoint

/-- The packet dropped and counted at its port. -/
def State.dropped : State := s.modPort port.val fun q => { q with drop := q.drop + 1 }

/-! ### The model's tests -/

theorem State.shuts_iff : (decide ((s.port port.val).state ≠ .up) ||
    (onData packet && !s.fab.rxRoom port.val (bitsAt (natAt packet 0 1) 4 2))) = true ↔ s.shuts packet port := by
  simp [shuts]

theorem State.foreign_iff : (!((decide (s.job.state = .running) || decide (s.job.state = .paused)) && natAt packet 8 4 == s.job.id.toNat)
    && natAt packet 0 1 % 16 != pktControl && natAt packet 0 1 % 16 != pktCheckpoint) = true ↔ s.foreign packet := by
  rw [Bool.and_eq_true, Bool.and_eq_true, Bool.not_eq_true', ← Bool.not_eq_true, bne_iff_ne, bne_iff_ne, and_assoc]
  simp [foreign, runsPacket]

theorem reservedKind_iff : (decide (natAt packet 0 1 % 16 = pktControl) && (natAt packet 32 1 == 0 || decide (6 ≤ natAt packet 32 1))) = true ↔
    reservedKind packet := by
  simp [reservedKind]

theorem opens_iff (q : Port) : (q.live && (!needsV3 packet || q.v3)) = true ↔
    (q.state = .up ∨ q.state = .retraining) ∧ (needsV3 packet = true → q.v3 = true) := by
  cases needsV3 packet <;> simp [Port.live]

/-! ### Where a packet goes -/

variable {s packet port}

theorem execPacketReceive_shut (shut : s.shuts packet port) : execPacketReceive port packet s = .next s :=
  if_pos ((s.shuts_iff packet port).2 shut)

section
variable (comes : ¬ s.shuts packet port)
include comes

theorem execPacketReceive_bad (bad : headerOk packet = false) : execPacketReceive port packet s = .next (s.dropped port) :=
  (if_neg ((s.shuts_iff packet port).not.2 comes)).trans (if_pos (by simp [bad]))

variable (header : headerOk packet = true)
include header

theorem execPacketReceive_foreign (foreign : s.foreign packet) : execPacketReceive port packet s = .next (s.dropped port) :=
  (if_neg ((s.shuts_iff packet port).not.2 comes)).trans ((if_neg (by simp [header])).trans (if_pos ((s.foreign_iff packet).2 foreign)))

variable (takes : ¬ s.foreign packet)
include takes

theorem execPacketReceive_reserved (reserved : reservedKind packet) : execPacketReceive port packet s =
    .next (if s.freshCtl port.val (ctlOf (packet.drop 32)) then
      { s with fab := { s.fab.remember (ctlOf (packet.drop 32)).origin.toNat (ctlOf (packet.drop 32)).seq with
                          noticeDrops := s.fab.noticeDrops + 1 } }
      else s) :=
  (if_neg ((s.shuts_iff packet port).not.2 comes)).trans ((if_neg (by simp [header])).trans ((if_neg ((s.foreign_iff packet).not.2 takes)).trans
    (if_pos ((reservedKind_iff packet).2 reserved))))

variable (known : ¬ reservedKind packet)
include known

theorem execPacketReceive_own (own : natAt packet 2 2 = s.ownAddr.toNat) : execPacketReceive port packet s = .next s :=
  (if_neg ((s.shuts_iff packet port).not.2 comes)).trans ((if_neg (by simp [header])).trans ((if_neg ((s.foreign_iff packet).not.2 takes)).trans
    ((if_neg ((reservedKind_iff packet).not.2 known)).trans (if_pos own))))

variable (away : natAt packet 2 2 ≠ s.ownAddr.toNat)
include away

theorem execPacketReceive_no_route (noHop : s.fab.nextPort s.ownAddr.toNat (natAt packet 2 2) (natAt packet 1 1 % 8) = none) :
    execPacketReceive port packet s = .next (s.dropped port) :=
  (if_neg ((s.shuts_iff packet port).not.2 comes)).trans ((if_neg (by simp [header])).trans ((if_neg ((s.foreign_iff packet).not.2 takes)).trans
    ((if_neg ((reservedKind_iff packet).not.2 known)).trans ((if_neg away).trans (by rw [noHop]; rfl)))))

theorem execPacketReceive_routed {next : Nat} (hop : s.fab.nextPort s.ownAddr.toNat (natAt packet 2 2) (natAt packet 1 1 % 8) = some next) :
    execPacketReceive port packet s = if (s.port next).live && (!needsV3 packet || (s.port next).v3) then
      .next (s.sendPackets (some next) (needsV3 packet) (some port.val) [s.fab.onHop s.ownAddr.toNat next packet]) else .next (s.dropped port) :=
  (if_neg ((s.shuts_iff packet port).not.2 comes)).trans ((if_neg (by simp [header])).trans ((if_neg ((s.foreign_iff packet).not.2 takes)).trans
    ((if_neg ((reservedKind_iff packet).not.2 known)).trans ((if_neg away).trans (by rw [hop]; rfl)))))

end

end

/-! ### One packet on its port -/

variable {s : State} {n : Nat} {p : List Byte} {v3 : Bool} {arrival : Option Nat}

theorem State.sendPackets_goes (open_ : ¬ (s.portWaits n = true ∨ (s.port n).starved = true ∧ onData p = true)) :
    let sent := if (s.port n).v3 then p else asV2 p
    s.sendPackets (some n) v3 arrival [p] =
      { s with fab := { s.fab with ports := s.fab.ports.set! n ((s.port n).number (Config.flitBodies sent)) },
               out := s.out ++ [.packets (some n) [sent]] } := by
  have goes : ¬ ((s.portWaits n || ((s.fab.ports[n]!).starved && [p].any onData)) = true) := by simpa [State.port] using open_
  refine (if_neg goes).trans ?_
  cases version : (s.fab.ports[n]!).v3 <;> simp [State.linkOut, State.modPort, State.port, version]

theorem State.sendPackets_waits (waits : s.portWaits n = true ∨ (s.port n).starved = true ∧ onData p = true) :
    s.sendPackets (some n) v3 arrival [p] =
      { s with fab := { s.fab with ports := s.fab.ports.set! n { s.port n with sendq := (s.port n).sendq ++ [⟨p, v3, arrival⟩] } } } :=
  if_pos (by simpa [State.port] using waits)

end Sys2Proof.Machine

open Sys2Proof Sys2Proof.Machine

/-- Settles O29: each test of a received packet in turn, then its next hop. -/
theorem packetsAreRouted : Obligations.PacketsAreRouted := by
  intro s port packet drop own dst type runs full reserved ctl
  refine ⟨execPacketReceive_shut, fun up room => ?_⟩
  have comes : ¬ s.shuts packet port := fun shut => shut.elim (fun down => down up) room
  refine ⟨fun header kind => ?reserved, execPacketReceive_bad comes, fun header foreign control checkpoint =>
    execPacketReceive_foreign comes header ⟨foreign, control, checkpoint⟩, fun header mine known own => ?own, fun header mine known away => ?away⟩
  case reserved =>
    have counted := execPacketReceive_reserved comes header (fun foreign => foreign.2.1 kind.1) kind
    exact ⟨fun fresh => counted.trans (congrArg _ (if_pos fresh)),
      fun known => counted.trans (congrArg _ (if_neg (Bool.eq_false_iff.1 known)))⟩
  all_goals
    have takes : ¬ s.foreign packet := fun ⟨foreign, control, checkpoint⟩ => mine.elim foreign fun needsNone => needsNone.elim control checkpoint
  case own => exact execPacketReceive_own comes header takes known own
  case away =>
    refine ⟨execPacketReceive_no_route comes header takes known away, fun next hop => ?_⟩
    have routed := execPacketReceive_routed comes header takes known away hop
    exact ⟨fun shut => routed.trans (if_neg ((opens_iff packet _).not.2 shut)),
      fun opens free => routed.trans ((if_pos ((opens_iff packet _).2 opens)).trans (congrArg _ (State.sendPackets_goes free))),
      fun opens waits => routed.trans ((if_pos ((opens_iff packet _).2 opens)).trans (congrArg _ (State.sendPackets_waits waits)))⟩
end

section
/-! SUPPORT. Ports that train, fail and exchange heartbeats (O28). -/

namespace Sys2Proof.Machine

variable {s : State} {port : Fin 8}

/-! ### One update of several ports -/

theorem State.modPort_ports_eq (s : State) (m : Nat) (a : Fin 8) (f : Port → Port) :
    (s.modPort m f).fab.ports[a] = if m = a.val then f s.fab.ports[a] else s.fab.ports[a] := by
  by_cases h : m = a.val
  · subst h
    simp [modPort]
  · simp [modPort, h]

theorem State.modPort_fin (s : State) (a : Fin 8) (f : Port → Port) :
    s.modPort a.val f = { s with fab := { s.fab with ports := s.fab.ports.set a (f s.fab.ports[a]) } } := by
  have same : s.fab.ports.set! a.val (f s.fab.ports[a]) = s.fab.ports.set a (f s.fab.ports[a]) := by
    ext i hi
    simp [Vector.set!_eq_setIfInBounds, Vector.getElem_setIfInBounds, Vector.getElem_set]
  rw [modPort, Fabric.ports_fin, same]

/-- The ports named in a list changed in turn. -/
def State.modPorts (s : State) (ms : List Nat) (f : Port → Port) : State := ms.foldl (fun (s : State) m => s.modPort m f) s

theorem State.modPorts_out (s : State) (ms : List Nat) (f : Port → Port) : (s.modPorts ms f).out = s.out := by
  induction ms generalizing s with
  | nil => rfl
  | cons m ms ih => exact ih _

theorem State.modPorts_heartbeats (s : State) (ms : List Nat) (f : Port → Port) : (s.modPorts ms f).fab.heartbeats = s.fab.heartbeats := by
  induction ms generalizing s with
  | nil => rfl
  | cons m ms ih => exact ih _

theorem State.modPorts_ports {ms : List Nat} (nodup : ms.Nodup) (s : State) (a : Fin 8) (f : Port → Port) :
    (s.modPorts ms f).fab.ports[a] = if a.val ∈ ms then f s.fab.ports[a] else s.fab.ports[a] := by
  induction ms generalizing s with
  | nil => rfl
  | cons m ms ih =>
    obtain ⟨fresh, nodup⟩ := List.nodup_cons.1 nodup
    refine (ih nodup (s.modPort m f)).trans ?_
    rw [State.modPort_ports_eq]
    by_cases h : m = a.val
    · subst h
      simp [fresh]
    · simp [h, Ne.symm h]

/-- One more packet dropped for each mention of a port. -/
theorem State.modPorts_drop (s : State) (ms : List Nat) (a : Fin 8) :
    (s.modPorts ms fun q => { q with drop := q.drop + 1 }).fab.ports[a] =
      { s.fab.ports[a] with drop := s.fab.ports[a].drop + ms.count a.val } := by
  induction ms generalizing s with
  | nil => rfl
  | cons m ms ih =>
    refine (ih _).trans ?_
    rw [State.modPort_ports_eq]
    by_cases h : m = a.val
    · simp [h]
      omega
    · simp [h]

/-! ### What waits at a port -/

theorem State.dropWaiting_ports (s : State) (n : Fin 8) (lost : Waiting → Bool) (a : Fin 8) : (s.dropWaiting n.val lost).fab.ports[a] =
    { s.fab.ports[a] with
      sendq := if n = a then s.fab.ports[a].sendq.filter (fun w => !lost w) else s.fab.ports[a].sendq
      drop := s.fab.ports[a].drop + (((s.port n.val).sendq.filter lost).filterMap (·.arrival)).count a.val } := by
  refine (State.modPorts_drop _ _ a).trans ?_
  rw [State.modPort_ports_eq]
  by_cases h : n = a
  · simp [h, State.port]
  · simp [h, Fin.val_ne_of_ne h, State.port]

theorem count_filterMap_arrival (ws : List Waiting) (a : Nat) :
    (ws.filterMap (·.arrival)).count a = (ws.filter fun w => w.arrival == some a).length := by
  rw [← List.countP_eq_length_filter, List.count, List.countP_filterMap]
  congr 1
  funext w
  cases w.arrival <;> simp

theorem State.flushPort_goes {n : Nat} (free : s.portWaits n = false) (credit : (s.port n).starved = false) (waiting : (s.port n).sendq ≠ []) :
    let go := (s.port n).sendq.map (·.packet)
    s.flushPort n = (s.modPort n fun q => { q with sendq := [] }).linkOut n
      (go.filter isCheckpoint ++ go.filter fun p => !isCheckpoint p) := by
  unfold State.port at *
  simp [State.flushPort, free, credit, waiting]

theorem State.flushPort_waits {n : Nat} (waits : s.portWaits n = true) : s.flushPort n = s := if_pos (by simp [waits])

/-! ### Enable, disable and loss (R319, R335) -/

theorem execPortTrained_ends (ends : (s.port port.val).state = .training ∨ (s.port port.val).state = .retraining) (result : TrainResult) :
    execPortTrained port result s = .next (s.trainPort port.val result) := if_pos (by simpa using ends)

theorem State.trainPort_down {n reason : Nat} {t : TrainResult}
    (fails : (s.port n).trainOutcome { t with groups := t.groups &&& s.pow.litGroups n } = .inr reason) :
    s.trainPort n t = s.markDown n reason := by
  rw [trainPort, fails]

theorem State.trainPort_up {n groups : Nat} {v3 : Bool} {t : TrainResult}
    (reached : (s.port n).trainOutcome { t with groups := t.groups &&& s.pow.litGroups n } = .inl (groups, v3)) :
    let k := ((List.range 4).filter fun g => bitAt groups g).length
    let s1 := s.modPort n fun q =>
      { q with state := .up, width := BitVec.ofNat 2 (4 - k), v3, degraded := decide (k < 4), reason := 0,
               groups := BitVec.ofNat 4 groups, rxSeq := 0, txSeq := 0, kept := [], replaySeq := 0, asking := false, replays := 0,
               missed := if q.monitored then q.missed else 0, monitored := true, starved := false }
    let s2 := (s1.dropWaiting n fun w => !v3 && w.v3).flushPort n
    s.trainPort n t = ((s2.notice n).postPort n).checkReach := by
  rw [trainPort, reached]

theorem execPortEnable_trains (disabled : (s.port port.val).enable = false) (used : s.fab.usesPort port.val = true)
    (idle : (s.port port.val).state = .off ∨
      ((s.port port.val).state = .down ∧ (s.pow.boot = .imago → s.jobReaches port.val = false))) :
    execPortEnable port s = .next
      (s.modPort port.val fun q => { q with enable := true, state := .training, reason := 0, monitored := false }) := by
  rcases idle with off | ⟨down, free⟩
  · simp [execPortEnable, disabled, used, off]
  · by_cases imago : s.pow.boot = .imago
    · simp [execPortEnable, disabled, used, down, free imago]
    · simp [execPortEnable, disabled, used, down, imago]

theorem execPortEnable_stays (stays : (s.port port.val).enable = true ∨
    ((s.port port.val).state = .down ∧ s.pow.boot = .imago ∧ s.jobReaches port.val = true)) : execPortEnable port s = .next s :=
  if_pos (by simpa [and_assoc] using stays)

theorem execPortDisable_enabled (enabled : (s.port port.val).enable = true) :
    execPortDisable port s = .next (if (s.port port.val).state = .off ∨ (s.port port.val).state = .down
      then s.modPort port.val fun q => { q with enable := false }
      else (s.modPort port.val fun q => { q with enable := false }).markDown port.val 5) := by
  simp [execPortDisable, enabled]

theorem execHeartbeatLoss_eq : execHeartbeatLoss port s =
    .next (if (s.port port.val).monitored && (s.port port.val).live && decide (8 ≤ (s.port port.val).missed)
      then s.markDown port.val 3 else s) := by
  unfold execHeartbeatLoss
  dsimp only
  split <;> rfl

/-! ### Heartbeats (R335) -/

/-- The ports that send a heartbeat. -/
def State.beating (s : State) : List Nat := (List.range 8).filter fun n => (s.port n).state == .up && s.shines n

/-- The heartbeats have gone out on the ports that send one. -/
def State.beatsOut (s : State) : State :=
  { s with out := s.out ++ s.beating.map fun n => OutMsg.heartbeat n s.ownAddr s.beatState (s.fab.heartbeats % 4294967296) }

/-- A port whose link layer has numbered and kept a heartbeat (R313). -/
def State.beatPort (s : State) (q : Port) : Port := q.number [beatBody s.ownAddr.toNat s.beatState (s.fab.heartbeats % 4294967296)]

/-- One more silent period of a port that is monitored and live. -/
def Port.silent (q : Port) : Port := if q.monitored && q.live then { q with missed := min 8 (q.missed + 1) } else q

theorem execHeartbeatSend_spec (s : State) : ∃ t, execHeartbeatSend s = .next t ∧ t.out = s.beatsOut.out ∧
    t.fab.heartbeats = s.fab.heartbeats + 1 ∧ ∀ n : Fin 8, t.fab.ports[n] =
      (if (s.fab.ports[n].state == .up && s.shines n.val) = true then s.beatPort s.fab.ports[n] else s.fab.ports[n]).silent := by
  refine ⟨_, rfl, s.beatsOut.modPorts_out s.beating s.beatPort,
    congrArg (· + 1) (s.beatsOut.modPorts_heartbeats s.beating s.beatPort), fun n => ?_⟩
  refine (Vector.getElem_map Port.silent n.isLt).trans (congrArg Port.silent ?_)
  refine (State.modPorts_ports (List.nodup_range.filter _) s.beatsOut n s.beatPort).trans ?_
  have beats : n.val ∈ s.beating ↔ (s.fab.ports[n].state == .up && s.shines n.val) = true := by
    simp [State.beating, State.port_fin]
  simp only [← beats]
  rfl

theorem execHeartbeatReceive_up (up : s.fab.ports[port].state = .up) (neighbour : BitVec 15) (state : BitVec 2) (count : Word) :
    execHeartbeatReceive port neighbour state count s = .next { s with fab := { s.fab with
      ports := s.fab.ports.set port { s.fab.ports[port] with neighbour, nstate := state, missed := 0 } } } := by
  rw [← State.port_fin] at up
  refine (if_neg (not_not_intro up)).trans ?_
  rw [State.modPort_fin]

end Sys2Proof.Machine

open Sys2Proof Sys2Proof.Machine

/-- Settles O28: the end of a training, enable and disable, loss, what waits at a port, and heartbeats. -/
theorem portsTrainAndFail : Obligations.PortsTrainAndFail := by
  refine ⟨fun s port => ?port, fun s => ⟨execHeartbeatSend_spec s, fun port neighbour state count =>
    ⟨fun up => execHeartbeatReceive_up up neighbour state count, fun down => ?dark⟩⟩⟩
  case dark =>
    rw [← State.port_fin] at down
    exact if_pos down
  case port =>
    intro n q
    refine ⟨fun result ends => ?trained, fun disabled used => ⟨execPortEnable_trains disabled used, fun down imago reaches =>
        execPortEnable_stays (.inr ⟨down, imago, reaches⟩)⟩, fun enabled => ⟨execPortEnable_stays (.inl enabled), ?disable⟩,
      fun disabled => if_pos (by rw [disabled]; rfl), fun monitored live silent => ?lost, fun heard => ?heard, fun lost => ?dropped,
      State.flushPort_goes, State.flushPort_waits⟩
    case trained =>
      have ended := execPortTrained_ends ends result
      exact ⟨fun reason fails => ended.trans (congrArg _ (State.trainPort_down fails)),
        fun groups v3 reached => ended.trans (congrArg _ (State.trainPort_up reached))⟩
    case disable =>
      have disabled := execPortDisable_enabled enabled
      exact ⟨fun on up => disabled.trans (congrArg _ (if_neg (not_or.2 ⟨on, up⟩))), fun idle => disabled.trans (congrArg _ (if_pos idle))⟩
    case lost => exact execHeartbeatLoss_eq.trans (congrArg _ (if_pos (by simpa [Port.live] using ⟨⟨monitored, live⟩, silent⟩)))
    case heard => exact execHeartbeatLoss_eq.trans (congrArg _ (if_neg (by simpa using fun _ _ => heard)))
    case dropped =>
      refine ⟨?_, fun a => ?_⟩
      · rw [State.port_fin, State.dropWaiting_ports]
        simp [q, n, State.port_fin]
      · rw [State.dropWaiting_ports, count_filterMap_arrival]
end

section
/-! SUPPORT. What firmware does with a UMP command, row by row (O46). -/

namespace Sys2Proof.Machine

/-! ### The turn of a mailbox (R401 to R403) -/

section
variable {s : State} {mbx : Fin 9} {mine : Nat → Bool} {act : State → List Byte → Reply}

theorem State.runUmp_not_serving (rests : s.serves = false) : s.runUmp mbx mine act = .next s := if_pos (by simp [rests])

variable (serves : s.serves = true)
include serves

theorem State.runUmp_none (idle : s.nextCmd = none) : s.runUmp mbx mine act = .next s := by
  simp [State.runUmp, serves, idle]

theorem State.runUmp_other {h : Held} (next : s.nextCmd = some h) (other : h.mbx ≠ mbx.val ∨ mine h.op = false) :
    s.runUmp mbx mine act = .next s := by
  simp only [State.runUmp, serves, next]
  rcases other with box | opcode
  · simp [box]
  · simp [opcode]

theorem State.runUmp_refused {h : Held} {status : Nat} (next : s.nextCmd = some h) (box : h.mbx = mbx.val) (takes : mine h.op = true)
    (refused : s.precheck h = some status) : s.runUmp mbx mine act = .next (s.complete h status []) := by
  simp [State.runUmp, serves, next, box, takes, refused]

end

/-! ### Each command is a row of its own opcode (Table 14.10) -/

/-- The commands of Table 14.10 for a mailbox, each with its opcode. -/
def umpRows (mbx : Fin 9) : List (Nat × Instr) :=
  [(0x01, .identify mbx), (0x02, .hello mbx), (0x03, .caps mbx), (0x10, .fwStage mbx), (0x11, .fwActivate mbx),
    (0x12, .attest mbx), (0x20, .jobCreate mbx), (0x21, .jobLoad mbx), (0x22, .regionBind mbx), (0x23, .jobStart mbx),
    (0x24, .jobPause mbx), (0x25, .jobResume mbx), (0x26, .jobAbort mbx), (0x30, .ckptRequest mbx), (0x31, .ckptStatus mbx),
    (0x32, .restore mbx), (0x40, .testPush mbx), (0x41, .testStatus mbx), (0x50, .telemetry mbx), (0x51, .logRead mbx),
    (0x52, .powerPolicy mbx), (0x53, .linkStatus mbx), (0x54, .coreRetire mbx), (0x60, .debugAttach mbx)]

theorem exec_umpRow (mbx : Fin 9) : ∀ row ∈ umpRows mbx, ∃ act, ∀ s, exec row.2 s = s.runUmp mbx (· == row.1) act := by
  simp only [umpRows, List.forall_mem_cons]
  exact ⟨⟨_, fun s => by rw [exec_identify, execIdentify]⟩, ⟨_, fun s => by rw [exec_hello, execHello]⟩,
    ⟨_, fun s => by rw [exec_caps, execCaps]⟩, ⟨_, fun s => by rw [exec_fwStage, execFwStage]⟩,
    ⟨_, fun s => by rw [exec_fwActivate, execFwActivate]⟩, ⟨_, fun s => by rw [exec_attest, execAttest]⟩,
    ⟨_, fun s => by rw [exec_jobCreate, execJobCreate]⟩, ⟨_, fun s => by rw [exec_jobLoad, execJobLoad]⟩,
    ⟨_, fun s => by rw [exec_regionBind, execRegionBind]⟩, ⟨_, fun s => by rw [exec_jobStart, execJobStart]⟩,
    ⟨_, fun s => by rw [exec_jobPause, execJobPause]⟩, ⟨_, fun s => by rw [exec_jobResume, execJobResume]⟩,
    ⟨_, fun s => by rw [exec_jobAbort, execJobAbort]⟩, ⟨_, fun s => by rw [exec_ckptRequest, execCkptRequest]⟩,
    ⟨_, fun s => by rw [exec_ckptStatus, execCkptStatus]⟩, ⟨_, fun s => by rw [exec_restore, execRestore]⟩,
    ⟨_, fun s => by rw [exec_testPush, execTestPush]⟩, ⟨_, fun s => by rw [exec_testStatus, execTestStatus]⟩,
    ⟨_, fun s => by rw [exec_telemetry, execTelemetry]⟩, ⟨_, fun s => by rw [exec_logRead, execLogRead]⟩,
    ⟨_, fun s => by rw [exec_powerPolicy, execPowerPolicy]⟩, ⟨_, fun s => by rw [exec_linkStatus, execLinkStatus]⟩,
    ⟨_, fun s => by rw [exec_coreRetire, execCoreRetire]⟩, ⟨_, fun s => by rw [exec_debugAttach, execDebugAttach]⟩, List.forall_mem_nil _⟩

end Sys2Proof.Machine

open Sys2Proof Sys2Proof.Machine

/-- Settles O46: every row of Table 14.10 runs through the same checks. -/
theorem commandsAreTurnedAway : Obligations.CommandsAreTurnedAway := by
  intro s mbx op i row
  obtain ⟨act, run⟩ := exec_umpRow mbx (op, i) row
  refine ⟨fun rests => ?_, fun serves idle => ?_, fun h serves next other => ?_, fun h status serves next box opcode refused => ?_,
    fun h serves next box unknown refused => ?_⟩
  · exact (run s).trans (State.runUmp_not_serving rests)
  · exact (run s).trans (State.runUmp_none serves idle)
  · exact (run s).trans (State.runUmp_other serves next (other.imp_right fun ne => by simpa using ne))
  · exact (run s).trans (State.runUmp_refused serves next box (by simp [opcode]) refused)
  · rw [exec_unknownOpcode, execUnknownOpcode]
    exact State.runUmp_refused serves next box (by simpa using unknown) refused
end

section
/-! SUPPORT. Identity, firmware and attestation commands (O47). -/

namespace Sys2Proof.Machine

variable {s : State} {mbx : Fin 9} {h : Held}

/-- A command that firmware takes and that completes. -/
theorem State.runUmp_done {op : Nat} {mine : Nat → Bool} {act : State → List Byte → Reply} {u : State} {status : Nat} {resp : List Byte}
    (takes : s.Takes mbx op h) (row : mine op = true) (done : act s h.payload = .done u status resp) :
    s.runUmp mbx mine act = .next (u.complete h status resp) := by
  rw [State.runUmp_takes takes row, done]

theorem execIdentify_takes (takes : s.Takes mbx 0x01 h) : execIdentify mbx s = .next (s.complete h 0 s.idBlock) :=
  State.runUmp_done takes rfl rfl

theorem execCaps_takes (takes : s.Takes mbx 0x03 h) : execCaps mbx s = .next (s.complete h 0 s.caps) :=
  State.runUmp_done takes rfl rfl

theorem execHello_refuses (takes : s.Takes mbx 0x02 h) (apart : min (natAt h.payload 2 2) 0x0203 < max (natAt h.payload 0 2) 0x0200) :
    execHello mbx s = .next (s.complete h 4 []) :=
  State.runUmp_done takes rfl (if_pos apart)

theorem execHello_agrees (takes : s.Takes mbx 0x02 h) (common : max (natAt h.payload 0 2) 0x0200 ≤ min (natAt h.payload 2 2) 0x0203) :
    let v := min (natAt h.payload 2 2) 0x0203
    execHello mbx s = .next (({ s with host := { s.host with nego := BitVec.ofNat 8 v } } : State).complete h 0 (bytesOf 2 v)) :=
  State.runUmp_done takes rfl (if_neg (Nat.not_lt.2 common))

theorem execFwStage_no_memory (takes : s.Takes mbx 0x10 h) (noMemory : s.mem.usable = 0) (runs : s.pow.boot ≠ .recovery) :
    execFwStage mbx s = .next (s.complete h 8 []) :=
  State.runUmp_done takes rfl (if_pos (by simp [noMemory, runs]))

/-- The package staged in the firmware area of GDDR7, where there is any (R443). -/
def State.staged (s : State) (pkg : List Byte) : State := if s.mem.usable = 0 then s else s.writeFw Config.stagePlace pkg

section
variable {b : HostBuf} (takes : s.Takes mbx 0x10 h) (memory : s.mem.usable ≠ 0 ∨ s.pow.boot = .recovery)
  (buffer : s.HostBuffer (sub h.payload 0 16) b)
include takes memory buffer

theorem execFwStage_not_authentic (bad : (s.staged (s.bufAll b)).pow.fuses.authentic (s.bufAll b) = false) :
    execFwStage mbx s = .next ((s.staged (s.bufAll b)).complete h 7 []) := by
  refine State.runUmp_done takes rfl ((if_neg ?_).trans ((State.withFull_of buffer).trans (if_pos ?_)))
  · rcases memory with usable | recovery <;> simp [*]
  · rw [Bool.not_eq_true']
    exact bad

theorem execFwStage_authentic (good : (s.staged (s.bufAll b)).pow.fuses.authentic (s.bufAll b) = true) :
    let u := s.staged (s.bufAll b)
    execFwStage mbx s = .next (({ u with pow := { u.pow with flash := { u.pow.flash.setSlot (!u.pow.flash.selectedB) (s.bufAll b) with
      stagedB := some (!u.pow.flash.selectedB) } } } : State).complete h 0 (sha256 (s.bufAll b))) := by
  refine State.runUmp_done takes rfl ((if_neg ?_).trans ((State.withFull_of buffer).trans (if_neg ?_)))
  · rcases memory with usable | recovery <;> simp [*]
  · rw [Bool.not_eq_true', Bool.not_eq_false]
    exact good

end

/-- Writing a slot leaves the other one, and which one is selected (R443). -/
theorem Flash.setSlot_spec (f : Flash) (b : Bool) (pkg : List Byte) : (f.setSlot b pkg).slot b = pkg ∧ (f.setSlot b pkg).slot (!b) = f.slot (!b) ∧
    (f.setSlot b pkg).selectedB = f.selectedB ∧ (f.setSlot b pkg).trial = f.trial := by
  cases b <;> exact ⟨rfl, rfl, rfl, rfl⟩

section
variable (takes : s.Takes mbx 0x11 h)
include takes

theorem execFwActivate_staged {slot : Bool} (action : natAt h.payload 0 1 = 0 ∨ natAt h.payload 0 1 = 1)
    (staged : s.pow.flash.stagedB = some slot) :
    execFwActivate mbx s = .next ((s.selectTrial slot (natAt h.payload 0 1 == 1)).complete h 0 []) := by
  refine State.runUmp_done takes rfl ?_
  rcases action with a | a <;> simp [a, staged]

theorem execFwActivate_back (action : natAt h.payload 0 1 = 2) :
    execFwActivate mbx s = .next ((s.selectTrial (!s.pow.flash.selectedB) false).complete h 0 []) :=
  State.runUmp_done takes rfl (by rw [action]; rfl)

theorem execFwActivate_commits (action : natAt h.payload 0 1 = 3) (imago : s.pow.boot = .imago) (runs : s.pow.runningB = s.pow.flash.selectedB) :
    execFwActivate mbx s = .next (({ s with pow := { s.pow with fuses := { s.pow.fuses with
      securityVersion := max s.pow.fuses.securityVersion s.pow.fwSecurity } } } : State).complete h 0 []) :=
  State.runUmp_done takes rfl (by rw [action]; exact if_neg (by simp [imago, runs]))

theorem execFwActivate_not_running (action : natAt h.payload 0 1 = 3) (other : s.pow.boot ≠ .imago ∨ s.pow.runningB ≠ s.pow.flash.selectedB) :
    execFwActivate mbx s = .next (s.complete h 5 []) :=
  State.runUmp_done takes rfl (by rw [action]; exact if_pos (by simpa using other))

end

theorem execAttest_takes {b : HostBuf} (takes : s.Takes mbx 0x12 h) (buffer : s.HostBuffer (sub h.payload 32 16) b) :
    let r := s.report (sub h.payload 0 32)
    execAttest mbx s = .next (if b.total < 33632 then s.complete h 2 []
      else (s.writeBuf b 0 (r ++ padTo 17088 (Config.signReport r))).complete h 0 (bytesOf 4 33632)) := by
  split
  next short => exact State.runUmp_done takes rfl ((State.withFull_of buffer).trans (if_pos short))
  next long => exact State.runUmp_done takes rfl ((State.withFull_of buffer).trans (if_neg long))

end Sys2Proof.Machine

open Sys2Proof Sys2Proof.Machine

/-- Settles O47: each of the six commands as firmware takes it. -/
theorem identityAndFirmwareCommands : Obligations.IdentityAndFirmwareCommands := by
  refine ⟨fun s mbx h => ⟨execIdentify_takes, execCaps_takes, fun takes => ⟨execHello_refuses takes, execHello_agrees takes⟩⟩,
    fun s mbx h b => ⟨execFwStage_no_memory, fun takes memory buffer => ⟨execFwStage_not_authentic takes memory buffer, fun good => ?stage⟩,
      fun takes => ⟨fun t action staged => ?select, fun t action staged => ?reset, execFwActivate_back takes, execFwActivate_commits takes,
        execFwActivate_not_running takes⟩, fun takes buffer => ?attest⟩⟩
  case stage =>
    obtain ⟨written, other, selected, trial⟩ := (s.staged (s.bufAll b)).pow.flash.setSlot_spec
      (!(s.staged (s.bufAll b)).pow.flash.selectedB) (s.bufAll b)
    rw [Bool.not_not] at other
    exact ⟨_, execFwStage_authentic takes memory buffer good, written, other, rfl, selected, trial⟩
  case select => simpa [action] using execFwActivate_staged takes (.inl action) staged
  case reset => simpa [action] using execFwActivate_staged takes (.inr action) staged
  case attest =>
    have attested := execAttest_takes takes buffer
    exact ⟨fun short => attested.trans (congrArg _ (if_pos short)), fun long => attested.trans (congrArg _ (if_neg (Nat.not_lt.2 long)))⟩
end

section
/-! SUPPORT. The commands that make a job and load it (O48). -/

namespace Sys2Proof.Machine

variable {s : State} {mbx : Fin 9} {h : Held}

/-- A buffer reference names a host buffer, or none where it gives length 0 (R404). -/
def State.Names (s : State) (ref : List Byte) (c : HostBuf) : Prop := (natAt ref 12 4 = 0 ∧ c = ⟨[], 0⟩) ∨ s.HostBuffer ref c

theorem State.withBuf_names {ref : List Byte} {c : HostBuf} {act : HostBuf → Reply} (names : s.Names ref c) : s.withBuf ref act = act c := by
  rcases names with ⟨empty, rfl⟩ | buffer
  · exact State.withBuf_none empty
  · exact State.withBuf_of buffer

/-! ### JOB_CREATE (R406, R432) -/

section
variable (takes : s.Takes mbx 0x20 h)
include takes

theorem execJobCreate_no_memory (noMemory : s.mem.usable = 0) : execJobCreate mbx s = .next (s.complete h 8 []) :=
  State.runUmp_done takes rfl (if_pos noMemory)

variable (memory : s.mem.usable ≠ 0)
include memory

theorem execJobCreate_bad_values (bad : jobValuesOk h.payload = false) : execJobCreate mbx s = .next (s.complete h 2 []) :=
  State.runUmp_done takes rfl ((if_neg memory).trans (if_pos (by simp [bad])))

/-- The rank table that a JOB_CREATE reads from its buffer. -/
def State.rankTable (s : State) (p : List Byte) (table : HostBuf) : List Nat :=
  (List.range (natAt p 4 4)).map fun i => natAt (s.readBuf table (2 * i) 2) 0 2

/-- The device after a JOB_CREATE of job `j`: the die blocks reset, state C, the event posted, due field tests started. -/
def State.withJob (s : State) (j : Job) : State :=
  let s1 := (s.failSet 4).jobReset
  (({ s1 with job := j, rep := { s1.rep with enable := j.twin, cont := j.twinContinue } } : State).postJob 1).startTests

variable {table prov wit cap : HostBuf} (good : jobValuesOk h.payload = true) (buffer : s.HostBuffer (sub h.payload 96 16) table)
  (hprov : s.Names (sub h.payload 112 16) prov) (hwit : s.Names (sub h.payload 128 16) wit)
  (hcap : s.Names (if bitAt (natAt h.payload 25 1) 2 then zeros 16 else sub h.payload 144 16) cap)
include good buffer hprov hwit hcap

theorem execJobCreate_takes : execJobCreate mbx s =
    .next (if table.total < 2 * natAt h.payload 4 4 ∨ ∃ a ∈ s.rankTable h.payload table, 32768 ≤ a then s.complete h 2 []
      else (s.withJob (jobOf h.payload (s.rankTable h.payload table) prov wit cap)).complete h 0 []) := by
  have reaches {act : HostBuf → HostBuf → HostBuf → HostBuf → Reply} :
      (s.withFull (sub h.payload 96 16) fun table => s.withBuf (sub h.payload 112 16) fun prov => s.withBuf (sub h.payload 128 16) fun wit =>
        s.withBuf (if bitAt (natAt h.payload 25 1) 2 then zeros 16 else sub h.payload 144 16) fun cap => act table prov wit cap) =
        act table prov wit cap := by
    rw [State.withFull_of buffer, State.withBuf_names hprov, State.withBuf_names hwit, State.withBuf_names hcap]
  have bad : (decide (table.total < 2 * natAt h.payload 4 4) || (s.rankTable h.payload table).any fun a => decide (32768 ≤ a)) = true ↔
      (table.total < 2 * natAt h.payload 4 4 ∨ ∃ a ∈ s.rankTable h.payload table, 32768 ≤ a) := by simp
  split
  next short =>
    exact State.runUmp_done takes rfl ((if_neg memory).trans ((if_neg (by simp [good])).trans (reaches.trans (if_pos (bad.2 short)))))
  next long =>
    exact State.runUmp_done takes rfl ((if_neg memory).trans ((if_neg (by simp [good])).trans (reaches.trans (if_neg (bad.not.2 long)))))

end

/-! ### JOB_LOAD (R421, R422) -/

/-- In relay form an image goes out on the control plane before it is loaded. -/
def State.relayed (s : State) (form : Nat) (raw : List Byte) : State :=
  if form = 1 then (relayChunks s.job.id.toNat raw).foldl (fun (s : State) c => s.flood 5 c) s else s

section
variable {b : HostBuf} (takes : s.Takes mbx 0x21 h) (buffer : s.HostBuffer (sub h.payload 4 16) b)
include takes buffer

theorem execJobLoad_loads (fits : (s.relayed (natAt h.payload 20 1) (s.bufAll b)).loadFault (Image.of (s.bufAll b)) = none) :
    execJobLoad mbx s = .next ((((s.relayed (natAt h.payload 20 1) (s.bufAll b)).placeImage (Image.of (s.bufAll b))).setJobState
      .loaded 1).complete h 0 []) := by
  refine State.runUmp_done takes rfl ((State.withFull_of buffer).trans ?_)
  simp only [State.relayed] at fits ⊢
  simp only [State.load, fits]

theorem execJobLoad_faults {r : Nat × Nat} (fault : (s.relayed (natAt h.payload 20 1) (s.bufAll b)).loadFault (Image.of (s.bufAll b)) = some r) :
    execJobLoad mbx s = .next (((s.relayed (natAt h.payload 20 1) (s.bufAll b)).setJobState .ended 8).complete h 9
      (bytesOf 1 r.1 ++ zeros 1 ++ bytesOf 2 r.2)) := by
  refine State.runUmp_done takes rfl ((State.withFull_of buffer).trans ?_)
  simp only [State.relayed] at fault ⊢
  simp only [State.load, fault]

end

/-! ### REGION_BIND (R409) -/

/-- A region bound. -/
def Region.boundAs (id : Nat) (q : Region) : Region := if q.id = id then { q with bound := true } else q

/-- The pages of host memory that a buffer takes in a region. -/
def boundPages (r : Region) (off : Nat) (b : HostBuf) (i : Nat) : Bool :=
  decide ((r.base + off - hostBase) / 4096 ≤ i) && decide (i < (r.base + off - hostBase) / 4096 + cdiv b.total 4096)

/-- Some of these pages is present. -/
def State.pagesTaken (s : State) (r : Region) (off : Nat) (b : HostBuf) : Bool :=
  s.mem.hostPages.any fun e => boundPages r off b e.1 && bitAt e.2.toNat 0

/-- The queued translation faults on these pages. -/
def State.faultsOn (s : State) (r : Region) (off : Nat) (b : HostBuf) : List XlatFault :=
  s.mem.faults.filter fun f => inHost f.addr && boundPages r off b ((f.addr - hostBase) / 4096)

section
variable {id : Nat} {b : HostBuf} {r : Region} (known : s.job.region id = some r) (host : r.kind = .host)
include known host

theorem State.bindWhole_host (size : r.size = b.total) : s.bindWhole id b =
    .done (({ s with job := { s.job with regions := s.job.regions.map (Region.boundAs id) } } : State).mapHost r 0 b) 0 [] := by
  simp only [State.bindWhole, known]
  exact if_neg (by simp [host, size])

variable {off : Nat} (aligned : off % 4096 = 0) (inside : off + b.total ≤ r.size)
include aligned inside

theorem State.bindPages_taken (running : s.job.state = .running) (taken : s.pagesTaken r off b = true) :
    s.bindPages id off b = .done s 5 [] := by
  simp only [State.bindPages, known]
  exact (if_neg (by simp [host, aligned, inside])).trans (if_pos (by rw [Bool.and_eq_true, decide_eq_true_eq]; exact ⟨running, taken⟩))

theorem State.bindPages_free (free : s.job.state ≠ .running ∨ s.pagesTaken r off b = false) : s.bindPages id off b =
    .done (((s.mapHost r off b).faultsOn r off b).foldl (fun (s : State) f => s.retryPage f) (s.mapHost r off b)) 0 [] := by
  simp only [State.bindPages, known]
  refine (if_neg (by simp [host, aligned, inside])).trans (if_neg ?_)
  rw [Bool.and_eq_true, decide_eq_true_eq]
  rintro ⟨running, taken⟩
  exact free.elim (fun idle => idle running) fun absent => Bool.false_ne_true (absent.symm.trans taken)

end

section
variable {b : HostBuf} (takes : s.Takes mbx 0x22 h) (buffer : s.HostBuffer (sub h.payload 16 16) b)
include takes buffer

theorem execRegionBind_whole (form : natAt h.payload 4 1 = 0) {u : State} {status : Nat} {resp : List Byte}
    (bound : s.bindWhole (natAt h.payload 6 2) b = .done u status resp) : execRegionBind mbx s = .next (u.complete h status resp) :=
  State.runUmp_done takes rfl ((State.withFull_of buffer).trans (by rw [form]; exact bound))

theorem execRegionBind_pages (form : natAt h.payload 4 1 = 1) {u : State} {status : Nat} {resp : List Byte}
    (bound : s.bindPages (natAt h.payload 6 2) (natAt h.payload 8 8) b = .done u status resp) :
    execRegionBind mbx s = .next (u.complete h status resp) :=
  State.runUmp_done takes rfl ((State.withFull_of buffer).trans (by rw [form]; exact bound))

theorem execRegionBind_drain (form : natAt h.payload 4 1 = 2) (window : natAt h.payload 6 2 < 4) : execRegionBind mbx s =
    .next (({ s with job := { s.job with drains := s.job.drains.set! (natAt h.payload 6 2) (some b) } } : State).complete h 0 []) :=
  State.runUmp_done takes rfl ((State.withFull_of buffer).trans (by rw [form]; exact if_neg (Nat.not_le.2 window)))

end

end Sys2Proof.Machine

open Sys2Proof Sys2Proof.Machine

/-- Settles O48: each of the three commands as firmware takes it. -/
theorem jobsAreMade : Obligations.JobsAreMade := by
  intro s mbx h b p names
  refine ⟨fun takes => ⟨execJobCreate_no_memory takes, execJobCreate_bad_values takes,
      fun prov wit cap memory good buffer hprov hwit hcap => ?create⟩,
    fun takes buffer => ⟨execJobLoad_loads takes buffer, fun r => execJobLoad_faults takes buffer⟩,
    fun takes buffer => ⟨fun r known host => ⟨fun form size => execRegionBind_whole takes buffer form (State.bindWhole_host known host size),
      fun form aligned inside => ⟨fun running taken => ?taken, fun free => ?free⟩⟩, execRegionBind_drain takes buffer⟩⟩
  case create =>
    have created := execJobCreate_takes takes memory good buffer hprov hwit hcap
    refine ⟨fun bad => created.trans (congrArg _ (if_pos bad)), fun room small => created.trans (congrArg _ (if_neg ?_))⟩
    rintro (short | ⟨a, rank, large⟩)
    · exact Nat.not_lt.2 room short
    · exact Nat.not_le.2 (small a rank) large
  case taken => exact execRegionBind_pages takes buffer form (State.bindPages_taken known host aligned inside running taken)
  case free => exact execRegionBind_pages takes buffer form (State.bindPages_free known host aligned inside free)
end

section
/-! SUPPORT. Telemetry, log, power, link, retirement and debug commands (O51). -/

namespace Sys2Proof.Machine

variable {s : State} {mbx : Fin 9} {h : Held} {b : HostBuf}

/-! ### TELEMETRY and LOG_READ (R411, R415) -/

section
variable (takes : s.Takes mbx 0x50 h)
include takes

theorem execTelemetry_none (unknown : s.telemetry (natAt h.payload 0 1) (natAt h.payload 1 1) = none) :
    execTelemetry mbx s = .next (s.complete h 2 []) :=
  State.runUmp_done takes rfl (by rw [unknown])

/-- The mirror's interval, where a TELEMETRY command names one. -/
def State.mirrorEvery (s : State) (ms : Nat) : State := { s with host := { s.host with mirrorMs := if ms = 0 then s.host.mirrorMs else ms } }

variable {r : List Byte} {t : State} (record : s.telemetry (natAt h.payload 0 1) (natAt h.payload 1 1) = some (r, t))
include record

theorem execTelemetry_short (short : r.length ≤ 4080) : execTelemetry mbx s = .next ((t.mirrorEvery (natAt h.payload 4 4)).complete h 0 r) :=
  State.runUmp_done takes rfl (by rw [record]; exact if_pos short)

theorem execTelemetry_long (long : 4080 < r.length) (buffer : s.HostBuffer (sub h.payload 16 16) b) : execTelemetry mbx s =
    .next (if b.total < r.length then s.complete h 2 []
      else ((t.mirrorEvery (natAt h.payload 4 4)).writeBuf b 0 r).complete h 0 (r.take 4080)) := by
  split
  next full =>
    exact State.runUmp_done takes rfl (by rw [record]; exact (if_neg (Nat.not_le.2 long)).trans ((State.withFull_of buffer).trans (if_pos full)))
  next room =>
    exact State.runUmp_done takes rfl (by rw [record]; exact (if_neg (Nat.not_le.2 long)).trans ((State.withFull_of buffer).trans (if_neg room)))

end

theorem execLogRead_takes (takes : s.Takes mbx 0x51 h) (buffer : s.HostBuffer (sub h.payload 8 16) b) :
    let off := natAt h.payload 0 8
    let text := (s.pow.flash.log.drop off).take b.total
    execLogRead mbx s =
      .next ((s.writeBuf b 0 text).complete h 0 (bytesOf 4 text.length ++ zeros 4 ++ bytesOf 8 (off + text.length))) :=
  State.runUmp_done takes rfl (State.withFull_of buffer)

/-! ### POWER_POLICY (R439) -/

/-- A limit of the policy record that is named lies out of its range. -/
theorem policy_out_iff (l t : Nat) :
    ((decide (l ≠ 0) && (decide (l < 600) || decide (1400 < l))) || (decide (t ≠ 0) && (decide (t < 85) || decide (100 < t)))) = true ↔
      (l ≠ 0 ∧ (l < 600 ∨ 1400 < l)) ∨ (t ≠ 0 ∧ (t < 85 ∨ 100 < t)) := by
  simp

section
variable (takes : s.Takes mbx 0x52 h)
include takes

theorem execPowerPolicy_out (out : (natAt h.payload 0 2 ≠ 0 ∧ (natAt h.payload 0 2 < 600 ∨ 1400 < natAt h.payload 0 2)) ∨
    (natAt h.payload 2 1 ≠ 0 ∧ (natAt h.payload 2 1 < 85 ∨ 100 < natAt h.payload 2 1))) : execPowerPolicy mbx s = .next (s.complete h 2 []) :=
  State.runUmp_done takes rfl (if_pos ((policy_out_iff _ _).2 out))

theorem execPowerPolicy_in (limit : natAt h.payload 0 2 = 0 ∨ (600 ≤ natAt h.payload 0 2 ∧ natAt h.payload 0 2 ≤ 1400))
    (hot : natAt h.payload 2 1 = 0 ∨ (85 ≤ natAt h.payload 2 1 ∧ natAt h.payload 2 1 ≤ 100)) :
    let l := natAt h.payload 0 2
    let t := natAt h.payload 2 1
    let f := natAt h.payload 3 1
    let s1 : State := { s with pow := { s.pow with
      limitW := if l = 0 then s.pow.limitW else l, tthrot := if t = 0 then s.pow.tthrot else t,
      spareWarm := bitAt f 0, sliceIdleOff := bitAt f 1 } }
    let on := (if bitAt f 0 then s1.spareDomains else []) ++ if bitAt f 1 then [] else (List.range 32).map fun n => dom (80 + n)
    execPowerPolicy mbx s = .next ((on.foldl (fun (s : State) d => s.domainRequest d true) s1).idleSlices.complete h 0 []) := by
  refine State.runUmp_done takes rfl (if_neg ?_)
  rw [policy_out_iff]
  omega

end

/-! ### LINK_STATUS (R405) -/

/-- The status of a fabric port. -/
def State.fabricRecord (s : State) (n : Nat) : List Byte := padTo 16 (bytesOf 4 (s.port n).status ++ bytesOf 4 (s.port n).hb)

/-- The status of a Scree port. -/
def State.screeRecord (s : State) (n : Nat) : List Byte := padTo 16 (bytesOf 4 (s.mem.screeStatus s.holdsSlots n))

theorem State.linkRecord_fabric {n : Nat} (fabric : n < 8) : s.linkRecord n = (s, s.fabricRecord n) := if_pos fabric

theorem State.linkRecord_pcie : s.linkRecord 8 = (s.fresh.2, undefCells 8 s.fresh.1 16) := rfl

theorem State.linkRecord_scree (n : Nat) : s.linkRecord (n + 9) = (s, s.screeRecord n) :=
  (if_neg (by omega)).trans (if_neg (by omega))

/-- The record of one more link behind those gathered. -/
def gatherLink (a : State × List Byte) (n : Nat) : State × List Byte :=
  let (t, r) := a.1.linkRecord n
  (t, a.2 ++ r)

theorem foldl_gatherLink {ns : List Nat} {record : Nat → List Byte} (same : ∀ n ∈ ns, s.linkRecord n = (s, record n)) (r : List Byte) :
    ns.foldl gatherLink (s, r) = (s, r ++ ns.flatMap record) := by
  induction ns generalizing r with
  | nil => simp
  | cons n ns ih =>
    obtain ⟨first, rest⟩ := List.forall_mem_cons.1 same
    have step : gatherLink (s, r) n = (s, r ++ record n) := by simp only [gatherLink, first]
    rw [List.foldl_cons, step, ih rest, List.flatMap_cons, List.append_assoc]

/-- The records of all 13 links: the PCIe link's alone is undefined. -/
theorem gatherLink_all : (List.range 13).foldl gatherLink (s, []) =
    (s.fresh.2, (List.range 8).flatMap s.fabricRecord ++ undefCells 8 s.fresh.1 16 ++ (List.range 4).flatMap s.screeRecord) := by
  have parts : List.range 13 = List.range 8 ++ 8 :: (List.range 4).map (· + 9) := rfl
  have fabric := foldl_gatherLink (s := s) (fun n small => State.linkRecord_fabric (List.mem_range.1 small)) []
  have scree (r : List Byte) := foldl_gatherLink (s := s.fresh.2) (ns := (List.range 4).map (· + 9)) (record := fun n => s.screeRecord (n - 9))
    (fun n small => by
      obtain ⟨k, -, rfl⟩ := List.mem_map.1 small
      exact State.linkRecord_scree k) r
  have pcie (r : List Byte) : gatherLink (s, r) 8 = (s.fresh.2, r ++ undefCells 8 s.fresh.1 16) := rfl
  rw [parts, List.foldl_append, fabric, List.foldl_cons, pcie, scree, List.flatMap_map]
  rfl

section
variable (takes : s.Takes mbx 0x53 h)
include takes

theorem execLinkStatus_one (known : natAt h.payload 0 1 ≤ 12) {t : State} {r : List Byte} (record : s.linkRecord (natAt h.payload 0 1) = (t, r)) :
    execLinkStatus mbx s = .next (t.complete h 0 r) := by
  refine State.runUmp_done takes rfl ((if_pos known).trans ?_)
  simp only [record]

theorem execLinkStatus_all (all : natAt h.payload 0 1 = 0xFF) {t : State} {r : List Byte}
    (records : (List.range 13).foldl gatherLink (s, []) = (t, r)) :
    execLinkStatus mbx s = .next (t.complete h 0 r) := by
  refine State.runUmp_done takes rfl ((if_neg (by omega)).trans ((if_pos all).trans ?_))
  unfold gatherLink at records
  simp only [records]

theorem execLinkStatus_unknown (beyond : 12 < natAt h.payload 0 1) (one : natAt h.payload 0 1 ≠ 0xFF) :
    execLinkStatus mbx s = .next (s.complete h 2 []) :=
  State.runUmp_done takes rfl ((if_neg (Nat.not_le.2 beyond)).trans (if_neg one))

end

/-! ### CORE_RETIRE and DEBUG_ATTACH (R405) -/

theorem execCoreRetire_takes {c : Fin 20} (takes : s.Takes mbx 0x54 h) (core : natAt h.payload 0 1 = c.val)
    (used : (s.core c).kind = .active ∨ (s.core c).kind = .spare) : execCoreRetire mbx s = .next ((s.retireCore c 4).complete h 0 []) := by
  have same : Fin.ofNat 20 c.val = c := Fin.ofNat_val_eq_self c
  refine State.runUmp_done takes rfl ?_
  simp only [core, same]
  refine if_neg ?_
  rcases used with active | spare
  · simp [active]
  · simp [spare]

section
variable {c : Fin 20} (takes : s.Takes mbx 0x60 h) (core : natAt h.payload 5 1 = c.val) (debug : s.job.debug = true)
  (resident : (s.core c).v.isSome = true)
include takes core debug resident

theorem execDebugAttach_holds (attach : natAt h.payload 4 1 = 1) (free : s.debugCore = none) : execDebugAttach mbx s =
    .next ((s.modCore c fun c => { c.stop with debugHeld := true }).complete h 0 []) := by
  refine State.runUmp_done takes rfl ?_
  simp [core, debug, Option.isSome_iff_ne_none.1 resident, attach, free]

theorem execDebugAttach_lets_go (detach : natAt h.payload 4 1 = 0) (held : s.debugCore = some c) : execDebugAttach mbx s =
    .next ((s.modCore c fun c => { c with debugHeld := false }).complete h 0 []) := by
  refine State.runUmp_done takes rfl ?_
  simp [core, debug, Option.isSome_iff_ne_none.1 resident, detach, held]

end

end Sys2Proof.Machine

open Sys2Proof Sys2Proof.Machine

/-- Settles O51: each of the six commands as firmware takes it. -/
theorem serviceCommands : Obligations.ServiceCommands := by
  intro s mbx h b p
  refine ⟨fun takes => ⟨execTelemetry_none takes, fun r t record => ⟨execTelemetry_short takes record, execTelemetry_long takes record⟩⟩,
    execLogRead_takes,
    fun takes => ⟨execPowerPolicy_in takes, execPowerPolicy_out takes⟩, fun takes => ?links, fun c takes => execCoreRetire_takes takes,
    fun c takes core debug resident => ⟨execDebugAttach_holds takes core debug resident, execDebugAttach_lets_go takes core debug resident⟩⟩
  intro link fabric scree pcie
  refine ⟨fun port => execLinkStatus_one takes (port.le.trans (by decide)) (State.linkRecord_fabric port), fun host => ?pcie,
    fun low high => ?scree,
    fun all => execLinkStatus_all takes all gatherLink_all, execLinkStatus_unknown takes⟩
  case pcie => exact execLinkStatus_one takes (host.le.trans (by decide)) ((congrArg s.linkRecord host).trans State.linkRecord_pcie)
  case scree =>
    have record := s.linkRecord_scree (link - 9)
    rw [Nat.sub_add_cancel low] at record
    exact execLinkStatus_one takes high record
end

section
/-! SUPPORT. Checkpoint and field-test commands (O50). -/

namespace Sys2Proof.Machine

variable {s : State} {mbx : Fin 9} {h : Held}

theorem execCkptRequest_takes (takes : s.Takes mbx 0x30 h) : execCkptRequest mbx s =
    .next ((if natAt h.payload 4 1 = 0 then s.requestBoundary (natAt h.payload 8 4) s.ownAddr.toNat
      else (s.sendRequest 1 0xFFFF 0).2).complete h 0 []) := by
  split
  next named => exact State.runUmp_done takes rfl (if_pos named)
  next derived => exact State.runUmp_done takes rfl (if_neg derived)

/-! ### CKPT_STATUS (R380, R382, R410) -/

section
variable (takes : s.Takes mbx 0x31 h)
include takes

theorem execCkptStatus_slots (form : natAt h.payload 4 1 = 0) {s1 s2 : State} {a b : List Byte} (first : s.slotRecord false = (s1, a))
    (second : s1.slotRecord true = (s2, b)) : execCkptStatus mbx s = .next (s2.complete h 0 (a ++ b)) := by
  refine State.runUmp_done takes rfl ?_
  simp only [form, first, second]

theorem execCkptStatus_commit (form : natAt h.payload 4 1 = 1) {u : State} {status : Nat} {resp : List Byte}
    (commit : s.commitGen (natAt h.payload 8 8) = .done u status resp) : execCkptStatus mbx s = .next (u.complete h status resp) :=
  State.runUmp_done takes rfl (by rw [form]; exact commit)

theorem execCkptStatus_drain (form : natAt h.payload 4 1 = 2) {u : State} {status : Nat} {resp : List Byte}
    (drain : s.beginDrain (natAt h.payload 16 1) (natAt h.payload 17 1) (natAt h.payload 18 1) = .done u status resp) :
    execCkptStatus mbx s = .next (u.complete h status resp) :=
  State.runUmp_done takes rfl (by rw [form]; exact drain)

end

theorem State.commitGen_next {gen : Nat} (next : gen = s.ckpt.committed + 1) (posted : gen = s.ckpt.postedGen) :
    let s1 : State := { s with ckpt := { s.ckpt with committed := gen } }
    s.commitGen gen = .done (if s.job.capture && s.job.rolling then s1.trimCapture s1.ckpt.postedB else s1) 0 [] :=
  if_neg (by simp [← next, ← posted])

theorem State.commitGen_other {gen : Nat} (other : gen ≠ s.ckpt.committed + 1 ∨ gen ≠ s.ckpt.postedGen) : s.commitGen gen = .done s 2 [] :=
  if_pos (by simpa using other)

theorem State.beginDrain_free {slot w rate : Nat} (hslot : slot ≤ 1) (hw : w ≤ 3) (low : 1 ≤ rate) (high : rate ≤ 32) (free : s.ckpt.drain = none)
    (window : (s.job.drains[w]?.join).isSome = true) (place : (s.mem.slotBase (slot == 1)).isSome = true) : s.beginDrain slot w rate =
    .done (({ s with ckpt := { s.ckpt with drain := some (slot == 1, w, rate) } } : State).showPhase.ckptNote (slot == 1) 0 2) 0 [] := by
  refine (if_neg ?_).trans (if_neg ?_)
  · simp
    omega
  · simp only [free, Option.isNone_eq_false_iff.2 window, Option.isNone_eq_false_iff.2 place]
    decide

/-! ### RESTORE (R384) -/

section
variable (takes : s.Takes mbx 0x32 h)
include takes

theorem execRestore_bad_window (bad : (if natAt h.payload 16 1 == 1 then 3 else 1) < natAt h.payload 17 1) :
    execRestore mbx s = .next (s.complete h 2 []) := State.runUmp_done takes rfl (if_pos bad)

/-- A restore of a generation begins (R384). -/
def State.restoring (s : State) (gen : Nat) (host : Bool) (w : Nat) : State :=
  ({ s with ckpt := { s.ckpt with restore := some (gen, host, w) } } : State).showPhase

theorem execRestore_starts (window : natAt h.payload 17 1 ≤ if natAt h.payload 16 1 == 1 then 3 else 1) (free : s.ckpt.restore = none)
    (bound : (natAt h.payload 16 1 == 1) = true → (s.job.drains[natAt h.payload 17 1]?.join).isSome = true) {u : State}
    (asks : (if natAt h.payload 16 1 == 1 then s.restoring (natAt h.payload 8 8) (natAt h.payload 16 1 == 1) (natAt h.payload 17 1)
      else (s.restoring (natAt h.payload 8 8) (natAt h.payload 16 1 == 1) (natAt h.payload 17 1)).ckptNote (natAt h.payload 17 1 == 1) 0 4) = u) :
    execRestore mbx s = .next (u.complete h 0 []) := by
  subst asks
  have may : (s.ckpt.restore.isSome || ((natAt h.payload 16 1 == 1) && (s.job.drains[natAt h.payload 17 1]?.join).isNone)) = false := by
    rw [free, Option.isSome_none, Bool.false_or, Bool.and_eq_false_imp]
    exact fun host => Option.isNone_eq_false_iff.2 (bound host)
  exact State.runUmp_done takes rfl ((if_neg (Nat.not_lt.2 window)).trans (if_neg (Bool.eq_false_iff.1 may)))

end

/-! ### TEST_PUSH and TEST_STATUS (R355, R356, R364) -/

theorem execTestPush_takes {b : HostBuf} (takes : s.Takes mbx 0x40 h) (memory : s.mem.usable ≠ 0) (buffer : s.HostBuffer (sub h.payload 0 16) b) :
    let bs := s.bufAll b
    let r := s.takePackage bs
    execTestPush mbx s = .next ((if r.1 && natAt h.payload 16 1 = 1 then r.2.floodPackage bs else r.2).complete h 0 []) :=
  State.runUmp_done takes rfl ((if_neg memory).trans (State.withFull_of buffer))

section
variable (takes : s.Takes mbx 0x41 h)
include takes

theorem execTestStatus_accepted {k : Package} (accepted : (s.chk.packages.find? fun k => k.id.toNat == natAt h.payload 0 8) = some k) :
    execTestStatus mbx s = .next (s.complete h 0
      (bytesOf 4 k.version.toNat ++ bytesOf 4 k.due.toNat ++ bytesOf 4 k.passed.toNat ++ bytesOf 4 k.failed.toNat)) :=
  State.runUmp_done takes rfl (by rw [accepted])

theorem execTestStatus_unknown (unknown : (s.chk.packages.find? fun k => k.id.toNat == natAt h.payload 0 8) = none) :
    execTestStatus mbx s = .next (s.complete h 0 (zeros 16)) :=
  State.runUmp_done takes rfl (by rw [unknown])

end

end Sys2Proof.Machine

open Sys2Proof Sys2Proof.Machine

/-- Settles O50: each of the five commands as firmware takes it. -/
theorem checkpointAndTestCommands : Obligations.CheckpointAndTestCommands := by
  refine ⟨fun s mbx h => ⟨execCkptRequest_takes, fun takes => ⟨fun form s1 a s2 b => execCkptStatus_slots takes form,
      fun form => ⟨fun next posted => ?next, fun other => ?other⟩, fun form slot w low high free window place => ?drain⟩,
      fun takes free => ⟨fun host window bound => ?host, fun slot window => ?slot, fun bad => ?bad⟩⟩,
    fun s mbx h b => ⟨execTestPush_takes, fun takes => ⟨fun k => execTestStatus_accepted takes, execTestStatus_unknown takes⟩⟩⟩
  case next => exact execCkptStatus_commit takes form (State.commitGen_next next posted)
  case other => exact execCkptStatus_commit takes form (State.commitGen_other other)
  case drain => exact execCkptStatus_drain takes form (State.beginDrain_free slot w low high free window place)
  case host =>
    exact execRestore_starts takes (by rwa [if_pos host]) free (fun _ => bound) (if_pos host)
  case slot =>
    have slot : ¬ (natAt h.payload 16 1 == 1) = true := Bool.eq_false_iff.1 slot
    exact execRestore_starts takes (by rwa [if_neg slot]) free (fun host => absurd host slot) (if_neg slot)
  case bad =>
    refine execRestore_bad_window takes ?_
    rcases bad with ⟨host, bad⟩ | ⟨slot, bad⟩
    · rwa [if_pos host]
    · rwa [if_neg (Bool.eq_false_iff.1 slot)]
end

section
/-! SUPPORT. Mailboxes, sideband frames, the event ring and the mirror (O45). -/

namespace Sys2Proof.Machine

variable {s : State}

/-! ### Mailboxes (R397, R399) -/

theorem State.modBox_box (s : State) {m : Nat} (h : m < 9) (f : Mailbox → Mailbox) : (s.modBox m f).host.boxes[m]! = f s.host.boxes[m]! := by
  simp [State.modBox, h]

/-- The command of an idle mailbox taken: its command area locked, its sequence word and its place in the order noted (R399). -/
def Mailbox.taken (b : Mailbox) (order : Nat) (nego : Byte) : Mailbox :=
  { b with busy := true, done := false, ack := BitVec.ofNat 32 (natAt b.cmd 4 4), order, nego }

theorem State.ring_busy {m : Nat} (busy : (s.host.boxes[m]!).busy = true) : s.ring m = s.modBox m fun b => { b with overrun := true } := if_pos busy

theorem State.ring_idle {m : Nat} (idle : (s.host.boxes[m]!).busy = false) : s.ring m =
    ({ s with host := { s.host with nextOrder := s.host.nextOrder + 1 } } : State).modBox m fun b => b.taken (s.host.nextOrder + 1) s.host.nego :=
  if_neg (Bool.eq_false_iff.1 idle)

/-- The command that a management frame brings lies in mailbox 8 (R397). -/
def State.management (s : State) (frame : List Byte) : State := s.modBox 8 fun b => { b with cmd := sub frame 3 (frame.length - 7) }

/-- The shape of a management frame for an idle mailbox 8. -/
structure State.Manages (s : State) (frame : List Byte) : Prop where
  up : s.sidebandUp = true
  long : 39 ≤ frame.length
  length : natAt frame 0 2 = frame.length - 7
  channel : natAt frame 2 1 = 0
  idle : (s.host.boxes[8]).busy = false

/-- The check value at the end of a frame. -/
def frameChecks (frame : List Byte) : Prop := natAt frame (frame.length - 4) 4 = (crc32c (frame.take (frame.length - 4))).toNat

theorem execSidebandFrame_good {frame : List Byte} (manages : s.Manages frame) (good : frameChecks frame) : execSidebandFrame frame s =
    .next (((s.management frame).ring 8).emitH
      (.sideband (sidebandFrame 0 (bytesOf 4 ((((s.management frame).ring 8).host.boxes[8]).ack.toNat))))) := by
  obtain ⟨up, long, length, channel, idle⟩ := manages
  have tail : frame.length - 7 + 3 = frame.length - 4 := by omega
  have takes : ¬ ((!s.sidebandUp || !(decide (7 ≤ frame.length) && natAt frame 0 2 == frame.length - 7 &&
      natAt frame (frame.length - 7 + 3) 4 == (crc32c (frame.take (frame.length - 7 + 3))).toNat) || natAt frame 2 1 != 0
      || decide (frame.length - 7 < 32)) = true) := by
    rw [tail]
    unfold frameChecks at good
    simp [up, length, channel, good]
    omega
  exact (if_neg takes).trans (if_neg (Bool.eq_false_iff.1 idle))

theorem execSidebandFrame_bad {frame : List Byte} (manages : s.Manages frame) (bad : ¬ frameChecks frame) :
    execSidebandFrame frame s = .next s := by
  have tail : frame.length - 7 + 3 = frame.length - 4 := by have := manages.long; omega
  refine if_pos ?_
  rw [tail]
  unfold frameChecks at bad
  simp [bad]

theorem State.emitH_host (s : State) (m : OutMsg) : (s.emitH m).host = s.host := by
  unfold State.emitH
  split <;> rfl

theorem State.management_ring (frame : List Byte) (idle : (s.host.boxes[8]).busy = false) :
    ((s.management frame).ring 8).host.boxes[8] =
      Mailbox.taken { s.host.boxes[8] with cmd := sub frame 3 (frame.length - 7) } (s.host.nextOrder + 1) s.host.nego ∧
    ((s.management frame).ring 8).out = s.out ∧ ((s.management frame).ring 8).pow = s.pow := by
  have box : (s.management frame).host.boxes[8]! = { s.host.boxes[8] with cmd := sub frame 3 (frame.length - 7) } := s.modBox_box (by decide) _
  have ring := (s.management frame).ring_idle (m := 8) (by rw [box]; exact idle)
  refine ⟨?_, by rw [ring]; rfl, by rw [ring]; rfl⟩
  rw [ring]
  refine (State.modBox_box (m := 8) _ (by decide) _).trans ?_
  exact congrArg (fun b : Mailbox => b.taken (s.host.nextOrder + 1) s.host.nego) box

/-! ### The event ring (R412 to R414) -/

theorem State.writeEvTail_toNat (v : BitVec 16) : s.writeEvTail v.toNat = ({ s with host := { s.host with evTail := v } } : State).pump := by
  simp [State.writeEvTail]

theorem State.writeEvCtrl_enable {v : Word} (on : v[0] = true) (off : s.host.evEnable = false) : s.writeEvCtrl v.toNat =
    ({ s with host := { s.host with evEnable := true, evVector := BitVec.ofNat 6 (v.toNat / 2),
                                    evCoalesce := BitVec.ofNat 16 (v.toNat / 256), evHead := 0, evTail := 0, evPhase := true } } : State).pump := by
  have enable : bitAt v.toNat 0 = true := (bitAt_toNat v 0 (by decide)).trans on
  simp [State.writeEvCtrl, enable, off]

/-! ### Shedding (R415) -/

/-- The shed level after a window of firmware's busy time. -/
def shedAfter (old busy : Nat) (quiet : Bool) : Nat :=
  if 90 < busy then min 3 (old + 1) else if quiet && decide (busy < 50) then old - 1 else old

/-- The shed level set. -/
def State.shedTo (s : State) (level : Nat) : State := { s with host := { s.host with shed := level } }

theorem execShedLevelWindow_moves {busy new : Nat} {quiet : Bool} (imago : s.pow.boot = .imago) (after : shedAfter s.host.shed busy quiet = new)
    (moves : new ≠ s.host.shed) : execShedLevelWindow busy quiet s =
    .next ((if s.host.shed = 2 ∧ new = 1 then (s.shedTo new).logLine else s.shedTo new).post 0x0E02 (bytesOf 1 new)) := by
  subst after
  refine if_neg ?_
  change ¬ ((s.pow.boot != .imago || shedAfter s.host.shed busy quiet == s.host.shed) = true)
  simp [imago, moves]

theorem execShedLevelWindow_stays {busy : Nat} {quiet : Bool} (stays : shedAfter s.host.shed busy quiet = s.host.shed) :
    execShedLevelWindow busy quiet s = .next s :=
  if_pos (Bool.or_eq_true_iff.2 (.inr (beq_iff_eq.2 stays)))

end Sys2Proof.Machine

open Sys2Proof Sys2Proof.Machine

/-- Settles O45: doorbell, sideband frame, event ring, shed level and mirror in turn. -/
theorem mailboxesAndEvents : Obligations.MailboxesAndEvents := by
  refine ⟨fun s => ⟨fun m up => ?doorbell, fun frame up long length channel idle => ?frame⟩,
    fun s => ⟨fun up => ⟨fun v => ?tail, fun v on off => ?enable⟩, fun due dma => ?coalesced, fun busy quiet imago room high => ?rises,
      fun busy imago pos le low => ?falls, fun busy quiet below loud => ?stays, fun imago => ?mirror⟩⟩
  case doorbell =>
    have ring : exec (.mbxDoorbell m) s = .next (s.ring m.val) := congrArg _ (if_pos up)
    refine ⟨fun busy => ring.trans (congrArg _ (State.ring_busy busy)),
      fun idle => ⟨_, ring.trans (congrArg _ (State.ring_idle idle)), ?_, rfl, rfl, rfl, rfl⟩⟩
    exact State.modBox_box _ (Nat.lt_succ_of_lt m.isLt) _
  case frame =>
    have manages : s.Manages frame := ⟨up, long, length, channel, idle⟩
    refine ⟨fun good => ⟨_, execSidebandFrame_good manages good, ?_⟩, execSidebandFrame_bad manages⟩
    obtain ⟨box, out, pow⟩ := State.management_ring frame idle
    rw [State.emitH_out, State.emitH_host, box, out, pow]
    refine ⟨rfl, rfl, ?_⟩
    rw [Mailbox.taken, BitVec.toNat_ofNat]
    split
    · rfl
    · exact List.append_nil _
  case tail => exact congrArg _ ((if_pos up).trans (State.writeEvTail_toNat v))
  case enable => exact congrArg _ ((if_pos up).trans (State.writeEvCtrl_enable on off))
  case coalesced => exact if_pos (by rw [due, dma]; rfl)
  case rises =>
    have after : shedAfter s.host.shed busy quiet = s.host.shed + 1 := by
      rw [shedAfter, if_pos high]
      omega
    have moves := execShedLevelWindow_moves imago after (by omega)
    rw [if_neg (by omega)] at moves
    exact moves
  case falls =>
    have after : shedAfter s.host.shed busy true = s.host.shed - 1 := by
      rw [shedAfter, if_neg (by omega), if_pos (by simpa using low)]
    have woke : (s.host.shed = 2 ∧ s.host.shed - 1 = 1) ↔ s.host.shed = 2 := by omega
    have moves := execShedLevelWindow_moves imago after (by omega)
    simp only [woke] at moves
    exact moves
  case stays =>
    refine execShedLevelWindow_stays ?_
    rw [shedAfter, if_neg (Nat.not_lt.2 below), if_neg]
    simpa using loud
  case mirror =>
    have sampled : exec .telemetryMirrorSample s = .next s.sampleMirror := congrArg Host.Outcome.next (if_pos imago)
    exact ⟨_, sampled, rfl, rfl, rfl, rfl, rfl, rfl⟩
end

section
/-! SUPPORT. Rounding to a whole number of units (O16). -/

namespace Sys2Proof.Machine

section
variable {m k : Nat} {e q : Int} (exponent : (q - e).toNat = k + 1)
include exponent

/-- Ties-to-even on the number of units and what is left of the magnitude, a half unit being 2^k (R50). -/
theorem roundUnits_rne_of_split {n rest : Nat} (small : rest < 2 ^ (k + 1)) (split : m = 2 ^ (k + 1) * n + rest) :
    roundUnits .rne m e q = if 2 ^ k < rest ∨ rest = 2 ^ k ∧ n % 2 = 1 then n + 1 else n := by
  have units : m >>> (k + 1) = n := by
    rw [Nat.shiftRight_eq_div_pow, split, Nat.mul_add_div (Nat.two_pow_pos _), Nat.div_eq_of_lt small, Nat.add_zero]
  have left : m % 2 ^ (k + 1) = rest := by rw [split, Nat.mul_add_mod, Nat.mod_eq_of_lt small]
  have below : ¬ q ≤ e := by omega
  simp [roundUnits, below, exponent, units, left]

/-- R52: the carry out of the magnitude's fraction of a unit plus r / 2^16. -/
theorem roundUnits_stoch (r : Nat) :
    roundUnits (.stoch r) m e q = m / 2 ^ (k + 1) + (65536 * (m % 2 ^ (k + 1)) + r * 2 ^ (k + 1)) / (65536 * 2 ^ (k + 1)) := by
  have below : ¬ q ≤ e := by omega
  have power : 2 ^ (k + 1 + 16) = 65536 * 2 ^ (k + 1) := by rw [Nat.pow_add, Nat.mul_comm]
  have split : m * 65536 + r * 2 ^ (k + 1) =
      65536 * 2 ^ (k + 1) * (m / 2 ^ (k + 1)) + (65536 * (m % 2 ^ (k + 1)) + r * 2 ^ (k + 1)) := by
    conv_lhs => rw [← Nat.div_add_mod m (2 ^ (k + 1))]
    ring
  simp only [roundUnits, if_neg below, exponent]
  rw [power, split, Nat.mul_add_div (by positivity)]

end

/-- A sum of two fractions of a unit has a whole part of one or none. -/
theorem div_eq_ite_of_lt_two_mul {a u : Nat} (h : a < 2 * u) : a / u = if u ≤ a then 1 else 0 := by
  split
  · exact Nat.div_eq_of_lt_le (by omega) (by omega)
  · exact Nat.div_eq_of_lt (by omega)

end Sys2Proof.Machine

open Sys2Proof Sys2Proof.Machine

/-- Settles O16: the units below and the rest decide, the rest against half a unit or, with r / 2^16, against a whole one. -/
theorem roundingPicksNeighbours : Obligations.RoundingPicksNeighbours := by
  intro m e q less u
  obtain ⟨k, exponent⟩ : ∃ k, (q - e).toNat = k + 1 := ⟨(q - e).toNat - 1, by omega⟩
  have unit : u = 2 ^ (k + 1) := congrArg (2 ^ ·) exponent
  have double : u = 2 * 2 ^ k := unit.trans (Nat.pow_succ' ..)
  clear_value u
  have small : m % u < u := Nat.mod_lt _ (unit ▸ Nat.two_pow_pos _)
  refine ⟨?nearest, fun r hr => ?stochastic⟩
  case nearest =>
    have split : m = u * (m / u) + m % u := (Nat.div_add_mod m u).symm
    have rounded : roundUnits .rne m e q = if 2 ^ k < m % u ∨ m % u = 2 ^ k ∧ m / u % 2 = 1 then m / u + 1 else m / u := by
      subst unit
      exact roundUnits_rne_of_split exponent small split
    rw [Nat.mul_comm] at split
    rw [rounded]
    dsimp only
    split_ifs with up
    · rw [Nat.add_one_mul (m / u) u]
      omega
    · omega
  case stochastic =>
    have fraction : r * u < 65536 * u := Nat.mul_lt_mul_of_pos_right hr (by omega)
    have carry : 65536 * (m % u) + r * u < 2 * (65536 * u) := by omega
    rw [roundUnits_stoch exponent, ← unit, div_eq_ite_of_lt_two_mul carry, apply_ite (m / u + ·)]
    rfl
end

section
/-! SUPPORT. Encodings as a sign and a magnitude, and what each class of magnitude decodes and rounds to (O17). -/

namespace Sys2Proof.Machine

namespace FloatFmt

section
variable (f : FloatFmt) (s : Bool) {g : Nat}

/-! ### Sign and magnitude -/

theorem exists_sign_magnitude {f : FloatFmt} {n : Nat} (hn : n < 2 ^ f.width) :
    ∃ s g, g < 2 ^ (f.ebits + f.fbits) ∧ n = f.signBit s + g := by
  have twice : 2 ^ f.width = 2 * 2 ^ (f.ebits + f.fbits) := by rw [width, Nat.add_assoc, Nat.pow_add, Nat.pow_one]
  by_cases positive : n < 2 ^ (f.ebits + f.fbits)
  · exact ⟨false, n, positive, (Nat.zero_add n).symm⟩
  · exact ⟨true, n - 2 ^ (f.ebits + f.fbits), by omega, by simp only [signBit, if_true]; omega⟩

theorem signBit_eq_mul : f.signBit s = 2 ^ (f.ebits + f.fbits) * ofBool s := by
  cases s <;> simp [signBit, ofBool]

variable (small : g < 2 ^ (f.ebits + f.fbits))
include small

theorem signBit_add_mod : (f.signBit s + g) % 2 ^ (f.ebits + f.fbits) = g := by
  rw [signBit_eq_mul, Nat.mul_add_mod, Nat.mod_eq_of_lt small]

theorem signBit_add_lt_iff : f.signBit s + g < 2 ^ (f.ebits + f.fbits) ↔ s = false := by
  cases s <;> simp [signBit, small]

theorem bitAt_signBit_add : bitAt (f.signBit s + g) (f.ebits + f.fbits) = s := by
  rw [bitAt, Nat.shiftRight_eq_div_pow, signBit_eq_mul, Nat.mul_add_div (Nat.two_pow_pos _), Nat.div_eq_of_lt small]
  cases s <;> rfl

theorem exponent_signBit_add : bitsAt (f.signBit s + g) f.fbits f.ebits = g / 2 ^ f.fbits := by
  rw [bitsAt_eq_div_mod, ← Nat.mod_mul_right_div_self, ← Nat.pow_add, Nat.add_comm f.fbits, signBit_add_mod f s small]

theorem fraction_signBit_add : bitsAt (f.signBit s + g) 0 f.fbits = g % 2 ^ f.fbits := by
  rw [bitsAt_eq_div_mod, Nat.pow_zero, Nat.div_one, ← Nat.mod_mod_of_dvd _ (Nat.pow_dvd_pow 2 (Nat.le_add_left f.fbits f.ebits)),
    signBit_add_mod f s small]

theorem decode_signBit_add : f.decode (f.signBit s + g) =
    if f.special = .ieee && g / 2 ^ f.fbits == 2 ^ f.ebits - 1 then (if g % 2 ^ f.fbits = 0 then .inf s else .nan)
    else if f.special = .e4m3 && g / 2 ^ f.fbits == 2 ^ f.ebits - 1 && g % 2 ^ f.fbits == 2 ^ f.fbits - 1 then .nan
    else if g / 2 ^ f.fbits = 0 then .fin s (g % 2 ^ f.fbits) (f.emin - f.fbits)
    else .fin s (2 ^ f.fbits + g % 2 ^ f.fbits) (((g / 2 ^ f.fbits : Nat) : Int) - f.bias - f.fbits) := by
  rw [decode, bitAt_signBit_add f s small, exponent_signBit_add f s small, fraction_signBit_add f s small, emin]

end

/-! ### Classes of magnitudes -/

/-- The magnitude bits `g` hold a normal number: significand `m` with its hidden bit, and exponent `e`. -/
structure Normal (f : FloatFmt) (g m : Nat) (e : Int) : Prop where
  hidden : 2 ^ f.fbits ≤ m
  upper : m < 2 ^ (f.fbits + 1)
  exponent : f.emin ≤ e + f.fbits
  bits : (e + f.fbits + f.bias).toNat * 2 ^ f.fbits + (m - 2 ^ f.fbits) = g
  finite : g ≤ f.maxBits

theorem normal_of_finite {f : FloatFmt} {g : Nat} (small : g < 2 ^ (f.ebits + f.fbits)) (binade : g / 2 ^ f.fbits ≠ 0)
    (noInf : ¬ (f.special = .ieee && g / 2 ^ f.fbits == 2 ^ f.ebits - 1) = true)
    (noNan : ¬ (f.special = .e4m3 && g / 2 ^ f.fbits == 2 ^ f.ebits - 1 && g % 2 ^ f.fbits == 2 ^ f.fbits - 1) = true) :
    f.Normal g (2 ^ f.fbits + g % 2 ^ f.fbits) (((g / 2 ^ f.fbits : Nat) : Int) - f.bias - f.fbits) := by
  have frac : g % 2 ^ f.fbits < 2 ^ f.fbits := Nat.mod_lt _ (Nat.two_pow_pos _)
  have split : 2 ^ f.fbits * (g / 2 ^ f.fbits) + g % 2 ^ f.fbits = g := Nat.div_add_mod g _
  have top : 2 ^ (f.ebits + f.fbits) = 2 ^ f.fbits * (2 ^ f.ebits - 1) + 2 ^ f.fbits := by
    rw [← Nat.mul_succ, Nat.succ_eq_add_one, Nat.sub_add_cancel Nat.one_le_two_pow, ← Nat.pow_add, Nat.add_comm]
  refine ⟨Nat.le_add_right .., by rw [Nat.pow_succ]; omega, ?_, ?_, ?_⟩
  · have least : (1 : Int) ≤ ((g / 2 ^ f.fbits : Nat) : Int) := Int.natCast_pos.2 (Nat.pos_of_ne_zero binade)
    generalize ((g / 2 ^ f.fbits : Nat) : Int) = ex at least
    rw [emin]
    omega
  · have ex : (((g / 2 ^ f.fbits : Nat) : Int) - f.bias - f.fbits + f.fbits + f.bias).toNat = g / 2 ^ f.fbits := by
      rw [Int.sub_add_cancel, Int.sub_add_cancel, Int.toNat_natCast]
    rw [ex, Nat.add_sub_cancel_left, Nat.mul_comm, split]
  · rw [maxBits]
    cases kind : f.special with
    | ieee =>
      have below : g / 2 ^ f.fbits < 2 ^ f.ebits - 1 := by
        have : g / 2 ^ f.fbits < 2 ^ f.ebits := Nat.div_lt_of_lt_mul (by rwa [← Nat.pow_add, Nat.add_comm])
        have : g / 2 ^ f.fbits ≠ 2 ^ f.ebits - 1 := by simpa [kind] using noInf
        omega
      exact Nat.le_sub_one_of_lt ((Nat.div_lt_iff_lt_mul (Nat.two_pow_pos _)).1 below)
    | e4m3 =>
      have : g ≠ 2 ^ (f.ebits + f.fbits) - 1 := by
        rintro rfl
        apply noNan
        have all : 2 ^ (f.ebits + f.fbits) - 1 = 2 ^ f.fbits * (2 ^ f.ebits - 1) + (2 ^ f.fbits - 1) := by omega
        rw [all, Nat.mul_add_div (Nat.two_pow_pos _), Nat.mul_add_mod, Nat.div_eq_of_lt (by omega), Nat.mod_eq_of_lt (by omega)]
        simp [kind]
      exact (by omega : g ≤ 2 ^ (f.ebits + f.fbits) - 2)
    | none => exact Nat.le_sub_one_of_lt small

/-- Whatever the sign, a magnitude is a NaN, the infinity, a zero or a subnormal, or a normal number (R41, R42). -/
theorem magnitude_cases {f : FloatFmt} {g : Nat} (wide : 0 < f.ebits) (small : g < 2 ^ (f.ebits + f.fbits)) :
    (2 ^ f.fbits ≤ g ∧ ∀ s, f.decode (f.signBit s + g) = .nan) ∨
    (2 ^ f.fbits ≤ g ∧ f.special = .ieee ∧ g = (2 ^ f.ebits - 1) * 2 ^ f.fbits ∧ ∀ s, f.decode (f.signBit s + g) = .inf s) ∨
    (g < 2 ^ f.fbits ∧ ∀ s, f.decode (f.signBit s + g) = .fin s g (f.emin - f.fbits)) ∨
    (2 ^ f.fbits ≤ g ∧ ∃ m e, f.Normal g m e ∧ ∀ s, f.decode (f.signBit s + g) = .fin s m e) := by
  have unit := Nat.two_pow_pos f.fbits
  have split := Nat.div_add_mod g (2 ^ f.fbits)
  have binade (nonzero : g / 2 ^ f.fbits ≠ 0) : 2 ^ f.fbits ≤ g := Nat.not_lt.1 fun less => nonzero (Nat.div_eq_of_lt less)
  have top : 2 ^ f.ebits - 1 ≠ 0 := by
    have := Nat.one_lt_two_pow (Nat.ne_of_gt wide)
    omega
  by_cases special : (f.special = .ieee && g / 2 ^ f.fbits == 2 ^ f.ebits - 1) = true
  · obtain ⟨kind, ones⟩ : f.special = .ieee ∧ g / 2 ^ f.fbits = 2 ^ f.ebits - 1 := by simpa using special
    by_cases inf : g % 2 ^ f.fbits = 0
    · refine .inr (.inl ⟨binade (ones ▸ top), kind, ?_, fun s => ?_⟩)
      · rw [← ones, Nat.mul_comm, ← Nat.add_zero (_ * _), ← inf, split]
      · rw [decode_signBit_add f s small, if_pos special, if_pos inf]
    · refine .inl ⟨binade (ones ▸ top), fun s => ?_⟩
      rw [decode_signBit_add f s small, if_pos special, if_neg inf]
  · by_cases nan : (f.special = .e4m3 && g / 2 ^ f.fbits == 2 ^ f.ebits - 1 && g % 2 ^ f.fbits == 2 ^ f.fbits - 1) = true
    · obtain ⟨⟨-, ones⟩, -⟩ : (f.special = .e4m3 ∧ g / 2 ^ f.fbits = 2 ^ f.ebits - 1) ∧ g % 2 ^ f.fbits = 2 ^ f.fbits - 1 := by
        simpa using nan
      refine .inl ⟨binade (ones ▸ top), fun s => ?_⟩
      rw [decode_signBit_add f s small, if_neg special, if_pos nan]
    · by_cases low : g / 2 ^ f.fbits = 0
      · have less : g < 2 ^ f.fbits := (Nat.div_eq_zero_iff_lt unit).1 low
        refine .inr (.inr (.inl ⟨less, fun s => ?_⟩))
        rw [decode_signBit_add f s small, if_neg special, if_neg nan, if_pos low, Nat.mod_eq_of_lt less]
      · refine .inr (.inr (.inr ⟨binade low, _, _, normal_of_finite small low special nan, fun s => ?_⟩))
        rw [decode_signBit_add f s small, if_neg special, if_neg nan, if_neg low]

/-! ### Sign operations, rounding and flushing -/

/-- Without the output flush a subnormal rounds to its own encoding. -/
theorem roundFin_of_subnormal_kept (f : FloatFmt) (mode : Rmode) (sat neg : Bool) {m : Nat} (pos : m ≠ 0) (upper : m < 2 ^ f.fbits) :
    f.roundFin mode sat false neg m (f.emin - f.fbits) = (f.signBit neg + m, .none) := by
  have len := bitLen_le_of_lt upper
  have unit : max (Val.topExp m (f.emin - f.fbits)) f.emin - f.fbits = f.emin - f.fbits := by
    rw [Val.topExp]
    omega
  have carry : ¬ 2 ^ (f.fbits + 1) ≤ m := Nat.not_le.2 (Nat.lt_trans upper (Nat.pow_lt_pow_right (by decide) (by omega)))
  simp only [roundFin, unit, roundUnits_self, if_neg pos, ge_iff_le, decide_eq_false carry, Bool.false_eq_true, ↓reduceIte, if_pos upper]

section
variable {f : FloatFmt} {g : Nat} (wide : 0 < f.ebits) (small : g < 2 ^ (f.ebits + f.fbits))
include wide small

theorem decode_abs (s : Bool) : (f.decode (f.signBit s + g)).abs = f.decode (f.signBit false + g) := by
  obtain ⟨-, nan⟩ | ⟨-, -, -, inf⟩ | ⟨-, low⟩ | ⟨-, m, e, -, normal⟩ := magnitude_cases wide small
  · rw [nan, nan, Val.abs]
  · rw [inf, inf, Val.abs]
  · rw [low, low, Val.abs]
  · rw [normal, normal, Val.abs]

theorem decode_neg (s : Bool) : (f.decode (f.signBit s + g)).neg = f.decode (f.signBit (!s) + g) := by
  obtain ⟨-, nan⟩ | ⟨-, -, -, inf⟩ | ⟨-, low⟩ | ⟨-, m, e, -, normal⟩ := magnitude_cases wide small
  · rw [nan, nan, Val.neg]
  · rw [inf, inf, Val.neg]
  · rw [low, low, Val.neg]
  · rw [normal, normal, Val.neg]

theorem decode_nan_iff (s t : Bool) : f.decode (f.signBit s + g) = .nan ↔ f.decode (f.signBit t + g) = .nan := by
  obtain ⟨-, nan⟩ | ⟨-, -, -, inf⟩ | ⟨-, low⟩ | ⟨-, m, e, -, normal⟩ := magnitude_cases wide small
  · rw [nan, nan]
  · simp only [inf, reduceCtorEq]
  · simp only [low, reduceCtorEq]
  · simp only [normal, reduceCtorEq]

variable {ftz : Bool} (s : Bool)

/-- R60, R61: a subnormal operand enters as a zero of its sign. -/
theorem iflushAt_decode_subnormal (flushes : ftz = true) (pos : 0 < g) (below : g < 2 ^ f.fbits) :
    iflushAt f.emin ftz (f.decode (f.signBit s + g)) = (.zero s, .onlyFtz true) := by
  obtain ⟨above, -⟩ | ⟨above, -⟩ | ⟨-, low⟩ | ⟨above, -⟩ := magnitude_cases wide small
  case inr.inr.inl =>
    have len := bitLen_le_of_lt below
    have under : belowNormal f.emin (.fin s g (f.emin - f.fbits)) = true := by
      have top : Val.topExp g (f.emin - f.fbits) < f.emin := by
        rw [Val.topExp]
        omega
      simp [belowNormal, top, Nat.ne_of_gt pos]
    rw [low, iflushAt, under, flushes]
    rfl
  all_goals exact absurd below (Nat.not_lt.2 above)

variable (kept : ftz = false ∨ g = 0 ∨ 2 ^ f.fbits ≤ g)
include kept

/-- An encoding enters the engine as it is unless it is a subnormal that is flushed. -/
theorem iflushAt_decode : iflushAt f.emin ftz (f.decode (f.signBit s + g)) = (f.decode (f.signBit s + g), .none) := by
  obtain ⟨-, nan⟩ | ⟨-, -, -, inf⟩ | ⟨below, low⟩ | ⟨-, m, e, normal, value⟩ := magnitude_cases wide small
  · rw [nan, iflushAt_nan]
  · simp [inf, iflushAt, belowNormal]
  · obtain rfl | rfl | above := kept
    · rw [iflushAt_off]
    · rw [low, iflushAt_zero]
    · exact absurd below (Nat.not_lt.2 above)
  · have exponent := normal.exponent
    have reaches : belowNormal f.emin (.fin s m e) = false := by
      simp only [belowNormal, Val.topExp, bitLen_of_range normal.hidden normal.upper, Bool.and_eq_false_iff, decide_eq_false_iff_not]
      omega
    simp [value, iflushAt, reaches]

/-- An encoding that is no NaN, nor a subnormal that is flushed, rounds to itself without a flag (R50). -/
theorem rne_decode (number : f.decode (f.signBit s + g) ≠ .nan) : f.rne ftz (f.decode (f.signBit s + g)) = (f.signBit s + g, .none) := by
  obtain ⟨-, nan⟩ | ⟨-, kind, top, inf⟩ | ⟨below, low⟩ | ⟨-, m, e, normal, value⟩ := magnitude_cases wide small
  · exact absurd (nan s) number
  · rw [inf, rne, round, kind, top, infBits]
  · rw [low, rne, round]
    split
    case isTrue zero => rw [zero, Nat.add_zero]
    case isFalse pos =>
      obtain rfl | rfl | above := kept
      · exact roundFin_of_subnormal_kept f _ _ s pos below
      · exact absurd rfl pos
      · exact absurd below (Nat.not_lt.2 above)
  · have pos : m ≠ 0 := Nat.ne_of_gt (Nat.lt_of_lt_of_le (Nat.two_pow_pos _) normal.hidden)
    rw [value, rne, round, if_neg pos, roundFin_of_normal _ _ _ s normal.hidden normal.upper normal.exponent (normal.bits ▸ normal.finite),
      normal.bits]

end
end FloatFmt

/-! ### ABS and NEG (R137) -/

section
variable (ff : FloatFmt) (ftz : Bool) (a b c : Nat)

theorem vopFloat_abs : vopFloat ff ftz 7 a b c =
    ((ff.rne ftz (ff.operand ftz a).abs).1, (ff.operandFlags ftz a).or (ff.rne ftz (ff.operand ftz a).abs).2) := by
  simp [vopFloat, vopUsesB, vopUsesC, FloatFmt.operand, FloatFmt.operandFlags]

theorem vopFloat_neg : vopFloat ff ftz 8 a b c =
    ((ff.rne ftz (ff.operand ftz a).neg).1, (ff.operandFlags ftz a).or (ff.rne ftz (ff.operand ftz a).neg).2) := by
  simp [vopFloat, vopUsesB, vopUsesC, FloatFmt.operand, FloatFmt.operandFlags]

section
variable {ff ftz a b c}

theorem vopFloat_sign_of_nan (nan : ff.decode a = .nan) :
    vopFloat ff ftz 7 a b c = (ff.nanBits, .none) ∧ vopFloat ff ftz 8 a b c = (ff.nanBits, .none) := by
  simp [vopFloat_abs, vopFloat_neg, FloatFmt.operand, FloatFmt.operandFlags, nan, iflushAt_nan, Val.abs, Val.neg]

variable {s : Bool} {g : Nat} (encoding : a = ff.signBit s + g) (wide : 0 < ff.ebits) (small : g < 2 ^ (ff.ebits + ff.fbits))
include encoding wide small

theorem vopFloat_sign_of_kept (number : ff.decode a ≠ .nan) (kept : ftz = false ∨ g = 0 ∨ 2 ^ ff.fbits ≤ g) :
    vopFloat ff ftz 7 a b c = (g, .none) ∧ vopFloat ff ftz 8 a b c = (ff.signBit (!s) + g, .none) := by
  subst encoding
  have enters := FloatFmt.iflushAt_decode wide small s kept
  have rounds (t : Bool) := FloatFmt.rne_decode wide small t kept (mt (FloatFmt.decode_nan_iff wide small t s).1 number)
  rw [vopFloat_abs, vopFloat_neg, FloatFmt.operand, FloatFmt.operandFlags, enters]
  simp only [FloatFmt.decode_abs wide small, FloatFmt.decode_neg wide small, rounds, ArithFlags.or_none]
  simp [FloatFmt.signBit]

theorem vopFloat_sign_of_flushed (flushes : ftz = true) (pos : 0 < g) (below : g < 2 ^ ff.fbits) :
    vopFloat ff ftz 7 a b c = (0, .onlyFtz true) ∧ vopFloat ff ftz 8 a b c = (ff.signBit (!s), .onlyFtz true) := by
  subst encoding
  rw [vopFloat_abs, vopFloat_neg, FloatFmt.operand, FloatFmt.operandFlags, FloatFmt.iflushAt_decode_subnormal wide small s flushes pos below]
  simp [Val.zero, Val.abs, Val.neg, FloatFmt.signBit]

end
end
end Sys2Proof.Machine

open Sys2Proof Sys2Proof.Machine

/-- Settles O17: an encoding is a sign and a magnitude, and the class of its magnitude says what it decodes, flushes and rounds to. -/
theorem encodingsKeepTheirValues : Obligations.EncodingsKeepTheirValues := by
  refine ⟨fun f n listed bound => ?itself, fun f ftz a b c listed bound => ?signs⟩
  case itself =>
    have wide : 0 < f.ebits := (by decide : ∀ f ∈ [fp32, bf16, fp16, e4m3, e5m2, e2m3, e3m2, e2m1], 0 < f.ebits) f listed
    obtain ⟨s, g, small, rfl⟩ := FloatFmt.exists_sign_magnitude bound
    exact ⟨FloatFmt.rne_decode wide small s (.inl rfl), fun nan => nan ▸ FloatFmt.rne_nan f false⟩
  case signs =>
    intro top low
    have wide : 0 < f.ebits := (by decide : ∀ f ∈ [fp32, bf16, fp16], 0 < f.ebits) f listed
    obtain ⟨s, g, small, encoding⟩ := FloatFmt.exists_sign_magnitude bound
    have magnitude : low = g := (congrArg (· % top) encoding).trans (FloatFmt.signBit_add_mod f s small)
    have flipped : (if a < top then top else 0) = f.signBit (!s) := by
      simp only [encoding, top, FloatFmt.signBit_add_lt_iff f s small]
      cases s <;> rfl
    rw [magnitude, flipped, Nat.add_comm g]
    exact ⟨vopFloat_sign_of_nan, vopFloat_sign_of_kept encoding wide small, vopFloat_sign_of_flushed encoding wide small⟩
end

section
/-! SUPPORT. Reads of a core's control space at an offset that no register of it has (O52). -/

namespace Sys2Proof.Machine

theorem regValue_of_unlisted {rows : List RegRow} {off : Nat} (unlisted : ∀ r ∈ rows, r.1 ≠ off) : regValue rows off = 0 := by
  have none : rows.find? (fun r => r.1 == off) = none := List.find?_eq_none.2 fun r hr => by simpa using unlisted r hr
  rw [regValue, none]

theorem Core.counterRows_offset (c : Core) {r : RegRow} (hr : r ∈ c.counterRows) : 0x108 ≤ r.1 := by
  simp only [Core.counterRows, List.mem_append, List.mem_map, List.mem_cons, List.not_mem_nil, or_false] at hr
  rcases hr with (listed | ⟨i, -, rfl⟩) | listed
  · rcases listed with rfl | rfl | rfl | rfl | rfl | rfl | rfl <;> simp only <;> omega
  · simp only
    omega
  · rcases listed with rfl | rfl | rfl | rfl | rfl <;> simp only <;> omega

/-- CORE_AFLAGS is the one register of a core's control space below 0x100. -/
theorem State.coreRows_offset (s : State) (p : Fin 20) {r : RegRow} (hr : r ∈ s.coreRows p) : r.1 = 0x40 ∨ 0x100 ≤ r.1 := by
  rw [State.coreRows, List.mem_append, List.mem_append, List.mem_append] at hr
  rcases hr with ((fixed | token) | stream) | counter
  · revert r
    simp
  · refine .inr ?_
    split at token
    · obtain ⟨t, -, rfl⟩ := List.mem_map.1 token
      simp only
      omega
    · exact absurd token List.not_mem_nil
  · revert r
    simp
  · exact .inr (Nat.le_trans (by decide) (Core.counterRows_offset _ counter))

theorem State.modV_of_vacant {s : State} {p : Fin 20} (vacant : (s.core p).v = none) (f : VCore → VCore) : s.modV p f = s := by
  have same : (s.core p).modV f = s.core p := by
    rw [Core.modV, vacant]
    exact congrArg (fun v => { s.core p with v }) vacant.symm
  rw [State.modV, State.modCore, same, State.setCore_self]

end Sys2Proof.Machine

open Sys2Proof Sys2Proof.Machine

/-- Settles O52: the register has no row to be read, and its write adds to the flags of the resident virtual core, where there is one. -/
theorem aflagsSetSetsFlags : Obligations.AflagsSetSetsFlags := by
  intro s p value
  refine ⟨regValue_of_unlisted fun r hr off => ?reads, fun vacant => congrArg _ (State.modV_of_vacant vacant _), fun v resident => ?sets⟩
  case reads =>
    have := s.coreRows_offset p hr
    omega
  case sets =>
    refine ⟨v.flags.or (.ofBits value.toNat), congrArg _ (State.modV_of_resident resident _), ?_⟩
    simp [ArithFlags.or, ArithFlags.ofBits, bitAt_toNat]
end

section
/-! SUPPORT. What the latency audit and the race audit find (O34). -/

namespace Sys2Proof.Machine

/-! ### Latency audit (R195) -/

/-- The first write whose value read `r` would take before it is visible. -/
def Core.hiddenWrite (c : Core) (r : Access) : Option Access :=
  c.tags.find? fun w => w.write && w.meets r r.space.grain && decide (r.cycle < w.visible)

/-- CORE_FAULT_INFO for read `r` of a value that write `w` makes visible (log 70). -/
def Access.earlyInfo (r w : Access) : Nat :=
  (if r.space = .acc then 4 * r.lo else r.lo) % 4294967296 + 4294967296 * (w.visible % 4294967296)

section
variable (c : Core)

theorem Core.earlyRead_eq (reads : List Access) : c.earlyRead reads = reads.findSome? fun r => (c.hiddenWrite r).map r.earlyInfo := by
  rw [Core.earlyRead]
  congr 1
  funext r
  rw [Core.hiddenWrite]
  split
  case h_1 found => simp [found, Access.earlyInfo]
  case h_2 found => simp [found]

theorem Core.hiddenWrite_eq_none_iff (r : Access) : c.hiddenWrite r = none ↔
    ∀ w ∈ c.tags, w.write = true → w.meets r r.space.grain = true → w.visible ≤ r.cycle := by
  simp [Core.hiddenWrite]

theorem Core.hiddenWrite_spec {c : Core} {r w : Access} (found : c.hiddenWrite r = some w) :
    w ∈ c.tags ∧ w.write = true ∧ w.meets r r.space.grain = true ∧ r.cycle < w.visible := by
  have hidden := List.find?_some found
  simp only [Bool.and_eq_true, decide_eq_true_eq] at hidden
  obtain ⟨⟨write, meets⟩, early⟩ := hidden
  exact ⟨List.mem_of_find?_eq_some found, write, meets, early⟩

theorem Core.earlyRead_eq_none_iff (reads : List Access) : c.earlyRead reads = none ↔
    ∀ r ∈ reads, ∀ w ∈ c.tags, w.write = true → w.meets r r.space.grain = true → w.visible ≤ r.cycle := by
  simp only [Core.earlyRead_eq, List.findSome?_eq_none_iff, Option.map_eq_none_iff, Core.hiddenWrite_eq_none_iff]

theorem Core.earlyRead_spec {c : Core} {reads : List Access} {info : Nat} (early : c.earlyRead reads = some info) :
    ∃ r ∈ reads, ∃ w, c.hiddenWrite r = some w ∧ r.earlyInfo w = info := by
  rw [Core.earlyRead_eq] at early
  obtain ⟨r, hr, found⟩ := List.exists_of_findSome?_eq_some early
  exact ⟨r, hr, Option.map_eq_some_iff.1 found⟩

/-- Such a read: fault 0x0A instead of the issue. -/
theorem State.audit_early {s : State} {p : Fin 20} {k : Fin 128} {opcode info : Nat} {reads writes : List Access} {go : State → State}
    (on : s.job.latAudit = true) (early : (s.core p).earlyRead reads = some info) :
    s.audit p k opcode reads writes go = s.fault p k 0x0A opcode info := by
  rw [State.audit, if_pos on, early]

/-! ### Race audit (R196) -/

theorem exists_common_granule {g a m b n : Nat} (pos : 0 < g) (order : a / g ≤ b / g) (reaches : b / g ≤ (a + m - 1) / g)
    (hm : 0 < m) (hn : 0 < n) :
    ∃ x y, a ≤ x ∧ x < a + m ∧ b ≤ y ∧ y < b + n ∧ x / g = y / g := by
  have last : b / g * g ≤ a + m - 1 := (Nat.le_div_iff_mul_le pos).1 reaches
  by_cases before : a ≤ b / g * g
  · exact ⟨b / g * g, b, before, by omega, Nat.le_refl b, by omega, Nat.mul_div_cancel _ pos⟩
  · have same : b / g ≤ a / g := (Nat.le_div_iff_mul_le pos).2 (Nat.le_of_not_le before)
    exact ⟨a, b, Nat.le_refl a, by omega, Nat.le_refl b, by omega, Nat.le_antisymm order same⟩

/-- Two runs of cells have a granule in common where neither begins behind the other's last granule. -/
theorem common_granule_iff {g : Nat} (pos : 0 < g) (a m b n : Nat) :
    (∃ x y, a ≤ x ∧ x < a + m ∧ b ≤ y ∧ y < b + n ∧ x / g = y / g) ↔
      a / g ≤ (b + n - 1) / g ∧ b / g ≤ (a + m - 1) / g ∧ 0 < m ∧ 0 < n := by
  constructor
  · rintro ⟨x, y, ax, xm, b_y, yn, same⟩
    have bounds : a / g ≤ x / g ∧ x / g ≤ (a + m - 1) / g ∧ b / g ≤ y / g ∧ y / g ≤ (b + n - 1) / g :=
      ⟨Nat.div_le_div_right ax, Nat.div_le_div_right (by omega), Nat.div_le_div_right b_y, Nat.div_le_div_right (by omega)⟩
    omega
  · rintro ⟨ab, ba, hm, hn⟩
    obtain order | order := Nat.le_total (a / g) (b / g)
    · exact exists_common_granule pos order ba hm hn
    · obtain ⟨y, x, hb, hbn, ha, ham, same⟩ := exists_common_granule pos order ab hn hm
      exact ⟨x, y, ha, ham, hb, hbn, same.symm⟩

theorem Space.raceGrain_pos (space : Space) : 0 < space.raceGrain := by
  cases space <;> decide

theorem Access.races_iff (a b : Access) : a.races b = true ↔
    (a.space = b.space ∧ (a.space = .tile ∨ a.space = .treg ∨ a.space = .stepTag)) ∧
    (∃ x y, a.lo ≤ x ∧ x < a.lo + a.len ∧ b.lo ≤ y ∧ y < b.lo + b.len ∧ x / a.space.raceGrain = y / a.space.raceGrain) ∧
    a.strand ≠ b.strand ∧ (a.write = true ∨ b.write = true) ∧ a.cycle ≤ b.cycle + 4096 ∧ b.cycle ≤ a.cycle + 4096 := by
  rw [common_granule_iff a.space.raceGrain_pos]
  simp only [Access.races, Access.meets, Bool.and_eq_true, Bool.or_eq_true, beq_iff_eq, bne_iff_ne, decide_eq_true_eq]
  tauto

/-- The pairs that new accesses form with those kept. -/
def Core.newRaces (c : Core) (news : List Access) : List RacePair :=
  news.flatMap fun n => (c.tags.filter fun a => a.races n).map fun a => ⟨a, n, []⟩

theorem Core.auditRaces_eq (news : List Access) : c.auditRaces news = { c with raceDue := c.raceDue ++ c.newRaces news } := by
  induction news generalizing c with
  | nil => simp [Core.auditRaces, Core.newRaces]
  | cons n news ih =>
    rw [Core.auditRaces, List.foldl_cons]
    refine (ih _).trans ?_
    simp [Core.newRaces]

theorem Core.mem_newRaces (news : List Access) (x : RacePair) :
    x ∈ c.newRaces news ↔ ∃ n ∈ news, ∃ a ∈ c.tags, a.races n = true ∧ x = ⟨a, n, []⟩ := by
  simp only [Core.newRaces, List.mem_flatMap, List.mem_map, List.mem_filter, and_assoc, eq_comm (a := x)]

/-- Both accesses of a pair have happened. -/
def Core.racePast (c : Core) (x : RacePair) : Bool := decide (x.first.cycle < c.cycle) && decide (x.second.cycle < c.cycle)

/-- The record of a pair, with both strands' token operations between its accesses. -/
def Core.raceRecord (c : Core) (x : RacePair) : RacePair :=
  { x with ops := c.tokenOps.filter fun o => (o.strand == x.first.strand || o.strand == x.second.strand)
      && decide (min x.first.cycle x.second.cycle ≤ o.cycle) && decide (o.cycle ≤ max x.first.cycle x.second.cycle) }

/-- The records that are complete now. -/
def Core.raceRecords (c : Core) : List RacePair := (c.raceDue.filter c.racePast).map c.raceRecord

theorem Core.mem_raceRecord_ops (y : RacePair) (o : TokenOp) : o ∈ (c.raceRecord y).ops ↔
    o ∈ c.tokenOps ∧ (o.strand = y.first.strand ∨ o.strand = y.second.strand) ∧
      min y.first.cycle y.second.cycle ≤ o.cycle ∧ o.cycle ≤ max y.first.cycle y.second.cycle := by
  simp only [Core.raceRecord, List.mem_filter, Bool.and_eq_true, Bool.or_eq_true, beq_iff_eq, decide_eq_true_eq, and_assoc]

/-- Records go to the trace as far as it has room, and the others are counted. -/
theorem Core.settleRaces_eq : c.settleRaces =
    { c with raceDue := c.raceDue.filter fun x => !c.racePast x,
             races := c.races ++ c.raceRecords.take (Config.traceRoom - c.races.length),
             racesLost := c.racesLost + (c.raceRecords.length - (Config.traceRoom - c.races.length)) } := by
  have past (x : RacePair) : decide (max x.first.cycle x.second.cycle < c.cycle) = c.racePast x := by
    simp [Core.racePast]
  rw [Core.settleRaces]
  split
  case isTrue empty =>
    have none : c.raceDue = [] := List.isEmpty_iff.1 empty
    simp [Core.raceRecords, none]
    exact congrArg (fun raceDue => { c with raceDue }) none
  case isFalse =>
    simp only [past]
    rfl

theorem Core.settleRaces_records {x : RacePair} (hx : x ∈ c.settleRaces.races) :
    x ∈ c.races ∨ ∃ y ∈ c.raceDue, c.racePast y = true ∧ c.raceRecord y = x := by
  rw [Core.settleRaces_eq] at hx
  obtain old | new := List.mem_append.1 hx
  · exact .inl old
  · obtain ⟨y, hy, made⟩ := List.mem_map.1 (List.mem_of_mem_take new)
    obtain ⟨due, past⟩ := List.mem_filter.1 hy
    exact .inr ⟨y, due, past, made⟩

theorem Core.settleRaces_count : c.settleRaces.racesLost + c.settleRaces.races.length =
    c.racesLost + c.races.length + (c.raceDue.filter c.racePast).length := by
  have made : c.raceRecords.length = (c.raceDue.filter c.racePast).length := List.length_map ..
  simp only [Core.settleRaces_eq, List.length_append, List.length_take]
  omega

theorem Core.settleRaces_room (fits : c.races.length ≤ Config.traceRoom) : c.settleRaces.races.length ≤ Config.traceRoom := by
  simp only [Core.settleRaces_eq, List.length_append, List.length_take]
  omega

end
end Sys2Proof.Machine
end

section
/-! SUPPORT. What a core's running instructions leave alone as its cycles pass: its field test and its recheck (O34). -/

namespace Sys2Proof.Machine

/-- The field test and the strands that a recheck put aside. -/
def Core.checks (c : Core) : Option FieldTest × Option (Vector Strand 128) := (c.test, c.recheck)

/-! ### Changes of the core -/

section
variable (c : Core)

theorem Core.checks_foldl {α : Type} {f : Core → α → Core} (keeps : ∀ c a, (f c a).checks = c.checks) (l : List α) :
    (l.foldl f c).checks = c.checks := by
  induction l generalizing c with
  | nil => rfl
  | cons a l ih => rw [List.foldl_cons, ih, keeps]

@[simp] theorem Core.checks_modV (f : VCore → VCore) : (c.modV f).checks = c.checks := rfl

@[simp] theorem Core.checks_addStall (code n : Nat) : (c.addStall code n).checks = c.checks := by
  unfold Core.addStall
  split <;> rfl

@[simp] theorem Core.checks_freeze (code n : Nat) : (c.freeze code n).checks = c.checks := c.checks_addStall code n

@[simp] theorem Core.checks_unblock (n : Nat) : (Core.unblock n c).checks = c.checks := by
  induction n generalizing c with
  | zero => rfl
  | succ n ih =>
    unfold Core.unblock
    split
    · rw [ih, Core.checks_freeze]
    · rfl

@[simp] theorem Core.checks_stop : c.stop.checks = c.checks := by
  unfold Core.stop
  split <;> rfl

@[simp] theorem Core.checks_raise (code strand opcode pc info : Nat) : (c.raise code strand opcode pc info).checks = c.checks := by
  unfold Core.raise
  dsimp only
  split <;> exact c.checks_stop

@[simp] theorem Core.checks_changeToken (x : TokenChange) : (c.changeToken x).checks = c.checks := by
  unfold Core.changeToken
  split
  · rfl
  · dsimp only
    split
    · rfl
    · split
      · exact c.checks_raise ..
      · exact c.checks_raise ..

@[simp] theorem Core.checks_endTokens : c.endTokens.checks = c.checks := Core.checks_foldl _ Core.checks_changeToken _

@[simp] theorem Core.checks_settleRaces : c.settleRaces.checks = c.checks := by
  rw [Core.settleRaces_eq]
  rfl

@[simp] theorem CycleCodes.checks_count (k : CycleCodes) (n : Nat) : (k.count c n).checks = c.checks :=
  Core.checks_foldl c (fun d code => d.checks_addStall code _) _

@[simp] theorem Core.checks_glide (k : CycleCodes) (per n : Nat) : (c.glide k per n).checks = c.checks :=
  (Core.checks_settleRaces _).trans ((CycleCodes.checks_count _ k n).trans c.checks_endTokens)

@[simp] theorem Core.checks_nextCycle (k : CycleCodes) (per : Nat) : (c.nextCycle k per).checks = c.checks :=
  (Core.checks_settleRaces _).trans ((CycleCodes.checks_count _ k 1).trans ((Core.checks_unblock _ _).trans c.checks_endTokens))

@[simp] theorem Core.checks_passCycles (k : CycleCodes) (per n : Nat) : (Core.passCycles k per n c).checks = c.checks := by
  induction n generalizing c with
  | zero => rfl
  | succ n ih =>
    unfold Core.passCycles
    split
    · exact c.checks_glide ..
    · rw [ih, Core.checks_nextCycle]

@[simp] theorem Core.checks_putCells (vals : List Nat) (acc : Access) : (c.putCells vals acc).checks = c.checks := by
  unfold Core.putCells
  split
  case h_1 =>
    unfold Core.putTile
    split
    · rfl
    · refine (Core.checks_foldl _ (fun c r => ?_) _).trans rfl
      dsimp only
      split <;> rfl
  case h_2 => unfold Core.putSlots; split <;> rfl
  case h_3 => unfold Core.putMask; split <;> rfl
  case h_4 => unfold Core.putAcc; split <;> rfl
  case h_5 => rfl

@[simp] theorem Core.checks_undefineCells (e : Nat) (a : Access) : (c.undefineCells e a).checks = c.checks := c.checks_putCells ..

end

/-! ### Reads and writes at a cycle -/

/-- The field test and the recheck of core `p`. -/
def State.checks (s : State) (p : Fin 20) : Option FieldTest × Option (Vector Strand 128) := (s.core p).checks

section
variable (s : State) (p : Fin 20) (r : Run)

theorem State.checks_modCore {f : Core → Core} (keeps : ∀ c, (f c).checks = c.checks) : (s.modCore p f).checks p = s.checks p := by
  rw [State.checks, State.core_modCore, keeps, State.checks]

theorem State.checks_foldl {α : Type} {f : State → α → State} (keeps : ∀ s a, (f s a).checks p = s.checks p) (l : List α) :
    (l.foldl f s).checks p = s.checks p := by
  induction l generalizing s with
  | nil => rfl
  | cons a l ih => rw [List.foldl_cons, ih, keeps]

/-- Steps over a state with a run beside it. -/
theorem State.checks_foldlRun {α : Type} {f : State × Run → α → State × Run} (keeps : ∀ x a, (f x a).1.checks p = x.1.checks p) (l : List α)
    (x : State × Run) : (l.foldl f x).1.checks p = x.1.checks p := by
  induction l generalizing x with
  | nil => rfl
  | cons a l ih => rw [List.foldl_cons, ih, keeps]

@[simp] theorem State.checks_modV (f : VCore → VCore) : (s.modV p f).checks p = s.checks p := s.checks_modCore p fun _ => rfl

@[simp] theorem State.checks_fresh : s.fresh.2.checks p = s.checks p := rfl

@[simp] theorem State.checks_charge (b d1 d2 d3 : Nat) : (s.charge b d1 d2 d3).checks p = s.checks p := rfl

@[simp] theorem State.checks_modUnit (u : Nat) (f : Witness → Witness) : (s.modUnit u f).checks p = s.checks p := rfl

@[simp] theorem State.checks_passTo (t : Nat) (k : CycleCodes) : (s.passTo p t k).checks p = s.checks p :=
  s.checks_modCore p fun c => c.checks_passCycles ..

@[simp] theorem State.checks_correct (pair : Bool) (accs : List Access) : (s.correct p pair accs).checks p = s.checks p := by
  unfold State.correct
  split
  · rfl
  · split
    · rfl
    · dsimp only
      rw [State.checks_charge, State.checks_modCore]
      exact fun _ => rfl

@[simp] theorem State.checks_blur (runs : List (Nat × Nat)) : (s.blur p runs).checks p = s.checks p := by
  unfold State.blur
  split
  · rfl
  · exact State.checks_modV ..

@[simp] theorem State.checks_arrive (accs : List Access) : (s.arrive p accs).checks p = s.checks p := by
  unfold State.arrive
  dsimp only
  split
  · rfl
  · exact (State.checks_blur ..).trans (s.checks_modCore p fun _ => rfl)

@[simp] theorem State.checks_leave (accs : List Access) : (s.leave p accs).checks p = s.checks p := s.checks_blur ..

@[simp] theorem State.checks_readNow (accs : List Access) : (s.readNow p accs).checks p = s.checks p := by
  simp [State.readNow]

@[simp] theorem State.checks_failRun (fault : Nat × Nat) (read : Bool) : (s.failRun p r fault read).1.checks p = s.checks p := by
  have raised : (if r.failed then s else s.modCore p fun c => c.raise fault.1 r.q.strand.val (fld r.q.word 0 10) r.q.pc.toNat fault.2).checks p =
      s.checks p := by
    split
    · rfl
    · exact s.checks_modCore p fun c => c.checks_raise ..
  unfold State.failRun
  dsimp only
  split
  · exact raised
  · exact (State.checks_modCore _ p fun c => c.checks_foldl (fun c a => c.checks_undefineCells ..) _).trans raised

@[simp] theorem State.checks_meetErrors (pair : Bool) (accs : List Access) : (s.meetErrors p r pair accs).1.checks p = s.checks p := by
  unfold State.meetErrors
  dsimp only
  split <;> simp

@[simp] theorem State.checks_meet (pair : Bool) (accs : List Access) : (s.meet p r pair accs).1.checks p = s.checks p := by
  simp [State.meet]

@[simp] theorem State.checks_putRun (a : Access) (vals : List Nat) : (s.putRun p r a vals).1.checks p = s.checks p := by
  unfold State.putRun
  dsimp only
  rw [State.checks_leave, State.checks_modCore, State.checks_meet]
  intro c
  split <;> simp

@[simp] theorem State.checks_runFlags (f : ArithFlags) : (s.runFlags p r f).checks p = s.checks p := by
  unfold State.runFlags
  split <;> simp

@[simp] theorem State.checks_putRuns (cycle visible : Nat) (xs : List (Nat × Nat)) (vals : List Nat) :
    (s.putRuns p r cycle visible xs vals).1.checks p = s.checks p := by
  induction xs generalizing s r vals with
  | nil => rfl
  | cons x xs ih =>
    unfold State.putRuns
    exact (ih ..).trans (State.checks_putRun ..)

@[simp] theorem State.checks_putKeyed (space : Space) (cycle visible : Nat) (ru : Bool) (xs : List (Nat × List Nat)) :
    (s.putKeyed p r space cycle visible ru xs).1.checks p = s.checks p := by
  induction xs generalizing s r with
  | nil => rfl
  | cons x xs ih =>
    unfold State.putKeyed
    exact (ih ..).trans (State.checks_putRun ..)

@[simp] theorem State.checks_putElems (n : Nat) (tr : Bool) (visible : Nat) (ru tapped : Bool) (es : List (Nat × Nat)) :
    (s.putElems p r n tr visible ru tapped es).1.checks p = s.checks p := State.checks_putKeyed ..

@[simp] theorem State.checks_putBits (m visible : Nat) (es : List (Nat × Nat)) : (s.putBits p r m visible es).1.checks p = s.checks p :=
  State.checks_putKeyed ..

@[simp] theorem State.checks_putBytes (visible : Nat) (es : List (Nat × Nat)) : (s.putBytes p r visible es).1.checks p = s.checks p :=
  State.checks_putKeyed ..

@[simp] theorem State.checks_addVerdict (set : Nat) (b : Bounds) (tap : Tap) (cycle : Nat) (step : Word) (pc : BitVec 16) (re : Bool)
    (dst len crc : Nat) : (s.modCore p fun c => c.addVerdict set b tap cycle step pc re dst len crc).checks p = s.checks p :=
  s.checks_modCore p fun _ => rfl

@[simp] theorem State.checks_checkVector (f : Fmt) : (s.checkVector p r f).checks p = s.checks p := by
  unfold State.checkVector
  dsimp only
  split
  · rfl
  · exact State.checks_addVerdict ..

/-! ### Pieces of the array's instructions -/

@[simp] theorem State.checks_takeBuffer (buf n : Nat) : (s.takeBuffer p r buf n).2.1.checks p = s.checks p := by
  unfold State.takeBuffer
  split <;> simp

@[simp] theorem State.checks_loadRowPiece (o : LoadOp) (wave : Bool) (k : Nat) : (s.loadRowPiece p r o wave k).1.checks p = s.checks p := by
  unfold State.loadRowPiece
  dsimp only
  repeat' split
  all_goals simp

@[simp] theorem State.checks_loadPiece (o : LoadOp) (wave : Bool) (k : Nat) : (s.loadPiece p r o wave k).1.checks p = s.checks p := by
  unfold State.loadPiece
  split <;> simp

@[simp] theorem State.checks_tokenPiece (t : Nat) : (s.tokenPiece p r t).1.checks p = s.checks p := by
  unfold State.tokenPiece
  dsimp only
  repeat' split
  all_goals simp

@[simp] theorem State.checks_accumPiece (t : Nat) : (s.accumPiece p r t).1.checks p = s.checks p := by
  unfold State.accumPiece
  dsimp only
  split <;> simp

@[simp] theorem State.checks_resultPiece (t pos : Nat) : (s.resultPiece p r t pos).1.checks p = s.checks p := by
  unfold State.resultPiece
  dsimp only
  split
  · rfl
  · rw [State.checks_putRun, State.checks_modCore, State.checks_runFlags]
    exact fun _ => rfl

@[simp] theorem State.checks_clearPiece (t n pos : Nat) : (s.clearPiece p r t n pos).1.checks p = s.checks p := by
  have counted : (s.modCore p fun c => { c with bskip := c.bskip + 1 }).checks p = s.checks p :=
    s.checks_modCore p fun _ => rfl
  unfold State.clearPiece
  dsimp only
  split
  · exact counted
  · rw [State.checks_putRun, State.checks_modCore, counted]
    exact fun _ => rfl

@[simp] theorem State.checks_drainPiece (k : Nat) : (s.drainPiece p r k).1.checks p = s.checks p := by
  unfold State.drainPiece
  dsimp only
  repeat' split
  all_goals simp

/-! ### Blocks of the vector engine and the reduction unit -/

@[simp] theorem State.checks_vopPiece (k : Nat) : (s.vopPiece p r k).1.checks p = s.checks p := by
  unfold State.vopPiece
  dsimp only
  repeat' split
  all_goals simp

@[simp] theorem State.checks_cvtPiece (k : Nat) : (s.cvtPiece p r k).1.checks p = s.checks p := by
  unfold State.cvtPiece
  dsimp only
  repeat' split
  all_goals simp

@[simp] theorem State.checks_trnPiece (k : Nat) : (s.trnPiece p r k).1.checks p = s.checks p := by
  unfold State.trnPiece
  dsimp only
  repeat' split
  all_goals simp

@[simp] theorem State.checks_failIndexed (o : GathOp) (kind : Indexed) (base : Int) (fault : Nat × Nat) :
    (s.failIndexed p r o kind base fault).1.checks p = s.checks p := by
  unfold State.failIndexed
  dsimp only
  repeat' split
  all_goals simp [State.checks_foldlRun]

@[simp] theorem State.checks_conflicts (n : Nat) : (s.modCore p fun c => { c with gconf := c.gconf + n }).checks p = s.checks p :=
  s.checks_modCore p fun _ => rfl

@[simp] theorem State.checks_indexPiece (k : Nat) : (s.indexPiece p r k).1.checks p = s.checks p := by
  unfold State.indexPiece
  dsimp only
  repeat' split
  all_goals simp [State.checks_foldlRun]

@[simp] theorem State.checks_scanPiece (k : Nat) : (s.scanPiece p r k).1.checks p = s.checks p := by
  unfold State.scanPiece
  dsimp only
  repeat' split
  all_goals simp

@[simp] theorem State.checks_rngPiece (k : Nat) : (s.rngPiece p r k).1.checks p = s.checks p := by
  unfold State.rngPiece
  dsimp only
  split <;> simp

@[simp] theorem State.checks_redPiece (k : Nat) : (s.redPiece p r k).1.checks p = s.checks p := by
  unfold State.redPiece
  dsimp only
  repeat' split
  all_goals simp

@[simp] theorem State.checks_blockPiece (k : Nat) : (s.blockPiece p r k).1.checks p = s.checks p := by
  unfold State.blockPiece
  dsimp only
  repeat' split
  all_goals simp

/-! ### Cycles -/

@[simp] theorem State.checks_feedPiece (k : Nat) : (s.feedPiece p r k).1.checks p = s.checks p := by
  simp [State.feedPiece]

@[simp] theorem State.checks_piece (x : Piece) : (s.piece p r x).1.checks p = s.checks p := by
  unfold State.piece
  repeat' split
  all_goals simp

@[simp] theorem State.checks_runStep (n : Nat) : (s.runStep p r n).1.checks p = s.checks p :=
  State.checks_foldlRun p (fun x a => x.1.checks_piece p x.2 a) ..

@[simp] theorem State.checks_stepRuns (n : Nat) (rs : List Run) : (s.stepRuns p n rs).1.checks p = s.checks p := by
  induction rs generalizing s with
  | nil => rfl
  | cons r rs ih =>
    unfold State.stepRuns
    exact (ih _).trans (State.checks_runStep ..)

@[simp] theorem State.checks_sweep (n : Nat) : (s.sweep p n).checks p = s.checks p := by
  unfold State.sweep
  dsimp only
  rw [State.checks_modCore, State.checks_stepRuns]
  exact fun _ => rfl

@[simp] theorem State.checks_freezeFor (n code k : Nat) : (s.freezeFor p n code k).checks p = s.checks p := by
  refine (State.checks_modCore _ p fun c => c.checks_freeze ..).trans (State.checks_foldl _ p (fun s x => ?_) _)
  split <;> rfl

@[simp] theorem State.checks_reach (n : Nat) (codes : State → CycleCodes) : (s.reach p n codes).checks p = s.checks p := by
  unfold State.reach
  dsimp only
  rw [State.checks_passTo, apply_ite fun t : State => t.checks p]
  simp

theorem State.checks_advanceFor (codes : State → CycleCodes) (fuel t : Nat) : (State.advanceFor codes fuel s p t).checks p = s.checks p := by
  induction fuel generalizing s with
  | zero => exact State.checks_passTo ..
  | succ n ih =>
    unfold State.advanceFor
    split
    · split
      · rw [ih, State.checks_sweep, State.checks_reach]
      · exact State.checks_passTo ..
    · exact State.checks_passTo ..

/-- Time passing on a core neither begins nor ends a field test or a recheck there. -/
theorem State.checks_advanceWaiting (t : Nat) : (s.advanceWaiting p t).checks p = s.checks p := State.checks_advanceFor ..

end
end Sys2Proof.Machine
end

section
/-! SUPPORT. What a verdict of the checker comes to (R343) (O34). -/

namespace Sys2Proof.Machine

section
variable {s : State} {p : Fin 20} {d : Verdict} {rest : Core} {s1 s2 : State} {t : Nat}
  (drops : { s.core p with verdicts := (s.core p).verdicts.erase d } = rest)
  (passes : (s.setCore p rest).advanceWaiting p t = s1)
  (counts : s1.modCore p (fun c => { c with tripCnt := c.tripCnt + 1, tripSet := d.set == 1, tripReasons := BitVec.ofNat 4 d.reasons }) = s2)
include drops passes counts

/-- The core is in a field test or a recheck when the verdict falls just where it was before. -/
theorem State.checks_of_verdict : s2.checks p = s.checks p := by
  subst drops passes counts
  rw [State.checks_modCore, State.checks_advanceWaiting, State.checks, State.core_setCore]
  · rfl
  · exact fun _ => rfl

theorem execCheckerVerdict_eq (first : (s.core p).firstVerdict = some d) (due : max (s.core p).cycle d.cycle = t)
    (ready : rest.overdue t = false) :
    execCheckerVerdict p s =
      if d.reasons = 0 then .next s1
      else if (s2.core p).test.isSome || (s2.core p).recheck.isSome then .next s2
      else if d.recheckable then
        .next ((s2.modCore p fun c => { c.stop with chkStop := true }).queueArb
          ⟨p.val, d, ((s2.core p).v.map fun v => v.readTile d.dst d.len).getD [], none⟩)
      else .next ((s2.pauseAll 3).post 0x0C02 (arbPayload d (s.core p).vnum p.val 0xFF 0 false d.crc 0 0)) := by
  have stays := State.checks_of_verdict drops passes counts
  have test : (s2.core p).test = (s.core p).test := congrArg Prod.fst stays
  have recheck : (s2.core p).recheck = (s.core p).recheck := congrArg Prod.snd stays
  rw [test, recheck]
  subst drops passes counts due
  simp only [execCheckerVerdict, first, ready, Bool.false_eq_true, if_false]

end
end Sys2Proof.Machine

open Sys2Proof Sys2Proof.Machine

/-- Settles O34: the audits by the accesses that they compare, CHKSET and CNTRD.U by what their issue meets, a verdict and a run of arbitration by
the branch of its command that the hypotheses name. -/
theorem checksTrip : Obligations.ChecksTrip := by
  refine ⟨fun c reads => ⟨c.earlyRead_eq_none_iff reads, fun info early => ?early⟩,
    fun s p k opcode reads writes go => ⟨fun info => State.audit_early, fun clear => State.audit_clear ?clear⟩,
    Access.races_iff, fun c news => ⟨?due, ?pairs, ?records, c.settleRaces_count, c.settleRaces_room, ?settled⟩,
    fun s p k ops v t => ⟨?chkset, ?cntrd⟩, ?verdict, ?runs, fun s p a rest arbs core => ⟨?waits, fun s1 stopped free => ?resumes⟩⟩
  case early =>
    obtain ⟨r, hr, w, found, rfl⟩ := Core.earlyRead_spec early
    obtain ⟨hw, write, meets, hidden⟩ := Core.hiddenWrite_spec found
    exact ⟨r, hr, w, hw, write, meets, hidden, rfl⟩
  case clear => exact fun on => clear.resolve_left (by simp [on])
  case due => rw [Core.auditRaces_eq]
  case pairs =>
    intro x
    rw [Core.auditRaces_eq, List.mem_append, Core.mem_newRaces]
  case records =>
    intro x hx
    refine (c.settleRaces_records hx).imp_right ?_
    rintro ⟨y, due, past, rfl⟩
    exact ⟨y, due, past, rfl, rfl, c.mem_raceRecord_ops y⟩
  case settled =>
    rw [Core.settleRaces_eq]
    rfl
  case chkset =>
    dsimp only
    intro runs
    rw [exec_chkset, execChkset, State.issue_of_runs runs]
    refine ⟨fun b outside => ?_, fun inside => ⟨fun f bad => ?_, fun sound clear => ⟨fun b refused => ?_, fun legal => ?_⟩⟩⟩
    · simp only [outside]
    · simp only [inside, List.findSome?_cons, bad]
    · simp only [inside, List.findSome?_cons, List.findSome?_nil, sound, State.audit_clear clear, List.append_nil, refused]
    · simp only [inside, List.findSome?_cons, List.findSome?_nil, sound, State.audit_clear clear, List.append_nil, legal]
  case cntrd =>
    dsimp only
    intro runs
    rw [exec_cntrdU, execCntrdU, State.issue_of_runs runs]
    refine ⟨fun y outside => ?_, fun inside => ?_⟩
    · simp only [outside]
    · simp only [inside, State.audit_clear (State.clear_nil _ _), List.nil_append]
  case verdict =>
    intro s p d c rest t s1 s2 first ready
    rw [exec_checkerVerdict, execCheckerVerdict_eq (s2 := s2) rfl rfl rfl first rfl ready]
    refine ⟨fun passes => if_pos passes, fun trips extra => ?_, fun trips test recheck => ?_⟩
    · have extra : ((s2.core p).test.isSome || (s2.core p).recheck.isSome) = true := by
        simpa [Option.isSome_iff_ne_none] using extra
      rw [if_neg trips, if_pos extra]
    · have alone : ¬ ((s2.core p).test.isSome || (s2.core p).recheck.isSome) = true := by simp [test, recheck]
      rw [if_neg trips, if_neg alone]
      exact ⟨fun again => if_pos again, fun final => if_neg (Bool.eq_false_iff.1 final)⟩
  case runs =>
    intro s p a rest r
    dsimp only
    intro arbs core routine
    rw [exec_recheckRun, exec_recheckRun, exec_thirdRun, exec_thirdRun]
    refine ⟨fun second idle => ?begins, fun strands runs => ?ends,
      fun run2 second third => ?thirdBegins, fun run2 spare second third => ?thirdEnds⟩
    case begins =>
      simp only [execRecheckRun, arbs, core, routine, idle, second, ne_eq, not_true_eq_false, if_false, Option.isSome_none,
        Bool.false_eq_true]
      exact ⟨fun s1 drained => by rw [drained], fun busy => by rw [busy]⟩
    case ends =>
      simp only [execRecheckRun, arbs, core, routine, runs, ne_eq, not_true_eq_false, if_false]
      refine ⟨fun busy => by rw [busy], fun s1 run2 scratch => ?_⟩
      simp only [scratch]
      exact ⟨fun same => if_pos same, fun differs alone => by simp [differs, alone], fun differs spare => by simp [differs, spare]⟩
    case thirdBegins =>
      simp only [execThirdRun, arbs, core, routine, second, third, ne_eq, not_true_eq_false, if_false]
      exact ⟨fun spare v idle resident e u fresh => by simp only [idle, resident, fresh], fun noSpare => by simp only [noSpare]⟩
    case thirdEnds =>
      simp only [execThirdRun, arbs, core, routine, second, third, ne_eq, not_true_eq_false, if_false]
      exact ⟨fun busy => by rw [busy], fun s1 run3 scratch => by rw [scratch]⟩
  case waits =>
    simp [execChkResume, arbs, core]
  case resumes =>
    have settled : (s1.chk.arbs.any fun b => b.core == p.val) = false := by simpa using free
    rw [exec_chkResume, execChkResume, stopped, settled]
    rfl
end
